-- ==== Sys2Proof/Word.lean ====
section
/-!
DEFINITION. Sys2Proof/Word.lean: the word types of the SKZ9. A register value is a `Word` of 64 bits, a
capability a `Cap` of 128 bits (R93), a mask a `Mask` of 1,024 lanes (R34). `AMap` is the type of a sparse map by
number, kept as a list of pairs with rising keys; its operations stand in Sys2Proof/Machine/Bits.lean.
-/

namespace Sys2Proof

/-- A 64-bit register value or instruction word (R133). -/
abbrev Word := BitVec 64

/-- One byte of memory. -/
abbrev Byte := BitVec 8

/-- A capability without its hidden tag (R93). -/
abbrev Cap := BitVec 128

/-- A lane mask of 1,024 lanes: lane l is bit l, mask word w is bits 32w to 32w+31 (R34). -/
abbrev Mask := BitVec 1024

/-- Sparse data by number: pairs with strictly rising keys. -/
abbrev AMap (β : Type) := List (Nat × β)

end Sys2Proof
end

