-- ==== Sys2Proof/Config.lean ====
section
/-!
DEFINITION. Sys2Proof/Config.lean: what the spec fixes for every Z9 (R2, R16, R47, R280, R350 to R354) and the free
values: constants with no body, each a value that the spec leaves open (assumption log 8, 9, 11).
-/

namespace Sys2Proof.Config

/-- Cores of the device (R12). -/
def cores : Nat := 512
/-- Clusters, each with one L2 slice (R12). -/
def clusters : Nat := 128
/-- HBM channels: 32 for each of 16 stacks (R293). -/
def channels : Nat := 512
/-- Queue registration slots (R325). -/
def queueSlots : Nat := 2048
/-- Virtual interfaces (R324). -/
def interfaces : Nat := 64
/-- Scratchpad bytes of a core (R2). -/
def spBytes : Nat := 2097152
/-- Register-file bytes of a partition (R16). -/
def poolBytes : Nat := 262144
/-- Split-table entries of a partition (R37). -/
def splitEntries : Nat := 64
/-- Operations that wait at a subarray (R280). -/
def subQueue : Nat := 4
/-- Lines of a core's L1: 256 KiB in lines of 256 bytes (R101). -/
def l1Lines : Nat := 1024
/-- Lines of an L2 slice: 4 MiB in lines of 256 bytes (R2, R103). -/
def l2Lines : Nat := 16384
/-- Bytes of a slice's set store (R2, R106). -/
def setStoreBytes : Nat := 524288
/-- Bytes of a near set body at most (R253). -/
def nearBytes : Nat := 262144
/-- The watchdog's last count (R352). -/
def wdMax : Nat := 4294967295
/-- Clocks of the fabric timeout (R353). -/
def fabricClocks : Nat := 1073741824
/-- Clocks after which a pending request is overdue (R354). -/
def overdueClocks : Nat := 268435456
/-- Clocks after which a test is skipped (R414). -/
def testSkipClocks : Nat := 1073741824

/-- A free bit: choices that the spec leaves to the device, such as whether an L1 still holds a line (log 11). [log 11: DESIGN CHOICE] -/
opaque freeBit : Nat → Bool

/-- A free number: a sample's latencies, a fabric port, and values of a report that the spec does not state (log 9). [log 9: DESIGN CHOICE] -/
opaque freeNat : Nat → Nat

/-- The issue that a window of a sampler tags (R361: chosen by a generator that programs do not see), by the sampler's SOURCE and the
number of the window (log 9). [log 9: DESIGN CHOICE] -/
opaque samplePick : Nat → Nat → Nat

/-- Which of the two neighbours of an inexact true result a special function delivers, by function (0 `frcp`, 1 `frsq`)
type code and operand (R81: within 1 ulp, log 8). [log 8: DESIGN CHOICE] -/
opaque spfUp : Nat → Nat → Nat → Bool

/-- Whether `frcp` or `frsq` delivers the number below a power of two that the true result exceeds by at most half an ulp (R81:
within 1 ulp, log 8), by function, type code and operand. [log 8: DESIGN CHOICE] -/
opaque spfUnder : Nat → Nat → Nat → Bool

/-- For `fexp2` and `flog2`, which are monotonic: a result is the upper neighbour when the operand is at or above this
threshold of its result interval, by function (3, 4), type code and lower neighbour (R81, log 8). Where the number
below a power of two is still within 1 ulp of a result above it, the threshold of the interval below decides. [log 8: DESIGN CHOICE] -/
opaque spfThreshold : Nat → Nat → Nat → Int

/-- The set of a core TLB in which a translation stands, by address space, level and page (R88 gives 8 ways and no index; log 11).
[log 11: DESIGN CHOICE] -/
opaque tlbSet : Nat → Nat → Nat → Nat

/-- A scratchpad byte as dispatch leaves it (R17: unspecified): by dispatch and offset (log 6). [log 6: DESIGN CHOICE] -/
opaque scratchByte : Nat → Nat → Byte

/-- The bytes of a set's backing area after `set.free` (R252, R267, log 9). [log 9: DESIGN CHOICE] -/
opaque freeByte : Nat → Byte

end Sys2Proof.Config
end

