-- ==== Sys2Proof/Machine/Bits.lean ====
section
/-!
DEFINITION. Sys2Proof/Machine/Bits.lean: bit fields, sign extension, counts, byte order and the operations of the
sparse maps (`AMap`) that every later layer uses. All are structural recursion and BitVec or Nat arithmetic.
-/

namespace Sys2Proof

/-! ### Sparse maps -/

/-- The value at `k`, if the map lists one. -/
def AMap.find? {β : Type} : AMap β → Nat → Option β
  | [], _ => none
  | (j, v) :: m, k => if j = k then some v else AMap.find? m k

/-- Remove every entry of `k`. -/
def AMap.erase {β : Type} : AMap β → Nat → AMap β
  | [], _ => []
  | (j, v) :: m, k => if j = k then AMap.erase m k else (j, v) :: AMap.erase m k

/-- Insert an entry before the first larger key. -/
def AMap.place {β : Type} : AMap β → Nat → β → AMap β
  | [], k, v => [(k, v)]
  | (j, w) :: m, k, v => if k < j then (k, v) :: (j, w) :: m else (j, w) :: AMap.place m k v

/-- Set the entry of `k`. -/
def AMap.put {β : Type} (m : AMap β) (k : Nat) (v : β) : AMap β := AMap.place (AMap.erase m k) k v

/-- Read with a default: an unlisted key reads `d`. -/
def AMap.get {β : Type} (d : β) (m : AMap β) (k : Nat) : β := (AMap.find? m k).getD d

/-- Write with a default: writing `d` removes the entry, so that equal maps are equal lists. -/
def AMap.set {β : Type} [DecidableEq β] (d : β) (m : AMap β) (k : Nat) (v : β) : AMap β :=
  if v = d then AMap.erase m k else AMap.put m k v

/-- Change a listed entry. -/
def AMap.modify {β : Type} (m : AMap β) (k : Nat) (f : β → β) : AMap β :=
  match AMap.find? m k with
  | some v => AMap.put m k (f v)
  | none => m

/-- Keys rise strictly and no entry holds the default: the canonical form. -/
def AMap.wfFrom {β : Type} [DecidableEq β] (d : β) : Nat → AMap β → Bool
  | _, [] => true
  | lo, (k, v) :: m => decide (lo ≤ k) && decide (v ≠ d) && AMap.wfFrom d (k + 1) m

/-- The canonical form of a sparse map (keys strictly rising, no default listed). -/
def AMap.wf {β : Type} [DecidableEq β] (d : β) (m : AMap β) : Bool := AMap.wfFrom d 0 m

/-! ### Lists -/

/-- Element i, or a default. -/
def nth {α : Type} (d : α) : List α → Nat → α
  | [], _ => d
  | x :: _, 0 => x
  | _ :: xs, n + 1 => nth d xs n

/-- Replace element i, if there is one. -/
def setNth {α : Type} : List α → Nat → α → List α
  | [], _, _ => []
  | _ :: xs, 0, y => y :: xs
  | x :: xs, n + 1, y => x :: setNth xs n y

/-- Remove element i, if there is one. -/
def dropNth {α : Type} : List α → Nat → List α
  | [], _ => []
  | _ :: xs, 0 => xs
  | x :: xs, n + 1 => x :: dropNth xs n

/-- The numbers lo to lo + n − 1. -/
def upto : Nat → Nat → List Nat
  | _, 0 => []
  | lo, n + 1 => lo :: upto (lo + 1) n

/-- The first element that a test accepts, with its index. -/
def findIx {α : Type} (p : α → Bool) : List α → Nat → Option (Nat × α)
  | [], _ => none
  | x :: xs, i => if p x then some (i, x) else findIx p xs (i + 1)

/-- Insertion into a list sorted by a key. -/
def insertBy {α : Type} (key : α → Nat) (x : α) : List α → List α
  | [] => [x]
  | y :: ys => if key x < key y then x :: y :: ys else y :: insertBy key x ys

/-! ### Bit fields -/

/-- Bits [lo+n−1 : lo] of a number. -/
def bits (x lo n : Nat) : Nat := x / 2 ^ lo % 2 ^ n

/-- Bit i of a number. -/
def bit (x i : Nat) : Bool := x / 2 ^ i % 2 == 1

/-- A Boolean as 0 or 1. -/
def b01 (b : Bool) : Nat := if b then 1 else 0

/-- A Boolean as a 64-bit 0 or 1. -/
def w01 (b : Bool) : Word := if b then 1 else 0

/-- The signed value of the low w bits of x. -/
def sgn (w x : Nat) : Int :=
  let y := x % 2 ^ w
  if 2 * y < 2 ^ w then (y : Int) else (y : Int) - (2 : Int) ^ w

/-- The low w bits of an integer in two's complement. -/
def wrap (w : Nat) (i : Int) : Nat := (i % (2 : Int) ^ w).toNat

/-- Number of 1 bits among bits 0 to n − 1. -/
def popc : Nat → Nat → Nat
  | 0, _ => 0
  | n + 1, x => x % 2 + popc n (x / 2)

/-- Leading zero bits of x in width n. -/
def clz : Nat → Nat → Nat
  | 0, _ => 0
  | n + 1, x => if bit x n then 0 else 1 + clz n x

/-- Lowest set bit among bits i to i + n − 1, if any. -/
def lowest : Nat → Nat → Nat → Option Nat
  | 0, _, _ => none
  | n + 1, i, x => if bit x i then some i else lowest n (i + 1) x

/-- Floor of log2 for x below 2^n; 0 for 0. -/
def log2f : Nat → Nat → Nat
  | 0, _ => 0
  | n + 1, x => if 2 ^ (n + 1) ≤ x then n + 1 else log2f n x

/-- The ceiling of a / b, and 0 for b = 0. -/
def ceilDiv (a b : Nat) : Nat := if b = 0 then 0 else (a + b - 1) / b

/-- Little-endian bytes of a number. -/
def bytesOf : Nat → Nat → List Byte
  | 0, _ => []
  | n + 1, x => BitVec.ofNat 8 x :: bytesOf n (x / 256)

/-- The number that little-endian bytes hold. -/
def leNat : List Byte → Nat
  | [] => 0
  | b :: bs => b.toNat + 256 * leNat bs

/-! ### Masks (R34) -/

/-- Lane l is in the mask. -/
def laneIn (m : Mask) (l : Nat) : Bool := m.getLsbD l

/-- The mask of lanes 0 to L − 1. -/
def fullMask (L : Nat) : Mask := BitVec.ofNat 1024 (2 ^ L - 1)

/-- The mask of the lanes below L that a test accepts. -/
def maskOf (L : Nat) (p : Nat → Bool) : Mask :=
  (upto 0 L).foldl (fun m l => if p l then m ||| BitVec.ofNat 1024 (2 ^ l) else m) 0

/-- The lanes of a mask below L, ascending. -/
def lanesOf (L : Nat) (m : Mask) : List Nat := (upto 0 L).filter (laneIn m)

/-- Mask word w (R34). -/
def maskWord (m : Mask) (w : Nat) : Nat := bits m.toNat (32 * w) 32

/-- The summary word: bit w is set exactly when mask word w is not zero (R34). -/
def summary (m : Mask) : Nat :=
  (upto 0 32).foldl (fun a w => if maskWord m w == 0 then a else a + 2 ^ w) 0

/-- The issue cost of a vector instruction: its non-empty mask words (R35). -/
def issueCost (m : Mask) : Nat := popc 32 (summary m)

/-- The lowest active lane, 0 when the mask is empty. -/
def lowLane (m : Mask) : Nat := (lowest 1024 0 m.toNat).getD 0

/-! ### Fields of a capability (R93) -/

/-- BASE [63:0]. -/
def capBase (c : Cap) : Nat := bits c.toNat 0 64
/-- LENGTH [103:64]. -/
def capLen (c : Cap) : Nat := bits c.toNat 64 40
/-- Permission bits [109:104]: RD, WR, AT, LC, SC, EN. -/
def capPerm (c : Cap) : Nat := bits c.toNat 104 6
/-- KIND [115:112]. -/
def capKind (c : Cap) : Nat := bits c.toNat 112 4
/-- KSPEC [127:116]. -/
def capKspec (c : Cap) : Nat := bits c.toNat 116 12
/-- A capability from its fields. -/
def mkCap (base len perm kind kspec : Nat) : Cap :=
  BitVec.ofNat 128 (base % 2 ^ 64 + len % 2 ^ 40 * 2 ^ 64 + perm % 64 * 2 ^ 104 + kind % 16 * 2 ^ 112
    + kspec % 2 ^ 12 * 2 ^ 116)

/-- Permission bits of R93 as a mask. -/
def permRD : Nat := 1
def permWR : Nat := 2
def permAT : Nat := 4
def permLC : Nat := 8
def permSC : Nat := 16
def permEN : Nat := 32

/-- Every permission of `need` is in `have_`. -/
def permOk (have_ need : Nat) : Bool := (upto 0 6).all fun i => !bit need i || bit have_ i

/-- Reflected CRC-32C of one byte step (R172). -/
def crcBit : Nat → Nat → Nat
  | 0, c => c
  | n + 1, c => crcBit n (if c % 2 == 1 then Nat.xor (c / 2) 0x82F63B78 else c / 2)

/-- CRC-32C over n little-endian bytes of x, without inversion (R172). -/
def crcBytes : Nat → Nat → Nat → Nat
  | 0, _, c => c
  | n + 1, x, c => crcBytes n (x / 256) (crcBit 8 (Nat.xor c (x % 256)))

end Sys2Proof
end

