-- ==== Sys2Proof/Syntax.lean ====
section
/-!
DEFINITION. Sys2Proof/Syntax.lean: the instructions and events of spec/opcode_table.json, one constructor of `Instr`
for each of its 328 rows. Rows 0 to 202 are words of a team, rows 203 to 216 words of the matrix stream, and rows 217
to 327 events of the device, each one whole step (spec/95_what_each_step_holds.md). Operands are typed by what their
field accepts (R138, R142 to R146, R158, R176, R194, R265, R276, R311); the limits a type does not carry stand in
Sys2Proof/WellFormed.lean.
-/

namespace Sys2Proof

/-- `s0` to `s63`. -/
abbrev SReg := BitVec 6
/-- `v0` to `v127`. -/
abbrev VReg := BitVec 7
/-- `c0` to `c31`. -/
abbrev CReg := BitVec 5
/-- `p0` to `p7`; `p7` always reads true (R138). -/
abbrev PReg := BitVec 3

/-- The special operands 0xE8 to 0xED (R138). -/
inductive Special | zero | lid | tid | bid | lcnt | clock
  deriving DecidableEq, Repr

/-- GUARD (R140): bit 3 negates, bits [2:0] name the predicate. -/
structure Guard where
  neg : Bool
  p : PReg
  deriving DecidableEq, Repr

/-- A source of the scalar classes (R158). -/
inductive SSrc | s (r : SReg) | spec (x : Special)
  deriving DecidableEq, Repr

/-- A source of the vector classes (R176). -/
inductive VSrc | v (r : VReg) | s (r : SReg) | spec (x : Special)
  deriving DecidableEq, Repr

/-- SRCA of class 0x08 (R176): a vector register or `zero`. -/
inductive VASrc | v (r : VReg) | zero
  deriving DecidableEq, Repr

/-- DEST of `v.cmp` and `v.fcmp` (R176). -/
inductive VDest | v (r : VReg) | p (r : PReg)
  deriving DecidableEq, Repr

/-- SRCC of `v.sel` (R180). -/
inductive SelSrc | src (x : VSrc) | p (r : PReg)
  deriving DecidableEq, Repr

/-- An index that acts once: `s0` to `s63`, or `zero` (R158, R194). -/
inductive SIdx | s (r : SReg) | zero
  deriving DecidableEq, Repr

/-- A per-lane index or element: a vector or scalar register, `zero` or `lid` (R194, R265). -/
inductive VIdx | v (r : VReg) | s (r : SReg) | zero | lid
  deriving DecidableEq, Repr

/-- The integer types (R142). -/
inductive IType | i8 | i16 | i32 | i64 | n8 | n16 | n32 | n64 | i4
  deriving DecidableEq, Repr

/-- The types of the float classes (R183). -/
inductive FType | f32 | f16 | bf16
  deriving DecidableEq, Repr

/-- The element types of R142. -/
inductive ElType
  | i8 | i16 | i32 | i64 | n8 | n16 | n32 | n64 | f32 | f16 | bf16 | e4m3 | e5m2 | e3m2 | e2m3 | e2m1 | o4 | c4 | i4
  deriving DecidableEq, Repr

/-- The compare conditions of R145; `uo` and `ord` in `v.fcmp` only. -/
inductive Cond | eq | ne | lt | le | gt | ge | uo | ord
  deriving DecidableEq, Repr

/-- The rounding modes 0 to 3 of R70. -/
inductive RMode | rne | rtz | rdn | rup
  deriving DecidableEq, Repr

/-- The rounding of a conversion: a mode, or SR with its seed register (R72, R187). -/
inductive Rnd | mode (m : RMode) | sr (seed : SReg)
  deriving DecidableEq, Repr

/-- The scopes of R107. -/
inductive Scope | lane | team | blk | clu | stk | dev | fab | bank | arr
  deriving DecidableEq, Repr

/-- ORD with its SCOPE (R144). -/
inductive MOrd | plain | acq (s : Scope) | rel (s : Scope) | ar (s : Scope)
  deriving DecidableEq, Repr

/-- Widths of memory forms: 8, 16, 32 and 64 bits. -/
inductive MWidth | b8 | b16 | b32 | b64
  deriving DecidableEq, Repr

/-- ATYPE of the atomics (R198). -/
inductive AType | i32 | i64 | n32 | n64 | f32
  deriving DecidableEq, Repr

/-! ### Operand shapes of the team words -/

/-- A form with no operand but its guard. -/
structure GOnly where (g : Guard) deriving DecidableEq, Repr
/-- Scalar two-source form (R161). -/
structure SBin where (g : Guard) (d : SReg) (a b : SSrc) deriving DecidableEq, Repr
/-- Scalar two-source form with a type: `sg` true for `.i64`, false for `.n64` (R161). -/
structure STy where (g : Guard) (d : SReg) (a b : SSrc) (sg : Bool) deriving DecidableEq, Repr
/-- Scalar one-source form. -/
structure SUn where (g : Guard) (d : SReg) (a : SSrc) deriving DecidableEq, Repr
/-- `s.cmp`. -/
structure SCmp where (g : Guard) (d : SReg) (a b : SSrc) (sg : Bool) (c : Cond) deriving DecidableEq, Repr
/-- `s.sel`. -/
structure SSel where (g : Guard) (d : SReg) (a b c : SSrc) deriving DecidableEq, Repr
/-- Scalar immediate form (R135, R161). -/
structure SImm where (g : Guard) (d : SReg) (a : SSrc) (imm : BitVec 28) deriving DecidableEq, Repr
/-- `s.li`. -/
structure SLi where (g : Guard) (d : SReg) (imm : BitVec 28) deriving DecidableEq, Repr

/-- The scalar functions that a prefix may carry, with the operand other than source B (R137). -/
inductive CScalar
  | add | sub | mul | mulh (sg : Bool) | and | or | xor | andn | shl | shr | sra | min (sg : Bool) | max (sg : Bool)
  | cmp (sg : Bool) (c : Cond) | sel (c : SSrc)
  deriving DecidableEq, Repr

/-- The vector integer functions that a prefix may carry (R137, R179 to R181). -/
inductive CVInt
  | add | sub | mul | mulh | mad (c : VSrc) | adds | subs | and | or | xor | andn | shl | shr | sra | min | max
  | sel (c : SelSrc) | pack | unpk | ext | ins (c : VSrc)
  deriving DecidableEq, Repr

/-- The vector float functions that a prefix may carry (R137, R183). -/
inductive CVFloat | fadd (m : RMode) | fsub (m : RMode) | fmul (m : RMode) | fma (c : VSrc) (m : RMode) | fmin | fmax
  deriving DecidableEq, Repr

/-- The instruction that a long-immediate prefix carries (R137). -/
inductive Carried
  | scalar (f : CScalar) (d : SReg) (a : SSrc)
  | vint (f : CVInt) (d : VReg) (a : VASrc) (ty : IType)
  | vcmp (d : VDest) (a : VASrc) (ty : IType) (c : Cond)
  | vfloat (f : CVFloat) (d : VReg) (a : VReg) (ty : FType)
  | vfcmp (d : VDest) (a : VReg) (ty : FType) (c : Cond)
  deriving DecidableEq, Repr

/-- The two-word instruction: its guard, what it carries and LIMM. -/
structure Prefixed where (g : Guard) (carried : Carried) (limm : Word) deriving DecidableEq, Repr
/-- `sig.chk` as its own row: the prefix carrying 0x06, function 0x05 (R173). -/
structure SigChk where (g : Guard) (limm : Word) deriving DecidableEq, Repr

/-- The load widths of `s.ld`: zero- or sign-extended (R162). -/
inductive SLdW | n8 | n16 | n32 | n64 | i8 | i16 | i32
  deriving DecidableEq, Repr

/-- `s.ld` (R162). -/
structure SLd where
  (g : Guard) (la : BitVec 4) (d : SReg) (cap : CReg) (idx : SIdx) (disp : BitVec 8) (scale : BitVec 2)
  (ord : MOrd) (w : SLdW) deriving DecidableEq, Repr
/-- `s.st` (R162): `d` is the data register. -/
structure SSt where
  (g : Guard) (la : BitVec 4) (d : SReg) (cap : CReg) (idx : SIdx) (disp : BitVec 8) (scale : BitVec 2)
  (ord : MOrd) (w : MWidth) deriving DecidableEq, Repr
/-- `br` (R163): the offset counts words from the branch. -/
structure BrT where (g : Guard) (target : BitVec 18) deriving DecidableEq, Repr
/-- `brc`, `call` and `loop` (R163). -/
structure BrS where (g : Guard) (c : SReg) (target : BitVec 18) deriving DecidableEq, Repr
/-- `brv` (R163). -/
structure BrV where (g : Guard) (c : PReg) (reconv target : BitVec 18) deriving DecidableEq, Repr
/-- `breakv` (R163): the exit address stands in TARGET. -/
structure BkV where (g : Guard) (c : PReg) (target : BitVec 18) deriving DecidableEq, Repr
/-- `ret` and `jmp` (R164). -/
structure JmpS where (g : Guard) (a : SReg) deriving DecidableEq, Repr
/-- `waitcnt` (R164). -/
structure WaitC where (g : Guard) (m s a b : BitVec 6) deriving DecidableEq, Repr
/-- Predicate form with two sources (R166). -/
structure PBin where (g : Guard) (d a b : PReg) deriving DecidableEq, Repr
/-- Predicate form with one source (R166). -/
structure PUn where (g : Guard) (d a : PReg) deriving DecidableEq, Repr
/-- Predicate reduction (R167). -/
structure PRed where (g : Guard) (d : SReg) (a : PReg) deriving DecidableEq, Repr
/-- `p.fromv` (R166). -/
structure PFromV where (g : Guard) (d : PReg) (a : VReg) deriving DecidableEq, Repr
/-- `p.tov` (R166). -/
structure PToV where (g : Guard) (d : VReg) (a : PReg) deriving DecidableEq, Repr
/-- `p.act` (R168). -/
structure PAct where (g : Guard) (d a : SReg) deriving DecidableEq, Repr
/-- `trap` and `brk`: a 16-bit code (R169, R170). -/
structure Code16 where (g : Guard) (code : BitVec 16) deriving DecidableEq, Repr

/-- The control and status registers of R149. -/
inductive Csr
  | teamstat | allot | prio | fpflags | stbcnt | sigacc | trapvec | trapcause | trappc | trapword | faultstat | bbase
  | rowprog
  deriving DecidableEq, Repr

/-- `csrr` and `csrw` (R171): `r` is the destination or the source. -/
structure CsrOp where (g : Guard) (r : SReg) (csr : Csr) deriving DecidableEq, Repr
/-- `grow` and `shrink`: n is the whole signed IMM (R174, R346). -/
structure GrowN where (g : Guard) (n : BitVec 28) deriving DecidableEq, Repr
/-- `allot` (R174). -/
structure AllotN where (g : Guard) (d : SReg) (n : BitVec 28) deriving DecidableEq, Repr
/-- `rolesw` (R175). -/
structure RoleSw where (g : Guard) (d a b : SReg) deriving DecidableEq, Repr
/-- Vector integer two-source form (R179). -/
structure VBin where (g : Guard) (d : VReg) (a : VASrc) (b : VSrc) (ty : IType) deriving DecidableEq, Repr
/-- Vector integer three-source form: `v.mad`, `v.ins`. -/
structure VTern where (g : Guard) (d : VReg) (a : VASrc) (b c : VSrc) (ty : IType) deriving DecidableEq, Repr
/-- Vector integer one-source form. -/
structure VUn where (g : Guard) (d : VReg) (a : VASrc) (ty : IType) deriving DecidableEq, Repr
/-- `v.mov` (R179). -/
structure VMov where (g : Guard) (d : VReg) (a : VSrc) (ty : IType) deriving DecidableEq, Repr
/-- `v.cmp` (R180). -/
structure VCmp where (g : Guard) (d : VDest) (a : VASrc) (b : VSrc) (ty : IType) (c : Cond) deriving DecidableEq, Repr
/-- `v.sel` (R180). -/
structure VSel where (g : Guard) (d : VReg) (a : VASrc) (b : VSrc) (c : SelSrc) (ty : IType) deriving DecidableEq, Repr

/-- The widths of the vector immediate forms (R146). -/
inductive EWidth | w4 | w8 | w16 | w32 | w64
  deriving DecidableEq, Repr

/-- Vector immediate form (R182). -/
structure VImm where (g : Guard) (d a : VReg) (w : EWidth) (imm : BitVec 25) deriving DecidableEq, Repr
/-- `v.li` (R182). -/
structure VLi where (g : Guard) (d : VReg) (w : EWidth) (imm : BitVec 25) deriving DecidableEq, Repr
/-- Vector float rounding form with two sources (R183). -/
structure VFBin where (g : Guard) (d a : VReg) (b : VSrc) (ty : FType) (rm : RMode) deriving DecidableEq, Repr
/-- `v.fma` (R183). -/
structure VFma where (g : Guard) (d a : VReg) (b c : VSrc) (ty : FType) (rm : RMode) deriving DecidableEq, Repr
/-- `v.fmin` and `v.fmax` (R184). -/
structure VFMin where (g : Guard) (d a : VReg) (b : VSrc) (ty : FType) deriving DecidableEq, Repr
/-- `v.fcmp` (R184). -/
structure VFCmp where (g : Guard) (d : VDest) (a : VReg) (b : VSrc) (ty : FType) (c : Cond) deriving DecidableEq, Repr
/-- `v.fabs`, `v.fneg`, `v.fclass`. -/
structure VFUn where (g : Guard) (d a : VReg) (ty : FType) deriving DecidableEq, Repr
/-- Special function (R185). -/
structure VSpf where (g : Guard) (la : BitVec 4) (d a : VReg) (ty : FType) deriving DecidableEq, Repr
/-- `v.fsqrt` (R185). -/
structure VSqrt where (g : Guard) (la : BitVec 4) (d a : VReg) (ty : FType) (rm : RMode) deriving DecidableEq, Repr
/-- `v.cvt`, `v.cvti`, `v.cvtf` (R187). -/
structure VCvt where (g : Guard) (d a : VReg) (st dt : ElType) (rnd : Rnd) deriving DecidableEq, Repr
/-- `v.qnt` and `v.dqt` (R188). -/
structure VQnt where
  (g : Guard) (d a sc : VReg) (sel : BitVec 3) (ty : ElType) (rnd : Rnd) deriving DecidableEq, Repr
/-- `v.cbld` (R189). -/
structure VCbld where (g : Guard) (a : VReg) deriving DecidableEq, Repr
/-- `v.cbenc` (R189): `bf` true for a `.bf16` source, false for `.f32`. -/
structure VCbenc where (g : Guard) (d a : VReg) (bf : Bool) deriving DecidableEq, Repr
/-- `v.shfl` and `v.perm` (R191). -/
structure VShfl where (g : Guard) (d a : VReg) (b : VSrc) (ty : ElType) deriving DecidableEq, Repr
/-- `v.bcst` (R191). -/
structure VBcst where (g : Guard) (d a : VReg) (b : SSrc) (ty : ElType) deriving DecidableEq, Repr

/-- MODE of `v.vote` with its SRCA (R192). -/
inductive VoteMode
  | any (a : PReg) | all (a : PReg) | cnt (a : PReg) | ballot (a : PReg) | uni (a : VReg) | miss
  deriving DecidableEq, Repr

/-- `v.vote` (R192): `m` names the members, `r` the report. -/
structure VVote where (g : Guard) (d : VReg) (mode : VoteMode) (m r : PReg) deriving DecidableEq, Repr

/-- OP of `v.scan` and `v.red` (R193). -/
inductive ScanOp | add | min | max | and | or | xor
  deriving DecidableEq, Repr

/-- `v.scan` (R193). -/
structure VScan where (g : Guard) (d a : VReg) (op : ScanOp) (excl : Bool) (ty : ElType) deriving DecidableEq, Repr
/-- `v.red` (R193). -/
structure VRed where (g : Guard) (d a : VReg) (op : ScanOp) (ty : ElType) deriving DecidableEq, Repr
/-- `v.ld` (R196). -/
structure VLd where
  (g : Guard) (la : BitVec 4) (d : VReg) (cap : CReg) (idx : VIdx) (disp : BitVec 8) (scale : BitVec 2)
  (ord : MOrd) (w : MWidth) (rp : Option PReg) deriving DecidableEq, Repr

/-- The index of `v.ldb`, which takes no vector (R194). -/
inductive BIdx | s (r : SReg) | zero | lid
  deriving DecidableEq, Repr

/-- `v.ldb` (R196). -/
structure VLdb where
  (g : Guard) (la : BitVec 4) (d : VReg) (cap : CReg) (idx : BIdx) (disp : BitVec 8) (scale : BitVec 2)
  (ord : MOrd) (w : MWidth) (rp : Option PReg) deriving DecidableEq, Repr
/-- `v.st` (R196): `d` is the data register. -/
structure VSt where
  (g : Guard) (la : BitVec 4) (d : VReg) (cap : CReg) (idx : VIdx) (disp : BitVec 8) (scale : BitVec 2)
  (ord : MOrd) (w : MWidth) deriving DecidableEq, Repr
/-- An atomic of types 0 to 3, or `v.atom.fadd` (R198). -/
structure VAtom where
  (g : Guard) (la : BitVec 4) (d : VReg) (cap : CReg) (idx : VIdx) (data : VReg) (scale : BitVec 2)
  (ord : MOrd) (ty : AType) deriving DecidableEq, Repr

/-- The scope of a fence, with its address at bank and array scope (R200). -/
inductive FenceAt | at (s : Scope) | bank (cap : CReg) (idx : SIdx) | arr (cap : CReg) (idx : SIdx)
  deriving DecidableEq, Repr

/-- `fence` (R200). -/
structure Fence where (g : Guard) (f : FenceAt) deriving DecidableEq, Repr
/-- `c.narrow` (R201). -/
structure CNarrow where (g : Guard) (d a : CReg) (b c : SReg) deriving DecidableEq, Repr
/-- `c.perm` (R201). -/
structure CPerm where (g : Guard) (d a : CReg) (b : SReg) deriving DecidableEq, Repr
/-- `c.get` (R201). -/
structure CGet where (g : Guard) (d : SReg) (a : CReg) (f : BitVec 3) deriving DecidableEq, Repr
/-- `c.tag` (R201). -/
structure CTag where (g : Guard) (d : SReg) (a : CReg) deriving DecidableEq, Repr
/-- `c.mov` (R201). -/
structure CMov where (g : Guard) (d a : CReg) deriving DecidableEq, Repr
/-- `c.ld` and `c.st` (R202). -/
structure CMem where
  (g : Guard) (la : BitVec 4) (d : CReg) (cap : CReg) (idx : SIdx) (disp : BitVec 8) (scale : BitVec 2)
  (ord : MOrd) deriving DecidableEq, Repr
/-- `c.mk` (R201). -/
structure CMk where (g : Guard) (d : CReg) (a b : SReg) deriving DecidableEq, Repr
/-- `ts.init` and `ts.wait` (R205). -/
structure TsS where (g : Guard) (t : BitVec 4) (a : SReg) deriving DecidableEq, Repr
/-- `ts.arrive` and `ts.arrw` (R205). -/
structure TsN where (g : Guard) (t : BitVec 4) deriving DecidableEq, Repr
/-- `ts.query` (R205). -/
structure TsQ where (g : Guard) (d : SReg) (t : BitVec 4) deriving DecidableEq, Repr
/-- `cr.init` (R206). -/
structure CrInit where (g : Guard) (k : BitVec 2) (a : SReg) deriving DecidableEq, Repr
/-- `cr.wait` (R207). -/
structure CrWait where (g : Guard) (k : BitVec 2) (cons : Bool) (d : SReg) deriving DecidableEq, Repr
/-- `cr.pass` (R207). -/
structure CrPass where (g : Guard) (k : BitVec 2) (cons skip : Bool) deriving DecidableEq, Repr
/-- `cpy.put` (R211). -/
structure CpyPut where (g : Guard) (d : PReg) (q : CReg) (a : SReg) deriving DecidableEq, Repr
/-- `cpy.idx` (R211). -/
structure CpyIdx where (g : Guard) (d : PReg) (q : CReg) (a b : SReg) deriving DecidableEq, Repr
/-- `pg.req` (R219). -/
structure PgReq where
  (g : Guard) (la : BitVec 4) (cap : CReg) (idx : VIdx) (disp : BitVec 8) (scale : BitVec 2) (w : Bool)
  deriving DecidableEq, Repr
/-- `pg.test` (R220). -/
structure PgTest where
  (g : Guard) (la : BitVec 4) (d : PReg) (cap : CReg) (idx : VIdx) (disp : BitVec 8) (scale : BitVec 2) (w : Bool)
  deriving DecidableEq, Repr
/-- `set.new` (R267). -/
structure SetNew where (g : Guard) (la : BitVec 4) (d a : CReg) (b c : SReg) deriving DecidableEq, Repr
/-- `set.free` and `set.clr`. -/
structure SetOne where (g : Guard) (la : BitVec 4) (a : CReg) deriving DecidableEq, Repr
/-- `set.ins`, `set.del` and `set.has` (R268). -/
structure SetEl where (g : Guard) (la : BitVec 4) (d : PReg) (a : CReg) (x : VIdx) deriving DecidableEq, Repr
/-- `set.card` (R269). -/
structure SetCard where (g : Guard) (la : BitVec 4) (d : SReg) (a : CReg) deriving DecidableEq, Repr
/-- `set.or`, `set.and` and `set.andn` (R270). -/
structure SetAlg where (g : Guard) (la : BitVec 4) (d a b : CReg) deriving DecidableEq, Repr
/-- `set.copy` (R270). -/
structure SetCopy where (g : Guard) (la : BitVec 4) (d a : CReg) deriving DecidableEq, Repr
/-- `set.enum` (R269). -/
structure SetEnum where (g : Guard) (la : BitVec 4) (d : VReg) (a : CReg) (c : SIdx) deriving DecidableEq, Repr
/-- `set.info` (R269). -/
structure SetInfo where (g : Guard) (la : BitVec 4) (d : SReg) (a : CReg) (f : BitVec 3) deriving DecidableEq, Repr

/-- MODE of `set.pin` (R271). -/
inductive PinMode | off | list | runs | bmap | hash | cur
  deriving DecidableEq, Repr

/-- `set.pin` (R271). -/
structure SetPin where (g : Guard) (la : BitVec 4) (a : CReg) (mode : PinMode) deriving DecidableEq, Repr
/-- `a.tld` and `a.tst` (R286): `row` is the bit-plane row, `cap` and `off` name the word layout. -/
structure ATr where
  (g : Guard) (la : BitVec 4) (sub : CReg) (wm1 : BitVec 5) (row : BitVec 8) (cap : CReg) (off : SReg)
  (prow : BitVec 8) deriving DecidableEq, Repr
/-- `a.fill` (R287). -/
structure AFill where
  (g : Guard) (la : BitVec 4) (sub : CReg) (wm1 : BitVec 5) (row : BitVec 8) (b : SReg) (prow : BitVec 8)
  deriving DecidableEq, Repr
/-- The two-operand array forms (R288) and `a.sel` (R289); `var` is the variant field. -/
structure ABin where
  (g : Guard) (la : BitVec 4) (sub : CReg) (wm1 : BitVec 5) (var : BitVec 2) (d a b prow : BitVec 8)
  deriving DecidableEq, Repr
/-- `a.shf` (R290): `k` is the signed distance. -/
structure AShf where
  (g : Guard) (la : BitVec 4) (sub : CReg) (wm1 : BitVec 5) (d a k prow : BitVec 8) deriving DecidableEq, Repr
/-- `a.popc` (R291). -/
structure APopc where
  (g : Guard) (la : BitVec 4) (sub : CReg) (wm1 : BitVec 5) (d : SReg) (a prow : BitVec 8) deriving DecidableEq, Repr
/-- `a.wait` (R292). -/
structure AWait where (g : Guard) (la : BitVec 4) (sub : CReg) deriving DecidableEq, Repr
/-- `b.lift` (R298). -/
structure BLift where (g : Guard) (la : BitVec 4) (cap : CReg) (idx : SIdx) deriving DecidableEq, Repr
/-- `b.land` (R299). -/
structure BLand where (g : Guard) (la : BitVec 4) deriving DecidableEq, Repr
/-- `b.ucld` (R313). -/
structure BUcld where (g : Guard) (la : BitVec 4) (a : SReg) (b : VReg) deriving DecidableEq, Repr
/-- `b.run` (R314). -/
structure BRun where (g : Guard) (la : BitVec 4) (a b c : SReg) deriving DecidableEq, Repr
/-- `b.step` (R315). -/
structure BStep where (g : Guard) (la : BitVec 4) (a b : SReg) deriving DecidableEq, Repr
/-- `b.wait` and `b.fence` (R316). -/
structure BWait where (g : Guard) (la : BitVec 4) (a : SReg) deriving DecidableEq, Repr
/-- `b.acc.rd` and `b.acc.wr` (R317). -/
structure BAcc where (g : Guard) (la : BitVec 4) (d : VReg) (a : SReg) deriving DecidableEq, Repr
/-- `b.stat` (R318). -/
structure BStat where (g : Guard) (la : BitVec 4) (d a : SReg) deriving DecidableEq, Repr

/-! ### Operand shapes of the matrix stream (R150) -/

/-- `d0` to `d7`, or `q0` to `q7`. -/
abbrev Desc := BitVec 3
/-- `a0` to `a3`. -/
abbrev Acc := BitVec 2

/-- Where a record load reads (R240): `idx` is `msA` or none. -/
structure RecAddr where (idx : Option (BitVec 4)) (step : BitVec 8) (off : BitVec 12) deriving DecidableEq, Repr
/-- `m.tdld`, `m.sdld` and `m.capld`. -/
structure MRec where (d : Desc) (at_ : RecAddr) deriving DecidableEq, Repr
/-- `m.zero`. -/
structure MZero where (d : Acc) deriving DecidableEq, Repr
/-- `m.acst` and `m.acld`: `ty` is the type code in MOD [11:7], checked at issue (R390). -/
structure MTr where (d : Desc) (a : Acc) (ty : BitVec 5) deriving DecidableEq, Repr

/-- What `m.wait` and `m.arrive` name (R237). -/
inductive MSync | ts (t : BitVec 4) | cr (k : BitVec 2) (cons : Bool)
  deriving DecidableEq, Repr

/-- `m.arrive`. -/
structure MArr where (at_ : MSync) deriving DecidableEq, Repr
/-- `m.wait`: `d` is the destination `ms`, or none. -/
structure MWait where (at_ : MSync) (d : Option (BitVec 4)) deriving DecidableEq, Repr
/-- `m.loop` (R239): a count of 0 faults (R390). -/
structure MLoop where (ms : BitVec 4) (n : BitVec 10) (target : BitVec 18) deriving DecidableEq, Repr
/-- `m.jmp` (R239): `hi` is IMM [27:18], which faults when not 0 (R390). -/
structure MJmp where (hi : BitVec 10) (target : BitVec 18) deriving DecidableEq, Repr
/-- `m.mirror`. -/
structure MMir where (mode : BitVec 2) deriving DecidableEq, Repr
/-- `m.rowp`. -/
structure MRowp where (d : BitVec 4) deriving DecidableEq, Repr

/-- The operand types of `m.mma` (R151). -/
inductive MType | i8 | f32 | f16 | bf16 | e4m3 | e5m2 | e3m2 | e2m3 | e2m1 | o4 | c4 | i4
  deriving DecidableEq, Repr

/-- `m.mma` (R230): a scale descriptor is `none` for 0xFF. -/
structure MMma where (ty : MType) (acc : Acc) (a b : Desc) (qa qb : Option Desc) deriving DecidableEq, Repr

/-- A word that is not an instruction (R335): the FIELD at fault (R340), and whether the cause is ROLE. -/
structure Reject where (field : BitVec 4) (role : Bool) deriving DecidableEq, Repr

/-- The configuration image that the boot controller verifies (R333, R357, R411). `domain` lists the device numbers of the
fabric domain. `interfaces` has bit v set for an
enabled interface; `tracing` likewise; `tbits` and `kbits` are T and k by interface, `ti` is TI. -/
structure Image where
  (devnum : BitVec 16) (domain : List (BitVec 16)) (interfaces tracing : BitVec 64) (tbits kbits : List Nat) (ti : Nat)
  deriving DecidableEq, Repr

/-- A storage unit in which an error cannot be corrected (R370, R371, R391, R402): a sector of HBM or of an L2, a word of a scratchpad, of a
core's L1, of a vector, scalar, predicate or capability register, of an accumulator tile, or of a near set body in the set store of a
slice; and a column latch of subarray `sub` of a set store, in use for a step on the set with header `hdr`. -/
inductive ErrUnit
  | mem (pa : Nat) | sp (core off : Nat) | l1 (core pa : Nat) | vreg (core team reg lane : Nat) | sreg (core team reg : Nat)
  | preg (core team reg : Nat) | creg (core team reg : Nat) | acc (core tile row col : Nat) | setStore (slice hdr : Nat)
  | setLatch (slice sub hdr : Nat)
  deriving DecidableEq, Repr

/-- A transaction between two L2 slices whose check has failed (R381): the next line, element or word that the started packet of a queue writes, what
it reads next, or the addition to a completion word of the queue; the next line, element or word of an inbound fabric packet; a store or atomic in
the write path of a core; a sector on its way to a core's cluster; a sector that a slice writes back; or a set's header that its home gives up when
it is recalled. -/
inductive CrcTx
  | queue (slot : Nat) | source (slot : Nat) | word (slot : Nat) | inbound (i : Nat) | path (core i : Nat) | fill (core pa : Nat)
  | writeBack (slice pa : Nat) | recall (slice hdr : Nat)
  deriving DecidableEq, Repr

/-! ### The instruction type -/

/-- Every row of spec/opcode_table.json. -/
inductive Instr
  -- scalar (R161)
  | sAdd (o : SBin) | sSub (o : SBin) | sMul (o : SBin) | sMulh (o : STy) | sAnd (o : SBin) | sOr (o : SBin)
  | sXor (o : SBin) | sAndn (o : SBin) | sShl (o : SBin) | sShr (o : SBin) | sSra (o : SBin) | sMin (o : STy)
  | sMax (o : STy) | sClz (o : SUn) | sPopc (o : SUn) | sCmp (o : SCmp) | sSel (o : SSel) | sMov (o : SUn)
  | sAddImm (o : SImm) | sSubImm (o : SImm) | sMulImm (o : SImm) | sAndImm (o : SImm) | sOrImm (o : SImm)
  | sXorImm (o : SImm) | sAndnImm (o : SImm) | sShlImm (o : SImm) | sShrImm (o : SImm) | sSraImm (o : SImm)
  | sLi (o : SLi)
  -- the two-word form (R137)
  | longImmediatePrefix (o : Prefixed)
  -- scalar memory (R162)
  | sLd (o : SLd) | sSt (o : SSt)
  -- control (R163 to R165)
  | br (o : BrT) | brc (o : BrS) | brv (o : BrV) | breakv (o : BkV) | call (o : BrS) | ret (o : JmpS) | jmp (o : JmpS)
  | loop (o : BrS) | exit (o : GOnly) | yield (o : GOnly) | safept (o : GOnly) | waitcnt (o : WaitC) | nop (o : GOnly)
  -- predicate (R166 to R168)
  | pAnd (o : PBin) | pOr (o : PBin) | pXor (o : PBin) | pAndn (o : PBin) | pNot (o : PUn) | pMov (o : PUn)
  | pAny (o : PRed) | pAll (o : PRed) | pCnt (o : PRed) | pFirst (o : PRed) | pFromv (o : PFromV) | pTov (o : PToV)
  | pAct (o : PAct)
  -- system (R169 to R173)
  | trap (o : Code16) | eret (o : GOnly) | csrr (o : CsrOp) | csrw (o : CsrOp) | brk (o : Code16) | sigChk (o : SigChk)
  | sigRst (o : GOnly)
  -- resource (R174, R175)
  | grow (o : GrowN) | shrink (o : GrowN) | rolesw (o : RoleSw) | allot (o : AllotN)
  -- vector integer (R179 to R182)
  | vAdd (o : VBin) | vSub (o : VBin) | vMul (o : VBin) | vMulh (o : VBin) | vMad (o : VTern) | vAdds (o : VBin)
  | vSubs (o : VBin) | vAnd (o : VBin) | vOr (o : VBin) | vXor (o : VBin) | vAndn (o : VBin) | vShl (o : VBin)
  | vShr (o : VBin) | vSra (o : VBin) | vMin (o : VBin) | vMax (o : VBin) | vAbs (o : VUn) | vClz (o : VUn)
  | vPopc (o : VUn) | vCmp (o : VCmp) | vSel (o : VSel) | vMov (o : VMov) | vPack (o : VBin) | vUnpk (o : VBin)
  | vExt (o : VBin) | vIns (o : VTern)
  | vAddImm (o : VImm) | vSubImm (o : VImm) | vMulImm (o : VImm) | vAndImm (o : VImm) | vOrImm (o : VImm)
  | vXorImm (o : VImm) | vAndnImm (o : VImm) | vShlImm (o : VImm) | vShrImm (o : VImm) | vSraImm (o : VImm)
  | vLi (o : VLi)
  -- vector float and special functions (R183 to R185)
  | vFadd (o : VFBin) | vFsub (o : VFBin) | vFmul (o : VFBin) | vFma (o : VFma) | vFmin (o : VFMin) | vFmax (o : VFMin)
  | vFcmp (o : VFCmp) | vFabs (o : VFUn) | vFneg (o : VFUn) | vFclass (o : VFUn)
  | vFrcp (o : VSpf) | vFrsq (o : VSpf) | vFsqrt (o : VSqrt) | vFexp2 (o : VSpf) | vFlog2 (o : VSpf)
  -- conversion and codebook (R186 to R189)
  | vCvt (o : VCvt) | vCvti (o : VCvt) | vCvtf (o : VCvt) | vQnt (o : VQnt) | vDqt (o : VQnt) | vCbld (o : VCbld)
  | vCbenc (o : VCbenc)
  -- cross-lane (R190 to R193)
  | vShfl (o : VShfl) | vBcst (o : VBcst) | vVote (o : VVote) | vScan (o : VScan) | vRed (o : VRed) | vPerm (o : VShfl)
  -- vector memory, atomics, fence (R196 to R200)
  | vLd (o : VLd) | vSt (o : VSt) | vLdb (o : VLdb)
  | vAtomAdd (o : VAtom) | vAtomMin (o : VAtom) | vAtomMax (o : VAtom) | vAtomAnd (o : VAtom) | vAtomOr (o : VAtom)
  | vAtomXor (o : VAtom) | vAtomXchg (o : VAtom) | vAtomCas (o : VAtom) | vAtomFadd (o : VAtom)
  | fence (o : Fence)
  -- capabilities (R201 to R203)
  | cNarrow (o : CNarrow) | cPerm (o : CPerm) | cGet (o : CGet) | cTag (o : CTag) | cMov (o : CMov) | cLd (o : CMem)
  | cSt (o : CMem) | cMk (o : CMk)
  -- turnstiles and carousels (R204 to R207)
  | tsInit (o : TsS) | tsArrive (o : TsN) | tsWait (o : TsS) | tsArrw (o : TsN) | tsQuery (o : TsQ)
  | crInit (o : CrInit) | crWait (o : CrWait) | crPass (o : CrPass)
  -- copy queue and page (R211, R219, R220)
  | cpyPut (o : CpyPut) | cpyIdx (o : CpyIdx) | pgReq (o : PgReq) | pgTest (o : PgTest)
  -- sets (R265 to R271)
  | setNew (o : SetNew) | setFree (o : SetOne) | setIns (o : SetEl) | setDel (o : SetEl) | setHas (o : SetEl)
  | setCard (o : SetCard) | setOr (o : SetAlg) | setAnd (o : SetAlg) | setAndn (o : SetAlg) | setCopy (o : SetCopy)
  | setClr (o : SetOne) | setEnum (o : SetEnum) | setInfo (o : SetInfo) | setPin (o : SetPin)
  -- arrays (R276 to R292)
  | aTld (o : ATr) | aTst (o : ATr) | aFill (o : AFill) | aLog (o : ABin) | aAdd (o : ABin) | aSub (o : ABin)
  | aMul (o : ABin) | aCmp (o : ABin) | aSel (o : ABin) | aShf (o : AShf) | aPopc (o : APopc) | aWait (o : AWait)
  -- banks (R298, R299, R311 to R318)
  | bLift (o : BLift) | bLand (o : BLand) | bUcld (o : BUcld) | bRun (o : BRun) | bStep (o : BStep) | bWait (o : BWait)
  | bFence (o : BWait) | bAccRd (o : BAcc) | bAccWr (o : BAcc) | bStat (o : BStat)
  -- matrix stream (R230 to R240)
  | mTdld (o : MRec) | mSdld (o : MRec) | mCapld (o : MRec) | mZero (o : MZero) | mAcst (o : MTr) | mAcld (o : MTr)
  | mArrive (o : MArr) | mWait (o : MWait) | mLoop (o : MLoop) | mJmp (o : MJmp) | mEnd | mMirror (o : MMir)
  | mRowp (o : MRowp) | mMma (o : MMma)
  -- events of a team, its core and its translations
  | illegalWordIssue (r : Reject)
  | instructionFetch (core : Nat) (va : Nat)
  | fragmentReload (core part : Nat)
  | growGrant (core part : Nat)
  | storeBufferDrain (core team : Nat)
  | storeAck (core i : Nat)
  | atomicPerform (core i : Nat)
  | loadResultReturn (core team i : Nat)
  | specialFunctionComplete (core team i : Nat)
  | pageWalk (core i : Nat)
  | walkAheadPrefetch (cluster va asid : Nat) (wr : Bool)
  | pageRequestWrite (vi : Nat)
  | faultEntryWrite (vi : Nat)
  -- events of launches and the Ringmaster
  | launchPacketRead (slot : Nat)
  | waitConditionEval (slot : Nat)
  | ringmasterDecision
  | ringmasterHoldStep
  | blockRetire (core : Nat)
  | launchComplete (slot i : Nat)
  | preemptRequest (core : Nat)
  | blockSave (core : Nat)
  | blockResume (vi i : Nat)
  | preemptOverdue (core : Nat)
  -- events of the queues and the copy engines
  | queueClaim (core team : Nat)
  | packetRead (slot : Nat)
  | packetStart (slice : Nat)
  | linearCopy (slot : Nat)
  | stridedCopy (slot : Nat)
  | gather (slot : Nat)
  | scatter (slot : Nat)
  | reduce (slot : Nat)
  | drain (slot : Nat)
  | signal (slot : Nat)
  | rangeInvalidate (slot : Nat)
  | pageReady (slot : Nat)
  | generation (slot : Nat)
  | invalidateAck (slot : Nat)
  | copyLineLand (slot : Nat)
  | reduceElementCombine (slot : Nat)
  | packetComplete (slot : Nat)
  | remoteAppend (i : Nat)
  | fabricPacketReceive (sender vi : Nat) (packet : List Word) (bytes : List Byte) (poison : List Nat)
  | peerRecovering (slot : Nat)
  | fabricTimeout (slot : Nat)
  | crcRetry (tx : CrcTx) (count : Nat)
  -- events of sets and arrays
  | setHomeStep (home k : Nat) (source : Bool)
  | setResultReturn (core team : Nat)
  | setBodyMove (home hdr : Nat)
  | arrayOpStart (core sub : Nat)
  | arrayOpEnd (core sub : Nat) (latch : Option Nat)
  | subarrayAccessServe (core team i : Nat)
  -- events of the matrix engine
  | mmaStart (core : Nat)
  | mmaRowWrite (core : Nat) (mirrorFails : Nat)
  | mmaStop (core : Nat)
  | mmaResume (core : Nat)
  | accTransferRow (core i : Nat)
  | recordLoadComplete (core i : Nat)
  | matrixDeferredArrive (core : Nat)
  -- events of stack cores and banks
  | teamLiftArrive (core team : Nat)
  | teamLandArrive (core team : Nat)
  | stackCoreIssue (stack n : Nat)
  | bankCommandArrive (core team : Nat)
  | microprogramSwap (ch : Nat)
  | runStart (ch i : Nat)
  | rowActivate (ch i : Nat)
  | microwordExecute (ch i : Nat)
  | rowPrecharge (ch i : Nat)
  | arbitrationPoint (ch i : Nat)
  | arbitrationWindowOpen (ch : Nat)
  | arbitrationWindowClose (ch : Nat)
  | refreshDue (ch : Nat)
  | bankOrdinaryAccess (ch core k : Nat)
  | runEnd (ch i : Nat)
  | bankCommandComplete (core team : Nat)
  | stackCoreParityFail (stack n : Nat)
  -- failures, tests and trace
  | eccUncorrectable (unit : ErrUnit)
  | poisonWriteback (unit : ErrUnit)
  | haltRequest (core team : Nat)
  | teamHalt (core team : Nat)
  | watchdogExpiry (core team : Nat)
  | testDue (cluster : Nat)
  | testRequest (cluster : Nat)
  | testRun (cluster : Nat)
  | testComplete (cluster : Nat) (failed : BitVec 4)
  | testSkip (cluster : Nat)
  | sampleRecordWrite (core part : Nat)
  | traceFrameWrite (i : Nat) (drop : Bool)
  -- the host
  | victlWrite (vi : Nat) (val : Word)
  | qcmdRegister (vi : Nat) (priv : Bool)
  | qcmdUnregister (vi : Nat)
  | asrootWrite (vi : Nat) (val : Word)
  | windowWrite (vi : Nat) (val : Word)
  | qhdrWrite (vi : Nat) (val : Word)
  | qquantWrite (vi : Nat) (val : Word)
  | frridxWrite (vi : Nat) (val : Word)
  | prridxWrite (vi : Nat) (val : Word)
  | controlRegWrite (vi off : Nat) (val : Word)
  | heldWriteApply (vi i : Nat)
  | resync (vi : Nat) (val : Word)
  | resyncRecordWrite (vi : Nat)
  | apertureRead (vi va : Nat) (width : MWidth)
  | apertureWrite (vi va : Nat) (width : MWidth) (val : Word)
  | powerOn (image : Image)
  | powerOff
  | linkDown
  | linkRestore
  | peerRecoveringSend (i : Nat)
  | peerRejectReceive (slot : Nat) (partial_ unknown : Bool)
  | portRetrainStart (port : Nat)
  | portRetrainEnd (port : Nat)
  | fabricDomainForm (offset : Word)
  deriving DecidableEq, Repr

end Sys2Proof
end

