-- ==== Sys2Proof/Machine/Codes.lean ====
section
/-!
DEFINITION. Sys2Proof/Machine/Codes.lean: the field layout of an instruction word (R134 to R137) and the codes of
every operand, type, condition, scope and register number (R138, R142, R145, R107, R149, R150): for each, the decoder
of its field and its encoder.
-/

namespace Sys2Proof

/-- The fields of a word in the register format (R134); the other formats regroup them (R135, R136). -/
structure Fields where
  major : BitVec 6
  func : BitVec 6
  la : BitVec 4
  guard : BitVec 4
  dest : BitVec 8
  a : BitVec 8
  b : BitVec 8
  c : BitVec 8
  mod : BitVec 12
  deriving DecidableEq, Repr

/-- Split a word into its fields (R134). -/
def Fields.ofWord (w : Word) : Fields :=
  { major := w.extractLsb' 58 6, func := w.extractLsb' 52 6, la := w.extractLsb' 48 4, guard := w.extractLsb' 44 4,
    dest := w.extractLsb' 36 8, a := w.extractLsb' 28 8, b := w.extractLsb' 20 8, c := w.extractLsb' 12 8,
    mod := w.extractLsb' 0 12 }

/-- The word of some fields (R134). -/
def Fields.toWord (f : Fields) : Word :=
  (f.major ++ (f.func ++ (f.la ++ (f.guard ++ (f.dest ++ (f.a ++ (f.b ++ (f.c ++ f.mod))))))) : BitVec 64)

/-- The 28-bit immediate of the immediate format (R135). -/
def Fields.imm (f : Fields) : BitVec 28 := (f.b ++ (f.c ++ f.mod) : BitVec 28)

/-- RECONV of the branch format (R136). -/
def Fields.reconv (f : Fields) : BitVec 18 := (f.a ++ f.b.extractLsb' 0 8 ++ f.c.extractLsb' 6 2 : BitVec 18)

/-- TARGET of the branch format (R136). -/
def Fields.target (f : Fields) : BitVec 18 := (f.c.extractLsb' 0 6 ++ f.mod : BitVec 18)

/-- What reading a field gives: its value, or the reject that names the field at fault (R340). -/
abbrev Dec (α : Type) := Except Reject α

/-- The field with this FIELD code is at fault. -/
def rej {α : Type} (field : Nat) : Dec α := .error { field := BitVec.ofNat 4 field, role := false }

/-- A field that the form leaves unused is 0 (R148). -/
def zeroF {n : Nat} (field : Nat) (x : BitVec n) : Dec Unit := if x = 0#n then .ok () else rej field

/-- A test on a field. -/
def chk (field : Nat) (ok : Bool) : Dec Unit := if ok then .ok () else rej field

/-- An optional reading of a field. -/
def optF {α : Type} (field : Nat) (x : Option α) : Dec α :=
  match x with
  | some y => .ok y
  | none => rej field

/-! ### Registers and specials (R138) -/

def encS (r : SReg) : BitVec 8 := (2#2 ++ r : BitVec 8)
def decS (x : BitVec 8) : Option SReg := if x.extractLsb' 6 2 = 2#2 then some (x.extractLsb' 0 6) else none
def encV (r : VReg) : BitVec 8 := (0#1 ++ r : BitVec 8)
def decV (x : BitVec 8) : Option VReg := if x.extractLsb' 7 1 = 0#1 then some (x.extractLsb' 0 7) else none
def encC (r : CReg) : BitVec 8 := (6#3 ++ r : BitVec 8)
def decC (x : BitVec 8) : Option CReg := if x.extractLsb' 5 3 = 6#3 then some (x.extractLsb' 0 5) else none
def encP (r : PReg) : BitVec 8 := (28#5 ++ r : BitVec 8)
def decP (x : BitVec 8) : Option PReg := if x.extractLsb' 3 5 = 28#5 then some (x.extractLsb' 0 3) else none

def encSpecial : Special → BitVec 8
  | .zero => 0xE8#8 | .lid => 0xE9#8 | .tid => 0xEA#8 | .bid => 0xEB#8 | .lcnt => 0xEC#8 | .clock => 0xED#8
def decSpecial (x : BitVec 8) : Option Special :=
  if x = 0xE8#8 then some .zero else if x = 0xE9#8 then some .lid else if x = 0xEA#8 then some .tid
  else if x = 0xEB#8 then some .bid else if x = 0xEC#8 then some .lcnt else if x = 0xED#8 then some .clock else none

def encSSrc : SSrc → BitVec 8
  | .s r => encS r | .spec x => encSpecial x
def decSSrc (x : BitVec 8) : Option SSrc :=
  match decS x with
  | some r => some (.s r)
  | none => (decSpecial x).map .spec

def encVSrc : VSrc → BitVec 8
  | .v r => encV r | .s r => encS r | .spec x => encSpecial x
def decVSrc (x : BitVec 8) : Option VSrc :=
  match decV x with
  | some r => some (.v r)
  | none => match decS x with
    | some r => some (.s r)
    | none => (decSpecial x).map .spec

def encVASrc : VASrc → BitVec 8
  | .v r => encV r | .zero => 0xE8#8
def decVASrc (x : BitVec 8) : Option VASrc :=
  match decV x with
  | some r => some (.v r)
  | none => if x = 0xE8#8 then some .zero else none

def encVDest : VDest → BitVec 8
  | .v r => encV r | .p r => encP r
def decVDest (x : BitVec 8) : Option VDest :=
  match decV x with
  | some r => some (.v r)
  | none => (decP x).map .p

def encSelSrc : SelSrc → BitVec 8
  | .src x => encVSrc x | .p r => encP r
def decSelSrc (x : BitVec 8) : Option SelSrc :=
  match decVSrc x with
  | some r => some (.src r)
  | none => (decP x).map .p

def encSIdx : SIdx → BitVec 8
  | .s r => encS r | .zero => 0xE8#8
def decSIdx (x : BitVec 8) : Option SIdx :=
  match decS x with
  | some r => some (.s r)
  | none => if x = 0xE8#8 then some .zero else none

def encVIdx : VIdx → BitVec 8
  | .v r => encV r | .s r => encS r | .zero => 0xE8#8 | .lid => 0xE9#8
def decVIdx (x : BitVec 8) : Option VIdx :=
  match decV x with
  | some r => some (.v r)
  | none => match decS x with
    | some r => some (.s r)
    | none => if x = 0xE8#8 then some .zero else if x = 0xE9#8 then some .lid else none

def encBIdx : BIdx → BitVec 8
  | .s r => encS r | .zero => 0xE8#8 | .lid => 0xE9#8
def decBIdx (x : BitVec 8) : Option BIdx :=
  match decS x with
  | some r => some (.s r)
  | none => if x = 0xE8#8 then some .zero else if x = 0xE9#8 then some .lid else none

def encGuard (g : Guard) : BitVec 4 := ((if g.neg then 1#1 else 0#1) ++ g.p : BitVec 4)
/-- GUARD: 0b1111 is reserved (R140). -/
def decGuard (x : BitVec 4) : Dec Guard :=
  if x = 15#4 then rej 4 else .ok { neg := x.getLsbD 3, p := x.extractLsb' 0 3 }

/-! ### Types, conditions, modes, scopes -/

def encITy : IType → BitVec 5
  | .i8 => 0 | .i16 => 1 | .i32 => 2 | .i64 => 3 | .n8 => 4 | .n16 => 5 | .n32 => 6 | .n64 => 7 | .i4 => 0x12
def encFTy : FType → BitVec 5
  | .f32 => 8 | .f16 => 9 | .bf16 => 10
def encEl : ElType → BitVec 5
  | .i8 => 0 | .i16 => 1 | .i32 => 2 | .i64 => 3 | .n8 => 4 | .n16 => 5 | .n32 => 6 | .n64 => 7 | .f32 => 8 | .f16 => 9
  | .bf16 => 10 | .e4m3 => 11 | .e5m2 => 12 | .e3m2 => 13 | .e2m3 => 14 | .e2m1 => 15 | .o4 => 16 | .c4 => 17 | .i4 => 18
def decEl (x : BitVec 5) : Option ElType :=
  match x.toNat with
  | 0 => some .i8 | 1 => some .i16 | 2 => some .i32 | 3 => some .i64 | 4 => some .n8 | 5 => some .n16 | 6 => some .n32
  | 7 => some .n64 | 8 => some .f32 | 9 => some .f16 | 10 => some .bf16 | 11 => some .e4m3 | 12 => some .e5m2
  | 13 => some .e3m2 | 14 => some .e2m3 | 15 => some .e2m1 | 16 => some .o4 | 17 => some .c4 | 18 => some .i4
  | _ => none
def decITy (x : BitVec 5) : Option IType :=
  match x.toNat with
  | 0 => some .i8 | 1 => some .i16 | 2 => some .i32 | 3 => some .i64 | 4 => some .n8 | 5 => some .n16 | 6 => some .n32
  | 7 => some .n64 | 18 => some .i4 | _ => none
def decFTy (x : BitVec 5) : Option FType :=
  match x.toNat with
  | 8 => some .f32 | 9 => some .f16 | 10 => some .bf16 | _ => none

/-- The type as an element type. -/
def IType.el : IType → ElType
  | .i8 => .i8 | .i16 => .i16 | .i32 => .i32 | .i64 => .i64 | .n8 => .n8 | .n16 => .n16 | .n32 => .n32 | .n64 => .n64
  | .i4 => .i4
def FType.el : FType → ElType
  | .f32 => .f32 | .f16 => .f16 | .bf16 => .bf16

def encCond : Cond → BitVec 4
  | .eq => 0 | .ne => 1 | .lt => 2 | .le => 3 | .gt => 4 | .ge => 5 | .uo => 6 | .ord => 7
def decCond (x : BitVec 4) : Option Cond :=
  match x.toNat with
  | 0 => some .eq | 1 => some .ne | 2 => some .lt | 3 => some .le | 4 => some .gt | 5 => some .ge | 6 => some .uo
  | 7 => some .ord | _ => none
/-- Conditions 0 to 5, those of the integer compares (R145). -/
def Cond.int (c : Cond) : Bool := c != .uo && c != .ord

def encRM : RMode → BitVec 3
  | .rne => 0 | .rtz => 1 | .rdn => 2 | .rup => 3
def decRM (x : BitVec 3) : Option RMode :=
  match x.toNat with
  | 0 => some .rne | 1 => some .rtz | 2 => some .rdn | 3 => some .rup | _ => none

def encScope : Scope → BitVec 4
  | .lane => 0 | .team => 1 | .blk => 2 | .clu => 3 | .stk => 4 | .dev => 5 | .fab => 6 | .bank => 7 | .arr => 8
def decScope (x : BitVec 4) : Option Scope :=
  match x.toNat with
  | 0 => some .lane | 1 => some .team | 2 => some .blk | 3 => some .clu | 4 => some .stk | 5 => some .dev
  | 6 => some .fab | 7 => some .bank | 8 => some .arr | _ => none

/-- ORD and SCOPE of R144: SCOPE is 0 when ORD is 0. -/
def encOrd : MOrd → BitVec 6
  | .plain => 0#6
  | .acq s => (1#2 ++ encScope s : BitVec 6)
  | .rel s => (2#2 ++ encScope s : BitVec 6)
  | .ar s => (3#2 ++ encScope s : BitVec 6)
def decOrd (x : BitVec 6) : Option MOrd :=
  match (x.extractLsb' 4 2).toNat, decScope (x.extractLsb' 0 4) with
  | 0, some .lane => some .plain
  | 1, some s => some (.acq s)
  | 2, some s => some (.rel s)
  | 3, some s => some (.ar s)
  | _, _ => none

def encEW : EWidth → BitVec 3
  | .w4 => 0 | .w8 => 1 | .w16 => 2 | .w32 => 3 | .w64 => 4
def decEW (x : BitVec 3) : Option EWidth :=
  match x.toNat with
  | 0 => some .w4 | 1 => some .w8 | 2 => some .w16 | 3 => some .w32 | 4 => some .w64 | _ => none

def encAT : AType → BitVec 4
  | .i32 => 0 | .i64 => 1 | .n32 => 2 | .n64 => 3 | .f32 => 4
def decAT (x : BitVec 4) : Option AType :=
  match x.toNat with
  | 0 => some .i32 | 1 => some .i64 | 2 => some .n32 | 3 => some .n64 | 4 => some .f32 | _ => none

/-- RP of R144: 0, or bit 3 with `p0` to `p6`. -/
def encRp : Option PReg → BitVec 4
  | none => 0#4
  | some p => (1#1 ++ p : BitVec 4)
def decRp (x : BitVec 4) : Dec (Option PReg) :=
  if x = 0#4 then .ok none
  else if x.getLsbD 3 && x != 15#4 then .ok (some (x.extractLsb' 0 3)) else rej 9

/-- The register numbers of R149. -/
def encCsr : Csr → BitVec 12
  | .teamstat => 0x000 | .allot => 0x001 | .prio => 0x002 | .fpflags => 0x003 | .stbcnt => 0x004 | .sigacc => 0x005
  | .trapvec => 0x010 | .trapcause => 0x011 | .trappc => 0x012 | .trapword => 0x013 | .faultstat => 0x014
  | .bbase => 0x020 | .rowprog => 0x021
def decCsr (x : BitVec 12) : Option Csr :=
  match x.toNat with
  | 0x000 => some .teamstat | 0x001 => some .allot | 0x002 => some .prio | 0x003 => some .fpflags | 0x004 => some .stbcnt
  | 0x005 => some .sigacc | 0x010 => some .trapvec | 0x011 => some .trapcause | 0x012 => some .trappc
  | 0x013 => some .trapword | 0x014 => some .faultstat | 0x020 => some .bbase | 0x021 => some .rowprog | _ => none

def encMW : MWidth → BitVec 6
  | .b8 => 0 | .b16 => 1 | .b32 => 2 | .b64 => 3
def decMW (n : Nat) : MWidth := match n % 4 with | 0 => .b8 | 1 => .b16 | 2 => .b32 | _ => .b64
def encSLdW : SLdW → BitVec 6
  | .n8 => 0 | .n16 => 1 | .n32 => 2 | .n64 => 3 | .i8 => 4 | .i16 => 5 | .i32 => 6

def encScanOp : ScanOp → BitVec 3
  | .add => 0 | .min => 1 | .max => 2 | .and => 3 | .or => 4 | .xor => 5
def decScanOp (x : BitVec 3) : Option ScanOp :=
  match x.toNat with
  | 0 => some .add | 1 => some .min | 2 => some .max | 3 => some .and | 4 => some .or | 5 => some .xor | _ => none

def encPin : PinMode → BitVec 12
  | .off => 0 | .list => 1 | .runs => 2 | .bmap => 3 | .hash => 4 | .cur => 5
def decPin (x : BitVec 12) : Option PinMode :=
  match x.toNat with
  | 0 => some .off | 1 => some .list | 2 => some .runs | 3 => some .bmap | 4 => some .hash | 5 => some .cur | _ => none

def encMTy : MType → BitVec 6
  | .i8 => 0 | .f32 => 8 | .f16 => 9 | .bf16 => 10 | .e4m3 => 11 | .e5m2 => 12 | .e3m2 => 13 | .e2m3 => 14 | .e2m1 => 15
  | .o4 => 16 | .c4 => 17 | .i4 => 18
def decMTy (x : BitVec 6) : Option MType :=
  match x.toNat with
  | 0 => some .i8 | 8 => some .f32 | 9 => some .f16 | 10 => some .bf16 | 11 => some .e4m3 | 12 => some .e5m2
  | 13 => some .e3m2 | 14 => some .e2m3 | 15 => some .e2m1 | 16 => some .o4 | 17 => some .c4 | 18 => some .i4 | _ => none

/-! ### Operand codes of the matrix stream (R150) -/

def encD (d : Desc) : BitVec 8 := (0#5 ++ d : BitVec 8)
def decD (x : BitVec 8) : Option Desc := if x.extractLsb' 3 5 = 0#5 then some (x.extractLsb' 0 3) else none
def encQ (d : Desc) : BitVec 8 := (1#5 ++ d : BitVec 8)
def decQ (x : BitVec 8) : Option Desc := if x.extractLsb' 3 5 = 1#5 then some (x.extractLsb' 0 3) else none
def encMs (m : BitVec 4) : BitVec 8 := (1#4 ++ m : BitVec 8)
def decMs (x : BitVec 8) : Option (BitVec 4) := if x.extractLsb' 4 4 = 1#4 then some (x.extractLsb' 0 4) else none
def encAcc (a : Acc) : BitVec 8 := (8#6 ++ a : BitVec 8)
def decAcc (x : BitVec 8) : Option Acc := if x.extractLsb' 2 6 = 8#6 then some (x.extractLsb' 0 2) else none

/-- `ms` or 0 for none. -/
def encMsOpt : Option (BitVec 4) → BitVec 8
  | none => 0#8
  | some m => encMs m
def decMsOpt (x : BitVec 8) : Option (Option (BitVec 4)) :=
  if x = 0#8 then some none else (decMs x).map some

/-- A scale descriptor, or 0xFF for none. -/
def encQOpt : Option Desc → BitVec 8
  | none => 0xFF#8
  | some q => encQ q
def decQOpt (x : BitVec 8) : Option (Option Desc) :=
  if x = 0xFF#8 then some none else (decQ x).map some

/-- SRCA of `m.wait` and `m.arrive`: a turnstile or a carousel (R150). -/
def encSync : MSync → BitVec 8
  | .ts t => (3#4 ++ t : BitVec 8)
  | .cr k _ => (16#6 ++ k : BitVec 8)
/-- MOD of `m.wait` and `m.arrive`: the carousel side in bit 4 (R237). -/
def encSide : MSync → BitVec 12
  | .cr _ true => 0x010#12
  | _ => 0#12
def decSync (x : BitVec 8) (mod : BitVec 12) : Dec MSync :=
  if x.extractLsb' 4 4 = 3#4 then
    if mod = 0#12 then .ok (.ts (x.extractLsb' 0 4)) else rej 9
  else if x.extractLsb' 2 6 = 16#6 then
    if mod = 0#12 then .ok (.cr (x.extractLsb' 0 2) false)
    else if mod = 0x010#12 then .ok (.cr (x.extractLsb' 0 2) true) else rej 9
  else rej 6

end Sys2Proof
end

