-- ==== Sys2Proof/Machine/Float.lean ====
section
/-!
DEFINITION. Sys2Proof/Machine/Float.lean: number formats and arithmetic (R62 to R81). A floating code decodes to an exact
value; every operation computes exactly and rounds once (R70, R71), and answers the code with its FPFLAGS bits (R75).
-/

namespace Sys2Proof.Machine

/-- An exact value: NaN, an infinity, or (−1)^neg × m × 2^e. -/
inductive FV
  | nan
  | inf (neg : Bool)
  | fin (neg : Bool) (m : Nat) (e : Int)
  deriving DecidableEq, Repr

/-- How a format codes NaN and infinity (R62). -/
inductive Specials | ieee | e4m3 | none
  deriving DecidableEq, Repr

/-- A floating format (R62): width, mantissa bits, bias. -/
structure Fmt where
  w : Nat
  mb : Nat
  bias : Nat
  sp : Specials
  deriving DecidableEq, Repr

/-- The formats of R62; a type that is no float reads as `.f32`. -/
def fmtOf : ElType → Fmt
  | .f16 => { w := 16, mb := 10, bias := 15, sp := .ieee }
  | .bf16 => { w := 16, mb := 7, bias := 127, sp := .ieee }
  | .e4m3 => { w := 8, mb := 3, bias := 7, sp := .e4m3 }
  | .e5m2 => { w := 8, mb := 2, bias := 15, sp := .ieee }
  | .e3m2 => { w := 6, mb := 2, bias := 3, sp := .none }
  | .e2m3 => { w := 6, mb := 3, bias := 1, sp := .none }
  | .e2m1 => { w := 4, mb := 1, bias := 1, sp := .none }
  | _ => { w := 32, mb := 23, bias := 127, sp := .ieee }

/-- Exponent field bits. -/
def Fmt.eb (f : Fmt) : Nat := f.w - 1 - f.mb
/-- The code of the greatest finite magnitude (R62). -/
def Fmt.maxCode (f : Fmt) : Nat :=
  match f.sp with
  | .ieee => (2 ^ f.eb - 1) * 2 ^ f.mb - 1
  | .e4m3 => 2 ^ (f.w - 1) - 2
  | .none => 2 ^ (f.w - 1) - 1
/-- The code of infinity, for an IEEE format. -/
def Fmt.infCode (f : Fmt) : Nat := (2 ^ f.eb - 1) * 2 ^ f.mb
/-- The canonical NaN (R64); the greatest finite value where the format has none (R73). -/
def Fmt.nanCode (f : Fmt) : Nat :=
  match f.sp with
  | .ieee => f.infCode + 2 ^ (f.mb - 1)
  | .e4m3 => 2 ^ (f.w - 1) - 1
  | .none => f.maxCode
/-- The least normal exponent. -/
def Fmt.emin (f : Fmt) : Int := 1 - (f.bias : Int)
/-- A code with its sign bit. -/
def Fmt.signed (f : Fmt) (neg : Bool) (c : Nat) : Nat := if neg then c + 2 ^ (f.w - 1) else c

/-- The value of a code (R62, R63). -/
def decodeF (f : Fmt) (x : Nat) : FV :=
  let c := x % 2 ^ f.w
  let neg := bit c (f.w - 1)
  let mag := c % 2 ^ (f.w - 1)
  let e := mag / 2 ^ f.mb
  let m := mag % 2 ^ f.mb
  if f.sp == .ieee && e == 2 ^ f.eb - 1 then (if m == 0 then .inf neg else .nan)
  else if f.sp == .e4m3 && mag == 2 ^ (f.w - 1) - 1 then .nan
  else if e == 0 then .fin neg m (f.emin - f.mb)
  else .fin neg (m + 2 ^ f.mb) ((e : Int) - f.bias - f.mb)

def flNV : Nat := 1
def flDZ : Nat := 2
def flOF : Nat := 4
def flUF : Nat := 8
def flNX : Nat := 16
def flSAT : Nat := 32

/-- OR of flag words. -/
def flOr (a b : Nat) : Nat := a ||| b

/-- How to round: a mode of R70, or SR with the 16 bits u of R72. -/
inductive RM | m (x : RMode) | sr (u : Nat) | away
  deriving DecidableEq, Repr

/-- The u of R72 for seed s, lane l, element e. -/
def srBits (s l e : Nat) : Nat :=
  let M := 2 ^ 64
  let z := (Nat.xor s (l * 16 + e) % M + 0x9E3779B97F4A7C15) % M
  let z := Nat.xor z (z / 2 ^ 30) * 0xBF58476D1CE4E5B9 % M
  let z := Nat.xor z (z / 2 ^ 27) * 0x94D049BB133111EB % M
  let z := Nat.xor z (z / 2 ^ 31)
  z / 2 ^ 48

/-- Does magnitude n + r / 2^s round up to n + 1 (R70, R72)? -/
def roundsUp (rm : RM) (neg : Bool) (n r s : Nat) : Bool :=
  if r = 0 then false
  else match rm with
    | .m .rne => decide (2 * r > 2 ^ s) || (decide (2 * r = 2 ^ s) && n % 2 == 1)
    | .m .rtz => false
    | .m .rdn => neg
    | .m .rup => !neg
    | .sr u => if neg then !decide (u < 65536 * (2 ^ s - r) / 2 ^ s) else decide (u < 65536 * r / 2 ^ s)
    | .away => true

/-- m × 2^e as a multiple of 2^q: the floor, the remainder and the number of its bits. -/
def splitAt (m : Nat) (e q : Int) : Nat × Nat × Nat :=
  if q ≤ e then (m * 2 ^ (e - q).toNat, 0, 0)
  else
    let s := (q - e).toNat
    (m / 2 ^ s, m % 2 ^ s, s)

/-- floor(log2 m) for m > 0. -/
def msb (m : Nat) : Nat := Nat.log2 m

/-- Is n × 2^q above the greatest finite value? -/
def aboveMax (f : Fmt) (n : Nat) (q : Int) : Bool :=
  match decodeF f f.maxCode with
  | .fin _ m e => let lo := min q e; decide (m * 2 ^ (e - lo).toNat < n * 2 ^ (q - lo).toNat)
  | _ => false

/-- The mode that the overflow and underflow tests use: SR tests under RNE (R71). -/
def RM.test : RM → RM
  | .sr _ => .m .rne
  | r => r

/-- The result of an overflow (R71). -/
def overflowCode (f : Fmt) (rm : RM) (neg : Bool) : Nat :=
  if f.sp == .ieee then
    match rm with
    | .m .rtz => f.signed neg f.maxCode
    | .m .rdn => if neg then f.signed true f.infCode else f.maxCode
    | .m .rup => if neg then f.signed true f.maxCode else f.infCode
    | _ => f.signed neg f.infCode
  else f.signed neg f.maxCode

/-- RoundTo(format, mode) of an exact value with its flags (R70, R71, R73, R75): overflow is judged on `nT`, under RNE
for SR, and underflow on `nU`, under the mode itself. [log 24: DEDUCED] -/
def roundTo (f : Fmt) (rm : RM) (x : FV) : Nat × Nat :=
  match x with
  | .nan => (f.nanCode, if f.sp == .none then flNV else 0)
  | .inf neg => if f.sp == .ieee then (f.signed neg f.infCode, 0) else (f.signed neg f.maxCode, flOF)
  | .fin neg 0 _ => (f.signed neg 0, 0)
  | .fin neg (m + 1) e =>
    let top : Int := (msb (m + 1) : Int) + e
    let qU := top - f.mb
    let (n0, rT, sT) := splitAt (m + 1) e qU
    let nT := if roundsUp rm.test neg n0 rT sT then n0 + 1 else n0
    let nU := if roundsUp rm neg n0 rT sT then n0 + 1 else n0
    if aboveMax f nT qU then (overflowCode f rm.test neg, flOr flOF flNX)
    else
      let q := max qU (f.emin - f.mb)
      let (n, r, s) := splitAt (m + 1) e q
      let rm' := if aboveMax f (n + 1) q then rm.test else rm
      let n' := if roundsUp rm' neg n r s then n + 1 else n
      let inexact := r != 0
      let lo := min qU f.emin
      let tiny := decide (nU * 2 ^ (qU - lo).toNat < 2 ^ (f.emin - lo).toNat)
      let ex := (q + f.mb + f.bias - 1).toNat
      let code := ex * 2 ^ f.mb + n'
      let code := if code > f.maxCode then f.maxCode else code
      (f.signed neg code, if inexact then (if tiny then flOr flUF flNX else flNX) else 0)

/-- Rounding to an integer (R74). -/
def roundInt (rm : RM) (x : FV) : Int :=
  match x with
  | .fin neg m e =>
    let (n, r, s) := splitAt m e 0
    let n := if roundsUp rm neg n r s then n + 1 else n
    if neg then -(n : Int) else n
  | _ => 0

/-- Width of an element in a register lane (R66): `.e3m2` and `.e2m3` fill 8 bits. -/
def elWidth : ElType → Nat
  | .i8 | .n8 | .e4m3 | .e5m2 | .e3m2 | .e2m3 => 8
  | .i16 | .n16 | .f16 | .bf16 => 16
  | .i32 | .n32 | .f32 => 32
  | .i64 | .n64 => 64
  | .e2m1 | .c4 | .i4 | .o4 => 4

/-- A signed type (R65). -/
def elSigned : ElType → Bool
  | .i8 | .i16 | .i32 | .i64 | .i4 => true
  | _ => false

/-- The integer that w bits hold. -/
def intOf (sg : Bool) (w x : Nat) : Int := if sg then sgn w x else ((x % 2 ^ w : Nat) : Int)

/-- Saturate (R8) with whether it changed the value. -/
def saturate (sg : Bool) (w : Nat) (i : Int) : Nat × Bool :=
  let hi : Int := if sg then (2 : Int) ^ (w - 1) - 1 else (2 : Int) ^ w - 1
  let lo : Int := if sg then -((2 : Int) ^ (w - 1)) else 0
  if hi < i then (wrap w hi, true) else if i < lo then (wrap w lo, true) else (wrap w i, false)

/-- Conversion to an integer type: SAT when saturated, NaN gives 0 and NV (R74). [log 24: DEDUCED] -/
def toIntTy (sg : Bool) (w : Nat) (rm : RM) (x : FV) : Nat × Nat :=
  match x with
  | .nan => (0, flNV)
  | .inf neg => ((saturate sg w (if neg then -((2 : Int) ^ 80) else (2 : Int) ^ 80)).1, flSAT)
  | x =>
    let (r, ch) := saturate sg w (roundInt rm x)
    let inexact := match x with
      | .fin _ m e => (splitAt m e 0).2.1 != 0
      | _ => false
    (r, flOr (if ch then flSAT else 0) (if inexact then flNX else 0))

/-! ### Exact arithmetic -/

/-- Sign and magnitude of an integer as a value. -/
def ofInt (i : Int) (e : Int) (negZero : Bool) : FV := if i = 0 then .fin negZero 0 e else .fin (decide (i < 0)) i.natAbs e

/-- The signed integer of a finite value at exponent lo ≤ e. -/
def atExp (neg : Bool) (m : Nat) (e lo : Int) : Int :=
  let v : Int := ((m * 2 ^ (e - lo).toNat : Nat) : Int)
  if neg then -v else v

/-- Exact sum. The sign of an exact zero is that of both terms when they agree, else + except under RDN (IEEE 754, R71). [log 24: DEDUCED] -/
def addF (rm : RM) (a b : FV) : FV × Nat :=
  match a, b with
  | .nan, _ => (.nan, 0)
  | _, .nan => (.nan, 0)
  | .inf n, .inf n' => if n == n' then (.inf n, 0) else (.nan, flNV)
  | .inf n, _ => (.inf n, 0)
  | _, .inf n => (.inf n, 0)
  | .fin n m e, .fin n' m' e' =>
    let lo := min e e'
    let z := if m == 0 && m' == 0 && n == n' then n else rm == .m .rdn
    (ofInt (atExp n m e lo + atExp n' m' e' lo) lo z, 0)

/-- Exact product. -/
def mulF (a b : FV) : FV × Nat :=
  let zero : FV → Bool := fun x => match x with | .fin _ 0 _ => true | _ => false
  let neg : FV → Bool := fun x => match x with | .fin n _ _ => n | .inf n => n | .nan => false
  match a, b with
  | .nan, _ => (.nan, 0)
  | _, .nan => (.nan, 0)
  | .fin n m e, .fin n' m' e' => (.fin (n != n') (m * m') (e + e'), 0)
  | a, b => if zero a || zero b then (.nan, flNV) else (.inf (neg a != neg b), 0)

/-- The negated value. -/
def negF : FV → FV
  | .nan => .nan
  | .inf n => .inf (!n)
  | .fin n m e => .fin (!n) m e

/-- Times 2^k. -/
def scaleF (x : FV) (k : Int) : FV :=
  match x with
  | .fin n m e => .fin n m (e + k)
  | x => x

/-- An order key: values compare as their keys; −0 and +0 are equal. NaN has none. -/
def leF (a b : FV) : Bool :=
  match a, b with
  | .nan, _ => false
  | _, .nan => false
  | .inf true, _ => true
  | _, .inf false => true
  | .inf false, _ => false
  | _, .inf true => false
  | .fin n m e, .fin n' m' e' => let lo := min e e'; decide (atExp n m e lo ≤ atExp n' m' e' lo)

def isNan : FV → Bool
  | .nan => true
  | _ => false

/-- COND of two values (R184). -/
def condF (c : Cond) (a b : FV) : Bool :=
  let un := isNan a || isNan b
  match c with
  | .eq => !un && leF a b && leF b a
  | .ne => un || !(leF a b && leF b a)
  | .lt => !un && leF a b && !leF b a
  | .le => leF a b
  | .gt => !un && leF b a && !leF a b
  | .ge => leF b a
  | .uo => un
  | .ord => !un

/-- COND of two integers (R145). -/
def condI (c : Cond) (a b : Int) : Bool :=
  match c with
  | .eq => decide (a = b)
  | .ne => decide (a ≠ b)
  | .lt => decide (a < b)
  | .le => decide (a ≤ b)
  | .gt => decide (b < a)
  | .ge => decide (b ≤ a)
  | _ => false

/-- `v.fmin` and `v.fmax` on codes (R184): −0 below +0, one NaN gives the other operand. -/
def minMaxF (f : Fmt) (mx : Bool) (x y : Nat) : Nat :=
  let a := decodeF f x
  let b := decodeF f y
  let lessKey : Nat → Nat → Bool := fun p q =>
    let P := decodeF f p
    let Q := decodeF f q
    if leF P Q && leF Q P then bit p (f.w - 1) && !bit q (f.w - 1) else leF P Q
  if isNan a then (if isNan b then f.nanCode else y % 2 ^ f.w)
  else if isNan b then x % 2 ^ f.w
  else if mx then (if lessKey x y then y else x) % 2 ^ f.w
  else (if lessKey y x then y else x) % 2 ^ f.w

/-- `v.fclass` (R184). -/
def classF (f : Fmt) (x : Nat) : Nat :=
  match decodeF f x with
  | .nan => 2 ^ 8
  | .inf true => 1
  | .inf false => 2 ^ 7
  | .fin true 0 _ => 2 ^ 3
  | .fin false 0 _ => 2 ^ 4
  | .fin neg m _ =>
    let sub := decide (m < 2 ^ f.mb)
    if neg then (if sub then 2 ^ 2 else 2) else (if sub then 2 ^ 5 else 2 ^ 6)

/-! ### Operations on codes with one rounding -/

def opAdd (f : Fmt) (rm : RM) (x y : Nat) : Nat × Nat :=
  let (v, fl) := addF rm (decodeF f x) (decodeF f y)
  let (c, g) := roundTo f rm v
  (c, flOr fl g)
def opSub (f : Fmt) (rm : RM) (x y : Nat) : Nat × Nat :=
  let (v, fl) := addF rm (decodeF f x) (negF (decodeF f y))
  let (c, g) := roundTo f rm v
  (c, flOr fl g)
def opMul (f : Fmt) (rm : RM) (x y : Nat) : Nat × Nat :=
  let (v, fl) := mulF (decodeF f x) (decodeF f y)
  let (c, g) := roundTo f rm v
  (c, flOr fl g)
/-- a × b + c, rounded once. -/
def fmaF (f : Fmt) (rm : RM) (a b c : FV) : Nat × Nat :=
  let (p, fl) := mulF a b
  let (v, fl') := addF rm p c
  let (r, g) := roundTo f rm v
  (r, flOr (flOr fl fl') g)
def opFma (f : Fmt) (rm : RM) (x y z : Nat) : Nat × Nat := fmaF f rm (decodeF f x) (decodeF f y) (decodeF f z)

/-! ### Special functions (R81) -/

/-- Integer square root by bits. -/
def isqrt : Nat → Nat → Nat → Nat
  | 0, _, r => r
  | n + 1, x, r => let t := r + 2 ^ n; isqrt n x (if t * t ≤ x then t else r)

/-- An inexact positive magnitude floor(v) at exponent e with its sticky bit, kept as one more low bit. -/
def sticky (neg : Bool) (n : Nat) (exact : Bool) (e : Int) : FV :=
  .fin neg (2 * n + (if exact then 0 else 1)) (e - 1)

/-- Square root of a positive finite value as a value with a sticky bit below 60 result bits. -/
def sqrtF (m : Nat) (e : Int) : FV :=
  let k : Int := 128 - (msb m : Int)
  let k := if (e - k) % 2 = 0 then k else k + 1
  let x := m * 2 ^ k.toNat
  let r := isqrt 66 x 0
  sticky false r (r * r == x) ((e - k) / 2)

/-- 1 / v for a positive finite value with a sticky bit. -/
def rcpF (neg : Bool) (m : Nat) (e : Int) : FV :=
  let k := 64 + msb m
  sticky neg (2 ^ k / m) (2 ^ k % m == 0) (-(k : Int) - e)

/-- 1 / √v for a positive finite value with a sticky bit. -/
def rsqF (m : Nat) (e : Int) : FV :=
  let e2 := if e % 2 = 0 then e else e - 1
  let m2 := if e % 2 = 0 then m else 2 * m
  let k := 128 + 2 * msb m2
  let q := 2 ^ k / m2
  let r := isqrt (66 + msb m2) q 0
  sticky false r (r * r * m2 == 2 ^ k) (-((k : Int) / 2) - e2 / 2)

/-- Fixed-point product of the roots 2^(1/2^i) chosen by the bits of a fraction: `root` is 2^(1/2^i). -/
def exp2Bits : Nat → Nat → Nat → Nat → Nat → Nat
  | 0, _, _, _, acc => acc
  | n + 1, P, root, frac, acc =>
    let root := isqrt (P + 2) (root * 2 ^ P) 0
    exp2Bits n P root frac (if bit frac n then acc * root / 2 ^ P else acc)

/-- 2^v for a finite value, with a sticky bit unless v is an integer. Exponents beyond 2^11 are cut to ±2,048. -/
def exp2F (neg : Bool) (m : Nat) (e : Int) : FV :=
  let P := 100
  let i : Int := (if (0 : Int) ≤ e then (m * 2 ^ e.toNat : Nat) else m / 2 ^ (-e).toNat : Nat)
  let r : Nat := if (0 : Int) ≤ e then 0 else m % 2 ^ (-e).toNat
  let s : Nat := (-e).toNat
  if r = 0 then
    let k := min i 2048
    .fin false 1 (if neg then -k else k)
  else
    let fl : Int := if neg then -i - 1 else i
    let fr : Nat := if neg then 2 ^ s - r else r
    let frac := if s ≤ 90 then fr * 2 ^ (90 - s) else fr / 2 ^ (s - 90)
    let fl := max (min fl 2048) (-2048)
    sticky false (exp2Bits 90 P (2 * 2 ^ P) frac (2 ^ P)) false (fl - P)

/-- Fraction bits of log2 of y in [1, 2), given as y × 2^P. -/
def log2Bits : Nat → Nat → Nat → Nat → Nat
  | 0, _, _, acc => acc
  | n + 1, P, y, acc =>
    let z := y * y / 2 ^ P
    if 2 ^ (P + 1) ≤ z then log2Bits n P (z / 2) (2 * acc + 1) else log2Bits n P z (2 * acc)

/-- log2 of a positive finite value, with a sticky bit unless it is a power of two. -/
def log2F (m : Nat) (e : Int) : FV :=
  let b := msb m
  let E : Int := (b : Int) + e
  if m = 2 ^ b then ofInt E 0 false
  else
    let P := 120
    let fr := log2Bits 70 P (m * 2 ^ (P - b)) 0
    let tot : Int := E * 2 ^ 71 + 2 * (fr : Int) + 1
    ofInt tot (-71) false

/-- The signed order key of a code. -/
def orderKey (f : Fmt) (c : Nat) : Int :=
  let mag : Int := ((c % 2 ^ (f.w - 1) : Nat) : Int)
  if bit c (f.w - 1) then -mag else mag

/-- A magnitude code that is a power of two with numbers half as far apart below it. -/
def Fmt.binade (f : Fmt) (c : Nat) : Bool := c % 2 ^ f.mb == 0 && decide (2 * 2 ^ f.mb ≤ c % 2 ^ (f.w - 1))

/-- Deliver a result within 1 ulp (R81): one of the two neighbours of an inexact one, of which `up` chooses the upper one in
value, or, by `under`, the number below a power of two that the true result exceeds by at most half an ulp. [log 8: DESIGN CHOICE] -/
def deliver (f : Fmt) (up : Bool) (under : Nat → Bool) (v : FV) : Nat × Nat :=
  match v with
  | .fin neg _ _ =>
    let (cT, flT) := roundTo f (.m .rne) v
    if bit flT 2 then (cT, flT)
    else
      let (c0, fl0) := roundTo f (.m .rtz) v
      if bit fl0 4 && cT == c0 && f.binade c0 && under c0 then (c0 - 1, fl0)
      else
        let (c, fl) := roundTo f (if up != neg then .away else .m .rtz) v
        if bit fl 2 then (c0, fl0) else (c, fl)
  | v => roundTo f (.m .rne) v

/-- A special function on one code: 0 `frcp`, 1 `frsq`, 2 `fsqrt`, 3 `fexp2`, 4 `flog2` (R81, R185). [log 8: DESIGN CHOICE] -/
def spf (fn : Nat) (ty : FType) (rm : RMode) (x : Nat) : Nat × Nat :=
  let f := fmtOf ty.el
  let tc := (encFTy ty).toNat
  let x := x % 2 ^ f.w
  -- A value that `fexp2` or `flog2` takes exactly is never undercut; `flog2` takes no power of two below 1 exactly.
  let under : Nat → Bool := fun c =>
    fn == 4 && decide (c % 2 ^ (f.w - 1) < f.bias * 2 ^ f.mb)
      && (if bit c (f.w - 1) then decide (Config.spfThreshold fn tc c ≤ orderKey f x)
          else decide (orderKey f x < Config.spfThreshold fn tc (c - 1)))
  let mono : FV → Nat × Nat := fun v =>
    let lo := (roundTo f (.m .rdn) v).1
    deliver f (decide (Config.spfThreshold fn tc lo ≤ orderKey f x)) under v
  match decodeF f x with
  | .nan => (f.nanCode, 0)
  | v =>
    match fn, v with
    | 0, .fin neg 0 _ => (f.signed neg f.infCode, flDZ)
    | 0, .inf neg => (f.signed neg 0, 0)
    | 0, .fin neg m e => deliver f (Config.spfUp 0 tc x) (fun _ => Config.spfUnder 0 tc x) (rcpF neg m e)
    | 1, .fin neg 0 _ => (f.signed neg f.infCode, flDZ)
    | 1, .inf false => (0, 0)
    | 1, .fin false m e => deliver f (Config.spfUp 1 tc x) (fun _ => Config.spfUnder 1 tc x) (rsqF m e)
    | 2, .fin neg 0 _ => (f.signed neg 0, 0)
    | 2, .inf false => (f.infCode, 0)
    | 2, .fin false m e => roundTo f (.m rm) (sqrtF m e)
    | 3, .inf true => (0, 0)
    | 3, .inf false => (f.infCode, 0)
    | 3, .fin neg m e => mono (exp2F neg m e)
    | 4, .fin _ 0 _ => (f.signed true f.infCode, flDZ)
    | 4, .inf false => (f.infCode, 0)
    | 4, .fin false m e => mono (log2F m e)
    | _, _ => (f.nanCode, flNV)

/-! ### Packed formats -/

/-- The sixteen elements of an O4 packet (R67). -/
def o4Scan : Nat → Nat → Nat → Nat → List FV
  | 0, _, _, _ => []
  | n + 1, slot, side, used =>
    let x := slot % 16
    let next := slot / 16
    let small : FV := ofInt (sgn 4 x) 0 false
    if x == 8 && n != 0 && decide (used < 2) then
      let code := next % 16 * 16 + bits side (4 * used) 4
      match n with
      | 0 => []
      | n' + 1 => decodeF (fmtOf .e4m3) code :: .fin false 0 0 :: o4Scan n' (next / 16) side (used + 1)
    else (if x == 8 then .fin false 0 0 else small) :: o4Scan n next side used

/-- Decode an O4 packet. -/
def decodeO4 (slot side : Nat) : List FV := o4Scan 16 slot side 0

/-- The value of an E8M0 scale as a power of two; none for NaN (R77). -/
def scaleExp (s : Nat) : Option Int := if s % 256 = 255 then none else some ((s % 256 : Nat) - (127 : Int))

/-- A value times its block's scale (R77). -/
def scaled (x : FV) (s : Nat) : FV :=
  match scaleExp s with
  | none => .nan
  | some k => scaleF x k

/-- The value of one element code of a type; a `.c4` code reads its codebook entry (R66, R68). -/
def elValue (cb : Nat → Nat) (t : ElType) (x : Nat) : FV :=
  match t with
  | .c4 => decodeF (fmtOf .bf16) (cb (x % 16))
  | .i8 | .i16 | .i32 | .i64 | .i4 | .n8 | .n16 | .n32 | .n64 => ofInt (intOf (elSigned t) (elWidth t) x) 0 false
  | t => decodeF (fmtOf t) x

/-- `v.cbenc` (R69): the index whose entry is nearest; ties to the lower index. -/
def cbEncode (cb : Nat → Nat) (x : FV) : Nat :=
  let ents := (upto 0 16).map fun i => (i, decodeF (fmtOf .bf16) (cb i))
  let live := ents.filter fun p => !isNan p.2
  let dist : FV → FV → Option (Nat × Int) := fun a b =>
    match (addF (.m .rne) a (negF b)).1 with
    | .fin _ m e => some (m, e)
    | _ => none
  let lessD : Option (Nat × Int) → Option (Nat × Int) → Bool := fun p q =>
    match p, q with
    | some (m, e), some (m', e') => let lo := min e e'; decide (m * 2 ^ (e - lo).toNat < m' * 2 ^ (e' - lo).toNat)
    | some _, none => true
    | none, _ => false
  match x, live with
  | .nan, _ => 0
  | _, [] => 0
  | .inf neg, (i, v) :: rest =>
    match findIx (fun p => p.2 == .inf neg) live 0 with
    | some (_, p) => p.1
    | none =>
      (rest.foldl (fun (best : Nat × FV) p =>
        if neg then (if leF p.2 best.2 && !leF best.2 p.2 then p else best)
        else (if leF best.2 p.2 && !leF p.2 best.2 then p else best)) (i, v)).1
  | x, (i, v) :: rest =>
    (rest.foldl (fun (best : Nat × Option (Nat × Int)) p =>
      let d := dist x p.2
      if lessD d best.2 then (p.1, d) else best) (i, dist x v)).1

end Sys2Proof.Machine
end

