-- ==== Sys2Proof/Decode.lean ====
section
/-!
DEFINITION. Sys2Proof/Decode.lean: the decoder, total on any word, and after it the encoder (R134 to R151). A word that
is not an instruction (R148, R335) decodes to `illegalWordIssue` with the first FIELD at fault in the order of R340:
2 FUNC, 3 LA, 4 GUARD, 5 DEST, 6 SRCA, 7 SRCB, 8 SRCC, 9 MOD or IMM, 10 second word, 13 all-zero word; majors 0x20 to
0x27 as a team word give ROLE. Choices where the rules name no field (log 13, 14): a prefix with a bad CMAJ or non-zero
bits [27:26] is at fault in FIELD 7, a bad carried FUNC in FIELD 2, an unused RECONV in FIELD 6, an unused COND in
FIELD 5.
-/

namespace Sys2Proof

/-- LA is 0 outside the long-latency classes (R141). -/
def noLa (f : Fields) : Dec Unit := zeroF 3 f.la

/-- The type code in MOD [11:7]. -/
def Fields.ty (f : Fields) : BitVec 5 := f.mod.extractLsb' 7 5
/-- RM in MOD [6:4]. -/
def Fields.rm (f : Fields) : BitVec 3 := f.mod.extractLsb' 4 3
/-- MOD [3:0]. -/
def Fields.lo4 (f : Fields) : BitVec 4 := f.mod.extractLsb' 0 4
/-- MOD from type, RM and the low four bits (R143). -/
def modOf (ty : BitVec 5) (rm : BitVec 3) (c : BitVec 4) : BitVec 12 := (ty ++ (rm ++ c) : BitVec 12)
/-- MOD of a memory form: SCALE, ORD and SCOPE, RP or ATYPE (R144). -/
def modMem (scale : BitVec 2) (ord : BitVec 6) (lo : BitVec 4) : BitVec 12 := (scale ++ (ord ++ lo) : BitVec 12)
/-- The immediate of the format of R135 as its fields. -/
def immB (i : BitVec 28) : BitVec 8 := i.extractLsb' 20 8
def immC (i : BitVec 28) : BitVec 8 := i.extractLsb' 12 8
def immM (i : BitVec 28) : BitVec 12 := i.extractLsb' 0 12

/-- ORD of a load: 0 or 1 (R144). -/
def MOrd.load : MOrd → Bool
  | .plain => true | .acq _ => true | _ => false
/-- ORD of a store: 0 or 2 (R144). -/
def MOrd.store : MOrd → Bool
  | .plain => true | .rel _ => true | _ => false

/-- `.i64` or `.n64` of a scalar form (R161). -/
def decSg (x : BitVec 5) : Option Bool := if x = 3#5 then some true else if x = 7#5 then some false else none
def encSg (sg : Bool) : BitVec 5 := if sg then 3#5 else 7#5

/-- Major 0x01 (R161). -/
def decScalar (f : Fields) : Dec Instr := do
  let fn := f.func.toNat
  chk 2 (decide (fn ≤ 0x11))
  noLa f
  let g ← decGuard f.guard
  let d ← optF 5 (decS f.dest)
  let a ← optF 6 (decSSrc f.a)
  if fn = 0x0D ∨ fn = 0x0E ∨ fn = 0x11 then do
    zeroF 7 f.b
    zeroF 8 f.c
    zeroF 9 f.mod
    let o : SUn := { g, d, a }
    match fn with
    | 0x0D => .ok (.sClz o)
    | 0x0E => .ok (.sPopc o)
    | _ => .ok (.sMov o)
  else do
    let b ← optF 7 (decSSrc f.b)
    if fn = 0x10 then do
      let c ← optF 8 (decSSrc f.c)
      zeroF 9 f.mod
      .ok (.sSel { g, d, a, b, c })
    else do
      zeroF 8 f.c
      let t : SBin := { g, d, a, b }
      match fn with
      | 0x00 => do zeroF 9 f.mod; .ok (.sAdd t)
      | 0x01 => do zeroF 9 f.mod; .ok (.sSub t)
      | 0x02 => do zeroF 9 f.mod; .ok (.sMul t)
      | 0x04 => do zeroF 9 f.mod; .ok (.sAnd t)
      | 0x05 => do zeroF 9 f.mod; .ok (.sOr t)
      | 0x06 => do zeroF 9 f.mod; .ok (.sXor t)
      | 0x07 => do zeroF 9 f.mod; .ok (.sAndn t)
      | 0x08 => do zeroF 9 f.mod; .ok (.sShl t)
      | 0x09 => do zeroF 9 f.mod; .ok (.sShr t)
      | 0x0A => do zeroF 9 f.mod; .ok (.sSra t)
      | 0x03 => do
        let sg ← optF 9 (decSg f.ty)
        zeroF 9 (f.mod.extractLsb' 0 7)
        .ok (.sMulh { g, d, a, b, sg })
      | 0x0B => do
        let sg ← optF 9 (decSg f.ty)
        zeroF 9 (f.mod.extractLsb' 0 7)
        .ok (.sMin { g, d, a, b, sg })
      | 0x0C => do
        let sg ← optF 9 (decSg f.ty)
        zeroF 9 (f.mod.extractLsb' 0 7)
        .ok (.sMax { g, d, a, b, sg })
      | _ => do
        let sg ← optF 9 (decSg f.ty)
        zeroF 9 f.rm
        let c ← optF 9 (decCond f.lo4)
        chk 9 c.int
        .ok (.sCmp { g, d, a, b, sg, c })

/-- Major 0x02 (R161). -/
def decScalarImm (f : Fields) : Dec Instr := do
  let fn := f.func.toNat
  chk 2 (decide (fn ≤ 0x0A ∧ fn ≠ 3 ∨ fn = 0x12))
  noLa f
  let g ← decGuard f.guard
  let d ← optF 5 (decS f.dest)
  if fn = 0x12 then do
    zeroF 6 f.a
    .ok (.sLi { g, d, imm := f.imm })
  else do
    let a ← optF 6 (decSSrc f.a)
    let o : SImm := { g, d, a, imm := f.imm }
    match fn with
    | 0x00 => .ok (.sAddImm o)
    | 0x01 => .ok (.sSubImm o)
    | 0x02 => .ok (.sMulImm o)
    | 0x04 => .ok (.sAndImm o)
    | 0x05 => .ok (.sOrImm o)
    | 0x06 => .ok (.sXorImm o)
    | 0x07 => .ok (.sAndnImm o)
    | 0x08 => .ok (.sShlImm o)
    | 0x09 => .ok (.sShrImm o)
    | _ => .ok (.sSraImm o)

/-- Major 0x03 (R162). -/
def decScalarMem (f : Fields) : Dec Instr := do
  let fn := f.func.toNat
  chk 2 (decide (fn ≤ 6 ∨ 8 ≤ fn ∧ fn ≤ 0x0B))
  let g ← decGuard f.guard
  let d ← optF 5 (decS f.dest)
  let cap ← optF 6 (decC f.a)
  let idx ← optF 7 (decSIdx f.b)
  let ord ← optF 9 (decOrd (f.mod.extractLsb' 4 6))
  zeroF 9 f.lo4
  let scale := f.mod.extractLsb' 10 2
  if fn ≤ 6 then do
    chk 9 ord.load
    let w : SLdW := match fn with | 0 => .n8 | 1 => .n16 | 2 => .n32 | 3 => .n64 | 4 => .i8 | 5 => .i16 | _ => .i32
    .ok (.sLd { g, la := f.la, d, cap, idx, disp := f.c, scale, ord, w })
  else do
    chk 9 ord.store
    .ok (.sSt { g, la := f.la, d, cap, idx, disp := f.c, scale, ord, w := decMW fn })

/-- Major 0x04 (R163, R164). [log 14: DEDUCED] -/
def decControl (f : Fields) : Dec Instr := do
  let fn := f.func.toNat
  chk 2 (decide (fn ≤ 0x0C))
  noLa f
  let g ← decGuard f.guard
  let target := f.target
  let noReconv : Dec Unit := zeroF 6 f.reconv
  let rest : Dec Unit := do zeroF 7 f.b; zeroF 8 f.c; zeroF 9 f.mod
  match fn with
  | 0x00 => do zeroF 5 f.dest; noReconv; .ok (.br { g, target })
  | 0x01 => do let c ← optF 5 (decS f.dest); noReconv; .ok (.brc { g, c, target })
  | 0x02 => do let c ← optF 5 (decP f.dest); .ok (.brv { g, c, reconv := f.reconv, target })
  | 0x03 => do let c ← optF 5 (decP f.dest); noReconv; .ok (.breakv { g, c, target })
  | 0x04 => do let c ← optF 5 (decS f.dest); noReconv; .ok (.call { g, c, target })
  | 0x05 => do zeroF 5 f.dest; let a ← optF 6 (decS f.a); rest; .ok (.ret { g, a })
  | 0x06 => do zeroF 5 f.dest; let a ← optF 6 (decS f.a); rest; .ok (.jmp { g, a })
  | 0x07 => do let c ← optF 5 (decS f.dest); noReconv; .ok (.loop { g, c, target })
  | 0x08 => do zeroF 5 f.dest; zeroF 6 f.a; rest; .ok (.exit { g })
  | 0x09 => do zeroF 5 f.dest; zeroF 6 f.a; rest; .ok (.yield { g })
  | 0x0A => do zeroF 5 f.dest; zeroF 6 f.a; rest; .ok (.safept { g })
  | 0x0B => do
    zeroF 5 f.dest
    zeroF 6 f.a
    zeroF 9 (f.imm.extractLsb' 24 4)
    .ok (.waitcnt { g, m := f.imm.extractLsb' 0 6, s := f.imm.extractLsb' 6 6, a := f.imm.extractLsb' 12 6,
                    b := f.imm.extractLsb' 18 6 })
  | _ => do zeroF 5 f.dest; zeroF 6 f.a; rest; .ok (.nop { g })

/-- Major 0x05 (R166 to R168). -/
def decPred (f : Fields) : Dec Instr := do
  let fn := f.func.toNat
  chk 2 (decide (fn ≤ 0x0C))
  noLa f
  let g ← decGuard f.guard
  let rest : Dec Unit := do zeroF 8 f.c; zeroF 9 f.mod
  if fn ≤ 3 then do
    let d ← optF 5 (decP f.dest)
    let a ← optF 6 (decP f.a)
    let b ← optF 7 (decP f.b)
    rest
    let o : PBin := { g, d, a, b }
    match fn with
    | 0 => .ok (.pAnd o)
    | 1 => .ok (.pOr o)
    | 2 => .ok (.pXor o)
    | _ => .ok (.pAndn o)
  else if fn ≤ 5 then do
    let d ← optF 5 (decP f.dest)
    let a ← optF 6 (decP f.a)
    zeroF 7 f.b
    rest
    if fn = 4 then .ok (.pNot { g, d, a }) else .ok (.pMov { g, d, a })
  else if fn ≤ 9 then do
    let d ← optF 5 (decS f.dest)
    let a ← optF 6 (decP f.a)
    zeroF 7 f.b
    rest
    let o : PRed := { g, d, a }
    match fn with
    | 6 => .ok (.pAny o)
    | 7 => .ok (.pAll o)
    | 8 => .ok (.pCnt o)
    | _ => .ok (.pFirst o)
  else if fn = 0x0A then do
    let d ← optF 5 (decP f.dest)
    let a ← optF 6 (decV f.a)
    zeroF 7 f.b
    rest
    .ok (.pFromv { g, d, a })
  else if fn = 0x0B then do
    let d ← optF 5 (decV f.dest)
    let a ← optF 6 (decP f.a)
    zeroF 7 f.b
    rest
    .ok (.pTov { g, d, a })
  else do
    let d ← optF 5 (decS f.dest)
    let a ← optF 6 (decS f.a)
    zeroF 7 f.b
    rest
    .ok (.pAct { g, d, a })

/-- Major 0x06 in one word (R169 to R173). -/
def decSystem (f : Fields) : Dec Instr := do
  let fn := f.func.toNat
  chk 2 (decide (fn ≤ 4 ∨ fn = 6))
  noLa f
  let g ← decGuard f.guard
  match fn with
  | 0 => do
    zeroF 5 f.dest; zeroF 6 f.a; zeroF 9 (f.imm.extractLsb' 16 12)
    .ok (.trap { g, code := f.imm.extractLsb' 0 16 })
  | 4 => do
    zeroF 5 f.dest; zeroF 6 f.a; zeroF 9 (f.imm.extractLsb' 16 12)
    .ok (.brk { g, code := f.imm.extractLsb' 0 16 })
  | 2 => do
    let r ← optF 5 (decS f.dest)
    zeroF 6 f.a; zeroF 9 (f.imm.extractLsb' 12 16)
    let csr ← optF 9 (decCsr f.mod)
    .ok (.csrr { g, r, csr })
  | 3 => do
    zeroF 5 f.dest
    let r ← optF 6 (decS f.a)
    zeroF 9 (f.imm.extractLsb' 12 16)
    let csr ← optF 9 (decCsr f.mod)
    .ok (.csrw { g, r, csr })
  | 1 => do zeroF 5 f.dest; zeroF 6 f.a; zeroF 7 f.b; zeroF 8 f.c; zeroF 9 f.mod; .ok (.eret { g })
  | _ => do zeroF 5 f.dest; zeroF 6 f.a; zeroF 7 f.b; zeroF 8 f.c; zeroF 9 f.mod; .ok (.sigRst { g })

/-- Major 0x07 (R174, R175). -/
def decResource (f : Fields) : Dec Instr := do
  let fn := f.func.toNat
  chk 2 (decide (fn ≤ 3))
  noLa f
  let g ← decGuard f.guard
  match fn with
  | 0 => do zeroF 5 f.dest; zeroF 6 f.a; .ok (.grow { g, n := f.imm })
  | 1 => do zeroF 5 f.dest; zeroF 6 f.a; .ok (.shrink { g, n := f.imm })
  | 2 => do
    let d ← optF 5 (decS f.dest)
    let a ← optF 6 (decS f.a)
    let b ← optF 7 (decS f.b)
    zeroF 8 f.c; zeroF 9 f.mod
    .ok (.rolesw { g, d, a, b })
  | _ => do
    let d ← optF 5 (decS f.dest)
    zeroF 6 f.a
    .ok (.allot { g, d, n := f.imm })

/-- The types of a vector integer function: `v.pack` has widths 4 to 32, `v.unpk` 8 to 64 (R181). -/
def vintTyOk (fn : Nat) (t : IType) : Bool :=
  if fn = 0x16 then t != .i64 && t != .n64 else if fn = 0x17 then t != .i4 else true

/-- Major 0x08 (R179 to R181). -/
def decVInt (f : Fields) : Dec Instr := do
  let fn := f.func.toNat
  chk 2 (decide (fn ≤ 0x19))
  noLa f
  let g ← decGuard f.guard
  if fn = 0x13 then do
    let d ← optF 5 (decVDest f.dest)
    let a ← optF 6 (decVASrc f.a)
    let b ← optF 7 (decVSrc f.b)
    zeroF 8 f.c
    let ty ← optF 9 (decITy f.ty)
    zeroF 9 f.rm
    let c ← optF 9 (decCond f.lo4)
    chk 9 c.int
    .ok (.vCmp { g, d, a, b, ty, c })
  else do
    let d ← optF 5 (decV f.dest)
    if fn = 0x15 then do
      let a ← optF 6 (decVSrc f.a)
      zeroF 7 f.b; zeroF 8 f.c
      let ty ← optF 9 (decITy f.ty)
      zeroF 9 (f.mod.extractLsb' 0 7)
      .ok (.vMov { g, d, a, ty })
    else do
      let a ← optF 6 (decVASrc f.a)
      if fn = 0x10 ∨ fn = 0x11 ∨ fn = 0x12 then do
        zeroF 7 f.b; zeroF 8 f.c
        let ty ← optF 9 (decITy f.ty)
        zeroF 9 (f.mod.extractLsb' 0 7)
        let o : VUn := { g, d, a, ty }
        match fn with
        | 0x10 => .ok (.vAbs o)
        | 0x11 => .ok (.vClz o)
        | _ => .ok (.vPopc o)
      else do
        let b ← optF 7 (decVSrc f.b)
        if fn = 0x14 then do
          let c ← optF 8 (decSelSrc f.c)
          let ty ← optF 9 (decITy f.ty)
          zeroF 9 (f.mod.extractLsb' 0 7)
          .ok (.vSel { g, d, a, b, c, ty })
        else if fn = 0x04 ∨ fn = 0x19 then do
          let c ← optF 8 (decVSrc f.c)
          let ty ← optF 9 (decITy f.ty)
          zeroF 9 (f.mod.extractLsb' 0 7)
          if fn = 0x04 then .ok (.vMad { g, d, a, b, c, ty }) else .ok (.vIns { g, d, a, b, c, ty })
        else do
          zeroF 8 f.c
          let ty ← optF 9 (decITy f.ty)
          chk 9 (vintTyOk fn ty)
          zeroF 9 (f.mod.extractLsb' 0 7)
          let o : VBin := { g, d, a, b, ty }
          match fn with
          | 0x00 => .ok (.vAdd o)
          | 0x01 => .ok (.vSub o)
          | 0x02 => .ok (.vMul o)
          | 0x03 => .ok (.vMulh o)
          | 0x05 => .ok (.vAdds o)
          | 0x06 => .ok (.vSubs o)
          | 0x07 => .ok (.vAnd o)
          | 0x08 => .ok (.vOr o)
          | 0x09 => .ok (.vXor o)
          | 0x0A => .ok (.vAndn o)
          | 0x0B => .ok (.vShl o)
          | 0x0C => .ok (.vShr o)
          | 0x0D => .ok (.vSra o)
          | 0x0E => .ok (.vMin o)
          | 0x0F => .ok (.vMax o)
          | 0x16 => .ok (.vPack o)
          | 0x17 => .ok (.vUnpk o)
          | _ => .ok (.vExt o)

/-- Major 0x09 (R146, R182). -/
def decVImm (f : Fields) : Dec Instr := do
  let fn := f.func.toNat
  chk 2 (decide (fn ≤ 2 ∨ 7 ≤ fn ∧ fn ≤ 0x0D ∨ fn = 0x1A))
  noLa f
  let g ← decGuard f.guard
  let d ← optF 5 (decV f.dest)
  let imm := f.imm.extractLsb' 0 25
  if fn = 0x1A then do
    zeroF 6 f.a
    let w ← optF 9 (decEW (f.imm.extractLsb' 25 3))
    .ok (.vLi { g, d, w, imm })
  else do
    let a ← optF 6 (decV f.a)
    let w ← optF 9 (decEW (f.imm.extractLsb' 25 3))
    let o : VImm := { g, d, a, w, imm }
    match fn with
    | 0x00 => .ok (.vAddImm o)
    | 0x01 => .ok (.vSubImm o)
    | 0x02 => .ok (.vMulImm o)
    | 0x07 => .ok (.vAndImm o)
    | 0x08 => .ok (.vOrImm o)
    | 0x09 => .ok (.vXorImm o)
    | 0x0A => .ok (.vAndnImm o)
    | 0x0B => .ok (.vShlImm o)
    | 0x0C => .ok (.vShrImm o)
    | _ => .ok (.vSraImm o)

/-- Major 0x0A (R183, R184). -/
def decVFloat (f : Fields) : Dec Instr := do
  let fn := f.func.toNat
  chk 2 (decide (fn ≤ 9))
  noLa f
  let g ← decGuard f.guard
  if fn = 6 then do
    let d ← optF 5 (decVDest f.dest)
    let a ← optF 6 (decV f.a)
    let b ← optF 7 (decVSrc f.b)
    zeroF 8 f.c
    let ty ← optF 9 (decFTy f.ty)
    zeroF 9 f.rm
    let c ← optF 9 (decCond f.lo4)
    .ok (.vFcmp { g, d, a, b, ty, c })
  else do
    let d ← optF 5 (decV f.dest)
    let a ← optF 6 (decV f.a)
    if 7 ≤ fn then do
      zeroF 7 f.b; zeroF 8 f.c
      let ty ← optF 9 (decFTy f.ty)
      zeroF 9 (f.mod.extractLsb' 0 7)
      let o : VFUn := { g, d, a, ty }
      match fn with
      | 7 => .ok (.vFabs o)
      | 8 => .ok (.vFneg o)
      | _ => .ok (.vFclass o)
    else do
      let b ← optF 7 (decVSrc f.b)
      if fn = 3 then do
        let c ← optF 8 (decVSrc f.c)
        let ty ← optF 9 (decFTy f.ty)
        let rm ← optF 9 (decRM f.rm)
        zeroF 9 f.lo4
        .ok (.vFma { g, d, a, b, c, ty, rm })
      else do
        zeroF 8 f.c
        let ty ← optF 9 (decFTy f.ty)
        if fn ≤ 2 then do
          let rm ← optF 9 (decRM f.rm)
          zeroF 9 f.lo4
          let o : VFBin := { g, d, a, b, ty, rm }
          match fn with
          | 0 => .ok (.vFadd o)
          | 1 => .ok (.vFsub o)
          | _ => .ok (.vFmul o)
        else do
          zeroF 9 (f.mod.extractLsb' 0 7)
          if fn = 4 then .ok (.vFmin { g, d, a, b, ty }) else .ok (.vFmax { g, d, a, b, ty })

/-- Major 0x0B (R185): RM 1 to 3 only for `v.fsqrt`. -/
def decSpecialFn (f : Fields) : Dec Instr := do
  let fn := f.func.toNat
  chk 2 (decide (fn ≤ 4))
  let g ← decGuard f.guard
  let d ← optF 5 (decV f.dest)
  let a ← optF 6 (decV f.a)
  zeroF 7 f.b; zeroF 8 f.c
  let ty ← optF 9 (decFTy f.ty)
  if fn = 2 then do
    let rm ← optF 9 (decRM f.rm)
    zeroF 9 f.lo4
    .ok (.vFsqrt { g, la := f.la, d, a, ty, rm })
  else do
    zeroF 9 (f.mod.extractLsb' 0 7)
    let o : VSpf := { g, la := f.la, d, a, ty }
    match fn with
    | 0 => .ok (.vFrcp o)
    | 1 => .ok (.vFrsq o)
    | 3 => .ok (.vFexp2 o)
    | _ => .ok (.vFlog2 o)

/-- A floating element type. -/
def ElType.isFloat : ElType → Bool
  | .f32 | .f16 | .bf16 | .e4m3 | .e5m2 | .e3m2 | .e2m3 | .e2m1 => true
  | _ => false
/-- An integer element type. -/
def ElType.isInt : ElType → Bool
  | .i8 | .i16 | .i32 | .i64 | .n8 | .n16 | .n32 | .n64 | .i4 => true
  | _ => false
/-- The source types of `v.cvt` 0, `v.cvti` 1 and `v.cvtf` 2 (R187). -/
def cvtStOk (fn : Nat) (t : ElType) : Bool :=
  match fn with
  | 0 => t.isFloat || t == .c4 || t == .o4
  | 1 => t.isFloat || t == .o4
  | _ => t.isInt
/-- The destination types of the three forms (R187). -/
def cvtDtOk (fn : Nat) (t : ElType) : Bool := if fn = 1 then t.isInt else t.isFloat
/-- The narrow types of `v.qnt` and `v.dqt` (R188). -/
def qntTyOk : ElType → Bool
  | .e4m3 | .e5m2 | .e3m2 | .e2m3 | .e2m1 | .i8 | .i4 => true
  | _ => false

/-- RM 0 to 3 with SRCC 0, or RM 4 with a seed register in SRCC (R143, R187, R188). -/
def decRnd (f : Fields) : Dec Rnd :=
  if f.rm = 4#3 then do
    let s ← optF 8 (decS f.c)
    .ok (.sr s)
  else do
    zeroF 8 f.c
    let m ← optF 9 (decRM f.rm)
    .ok (.mode m)

/-- Major 0x0C (R186 to R189). -/
def decConv (f : Fields) : Dec Instr := do
  let fn := f.func.toNat
  chk 2 (decide (fn ≤ 6))
  noLa f
  let g ← decGuard f.guard
  if fn = 5 then do
    zeroF 5 f.dest
    let a ← optF 6 (decV f.a)
    zeroF 7 f.b; zeroF 8 f.c
    chk 9 (f.mod == 0x880#12)
    .ok (.vCbld { g, a })
  else do
    let d ← optF 5 (decV f.dest)
    let a ← optF 6 (decV f.a)
    if fn ≤ 2 then do
      zeroF 7 (f.b.extractLsb' 5 3)
      let st ← optF 7 (decEl (f.b.extractLsb' 0 5))
      chk 7 (cvtStOk fn st)
      let rnd ← decRnd f
      let dt ← optF 9 (decEl f.ty)
      chk 9 (cvtDtOk fn dt)
      zeroF 9 f.lo4
      let o : VCvt := { g, d, a, st, dt, rnd }
      match fn with
      | 0 => .ok (.vCvt o)
      | 1 => .ok (.vCvti o)
      | _ => .ok (.vCvtf o)
    else if fn ≤ 4 then do
      let sc ← optF 7 (decV f.b)
      let rnd ← decRnd f
      let ty ← optF 9 (decEl f.ty)
      chk 9 (qntTyOk ty)
      zeroF 9 (f.mod.extractLsb' 0 1)
      let o : VQnt := { g, d, a, sc, sel := f.mod.extractLsb' 1 3, ty, rnd }
      if fn = 3 then .ok (.vQnt o) else .ok (.vDqt o)
    else do
      chk 7 (f.b == 0x0A#8 || f.b == 0x08#8)
      zeroF 8 f.c
      chk 9 (f.mod == 0x880#12)
      .ok (.vCbenc { g, d, a, bf := f.b == 0x0A#8 })

/-- The types of `v.shfl`, `v.bcst` and `v.perm` (R191). -/
def xTyOk (t : ElType) : Bool := t != .o4 && t != .c4
/-- The types of `v.scan` and `v.red` (R193). -/
def scanTyOk (op : ScanOp) (t : ElType) : Bool :=
  match op with
  | .and | .or | .xor => t.isInt
  | _ => t.isInt || t == .f32 || t == .f16 || t == .bf16

/-- MODE of `v.vote` with its SRCA (R192). -/
def decVote (f : Fields) : Dec VoteMode :=
  match f.lo4.toNat with
  | 0 => do let p ← optF 6 (decP f.a); .ok (.any p)
  | 1 => do let p ← optF 6 (decP f.a); .ok (.all p)
  | 2 => do let p ← optF 6 (decP f.a); .ok (.cnt p)
  | 3 => do let p ← optF 6 (decP f.a); .ok (.ballot p)
  | 4 => do let v ← optF 6 (decV f.a); .ok (.uni v)
  | 5 => do chk 6 (f.a == 0xE7#8); .ok .miss
  | _ => do
    chk 6 ((decP f.a).isSome || (decV f.a).isSome)
    chk 7 (decP f.b).isSome
    chk 8 (decP f.c).isSome
    rej 9

/-- Major 0x0D (R190 to R193). -/
def decCross (f : Fields) : Dec Instr := do
  let fn := f.func.toNat
  chk 2 (decide (fn ≤ 5))
  noLa f
  let g ← decGuard f.guard
  let d ← optF 5 (decV f.dest)
  if fn = 2 then do
    let mode ← decVote f
    let m ← optF 7 (decP f.b)
    let r ← optF 8 (decP f.c)
    zeroF 9 (f.mod.extractLsb' 4 8)
    .ok (.vVote { g, d, mode, m, r })
  else do
    let a ← optF 6 (decV f.a)
    if fn = 1 then do
      let b ← optF 7 (decSSrc f.b)
      zeroF 8 f.c
      let ty ← optF 9 (decEl f.ty)
      chk 9 (xTyOk ty)
      zeroF 9 (f.mod.extractLsb' 0 7)
      .ok (.vBcst { g, d, a, b, ty })
    else if fn = 3 ∨ fn = 4 then do
      zeroF 7 f.b; zeroF 8 f.c
      let ty ← optF 9 (decEl f.ty)
      zeroF 9 f.rm
      let op ← optF 9 (decScanOp (f.mod.extractLsb' 0 3))
      chk 9 (scanTyOk op ty)
      if fn = 3 then .ok (.vScan { g, d, a, op, excl := f.mod.getLsbD 3, ty })
      else do
        zeroF 9 (f.mod.extractLsb' 3 1)
        .ok (.vRed { g, d, a, op, ty })
    else do
      let b ← optF 7 (decVSrc f.b)
      zeroF 8 f.c
      let ty ← optF 9 (decEl f.ty)
      chk 9 (xTyOk ty)
      zeroF 9 (f.mod.extractLsb' 0 7)
      if fn = 0 then .ok (.vShfl { g, d, a, b, ty }) else .ok (.vPerm { g, d, a, b, ty })

/-- Major 0x0E (R196). -/
def decVMem (f : Fields) : Dec Instr := do
  let fn := f.func.toNat
  chk 2 (decide (fn ≤ 0x0B))
  let g ← decGuard f.guard
  let d ← optF 5 (decV f.dest)
  let cap ← optF 6 (decC f.a)
  let scale := f.mod.extractLsb' 10 2
  let w := decMW fn
  if 8 ≤ fn then do
    let idx ← optF 7 (decBIdx f.b)
    let ord ← optF 9 (decOrd (f.mod.extractLsb' 4 6))
    chk 9 ord.load
    let rp ← decRp f.lo4
    .ok (.vLdb { g, la := f.la, d, cap, idx, disp := f.c, scale, ord, w, rp })
  else do
    let idx ← optF 7 (decVIdx f.b)
    let ord ← optF 9 (decOrd (f.mod.extractLsb' 4 6))
    if fn ≤ 3 then do
      chk 9 ord.load
      let rp ← decRp f.lo4
      .ok (.vLd { g, la := f.la, d, cap, idx, disp := f.c, scale, ord, w, rp })
    else do
      chk 9 ord.store
      zeroF 9 f.lo4
      .ok (.vSt { g, la := f.la, d, cap, idx, disp := f.c, scale, ord, w })

/-- Major 0x0F (R198): types 0 to 3, and `.f32` for `fadd` alone. -/
def decAtomic (f : Fields) : Dec Instr := do
  let fn := f.func.toNat
  chk 2 (decide (fn ≤ 8))
  let g ← decGuard f.guard
  let d ← optF 5 (decV f.dest)
  let cap ← optF 6 (decC f.a)
  let idx ← optF 7 (decVIdx f.b)
  let data ← optF 8 (decV f.c)
  let ord ← optF 9 (decOrd (f.mod.extractLsb' 4 6))
  let ty ← optF 9 (decAT f.lo4)
  chk 9 (decide (fn = 8) == (ty == .f32))
  let o : VAtom := { g, la := f.la, d, cap, idx, data, scale := f.mod.extractLsb' 10 2, ord, ty }
  match fn with
  | 0 => .ok (.vAtomAdd o)
  | 1 => .ok (.vAtomMin o)
  | 2 => .ok (.vAtomMax o)
  | 3 => .ok (.vAtomAnd o)
  | 4 => .ok (.vAtomOr o)
  | 5 => .ok (.vAtomXor o)
  | 6 => .ok (.vAtomXchg o)
  | 7 => .ok (.vAtomCas o)
  | _ => .ok (.vAtomFadd o)

/-- Major 0x10 (R200). -/
def decFence (f : Fields) : Dec Instr := do
  chk 2 (f.func == 0#6)
  noLa f
  let g ← decGuard f.guard
  zeroF 5 f.dest
  let sc := f.mod.extractLsb' 4 4
  if sc = 7#4 ∨ sc = 8#4 then do
    let cap ← optF 6 (decC f.a)
    let idx ← optF 7 (decSIdx f.b)
    zeroF 8 f.c
    zeroF 9 (f.mod.extractLsb' 8 4)
    zeroF 9 f.lo4
    .ok (.fence { g, f := if sc = 7#4 then .bank cap idx else .arr cap idx })
  else do
    zeroF 6 f.a; zeroF 7 f.b; zeroF 8 f.c
    zeroF 9 (f.mod.extractLsb' 8 4)
    zeroF 9 f.lo4
    let s ← optF 9 (decScope sc)
    .ok (.fence { g, f := .at s })

/-- Major 0x11 (R201, R202). -/
def decCapOp (f : Fields) : Dec Instr := do
  let fn := f.func.toNat
  chk 2 (decide (fn ≤ 7))
  if fn = 5 ∨ fn = 6 then do
    let g ← decGuard f.guard
    let d ← optF 5 (decC f.dest)
    let cap ← optF 6 (decC f.a)
    let idx ← optF 7 (decSIdx f.b)
    let ord ← optF 9 (decOrd (f.mod.extractLsb' 4 6))
    zeroF 9 f.lo4
    let o : CMem := { g, la := f.la, d, cap, idx, disp := f.c, scale := f.mod.extractLsb' 10 2, ord }
    if fn = 5 then do
      chk 9 ord.load
      .ok (.cLd o)
    else do
      chk 9 ord.store
      .ok (.cSt o)
  else do
    noLa f
    let g ← decGuard f.guard
    match fn with
    | 0 => do
      let d ← optF 5 (decC f.dest); let a ← optF 6 (decC f.a); let b ← optF 7 (decS f.b); let c ← optF 8 (decS f.c)
      zeroF 9 f.mod
      .ok (.cNarrow { g, d, a, b, c })
    | 1 => do
      let d ← optF 5 (decC f.dest); let a ← optF 6 (decC f.a); let b ← optF 7 (decS f.b)
      zeroF 8 f.c; zeroF 9 f.mod
      .ok (.cPerm { g, d, a, b })
    | 2 => do
      let d ← optF 5 (decS f.dest); let a ← optF 6 (decC f.a)
      zeroF 7 f.b; zeroF 8 f.c; zeroF 9 (f.mod.extractLsb' 3 9)
      chk 9 (f.mod != 7#12)
      .ok (.cGet { g, d, a, f := f.mod.extractLsb' 0 3 })
    | 3 => do
      let d ← optF 5 (decS f.dest); let a ← optF 6 (decC f.a)
      zeroF 7 f.b; zeroF 8 f.c; zeroF 9 f.mod
      .ok (.cTag { g, d, a })
    | 4 => do
      let d ← optF 5 (decC f.dest); let a ← optF 6 (decC f.a)
      zeroF 7 f.b; zeroF 8 f.c; zeroF 9 f.mod
      .ok (.cMov { g, d, a })
    | _ => do
      let d ← optF 5 (decC f.dest); let a ← optF 6 (decS f.a); let b ← optF 7 (decS f.b)
      zeroF 8 f.c; zeroF 9 f.mod
      .ok (.cMk { g, d, a, b })

/-- Major 0x12 (R205 to R207). -/
def decTs (f : Fields) : Dec Instr := do
  let fn := f.func.toNat
  chk 2 (decide (fn ≤ 4 ∨ 8 ≤ fn ∧ fn ≤ 0x0A))
  noLa f
  let g ← decGuard f.guard
  let t := f.lo4
  let k := f.mod.extractLsb' 0 2
  let rest : Dec Unit := do zeroF 7 f.b; zeroF 8 f.c
  let hi : Dec Unit := zeroF 9 (f.mod.extractLsb' 4 8)
  match fn with
  | 0 => do zeroF 5 f.dest; let a ← optF 6 (decS f.a); rest; hi; .ok (.tsInit { g, t, a })
  | 1 => do zeroF 5 f.dest; zeroF 6 f.a; rest; hi; .ok (.tsArrive { g, t })
  | 2 => do zeroF 5 f.dest; let a ← optF 6 (decS f.a); rest; hi; .ok (.tsWait { g, t, a })
  | 3 => do zeroF 5 f.dest; zeroF 6 f.a; rest; hi; .ok (.tsArrw { g, t })
  | 4 => do let d ← optF 5 (decS f.dest); zeroF 6 f.a; rest; hi; .ok (.tsQuery { g, d, t })
  | 8 => do
    zeroF 5 f.dest; let a ← optF 6 (decS f.a); rest; zeroF 9 (f.mod.extractLsb' 2 10)
    .ok (.crInit { g, k, a })
  | 9 => do
    let d ← optF 5 (decS f.dest); zeroF 6 f.a; rest
    zeroF 9 (f.mod.extractLsb' 2 2); zeroF 9 (f.mod.extractLsb' 5 7)
    .ok (.crWait { g, k, cons := f.mod.getLsbD 4, d })
  | _ => do
    zeroF 5 f.dest; zeroF 6 f.a; rest
    zeroF 9 (f.mod.extractLsb' 2 2); zeroF 9 (f.mod.extractLsb' 6 6)
    .ok (.crPass { g, k, cons := f.mod.getLsbD 4, skip := f.mod.getLsbD 5 })

/-- A scalar register up to a highest one (R194). -/
def decSUpTo (hi : Nat) (x : BitVec 8) : Option SReg :=
  match decS x with
  | some r => if r.toNat ≤ hi then some r else none
  | none => none

/-- Major 0x13 (R211). -/
def decCpy (f : Fields) : Dec Instr := do
  let fn := f.func.toNat
  chk 2 (decide (fn ≤ 1))
  noLa f
  let g ← decGuard f.guard
  let d ← optF 5 (decP f.dest)
  let q ← optF 6 (decC f.a)
  if fn = 0 then do
    let a ← optF 7 (decSUpTo 56 f.b)
    zeroF 8 f.c; zeroF 9 f.mod
    .ok (.cpyPut { g, d, q, a })
  else do
    let a ← optF 7 (decSUpTo 59 f.b)
    let b ← optF 8 (decSUpTo 60 f.c)
    zeroF 9 f.mod
    .ok (.cpyIdx { g, d, q, a, b })

/-- Major 0x14 (R219, R220). -/
def decPage (f : Fields) : Dec Instr := do
  let fn := f.func.toNat
  chk 2 (decide (fn ≤ 1))
  let g ← decGuard f.guard
  let scale := f.mod.extractLsb' 10 2
  if fn = 0 then do
    zeroF 5 f.dest
    let cap ← optF 6 (decC f.a)
    let idx ← optF 7 (decVIdx f.b)
    zeroF 9 (f.mod.extractLsb' 1 9)
    .ok (.pgReq { g, la := f.la, cap, idx, disp := f.c, scale, w := f.mod.getLsbD 0 })
  else do
    let d ← optF 5 (decP f.dest)
    chk 5 (d != 7#3)
    let cap ← optF 6 (decC f.a)
    let idx ← optF 7 (decVIdx f.b)
    zeroF 9 (f.mod.extractLsb' 1 9)
    .ok (.pgTest { g, la := f.la, d, cap, idx, disp := f.c, scale, w := f.mod.getLsbD 0 })

/-- Major 0x15 (R266). -/
def decSet (f : Fields) : Dec Instr := do
  let fn := f.func.toNat
  chk 2 (decide (fn ≤ 0x0D))
  let la := f.la
  let g ← decGuard f.guard
  match fn with
  | 0x00 => do
    let d ← optF 5 (decC f.dest); let a ← optF 6 (decC f.a); let b ← optF 7 (decS f.b); let c ← optF 8 (decS f.c)
    zeroF 9 f.mod
    .ok (.setNew { g, la, d, a, b, c })
  | 0x02 => do
    let d ← optF 5 (decP f.dest); let a ← optF 6 (decC f.a); let x ← optF 7 (decVIdx f.b); zeroF 8 f.c; zeroF 9 f.mod
    .ok (.setIns { g, la, d, a, x })
  | 0x03 => do
    let d ← optF 5 (decP f.dest); let a ← optF 6 (decC f.a); let x ← optF 7 (decVIdx f.b); zeroF 8 f.c; zeroF 9 f.mod
    .ok (.setDel { g, la, d, a, x })
  | 0x04 => do
    let d ← optF 5 (decP f.dest); let a ← optF 6 (decC f.a); let x ← optF 7 (decVIdx f.b); zeroF 8 f.c; zeroF 9 f.mod
    .ok (.setHas { g, la, d, a, x })
  | 0x05 => do
    let d ← optF 5 (decS f.dest); let a ← optF 6 (decC f.a); zeroF 7 f.b; zeroF 8 f.c; zeroF 9 f.mod
    .ok (.setCard { g, la, d, a })
  | 0x06 => do
    let d ← optF 5 (decC f.dest); let a ← optF 6 (decC f.a); let b ← optF 7 (decC f.b); zeroF 8 f.c; zeroF 9 f.mod
    .ok (.setOr { g, la, d, a, b })
  | 0x07 => do
    let d ← optF 5 (decC f.dest); let a ← optF 6 (decC f.a); let b ← optF 7 (decC f.b); zeroF 8 f.c; zeroF 9 f.mod
    .ok (.setAnd { g, la, d, a, b })
  | 0x08 => do
    let d ← optF 5 (decC f.dest); let a ← optF 6 (decC f.a); let b ← optF 7 (decC f.b); zeroF 8 f.c; zeroF 9 f.mod
    .ok (.setAndn { g, la, d, a, b })
  | 0x09 => do
    let d ← optF 5 (decC f.dest); let a ← optF 6 (decC f.a); zeroF 7 f.b; zeroF 8 f.c; zeroF 9 f.mod
    .ok (.setCopy { g, la, d, a })
  | 0x0B => do
    let d ← optF 5 (decV f.dest); let a ← optF 6 (decC f.a); let c ← optF 7 (decSIdx f.b); zeroF 8 f.c; zeroF 9 f.mod
    .ok (.setEnum { g, la, d, a, c })
  | 0x0C => do
    let d ← optF 5 (decS f.dest); let a ← optF 6 (decC f.a); zeroF 7 f.b; zeroF 8 f.c; zeroF 9 (f.mod.extractLsb' 3 9)
    .ok (.setInfo { g, la, d, a, f := f.mod.extractLsb' 0 3 })
  | 0x0D => do
    zeroF 5 f.dest; let a ← optF 6 (decC f.a); zeroF 7 f.b; zeroF 8 f.c; let mode ← optF 9 (decPin f.mod)
    .ok (.setPin { g, la, a, mode })
  | 0x01 => do
    zeroF 5 f.dest; let a ← optF 6 (decC f.a); zeroF 7 f.b; zeroF 8 f.c; zeroF 9 f.mod
    .ok (.setFree { g, la, a })
  | _ => do
    zeroF 5 f.dest; let a ← optF 6 (decC f.a); zeroF 7 f.b; zeroF 8 f.c; zeroF 9 f.mod
    .ok (.setClr { g, la, a })

/-- VAR of the two-operand array forms (R288, R289). -/
def aVarOk (fn : Nat) (var : BitVec 2) : Bool :=
  match fn with
  | 0x03 => true
  | 0x06 => var == 0#2 || var == 2#2
  | 0x07 => var != 2#2
  | _ => var == 0#2

/-- Major 0x16 (R276 to R292). -/
def decArray (f : Fields) : Dec Instr := do
  let fn := f.func.toNat
  chk 2 (decide (fn ≤ 0x0B))
  let la := f.la
  let g ← decGuard f.guard
  let sub : CReg := f.mod.extractLsb' 7 5
  let wm1 := f.mod.extractLsb' 2 5
  let var := f.mod.extractLsb' 0 2
  let prow := f.c
  match fn with
  | 0x00 => do
    let cap ← optF 6 (decC f.a); let off ← optF 7 (decS f.b); zeroF 9 var
    .ok (.aTld { g, la, sub, wm1, row := f.dest, cap, off, prow })
  | 0x01 => do
    let cap ← optF 6 (decC f.a); let off ← optF 7 (decS f.b); zeroF 9 var
    .ok (.aTst { g, la, sub, wm1, row := f.dest, cap, off, prow })
  | 0x02 => do
    zeroF 6 f.a; let b ← optF 7 (decS f.b); zeroF 9 var
    .ok (.aFill { g, la, sub, wm1, row := f.dest, b, prow })
  | 0x09 => do
    zeroF 9 var
    .ok (.aShf { g, la, sub, wm1, d := f.dest, a := f.a, k := f.b, prow })
  | 0x0A => do
    let d ← optF 5 (decS f.dest); zeroF 7 f.b; zeroF 9 var
    .ok (.aPopc { g, la, sub, wm1, d, a := f.a, prow })
  | 0x0B => do
    zeroF 5 f.dest; zeroF 6 f.a; zeroF 7 f.b; zeroF 8 f.c; zeroF 9 (f.mod.extractLsb' 0 7)
    .ok (.aWait { g, la, sub })
  | _ => do
    chk 8 (!(decide (fn = 0x08) && prow == 0xFF#8))
    chk 9 (aVarOk fn var)
    let o : ABin := { g, la, sub, wm1, var, d := f.dest, a := f.a, b := f.b, prow }
    match fn with
    | 0x03 => .ok (.aLog o)
    | 0x04 => .ok (.aAdd o)
    | 0x05 => .ok (.aSub o)
    | 0x06 => .ok (.aMul o)
    | 0x07 => .ok (.aCmp o)
    | _ => .ok (.aSel o)

/-- Major 0x17 (R311). -/
def decBank (f : Fields) : Dec Instr := do
  let fn := f.func.toNat
  chk 2 (decide (fn ≤ 8))
  let la := f.la
  let g ← decGuard f.guard
  match fn with
  | 0 => do
    zeroF 5 f.dest; let cap ← optF 6 (decC f.a); let idx ← optF 7 (decSIdx f.b); zeroF 8 f.c; zeroF 9 f.mod
    .ok (.bLift { g, la, cap, idx })
  | 1 => do
    zeroF 5 f.dest; zeroF 6 f.a; zeroF 7 f.b; zeroF 8 f.c; zeroF 9 f.mod
    .ok (.bLand { g, la })
  | 2 => do
    zeroF 5 f.dest; let a ← optF 6 (decS f.a); let b ← optF 7 (decV f.b); zeroF 8 f.c; zeroF 9 f.mod
    .ok (.bUcld { g, la, a, b })
  | 3 => do
    zeroF 5 f.dest; let a ← optF 6 (decS f.a); let b ← optF 7 (decS f.b); let c ← optF 8 (decS f.c); zeroF 9 f.mod
    .ok (.bRun { g, la, a, b, c })
  | 4 => do
    zeroF 5 f.dest; let a ← optF 6 (decS f.a); let b ← optF 7 (decS f.b); zeroF 8 f.c; zeroF 9 f.mod
    .ok (.bStep { g, la, a, b })
  | 5 => do
    zeroF 5 f.dest; let a ← optF 6 (decS f.a); zeroF 7 f.b; zeroF 8 f.c; zeroF 9 f.mod
    .ok (.bWait { g, la, a })
  | 6 => do
    zeroF 5 f.dest; let a ← optF 6 (decS f.a); zeroF 7 f.b; zeroF 8 f.c; zeroF 9 f.mod
    .ok (.bFence { g, la, a })
  | 7 => do
    let d ← optF 5 (decV f.dest); let a ← optF 6 (decS f.a); zeroF 7 f.b; zeroF 8 f.c
    zeroF 9 (f.mod.extractLsb' 1 11)
    if f.mod.getLsbD 0 then .ok (.bAccWr { g, la, d, a }) else .ok (.bAccRd { g, la, d, a })
  | _ => do
    let d ← optF 5 (decS f.dest); let a ← optF 6 (decS f.a); zeroF 7 f.b; zeroF 8 f.c; zeroF 9 f.mod
    .ok (.bStat { g, la, d, a })

/-- The carried major of a prefix (R137). -/
def Fields.cmaj (f : Fields) : BitVec 6 := f.b.extractLsb' 0 6

/-- A carried FUNC is a function of its major that has a source B (R137). -/
def carriedFuncOk (cmaj fn : Nat) : Bool :=
  match cmaj with
  | 0x01 => decide (fn ≤ 0x10) && fn != 0x0D && fn != 0x0E
  | 0x06 => fn == 5
  | 0x08 => decide (fn ≤ 0x19) && fn != 0x10 && fn != 0x11 && fn != 0x12 && fn != 0x15
  | _ => decide (fn ≤ 6)

/-- The long-immediate prefix with its second word (R137, R173). [log 13: DEDUCED] -/
def decPrefix (f : Fields) (limm : Word) : Dec Instr := do
  let fn := f.func.toNat
  let cm := f.cmaj.toNat
  let cmOk := cm == 0x01 || cm == 0x06 || cm == 0x08 || cm == 0x0A
  chk 2 (!cmOk || carriedFuncOk cm fn)
  noLa f
  let g ← decGuard f.guard
  if cmOk then
    match cm with
    | 0x01 => do
      let d ← optF 5 (decS f.dest)
      let a ← optF 6 (decSSrc f.a)
      zeroF 7 (f.b.extractLsb' 6 2)
      let mk : CScalar → Dec Instr := fun c => .ok (.longImmediatePrefix { g, carried := .scalar c d a, limm })
      if fn = 0x10 then do
        let c ← optF 8 (decSSrc f.c)
        zeroF 9 f.mod
        mk (.sel c)
      else do
        zeroF 8 f.c
        match fn with
        | 0x00 => do zeroF 9 f.mod; mk .add
        | 0x01 => do zeroF 9 f.mod; mk .sub
        | 0x02 => do zeroF 9 f.mod; mk .mul
        | 0x04 => do zeroF 9 f.mod; mk .and
        | 0x05 => do zeroF 9 f.mod; mk .or
        | 0x06 => do zeroF 9 f.mod; mk .xor
        | 0x07 => do zeroF 9 f.mod; mk .andn
        | 0x08 => do zeroF 9 f.mod; mk .shl
        | 0x09 => do zeroF 9 f.mod; mk .shr
        | 0x0A => do zeroF 9 f.mod; mk .sra
        | 0x03 => do
          let sg ← optF 9 (decSg f.ty)
          zeroF 9 (f.mod.extractLsb' 0 7)
          mk (.mulh sg)
        | 0x0B => do
          let sg ← optF 9 (decSg f.ty)
          zeroF 9 (f.mod.extractLsb' 0 7)
          mk (.min sg)
        | 0x0C => do
          let sg ← optF 9 (decSg f.ty)
          zeroF 9 (f.mod.extractLsb' 0 7)
          mk (.max sg)
        | _ => do
          let sg ← optF 9 (decSg f.ty)
          zeroF 9 f.rm
          let c ← optF 9 (decCond f.lo4)
          chk 9 c.int
          mk (.cmp sg c)
    | 0x06 => do
      zeroF 5 f.dest; zeroF 6 f.a; zeroF 7 (f.b.extractLsb' 6 2); zeroF 8 f.c; zeroF 9 f.mod
      zeroF 10 (limm.extractLsb' 32 32)
      .ok (.sigChk { g, limm })
    | 0x08 =>
      if fn = 0x13 then do
        let d ← optF 5 (decVDest f.dest)
        let a ← optF 6 (decVASrc f.a)
        zeroF 7 (f.b.extractLsb' 6 2)
        zeroF 8 f.c
        let ty ← optF 9 (decITy f.ty)
        zeroF 9 f.rm
        let c ← optF 9 (decCond f.lo4)
        chk 9 c.int
        .ok (.longImmediatePrefix { g, carried := .vcmp d a ty c, limm })
      else do
        let d ← optF 5 (decV f.dest)
        let a ← optF 6 (decVASrc f.a)
        zeroF 7 (f.b.extractLsb' 6 2)
        let k : CVInt ←
          if fn = 0x14 then do let c ← optF 8 (decSelSrc f.c); pure (.sel c)
          else if fn = 0x04 then do let c ← optF 8 (decVSrc f.c); pure (.mad c)
          else if fn = 0x19 then do let c ← optF 8 (decVSrc f.c); pure (.ins c)
          else do
            zeroF 8 f.c
            pure (match fn with
              | 0x00 => CVInt.add
              | 0x01 => CVInt.sub
              | 0x02 => CVInt.mul
              | 0x03 => CVInt.mulh
              | 0x05 => CVInt.adds
              | 0x06 => CVInt.subs
              | 0x07 => CVInt.and
              | 0x08 => CVInt.or
              | 0x09 => CVInt.xor
              | 0x0A => CVInt.andn
              | 0x0B => CVInt.shl
              | 0x0C => CVInt.shr
              | 0x0D => CVInt.sra
              | 0x0E => CVInt.min
              | 0x0F => CVInt.max
              | 0x16 => CVInt.pack
              | 0x17 => CVInt.unpk
              | _ => CVInt.ext)
        let ty ← optF 9 (decITy f.ty)
        chk 9 (vintTyOk fn ty)
        zeroF 9 (f.mod.extractLsb' 0 7)
        .ok (.longImmediatePrefix { g, carried := .vint k d a ty, limm })
    | _ =>
      if fn = 6 then do
        let d ← optF 5 (decVDest f.dest)
        let a ← optF 6 (decV f.a)
        zeroF 7 (f.b.extractLsb' 6 2)
        zeroF 8 f.c
        let ty ← optF 9 (decFTy f.ty)
        zeroF 9 f.rm
        let c ← optF 9 (decCond f.lo4)
        .ok (.longImmediatePrefix { g, carried := .vfcmp d a ty c, limm })
      else do
        let d ← optF 5 (decV f.dest)
        let a ← optF 6 (decV f.a)
        zeroF 7 (f.b.extractLsb' 6 2)
        let mk : CVFloat → FType → Dec Instr := fun k ty =>
          .ok (.longImmediatePrefix { g, carried := .vfloat k d a ty, limm })
        if fn = 3 then do
          let c ← optF 8 (decVSrc f.c)
          let ty ← optF 9 (decFTy f.ty)
          let rm ← optF 9 (decRM f.rm)
          zeroF 9 f.lo4
          mk (.fma c rm) ty
        else do
          zeroF 8 f.c
          let ty ← optF 9 (decFTy f.ty)
          if fn ≤ 2 then do
            let rm ← optF 9 (decRM f.rm)
            zeroF 9 f.lo4
            match fn with
            | 0 => mk (.fadd rm) ty
            | 1 => mk (.fsub rm) ty
            | _ => mk (.fmul rm) ty
          else do
            zeroF 9 (f.mod.extractLsb' 0 7)
            if fn = 4 then mk .fmin ty else mk .fmax ty
  else do
    chk 5 ((decVDest f.dest).isSome || (decS f.dest).isSome || f.dest == 0#8)
    chk 6 ((decVSrc f.a).isSome || f.a == 0#8)
    rej 7

/-- A team word and the word after it, as an instruction or the first field at fault (R147, R335). -/
def decodeFields (f : Fields) (w2 : Word) : Dec Instr :=
  match f.major.toNat with
  | 0x01 => decScalar f
  | 0x02 => decScalarImm f
  | 0x03 => decScalarMem f
  | 0x04 => decControl f
  | 0x05 => decPred f
  | 0x06 => decSystem f
  | 0x07 => decResource f
  | 0x08 => decVInt f
  | 0x09 => decVImm f
  | 0x0A => decVFloat f
  | 0x0B => decSpecialFn f
  | 0x0C => decConv f
  | 0x0D => decCross f
  | 0x0E => decVMem f
  | 0x0F => decAtomic f
  | 0x10 => decFence f
  | 0x11 => decCapOp f
  | 0x12 => decTs f
  | 0x13 => decCpy f
  | 0x14 => decPage f
  | 0x15 => decSet f
  | 0x16 => decArray f
  | 0x17 => decBank f
  | 0x3F => decPrefix f w2
  | m => if 0x20 ≤ m ∧ m ≤ 0x27 then .error { field := 0, role := true } else rej 1

/-- An instruction of a team from its word and the word that follows it. The all-zero word is FIELD 13 (R340). [log 13: DEDUCED] -/
def decodeTeam (w w2 : Word) : Instr :=
  if w = 0#64 then .illegalWordIssue { field := 13, role := false }
  else match decodeFields (Fields.ofWord w) w2 with
    | .ok i => i
    | .error r => .illegalWordIssue r

/-- The bytes of the instruction that starts with this word: 16 for a prefix, else 8 (R133, R137). -/
def wordLen (w : Word) : Nat := if w.extractLsb' 58 6 = 0x3F#6 then 16 else 8

/-! ### The matrix stream (R150, R151) -/

/-- Major 0x20. -/
def decMatrix (f : Fields) : Dec Instr := do
  let fn := f.func.toNat
  chk 2 (decide (fn ≤ 0x0C))
  let rest : Dec Unit := do zeroF 7 f.b; zeroF 8 f.c
  let rec_ : Dec RecAddr := do
    let idx ← optF 6 (decMsOpt f.a)
    zeroF 7 f.b
    .ok { idx, step := f.c, off := f.mod }
  match fn with
  | 0x00 => do let d ← optF 5 (decD f.dest); let r ← rec_; .ok (.mTdld { d, at_ := r })
  | 0x01 => do let d ← optF 5 (decQ f.dest); let r ← rec_; .ok (.mSdld { d, at_ := r })
  | 0x02 => do let d ← optF 5 (decD f.dest); let r ← rec_; .ok (.mCapld { d, at_ := r })
  | 0x03 => do let d ← optF 5 (decAcc f.dest); zeroF 6 f.a; rest; zeroF 9 f.mod; .ok (.mZero { d })
  | 0x04 => do
    let d ← optF 5 (decD f.dest); let a ← optF 6 (decAcc f.a); rest; zeroF 9 (f.mod.extractLsb' 0 7)
    .ok (.mAcst { d, a, ty := f.ty })
  | 0x05 => do
    let a ← optF 5 (decAcc f.dest); let d ← optF 6 (decD f.a); rest; zeroF 9 (f.mod.extractLsb' 0 7)
    .ok (.mAcld { d, a, ty := f.ty })
  | 0x06 => do zeroF 5 f.dest; rest; let s ← decSync f.a f.mod; .ok (.mArrive { at_ := s })
  | 0x07 => do
    rest
    let s ← decSync f.a f.mod
    let d ← optF 5 (decMsOpt f.dest)
    match s, d with
    | .ts _, some _ => rej 5
    | _, _ => .ok (.mWait { at_ := s, d })
  | 0x08 => do
    let ms ← optF 5 (decMs f.dest); zeroF 6 f.a
    .ok (.mLoop { ms, n := f.imm.extractLsb' 18 10, target := f.imm.extractLsb' 0 18 })
  | 0x09 => do
    zeroF 5 f.dest; zeroF 6 f.a
    .ok (.mJmp { hi := f.imm.extractLsb' 18 10, target := f.imm.extractLsb' 0 18 })
  | 0x0A => do zeroF 5 f.dest; zeroF 6 f.a; rest; zeroF 9 f.mod; .ok .mEnd
  | 0x0B => do
    zeroF 5 f.dest; zeroF 6 f.a; rest; zeroF 9 (f.mod.extractLsb' 2 10); chk 9 (f.mod != 3#12)
    .ok (.mMirror { mode := f.mod.extractLsb' 0 2 })
  | _ => do let d ← optF 5 (decMs f.dest); zeroF 6 f.a; rest; zeroF 9 f.mod; .ok (.mRowp { d })

/-- Major 0x21. -/
def decMma (f : Fields) : Dec Instr := do
  let ty ← optF 2 (decMTy f.func)
  let acc ← optF 5 (decAcc f.dest)
  let a ← optF 6 (decD f.a)
  let b ← optF 7 (decD f.b)
  let qa ← optF 8 (decQOpt f.c)
  let qb ← optF 9 (decQOpt (f.mod.extractLsb' 4 8))
  zeroF 9 f.lo4
  .ok (.mMma { ty, acc, a, b, qa, qb })

/-- A matrix-stream word: GUARD 0b0111 and LA 0 (R150). -/
def decodeStream (w : Word) : Dec Instr :=
  let f := Fields.ofWord w
  if f.la ≠ 0#4 then rej 3
  else if f.guard ≠ 7#4 then rej 4
  else match f.major.toNat with
    | 0x20 => decMatrix f
    | 0x21 => decMma f
    | _ => rej 1

/-- The instruction that the decoder reads from `nbits` bits numbered as spec/opcode_table.json numbers them, every higher
bit 0: a matrix-stream word for majors 0x20 and 0x21 when it is one, otherwise a team word. -/
def decodeTableWord (nbits w : Nat) : Option Instr :=
  if nbits < 8 then none
  else
    let w1 : Word := BitVec.ofNat 64 (bits w 0 64)
    let w2 : Word := BitVec.ofNat 64 (bits w 64 64)
    let m := (Fields.ofWord w1).major.toNat
    if m = 0x20 ∨ m = 0x21 then
      match decodeStream w1 with
      | .ok i => some i
      | .error _ => some (decodeTeam w1 w2)
    else some (decodeTeam w1 w2)

/-! ### The encoder, from the same tables -/

/-- A word in the register format. -/
def mkR (major func : Nat) (la : BitVec 4) (g : Guard) (dest a b c : BitVec 8) (mod : BitVec 12) : Fields :=
  { major := BitVec.ofNat 6 major, func := BitVec.ofNat 6 func, la, guard := encGuard g, dest, a, b, c, mod }

/-- A word in the immediate format. -/
def mkI (major func : Nat) (g : Guard) (dest a : BitVec 8) (imm : BitVec 28) : Fields :=
  mkR major func 0#4 g dest a (immB imm) (immC imm) (immM imm)

/-- A word in the branch format. -/
def mkB (func : Nat) (g : Guard) (cond : BitVec 8) (reconv target : BitVec 18) : Fields :=
  mkR 0x04 func 0#4 g cond (reconv.extractLsb' 10 8) (reconv.extractLsb' 2 8)
    (reconv.extractLsb' 0 2 ++ target.extractLsb' 12 6 : BitVec 8) (target.extractLsb' 0 12)

/-- GUARD 0b0111: unguarded. -/
def unguarded : Guard := { neg := false, p := 7#3 }

/-- RM and SRCC of a conversion's rounding. -/
def rndRm : Rnd → BitVec 3
  | .mode m => encRM m
  | .sr _ => 4#3
def rndC : Rnd → BitVec 8
  | .mode _ => 0#8
  | .sr s => encS s

/-- FUNC, SRCC and MOD of a carried scalar function. -/
def encCScalar : CScalar → Nat × BitVec 8 × BitVec 12
  | .add => (0x00, 0#8, 0#12)
  | .sub => (0x01, 0#8, 0#12)
  | .mul => (0x02, 0#8, 0#12)
  | .and => (0x04, 0#8, 0#12)
  | .or => (0x05, 0#8, 0#12)
  | .xor => (0x06, 0#8, 0#12)
  | .andn => (0x07, 0#8, 0#12)
  | .shl => (0x08, 0#8, 0#12)
  | .shr => (0x09, 0#8, 0#12)
  | .sra => (0x0A, 0#8, 0#12)
  | .mulh sg => (0x03, 0#8, modOf (encSg sg) 0#3 0#4)
  | .min sg => (0x0B, 0#8, modOf (encSg sg) 0#3 0#4)
  | .max sg => (0x0C, 0#8, modOf (encSg sg) 0#3 0#4)
  | .cmp sg c => (0x0F, 0#8, modOf (encSg sg) 0#3 (encCond c))
  | .sel c => (0x10, encSSrc c, 0#12)

/-- FUNC and SRCC of a carried vector integer function. -/
def encCVInt : CVInt → Nat × BitVec 8
  | .add => (0x00, 0#8)
  | .sub => (0x01, 0#8)
  | .mul => (0x02, 0#8)
  | .mulh => (0x03, 0#8)
  | .adds => (0x05, 0#8)
  | .subs => (0x06, 0#8)
  | .and => (0x07, 0#8)
  | .or => (0x08, 0#8)
  | .xor => (0x09, 0#8)
  | .andn => (0x0A, 0#8)
  | .shl => (0x0B, 0#8)
  | .shr => (0x0C, 0#8)
  | .sra => (0x0D, 0#8)
  | .min => (0x0E, 0#8)
  | .max => (0x0F, 0#8)
  | .pack => (0x16, 0#8)
  | .unpk => (0x17, 0#8)
  | .ext => (0x18, 0#8)
  | .mad c => (0x04, encVSrc c)
  | .sel c => (0x14, encSelSrc c)
  | .ins c => (0x19, encVSrc c)

/-- FUNC, SRCC and RM of a carried vector float function. -/
def encCVFloat : CVFloat → Nat × BitVec 8 × BitVec 3
  | .fadd m => (0, 0#8, encRM m)
  | .fsub m => (1, 0#8, encRM m)
  | .fmul m => (2, 0#8, encRM m)
  | .fma c m => (3, encVSrc c, encRM m)
  | .fmin => (4, 0#8, 0#3)
  | .fmax => (5, 0#8, 0#3)

/-- MODE of a vote with its SRCA. -/
def encVote : VoteMode → BitVec 8 × BitVec 4
  | .any p => (encP p, 0#4)
  | .all p => (encP p, 1#4)
  | .cnt p => (encP p, 2#4)
  | .ballot p => (encP p, 3#4)
  | .uni v => (encV v, 4#4)
  | .miss => (0xE7#8, 5#4)

def encSBin (func : Nat) (o : SBin) : Fields := mkR 0x01 func 0#4 o.g (encS o.d) (encSSrc o.a) (encSSrc o.b) 0#8 0#12
def encSTy (func : Nat) (o : STy) : Fields :=
  mkR 0x01 func 0#4 o.g (encS o.d) (encSSrc o.a) (encSSrc o.b) 0#8 (modOf (encSg o.sg) 0#3 0#4)
def encSUn (func : Nat) (o : SUn) : Fields := mkR 0x01 func 0#4 o.g (encS o.d) (encSSrc o.a) 0#8 0#8 0#12
def encSImm (func : Nat) (o : SImm) : Fields := mkI 0x02 func o.g (encS o.d) (encSSrc o.a) o.imm
def encVBin (func : Nat) (o : VBin) : Fields :=
  mkR 0x08 func 0#4 o.g (encV o.d) (encVASrc o.a) (encVSrc o.b) 0#8 (modOf (encITy o.ty) 0#3 0#4)
def encVTern (func : Nat) (o : VTern) : Fields :=
  mkR 0x08 func 0#4 o.g (encV o.d) (encVASrc o.a) (encVSrc o.b) (encVSrc o.c) (modOf (encITy o.ty) 0#3 0#4)
def encVUn (func : Nat) (o : VUn) : Fields :=
  mkR 0x08 func 0#4 o.g (encV o.d) (encVASrc o.a) 0#8 0#8 (modOf (encITy o.ty) 0#3 0#4)
def encVImm (func : Nat) (o : VImm) : Fields :=
  mkI 0x09 func o.g (encV o.d) (encV o.a) (encEW o.w ++ o.imm : BitVec 28)
def encVFBin (func : Nat) (o : VFBin) : Fields :=
  mkR 0x0A func 0#4 o.g (encV o.d) (encV o.a) (encVSrc o.b) 0#8 (modOf (encFTy o.ty) (encRM o.rm) 0#4)
def encVFMin (func : Nat) (o : VFMin) : Fields :=
  mkR 0x0A func 0#4 o.g (encV o.d) (encV o.a) (encVSrc o.b) 0#8 (modOf (encFTy o.ty) 0#3 0#4)
def encVFUn (func : Nat) (o : VFUn) : Fields :=
  mkR 0x0A func 0#4 o.g (encV o.d) (encV o.a) 0#8 0#8 (modOf (encFTy o.ty) 0#3 0#4)
def encVSpf (func : Nat) (o : VSpf) : Fields :=
  mkR 0x0B func o.la o.g (encV o.d) (encV o.a) 0#8 0#8 (modOf (encFTy o.ty) 0#3 0#4)
def encVCvt (func : Nat) (o : VCvt) : Fields :=
  mkR 0x0C func 0#4 o.g (encV o.d) (encV o.a) (0#3 ++ encEl o.st : BitVec 8) (rndC o.rnd)
    (modOf (encEl o.dt) (rndRm o.rnd) 0#4)
def encVQnt (func : Nat) (o : VQnt) : Fields :=
  mkR 0x0C func 0#4 o.g (encV o.d) (encV o.a) (encV o.sc) (rndC o.rnd)
    (modOf (encEl o.ty) (rndRm o.rnd) (o.sel ++ 0#1 : BitVec 4))
def encVShfl (func : Nat) (o : VShfl) : Fields :=
  mkR 0x0D func 0#4 o.g (encV o.d) (encV o.a) (encVSrc o.b) 0#8 (modOf (encEl o.ty) 0#3 0#4)
def encPBin (func : Nat) (o : PBin) : Fields := mkR 0x05 func 0#4 o.g (encP o.d) (encP o.a) (encP o.b) 0#8 0#12
def encPUn (func : Nat) (o : PUn) : Fields := mkR 0x05 func 0#4 o.g (encP o.d) (encP o.a) 0#8 0#8 0#12
def encPRed (func : Nat) (o : PRed) : Fields := mkR 0x05 func 0#4 o.g (encS o.d) (encP o.a) 0#8 0#8 0#12
def encG (major func : Nat) (o : GOnly) : Fields := mkR major func 0#4 o.g 0#8 0#8 0#8 0#8 0#12
def encAtom (func : Nat) (o : VAtom) : Fields :=
  mkR 0x0F func o.la o.g (encV o.d) (encC o.cap) (encVIdx o.idx) (encV o.data)
    (modMem o.scale (encOrd o.ord) (encAT o.ty))
def encCMem (func : Nat) (o : CMem) : Fields :=
  mkR 0x11 func o.la o.g (encC o.d) (encC o.cap) (encSIdx o.idx) o.disp (modMem o.scale (encOrd o.ord) 0#4)
def encSetEl (func : Nat) (o : SetEl) : Fields :=
  mkR 0x15 func o.la o.g (encP o.d) (encC o.a) (encVIdx o.x) 0#8 0#12
def encSetAlg (func : Nat) (o : SetAlg) : Fields :=
  mkR 0x15 func o.la o.g (encC o.d) (encC o.a) (encC o.b) 0#8 0#12
def encSetOne (func : Nat) (o : SetOne) : Fields := mkR 0x15 func o.la o.g 0#8 (encC o.a) 0#8 0#8 0#12
/-- MOD of an array form (R276). -/
def modArr (sub : CReg) (wm1 : BitVec 5) (var : BitVec 2) : BitVec 12 := (sub ++ (wm1 ++ var) : BitVec 12)
def encATr (func : Nat) (o : ATr) : Fields :=
  mkR 0x16 func o.la o.g o.row (encC o.cap) (encS o.off) o.prow (modArr o.sub o.wm1 0#2)
def encABin (func : Nat) (o : ABin) : Fields :=
  mkR 0x16 func o.la o.g o.d o.a o.b o.prow (modArr o.sub o.wm1 o.var)
def encBWait (func : Nat) (o : BWait) : Fields := mkR 0x17 func o.la o.g 0#8 (encS o.a) 0#8 0#8 0#12
def encMRec (func : Nat) (dest : BitVec 8) (r : RecAddr) : Fields :=
  mkR 0x20 func 0#4 unguarded dest (encMsOpt r.idx) 0#8 r.step r.off

/-- The fields of an instruction's first word; none for an event, which has no encoding. -/
def encodeFields : Instr → Option Fields
  | .sAdd o => some (encSBin 0x00 o)
  | .sSub o => some (encSBin 0x01 o)
  | .sMul o => some (encSBin 0x02 o)
  | .sAnd o => some (encSBin 0x04 o)
  | .sOr o => some (encSBin 0x05 o)
  | .sXor o => some (encSBin 0x06 o)
  | .sAndn o => some (encSBin 0x07 o)
  | .sShl o => some (encSBin 0x08 o)
  | .sShr o => some (encSBin 0x09 o)
  | .sSra o => some (encSBin 0x0A o)
  | .sMulh o => some (encSTy 0x03 o)
  | .sMin o => some (encSTy 0x0B o)
  | .sMax o => some (encSTy 0x0C o)
  | .sClz o => some (encSUn 0x0D o)
  | .sPopc o => some (encSUn 0x0E o)
  | .sMov o => some (encSUn 0x11 o)
  | .sCmp o =>
    some (mkR 0x01 0x0F 0#4 o.g (encS o.d) (encSSrc o.a) (encSSrc o.b) 0#8 (modOf (encSg o.sg) 0#3 (encCond o.c)))
  | .sSel o => some (mkR 0x01 0x10 0#4 o.g (encS o.d) (encSSrc o.a) (encSSrc o.b) (encSSrc o.c) 0#12)
  | .sAddImm o => some (encSImm 0x00 o)
  | .sSubImm o => some (encSImm 0x01 o)
  | .sMulImm o => some (encSImm 0x02 o)
  | .sAndImm o => some (encSImm 0x04 o)
  | .sOrImm o => some (encSImm 0x05 o)
  | .sXorImm o => some (encSImm 0x06 o)
  | .sAndnImm o => some (encSImm 0x07 o)
  | .sShlImm o => some (encSImm 0x08 o)
  | .sShrImm o => some (encSImm 0x09 o)
  | .sSraImm o => some (encSImm 0x0A o)
  | .sLi o => some (mkI 0x02 0x12 o.g (encS o.d) 0#8 o.imm)
  | .longImmediatePrefix o =>
    let b (cm : BitVec 6) : BitVec 8 := (0#2 ++ cm : BitVec 8)
    match o.carried with
    | .scalar k d a => let e := encCScalar k; some (mkR 0x3F e.1 0#4 o.g (encS d) (encSSrc a) (b 1#6) e.2.1 e.2.2)
    | .vint k d a ty =>
      let e := encCVInt k
      some (mkR 0x3F e.1 0#4 o.g (encV d) (encVASrc a) (b 8#6) e.2 (modOf (encITy ty) 0#3 0#4))
    | .vcmp d a ty c =>
      some (mkR 0x3F 0x13 0#4 o.g (encVDest d) (encVASrc a) (b 8#6) 0#8 (modOf (encITy ty) 0#3 (encCond c)))
    | .vfloat k d a ty =>
      let e := encCVFloat k
      some (mkR 0x3F e.1 0#4 o.g (encV d) (encV a) (b 10#6) e.2.1 (modOf (encFTy ty) e.2.2 0#4))
    | .vfcmp d a ty c =>
      some (mkR 0x3F 6 0#4 o.g (encVDest d) (encV a) (b 10#6) 0#8 (modOf (encFTy ty) 0#3 (encCond c)))
  | .sigChk o => some (mkR 0x3F 5 0#4 o.g 0#8 0#8 6#8 0#8 0#12)
  | .sLd o =>
    some (mkR 0x03 (encSLdW o.w).toNat o.la o.g (encS o.d) (encC o.cap) (encSIdx o.idx) o.disp (modMem o.scale (encOrd o.ord) 0#4))
  | .sSt o =>
    some (mkR 0x03 (8 + (encMW o.w).toNat) o.la o.g (encS o.d) (encC o.cap) (encSIdx o.idx) o.disp (modMem o.scale (encOrd o.ord) 0#4))
  | .br o => some (mkB 0 o.g 0#8 0#18 o.target)
  | .brc o => some (mkB 1 o.g (encS o.c) 0#18 o.target)
  | .brv o => some (mkB 2 o.g (encP o.c) o.reconv o.target)
  | .breakv o => some (mkB 3 o.g (encP o.c) 0#18 o.target)
  | .call o => some (mkB 4 o.g (encS o.c) 0#18 o.target)
  | .loop o => some (mkB 7 o.g (encS o.c) 0#18 o.target)
  | .ret o => some (mkR 0x04 5 0#4 o.g 0#8 (encS o.a) 0#8 0#8 0#12)
  | .jmp o => some (mkR 0x04 6 0#4 o.g 0#8 (encS o.a) 0#8 0#8 0#12)
  | .exit o => some (encG 0x04 8 o)
  | .yield o => some (encG 0x04 9 o)
  | .safept o => some (encG 0x04 10 o)
  | .nop o => some (encG 0x04 12 o)
  | .waitcnt o => some (mkI 0x04 11 o.g 0#8 0#8 (0#4 ++ (o.b ++ (o.a ++ (o.s ++ o.m))) : BitVec 28))
  | .pAnd o => some (encPBin 0 o)
  | .pOr o => some (encPBin 1 o)
  | .pXor o => some (encPBin 2 o)
  | .pAndn o => some (encPBin 3 o)
  | .pNot o => some (encPUn 4 o)
  | .pMov o => some (encPUn 5 o)
  | .pAny o => some (encPRed 6 o)
  | .pAll o => some (encPRed 7 o)
  | .pCnt o => some (encPRed 8 o)
  | .pFirst o => some (encPRed 9 o)
  | .pFromv o => some (mkR 0x05 10 0#4 o.g (encP o.d) (encV o.a) 0#8 0#8 0#12)
  | .pTov o => some (mkR 0x05 11 0#4 o.g (encV o.d) (encP o.a) 0#8 0#8 0#12)
  | .pAct o => some (mkR 0x05 12 0#4 o.g (encS o.d) (encS o.a) 0#8 0#8 0#12)
  | .trap o => some (mkI 0x06 0 o.g 0#8 0#8 (0#12 ++ o.code : BitVec 28))
  | .brk o => some (mkI 0x06 4 o.g 0#8 0#8 (0#12 ++ o.code : BitVec 28))
  | .eret o => some (encG 0x06 1 o)
  | .sigRst o => some (encG 0x06 6 o)
  | .csrr o => some (mkI 0x06 2 o.g (encS o.r) 0#8 (0#16 ++ encCsr o.csr : BitVec 28))
  | .csrw o => some (mkI 0x06 3 o.g 0#8 (encS o.r) (0#16 ++ encCsr o.csr : BitVec 28))
  | .grow o => some (mkI 0x07 0 o.g 0#8 0#8 o.n)
  | .shrink o => some (mkI 0x07 1 o.g 0#8 0#8 o.n)
  | .rolesw o => some (mkR 0x07 2 0#4 o.g (encS o.d) (encS o.a) (encS o.b) 0#8 0#12)
  | .allot o => some (mkI 0x07 3 o.g (encS o.d) 0#8 o.n)
  | .vAdd o => some (encVBin 0x00 o)
  | .vSub o => some (encVBin 0x01 o)
  | .vMul o => some (encVBin 0x02 o)
  | .vMulh o => some (encVBin 0x03 o)
  | .vAdds o => some (encVBin 0x05 o)
  | .vSubs o => some (encVBin 0x06 o)
  | .vAnd o => some (encVBin 0x07 o)
  | .vOr o => some (encVBin 0x08 o)
  | .vXor o => some (encVBin 0x09 o)
  | .vAndn o => some (encVBin 0x0A o)
  | .vShl o => some (encVBin 0x0B o)
  | .vShr o => some (encVBin 0x0C o)
  | .vSra o => some (encVBin 0x0D o)
  | .vMin o => some (encVBin 0x0E o)
  | .vMax o => some (encVBin 0x0F o)
  | .vPack o => some (encVBin 0x16 o)
  | .vUnpk o => some (encVBin 0x17 o)
  | .vExt o => some (encVBin 0x18 o)
  | .vMad o => some (encVTern 0x04 o)
  | .vIns o => some (encVTern 0x19 o)
  | .vAbs o => some (encVUn 0x10 o)
  | .vClz o => some (encVUn 0x11 o)
  | .vPopc o => some (encVUn 0x12 o)
  | .vCmp o =>
    some (mkR 0x08 0x13 0#4 o.g (encVDest o.d) (encVASrc o.a) (encVSrc o.b) 0#8 (modOf (encITy o.ty) 0#3 (encCond o.c)))
  | .vSel o =>
    some (mkR 0x08 0x14 0#4 o.g (encV o.d) (encVASrc o.a) (encVSrc o.b) (encSelSrc o.c) (modOf (encITy o.ty) 0#3 0#4))
  | .vMov o => some (mkR 0x08 0x15 0#4 o.g (encV o.d) (encVSrc o.a) 0#8 0#8 (modOf (encITy o.ty) 0#3 0#4))
  | .vAddImm o => some (encVImm 0x00 o)
  | .vSubImm o => some (encVImm 0x01 o)
  | .vMulImm o => some (encVImm 0x02 o)
  | .vAndImm o => some (encVImm 0x07 o)
  | .vOrImm o => some (encVImm 0x08 o)
  | .vXorImm o => some (encVImm 0x09 o)
  | .vAndnImm o => some (encVImm 0x0A o)
  | .vShlImm o => some (encVImm 0x0B o)
  | .vShrImm o => some (encVImm 0x0C o)
  | .vSraImm o => some (encVImm 0x0D o)
  | .vLi o => some (mkI 0x09 0x1A o.g (encV o.d) 0#8 (encEW o.w ++ o.imm : BitVec 28))
  | .vFadd o => some (encVFBin 0 o)
  | .vFsub o => some (encVFBin 1 o)
  | .vFmul o => some (encVFBin 2 o)
  | .vFma o =>
    some (mkR 0x0A 3 0#4 o.g (encV o.d) (encV o.a) (encVSrc o.b) (encVSrc o.c) (modOf (encFTy o.ty) (encRM o.rm) 0#4))
  | .vFmin o => some (encVFMin 4 o)
  | .vFmax o => some (encVFMin 5 o)
  | .vFcmp o =>
    some (mkR 0x0A 6 0#4 o.g (encVDest o.d) (encV o.a) (encVSrc o.b) 0#8 (modOf (encFTy o.ty) 0#3 (encCond o.c)))
  | .vFabs o => some (encVFUn 7 o)
  | .vFneg o => some (encVFUn 8 o)
  | .vFclass o => some (encVFUn 9 o)
  | .vFrcp o => some (encVSpf 0 o)
  | .vFrsq o => some (encVSpf 1 o)
  | .vFexp2 o => some (encVSpf 3 o)
  | .vFlog2 o => some (encVSpf 4 o)
  | .vFsqrt o => some (mkR 0x0B 2 o.la o.g (encV o.d) (encV o.a) 0#8 0#8 (modOf (encFTy o.ty) (encRM o.rm) 0#4))
  | .vCvt o => some (encVCvt 0 o)
  | .vCvti o => some (encVCvt 1 o)
  | .vCvtf o => some (encVCvt 2 o)
  | .vQnt o => some (encVQnt 3 o)
  | .vDqt o => some (encVQnt 4 o)
  | .vCbld o => some (mkR 0x0C 5 0#4 o.g 0#8 (encV o.a) 0#8 0#8 0x880#12)
  | .vCbenc o => some (mkR 0x0C 6 0#4 o.g (encV o.d) (encV o.a) (if o.bf then 0x0A#8 else 0x08#8) 0#8 0x880#12)
  | .vShfl o => some (encVShfl 0 o)
  | .vPerm o => some (encVShfl 5 o)
  | .vBcst o => some (mkR 0x0D 1 0#4 o.g (encV o.d) (encV o.a) (encSSrc o.b) 0#8 (modOf (encEl o.ty) 0#3 0#4))
  | .vVote o =>
    some (mkR 0x0D 2 0#4 o.g (encV o.d) (encVote o.mode).1 (encP o.m) (encP o.r) (modOf 0#5 0#3 (encVote o.mode).2))
  | .vScan o =>
    some (mkR 0x0D 3 0#4 o.g (encV o.d) (encV o.a) 0#8 0#8 (modOf (encEl o.ty) 0#3 ((if o.excl then 1#1 else 0#1) ++ encScanOp o.op : BitVec 4)))
  | .vRed o =>
    some (mkR 0x0D 4 0#4 o.g (encV o.d) (encV o.a) 0#8 0#8 (modOf (encEl o.ty) 0#3 (0#1 ++ encScanOp o.op : BitVec 4)))
  | .vLd o =>
    some (mkR 0x0E (encMW o.w).toNat o.la o.g (encV o.d) (encC o.cap) (encVIdx o.idx) o.disp (modMem o.scale (encOrd o.ord) (encRp o.rp)))
  | .vSt o =>
    some (mkR 0x0E (4 + (encMW o.w).toNat) o.la o.g (encV o.d) (encC o.cap) (encVIdx o.idx) o.disp (modMem o.scale (encOrd o.ord) 0#4))
  | .vLdb o =>
    some (mkR 0x0E (8 + (encMW o.w).toNat) o.la o.g (encV o.d) (encC o.cap) (encBIdx o.idx) o.disp (modMem o.scale (encOrd o.ord) (encRp o.rp)))
  | .vAtomAdd o => some (encAtom 0 o)
  | .vAtomMin o => some (encAtom 1 o)
  | .vAtomMax o => some (encAtom 2 o)
  | .vAtomAnd o => some (encAtom 3 o)
  | .vAtomOr o => some (encAtom 4 o)
  | .vAtomXor o => some (encAtom 5 o)
  | .vAtomXchg o => some (encAtom 6 o)
  | .vAtomCas o => some (encAtom 7 o)
  | .vAtomFadd o => some (encAtom 8 o)
  | .fence o =>
    match o.f with
    | .at s => some (mkR 0x10 0 0#4 o.g 0#8 0#8 0#8 0#8 (modMem 0#2 (0#2 ++ encScope s : BitVec 6) 0#4))
    | .bank c i => some (mkR 0x10 0 0#4 o.g 0#8 (encC c) (encSIdx i) 0#8 0x070#12)
    | .arr c i => some (mkR 0x10 0 0#4 o.g 0#8 (encC c) (encSIdx i) 0#8 0x080#12)
  | .cNarrow o => some (mkR 0x11 0 0#4 o.g (encC o.d) (encC o.a) (encS o.b) (encS o.c) 0#12)
  | .cPerm o => some (mkR 0x11 1 0#4 o.g (encC o.d) (encC o.a) (encS o.b) 0#8 0#12)
  | .cGet o => some (mkR 0x11 2 0#4 o.g (encS o.d) (encC o.a) 0#8 0#8 (0#9 ++ o.f : BitVec 12))
  | .cTag o => some (mkR 0x11 3 0#4 o.g (encS o.d) (encC o.a) 0#8 0#8 0#12)
  | .cMov o => some (mkR 0x11 4 0#4 o.g (encC o.d) (encC o.a) 0#8 0#8 0#12)
  | .cLd o => some (encCMem 5 o)
  | .cSt o => some (encCMem 6 o)
  | .cMk o => some (mkR 0x11 7 0#4 o.g (encC o.d) (encS o.a) (encS o.b) 0#8 0#12)
  | .tsInit o => some (mkR 0x12 0 0#4 o.g 0#8 (encS o.a) 0#8 0#8 (0#8 ++ o.t : BitVec 12))
  | .tsArrive o => some (mkR 0x12 1 0#4 o.g 0#8 0#8 0#8 0#8 (0#8 ++ o.t : BitVec 12))
  | .tsWait o => some (mkR 0x12 2 0#4 o.g 0#8 (encS o.a) 0#8 0#8 (0#8 ++ o.t : BitVec 12))
  | .tsArrw o => some (mkR 0x12 3 0#4 o.g 0#8 0#8 0#8 0#8 (0#8 ++ o.t : BitVec 12))
  | .tsQuery o => some (mkR 0x12 4 0#4 o.g (encS o.d) 0#8 0#8 0#8 (0#8 ++ o.t : BitVec 12))
  | .crInit o => some (mkR 0x12 8 0#4 o.g 0#8 (encS o.a) 0#8 0#8 (0#10 ++ o.k : BitVec 12))
  | .crWait o =>
    some (mkR 0x12 9 0#4 o.g (encS o.d) 0#8 0#8 0#8 (0#7 ++ ((if o.cons then 1#1 else 0#1) ++ (0#2 ++ o.k)) : BitVec 12))
  | .crPass o =>
    some (mkR 0x12 10 0#4 o.g 0#8 0#8 0#8 0#8 (0#6 ++ ((if o.skip then 1#1 else 0#1) ++ ((if o.cons then 1#1 else 0#1) ++ (0#2 ++ o.k))) : BitVec 12))
  | .cpyPut o => some (mkR 0x13 0 0#4 o.g (encP o.d) (encC o.q) (encS o.a) 0#8 0#12)
  | .cpyIdx o => some (mkR 0x13 1 0#4 o.g (encP o.d) (encC o.q) (encS o.a) (encS o.b) 0#12)
  | .pgReq o =>
    some (mkR 0x14 0 o.la o.g 0#8 (encC o.cap) (encVIdx o.idx) o.disp (o.scale ++ (0#9 ++ (if o.w then 1#1 else 0#1)) : BitVec 12))
  | .pgTest o =>
    some (mkR 0x14 1 o.la o.g (encP o.d) (encC o.cap) (encVIdx o.idx) o.disp (o.scale ++ (0#9 ++ (if o.w then 1#1 else 0#1)) : BitVec 12))
  | .setNew o => some (mkR 0x15 0 o.la o.g (encC o.d) (encC o.a) (encS o.b) (encS o.c) 0#12)
  | .setFree o => some (encSetOne 1 o)
  | .setIns o => some (encSetEl 2 o)
  | .setDel o => some (encSetEl 3 o)
  | .setHas o => some (encSetEl 4 o)
  | .setCard o => some (mkR 0x15 5 o.la o.g (encS o.d) (encC o.a) 0#8 0#8 0#12)
  | .setOr o => some (encSetAlg 6 o)
  | .setAnd o => some (encSetAlg 7 o)
  | .setAndn o => some (encSetAlg 8 o)
  | .setCopy o => some (mkR 0x15 9 o.la o.g (encC o.d) (encC o.a) 0#8 0#8 0#12)
  | .setClr o => some (encSetOne 10 o)
  | .setEnum o => some (mkR 0x15 11 o.la o.g (encV o.d) (encC o.a) (encSIdx o.c) 0#8 0#12)
  | .setInfo o => some (mkR 0x15 12 o.la o.g (encS o.d) (encC o.a) 0#8 0#8 (0#9 ++ o.f : BitVec 12))
  | .setPin o => some (mkR 0x15 13 o.la o.g 0#8 (encC o.a) 0#8 0#8 (encPin o.mode))
  | .aTld o => some (encATr 0 o)
  | .aTst o => some (encATr 1 o)
  | .aFill o => some (mkR 0x16 2 o.la o.g o.row 0#8 (encS o.b) o.prow (modArr o.sub o.wm1 0#2))
  | .aLog o => some (encABin 3 o)
  | .aAdd o => some (encABin 4 o)
  | .aSub o => some (encABin 5 o)
  | .aMul o => some (encABin 6 o)
  | .aCmp o => some (encABin 7 o)
  | .aSel o => some (encABin 8 o)
  | .aShf o => some (mkR 0x16 9 o.la o.g o.d o.a o.k o.prow (modArr o.sub o.wm1 0#2))
  | .aPopc o => some (mkR 0x16 10 o.la o.g (encS o.d) o.a 0#8 o.prow (modArr o.sub o.wm1 0#2))
  | .aWait o => some (mkR 0x16 11 o.la o.g 0#8 0#8 0#8 0#8 (modArr o.sub 0#5 0#2))
  | .bLift o => some (mkR 0x17 0 o.la o.g 0#8 (encC o.cap) (encSIdx o.idx) 0#8 0#12)
  | .bLand o => some (mkR 0x17 1 o.la o.g 0#8 0#8 0#8 0#8 0#12)
  | .bUcld o => some (mkR 0x17 2 o.la o.g 0#8 (encS o.a) (encV o.b) 0#8 0#12)
  | .bRun o => some (mkR 0x17 3 o.la o.g 0#8 (encS o.a) (encS o.b) (encS o.c) 0#12)
  | .bStep o => some (mkR 0x17 4 o.la o.g 0#8 (encS o.a) (encS o.b) 0#8 0#12)
  | .bWait o => some (encBWait 5 o)
  | .bFence o => some (encBWait 6 o)
  | .bAccRd o => some (mkR 0x17 7 o.la o.g (encV o.d) (encS o.a) 0#8 0#8 0#12)
  | .bAccWr o => some (mkR 0x17 7 o.la o.g (encV o.d) (encS o.a) 0#8 0#8 1#12)
  | .bStat o => some (mkR 0x17 8 o.la o.g (encS o.d) (encS o.a) 0#8 0#8 0#12)
  | .mTdld o => some (encMRec 0 (encD o.d) o.at_)
  | .mSdld o => some (encMRec 1 (encQ o.d) o.at_)
  | .mCapld o => some (encMRec 2 (encD o.d) o.at_)
  | .mZero o => some (mkR 0x20 3 0#4 unguarded (encAcc o.d) 0#8 0#8 0#8 0#12)
  | .mAcst o => some (mkR 0x20 4 0#4 unguarded (encD o.d) (encAcc o.a) 0#8 0#8 (modOf o.ty 0#3 0#4))
  | .mAcld o => some (mkR 0x20 5 0#4 unguarded (encAcc o.a) (encD o.d) 0#8 0#8 (modOf o.ty 0#3 0#4))
  | .mArrive o => some (mkR 0x20 6 0#4 unguarded 0#8 (encSync o.at_) 0#8 0#8 (encSide o.at_))
  | .mWait o => some (mkR 0x20 7 0#4 unguarded (encMsOpt o.d) (encSync o.at_) 0#8 0#8 (encSide o.at_))
  | .mLoop o => some (mkI 0x20 8 unguarded (encMs o.ms) 0#8 (o.n ++ o.target : BitVec 28))
  | .mJmp o => some (mkI 0x20 9 unguarded 0#8 0#8 (o.hi ++ o.target : BitVec 28))
  | .mEnd => some (mkR 0x20 10 0#4 unguarded 0#8 0#8 0#8 0#8 0#12)
  | .mMirror o => some (mkR 0x20 11 0#4 unguarded 0#8 0#8 0#8 0#8 (0#10 ++ o.mode : BitVec 12))
  | .mRowp o => some (mkR 0x20 12 0#4 unguarded (encMs o.d) 0#8 0#8 0#8 0#12)
  | .mMma o =>
    some (mkR 0x21 (encMTy o.ty).toNat 0#4 unguarded (encAcc o.acc) (encD o.a) (encD o.b) (encQOpt o.qa) (encQOpt o.qb ++ 0#4 : BitVec 12))
  | _ => none

/-- LIMM of a two-word instruction (R137). -/
def limmOf : Instr → Option Word
  | .longImmediatePrefix o => some o.limm
  | .sigChk o => some o.limm
  | _ => none

/-- The words of an instruction; none for an event. -/
def encode (i : Instr) : List Word :=
  match encodeFields i with
  | none => []
  | some f =>
    match limmOf i with
    | none => [f.toWord]
    | some l => [f.toWord, l]

/-- The decoder applied to the words of an instruction: a stream word for the matrix forms. -/
def decodeWords (stream : Bool) : List Word → Option Instr
  | [] => none
  | w :: ws =>
    if stream then
      match decodeStream w with
      | .ok i => some i
      | .error _ => none
    else some (decodeTeam w (ws.headD 0#64))

end Sys2Proof
end

