-- ==== Sys2Proof/Machine/State.lean ====
section
/-!
DEFINITION. Sys2Proof/Machine/State.lean: the state of the whole device as plain data, the reasons a step can stop, and
`State.reset`, the device right after it leaves reset (R333). Units that exist in large numbers (cores, clusters,
channels, address spaces, interfaces, queue slots) are sparse maps whose unlisted entries are at their reset value.
INVENTORY.md lists every field with its rule and its reset value.
-/

namespace Sys2Proof.Machine

/-- Where a byte is: physical memory, or the scratchpad of a core (R86, R98). -/
inductive Loc | pa (a : Nat) | sp (core : Nat) (off : Nat)
  deriving DecidableEq, Repr

/-- A register that the operand interlock can name (R51, R159). -/
inductive RegRef | s (r : Nat) | v (r : Nat) | p (r : Nat) | c (r : Nat) | cb
  deriving DecidableEq, Repr

/-- The counter classes of R52, with the uncounted long-latency classes. -/
inductive Cls | mem | set | arr | bank | spf | page
  deriving DecidableEq, Repr

/-- One lane of an access: the lane, where it goes, its virtual address or offset, whether its page is absent for a
load with a residency predicate (R91), and whether it waits for an earlier atomic of its team and then reads at the home (R109). -/
structure LaneAcc where
  lane : Nat
  loc : Loc
  addr : Nat
  absent : Bool
  home : Bool := false
  deriving DecidableEq, Repr

/-- What an atomic does at its home (R198), with the lane's address and the order number of its instruction. -/
structure AtomOp where
  func : Nat
  ty : AType
  data : Nat
  cmp : Nat
  dest : Nat
  lane : Nat
  addr : Nat
  id : Nat
  deriving DecidableEq, Repr

/-- A lane of a store or of an atomic in a store buffer or in the core's write path (R109). The lanes of one instruction
share their order number. `entry` is the order number of its entry into the write path, `readers` the block, team and order
number of the loads that have taken its value from there (R111). -/
structure StReq where
  seq : Nat
  team : Nat
  csn : Nat
  loc : Loc
  bytes : List Byte
  tag : Bool
  atom : Option AtomOp
  rel : Option Scope
  entry : Nat := 0
  readers : List (Nat × Nat × Nat) := []
  deriving DecidableEq, Repr

/-- What a set operation asks of its home (R266). -/
inductive SetReq
  | new (lo u area : Nat) (cap : BitVec 128) (tag : Bool)
  | free
  | ins (els : List (Nat × Nat))
  | del (els : List (Nat × Nat))
  | has (els : List (Nat × Nat))
  | card
  | alg (func : Nat)
  | clr
  | enum (c : Nat) (lanes : List Nat)
  | info (f : Nat)
  | pin (m : PinMode)
  deriving DecidableEq, Repr

/-- What a set operation returns: values per lane, or one value (R268, R269). -/
inductive SetRes | accepted | preds (xs : List (Nat × Bool)) | vals (xs : List (Nat × Word)) | one (w : Word)
  | cap (c : BitVec 128) (tag : Bool)
  deriving DecidableEq, Repr

/-- A macro operation (R286 to R291). -/
inductive ArrKind
  | tld (off : Nat) (row : Nat) | tst (off : Nat) (row : Nat) | fill (row : Nat) (val : Nat)
  | bin (func var : Nat) (d a b : Nat) | shf (d a : Nat) (k : Int) | popc (a : Nat)
  deriving DecidableEq, Repr

/-- A macro operation on its way through its subarray (R280): `out` is what it will write, computed from its sources as
they stood when it started (R283): bytes by offset, poisoned words, and the scalar of `a.popc`. -/
structure ArrOp where
  seq : Nat
  team : Nat
  sub : Nat
  sub2 : Nat
  w : Nat
  prow : Nat
  kind : ArrKind
  started : Bool
  writes : List (Nat × Byte)
  poison : List Nat
  count : Nat
  bad : Option Nat
  deriving DecidableEq, Repr

/-- A bank command (R311). -/
inductive BankReq
  | ucld (slots : List (Nat × Word))
  | run (entry ln : Nat) (step keep : Bool) (row0 nr : Nat) (p0 p1 : Nat)
  | step (n : Nat)
  | accRd (acc : Nat) (lanes : List Nat)
  | accWr (acc : Nat) (vals : List (Nat × Word))
  | stat
  | fence
  deriving DecidableEq, Repr

/-- A bank command: who issued it, its channel (32 × stack + channel), its units, its channel word and sB, and ROWBASE of
the issuing team (R312, R314). -/
structure BankCmd where
  seq : Nat
  core : Nat
  team : Nat
  vi : Nat
  ch : Nat
  units : Nat
  word : Word
  sb : Word
  rowBase : Nat
  req : BankReq
  deriving DecidableEq, Repr

/-- What is outstanding for a long-latency instruction (R51). `bad` of an atomic says that one of its lanes has met poison, so that it
writes no register (R371). The flags of a special function are kept by lane, like its values (R76). -/
inductive PendKind
  | load (lanes : List LaneAcc) (n : Nat) (sext : Bool) (dst : RegRef) (bcast : List Nat) (acq : Option Scope)
      (rp : Option Nat) (lc : Bool) (vals : Option (List (Nat × Nat × Bool)))
  | atom (left : Nat) (acq : Bool) (bad : Bool) (vals : List (Nat × Word))
  | spf (d : Nat) (vals : List (Nat × Word)) (flags : List (Nat × Nat))
  | set (counted : Bool) (dst : Option RegRef) (res : Option SetRes)
  | arr (dst : Option Nat) (sub : Nat) (ended : Bool) (res : Option Nat)
  | bank (ch : Nat) (dst : Option RegRef) (res : Option (List (Nat × Word)))
  | lift
  | land
  | pgtest (d : Nat) (vals : List (Nat × Bool))
  deriving DecidableEq, Repr

/-- An outstanding long-latency instruction. `window` counts the instructions of its own fragment that may still issue
before it completes, none when it holds nothing (R51); `wrote` lists what a later instruction of its window has already
written over (R51). The address, word, lane and handler mode of its issue serve R386 and R349. `heirs` are the fragments whose
program order it precedes: its own, those that have split off from it since, and after fusion the one that survives (R39, R41). -/
structure Pend where
  seq : Nat
  csn : Nat
  heirs : List Nat
  cls : Cls
  window : Option Nat
  dests : List RegRef
  wrote : List (RegRef × Mask)
  kind : PendKind
  pc : Nat
  word : Word
  lane : Nat
  hnd : Bool
  deriving DecidableEq, Repr

/-- What holds a fragment (R48). -/
inductive Hold
  | none
  | poll (data : Nat)
  | grow
  | role (d : Nat) (old : Word) (copy : Bool) (prio : Nat) (pc : Nat)
  | ts (t : Nat) (car : Option Nat)
  | released
  | abandoned (t : Nat) (car : Option Nat)
  deriving DecidableEq, Repr

/-- A fragment (R37). `entry` is its split-table entry while it is resident, `spillSeq` its place on the spill list
(R45). `acq` holds the order number of its last acquire load that has returned, with the lanes, addresses and values (lane 1024
stands for every lane, in a form that acts once), and `storeAt` stands above the order number of its last store or atomic (R49). -/
structure Frag where
  csn : Nat
  pc : Nat
  mask : Mask
  rpc : Nat
  rpcv : Bool
  rpcNext : Nat
  nextv : Bool
  link : Nat
  linkv : Bool
  hollow : Bool
  safe : Bool
  spilled : Bool
  entry : Nat
  spillSeq : Nat
  hold : Hold
  trapHeld : Bool
  acq : Option (Nat × List (Nat × Nat × Nat))
  storeAt : Nat
  spin : Bool
  yielded : Bool
  deriving DecidableEq, Repr

/-- A request to halt a team (R349): its cause word without NEST, and the report it carries. `stack` says that its cause was
raised on a stack core (R340, R405). `reached` is none until it reaches the team, and then whether the team was in handler mode. -/
structure HaltReq where
  code : Nat
  aux : Nat
  pc : Nat
  word : Word
  lane : Nat
  fault : Option Word
  hnd : Bool
  stack : Bool := false
  reached : Option Bool := none
  deriving DecidableEq, Repr

/-- A residency park of a team (R92, R367): the page and what its access needs. -/
structure Park where
  va : Nat
  wr : Bool
  deriving DecidableEq, Repr

/-- Where a team executes (R298, R299): `queued` waits for a slot of a stack, by arrival order. -/
inductive Lift | core | queued (stack order : Nat) | rising (stack n : Nat) | up (stack n : Nat) (order : Nat) | landing (stack n : Nat)
  deriving DecidableEq, Repr

/-- A copy-queue claim in progress (R211): the header's addresses, its order number, and the home's answer once it is given: none
for a full queue, else the claim index, the slot's address and its valid bit. -/
structure Claim where
  csn : Nat
  d : Nat
  q : Nat
  pa : Nat
  seq : Nat
  answer : Option (Option (Nat × Nat × Bool))
  pc : Nat
  word : Word
  lane : Nat
  hnd : Bool
  deriving DecidableEq, Repr

/-- A carousel cursor (R206). -/
structure Cursor where
  i : Nat
  b : Bool
  deriving DecidableEq, Repr

/-- A team (R13, R18, R37, R52, R149). -/
structure Team where
  L : Nat
  G : Nat
  copy : Bool
  prio : Nat
  s : AMap Word
  c : AMap (Cap × Bool)
  v : AMap Word
  vpoison : List (Nat × Nat)
  rpoison : List RegRef := []
  p : AMap Mask
  fpflags : Nat
  sigacc : Nat
  trapvec : Word
  trapcause : Word
  trappc : Word
  trapword : Word
  faultstat : Word
  bbase : Word
  cb : AMap Word
  memcnt : Nat
  setcnt : Nat
  arrcnt : Nat
  bankcnt : Nat
  cpycnt : Nat
  stb : List StReq
  pend : List Pend
  cmds : List BankCmd
  cursors : AMap Cursor
  handler : Bool
  halted : Bool
  finished : Bool
  haltReqs : List HaltReq
  park : List Park
  lift : Lift
  wd : Nat
  wdNow : Bool
  exited : Mask
  claim : Option Claim
  remote : Nat
  frags : List Frag
  deriving DecidableEq, Repr

/-- A tagged instruction of which no sample record has been written yet (R361): `seqs` are the order numbers of what it has started, `result`
says that it has one, and `level` is the furthest level that it has reached. -/
structure Tagged where
  core : Nat
  vi : Nat
  pc : Nat
  team : Nat
  word : Word
  mask : Nat
  trapped : Bool
  result : Bool
  seqs : List Nat
  level : Nat
  deriving DecidableEq, Repr

/-- The sampler of a partition or of a stack core (R361): windows finished, issues of the present window, and the instruction that it has
tagged. -/
structure Sampler where
  windows : Nat
  issued : Nat
  tag : Option Tagged
  deriving DecidableEq, Repr

/-- A partition of a core (R38, R50, R54, R355). -/
structure Part where
  csnNext : Nat
  last : Option (Nat × Nat)
  grants : List (Nat × Nat × Nat)
  spillNext : Nat
  stopped : Option Nat
  deriving DecidableEq, Repr

/-- A turnstile (R204, R372). -/
structure Turnstile where
  exp : Nat
  arr : Nat
  ph : Bool
  abandoned : Bool
  deriving DecidableEq, Repr

/-- A carousel after `cr.init` (R206). -/
structure Carousel where
  first : Nat
  n : Nat
  deriving DecidableEq, Repr

/-- The scratchpad of a block (R17, R94, R98, R99, R370): bytes that have been written since dispatch (the others read as the
free values of `seed`, log 6), tagged granules, poisoned 8-byte words, and the lines whose
presence bit is clear, each with the issue number of the copy that will set it. -/
structure Scratch where
  seed : Nat
  bytes : AMap Byte
  tags : List Nat
  poison : List Nat
  absent : AMap Nat
  deriving DecidableEq, Repr

/-- A tile descriptor: the record fields and CAP (R223, R226). -/
structure Tile where
  dw : List Word
  cap : Cap
  tag : Bool
  deriving DecidableEq, Repr

/-- One row of an operand as the engine has read it (R228, R238): its bytes, its side bytes (`.o4`), its scale bytes, and
the address of the first poisoned byte of it, and of its scales. -/
structure MRow where
  data : List Byte
  side : List Byte
  scales : List Byte
  bad : Option Nat
  badScale : Option Nat
  deriving DecidableEq, Repr

/-- An `m.mma` in an engine slot with its captured operands (R230 to R235). `rows` counts rows written; `bv` and `av` are the
rows of B and of A that this run from k = 0 has read (R238); `handed` says that a deferred arrival has told a team that they are read, so
that a resumption reads them no more (R237); `missing` lists the pages that it has requested (R232). -/
structure Mma where
  ty : MType
  acc : Nat
  a : Nat
  b : Nat
  ta : Tile
  tb : Tile
  qa : Option (Nat × List Word)
  qb : Option (Nat × List Word)
  mir : Nat
  seq : Nat
  mpc : Nat
  rows : Nat
  stopped : Bool
  bv : Option (List MRow)
  av : AMap MRow
  handed : Bool := false
  missing : List Nat
  deriving DecidableEq, Repr

/-- An accumulator transfer (R236): its next row, and the pages that it has requested and waits for. -/
structure Transfer where
  store : Bool
  acc : Nat
  reg : Nat
  tile : Tile
  ty : Nat
  row : Nat
  seq : Nat
  posted : List Nat
  deriving DecidableEq, Repr

/-- A record load in flight (R240): its destination code (R150), its bytes' offset, and its order number. -/
structure RecLoad where
  cap : Bool
  code : Nat
  off : Nat
  seq : Nat
  deriving DecidableEq, Repr

/-- The matrix sequencer of a block (R223). `arrives` holds the turnstile and the order number of each deferred arrival
(R237); `fetchWait` the page of a stream word that is not resident. -/
structure Seq where
  mpc : Nat
  d : AMap Tile
  q : AMap (List Word)
  ms : AMap Word
  acc : AMap (BitVec 32)
  accPoison : List Nat
  mir : Nat
  ph : AMap Bool
  cursors : AMap Cursor
  running : Option Mma
  accepted : Option Mma
  rowprog : Word
  loads : List RecLoad
  xfers : List Transfer
  arrives : List (Nat × Nat)
  hold : Hold
  fetchWait : Option Nat
  ended : Bool
  faulted : Bool
  stop : Bool
  deriving DecidableEq, Repr

/-- A subarray's queue (R280). -/
abbrev SubQ := List ArrOp

/-- The block resident on a core (R15, R18). -/
structure Block where
  index : Nat
  name : Nat
  vi : Nat
  asid : Nat
  slot : Nat
  priv : Bool
  launch : Nat
  packet : List Word
  lanes : Nat
  splines : Nat
  teams : AMap Team
  parts : AMap Part
  ts : AMap Turnstile
  cr : AMap Carousel
  sp : Scratch
  subs : AMap SubQ
  seq : Option Seq
  fused : Bool
  since : Nat
  heldClocks : Nat
  request : Option Nat
  testReq : Bool
  overdue : Bool
  gang : Nat
  deriving DecidableEq, Repr

/-- A translation in a TLB (R88): level 0 to 2 of its leaf, page number, frame, W and D, with its tags. -/
structure TlbEntry where
  asid : Nat
  gen : Nat
  level : Nat
  page : Nat
  frame : Nat
  w : Bool
  d : Bool
  deriving DecidableEq, Repr

/-- A walk in flight (R368), for a team's access or fetch, or for the sequencer (team 64): the first word of the instruction
that waits, the capability register of its access, and what AUX names (R364). -/
structure Walk where
  asid : Nat
  va : Nat
  wr : Bool
  gen : Nat
  iseq : Nat
  team : Nat
  csn : Nat
  fetch : Bool
  word : Word
  cap : Nat
  aux : Nat
  deriving DecidableEq, Repr

/-- A core (R15). -/
structure Core where
  outOfService : Bool
  samplers : AMap Sampler
  l1 : AMap Nat
  tlb : List TlbEntry
  walks : List Walk
  path : List StReq
  fusedGang : Option Nat
  block : Option Block
  deriving DecidableEq, Repr

/-- A set at its home (R251, R255, R399). Members rise strictly. `asked` is a page of its backing area that its move has requested (R256). -/
structure SetObj where
  lo : Nat
  u : Nat
  rep : Nat
  pin : Bool
  live : Bool
  members : List Nat
  lastAlg : Nat
  lastOp : Nat
  cv : List Nat
  btouch : Nat
  hcyc : Nat
  area : Nat
  broken : Bool
  inStore : Bool
  asked : Option Nat := none
  asid : Nat
  hdrVa : Nat
  deriving DecidableEq, Repr

/-- A source handle of an algebra step: its header address, its home, and the register that names it (R262, R266). -/
structure SetSrc where
  va : Nat
  home : Nat
  cap : Nat
  deriving DecidableEq, Repr

/-- What the read of a foreign source found (R262): which source, why it fails the step if it does (code, reason, address),
and the source's members, representation and universe. -/
structure SetRead where
  ix : Nat
  fail : Option (Nat × Nat × Nat)
  members : List Nat
  rep : Nat
  lo : Nat
  u : Nat
  deriving DecidableEq, Repr

/-- A set operation on its way to its home or held there (R260 to R263): who asked, the header and its home, the sources
and those already read, and the pages for which a request has been posted. `place` is its place in the home's order, once it has begun or has
been held, and `held` the header of the set on which a page or the set store holds its next read or its step. -/
structure SetOp where
  seq : Nat
  core : Nat
  team : Nat
  vi : Nat
  asid : Nat
  home : Nat
  va : Nat
  cap : Nat
  srcs : List SetSrc
  reads : List SetRead
  posted : List Nat
  place : Option Nat := none
  held : Option Nat := none
  req : SetReq
  func : Nat
  deriving DecidableEq, Repr

/-- An in-field test of a cluster (R411 to R415): `run` is the clock at which it started. -/
structure Test where
  due : Nat
  requested : Option Nat
  run : Option Nat
  interfaces : List Nat
  deriving DecidableEq, Repr

/-- A 256-byte line of an L2 slice (R103): bit i of `held` says that its 32-byte sector i has been filled, bit i of `dirty` that
its byte i has been written and not yet written back. Memory itself is what the slice and HBM together hold. -/
structure L2Line where
  held : Nat
  dirty : Nat
  deriving DecidableEq, Repr

/-- A cluster: its walk-ahead TLB, the lines of its L2 slice by line number, those that have left it and that its write-back buffer holds until
their channel takes them (R103, R308), the sets homed in its slice with the bytes of its set store that a held step waits for (R256), its
host-memory copies and its test. -/
structure Cluster where
  wtlb : List TlbEntry
  l2 : AMap L2Line
  wb : AMap L2Line := []
  sets : AMap SetObj
  setq : List SetOp
  storeNeed : Nat := 0
  hostl2 : AMap Nat
  nextTest : Nat
  test : Option Test
  lastSlot : Option Nat
  deriving DecidableEq, Repr

/-- A bank unit (R294, R409). -/
structure BankUnit where
  f : BitVec 256
  hl : BitVec 256
  ba : AMap (BitVec 256)
  lc : Nat
  upc : Nat
  rowoff : Nat
  pf : Bool
  phl : Bool
  pba : List Nat
  deriving DecidableEq, Repr

/-- A run in a channel (R305 to R308): `row` is the current row offset, or the next one between rows; `active` that it
holds its rows, `rowEnd` that it has executed row-end, `last` that it will end there, `atPoint` that it stands at an
arbitration point, `free` that it goes on at free-run pace, `wrote` that it has written a column of the row it holds. -/
structure Run where
  cmd : BankCmd
  row : Nat
  active : Bool
  rowEnd : Bool
  last : Bool
  ended : Bool
  atPoint : Bool
  suspended : Bool
  free : Bool
  wrote : Bool
  deriving DecidableEq, Repr

/-- Column commands that a `b.step` has delivered to a run and that are not yet used (R315). -/
structure StepCmd where
  seq : Nat
  core : Nat
  team : Nat
  run : Nat
  left : Nat
  deriving DecidableEq, Repr

/-- A `b.fence` at its controller, with the rows, by run and offset, whose writes it waits for (R316). -/
structure BankFence where
  seq : Nat
  core : Nat
  team : Nat
  rows : List (Nat × Nat)
  deriving DecidableEq, Repr

/-- A channel controller with its sixteen bank units (R300, R305, R308). `order` lists the column commands of the ordinary accesses that wait at
it, in their order of arrival, by agent (a core, 512 + a slice, or 640 + a slice for its write-backs), number of the access and sector;
the first `due` of them arrived before the open window. `access` holds the agents and sectors of those that it has read and that have not yet
reached their home slices. -/
structure Channel where
  activeBank : AMap Word
  shadow : AMap Word
  queue : List BankCmd
  steps : List StepCmd
  fences : List BankFence
  runs : List Run
  units : AMap BankUnit
  order : List (Nat × Nat × Nat) := []
  due : Nat := 0
  access : List (Nat × Nat)
  window : Bool
  served : Nat
  refresh : Bool
  deriving DecidableEq, Repr

/-- A stack core (R296, R410). -/
structure StackCore where
  outOfService : Bool
  tlb : List TlbEntry
  last : Option (Nat × Nat × Nat)
  sampler : Sampler
  deriving DecidableEq, Repr

/-- One movement of a packet: `n` bytes to a destination from a source, or zeros; `swz` is the swizzle of its row (R215, R216). -/
structure Move where
  src : Option Nat
  dst : Nat
  n : Nat
  swz : Nat
  deriving DecidableEq, Repr

/-- A destination line that an engine has read and not yet landed: its number, and each byte's offset in the line, its value
and whether its source is poisoned (R217, R371). -/
structure LineData where
  line : Nat
  bytes : List (Nat × Byte × Bool)
  deriving DecidableEq, Repr

/-- A started packet (R118, R212): `expanded` once its kind's own step has taken place, `moves` what it has still to read,
`got` the lines that it has read and not yet landed, `issueNo` its place in issue order (R99), `poisoned` the
address of poisoned source data that it has read (R371), `sent` says that a part of it has gone to a peer which has not answered (R383), `since` the clock from which the fabric timeout counts (R353), `wait` the page that it has requested. -/
structure Started where
  pkt : List Word
  claim : Nat
  expanded : Bool
  moves : List Move
  got : List LineData
  clips : Nat
  issueNo : Nat
  effect : Bool
  poisoned : Option Nat
  sent : Bool := false
  acked : Bool
  since : Nat
  wait : Option Nat
  deriving DecidableEq, Repr

/-- A launch at the head of its queue or in progress (R26 to R28, R376): `next` is its next block, `live` counts those dispatched and not
retired, `lastAt` is the clock of its last dispatch, `endAt` that on which its last block retired, `seen` the stores to code that a completion
word has ordered before it (R33, R133). -/
structure Launch where
  id : Nat
  pkt : List Word
  claim : Nat
  ready : Bool
  wait : Option Nat
  next : Nat
  live : Nat
  lastAt : Option Nat
  endAt : Option Nat := none
  seen : List Nat := []
  fail : Option (Nat × Nat)
  deriving DecidableEq, Repr

/-- A packet that a team has appended and that has not completed (R52, R211, R218): its queue by address space and header
address, its claim index, the core name of the team's block, its interface and the team, whether DREM is set (R351) and
whether it is a launch (R19). -/
structure App where
  asid : Nat
  hdr : Nat
  w : Nat
  name : Nat
  vi : Nat
  team : Nat
  drem : Bool
  launch : Bool
  deriving DecidableEq, Repr

/-- A queue registration slot (R30, R208, R327, R375). -/
structure QueueSlot where
  registered : Bool
  hdr : Nat
  asid : Nat
  priv : Bool
  logslots : Nat
  ph : Bool
  prio : Nat
  slotbase : Nat
  quantum : Nat
  quantumHeld : Option Nat
  d : Int
  hdrPa : Nat
  engine : Nat
  ridx : Nat
  wait : Option Nat
  head : Option (List Word)
  started : Option Started
  launches : List Launch
  stopped : Bool
  closing : Bool
  deriving DecidableEq, Repr

/-- A fault-ring entry not yet written (R378, R380), with what follows its writing; `held` when it has found no room. -/
structure FaultEntry where
  dws : List Word
  stamp : Nat
  source : Nat
  core : Option Nat
  app : Option (Nat × Nat × Nat)
  part : Option Nat
  held : Bool
  deriving DecidableEq, Repr

/-- A control-page write held by R327 or R330. -/
structure HeldWrite where
  off : Nat
  val : Word
  sel : Nat
  busy : Bool
  deriving DecidableEq, Repr

/-- A virtual interface (R326). `resync` is the record of a `RESYNC`, once its snapshot is taken, and the address of its buffer (R330). -/
structure Iface where
  victl : Word
  drainshare : Word
  assel : Nat
  window : Word
  apsel : Word
  qsel : Nat
  qhdr : AMap Word
  frbase : Word
  frwidx : Nat
  frridx : Nat
  prbase : Word
  prwidx : Nat
  prridx : Nat
  savebase : Word
  fabsp : Word
  rsseq : Nat
  saveslots : Nat
  resync : Option (Option (List Word) × Nat)
  held : List HeldWrite
  faults : List FaultEntry
  pages : List (Word × Word)
  stops : Nat
  frames : Nat
  dropped : Nat
  lost : Nat
  outagesTold : Nat
  deriving DecidableEq, Repr

/-- An address space (R83, R295, R368). -/
structure Space where
  root : Word
  gen : Nat
  iseq : Nat
  windows : AMap (Nat × Nat)
  deriving DecidableEq, Repr

/-- A saved block with the stores of its teams that have left their buffers and are not yet acknowledged (R60, R329). -/
structure Saved where
  vi : Nat
  slotIx : Nat
  block : Block
  core : Nat
  path : List StReq
  deriving DecidableEq, Repr

/-- Device and host memory (R86, R94, R370): host memory is the addresses at and above 2^47. -/
structure Memory where
  cells : List Host.Cell
  tags : List Nat
  poison : List Nat
  deriving DecidableEq, Repr

/-- A packet received from a fabric peer and not yet finished (R331, R370, R383): its data bytes, the offsets of those that come from poisoned units, its place in
issue order, the local space and the engine that serve it, what it has still to write, the page that it waits for, and the clock of the last status sent to its sender. -/
structure Inbound where
  sender : Nat
  vi : Nat
  asid : Nat
  engine : Nat
  pkt : List Word
  bytes : List Byte
  poison : List Nat
  issueNo : Nat
  moves : List Move
  effect : Bool
  wait : Option Nat
  answered : Option Nat
  deriving DecidableEq, Repr

/-- A trace record not yet in a frame (R360). -/
structure TraceRec where
  vi : Nat
  source : Nat
  stamp : Nat
  kind : Nat
  payload : List Word
  deriving DecidableEq, Repr

/-- What a host read through the aperture gave (R324, R371). -/
inductive HostRead | none | data (w : Word) | error
  deriving DecidableEq, Repr

/-- Who is executing: a fragment or a sequencer with the word it issues (R340 TRAPWORD). -/
inductive Actor
  | none
  | frag (core team csn : Nat) (word : Word)
  | seq (core : Nat) (word : Word)
  deriving DecidableEq, Repr

/-- Which agent moves next (assumption log 1). [log 1: DESIGN CHOICE] -/
inductive Turn
  | fragment (core team csn : Nat)
  | partition (core part : Nat)
  | sequencer (core : Nat)
  | stackCore (sc : Nat)
  | tick
  | event (i : Instr)
  deriving DecidableEq, Repr

/-- A performed store of a team, as code (R133): its number, its launch, the bytes that it wrote over, by address, and the completion words that
have ordered it before the launches which wait on them (R33). -/
structure CodeStore where
  id : Nat
  launch : Nat
  old : AMap Byte
  words : List Nat
  deriving DecidableEq, Repr

/-- Power and boot (R333): the images are verified by POWER_ON. -/
inductive Power | off | on | booted
  deriving DecidableEq, Repr

/-- The whole device. `codeOld` holds, for each launch that is in progress, the bytes that have been written over since it started, as
they stood: its fetches still see them (R133). `codeNew` lists the stores of teams since, oldest first. `agenda`, `acting`, `seqNo` and `freeIx` are the model's own (log 1, 9). -/
structure State where
  clock : Nat
  power : Power
  image : Image
  mem : Memory
  linkUp : Bool
  outages : Nat
  ports : List Nat
  inbound : List Inbound
  domain : Bool
  stampOffset : Word
  trace : List TraceRec
  hostRead : HostRead
  cores : AMap Core
  clusters : AMap Cluster
  channels : AMap Channel
  stackCores : AMap StackCore
  slots : AMap QueueSlot
  apps : List App
  ifaces : AMap Iface
  spaces : AMap Space
  saved : List Saved
  codeOld : AMap (AMap Byte)
  codeNew : List CodeStore
  rmLast : Option Nat
  rmHeld : Option Nat
  rmWant : Bool
  rmAt : Option Nat
  launchNo : Nat
  agenda : List Turn
  acting : Actor
  seqNo : Nat
  freeIx : Nat
  deriving DecidableEq, Repr

/-- Why a step stops with a fault. -/
inductive Fault
  /-- A meaning of a team word was run while no fragment is acting: raised by every team instruction. Safe: the machine
  never issues a word without a fragment. -/
  | noFragment
  /-- A meaning of a stream word was run while no sequencer is acting: raised by every matrix-stream instruction. Safe. -/
  | noSequencer
  /-- An access to a physical address that the device does not have (R86): raised by a unit that is given such an address
  by the driver, as a ring or save area. Safe. -/
  | noSuchAddress
  deriving DecidableEq, Repr

/-- Why a step is refused. -/
inductive Refusal
  /-- An instruction without a meaning in this model: raised by its arm of `exec`. Safe. -/
  | notModelled (mnemonic : String)
  deriving DecidableEq, Repr

/-! ### Reset -/

def Turnstile.init : Turnstile := { exp := 0, arr := 0, ph := false, abandoned := false }
def Cursor.init : Cursor := { i := 0, b := false }
def Tile.init : Tile := { dw := [0, 0, 0, 0, 0, 0, 0, 0], cap := 0, tag := false }
def Scratch.init : Scratch := { seed := 0, bytes := [], tags := [], poison := [], absent := [] }
def Part.init : Part :=
  { csnNext := 0, last := none, grants := [], spillNext := 0, stopped := none }
def Sampler.init : Sampler := { windows := 0, issued := 0, tag := none }
def Core.init : Core :=
  { outOfService := false, samplers := [], l1 := [], tlb := [], walks := [], path := [], fusedGang := none, block := none }
def Cluster.init : Cluster := { wtlb := [], l2 := [], sets := [], setq := [], hostl2 := [], nextTest := 0, test := none, lastSlot := none }
def BankUnit.init : BankUnit :=
  { f := 0, hl := 0, ba := [], lc := 0, upc := 0, rowoff := 0, pf := false, phl := false, pba := [] }
def Channel.init : Channel :=
  { activeBank := [], shadow := [], queue := [], steps := [], fences := [], runs := [], units := [], access := [], window := false, served := 0,
    refresh := false }
def StackCore.init : StackCore := { outOfService := false, tlb := [], last := none, sampler := Sampler.init }
def QueueSlot.init : QueueSlot :=
  { registered := false, hdr := 0, asid := 0, priv := false, logslots := 0, ph := false, prio := 0, slotbase := 0,
    quantum := 0, quantumHeld := none, d := 0, hdrPa := 0, engine := 0, ridx := 0, wait := none, head := none, started := none, launches := [],
    stopped := false, closing := false }
def Iface.init : Iface :=
  { victl := 0, drainshare := 0, assel := 0, window := 0, apsel := 0, qsel := 0, qhdr := [], frbase := 0,
    frwidx := 0, frridx := 0, prbase := 0, prwidx := 0, prridx := 0, savebase := 0, fabsp := 0, rsseq := 0,
    saveslots := 0, resync := none, held := [], faults := [], pages := [], stops := 0, frames := 0, dropped := 0,
    lost := 0, outagesTold := 0 }
def Space.init : Space := { root := 0, gen := 0, iseq := 0, windows := [] }
def Memory.init : Memory := { cells := [], tags := [], poison := [] }

/-- The configuration image before boot (log 7). [log 7: DESIGN CHOICE] -/
def imageNone : Image := { devnum := 0, domain := [], interfaces := 0, tracing := 0, tbits := [], kbits := [], ti := 68719476736 }

/-- The device right after it leaves reset: powered, its images not yet verified, every unit idle (R333, log 5 to 7). [log 5: DESIGN CHOICE] [log 7: DESIGN CHOICE] -/
def State.reset : State :=
  { clock := 0, power := .on, image := imageNone, mem := Memory.init, linkUp := true, outages := 0, ports := [], inbound := [],
    domain := false, stampOffset := 0, trace := [], hostRead := .none, cores := [], clusters := [], channels := [],
    stackCores := [], slots := [], apps := [], ifaces := [], spaces := [], saved := [], codeOld := [], codeNew := [], rmLast := none, rmHeld := none, rmWant := false,
    rmAt := none,
    launchNo := 0, agenda := [], acting := .none, seqNo := 0, freeIx := 0 }

end Sys2Proof.Machine
end

