-- ==== Sys2Proof/Machine/Ops.lean ====
section
/-!
DEFINITION. Sys2Proof/Machine/Ops.lean: the named operations over the state: units and registers, memory with its tags and
poison (R94, R370), translation (R84 to R90, R366), turnstile arrivals (R204, R372), reports (R360, R378), fusion of
fragments (R39 to R47), taking a trap and returning from one (R169, R343 to R349), and the issue of one instruction by
one fragment (R35, R48 to R52, R140, R172, R338 to R342), which every team meaning goes through.
-/

namespace Sys2Proof.Machine

/-- The result type of every meaning. -/
abbrev Res := Host.Outcome State Fault Refusal

/-! ### Units -/

def State.core (s : State) (k : Nat) : Core := AMap.get Core.init s.cores k
def State.setCore (s : State) (k : Nat) (c : Core) : State := { s with cores := AMap.set Core.init s.cores k c }
def State.modCore (s : State) (k : Nat) (f : Core → Core) : State := s.setCore k (f (s.core k))
def State.cluster (s : State) (k : Nat) : Cluster := AMap.get Cluster.init s.clusters k
def State.modCluster (s : State) (k : Nat) (f : Cluster → Cluster) : State :=
  { s with clusters := AMap.set Cluster.init s.clusters k (f (s.cluster k)) }
def State.channel (s : State) (k : Nat) : Channel := AMap.get Channel.init s.channels k
def State.modChannel (s : State) (k : Nat) (f : Channel → Channel) : State :=
  { s with channels := AMap.set Channel.init s.channels k (f (s.channel k)) }
def State.stackCore (s : State) (k : Nat) : StackCore := AMap.get StackCore.init s.stackCores k
def State.modStackCore (s : State) (k : Nat) (f : StackCore → StackCore) : State :=
  { s with stackCores := AMap.set StackCore.init s.stackCores k (f (s.stackCore k)) }
def State.slot (s : State) (k : Nat) : QueueSlot := AMap.get QueueSlot.init s.slots k
def State.modSlot (s : State) (k : Nat) (f : QueueSlot → QueueSlot) : State :=
  { s with slots := AMap.set QueueSlot.init s.slots k (f (s.slot k)) }
def State.iface (s : State) (k : Nat) : Iface := AMap.get Iface.init s.ifaces k
def State.modIface (s : State) (k : Nat) (f : Iface → Iface) : State :=
  { s with ifaces := AMap.set Iface.init s.ifaces k (f (s.iface k)) }
def State.space (s : State) (k : Nat) : Space := AMap.get Space.init s.spaces k
def State.modSpace (s : State) (k : Nat) (f : Space → Space) : State :=
  { s with spaces := AMap.set Space.init s.spaces k (f (s.space k)) }

def State.block (s : State) (k : Nat) : Option Block := (s.core k).block
def State.modBlock (s : State) (k : Nat) (f : Block → Block) : State :=
  s.modCore k fun c => { c with block := c.block.map f }
def Block.modTeam (b : Block) (t : Nat) (f : Team → Team) : Block := { b with teams := AMap.modify b.teams t f }
def Block.part (b : Block) (p : Nat) : Part := AMap.get Part.init b.parts p
def Block.modPart (b : Block) (p : Nat) (f : Part → Part) : Block :=
  { b with parts := AMap.set Part.init b.parts p (f (b.part p)) }
def State.team (s : State) (k t : Nat) : Option Team := (s.block k).bind fun b => AMap.find? b.teams t
def State.modTeam (s : State) (k t : Nat) (f : Team → Team) : State := s.modBlock k fun b => b.modTeam t f
def Team.frag (tm : Team) (csn : Nat) : Option Frag := tm.frags.find? fun f => f.csn == csn
def Team.modFrag (tm : Team) (csn : Nat) (g : Frag → Frag) : Team :=
  { tm with frags := tm.frags.map fun f => if f.csn = csn then g f else f }
def State.modFrag (s : State) (k t csn : Nat) (g : Frag → Frag) : State := s.modTeam k t fun tm => tm.modFrag csn g
def Block.turnstile (b : Block) (t : Nat) : Turnstile := AMap.get Turnstile.init b.ts t
def Block.setTurnstile (b : Block) (t : Nat) (x : Turnstile) : Block := { b with ts := AMap.set Turnstile.init b.ts t x }

/-! ### Registers of a team (R138) -/

def Team.sreg (tm : Team) (r : Nat) : Word := AMap.get 0 tm.s r
/-- A register other than a vector register is written whole: it is no longer poisoned (R370). -/
def Team.heal (tm : Team) (r : RegRef) : Team := { tm with rpoison := tm.rpoison.filter fun q => q != r }
def Team.setS (tm : Team) (r : Nat) (x : Word) : Team := { tm with s := AMap.set 0 tm.s r x }.heal (.s r)
/-- A capability register with its tag. -/
def Team.creg (tm : Team) (r : Nat) : Cap × Bool := AMap.get (0, false) tm.c r
def Team.setC (tm : Team) (r : Nat) (x : Cap × Bool) : Team := { tm with c := AMap.set (0, false) tm.c r x }.heal (.c r)
/-- Lane l of vector register r. -/
def Team.vreg (tm : Team) (r l : Nat) : Word := AMap.get 0 tm.v (r * 1024 + l)
def Team.setV (tm : Team) (r l : Nat) (x : Word) : Team :=
  { tm with v := AMap.set 0 tm.v (r * 1024 + l) x, vpoison := tm.vpoison.filter fun q => !(q == (r, l)) }
/-- `p0` to `p7`; `p7` reads true and a write to it is discarded (R138). -/
def Team.preg (tm : Team) (r : Nat) : Mask := if r = 7 then fullMask 1024 else AMap.get 0 tm.p r
def Team.setP (tm : Team) (r : Nat) (x : Mask) : Team := if r = 7 then tm else { tm with p := AMap.set 0 tm.p r x }
def Team.cbEntry (tm : Team) (i : Nat) : Nat := (AMap.get 0 tm.cb i).toNat
/-- Write predicate r in the lanes of E only. -/
def Team.setPIn (tm : Team) (r : Nat) (E x : Mask) : Team :=
  let tm := tm.setP r ((tm.preg r &&& ~~~E) ||| (x &&& E))
  if E &&& fullMask tm.L == fullMask tm.L then tm.heal (.p r) else tm
/-- Write vector register r in the listed lanes. -/
def Team.setVs (tm : Team) (r : Nat) (xs : List (Nat × Word)) : Team := xs.foldl (fun t x => t.setV r x.1 x.2) tm

/-- The team is lifted onto a stack core (R298). -/
def Team.lifted (tm : Team) : Bool :=
  match tm.lift with
  | .up _ _ _ => true
  | .landing _ _ => true
  | _ => false
/-- The stack core that holds a lifted team, as 4 × stack + n. -/
def Team.stackCoreOf (tm : Team) : Option Nat :=
  match tm.lift with
  | .up st n _ => some (4 * st + n)
  | .landing st n => some (4 * st + n)
  | .rising st n => some (4 * st + n)
  | .core => none
  | .queued _ _ => none

/-! ### Memory -/

/-- A sorted list of numbers with x in it, or not. -/
def insSorted (x : Nat) : List Nat → List Nat
  | [] => [x]
  | y :: ys => if x < y then x :: y :: ys else if x = y then y :: ys else y :: insSorted x ys
def delSorted (x : Nat) (l : List Nat) : List Nat := l.filter fun y => y != x
/-- Strictly rising from a bound. -/
def risingFrom : Nat → List Nat → Bool
  | _, [] => true
  | lo, x :: xs => decide (lo ≤ x) && risingFrom (x + 1) xs

/-- What an unlisted byte of memory reads as (log 5). [log 5: DESIGN CHOICE] -/
def Memory.blank : Byte := 0#8
/-- The canonical form of memory: addresses strictly rising, no byte equal to what an unlisted address reads as, tags and
poison marks strictly rising. -/
def Memory.wf (m : Memory) : Bool := AMap.wf Memory.blank m.cells && risingFrom 0 m.tags && risingFrom 0 m.poison
/-- One byte. -/
def Memory.byte (m : Memory) (a : Nat) : Byte := AMap.get Memory.blank m.cells a
/-- Write one byte, keeping the canonical form; the granule's tag is cleared (R94). -/
def Memory.setByte (m : Memory) (a : Nat) (x : Byte) : Memory :=
  { m with cells := AMap.set Memory.blank m.cells a x, tags := delSorted (a / 16) m.tags }
/-- Set a granule's tag, or clear it. -/
def Memory.setTag (m : Memory) (g : Nat) (on : Bool) : Memory :=
  { m with tags := if on then insSorted g m.tags else delSorted g m.tags }
/-- Mark or clear poison of a 32-byte sector (R370). -/
def Memory.setPoison (m : Memory) (u : Nat) (on : Bool) : Memory :=
  { m with poison := if on then insSorted u m.poison else delSorted u m.poison }
/-- n bytes from a. -/
def Memory.bytes (m : Memory) (a n : Nat) : List Byte := (upto a n).map m.byte
/-- Write bytes from a. -/
def Memory.setBytes : Memory → Nat → List Byte → Memory
  | m, _, [] => m
  | m, a, x :: xs => Memory.setBytes (m.setByte a x) (a + 1) xs
/-- Clear the poison of every unit wholly inside [a, a+n). [log 54: DEDUCED] -/
def coveredUnits (unit a n : Nat) : List Nat :=
  let lo := (a + unit - 1) / unit
  let hi := (a + n) / unit
  upto lo (hi - lo)
/-- A whole write: bytes, tags cleared, marks of wholly written sectors cleared (R94, R370). [log 54: DEDUCED] -/
def Memory.write (m : Memory) (a : Nat) (xs : List Byte) : Memory :=
  (coveredUnits 32 a xs.length).foldl (fun m u => m.setPoison u false) (m.setBytes a xs)
/-- A physical address that exists: HBM PA[46:40] zero, or host memory (R86). -/
def paOk (a : Nat) : Bool := decide (a < 2 ^ 40) || decide (2 ^ 47 ≤ a ∧ a < 2 ^ 48)
/-- Host memory across the Tylas link (R86). -/
def isHost (a : Nat) : Bool := decide (2 ^ 47 ≤ a)

/-- Write scratchpad bytes: tags of the granules are cleared (R94), marks of wholly written units too (R370). -/
def Scratch.write (p : Scratch) (off : Nat) (xs : List Byte) : Scratch :=
  let bytes := (xs.zip (upto off xs.length)).foldl (fun m x => AMap.put m x.2 x.1) p.bytes
  let gs := upto (off / 16) ((off + xs.length + 15) / 16 - off / 16)
  let poison := (coveredUnits 8 off xs.length).foldl (fun l u => delSorted u l) p.poison
  { p with bytes, tags := p.tags.filter (fun g => !gs.contains g), poison }
/-- A scratchpad byte: written since dispatch, or unspecified (R17, log 6). [log 6: DESIGN CHOICE] -/
def Scratch.byte (p : Scratch) (off : Nat) : Byte := (AMap.find? p.bytes off).getD (Config.scratchByte p.seed off)
def Scratch.read (p : Scratch) (off n : Nat) : List Byte := (upto off n).map p.byte

def Loc.add (l : Loc) (d : Nat) : Loc :=
  match l with
  | .pa a => .pa (a + d)
  | .sp k o => .sp k (o + d)
/-- The distance of `l` above `base` in the same space. -/
def Loc.off? (l base : Loc) : Option Nat :=
  match l, base with
  | .pa a, .pa b => if b ≤ a then some (a - b) else none
  | .sp k a, .sp j b => if k = j ∧ b ≤ a then some (a - b) else none
  | _, _ => none
/-- Do [a, a+n) and [b, b+m) share a byte? -/
def Loc.meets (a : Loc) (n : Nat) (b : Loc) (m : Nat) : Bool :=
  match a, b with
  | .pa x, .pa y => decide (x < y + m ∧ y < x + n)
  | .sp k x, .sp j y => decide (k = j ∧ x < y + m ∧ y < x + n)
  | _, _ => false

/-! ### The L2 slices (R103) -/

/-- The home slice of an HBM address (R87). -/
def homeSlice (a : Nat) : Nat := 8 * bits a 36 4 + Nat.xor (bits a 8 3) (bits a 20 3)
/-- The channel of an HBM address, as 32 × stack + channel (R87). -/
def channelOf (a : Nat) : Nat := 32 * bits a 36 4 + bits a 10 5

/-- Bits [lo, lo+n) of a mask. -/
def maskBits (lo n : Nat) : Nat := (2 ^ n - 1) * 2 ^ lo
/-- The lines of a slice that hold host-memory sectors (R104). -/
def Cluster.hostLines (c : Cluster) : List Nat := c.hostl2.foldl (fun l x => insSorted (x.1 / 8) l) []
/-- The bytes of sector i of a line that have not been written back, as a mask of 32 bits. -/
def L2Line.dirtyAt (x : L2Line) (i : Nat) : Nat := bits x.dirty (32 * i) 32
/-- Sector i of a line has been written back. -/
def L2Line.cleanAt (x : L2Line) (i : Nat) : L2Line := { x with dirty := x.dirty - x.dirtyAt i * 2 ^ (32 * i) }
/-- The agent that makes the write-backs of a slice at the channels' controllers (R308). -/
def wbAgent (slice : Nat) : Nat := Config.cores + Config.clusters + slice
/-- A sector cannot be written back at once: its channel has claimed units, so that the write-back waits as an ordinary access (R308), or it is
poisoned, and `POISON_WRITEBACK` writes it back (R371). -/
def State.wbWaits (s : State) (u : Nat) : Bool := !(s.channel (channelOf (32 * u))).runs.isEmpty || s.mem.poison.contains u
/-- The column command of a write-back reaches its channel's controller, when that has claimed units (R308). [log 34: DESIGN CHOICE] -/
def State.askWb (s : State) (slice u : Nat) : State :=
  let ch := channelOf (32 * u)
  if (s.channel ch).runs.isEmpty || (s.channel ch).order.any (fun x => x.1 == wbAgent slice && x.2.2 == u) then s
  else ({ s with seqNo := s.seqNo + 1 } : State).modChannel ch fun c => { c with order := c.order ++ [(wbAgent slice, s.seqNo, u)] }
/-- A line leaves its slice: what can be written back is, and the rest waits in the slice's write-back buffer (R103, R308, R371). [log 34: DESIGN CHOICE] -/
def State.l2Evict (s : State) (home line : Nat) : State :=
  match AMap.find? (s.cluster home).l2 line with
  | none => s
  | some x =>
    let late := (upto 0 8).filter fun i => x.dirtyAt i != 0 && s.wbWaits (8 * line + i)
    let rest := late.foldl (fun d i => d + x.dirtyAt i * 2 ^ (32 * i)) 0
    let s := s.modCluster home fun c =>
      { c with l2 := AMap.erase c.l2 line, wb := if rest = 0 then c.wb else AMap.put c.wb line { held := 0, dirty := rest } }
    late.foldl (fun s i => s.askWb home (8 * line + i)) s
/-- A slice of 4 MiB makes room for a line that it does not hold: one of its lines, or one of host memory, leaves it (R2, R103, R104, log 11).
[log 11: DESIGN CHOICE] -/
def State.l2Room (s : State) (home : Nat) : State :=
  let c := s.cluster home
  let hs := c.hostLines
  if c.l2.length + hs.length < Config.l2Lines then s
  else
    let i := Config.freeNat s.freeIx % (c.l2.length + hs.length)
    let s : State := { s with freeIx := s.freeIx + 1 }
    match c.l2[i]? with
    | some x => s.l2Evict home x.1
    | none => s.modCluster home fun c => { c with hostl2 := c.hostl2.filter fun x => x.1 / 8 != nth 0 hs (i - c.l2.length) }
/-- Change a line of its home slice; one that stands in the write-back buffer comes back with its bytes. -/
def State.l2Mod (s : State) (line : Nat) (f : L2Line → L2Line) : State :=
  let home := homeSlice (256 * line)
  let s := if (AMap.find? (s.cluster home).l2 line).isSome then s else s.l2Room home
  s.modCluster home fun c =>
    let back := (AMap.find? c.wb line).elim 0 L2Line.dirty
    let x : L2Line := AMap.get { held := 0, dirty := 0 } c.l2 line
    { c with l2 := AMap.put c.l2 line (f { x with dirty := Nat.lor x.dirty back }), wb := AMap.erase c.wb line }
/-- The 256-byte lines of [pa, pa+n). -/
def linesOf (pa n : Nat) : List Nat := upto (pa / 256) ((pa + n + 255) / 256 - pa / 256)
/-- The part of line `line` that [pa, pa+n) covers, as a first byte and a length. -/
def linePart (line pa n : Nat) : Nat × Nat := (max pa (256 * line) - 256 * line, min (pa + n) (256 * line + 256) - max pa (256 * line))
/-- A write reaches its home slice: the bytes are taken under their mask, without a fill (R103). -/
def State.l2Write (s : State) (pa n : Nat) : State :=
  if isHost pa then s
  else (linesOf pa n).foldl (fun s u => s.l2Mod u fun x =>
    let p := linePart u pa n
    { x with dirty := Nat.lor x.dirty (maskBits p.1 p.2) }) s
/-- The home slice holds the sector of an HBM address (R103). -/
def State.l2Holds (s : State) (pa : Nat) : Bool :=
  (AMap.find? (s.cluster (homeSlice pa)).l2 (pa / 256)).any fun x => bit x.held (pa / 32 % 8)
/-- The sectors of [pa, pa+n). -/
def sectorsOf (pa n : Nat) : List Nat := upto (pa / 32) ((pa + n + 31) / 32 - pa / 32)
/-- A sector that its channel has read for an access goes to its home slice. -/
def State.unserve (s : State) (u : Nat) : State :=
  if (s.channel (channelOf (32 * u))).access.any fun x => x.2 == u then
    s.modChannel (channelOf (32 * u)) fun c => { c with access := c.access.filter fun x => x.2 != u }
  else s
/-- The home slice fills the sectors of [pa, pa+n) from HBM where it does not hold them (R103). -/
def State.l2Fill (s : State) (pa n : Nat) : State :=
  if isHost pa then s
  else (sectorsOf pa n).foldl (fun s u =>
    if s.l2Holds (32 * u) then s
    else (s.unserve u).l2Mod (u / 8) fun x => { x with held := Nat.lor x.held (2 ^ (u % 8)) }) s
/-- A sector can be read now: no column command is needed for it, its channel has no claimed unit, or the controller has read it in a window
(R308). -/
def State.sectorFree (s : State) (u : Nat) : Bool :=
  isHost (32 * u) || s.l2Holds (32 * u)
    || (s.channel (channelOf (32 * u))).runs.isEmpty || (s.channel (channelOf (32 * u))).access.any fun x => x.2 == u
/-- Every sector of [pa, pa+n) can be read now (R308). -/
def State.mayFill (s : State) (pa n : Nat) : Bool := (sectorsOf pa n).all s.sectorFree
/-- An access of an agent reaches the controllers of the sectors that it has to wait for: one column command for each, those of one home slice
together and in ascending order, all under one number (R308, R322, R323). An agent is a core, 512 + a slice, or the write-backs of a
slice. [log 34: DESIGN CHOICE] -/
def State.askAll (s : State) (agent : Nat) (us : List Nat) : State :=
  let new := us.filter fun u => !(s.sectorFree u || (s.channel (channelOf (32 * u))).order.any fun x => x.1 == agent && x.2.2 == u)
  if new.isEmpty then s
  else (new.foldl (fun l u => insertBy (fun v => homeSlice (32 * v)) u l) []).foldl (fun s' u =>
    s'.modChannel (channelOf (32 * u)) fun c => { c with order := c.order ++ [(agent, s.seqNo, u)] }) { s with seqNo := s.seqNo + 1 }
/-- The access of an agent to [pa, pa+n) reaches the controllers. -/
def State.ask (s : State) (agent pa n : Nat) : State := s.askAll agent (sectorsOf pa n)
/-- The sector of an HBM address has bytes that are not yet in HBM (R103, R307, R371). -/
def State.l2Dirty (s : State) (pa : Nat) : Bool :=
  let c := s.cluster (homeSlice pa)
  let in_ := fun (m : AMap L2Line) => (AMap.find? m (pa / 256)).any fun x => x.dirtyAt (pa / 32 % 8) != 0
  in_ c.l2 || in_ c.wb
/-- A sector is written back from its slice or from the slice's write-back buffer: its bytes stand in HBM (R103). -/
def State.l2Clean (s : State) (pa : Nat) : State :=
  let line := pa / 256
  s.modCluster (homeSlice pa) fun c =>
    let c := match AMap.find? c.l2 line with
      | some x => { c with l2 := AMap.put c.l2 line (x.cleanAt (pa / 32 % 8)) }
      | none => c
    match AMap.find? c.wb line with
    | some x =>
      let y := x.cleanAt (pa / 32 % 8)
      { c with wb := if y.dirty = 0 then AMap.erase c.wb line else AMap.put c.wb line y }
    | none => c

/-! ### Code (R133) -/

/-- The launches of which a block has been dispatched and that have not completed. -/
def State.liveLaunches (s : State) : List Nat :=
  let blocks := (s.cores.filterMap fun x => x.2.block.map Block.launch) ++ s.saved.map fun x => x.block.launch
  let queued := s.slots.flatMap fun x => (x.2.launches.filter fun l => decide (0 < l.next)).map Launch.id
  (blocks ++ queued).foldl (fun l x => insSorted x l) []
/-- Bytes are about to change: every launch in progress keeps what stood there for its fetches (R133). [log 10: DESIGN CHOICE] -/
def State.noteCode (s : State) (pa : Nat) (xs : List Byte) : State :=
  let changed := (xs.zip (upto pa xs.length)).filter fun x => x.1 != s.mem.byte x.2
  let keep : AMap Byte → AMap Byte := fun m => changed.foldl (fun m x =>
    if (AMap.find? m x.2).isSome then m else AMap.put m x.2 (s.mem.byte x.2)) m
  { s with codeOld := s.liveLaunches.foldl (fun m i => AMap.set [] m i (keep (AMap.get [] m i))) s.codeOld }
/-- The stores of teams before a launch that no completion word has ordered before it: the bytes that it fetches instead (R133). The oldest of
the latest stores that it does not see tells. [log 10: DESIGN CHOICE] -/
def State.unseenCode (s : State) (seen : List Nat) : AMap Byte :=
  s.codeNew.foldl (fun m e =>
    if seen.contains e.id then e.old.foldl (fun m x => AMap.erase m x.1) m
    else e.old.foldl (fun m x => if (AMap.find? m x.1).isSome then m else AMap.put m x.1 x.2) m) []
/-- A store of a team of a launch is about to be performed: a launch that no completion word orders after it fetches what stood there (R133). -/
def State.noteStore (s : State) (launch pa : Nat) (xs : List Byte) : State :=
  let old : AMap Byte := ((xs.zip (upto pa xs.length)).filter fun x => x.1 != s.mem.byte x.2).map fun x => (x.2, s.mem.byte x.2)
  if old.isEmpty then s
  else { s with codeNew := s.codeNew ++ [{ id := s.seqNo, launch, old, words := [] }], seqNo := s.seqNo + 1 }
/-- Bytes are written by an agent that is no team: what teams stored there before is gone (R133). -/
def State.forgetCode (s : State) (pa n : Nat) : State :=
  if s.codeNew.isEmpty then s
  else { s with codeNew := (s.codeNew.map fun e => { e with old := e.old.filter fun x => !decide (pa ≤ x.1 ∧ x.1 < pa + n) }).filter fun e =>
    !e.old.isEmpty }
/-- A completion word rises after a release that covers the stores of a launch and what it has seen: the launches that wait on the word are
ordered after them (R28, R33, R133). -/
def State.publish (s : State) (launch : Nat) (seen : List Nat) (word : Nat) : State :=
  { s with codeNew := s.codeNew.map fun e =>
      if e.launch = launch ∨ seen.contains e.id = true then { e with words := insSorted word e.words } else e }
/-- The stores that a completion word orders before the launches that wait on it. -/
def State.seenAt (s : State) (word : Nat) : List Nat := (s.codeNew.filter fun e => e.words.contains word).map CodeStore.id
/-- A byte as a launch fetches it (R133). -/
def State.codeByte (s : State) (launch pa : Nat) (x : Byte) : Byte := (AMap.find? (AMap.get [] s.codeOld launch) pa).getD x

/-! ### Bytes where they stand -/

/-- Read bytes where they stand: memory or scratchpad. -/
def State.readLoc (s : State) (l : Loc) (n : Nat) : List Byte :=
  match l with
  | .pa a => s.mem.bytes a n
  | .sp k o => match s.block k with
    | some b => b.sp.read o n
    | none => (upto 0 n).map fun _ => 0

/-- A write to this place is dropped: host memory while the link is down (R382). -/
def State.drops (s : State) (l : Loc) : Bool :=
  match l with
  | .pa a => isHost a && !s.linkUp
  | .sp _ _ => false
/-- Bytes reach memory; a running launch goes on fetching what stood there (R133). -/
def State.putBytes (s : State) (a : Nat) (xs : List Byte) : State :=
  let s := s.noteCode a xs
  { s with mem := s.mem.write a xs }
/-- Write bytes where they stand; writes to host memory while the link is down are dropped (R382). A running launch goes on
fetching what stood there (R133), and the home slice of device memory notes the bytes in its line (R103). -/
def State.writeLoc (s : State) (l : Loc) (xs : List Byte) : State :=
  match l with
  | .pa a =>
    if s.drops l then s
    else ((s.l2Write a xs.length).forgetCode a xs.length).putBytes a xs
  | .sp k o => s.modBlock k fun b => { b with sp := b.sp.write o xs }
/-- Write for an interface; a write to host memory while the link is down is dropped and counted (R382). -/
def State.writeFor (s : State) (vi : Nat) (l : Loc) (xs : List Byte) : State :=
  if s.drops l then s.modIface vi fun i => { i with lost := i.lost + 1 } else s.writeLoc l xs
/-- A store or an atomic of a team of a launch is performed (R133, R382). -/
def State.storeFor (s : State) (vi launch : Nat) (l : Loc) (xs : List Byte) : State :=
  match l with
  | .pa a =>
    if s.drops l then s.modIface vi fun i => { i with lost := i.lost + 1 }
    else ((s.noteStore launch a xs).l2Write a xs.length).putBytes a xs
  | .sp _ _ => s.writeLoc l xs
/-- Tag of the granule at a location. -/
def State.tagAt (s : State) (l : Loc) : Bool :=
  match l with
  | .pa a => s.mem.tags.contains (a / 16)
  | .sp k o => match s.block k with
    | some b => b.sp.tags.contains (o / 16)
    | none => false
def State.setTagAt (s : State) (l : Loc) (on : Bool) : State :=
  match l with
  | .pa a => { s with mem := s.mem.setTag (a / 16) on }
  | .sp k o => s.modBlock k fun b =>
      { b with sp := { b.sp with tags := if on then insSorted (o / 16) b.sp.tags else delSorted (o / 16) b.sp.tags } }
/-- Is some unit of [l, l+n) poisoned (R370)? Host memory reads as poisoned while the link is down (R382). -/
def State.poisonedAt (s : State) (l : Loc) (n : Nat) : Bool :=
  match l with
  | .pa a => (isHost a && !s.linkUp) || s.mem.poison.any fun u => decide (32 * u < a + n ∧ a < 32 * u + 32)
  | .sp k o => match s.block k with
    | some b => b.sp.poison.any fun u => decide (8 * u < o + n ∧ o < 8 * u + 8)
    | none => false
/-- Mark every unit that [l, l+n) meets as poisoned. -/
def State.poisonAt (s : State) (l : Loc) (n : Nat) : State :=
  match l with
  | .pa a =>
    { s with mem := (upto (a / 32) ((a + n + 31) / 32 - a / 32)).foldl (fun m u => m.setPoison u true) s.mem }
  | .sp k o => s.modBlock k fun b =>
      { b with sp := { b.sp with poison :=
          (upto (o / 8) ((o + n + 7) / 8 - o / 8)).foldl (fun l u => insSorted u l) b.sp.poison } }

/-- A doubleword of memory. -/
def State.dw (s : State) (a : Nat) : Nat := leNat (s.mem.bytes a 8)
/-- Write a doubleword to memory. -/
def State.setDw (s : State) (a x : Nat) : State := s.writeLoc (.pa a) (bytesOf 8 x)

/-! ### Translation -/

/-- How a walk of the tables ends (R85, R366); `bad` says whether it has read a poisoned entry (R371, R382). -/
inductive WalkOut
  | absent
  | bad (poison : Bool)
  | leaf (level frame : Nat) (w d : Bool) (path : List Nat)
  deriving DecidableEq, Repr

/-- Page bits of a leaf at a level (R84). -/
def pageBits (level : Nat) : Nat := match level with | 0 => 16 | 1 => 25 | _ => 34
/-- Index of an address at a level (R84). -/
def levelIx (level va : Nat) : Nat :=
  match level with
  | 0 => bits va 16 9
  | 1 => bits va 25 9
  | 2 => bits va 34 12
  | _ => bits va 46 11

/-- Walk from a table at a level down (R84, R85), meeting the conditions of R366. A poisoned entry, and one in host memory while the link is
down, ends the walk (R371, R382). [log 47: DESIGN CHOICE] -/
def walkFrom (s : State) (va : Nat) : Nat → Nat → List Nat → WalkOut
  | level, table, path =>
    let pa := table + 8 * levelIx level va
    let e := s.dw pa
    let frame := bits e 12 36 * 4096
    if s.poisonedAt (.pa pa) 8 then .bad true
    else if !bit e 0 then .absent
    else if bits e 5 3 ≠ 0 then .bad false
    else
      let leafHere := decide (level = 0) || (bit e 1 && decide (level < 3))
      if leafHere then
        if frame % 2 ^ pageBits level ≠ 0 then .bad false
        else if !isHost frame && decide (2 ^ 40 ≤ frame) then .bad false
        else .leaf level frame (bit e 2) (bit e 4) (path ++ [pa])
      else match level with
        | 0 => .bad false
        | l + 1 =>
          if l = 2 ∧ (bit e 1 = true ∨ frame % 32768 ≠ 0) then .bad false
          else walkFrom s va l frame (path ++ [pa])

/-- Walk an address of an address space from its root (R84, R366). -/
def State.walk (s : State) (asid va : Nat) : WalkOut :=
  let root := (s.space asid).root.toNat
  if bit root 0 then walkFrom s va 3 (bits root 14 34 * 16384) [] else .bad false

/-- The entries that a walk from a table at a level reads (R84). -/
def walkEntries (s : State) (va : Nat) : Nat → Nat → List Nat
  | level, table =>
    let pa := table + 8 * levelIx level va
    let e := s.dw pa
    pa :: (if s.poisonedAt (.pa pa) 8 || !bit e 0 || bits e 5 3 != 0 || (bit e 1 && decide (level < 3)) then []
      else match level with
        | 0 => []
        | l + 1 => walkEntries s va l (bits e 12 36 * 4096))
/-- The entries that a walk of an address of a space reads. -/
def State.tables (s : State) (asid va : Nat) : List Nat :=
  let root := (s.space asid).root.toNat
  if bit root 0 then walkEntries s va 3 (bits root 14 34 * 16384) else []
/-- A walk can read its tables now (R308). -/
def State.mayWalk (s : State) (asid va : Nat) : Bool := (s.tables asid va).all fun a => s.mayFill a 8
/-- A walk waits for its tables. -/
def State.askWalk (s : State) (agent asid va : Nat) : State := (s.tables asid va).foldl (fun s a => s.ask agent a 8) s
/-- A walk has read its tables through their home slices (R103). -/
def State.fillWalk (s : State) (asid va : Nat) : State := (s.tables asid va).foldl (fun s a => s.l2Fill a 8) s

/-- The interface that owns an address space (R325). -/
def ifaceOf (asid : Nat) : Nat := asid / 16
/-- Set A in every entry of a walk of a space, and D in the leaf for a write to a writable page (R85); a write to host memory while the link is
down is dropped and counted (R382). [log 18: DEDUCED] -/
def State.setAD (s : State) (asid : Nat) (path : List Nat) (d : Bool) : State :=
  let orDw := fun (s : State) (a m : Nat) =>
    if s.dw a ||| m = s.dw a then s
    else if s.drops (.pa a) then s.modIface (ifaceOf asid) fun i => { i with lost := i.lost + 1 }
    else { s.l2Write a 8 with mem := s.mem.setBytes a (bytesOf 8 (s.dw a ||| m)) }
  let s := path.foldl (fun s a => orDw s a 8) s
  match path.getLast? with
  | some a => if d then orDw s a 16 else s
  | none => s

/-- An entry of a TLB matches when its tags are the space's current ones (R88). -/
def tlbHit (s : State) (tlb : List TlbEntry) (asid va : Nat) : Option TlbEntry :=
  tlb.find? fun e => e.asid == asid && e.gen == (s.space asid).gen && e.page == va / 2 ^ pageBits e.level

/-- The physical address that an entry gives. -/
def TlbEntry.pa (e : TlbEntry) (va : Nat) : Nat := e.frame + va % 2 ^ pageBits e.level

/-- Fill a TLB of n entries, newest first (log 11). [log 11: DESIGN CHOICE] -/
def tlbFill (n : Nat) (tlb : List TlbEntry) (e : TlbEntry) : List TlbEntry :=
  (e :: tlb.filter fun x => !(x.asid == e.asid && x.gen == e.gen && x.level == e.level && x.page == e.page)).take n
/-- The set of a core TLB that an entry belongs to (R88: 2,048 entries in 8 ways, so 256 sets; log 11). [log 11: DESIGN CHOICE] -/
def tlbSet (e : TlbEntry) : Nat := Config.tlbSet e.asid e.level e.page % 256
/-- Fill a core TLB: its set keeps 8 entries, the oldest of the set leaves (R88, log 11). [log 11: DESIGN CHOICE] -/
def tlbFillWays (tlb : List TlbEntry) (e : TlbEntry) : List TlbEntry :=
  let tlb := tlb.filter fun x => !(x.asid == e.asid && x.gen == e.gen && x.level == e.level && x.page == e.page)
  let kept := (tlb.filter fun x => tlbSet x == tlbSet e).take 7
  e :: tlb.filter fun x => tlbSet x != tlbSet e || kept.contains x

/-- The entry that a leaf gives. -/
def leafEntry (s : State) (asid va level frame : Nat) (w d : Bool) : TlbEntry :=
  { asid, gen := (s.space asid).gen, level, page := va / 2 ^ pageBits level, frame, w, d }

/-- What an engine's translation gives (R89, R214): a physical address, an absent page, malformed or poisoned tables, or a wait for the tables
(R308). -/
inductive Xlat
  | ok (pa : Nat)
  | absent
  | bad (poison : Bool)
  | busy
  deriving DecidableEq, Repr

/-- A walk for an engine fills the walk-ahead TLB of a cluster. -/
def State.engineWalk (s : State) (cluster asid va : Nat) (wr : Bool) : Xlat × State :=
  if !s.mayWalk asid va then (.busy, s.askWalk (Config.cores + cluster) asid va)
  else match s.walk asid va with
    | .leaf l fr w d path =>
      let s := (s.fillWalk asid va).setAD asid path (wr && w)
      if wr && !w then (.absent, s)
      else (.ok (fr + va % 2 ^ pageBits l),
        s.modCluster cluster fun c => { c with wtlb := tlbFill 1024 c.wtlb (leafEntry s asid va l fr w (d || (wr && w))) })
    | .absent => (.absent, s.fillWalk asid va)
    | .bad p => (.bad p, s.fillWalk asid va)
/-- Translate for an engine through the walk-ahead TLB of a cluster; a write needs W and sets D (R85, R89, R214). -/
def State.engineXlat (s : State) (cluster asid va : Nat) (wr : Bool) : Xlat × State :=
  match tlbHit s (s.cluster cluster).wtlb asid va with
  | some e => if !wr || (e.w && e.d) then (.ok (e.pa va), s) else s.engineWalk cluster asid va wr
  | none => s.engineWalk cluster asid va wr
/-- An access of an engine waits: for the tables of its translations, and for the sectors of [va, va+n) that it reads (R308). -/
def State.askVa (s : State) (engine asid va n : Nat) : State :=
  (upto (va / 65536) ((va + n + 65535) / 65536 - va / 65536)).foldl (fun s p =>
    let a := max va (65536 * p)
    let m := min (va + n) (65536 * p + 65536) - a
    let hit := tlbHit s (s.cluster engine).wtlb asid (a % 2 ^ 57)
    let s := if hit.isSome then s else s.askWalk (Config.cores + engine) asid (a % 2 ^ 57)
    match s.walk asid (a % 2 ^ 57) with
    | .leaf l fr _ _ _ => s.ask (Config.cores + engine) (fr + a % 2 ^ pageBits l) m
    | _ => s) s

/-! ### Free values and order numbers -/

/-- The next order number. -/
def State.nextSeq (s : State) : Nat × State := (s.seqNo, { s with seqNo := s.seqNo + 1 })
/-- The next free bit (log 11). -/
def State.freeBit (s : State) : Bool × State := (Config.freeBit s.freeIx, { s with freeIx := s.freeIx + 1 })

/-! ### Reports -/

/-- The stamp of R360. -/
def State.stamp (s : State) : Nat := (s.clock + s.stampOffset.toNat) % 2 ^ 64

/-- Record a trace event of an interface, when its tracing is enabled (R357, R360). -/
def State.traceRec (s : State) (vi source kind : Nat) (payload : List Nat) : State :=
  if bit s.image.tracing.toNat vi then
    { s with trace := s.trace ++ [{ vi, source, stamp := s.stamp, kind, payload := payload.map (BitVec.ofNat 64) }] }
  else s

/-- SOURCE of R359. -/
def sourceOf (type ix : Nat) : Nat := type * 4096 + ix

/-- T of an interface's trace region (R357). -/
def traceBits (i : Image) (vi : Nat) : Nat := (i.tbits[vi]?).getD 20
/-- The save area of an interface (R326). -/
def Iface.saveArea (i : Iface) : Nat := bits i.savebase.toNat 16 32 * 65536
/-- Start of an interface's block save slots, and of one of them (R329). [log 41: DESIGN CHOICE] -/
def State.saveSlot (s : State) (vi i : Nat) : Nat :=
  (s.iface vi).saveArea + 2 ^ 23 + (if bit s.image.tracing.toNat vi then 2 ^ traceBits s.image vi else 0) + 2 ^ 22 * i
/-- A turnstile as its doubleword in a save slot (R329). -/
def Turnstile.dw (x : Turnstile) : Nat := x.exp % 2 ^ 16 + x.arr % 2 ^ 16 * 2 ^ 16 + b01 x.ph * 2 ^ 32
/-- k of an interface's sample interval (R357). -/
def sampleBits (i : Image) (vi : Nat) : Nat := (i.kbits[vi]?).getD 10

/-- Physical address of a ring (R326). -/
def ringBase (r : Word) : Nat := bits r.toNat 12 36 * 4096
/-- Entries of a ring, as a power of two: below 4 there is no ring (R326). -/
def ringLog (r : Word) : Nat := bits r.toNat 0 5
/-- A ring has room (R328, R380), and its memory can be reached (R382). -/
def ringRoom (r : Word) (wix rix : Nat) (linkUp : Bool) : Bool :=
  decide (4 ≤ ringLog r) && decide ((wix + 2 ^ 32 - rix) % 2 ^ 32 < 2 ^ ringLog r) && (linkUp || !isHost (ringBase r))
/-- With no room in the fault ring, the entries of an interface are held (R380). -/
def State.holdFaults (s : State) (vi : Nat) : State :=
  s.modIface vi fun i =>
    if ringRoom i.frbase i.frwidx i.frridx s.linkUp then i else { i with faults := i.faults.map fun e => { e with held := true } }

/-- Post a fault-ring entry of an interface (R378): FAULT_ENTRY_WRITE writes it. -/
def State.postFault (s : State) (vi kind code source team : Nat) (dws : List Nat) (core : Option Nat)
    (app : Option (Nat × Nat × Nat)) (part : Option Nat) : State :=
  let dw0 := kind + code * 2 ^ 8 + source * 2 ^ 16 + team * 2 ^ 32
  let e : FaultEntry :=
    { dws := (dw0 :: dws).map (BitVec.ofNat 64), stamp := s.stamp, source, core, app, part, held := false }
  (s.modIface vi fun i => { i with faults := i.faults ++ [e] }).holdFaults vi

/-- Post a page-request record (R219): PAGE_REQUEST_WRITE writes it. [log 52: DEDUCED] -/
def State.postPage (s : State) (vi src : Nat) (wr : Bool) (va asid core team : Nat) : State :=
  let dw0 := src + b01 wr * 4 + bits va 16 41 * 2 ^ 16
  let dw1 := asid + core * 2 ^ 10 + team * 2 ^ 19
  s.modIface vi fun i => { i with pages := i.pages ++ [(BitVec.ofNat 64 dw0, BitVec.ofNat 64 dw1)] }

/-! ### Turnstiles -/

/-- Release every waiter for a flip of turnstile t (R204). [log 53: DEDUCED] -/
def Block.releaseWaiters (b : Block) (t : Nat) : Block :=
  let rel : Hold → Hold := fun h => match h with
    | .ts t' c => if t' = t then .released else .ts t' c
    | h => h
  { b with
    teams := b.teams.map fun x => (x.1, { x.2 with frags := x.2.frags.map fun f => { f with hold := rel f.hold } })
    seq := b.seq.map fun q => { q with hold := rel q.hold } }

/-- One arrival (R204): at EXP 0 it is discarded (R365); a flip releases the waiters of a turnstile that is not abandoned. [log 53: DEDUCED] -/
def Block.arrive (b : Block) (t : Nat) : Block :=
  let x := b.turnstile t
  if x.exp = 0 then b
  else if x.arr + 1 = x.exp then
    let b := b.setTurnstile t { x with arr := 0, ph := !x.ph }
    if x.abandoned then b else b.releaseWaiters t
  else b.setTurnstile t { x with arr := (x.arr + 1) % 65536 }

/-- Every turnstile of the block becomes abandoned and its waiters trap (R372). -/
def Block.abandonOne (b : Block) (t : Nat) : Block :=
  let ab : Hold → Hold := fun h => match h with
    | .ts t' c => if t' = t then .abandoned t' c else .ts t' c
    | h => h
  let b := b.setTurnstile t { b.turnstile t with abandoned := true }
  { b with
    teams := b.teams.map fun x => (x.1, { x.2 with frags := x.2.frags.map fun f => { f with hold := ab f.hold } })
    seq := b.seq.map fun q => { q with hold := ab q.hold } }
def Block.abandonAll (b : Block) : Block := (upto 0 16).foldl Block.abandonOne b

/-! ### Fragments (R39 to R47) -/

/-- R40: waiting at its reconvergence address. -/
def Frag.waiting (f : Frag) : Bool := !f.hollow && f.rpcv && f.pc == f.rpc
def Team.linked (tm : Team) (csn : Nat) : List Frag := tm.frags.filter fun g => g.linkv && g.link == csn
/-- R40: no fragment links to it. [log 15: DEDUCED] -/
def Team.leafless (tm : Team) (csn : Nat) : Bool := tm.frags.all fun g => !(g.linkv && g.link == csn)

/-- Remove fragments and relink those that named them to a parent (R41, R43); what they issued precedes what it issues (R41). -/
def Team.absorb (tm : Team) (gone : List Nat) (parent : Nat) : Team :=
  { tm with frags := (tm.frags.filter fun f => !gone.contains f.csn).map fun f =>
      if f.linkv && gone.contains f.link then { f with link := parent } else f
            pend := tm.pend.map fun p =>
              if p.heirs.any gone.contains then { p with heirs := insSorted parent (p.heirs.filter fun h => !gone.contains h) } else p }

/-- A fragment splits off from another (R39, R43): what that one has issued precedes what it issues. -/
def Team.inherit (tm : Team) (csn child : Nat) : Team :=
  { tm with pend := tm.pend.map fun p => if p.heirs.contains csn then { p with heirs := insSorted child p.heirs } else p }

/-- The lowest CSN of a list of fragments. -/
def oldest : List Frag → Option Frag
  | [] => none
  | f :: fs => match oldest fs with
    | none => some f
    | some g => if f.csn ≤ g.csn then some f else some g

/-- R42: two waiting leafless siblings at one PC. -/
def Team.mergePair (tm : Team) : Option (Frag × Frag) :=
  let cand := tm.frags.filter fun f => f.linkv && f.waiting && tm.leafless f.csn
  (cand.findSome? fun f =>
    (cand.find? fun g => decide (f.csn < g.csn) && f.link == g.link && f.pc == g.pc).map fun g => (f, g))

/-- Every fragment that links to this one has broken out and waits at another address: it climbs to the parent (R43). -/
def Team.climbs (tm : Team) (csn a : Nat) : Bool := (tm.linked csn).all fun h => h.waiting && h.pc != a
/-- The members of C for a parent at address a (R41, R43). [log 15: DEDUCED] -/
def Team.fusable (tm : Team) (p : Frag) (a : Nat) : List Frag :=
  (tm.linked p.csn).filter fun g => g.pc == a && g.waiting && tm.climbs g.csn a

/-- Fuse C into P (R41). [log 15: DEDUCED] -/
def Team.fuse (tm : Team) (p : Frag) (a : Nat) (cs : List Frag) (wasWaiting : Bool) : Team :=
  let m := cs.foldl (fun m g => m ||| g.mask) p.mask
  let tm := tm.modFrag p.csn fun f =>
    let f := { f with mask := m, pc := a, hollow := false }
    match wasWaiting, oldest cs with
    | true, some g => { f with rpc := g.rpcNext, rpcv := g.nextv }
    | _, _ => f
  tm.absorb (cs.map Frag.csn) p.csn

/-- One rewriting of the fragments by R41, R42 and R44, if one applies. The second component says that it was a fusion. A
fragment that waits while nothing links to it fuses with nothing and waits on (log 15). [log 15: DEDUCED] -/
def Team.settleStep (tm : Team) : Option (Team × Bool) :=
  match tm.frags.find? (fun f => f.mask == 0 && tm.leafless f.csn) with
  | some f => some ({ tm with frags := tm.frags.filter fun g => g.csn != f.csn }, false)
  | none =>
    match tm.frags.find? (fun f => f.mask == 0 && !f.hollow) with
    | some f => some (tm.modFrag f.csn (fun g => { g with hollow := true }), false)
    | none =>
      match tm.mergePair with
      | some (f, g) =>
        some ((tm.modFrag f.csn (fun x => { x with mask := f.mask ||| g.mask })).absorb [g.csn] f.csn, false)
      | none =>
        tm.frags.findSome? fun p =>
          let ls := tm.linked p.csn
          let atRpc := p.hollow && p.rpcv && ls.any fun g => g.rpcv && g.rpc == p.rpc
          if p.waiting || atRpc then
            let cs := tm.fusable p p.rpc
            if cs.isEmpty then none
            else if ls.all fun g => !(g.rpcv && g.rpc == p.rpc) || cs.any fun c => c.csn == g.csn then
              some (tm.fuse p p.rpc cs true, true)
            else none
          else if p.hollow then
            match oldest ls with
            | some g =>
              if g.waiting && tm.leafless g.csn then some (tm.fuse p g.pc (tm.fusable p g.pc) false, true) else none
            | none => none
          else if p.hold == .none && !p.safe && !p.trapHeld then
            let cs := tm.fusable p p.pc
            if cs.isEmpty then none else some (tm.fuse p p.pc cs false, true)
          else none

/-! ### Spill records (R45, R46) -/

/-- Lanes of the block, and its reserved area S of R17. -/
def Block.lanesTotal (b : Block) : Nat := b.lanes
def Block.reserved (b : Block) : Nat := (64 * b.lanes + 255) / 256 * 256
/-- The spill record of a fragment, with the offset of the next record of its partition's list (R46). -/
def spillRecord (t : Nat) (f : Frag) (next : Option Nat) : List Byte :=
  let st := if f.safe then 2 else if f.waiting then 1 else 0
  bytesOf 8 (bits f.pc 0 57 + st * 2 ^ 62) ++ bytesOf 8 (bits f.rpc 0 57 + b01 f.rpcv * 2 ^ 63)
    ++ bytesOf 8 (bits f.rpcNext 0 57 + b01 f.nextv * 2 ^ 63) ++ bytesOf 8 f.csn ++ bytesOf 8 f.link
    ++ bytesOf 8 (summary f.mask + lowLane f.mask * 2 ^ 32 + t * 2 ^ 42 + b01 f.linkv * 2 ^ 63)
    ++ bytesOf 8 (next.elim 0 fun o => o % 2 ^ 21 + 2 ^ 63) ++ bytesOf 8 0
/-- Offset of a fragment's spill record (R45). -/
def Block.spillOff (b : Block) (t : Nat) (f : Frag) : Nat :=
  Config.spBytes - b.reserved + 64 * (t * (AMap.find? b.teams t).elim 0 Team.L + lowLane f.mask)
/-- The spilled fragments of a partition, oldest record first (R45). -/
def Block.spillList (b : Block) (p : Nat) : List (Nat × Frag) :=
  let fs := b.teams.flatMap fun x => if x.1 % 4 = p then (x.2.frags.filter fun f => f.spilled).map fun f => (x.1, f) else []
  fs.foldl (fun l x => insertBy (fun y : Nat × Frag => y.2.spillSeq) x l) []
/-- The records of a spill list with their offsets, each naming the next (R46). -/
def Block.spillRecords (b : Block) : List (Nat × Frag) → List (Nat × List Byte)
  | [] => []
  | x :: xs => (b.spillOff x.1 x.2, spillRecord x.1 x.2 (xs.head?.map fun y => b.spillOff y.1 y.2)) :: b.spillRecords xs
/-- Bring the records of a partition's spill list up to date (R45, R46). -/
def Block.syncSpill (b : Block) (p : Nat) : Block :=
  { b with sp := (b.spillRecords (b.spillList p)).foldl (fun sp x =>
      if sp.read x.1 64 == x.2 then sp else sp.write x.1 x.2) b.sp }

/-- Feed one 64-bit record to SIGACC (R172). -/
def Team.feed (tm : Team) (rec_ : Nat) : Team := { tm with sigacc := crcBytes 8 rec_ tm.sigacc }

/-- Apply R41 to R44 until nothing changes; a fusion that leaves one fragment feeds its record (R172). -/
def Team.settle : Nat → Team → Team
  | 0, tm => tm
  | n + 1, tm =>
    match tm.settleStep with
    | none => tm
    | some (tm', fused) =>
      let tm' := match fused, tm'.frags with
        | true, [f] => if f.spilled then tm' else tm'.feed (2 * 2 ^ 48 + summary f.mask)
        | _, _ => tm'
      Team.settle n tm'

/-- Apply R40 to R44 to a team; a team whose last lane has exited has finished (R165), a lifted one once its slot is free
(R299). -/
def State.settle (s : State) (k t : Nat) : State :=
  s.modBlock k fun b => (b.modTeam t fun tm =>
    let tm := Team.settle (2 * tm.frags.length + 2) tm
    { tm with finished := tm.finished || (tm.frags.isEmpty && tm.lift == .core) }).syncSpill (t % 4)

/-- Resident fragments of a partition, over all its teams (R37). -/
def Block.resident (b : Block) (p : Nat) : List (Nat × Frag) :=
  b.teams.flatMap fun x => if x.1 % 4 = p then (x.2.frags.filter fun f => !f.spilled).map fun f => (x.1, f) else []

/-- The lowest free split-table entry of a partition. -/
def Block.freeEntry (b : Block) (p : Nat) : Option Nat :=
  let used := (b.resident p).map fun x => x.2.entry
  (upto 0 Config.splitEntries).find? fun i => !used.contains i

/-- The record that a partition reloads next (R47): the oldest in state 0, else the oldest whose parent is resident and stands
at the record's PC. -/
def Block.reloadable (b : Block) (p : Nat) : Option (Nat × Frag) :=
  let l := b.spillList p
  match l.find? fun x => !x.2.safe && !x.2.waiting with
  | some x => some x
  | none => l.find? fun x => match AMap.find? b.teams x.1 with
    | some tm => tm.frags.any fun g => x.2.linkv && g.csn == x.2.link && !g.spilled && g.pc == x.2.pc
    | none => false
/-- Put a spilled fragment into an entry. -/
def Block.reloadInto (b : Block) (t csn e : Nat) : Block :=
  (b.modTeam t fun tm => tm.modFrag csn fun f => { f with spilled := false, entry := e }).syncSpill (t % 4)
/-- Spill a fragment of the block: its record goes to the end of its partition's list (R45). -/
def Block.spillFrag (b : Block) (t csn : Nat) : Block :=
  let n := (b.part (t % 4)).spillNext
  ((b.modPart (t % 4) fun q => { q with spillNext := n + 1 }).modTeam t fun tm =>
    tm.modFrag csn fun f => { f with spilled := true, spillSeq := n }).syncSpill (t % 4)
/-- A partition reloads before any new fragment takes a freed entry (R47). -/
def Block.reload : Nat → Nat → Block → Block
  | 0, _, b => b
  | n + 1, p, b => match b.freeEntry p, b.reloadable p with
    | some e, some x => Block.reload n p (b.reloadInto x.1 x.2.csn e)
    | _, _ => b

/-- Place a new fragment: a free entry, or a spill record (R39, R45, R47). On a stack core it is never spilled (R296). -/
def State.place (s : State) (k t : Nat) (f : Frag) : State :=
  s.modBlock k fun b0 =>
    let b := b0.reload (b0.spillList (t % 4)).length (t % 4)
    match AMap.find? b.teams t with
    | none => b
    | some tm =>
      let p := t % 4
      match b.freeEntry p, tm.lifted with
      | some e, false => b.modTeam t fun tm => { tm with frags := tm.frags ++ [{ f with entry := e }] }
      | _, true => b.modTeam t fun tm => { tm with frags := tm.frags ++ [{ f with entry := 64 + f.csn }] }
      | none, false => (b.modTeam t fun tm => { tm with frags := tm.frags ++ [f] }).spillFrag t f.csn

/-- The next CSN of a partition (R38). -/
def State.nextCsn (s : State) (k t : Nat) : Nat × State :=
  match s.block k with
  | none => (0, s)
  | some b =>
    ((b.part (t % 4)).csnNext, s.modBlock k fun b => b.modPart (t % 4) fun q => { q with csnNext := q.csnNext + 1 })

/-! ### Halts and traps -/

/-- The agent that a team's issue is charged to in reports: its partition, or its stack core (R359). -/
def teamSource (k t : Nat) (tm : Team) : Nat :=
  match tm.stackCoreOf with
  | some sc => if tm.lifted then sourceOf 6 sc else sourceOf 0 (4 * k + t % 4)
  | none => sourceOf 0 (4 * k + t % 4)

/-- A run whose team has halted ends at the next row-end, at free-run pace (R408). [log 35: DEDUCED] -/
def Run.cut (r : Run) : Run :=
  { r with free := true, cmd := { r.cmd with req := match r.cmd.req with
    | .run e ln st kp r0 _ p0 p1 => .run e ln st kp r0 (r.row - r0 + 1) p0 p1
    | q => q } }
def Team.counter (tm : Team) : Cls → Nat
  | .mem => tm.memcnt
  | .set => tm.setcnt
  | .arr => tm.arrcnt
  | .bank => tm.bankcnt
  | _ => 0
def Team.addCount (tm : Team) (c : Cls) : Team :=
  match c with
  | .mem => { tm with memcnt := tm.memcnt + 1 }
  | .set => { tm with setcnt := tm.setcnt + 1 }
  | .arr => { tm with arrcnt := tm.arrcnt + 1 }
  | .bank => { tm with bankcnt := tm.bankcnt + 1 }
  | _ => tm
def Team.subCount (tm : Team) (c : Cls) : Team :=
  match c with
  | .mem => { tm with memcnt := tm.memcnt - 1 }
  | .set => { tm with setcnt := tm.setcnt - 1 }
  | .arr => { tm with arrcnt := tm.arrcnt - 1 }
  | .bank => { tm with bankcnt := tm.bankcnt - 1 }
  | _ => tm

/-- The vector registers from r up are lost: a special function bound for one writes no result, and has no flags to land (R76). -/
def PendKind.loseV (r : Nat) : PendKind → PendKind
  | .spf d vals flags => if r ≤ d then .spf d [] [] else .spf d vals flags
  | k => k

/-- A run of the team that is in progress, as its outstanding instruction: it ends at its row-end and returns (R408). -/
def State.runsOn (s : State) (k t seq : Nat) : Bool :=
  s.channels.any fun x => x.2.runs.any fun r => r.cmd.core == k && r.cmd.team == t && r.cmd.seq == seq
/-- A bank command that will complete although its team has halted: its run is in progress, or its result has been found (R406, R408). -/
def State.bankGoesOn (s : State) (k t : Nat) (p : Pend) : Bool :=
  match p.kind with
  | .bank _ _ res => s.runsOn k t p.seq || res.isSome
  | _ => true
/-- R408: the bank work of a lifted team that halts: commands not started are discarded and their counts fall, runs end at their
row-end. [log 35: DEDUCED] -/
def State.dropBankWork (s : State) (k t : Nat) : State :=
  let s := { s with channels := s.channels.map fun (x : Nat × Channel) =>
      (x.1, { x.2 with
        queue := x.2.queue.filter fun c => !(c.core == k && c.team == t)
        steps := x.2.steps.filter fun c => !(c.core == k && c.team == t)
        fences := x.2.fences.filter fun c => !(c.core == k && c.team == t)
        runs := x.2.runs.map fun (r : Run) => if r.cmd.core == k && r.cmd.team == t then r.cut else r }) }
  s.modTeam k t fun tm =>
    let gone := tm.pend.filter fun p => !s.bankGoesOn k t p
    gone.foldl (fun tm (p : Pend) => tm.subCount p.cls) { tm with pend := tm.pend.filter (s.bankGoesOn k t), cmds := [] }

/-- The `b.lift` or `b.land` of a team ends (R298, R299). -/
def Team.endMove (tm : Team) : Team :=
  (tm.pend.filter fun p => p.kind == .lift || p.kind == .land).foldl (fun tm p => tm.subCount p.cls)
    { tm with pend := tm.pend.filter fun p => !(p.kind == .lift || p.kind == .land) }
/-- A team that waits for a slot of a stack, or whose `b.lift` has not yet asked for one, gives that up (R347). -/
def Team.unqueue (tm : Team) : Team :=
  match tm.lift with
  | .queued _ _ => { tm.endMove with lift := .core }
  | .core => tm.endMove
  | _ => tm
/-- The `b.lift` of a fragment traps after all: its count falls, and its place among the requests goes (R298, R339). -/
def Team.dropMove (csn : Nat) (tm : Team) : Team := if tm.pend.any fun p => p.kind == .lift && p.csn == csn then tm.unqueue else tm
/-- The requests of a team leave its partition's queue (R54, R347). -/
def Block.dropGrants (b : Block) (t : Nat) : Block := b.modPart (t % 4) fun q => { q with grants := q.grants.filter fun x => x.1 != t }

/-- A team halts (R347): it never issues again, what it waits for is given up, its block's turnstiles become abandoned (R372), its fault entry is posted
and the trace records it. -/
def State.haltTeam (s : State) (k t : Nat) : State :=
  match s.block k, s.team k t with
  | some b, some tm =>
    if tm.halted then s
    else
      let src := teamSource k t tm
      let s := s.modTeam k t fun tm =>
        { tm.unqueue with halted := true, haltReqs := [], park := [], frags := tm.frags.map fun f => { f with hold := .none } }
      let s := if tm.lifted then s.dropBankWork k t else s
      let s := s.modBlock k fun b => (b.dropGrants t).abandonAll
      let s := s.postFault b.vi 1 (bits tm.trapcause.toNat 0 8) src t
        [tm.trapcause.toNat, tm.trappc.toNat, tm.trapword.toNat, tm.faultstat.toNat, b.index, b.slot % 32] (some k) none none
      s.traceRec b.vi src 4 [tm.trapcause.toNat, tm.trappc.toNat, tm.trapword.toNat]
  | _, _ => s

/-- TRAPCAUSE from its fields (R340). -/
def causeWord (code field aux lane : Nat) (nest stack : Bool) : Word :=
  BitVec.ofNat 64 (code % 256 + field % 16 * 2 ^ 8 + b01 nest * 2 ^ 12 + b01 stack * 2 ^ 13 + aux % 65536 * 2 ^ 16
    + lane % 1024 * 2 ^ 32)

/-- Taking a trap (R169, R343, R344, R348): TRAPPC, TRAPWORD and TRAPCAUSE are written, `FAULTSTAT` for the causes of
R364; in handler mode or with TRAPVEC 0 the team halts, otherwise the fragment continues at TRAPVEC in handler mode and
every other fragment parks. -/
def State.takeTrap (s : State) (k t csn : Nat) (word : Word) (len code field aux : Nat) (fs : Option Word) : State :=
  match s.block k, s.team k t with
  | some b, some tm =>
    match tm.frag csn with
    | none => s
    | some f =>
      let cause := causeWord code field aux (lowLane f.mask) tm.handler tm.lifted
      let pc : Word := BitVec.ofNat 64 (f.pc + len)
      let s := s.modTeam k t fun tm =>
        { tm with trapcause := cause, trappc := pc, trapword := word, faultstat := fs.getD tm.faultstat }
      if tm.handler || tm.trapvec == 0 then s.haltTeam k t
      else
        let s := s.modTeam k t fun tm =>
          { tm with handler := true, frags := tm.frags.map fun g =>
              if g.csn = csn then { g with pc := tm.trapvec.toNat, hold := .none } else { g with trapHeld := true } }
        let s := if tm.lifted then s else s.modBlock k fun b => b.modPart (t % 4) fun q => { q with last := some (t, csn) }
        let s := s.traceRec b.vi (teamSource k t tm) 3 [cause.toNat, pc.toNat, word.toNat]
        s.settle k t
  | _, _ => s

/-- A halt request says where its cause was raised: on a stack core or not (R340, R405). -/
def Team.raised (tm : Team) (r : HaltReq) : HaltReq := { r with stack := r.stack || tm.lifted }
/-- A halt request lands (R349, R386): the report's registers are written and the team halts. [log 38: DEDUCED] -/
def State.landHalt (s : State) (k t : Nat) (r : HaltReq) (nest : Bool) : State :=
  match s.team k t with
  | none => s
  | some _ =>
    let cause := causeWord r.code 0 r.aux r.lane nest r.stack
    let s := s.modTeam k t fun tm =>
      { tm with trapcause := cause, trappc := BitVec.ofNat 64 r.pc, trapword := r.word,
                faultstat := r.fault.getD tm.faultstat }
    s.haltTeam k t

/-- A failure that is found at issue or at a fetch halts the team there and then. -/
def State.haltNow (s : State) (k t : Nat) (r : HaltReq) : State :=
  match s.team k t with
  | none => s
  | some tm => s.landHalt k t (tm.raised r) tm.handler
/-- Make a halt request (R349): HALT_REQUEST lands it. -/
def State.requestHalt (s : State) (k t : Nat) (r : HaltReq) : State :=
  s.modTeam k t fun tm => if tm.halted then tm else { tm with haltReqs := tm.haltReqs ++ [tm.raised r] }

/-- The halt request of a pending instruction's failure (R386): TRAPPC follows the instruction. -/
def Pend.halt (p : Pend) (code aux : Nat) (fault : Option Word) : HaltReq :=
  { code, aux, pc := p.pc + (if p.word.extractLsb' 58 6 = 0x3F#6 then 16 else 8), word := p.word, lane := p.lane,
    fault, hnd := p.hnd }

/-- `FAULTSTAT` (R364). -/
def faultWord (addr : Nat) (sp : Bool) (cap : Nat) : Word :=
  BitVec.ofNat 64 (addr % 2 ^ 57 + b01 sp * 2 ^ 57 + cap % 32 * 2 ^ 58 + 2 ^ 63)

/-- TRAPPC, TRAPWORD and LANE of a halt that belongs to no instruction: the spec states no values for them (log 9). [log 36: DESIGN CHOICE] -/
def State.freeReport (s : State) (code : Nat) (fault : Option Word) (hnd : Bool) : HaltReq × State :=
  ({ code, aux := 0, pc := Config.freeNat s.freeIx % 2 ^ 57, word := BitVec.ofNat 64 (Config.freeNat (s.freeIx + 1))
     lane := Config.freeNat (s.freeIx + 2) % 1024, fault, hnd }, { s with freeIx := s.freeIx + 3 })
/-- A fetch that cannot be used halts its team with PTE or POISON (R366, R371): no instruction has been read. [log 36: DESIGN CHOICE] -/
def State.fetchHalt (s : State) (k t : Nat) (f : Frag) (va code : Nat) : State :=
  match s.team k t with
  | none => s
  | some tm =>
    let (r, s) := s.freeReport code (some (faultWord va false 0)) tm.handler
    s.haltNow k t { r with lane := lowLane f.mask }

/-- Return from an exception (R169, R349): the fragment resumes at TRAPPC, handler mode ends and the parked fragments go
on; a held halt request halts the team instead. [log 38: DEDUCED] -/
def State.trapReturn (s : State) (k t csn : Nat) : State :=
  match s.team k t with
  | none => s
  | some tm =>
    match tm.haltReqs.find? fun r => r.reached == some true with
    | some r => s.landHalt k t { r with pc := tm.trappc.toNat } true
    | none => s.modTeam k t fun tm =>
        { tm with handler := false, frags := tm.frags.map fun g =>
            if g.csn = csn then { g with pc := tm.trappc.toNat % 2 ^ 57, trapHeld := false } else { g with trapHeld := false } }

/-! ### Issue -/

/-- What an instruction's body answers. [log 27: DEDUCED] -/
inductive Act
  /-- A precise trap: code, field, AUX, FAULTSTAT (R339). -/
  | trap (code field aux : Nat) (fs : Option Word)
  /-- A precise trap of which a report has been posted (R388). -/
  | trapIn (s : State) (code field aux : Nat)
  /-- The instruction does not issue now; nothing but walks or requests has changed. -/
  | wait (s : State)
  /-- It has issued and holds its fragment (R8 Park). -/
  | park (h : Hold) (s : State)
  /-- It has issued and holds its fragment until an event ends it: nothing can make it trap any more, and it feeds its record now (R172). -/
  | hand (h : Hold) (s : State)
  /-- It completes and the PC advances past it. -/
  | done (s : State)
  /-- It completes, the PC advances, and then something follows (R355). -/
  | after (s : State) (f : State → State)
  /-- It completes and the PC goes to an address. -/
  | goto (s : State) (pc : Nat)
  /-- It completes and has set the PC itself. -/
  | raw (s : State)
  /-- The machine stops: the access names no memory (R86). -/
  | stop (f : Fault)

/-- Who issues, with the team and fragment as they stand. -/
structure Ctx where
  k : Nat
  t : Nat
  csn : Nat
  word : Word
  len : Nat
  b : Block
  tm : Team
  f : Frag

/-- What the issue of an instruction needs to know about it. -/
structure Issue where
  /-- Its guard. -/
  g : Guard
  /-- It acts per lane (R140). -/
  perLane : Bool := false
  /-- Registers it reads and writes, for the interlock (R51, R159). -/
  reads : List RegRef := []
  writes : List RegRef := []
  /-- Control class: waits for any window it stands in (R51). -/
  ctrl : Bool := false
  /-- The counter class it counts in (R52). -/
  counts : Option Cls := none
  /-- Vector registers it names, with their FIELD codes, for ALLOT (R341). -/
  vregs : List (Nat × Nat) := []
  /-- Vector teams only (R55). -/
  vectorOnly : Bool := false
  /-- Copy teams only (R55). -/
  copyOnly : Bool := false
  /-- A stack core may issue it (R297). -/
  onStack : Bool := false
  /-- A bank form, permitted only while lifted (R311, R341). -/
  liftedOnly : Bool := false
  /-- It accesses memory or posts work, so it waits for an acquire of its fragment (R110). -/
  access : Bool := false
  /-- Only launches of privileged queues (R203). -/
  privOnly : Bool := false
  /-- It feeds no issue record (R173). -/
  noRecord : Bool := false
  /-- `yield` (R50). -/
  yields : Bool := false
  /-- A source register of which it reads, for lane l, the lane that the function names (R190). -/
  cross : Option (Nat × (Ctx → State → Nat → Nat)) := none
  /-- What it does for the active lanes E in which the guard holds. -/
  body : Ctx → Mask → State → Act

/-- The guard per lane (R140): `p7` always holds. -/
def guardMask (tm : Team) (g : Guard) : Mask := if g.neg then ~~~(tm.preg g.p.toNat) else tm.preg g.p.toNat

/-- A fragment cannot issue at all now (R40, R48, R92, R169, R355). -/
def fragBlocked (b : Block) (tm : Team) (t : Nat) (f : Frag) : Bool :=
  tm.halted || tm.finished || f.spilled || f.hollow || f.safe || f.trapHeld || f.waiting || !tm.park.isEmpty
    || (b.part (t % 4)).stopped.isSome
    || (match tm.lift with | .rising _ _ => true | .landing _ _ => true | _ => false)
    || (match f.hold with | .grow => true | .role _ _ _ _ _ => true | .ts _ _ => true | _ => false)

/-- The interlock of R51, R159 and R189 for an instruction of fragment csn. -/
def interlocked (tm : Team) (csn : Nat) (i : Issue) : Bool :=
  let regs := RegRef.p i.g.p.toNat :: (i.reads ++ i.writes)
  tm.pend.any fun p =>
    let hits := p.dests.any fun d => regs.contains d
    if p.csn = csn then
      match p.window with
      | some 0 => !p.dests.isEmpty
      | some _ => !p.dests.isEmpty && i.ctrl
      | none => false
    else hits

/-- An outstanding acquire of the fragment has not read yet (R110). -/
def acquirePending (tm : Team) (csn : Nat) : Bool :=
  tm.pend.any fun p => p.heirs.contains csn && match p.kind with
    | .load _ _ _ _ _ (some _) _ _ none => true
    | .atom _ true _ _ => true
    | _ => false

/-- The issue record of R172 from the word issued: a prefix counts as what it carries. -/
def issueRecord (w : Word) (m : Mask) : Nat :=
  let major := if w.extractLsb' 58 6 = 0x3F#6 then (w.extractLsb' 20 6).toNat else (w.extractLsb' 58 6).toNat
  major * 2 ^ 58 + (w.extractLsb' 52 6).toNat * 2 ^ 52 + 2 ^ 48 + summary m

/-- A sampler counts an issue, and tags it when the window's choice falls on it (R361). [log 55: DEDUCED] -/
def Sampler.count (source k : Nat) (t : Tagged) (q : Sampler) : Sampler :=
  match q.tag with
  | some _ => q
  | none =>
    { q with issued := q.issued + 1
             tag := if q.issued = Config.samplePick source q.windows % 2 ^ k then some t else none }
/-- A parked instruction that has been tagged traps (R361, R372). -/
def Sampler.trapped (team pc : Nat) (q : Sampler) : Sampler :=
  { q with tag := q.tag.map fun t => if t.team = team ∧ t.pc = pc then { t with trapped := true } else t }
/-- Change the sampler that counts the issues of a team (R361). -/
def State.modSampler (s : State) (c : Ctx) (f : Nat → Sampler → Sampler) : State :=
  match c.tm.stackCoreOf, c.tm.lifted with
  | some sc, true => s.modStackCore sc fun q => { q with sampler := f (sourceOf 6 sc) q.sampler }
  | _, _ => s.modCore c.k fun q =>
      let p := c.t % 4
      { q with samplers := AMap.set Sampler.init q.samplers p (f (sourceOf 0 (4 * c.k + p)) (AMap.get Sampler.init q.samplers p)) }
/-- The level of the home slice of an address, seen from a core (R361). -/
def homeLevel (k pa : Nat) : Nat :=
  if isHost pa then 8 else if homeSlice pa = k / 4 then 4 else if homeSlice pa / 16 = k / 64 then 5 else 6
/-- The level at which an access of a core to [pa, pa+n) ends at its home: the home slice, HBM where that has to fill, or host memory (R103, R361). -/
def State.homeReach (s : State) (k pa n : Nat) : Nat :=
  if !isHost pa && (sectorsOf pa n).any fun u => !s.l2Holds (32 * u) then 7 else homeLevel k pa
/-- The level that a kind of work reaches when it issues: a set's home, a subarray, a bank unit (R361). -/
def PendKind.level : PendKind → Nat
  | .set _ _ _ => 9
  | .arr _ _ _ _ => 10
  | .bank _ _ _ => 11
  | _ => 0
/-- What the issue in hand has started: its outstanding instruction. -/
def Team.newPends (tm : Team) (c : Ctx) : List Pend := tm.pend.filter fun p => c.tm.pend.all fun q => q.seq != p.seq
/-- An issue is counted by its sampler: a tagged one keeps the order numbers of what it has started, and reaches further levels later
(R361). [log 55: DEDUCED] -/
def State.tagIssue (s : State) (c : Ctx) (result trapped : Bool) : State :=
  let tm := (s.team c.k c.t).getD c.tm
  let new := tm.newPends c
  let reqs := tm.stb.filter fun r => c.tm.stb.all fun q => q.seq != r.seq
  let claims := (tm.claim.filter fun _ => c.tm.claim.isNone).toList.map Claim.seq
  let t : Tagged :=
    { core := c.k, vi := c.b.vi, pc := c.f.pc, team := c.t, word := c.word, mask := summary c.f.mask, trapped, result
      seqs := (new.map Pend.seq ++ reqs.map StReq.seq ++ claims).foldl (fun l x => insSorted x l) []
      level := (new.map fun p => p.kind.level).foldl max 0 }
  s.modSampler c fun source => Sampler.count source (sampleBits s.image c.b.vi) t
/-- The sampler has tagged the instruction of order number `seq` of a team. -/
def Sampler.follows (k t seq : Nat) (q : Sampler) : Bool := q.tag.any fun x => x.core == k && x.team == t && x.seqs.contains seq
/-- The instruction that a sampler has tagged does something of number `more` at a level. -/
def Sampler.reach (k t seq level : Nat) (more : List Nat) (q : Sampler) : Sampler :=
  if q.follows k t seq then { q with tag := q.tag.map fun x => { x with level := max x.level level, seqs := x.seqs ++ more } } else q
/-- What an instruction of order number `seq` has started reaches a level, and goes on as other work (R361). [log 55: DEDUCED] -/
def State.noteReach (s : State) (k t seq level : Nat) (more : List Nat) : State :=
  let part := (AMap.get Sampler.init (s.core k).samplers (t % 4)).follows k t seq
  let s := if part then s.modCore k fun q =>
      { q with samplers := AMap.set Sampler.init q.samplers (t % 4) ((AMap.get Sampler.init q.samplers (t % 4)).reach k t seq level more) }
    else s
  if s.stackCores.any fun x => x.2.sampler.follows k t seq then
    { s with stackCores := s.stackCores.map fun x => (x.1, { x.2 with sampler := x.2.sampler.reach k t seq level more }) }
  else s
/-- What an instruction of order number `seq` has started reaches a level. -/
def State.noteLevel (s : State) (k t seq level : Nat) : State := s.noteReach k t seq level []

/-- The issue record of R172: only a team of one fragment, none spilled, feeds it. An instruction that parks and is asked again feeds it when it
completes, or when nothing can make it trap any more, and is judged by the team's fragments at that moment (R339, log 27). [log 27: DEDUCED] -/
def Team.noteRecord (c : Ctx) (i : Issue) (tm : Team) : Team :=
  let one := match c.tm.frags with
    | [f] => !f.spilled
    | _ => false
  if one && !i.noRecord then tm.feed (issueRecord c.word c.f.mask) else tm
/-- The teams, by core and index, of which a set operation waits for a far body's page (R263, R351). -/
def State.setWaiters (s : State) : List (Nat × Nat) :=
  s.clusters.flatMap fun x => x.2.setq.flatMap fun o => if o.posted.isEmpty then [] else [(o.core, o.team)]
/-- WD holds its value on this clock (R351, R412). -/
def State.wdPaused (s : State) (k : Nat) (b : Block) (t : Nat) (tm : Team) : Bool :=
  s.setWaiters.contains (k, t) || !tm.park.isEmpty || (b.part (t % 4)).stopped.isSome || decide (0 < tm.remote)
    || (b.testReq && tm.frags.any fun f => f.safe)
/-- WD has expired: it stands at its last count until the team halts (R352). -/
def Team.wdExpired (tm : Team) : Bool := decide (Config.wdMax < tm.wd) || tm.haltReqs.any fun r => r.code == 0x09
/-- The issue of a fragment that is not spinning clears WD (R350), unless WD holds its value (R351, R352). [log 39: DESIGN CHOICE] -/
def Team.noteWatch (c : Ctx) (paused : Bool) (tm : Team) : Team :=
  if c.f.spin || paused || tm.wdExpired then tm else { tm with wd := 0, wdNow := true }
/-- At the first issue on its stack core the `b.lift` of a team completes (R298). -/
def Team.noteLift (tm : Team) : Team :=
  if tm.lifted then (tm.pend.filter fun p => p.kind == .lift).foldl (fun tm p => tm.subCount p.cls)
      { tm with pend := tm.pend.filter fun p => p.kind != .lift }
  else tm
/-- The windows of the fragment's outstanding instructions move on (R51). -/
def Team.noteWindows (c : Ctx) (tm : Team) : Team :=
  { tm with pend := tm.pend.map fun p => if p.csn = c.csn then { p with window := p.window.map (fun n => n - 1) } else p }
/-- The lanes in which an instruction writes a register: a register that is written whole is written where the instruction takes effect, and by
a form that acts per lane in any case (R140, R190). -/
def Issue.lanesOf (i : Issue) (c : Ctx) (r : RegRef) : Mask :=
  let E := c.f.mask &&& guardMask c.tm i.g
  if i.perLane then (match r with | .v _ => E | .p _ => E | _ => c.f.mask)
  else if laneIn E (lowLane c.f.mask) then c.f.mask else 0
/-- What an instruction that completes has written over is noted in the fragment's older outstanding instructions (R51); a result that it still
owes is noted when it lands. -/
def Team.noteWrites (c : Ctx) (i : Issue) (tm : Team) : Team :=
  let owed := (tm.newPends c).flatMap Pend.dests
  let regs := i.writes.filter fun r => !owed.contains r && i.lanesOf c r != 0
  if regs.isEmpty then tm
  else { tm with pend := tm.pend.map fun p =>
      if p.csn = c.csn ∧ (c.tm.pend.any fun q => q.seq == p.seq) = true then
        { p with wrote := p.wrote ++ (regs.filter fun r => p.dests.contains r).map fun r => (r, i.lanesOf c r) }
      else p }
/-- The book-keeping of an issue in its team. -/
def Team.noteIssue (c : Ctx) (paused : Bool) (tm : Team) : Team :=
  Team.noteWindows c (Team.noteLift (Team.noteWatch c paused tm))
/-- The last issuer of the partition or of the stack core (R50). -/
def State.noteLast (s : State) (c : Ctx) : State :=
  match c.tm.stackCoreOf, c.tm.lifted with
  | some sc, true => s.modStackCore sc fun q => { q with last := some (c.k, c.t, c.csn) }
  | _, _ => s.modBlock c.k fun b => b.modPart (c.t % 4) fun q => { q with last := some (c.t, c.csn) }
/-- Book-keeping of an issue (R50, R51, R298, R350, R361). -/
def State.noteIssue (s : State) (c : Ctx) (i : Issue) : State :=
  ((s.modTeam c.k c.t (Team.noteIssue c (s.wdPaused c.k c.b c.t c.tm))).tagIssue c (!i.writes.isEmpty) false).noteLast c

/-- Move the PC of the fragment and apply R40 to R44. -/
def State.advance (s : State) (c : Ctx) (pc : Nat) : State :=
  (s.modFrag c.k c.t c.csn fun f => { f with pc, hold := .none }).settle c.k c.t

/-- After an issue in partition p only the issuer of a `yield` counts as having just yielded (R50). -/
def Team.unyield (y : Bool) (csn : Nat) (tm : Team) : Team :=
  { tm with frags := tm.frags.map fun f => { f with yielded := y && f.csn == csn } }
def Ctx.unyield (c : Ctx) (yields : Bool) (s : State) : State :=
  s.modBlock c.k fun b =>
    { b with teams := b.teams.map fun x => (x.1, if x.1 % 4 = c.t % 4 then x.2.unyield (yields && x.1 == c.t) c.csn else x.2) }
/-- The book-keeping of an instruction that completes: once per instruction, what it has written over (R51), and its record (R172), which one that
parks first and then traps never feeds (R339). -/
def Ctx.noted (c : Ctx) (i : Issue) (s : State) : State :=
  c.unyield i.yields ((if c.f.hold == .none then s.noteIssue c i else s).modTeam c.k c.t fun tm =>
    Team.noteRecord c i (Team.noteWrites c i tm))
/-- An instruction ends: its book-keeping, and the fragment goes on at an address. -/
def Ctx.goOn (c : Ctx) (i : Issue) (pc : Nat) (s : State) : State := (c.noted i s).advance c pc

/-- A trapping instruction is an issue of its sampler (R361); one that has parked has been counted, and leaves nothing outstanding behind
(R298, R339). -/
def Ctx.trapping (c : Ctx) (s : State) : State :=
  if c.f.hold == .none then s.tagIssue c false true
  else (s.modSampler c fun _ => Sampler.trapped c.t c.f.pc).modTeam c.k c.t (Team.dropMove c.csn)
/-- Apply what a body answers. -/
def Ctx.finish (c : Ctx) (i : Issue) (s0 : State) (a : Act) : Res :=
  match a with
  | .trap code field aux fs => .next ((c.trapping s0).takeTrap c.k c.t c.csn c.word c.len code field aux fs)
  | .trapIn s code field aux => .next ((c.trapping s).takeTrap c.k c.t c.csn c.word c.len code field aux none)
  | .after s f => .next (f (c.goOn i (c.f.pc + c.len) s))
  | .wait s => .next s
  | .stop f => .fault f
  | .park h s =>
    let s := if c.f.hold == .none then s.noteIssue c i else s
    .next (s.modFrag c.k c.t c.csn fun f => { f with hold := h })
  | .hand h s => .next ((c.noted i s).modFrag c.k c.t c.csn fun f => { f with hold := h })
  | .done s => .next (c.goOn i (c.f.pc + c.len) s)
  | .goto s pc => .next (c.goOn i pc s)
  | .raw s => .next ((c.noted i s).settle c.k c.t)

/-- ROLE of R341: the team's role (R55), a stack core's forms (R297), a bank form while not lifted, `c.mk`. -/
def roleFault (c : Ctx) (i : Issue) : Bool :=
  (i.vectorOnly && c.tm.copy) || (i.copyOnly && !c.tm.copy) || (c.tm.lifted && !i.onStack)
    || (!c.tm.lifted && i.liftedOnly) || (i.privOnly && !c.b.priv)

/-- ALLOT of R341: the first vector register at or above v(8G), in FIELD order. -/
def allotFault (tm : Team) (i : Issue) : Option (Nat × Nat) := i.vregs.find? fun x => decide (8 * tm.G ≤ x.2)

/-- A register word that the instruction reads is uncorrectable (R370, R371, R410): of a vector register in the lanes of E, where a
cross-lane form reads the lanes that it names, of those that have not exited (R190), and those of E as well where the register is also
another source; of another register where the instruction takes effect, and its guard in any case. -/
def poisonRead (c : Ctx) (s : State) (i : Issue) (E : Mask) : Bool :=
  (c.tm.rpoison.any fun q => q == .p i.g.p.toNat || ((if i.perLane then E != 0 else laneIn E (lowLane c.f.mask)) && i.reads.contains q))
  || c.tm.vpoison.any fun q => i.reads.any fun r => r == .v q.1 && match i.cross with
    | none => laneIn E q.2
    | some (a, lane) =>
      (a == q.1 && !laneIn c.tm.exited q.2 && (lanesOf c.tm.L E).any fun l => lane c s l == q.2)
        || ((a != q.1 || decide (1 < (i.reads.filter fun x => x == .v q.1).length)) && laneIn E q.2)
/-- A cause of "When execution goes wrong", which is reported before those of the later chapters (R341, R342). -/
def Act.early : Act → Bool
  | .trap code _ _ _ => decide (code < 0x10)
  | .trapIn _ code _ _ => decide (code < 0x10)
  | _ => false

/-- ABANDONED (R372). [log 53: DEDUCED] -/
def abandonAux (t : Nat) (car : Option Nat) : Nat :=
  t + (match car with | some k => 16 + k * 32 | none => 0)

/-- The issue of one instruction by the acting fragment: interlocks, then ROLE, ALLOT, the guard, and its body. -/
def State.issue (s : State) (i : Issue) : Res :=
  match s.acting with
  | .frag k t csn word =>
    match s.block k, s.team k t with
    | some b, some tm =>
      match tm.frag csn with
      | none => .fault .noFragment
      | some f =>
        let c : Ctx := { k, t, csn, word, len := wordLen word, b, tm, f }
        if fragBlocked b tm t f then .next s
        else match f.hold with
          | .abandoned n car =>
            .next ((s.modSampler c fun _ => Sampler.trapped t f.pc).takeTrap k t csn word c.len 0x18 0 (abandonAux n car) none)
          | h =>
            if h == .none && (interlocked tm csn i || (i.access && acquirePending tm csn)
                || (match i.counts with | some q => decide (63 ≤ tm.counter q) | none => false)) then .next s
            else if roleFault c i then c.finish i s (.trap 0x03 0 0 none)
            else match allotFault tm i with
              | some (field, r) => c.finish i s (.trap 0x04 field (bits r 0 8) none)
              | none =>
                let E := f.mask &&& guardMask tm i.g
                let off := !i.perLane && !laneIn E (lowLane f.mask)
                if poisonRead c s i E && (off || !(i.body c E s).early) then
                  .next (s.haltNow k t { code := 0x19, aux := 0, pc := f.pc + c.len, word, lane := lowLane f.mask,
                                         fault := some (faultWord 0 false 0), hnd := tm.handler })
                else if off then c.finish { i with yields := false } s (.done s)
                else c.finish i s (i.body c E s)
    | _, _ => .fault .noFragment
  | _ => .fault .noFragment

end Sys2Proof.Machine
end

