-- ==== Sys2Proof/Machine/Flags.lean ====
section
/-!
DEFINITION. Sys2Proof/Machine/Flags.lean: the sticky flags `FPFLAGS` (R75, R76), `TEAMSTAT` (R53), `ALLOT` (R54),
`STBCNT` (R109) and the reading of every control and status register (R149, R171).
-/

namespace Sys2Proof.Machine

/-- OR flags into `FPFLAGS` (R76). -/
def Team.orFlags (tm : Team) (fl : Nat) : Team := { tm with fpflags := (tm.fpflags ||| fl) % 64 }

/-- OR of a list of flag words. -/
def flagsOf (xs : List Nat) : Nat := xs.foldl (fun a b => a ||| b) 0

/-- The order numbers of a list of store requests, each once. -/
def seqsOf (xs : List StReq) : List Nat := xs.foldl (fun l r => insSorted r.seq l) []

/-- `STBCNT` (R109): the team's stores and atomics issued and not yet acknowledged. [log 21: DEDUCED] -/
def State.stbcnt (s : State) (k t : Nat) : Nat :=
  match s.team k t with
  | none => 0
  | some tm => (seqsOf (tm.stb ++ (s.core k).path.filter fun r => r.team == t)).length

/-- Granules that a team has requested and not been granted (R54). -/
def Block.pendingGrants (b : Block) (t : Nat) : Nat :=
  ((b.part (t % 4)).grants.filter fun g => g.1 == t).foldl (fun a g => a + g.2.2) 0

/-- `TEAMSTAT` (R53). [log 21: DEDUCED] -/
def teamstatWord (tm : Team) (spin : Bool) : Word :=
  BitVec.ofNat 64 (tm.memcnt % 64 + tm.setcnt % 64 * 2 ^ 6 + tm.arrcnt % 64 * 2 ^ 12 + tm.bankcnt % 64 * 2 ^ 18
    + b01 tm.copy * 2 ^ 24 + b01 spin * 2 ^ 25 + tm.frags.length % 2 ^ 11 * 2 ^ 26 + tm.cpycnt % 2 ^ 16 * 2 ^ 37)
/-- `TEAMSTAT` as a fragment reads it. -/
def teamstat (tm : Team) (f : Frag) : Word := teamstatWord tm f.spin

/-- `ALLOT` (R54). -/
def allotWord (b : Block) (t : Nat) (tm : Team) : Word :=
  BitVec.ofNat 64 ((tm.G - 1) % 32 + b.pendingGrants t % 32 * 2 ^ 8)

/-- The value of a control or status register as it stands (R149, R171). [log 21: DEDUCED] -/
def Ctx.csr (c : Ctx) (s : State) : Csr → Word
  | .teamstat => teamstat c.tm c.f
  | .allot => allotWord c.b c.t c.tm
  | .prio => BitVec.ofNat 64 c.tm.prio
  | .fpflags => BitVec.ofNat 64 c.tm.fpflags
  | .stbcnt => BitVec.ofNat 64 (s.stbcnt c.k c.t)
  | .sigacc => BitVec.ofNat 64 c.tm.sigacc
  | .trapvec => c.tm.trapvec
  | .trapcause => c.tm.trapcause
  | .trappc => c.tm.trappc
  | .trapword => c.tm.trapword
  | .faultstat => c.tm.faultstat
  | .bbase => c.tm.bbase
  | .rowprog => match c.b.seq with
    | some q => q.rowprog
    | none => 0

end Sys2Proof.Machine
end

