-- ==== Sys2Proof/Machine/Operands.lean ====
section
/-!
DEFINITION. Sys2Proof/Machine/Operands.lean: every operand form: register and special sources (R138, R158, R176, R177),
capability checks (R363, R364), lane addresses (R144, R195), translation at issue (R88, R92, R366 to R368), presence
(R100), the loads, stores and atomics that an access starts (R51, R52, R109, R162, R196 to R199, R202), and the
conditions of releases and fences (R111, R112, R284, R417).
-/

namespace Sys2Proof.Machine

/-! ### Sources -/

/-- Where a source value comes from: a vector register, one value for every lane, or the lane number. -/
inductive Src | reg (r : Nat) | val (w : Word) | lid
  deriving DecidableEq, Repr

/-- A special operand (R138). -/
def Ctx.special (c : Ctx) (s : State) : Special → Src
  | .zero => .val 0
  | .lid => .lid
  | .tid => .val (BitVec.ofNat 64 c.t)
  | .bid => .val (BitVec.ofNat 64 c.b.index)
  | .lcnt => .val (BitVec.ofNat 64 c.tm.L)
  | .clock => .val (BitVec.ofNat 64 s.clock)

def Ctx.srcS (c : Ctx) (s : State) : SSrc → Src
  | .s r => .val (c.tm.sreg r.toNat)
  | .spec x => c.special s x
def Ctx.srcV (c : Ctx) (s : State) : VSrc → Src
  | .v r => .reg r.toNat
  | .s r => .val (c.tm.sreg r.toNat)
  | .spec x => c.special s x
def srcVA : VASrc → Src
  | .v r => .reg r.toNat
  | .zero => .val 0
def Ctx.srcSI (c : Ctx) : SIdx → Src
  | .s r => .val (c.tm.sreg r.toNat)
  | .zero => .val 0
def Ctx.srcVI (c : Ctx) : VIdx → Src
  | .v r => .reg r.toNat
  | .s r => .val (c.tm.sreg r.toNat)
  | .zero => .val 0
  | .lid => .lid
def Ctx.srcBI (c : Ctx) : BIdx → Src
  | .s r => .val (c.tm.sreg r.toNat)
  | .zero => .val 0
  | .lid => .lid

/-- The 64-bit lane value of a source (R177). [log 19: DEDUCED] -/
def Src.word (tm : Team) (l : Nat) : Src → Word
  | .reg r => tm.vreg r l
  | .val w => w
  | .lid => BitVec.ofNat 64 l

/-- Sub-element e of width w of a 64-bit value (R66). -/
def subEl (w e : Nat) (x : Word) : Nat := bits x.toNat (w * e) w

/-- `Src(X, l, e)` (R177): a vector register gives its sub-element, any other source bits [w−1:0]. [log 19: DEDUCED] -/
def Src.el (tm : Team) (w l e : Nat) : Src → Nat
  | .reg r => subEl w e (tm.vreg r l)
  | x => subEl w 0 (x.word tm l)

/-- The value of a source that is read once for the fragment: `lid` is the lowest active lane (R138). -/
def Ctx.once (c : Ctx) (x : Src) : Word := x.word c.tm (lowLane c.f.mask)
def Ctx.sval (c : Ctx) (s : State) (x : SSrc) : Word := c.once (c.srcS s x)

/-- The word of n sub-elements of width w given by a function (R66). -/
def packEls (w : Nat) (g : Nat → Nat) : Nat → Nat
  | 0 => 0
  | n + 1 => packEls w g n + g n % 2 ^ w * 2 ^ (w * n)

/-- The registers that sources name, for the interlock (R51). -/
def refSS : SSrc → List RegRef
  | .s r => [.s r.toNat]
  | .spec _ => []
def refVS : VSrc → List RegRef
  | .v r => [.v r.toNat]
  | .s r => [.s r.toNat]
  | .spec _ => []
def refVA : VASrc → List RegRef
  | .v r => [.v r.toNat]
  | .zero => []
def refSI : SIdx → List RegRef
  | .s r => [.s r.toNat]
  | .zero => []
def refVI : VIdx → List RegRef
  | .v r => [.v r.toNat]
  | .s r => [.s r.toNat]
  | _ => []
def refBI : BIdx → List RegRef
  | .s r => [.s r.toNat]
  | _ => []
/-- A written predicate; `p7` is no destination (R51). -/
def refPD (r : PReg) : List RegRef := if r = 7#3 then [] else [.p r.toNat]
/-- Vector registers named in sources, with their FIELD code (R341). -/
def vOfVS (field : Nat) : VSrc → List (Nat × Nat)
  | .v r => [(field, r.toNat)]
  | _ => []
def vOfVA (field : Nat) : VASrc → List (Nat × Nat)
  | .v r => [(field, r.toNat)]
  | .zero => []
def vOfVI (field : Nat) : VIdx → List (Nat × Nat)
  | .v r => [(field, r.toNat)]
  | _ => []

/-! ### Lane results -/

/-- Write a vector register in the lanes of E. -/
def Ctx.setVec (c : Ctx) (E : Mask) (d : Nat) (g : Nat → Word) (s : State) : State :=
  s.modTeam c.k c.t fun tm => tm.setVs d ((lanesOf c.tm.L E).map fun l => (l, g l))
/-- Write a predicate register in the lanes of E. -/
def Ctx.setPred (c : Ctx) (E : Mask) (d : Nat) (g : Nat → Bool) (s : State) : State :=
  s.modTeam c.k c.t fun tm => tm.setPIn d E (maskOf c.tm.L g)
/-- Write a scalar register. -/
def Ctx.setSc (c : Ctx) (d : SReg) (x : Word) (s : State) : State := s.modTeam c.k c.t fun tm => tm.setS d.toNat x
/-- Write a capability register. -/
def Ctx.setCap (c : Ctx) (d : CReg) (x : Cap × Bool) (s : State) : State := s.modTeam c.k c.t fun tm => tm.setC d.toNat x
/-- OR flags. -/
def Ctx.orFl (c : Ctx) (fl : Nat) (s : State) : State := s.modTeam c.k c.t fun tm => tm.orFlags fl

/-! ### Capability checks (R363) -/

/-- One use of a capability by an access: its register, the FIELD that names it, the kinds and permissions that the form
needs, the width and alignment, and each lane's exact address. -/
structure Access where
  cap : Nat
  field : Nat := 6
  kinds : List Nat := [0, 1, 2, 4, 5]
  perm : Nat
  n : Nat
  align : Nat
  addrs : List (Nat × Int)
  once : Bool := false

/-- An address as a number (R364). -/
def addrNat (a : Int) : Nat := (a % (2 : Int) ^ 64).toNat

/-- The first cause of R363 that an access has: code, FIELD, AUX, FAULTSTAT. -/
def Access.cause (tm : Team) (x : Access) : Option (Nat × Nat × Nat × Word) :=
  let cap := (tm.creg x.cap).1
  let tag := (tm.creg x.cap).2
  let base : Int := capBase cap
  let lim : Int := base + capLen cap
  let report := fun (code : Nat) (p : Nat × Int) =>
    (code, x.field, (if x.once then 0 else p.1), faultWord (addrNat p.2) (capKind cap == 1) x.cap)
  match x.addrs with
  | [] => none
  | p :: _ =>
    if !tag then some (report 0x10 p)
    else if !x.kinds.contains (capKind cap) then some (report 0x11 p)
    else if !permOk (capPerm cap) x.perm then some (report 0x12 p)
    else match x.addrs.find? fun q => !(decide (base ≤ q.2) && decide (q.2 + x.n ≤ lim)) with
      | some q => some (report 0x13 q)
      | none => (x.addrs.find? fun q => decide (q.2 % (x.align : Int) ≠ 0)).map (report 0x14)

/-- The first of several causes: the lowest code, then the lowest FIELD (R363). -/
def leastCause (xs : List (Nat × Nat × Nat × Word)) : Option (Nat × Nat × Nat × Word) :=
  xs.foldl (fun best x => match best with
    | none => some x
    | some b => if x.1 < b.1 || (x.1 == b.1 && x.2.1 < b.2.1) then some x else some b) none

/-- The first cause over several capabilities. -/
def firstCause (tm : Team) (xs : List Access) : Option (Nat × Nat × Nat × Word) := leastCause (xs.filterMap (Access.cause tm))

/-- A trap on a cause, or the body. -/
def orTrap (x : Option (Nat × Nat × Nat × Word)) (ok : Act) : Act :=
  match x with
  | some (code, field, aux, fs) => .trap code field aux (some fs)
  | none => ok

/-- A trap on the first cause, or the body. -/
def checked (tm : Team) (xs : List Access) (ok : Act) : Act := orTrap (firstCause tm xs) ok

/-- The exact address of R195. [log 28: DEDUCED] -/
def laneAddr (cap : Cap) (scale : Nat) (x : Word) (disp : Int) : Int :=
  (capBase cap : Int) + (2 : Int) ^ scale * x.toInt + disp

/-- The lane addresses of an access over some lanes (R195). -/
def Ctx.addrs (c : Ctx) (cap : Nat) (scale : BitVec 2) (idx : Src) (disp : BitVec 8) (ls : List Nat) : List (Nat × Int) :=
  ls.map fun l => (l, laneAddr (c.tm.creg cap).1 scale.toNat (idx.word c.tm l) disp.toInt)
/-- The one address of a form that acts once, as lane 0 in reports; `lid` is the lowest active lane (R138). -/
def Ctx.addr1 (c : Ctx) (cap : Nat) (scale : BitVec 2) (idx : Src) (disp : BitVec 8) : List (Nat × Int) :=
  [(lowLane c.f.mask, laneAddr (c.tm.creg cap).1 scale.toNat (c.once idx) disp.toInt)]

/-! ### Translation at issue -/

/-- The TLB that a team's accesses use: its core's, or its stack core's (R88, R296). -/
def State.teamTlb (s : State) (k : Nat) (tm : Team) : List TlbEntry :=
  match tm.stackCoreOf, tm.lifted with
  | some sc, true => (s.stackCore sc).tlb
  | _, _ => (s.core k).tlb

/-- Register a walk, unless the same one is in flight (R88, R368). -/
def State.addWalk (s : State) (k t csn asid va : Nat) (wr fetch : Bool) (word : Word) (cap aux : Nat) : State :=
  let page := va / 65536
  let same := (s.core k).walks.any fun w =>
    w.asid == asid && w.va / 65536 == page && w.team == t && w.csn == csn && (w.wr || !wr)
  if same then s
  else
    let sp := s.space asid
    s.modCore k fun c => { c with walks := c.walks ++
      [{ asid, va, wr, gen := sp.gen, iseq := sp.iseq, team := t, csn, fetch, word, cap, aux }] }

/-- The physical address that a hit gives; a write needs W and D in the entry (R85, R367). [log 18: DEDUCED] -/
def State.hit (s : State) (k : Nat) (tm : Team) (asid va : Nat) (wr : Bool) : Option Nat :=
  match tlbHit s (s.teamTlb k tm) asid va with
  | some e => if wr && !(e.w && e.d) then none else some (e.pa va)
  | none => none

/-- Is every line of [off, off+n) of the scratchpad present (R99, R100)? -/
def Block.present (b : Block) (off n : Nat) : Bool :=
  (upto (off / 256) ((off + n + 255) / 256 - off / 256)).all fun i => (AMap.find? b.sp.absent i).isNone

/-- What an access finds of its lanes: all located, or something to wait for. -/
inductive Located
  | ok (lanes : List LaneAcc)
  | wait (s : State)

/-- A halt request of the issuing instruction (R349, R366). -/
def Ctx.halts (c : Ctx) (code aux : Nat) (fault : Option Word) (s : State) : State :=
  s.haltNow c.k c.t { code, aux, pc := c.f.pc + c.len, word := c.word, lane := lowLane c.f.mask, fault, hnd := c.tm.handler }

/-- A lifted team reaches only device memory of its stack (R297). [log 28: DEDUCED] -/
def Ctx.reaches (c : Ctx) (l : Loc) : Bool :=
  match c.tm.stackCoreOf, c.tm.lifted with
  | some sc, true => match l with
    | .pa a => !isHost a && bits a 36 4 == sc / 4
    | .sp _ _ => false
  | _, _ => true
/-- All lanes are located, or an access of a lifted team outside its stack halts it with REMOTE (R297, R386). -/
def Ctx.inReach (c : Ctx) (s : State) (lanes : List LaneAcc) : Located :=
  if lanes.all fun a => a.absent || c.reaches a.loc then .ok lanes else .wait (c.halts 0x3A 0 none s)

/-- Locate the lanes of an access of n bytes whose addresses have been checked. [log 27: DEDUCED] -/
def Ctx.locate (c : Ctx) (s : State) (x : Access) (wr : Bool) : Located :=
  let addrs := x.addrs
  if capKind (c.tm.creg x.cap).1 = 1 then
    if addrs.all fun p => c.b.present (addrNat p.2 % Config.spBytes) x.n then
      c.inReach s (addrs.map fun p =>
        { lane := p.1, loc := .sp c.k (addrNat p.2 % Config.spBytes), addr := addrNat p.2, absent := false })
    else .wait s
  else
    let tr := addrs.map fun p => (p, s.hit c.k c.tm c.b.asid (addrNat p.2 % 2 ^ 57) wr)
    if tr.all fun x => x.2.isSome then
      c.inReach s (tr.map fun y => { lane := y.1.1, loc := .pa (y.2.getD 0), addr := addrNat y.1.2, absent := false })
    else
      .wait ((tr.filter fun x => x.2.isNone).foldl
        (fun s y => s.addWalk c.k c.t c.csn c.b.asid (addrNat y.1.2 % 2 ^ 57) wr false c.word x.cap (if x.once then 0 else y.1.1)) s)

/-- Fill the TLB that a team uses: its core's, or its stack core's, for which the spec names no size (R88, R296, log 11). [log 11: DESIGN CHOICE] -/
def State.fillTeamTlb (s : State) (k : Nat) (tm : Team) (e : TlbEntry) : State :=
  match tm.stackCoreOf, tm.lifted with
  | some sc, true => s.modStackCore sc fun x => { x with tlb := tlbFill 64 x.tlb e }
  | _, _ => s.modCore k fun x => { x with tlb := tlbFillWays x.tlb e }
/-- What a translation at issue that never parks gives (R91, R365): a physical address, an absent page, tables that are malformed or
poisoned, or a wait for the tables (R308). -/
inductive WalkNow
  | pa (pa : Nat) (s : State)
  | absent (s : State)
  | bad (poison : Bool) (s : State)
  | wait (s : State)
/-- Translate at issue for a read: a miss walks the tables at once, through their home slices, sets A and fills the TLB (R85, R91, R103, R308, R365). -/
def Ctx.walkNow (c : Ctx) (s : State) (va : Nat) : WalkNow :=
  match s.hit c.k c.tm c.b.asid va false with
  | some pa => .pa pa s
  | none =>
    if !s.mayWalk c.b.asid va then .wait (s.askWalk c.k c.b.asid va)
    else match s.walk c.b.asid va with
      | .bad p => .bad p (s.fillWalk c.b.asid va)
      | .absent => .absent (s.fillWalk c.b.asid va)
      | .leaf l fr w d path =>
        let s := (s.fillWalk c.b.asid va).setAD c.b.asid path false
        .pa (fr + va % 2 ^ pageBits l) (s.fillTeamTlb c.k c.tm (leafEntry s c.b.asid va l fr w d))

/-- What the lanes of a load with a residency predicate find (R91): a lane on a non-resident page is marked absent; malformed or poisoned
tables give the lane and the address for the halt (R366, R371). -/
inductive LocatedRp
  | ok (lanes : List LaneAcc) (s : State)
  | bad (lane addr : Nat) (poison : Bool) (s : State)
  | wait (s : State)
/-- Locate the lanes of a load with a residency predicate: each lane is translated at its issue (R91). -/
def Ctx.locateRp (c : Ctx) (cap : Cap) : List (Nat × Int) → State → List LaneAcc → LocatedRp
  | [], s, acc => .ok acc.reverse s
  | p :: ps, s, acc =>
    if capKind cap = 1 then
      c.locateRp cap ps s ({ lane := p.1, loc := .sp c.k (addrNat p.2 % Config.spBytes), addr := addrNat p.2, absent := false } :: acc)
    else match c.walkNow s (addrNat p.2 % 2 ^ 57) with
      | .pa pa s => c.locateRp cap ps s ({ lane := p.1, loc := .pa pa, addr := addrNat p.2, absent := false } :: acc)
      | .absent s => c.locateRp cap ps s ({ lane := p.1, loc := .pa 0, addr := addrNat p.2, absent := true } :: acc)
      | .bad q s => .bad p.1 (addrNat p.2) q s
      | .wait s => .wait s

/-! ### Outstanding results -/

/-- Start a long-latency instruction: its pending entry and its counter (R51, R52). The window is counted from this
instruction, whose own issue takes one off. -/
def Ctx.pend (c : Ctx) (cls : Cls) (la : Nat) (dests : List RegRef) (kind : PendKind) (s : State) : State :=
  let (seq, s) := s.nextSeq
  let counted := match cls with | .spf => false | .page => false | _ => true
  let window := if dests.isEmpty then none else if la = 15 && counted then none else some (la + 1)
  s.modTeam c.k c.t fun tm =>
    let tm := tm.addCount cls
    { tm with pend := tm.pend ++ [{ seq, csn := c.csn, heirs := [c.csn], cls, window, dests, wrote := [], kind, pc := c.f.pc, word := c.word,
                                    lane := lowLane c.f.mask, hnd := c.tm.handler }] }

/-- An acquire by a fragment of core k invalidates the whole L1, or all four slices of a fused one (R101, R110). -/
def State.dropL1 (s : State) (k : Nat) : State :=
  match s.block k with
  | some b =>
    if b.fused then (upto (k / 4 * 4) 4).foldl (fun s i => s.modCore i fun c => { c with l1 := [] }) s
    else s.modCore k fun c => { c with l1 := [] }
  | none => s.modCore k fun c => { c with l1 := [] }
/-- The team's stores and atomics before `seq` that have not been performed and meet a range. [log 12: DESIGN CHOICE] -/
def State.priorTo (s : State) (k t : Nat) (tm : Team) (seq : Nat) (l : Loc) (n : Nat) : List StReq :=
  (((s.core k).path.filter fun r => r.team == t) ++ tm.stb).filter fun r =>
    decide (r.seq < seq) && r.loc.meets r.bytes.length l n
/-- A load that issues now has lanes that an earlier atomic of its team will change: they read at the home (R109). -/
def Ctx.markHome (c : Ctx) (s : State) (n : Nat) (lanes : List LaneAcc) : List LaneAcc :=
  lanes.map fun a => { a with home := !a.absent && (s.priorTo c.k c.t c.tm s.seqNo a.loc n).any fun r => r.atom.isSome }

/-- The acquire scope of an ORD. -/
def acqScope : MOrd → Option Scope
  | .acq x => some x
  | .ar x => some x
  | _ => none
/-- The release scope of an ORD. -/
def relScope : MOrd → Option Scope
  | .rel x => some x
  | .ar x => some x
  | _ => none

/-- The fragment issued a store or an atomic: it is no longer spinning (R49). -/
def Ctx.unspin (c : Ctx) (s : State) : State := s.modFrag c.k c.t c.csn fun f => { f with spin := false, storeAt := s.seqNo }

/-- Enter the lanes of a store or an atomic into the team's store buffer, ascending (R109, R197). -/
def Ctx.enter (c : Ctx) (reqs : List StReq) (s : State) : State :=
  c.unspin (s.modTeam c.k c.t fun tm => { tm with stb := tm.stb ++ reqs })

/-! ### Write paths (R102, R108, R109) -/

/-- The cores that share the L1 and the write path of core k: the four of its cluster when they are fused (R102, R108). -/
def State.gang (s : State) (k : Nat) : List Nat :=
  match s.block k with
  | some b => if b.fused then upto (k / 4 * 4) 4 else [k]
  | none => [k]
/-- The entries of the write path that core k sees, with their cores, in the order in which they entered it (R109). -/
def State.pathOf (s : State) (k : Nat) : List (Nat × StReq) :=
  ((s.gang k).flatMap fun j => (s.core j).path.map fun r => (j, r)).foldl
    (fun l x => insertBy (fun y : Nat × StReq => y.2.entry) x l) []
/-- An entry into the write path of a core (R108). -/
def State.pushPath (s : State) (k : Nat) (r : StReq) : State :=
  let (n, s) := s.nextSeq
  s.modCore k fun c => { c with path := c.path ++ [{ r with entry := n }] }
/-- What names a live block wherever it stands (R20). -/
def Block.key (b : Block) : Nat := 512 * b.vi + b.name
/-- A load of order number `seq` has taken its bytes from the write path: other teams' entries there are in the cumulative set of
its team's later releases (R111). -/
def State.readBy (s : State) (k t seq : Nat) (l : Loc) (n : Nat) : State :=
  let key := (s.block k).elim 0 Block.key
  (s.gang k).foldl (fun s j =>
    if (s.core j).path.any (fun r => r.loc.meets r.bytes.length l n) then
      s.modCore j fun c =>
        let mark : StReq → StReq := fun r => if r.loc.meets r.bytes.length l n then { r with readers := (key, t, seq) :: r.readers } else r
        { c with path := c.path.map mark }
    else s) s

/-! ### Owned rows (R113) -/

/-- The rows that a run holds contain a physical address (R113). -/
def Run.owns (ch : Nat) (r : Run) (pa : Nat) : Bool :=
  r.active && channelOf pa == ch && bits pa 20 16 == r.cmd.rowBase + r.row && bit r.cmd.units (bits pa 15 5 / 2)
/-- Some bank unit owns the row of an address. -/
def State.rowOwned (s : State) (pa : Nat) : Bool :=
  !isHost pa && (s.channel (channelOf pa)).runs.any fun r => r.owns (channelOf pa) pa

/-! ### Subarrays (R116, R282) -/

/-- Bytes of a subarray: 256 rows of 128 bytes (R273). -/
def subBytes : Nat := 32768
/-- The subarrays of a scratchpad range. -/
def subsOf (off n : Nat) : List Nat := upto (off / subBytes) ((off + n - 1) / subBytes + 1 - off / subBytes)
/-- An operation uses a subarray. -/
def ArrOp.uses (op : ArrOp) (sub : Nat) : Bool := op.sub == sub || op.sub2 == sub
/-- All operations that have not ended. -/
def Block.arrOps (b : Block) : List ArrOp := b.subs.flatMap fun q => q.2
/-- A subarray runs an operation, or one with a lower order number waits for it (R116, R282). -/
def Block.subHeld (b : Block) (sub seq : Nat) : Bool :=
  b.arrOps.any fun op => op.uses sub && (op.started || decide (op.seq < seq))
/-- A range of core k's scratchpad has bytes in a subarray. -/
def Loc.inSub (l : Loc) (k sub n : Nat) : Bool :=
  match l with
  | .sp j o => j == k && (subsOf o n).contains sub
  | .pa _ => false
/-- An ordinary access of order number below `seq` has reached a subarray and has still to be served: a load that has not read, the
store at the head of a buffer, or an atomic (R116, R282). Its lines were present when it issued (R100). [log 32: DEDUCED] -/
def Core.reached (c : Core) (k sub seq : Nat) : Bool :=
  match c.block with
  | none => false
  | some b =>
    (b.teams.any fun x => (x.2.pend.any fun p => decide (p.seq < seq) && match p.kind with
        | .load lanes n _ _ _ _ _ _ none => lanes.any fun a => a.loc.inSub k sub n
        | _ => false)
      || match x.2.stb with
        | r :: _ => r.rel.isNone && r.atom.isNone && decide (r.seq < seq) && r.loc.inSub k sub r.bytes.length
        | [] => false)
    || c.path.any fun r => decide (r.seq < seq) && r.loc.inSub k sub r.bytes.length
/-- An access of order number `seq` to a range of core k's scratchpad waits for its subarray: for an operation, or for an access that
reached it earlier (R116, R282). -/
def State.subWaits (s : State) (k off n seq : Nat) : Bool :=
  (subsOf off n).any fun u => ((s.block k).any fun b => b.subHeld u seq) || (s.core k).reached k u seq

/-! ### Releases and fences (R111, R112, R284, R417) -/

/-- Cluster scope or wider (R417). -/
def scopeWide : Scope → Bool
  | .clu | .stk | .dev | .fab => true
  | _ => false

/-- The cluster of a core. -/
def clusterOf (k : Nat) : Nat := k / 4
/-- Does the scope, taken at a core, contain a home slice (R107)? -/
def scopeHome (sc : Scope) (k home : Nat) : Bool :=
  match sc with
  | .clu => home == clusterOf k
  | .stk => home / 8 == clusterOf k / 8
  | .dev | .fab => true
  | _ => false

/-- Every set operation of the team before `seq` whose home the scope contains has been accepted there (R111). -/
def State.setsAccepted (s : State) (k t seq : Nat) (sc : Scope) : Bool :=
  (upto 0 Config.clusters).all fun h =>
    !scopeHome sc k h || (s.cluster h).setq.all fun o => !(o.core == k && o.team == t && decide (o.seq < seq))

/-- Every macro operation of the team before `seq` has ended (R284). -/
def Block.arraysEnded (b : Block) (t seq : Nat) : Bool :=
  b.subs.all fun q => q.2.all fun o => !(o.team == t && decide (o.seq < seq))

/-- Is a byte range of a request in the region that bank or array scope names (R417)? -/
def inRegion (sc : Scope) (region : Loc) (r : StReq) : Bool :=
  match sc, region, r.loc with
  | .bank, .pa a, .pa x => channelOf a == channelOf x
  | .arr, .sp k o, .sp j x => k == j && o / 32768 == x / 32768
  | _, _, _ => false

/-- No load of the team issued before `seq` has still to read (R112). -/
def loadsDone (tm : Team) (seq : Nat) : Bool :=
  tm.pend.all fun p => !(decide (p.seq < seq) && match p.kind with
    | .load _ _ _ _ _ _ _ _ none => true
    | _ => false)
/-- The bank commands of the team before `seq` to the channel of an address have been accepted by its controller (R417). -/
def Team.cmdsAccepted (tm : Team) (seq : Nat) (region : Loc) : Bool :=
  match region with
  | .pa a => tm.cmds.all fun q => !(q.ch == channelOf a && decide (q.seq < seq))
  | .sp _ _ => true
/-- An entry of the write path precedes the release of order number `seq` in the program order of team t of core k's block, or a load of
the team before it has read the entry's value (R111). -/
def inSet (k key t seq : Nat) (x : Nat × StReq) : Bool :=
  (x.1 == k && x.2.team == t && decide (x.2.seq < seq)) || x.2.readers.any fun q => q.1 == key && q.2.1 == t && decide (q.2.2 < seq)

/-- The cumulative set of a release that the team started at order number `seq` is performed at its scope (R108, R111, R417); a load that has
not read is not in it (R111). `region` is the address that bank or array scope names. [log 25: DEDUCED] -/
def State.released (s : State) (k t seq : Nat) (sc : Scope) (region : Loc) : Bool :=
  match s.block k, s.team k t with
  | some b, some tm =>
    let mine := tm.stb.filter fun r => decide (r.seq < seq)
    let path := s.pathOf k
    let set_ := path.filter (inSet k b.key t seq)
    b.arraysEnded t seq &&
    match sc with
    | .lane | .team => true
    | .blk => mine.isEmpty && set_.all fun x => match x.2.loc with
        | .sp _ _ => false
        | .pa _ => true
    | .bank => tm.cmdsAccepted seq region && (mine ++ set_.map fun x => x.2).all fun r => !inRegion sc region r
    | .arr => (mine ++ set_.map fun x => x.2).all fun r => !inRegion sc region r
    | _ => mine.isEmpty && set_.isEmpty && path.all (fun x => decide (seq ≤ x.2.entry))
        && s.setsAccepted k t seq sc
  | _, _ => true

/-- An acquire with no address (R101, R104, R110): the L1 is invalidated, and at cluster scope or wider the slice's
host-memory sectors are dropped. A stack core has no L1 (R296). -/
def Ctx.acquire (c : Ctx) (sc : Scope) (s : State) : State :=
  let s := if c.tm.lifted then s else s.dropL1 c.k
  if scopeWide sc then s.modCluster (clusterOf c.k) fun q => { q with hostl2 := [] } else s

/-- The order number that a parked release keeps: the one of its first attempt. -/
def Ctx.mark (c : Ctx) (s : State) : Nat × State :=
  match c.f.hold with
  | .poll n => (n, s)
  | _ => s.nextSeq

/-- Park until a release is performed, then go on. -/
def Ctx.afterRelease (c : Ctx) (s : State) (sc : Scope) (region : Loc) (go : Nat → State → Act) : Act :=
  let (m, s) := c.mark s
  if s.released c.k c.t m sc region then go m s else .park (.poll m) s

end Sys2Proof.Machine
end

