-- ==== Sys2Proof/Machine/Cache.lean ====
section
/-!
DEFINITION. Sys2Proof/Machine/Cache.lean: the L1 (R101, R102), the view of memory through a core's write path (R109),
fetching (R88, R133, R419), and the clock (R138).
-/

namespace Sys2Proof.Machine

/-- The core whose L1 holds a line: with a fused L1, PA[9:8] selects it (R102). -/
def State.l1Core (s : State) (k pa : Nat) : Nat :=
  match s.block k with
  | some b => if b.fused then k / 4 * 4 + bits pa 8 2 else k
  | none => k
/-- The sector that the L1 of core k holds, as a 256-bit number. -/
def State.l1Get (s : State) (k pa : Nat) : Option Nat := AMap.find? (s.core (s.l1Core k pa)).l1 (pa / 32)
/-- The lines of 256 bytes of which an L1 slice holds sectors (R101). -/
def Core.l1Held (c : Core) : List Nat := c.l1.foldl (fun l x => insSorted (x.1 / 8) l) []
/-- An L1 slice of 256 KiB has no room for a line that it does not hold (R101, R102). -/
def Core.l1Full (c : Core) (line : Nat) : Bool := !c.l1Held.contains line && decide (Config.l1Lines ≤ c.l1Held.length)
/-- Put a sector into the L1: a full slice gives up one of its lines first (R101, log 11). [log 11: DESIGN CHOICE] -/
def State.l1Put (s : State) (k pa x : Nat) : State :=
  let j := s.l1Core k pa
  let s := if (s.core j).l1Full (pa / 256) then
      { s.modCore j (fun c =>
          let gone := nth 0 c.l1Held (Config.freeNat s.freeIx % c.l1Held.length)
          { c with l1 := c.l1.filter fun y => y.1 / 8 != gone }) with freeIx := s.freeIx + 1 }
    else s
  s.modCore j fun c => { c with l1 := AMap.put c.l1 (pa / 32) x }
def State.l1Drop (s : State) (k pa : Nat) : State :=
  s.modCore (s.l1Core k pa) fun c => { c with l1 := AMap.erase c.l1 (pa / 32) }

/-- Replace the bytes of `buf`, which starts at `base`, that `xs` at `a` covers. -/
def overlay (base : Nat) (buf : List Byte) (a : Nat) (xs : List Byte) : List Byte :=
  (buf.zip (upto base buf.length)).map fun p => if a ≤ p.2 ∧ p.2 < a + xs.length then nth 0 xs (p.2 - a) else p.1

/-- Apply the stores of a list, in its order, to bytes that stand at a location (R109). Atomics give nothing. [log 12: DESIGN CHOICE] -/
def overlayStores (loc : Loc) (buf : List Byte) (rs : List StReq) : List Byte :=
  rs.foldl (fun buf r => match r.atom, loc, r.loc with
    | none, .pa b, .pa a => overlay b buf a r.bytes
    | none, .sp k b, .sp j a => if k = j then overlay b buf a r.bytes else buf
    | _, _, _ => buf) buf

/-- The bytes at a location as core k's write path leaves them: every unacknowledged store of it is applied (R109). -/
def State.throughPath (s : State) (k : Nat) (l : Loc) (xs : List Byte) : List Byte :=
  overlayStores l xs ((s.pathOf k).map fun x => x.2)
/-- A fill of the sector that holds pa, from its home slice: it carries every unacknowledged store of the write path that the L1 belongs to
(R102, R103, R109). -/
def State.l1Fill (s : State) (k pa : Nat) : State :=
  let base := pa / 32 * 32
  (s.l2Fill base 32).l1Put k pa (leNat (s.throughPath k (.pa base) (s.mem.bytes base 32)))

/-- A store updates a present sector (R101). -/
def State.l1Store (s : State) (k pa : Nat) (xs : List Byte) : State :=
  (upto (pa / 32) ((pa + xs.length + 31) / 32 - pa / 32)).foldl (fun s u =>
    match s.l1Get k (32 * u) with
    | some x => s.l1Put k (32 * u) (leNat (overlay (32 * u) (bytesOf 32 x) pa xs))
    | none => s) s

/-- Bytes that the L1 holds, when it holds all their sectors. -/
def State.l1Bytes (s : State) (k pa n : Nat) : Option (List Byte) :=
  if (sectorsOf pa n).all fun u => (s.l1Get k (32 * u)).isSome then
    some ((upto pa n).map fun a => nth 0 (bytesOf 32 ((s.l1Get k a).getD 0)) (a % 32))
  else none

/-! ### Fetching -/

/-- What fetching one doubleword finds. -/
inductive Fetched
  | word (w : Word)
  /-- The page has no translation in the TLB. -/
  | miss (va : Nat)
  /-- The L1 does not hold the word (R419), or a stack core has to wait for its sector or its row (R113, R308). -/
  | line (va : Nat)
  /-- A stack core's fetch reads a poisoned unit (R371). -/
  | bad (va : Nat)
  deriving DecidableEq, Repr

/-- The word at pa as the launch of core k's block fetches it (R133). [log 10: DESIGN CHOICE] -/
def State.codeWord (s : State) (k pa : Nat) (xs : List Byte) : Word :=
  let launch := (s.block k).elim 0 Block.launch
  BitVec.ofNat 64 (leNat ((xs.zip (upto pa xs.length)).map fun x => s.codeByte launch x.2 x.1))
/-- Fetch a doubleword through the core's TLB and L1 (R88, R419), or for a lifted team through the stack core's TLB from
memory (R296); what is written over while the launch runs is not seen (R133). [log 10: DESIGN CHOICE] -/
def State.fetchDw (s : State) (k : Nat) (tlb : List TlbEntry) (lifted : Bool) (asid va : Nat) : Fetched :=
  match tlbHit s tlb asid (va % 2 ^ 57) with
  | none => .miss va
  | some e =>
    let pa := e.pa (va % 2 ^ 57)
    if lifted then
      if s.rowOwned pa || !s.mayFill pa 8 then .line va
      else if s.poisonedAt (.pa pa) 8 then .bad va
      else .word (s.codeWord k pa (s.mem.bytes pa 8))
    else match s.l1Bytes k pa 8 with
      | some xs => .word (s.codeWord k pa xs)
      | none => .line va

/-- An instruction with its first word, or what its fetch lacks. -/
inductive Got
  | instr (w : Word) (i : Instr)
  | miss (va : Nat)
  | line (va : Nat)
  | bad (va : Nat)
  deriving DecidableEq, Repr

/-- Fetch and decode the instruction at an address (R133, R137). [log 10: DESIGN CHOICE] -/
def State.fetchTeam (s : State) (k : Nat) (tlb : List TlbEntry) (lifted : Bool) (asid va : Nat) : Got :=
  match s.fetchDw k tlb lifted asid va with
  | .miss a => .miss a
  | .line a => .line a
  | .bad a => .bad a
  | .word w =>
    if wordLen w = 16 then
      match s.fetchDw k tlb lifted asid (va + 8) with
      | .miss a => .miss a
      | .line a => .line a
      | .bad a => .bad a
      | .word w2 => .instr w (decodeTeam w w2)
    else .instr w (decodeTeam w 0)

/-- Fetch and decode the stream word at an address (R150, R224). [log 10: DESIGN CHOICE] -/
def State.fetchStream (s : State) (k asid va : Nat) : Got :=
  match s.fetchDw k (s.core k).tlb false asid va with
  | .miss a => .miss a
  | .line a => .line a
  | .bad a => .bad a
  | .word w => .instr w (match decodeStream w with
    | .ok i => i
    | .error r => .illegalWordIssue r)

end Sys2Proof.Machine
end

