-- ==== Sys2Proof/Machine/Land.lean ====
section
/-!
DEFINITION. Sys2Proof/Machine/Land.lean: how a result that arrives late is written to its register (R51, R52, R54, R165), and
the end of a long-latency instruction.
-/

namespace Sys2Proof.Machine

/-- A later instruction of the window has already written this lane of a destination (R51). -/
def Pend.covered (p : Pend) (r : RegRef) (l : Nat) : Bool := p.wrote.any fun w => w.1 == r && laneIn w.2 l
/-- The same for a register that is written whole. -/
def Pend.coveredAll (p : Pend) (r : RegRef) : Bool := p.wrote.any fun w => w.1 == r

/-- The destinations of an outstanding instruction are lost: nothing lands in them (R410). -/
def Pend.lost (p : Pend) : Pend := { p with kind := p.kind.loseV 0, wrote := p.wrote ++ p.dests.map fun d => (d, fullMask 1024) }
/-- A result that lands has been written over in the older outstanding instructions of its fragment (R51). -/
def Team.landOver (tm : Team) (p : Pend) (r : RegRef) (m : Mask) : Team :=
  { tm with pend := tm.pend.map fun q =>
      if q.seq < p.seq ∧ q.csn = p.csn ∧ q.dests.contains r = true then { q with wrote := q.wrote ++ [(r, m)] } else q }
/-- The lanes of a list of lane results. -/
def lanesMask {α : Type} (xs : List (Nat × α)) : Mask := xs.foldl (fun (m : Mask) x => m ||| BitVec.ofNat 1024 (2 ^ x.1)) 0
/-- Write lane results to a vector register: lanes that have exited, registers returned to the pool and lanes written over
are left (R51, R54, R165). -/
def Team.landV (tm : Team) (p : Pend) (r : Nat) (xs : List (Nat × Word)) : Team :=
  if 8 * tm.G ≤ r then tm
  else
    let ys := xs.filter fun x => !laneIn tm.exited x.1 && !p.covered (.v r) x.1
    (tm.setVs r ys).landOver p (.v r) (lanesMask ys)
/-- Write lane results to a predicate register. -/
def Team.landP (tm : Team) (p : Pend) (r : Nat) (xs : List (Nat × Bool)) : Team :=
  let ys := xs.filter fun x => !laneIn tm.exited x.1 && !p.covered (.p r) x.1
  (tm.setPIn r (lanesMask ys) (lanesMask (ys.filter fun x => x.2))).landOver p (.p r) (lanesMask ys)
/-- Write a scalar result. -/
def Team.landS (tm : Team) (p : Pend) (r : Nat) (x : Word) : Team := if p.coveredAll (.s r) then tm else (tm.setS r x).landOver p (.s r) (fullMask 1024)
/-- Write a capability result. -/
def Team.landC (tm : Team) (p : Pend) (r : Nat) (x : Cap × Bool) : Team := if p.coveredAll (.c r) then tm else (tm.setC r x).landOver p (.c r) (fullMask 1024)

/-- Remove an outstanding instruction. -/
def Team.dropPend (tm : Team) (seq : Nat) : Team := { tm with pend := tm.pend.filter fun p => p.seq != seq }
/-- Change an outstanding instruction. -/
def Team.modPend (tm : Team) (seq : Nat) (f : Pend → Pend) : Team :=
  { tm with pend := tm.pend.map fun p => if p.seq = seq then f p else p }
/-- The outstanding instruction of an order number. -/
def Team.pendOf (tm : Team) (seq : Nat) : Option Pend := tm.pend.find? fun p => p.seq == seq
/-- End an outstanding instruction and lower its counter (R52). -/
def Team.endPend (tm : Team) (p : Pend) : Team := (tm.dropPend p.seq).subCount p.cls

/-- Free bytes: contents that the spec leaves open (log 9). -/
def State.freeBytes (s : State) (n : Nat) : List Byte × State :=
  ((upto s.freeIx n).map Config.freeByte, { s with freeIx := s.freeIx + n })

end Sys2Proof.Machine
end

