-- ==== Sys2Proof/Machine/Packet.lean ====
section
/-!
DEFINITION. Sys2Proof/Machine/Packet.lean: the fields of queue packets (R21, R97, R212, R213) and the checks that an engine makes
before a packet has any effect (R373, R374), the movements of a copy (R213 to R216), names of blocks (R20), and the lines
that copy engines own (R113, R214).
-/

namespace Sys2Proof.Machine

/-! ### Fields -/

/-- Doubleword i of a packet. -/
def pdw (p : List Word) (i : Nat) : Nat := (nth 0 p i).toNat
def pkKind (p : List Word) : Nat := bits (pdw p 0) 0 8
/-- The privileged memory packets (R97). -/
def pkPriv (p : List Word) : Bool := decide (0x10 ≤ pkKind p ∧ pkKind p ≤ 0x12)
def pkDsp (p : List Word) : Bool := !pkPriv p && bit (pdw p 0) 8
def pkSsp (p : List Word) : Bool := !pkPriv p && bit (pdw p 0) 9
def pkInl (p : List Word) : Bool := bit (pdw p 0) 10
def pkInln (p : List Word) : Nat := bits (pdw p 0) 11 3
def pkCkind (p : List Word) : Nat := bits (pdw p 0) 14 2
def pkCcore (p : List Word) : Nat := bits (pdw p 0) 16 9
def pkCts (p : List Word) : Nat := bits (pdw p 0) 25 4
def pkSpcore (p : List Word) : Nat := bits (pdw p 0) 29 9
def pkSwz (p : List Word) : Nat := bits (pdw p 0) 38 2
def pkOp (p : List Word) : Nat := bits (pdw p 0) 40 4
def pkDrem (p : List Word) : Bool := bit (pdw p 0) 47
def pkDdev (p : List Word) : Nat := bits (pdw p 0) 48 16
def pkCaddr (p : List Word) : Nat := bits (pdw p 7) 3 54 * 8
def pkSrc (p : List Word) : Nat := bits (pdw p 1) 0 57
def pkDst (p : List Word) : Nat := bits (pdw p 2) 0 57
def pkBytes (p : List Word) : Nat := bits (pdw p 3) 0 41
def pkRowBytes (p : List Word) : Nat := bits (pdw p 3) 0 32
def pkRows (p : List Word) : Nat := bits (pdw p 3) 32 32
def pkSpitch (p : List Word) : Nat := bits (pdw p 4) 0 41
def pkDpitch (p : List Word) : Nat := bits (pdw p 5) 0 41
def pkTrows (p : List Word) : Nat := bits (pdw p 3) 0 32
def pkRowb (p : List Word) : Nat := bits (pdw p 3) 32 16
/-- The list of indices in memory, and how many there are (R213, R216). -/
def pkIdx (p : List Word) : Nat := bits (pdw p 4) 2 55 * 4
def pkCount (p : List Word) : Nat := if pkInl p then pkInln p + 1 else bits (pdw p 5) 0 32
/-- Inline index j (R213). -/
def pkIndex (p : List Word) (j : Nat) : Nat := bits (pdw p 4 + pdw p 5 * 2 ^ 64 + pdw p 6 * 2 ^ 128) (24 * j) 24
/-- Bytes of a reduce element (R212, R217). -/
def pkElem (p : List Word) : Nat := if pkOp p = 1 then 2 else 4
def pkAsid (p : List Word) : Nat := bits (pdw p 0) 8 10
def pkPage (p : List Word) : Nat := bits (pdw p 1) 16 41
def pkPages (p : List Word) : Nat := bits (pdw p 2) 0 41
/-- The completion word of a packet, if it names one (R97, R212). -/
def pkWord (p : List Word) : Option Nat :=
  if pkPriv p then (if bits (pdw p 3) 3 54 = 0 then none else some (bits (pdw p 3) 3 54 * 8))
  else if pkCkind p % 2 = 1 then some (pkCaddr p) else none
/-- The completion turnstile: its block's name and its index. -/
def pkTurn (p : List Word) : Option (Nat × Nat) :=
  if !pkPriv p && decide (2 ≤ pkCkind p) then some (pkCcore p, pkCts p) else none

/-! ### Checks before any effect (R373, R374) -/

/-- Only bits of [0, n) are set. -/
def only (x n : Nat) : Bool := decide (x < 2 ^ n)
/-- The reserved and unused fields of DW1 to DW6 are 0 (R213); the bits of DW4 to DW6 above the last inline index are not checked.
[log 61: DESIGN CHOICE] -/
def layoutOk (p : List Word) : Bool :=
  let src := fun (n : Nat) => only (pdw p 1) n
  let dst := fun (n : Nat) => only (pdw p 2) n
  let wS := if pkSsp p then 21 else 57
  let wD := if pkDsp p then 21 else 57
  let z := fun (i : Nat) => pdw p i == 0
  match pkKind p with
  | 0x01 => src wS && dst wD && only (pdw p 3) 41 && z 4 && z 5 && z 6
  | 0x02 => src wS && dst wD && only (pdw p 4) 41 && only (pdw p 5) 41 && z 6
  | 0x03 | 0x04 => src wS && dst wD && only (pdw p 3) 48
      && (pkInl p || (only (pdw p 4) 57 && pdw p 4 % 4 == 0 && only (pdw p 5) 32 && z 6))
  | 0x05 | 0x06 => src 57 && dst 57 && only (pdw p 3) 41 && z 4 && z 5 && z 6
  | 0x08 => z 1 && dst 57 && pdw p 2 % 8 == 0 && only (pdw p 4) 1 && z 5 && z 6
  | _ => false
/-- FIELD: a reserved value, a reserved bit, or an unused field that is not 0 (R212, R213). -/
def fieldOk (p : List Word) : Bool :=
  let k := pkKind p
  [1, 2, 3, 4, 5, 6, 8].contains k && bits (pdw p 0) 44 3 == 0 && bits (pdw p 7) 57 6 == 0 && bits (pdw p 7) 0 3 == 0
    && decide (pkSwz p ≤ 1) && (k == 5 && decide (pkOp p ≤ 2) || pkOp p == 0)
    && (decide (2 ≤ pkCkind p) || (pkCcore p == 0 && pkCts p == 0)) && (pkCkind p % 2 == 1 || pkCaddr p == 0)
    && (pkDsp p || pkSsp p || pkSpcore p == 0) && (!pkDsp p || decide (k ≤ 4)) && (!pkSsp p || [1, 2, 4].contains k)
    && (!pkInl p || k == 3 || k == 4) && (!pkDrem p || ([1, 2, 5, 8].contains k && !pkDsp p)) && (pkDrem p || pkDdev p == 0) && layoutOk p
/-- FIELD of the privileged packets (R97). -/
def privFieldOk (p : List Word) : Bool :=
  bits (pdw p 7) 0 63 == 0 && pdw p 4 == 0 && pdw p 5 == 0 && pdw p 6 == 0 && only (pdw p 3) 57 && pdw p 3 % 8 == 0
    && (if pkKind p = 0x12 then only (pdw p 0) 18 && only (pdw p 1) 16 && pdw p 2 == 0
        else only (pdw p 0) (if pkKind p = 0x10 then 20 else 18) && only (pdw p 1) 57 && pdw p 1 % 65536 == 0 && only (pdw p 2) 41)
/-- Bytes of a packet's scratchpad source and destination from their offsets; a scatter may write any row of its table (R99). -/
def spSrcLen (p : List Word) : Nat :=
  match pkKind p with
  | 0x01 => pkBytes p
  | 0x02 => (pkRows p - 1) * pkSpitch p + pkRowBytes p
  | 0x04 => pkCount p * pkRowb p
  | _ => 0
def spDstLen (p : List Word) : Nat :=
  match pkKind p with
  | 0x01 => pkBytes p
  | 0x02 => (pkRows p - 1) * pkDpitch p + pkRowBytes p
  | 0x03 => pkCount p * pkRowb p
  | 0x04 => pkTrows p * pkRowb p
  | _ => 0
/-- LIMIT. -/
def limitOk (p : List Word) : Bool :=
  let k := pkKind p
  (!([1, 5, 6].contains k) || pkBytes p != 0) && (k != 2 || (pkRowBytes p != 0 && pkRows p != 0))
    && (!(k == 3 || k == 4) || (pkRowb p != 0 && pkCount p != 0)) && (pkInl p || pkInln p == 0)
    && (pkSwz p == 0 || ((k == 2 || k == 3) && pkDsp p)) && (!pkSsp p || decide (pdw p 1 + spSrcLen p ≤ Config.spBytes))
    && (!pkDsp p || decide (pdw p 2 + spDstLen p ≤ Config.spBytes))
/-- ALIGN. -/
def alignOk (p : List Word) : Bool :=
  let k := pkKind p
  (k != 5 || (pkBytes p % pkElem p == 0 && pkDst p % pkElem p == 0))
    && (pkSwz p == 0 || ((if k = 2 then pkRowBytes p else pkRowb p) % 256 == 0 && pkDst p % 256 == 0 && (k != 2 || pkDpitch p % 256 == 0)))
/-- The code that a packet of a queue fails with before it has any effect: FIELD, LIMIT, ALIGN or PRIV. -/
def packetCheck (priv : Bool) (vi : Nat) (p : List Word) : Option Nat :=
  if pkPriv p then
    if !privFieldOk p then some 0x01 else if priv && pkAsid p / 16 == vi then none else some 0x04
  else if !fieldOk p then some 0x01 else if !limitOk p then some 0x02 else if !alignOk p then some 0x03 else none

/-! ### Movements (R213, R215, R216) -/

/-- The part of a movement on a 256-byte line. -/
def Move.part (m : Move) (line : Nat) : Option (Nat × Nat) :=
  let lo := max m.dst (256 * line)
  let hi := min (m.dst + m.n) (256 * line + 256)
  if lo < hi then some (lo, hi) else none
/-- A movement without its part on a line. -/
def Move.minus (m : Move) (line : Nat) : List Move :=
  match m.part line with
  | none => [m]
  | some (lo, hi) =>
    let before : Move := { m with n := lo - m.dst }
    let after : Move := { m with src := m.src.map fun a => a + (hi - m.dst), dst := hi, n := m.dst + m.n - hi }
    [before, after].filter fun x => x.n != 0
/-- The source index of byte i of a line's part: a swizzled row exchanges its sectors (R215). -/
def Move.from_ (m : Move) (i : Nat) : Nat := if m.swz = 0 then i else Nat.xor i (32 * m.swz)
/-- A movement writes a line. -/
def Move.meets (m : Move) (line : Nat) : Bool := (m.part line).isSome

/-- The rows of a copy whose indices, where it takes any, are known: its movements and its clips (R213, R216). -/
def packetMoves (p : List Word) (ix : List Nat) : List Move × Nat :=
  let sw := fun (r : Nat) => if pkSwz p = 1 then r % 8 else 0
  match pkKind p with
  | 0x02 => ((upto 0 (pkRows p)).map fun r =>
      { src := some (pkSrc p + r * pkSpitch p), dst := pkDst p + r * pkDpitch p, n := pkRowBytes p, swz := sw r }, 0)
  | 0x03 => ((ix.zip (upto 0 ix.length)).map fun x =>
      { src := if pkTrows p ≤ x.1 then none else some (pkSrc p + x.1 * pkRowb p), dst := pkDst p + x.2 * pkRowb p
        n := pkRowb p, swz := sw x.2 }, (ix.filter fun x => decide (pkTrows p ≤ x)).length)
  | 0x04 => (((ix.zip (upto 0 ix.length)).filter fun x => decide (x.1 < pkTrows p)).map fun x =>
      { src := some (pkSrc p + x.2 * pkRowb p), dst := pkDst p + x.1 * pkRowb p, n := pkRowb p, swz := 0 },
      (ix.filter fun x => decide (pkTrows p ≤ x)).length)
  | _ => ([{ src := some (pkSrc p), dst := pkDst p, n := pkBytes p, swz := 0 }], 0)

/-- The scratchpad lines whose presence bits a copy clears when it is issued (R99), below the end of the requested area. -/
def spLines (p : List Word) (area : Nat) : List Nat :=
  let lines := fun (a n : Nat) => if n = 0 then [] else upto (a / 256) ((a + n - 1) / 256 + 1 - a / 256)
  match pkKind p with
  | 0x01 => lines (pdw p 2) (pkBytes p)
  | 0x02 => (upto 0 (pkRows p)).flatMap fun r => lines (pdw p 2 + r * pkDpitch p) (pkRowBytes p)
  | 0x03 => lines (pdw p 2) (pkCount p * pkRowb p)
  | 0x04 => lines (pdw p 2) (min (pkTrows p * pkRowb p) (area - pdw p 2))
  | _ => []

/-- The 64 KiB pieces of a range: start and length. -/
def pieces (a n : Nat) : List (Nat × Nat) :=
  (upto (a / 65536) ((a + n + 65535) / 65536 - a / 65536)).map fun p =>
    (max a (65536 * p), min (a + n) (65536 * p + 65536) - max a (65536 * p))

/-! ### Launches of a queue (R26, R28) -/

/-- Blocks of a launch. -/
def lpBlocks (p : List Word) : Nat := bits (pdw p 3) 0 32
/-- The words that a launch waits on and that it completes at (R21). -/
def lpWaddr (p : List Word) : Nat := bits (pdw p 5) 3 54 * 8
def lpDaddr (p : List Word) : Nat := bits (pdw p 7) 3 54 * 8
/-- A launch still has blocks to dispatch. -/
def Launch.undone (l : Launch) : Bool := decide (l.next < lpBlocks l.pkt)
/-- A completion action waits for its page: it holds its queue (R28). -/
def QueueSlot.actionHeld (q : QueueSlot) : Bool := q.launches.any fun l => l.wait.isSome && l.live == 0 && !l.undone

/-! ### Names (R20) -/

/-- Where the block that carries a name is: on a core, or saved. -/
inductive Named | on (core : Nat) | kept (i : Nat)
  deriving DecidableEq, Repr
/-- The live block of an interface that carries a name (R20). -/
def State.named (s : State) (vi name : Nat) : Option Named :=
  match List.find? (fun (c : Nat × Core) => match c.2.block with | some b => b.vi == vi && b.name == name | none => false) s.cores with
  | some c => some (.on c.1)
  | none => (findIx (fun x : Saved => x.vi == vi && x.block.name == name) s.saved 0).map fun x => .kept x.1
/-- The turnstiles of a saved block that differ from an earlier form of it are written into its save slot (R20, R329). -/
def State.saveTurnstiles (s : State) (x : Saved) (old : Block) : State :=
  (upto 0 16).foldl (fun s t =>
    if (x.block.turnstile t).dw = (old.turnstile t).dw then s
    else s.writeFor x.vi (.pa (s.saveSlot x.vi x.slotIx + 128 + 8 * t)) (bytesOf 8 (x.block.turnstile t).dw)) s
/-- Change the named block where it is. -/
def State.modNamed (s : State) (n : Named) (f : Block → Block) : State :=
  match n with
  | .on k => s.modBlock k f
  | .kept i => match s.saved[i]? with
    | none => s
    | some x =>
      let y : Saved := { x with block := f x.block }
      ({ s with saved := setNth s.saved i y } : State).saveTurnstiles y x.block
def State.namedBlock (s : State) (n : Named) : Option Block :=
  match n with
  | .on k => s.block k
  | .kept i => (s.saved[i]?).map Saved.block
/-- Bytes of a block's requested area (R17). -/
def Block.area (b : Block) : Nat := 256 * b.splines

/-! ### Ownership (R113, R214) -/

/-- A packet whose destination lines an engine of this device owns: a copy into memory. -/
def ownsLines (p : List Word) (dsp : Bool) : Bool := !dsp && [1, 2, 3, 4, 6].contains (pkKind p)
/-- The lines of a packet's destination that have still to land contain a physical address. -/
def State.linesHold (s : State) (asid pa : Nat) (moves : List Move) (lines : List Nat) : Bool :=
  let hit := fun (va n : Nat) => match s.walk asid (va % 2 ^ 57) with
    | .leaf lv fr _ _ _ =>
      let a := fr + va % 2 ^ pageBits lv
      decide (a / 256 ≤ pa / 256 ∧ pa / 256 ≤ (a + n - 1) / 256)
    | _ => false
  (moves.any fun m => (pieces m.dst m.n).any fun p => hit p.1 p.2) || lines.any fun l => hit (256 * l) 256
/-- What a copy engine owns: its place in issue order, the space, the movements, and the lines read and not landed. -/
structure EngineWork where
  issueNo : Nat
  asid : Nat
  moves : List Move
  lines : List Nat
/-- The packets of copy engines that own lines. -/
def State.engineWork (s : State) : List EngineWork :=
  (s.slots.flatMap fun x => match x.2.started with
    | none => []
    | some st => if ownsLines st.pkt (pkDsp st.pkt || pkDrem st.pkt) then
        [{ issueNo := st.issueNo, asid := x.2.asid, moves := st.moves, lines := st.got.map LineData.line }] else [])
  ++ s.inbound.flatMap fun x => if ownsLines x.pkt (pkDsp x.pkt) then
      [{ issueNo := x.issueNo, asid := x.asid, moves := x.moves, lines := [] }] else []
/-- Some copy engine owns the line of a physical address. -/
def State.engineOwns (s : State) (pa : Nat) : Bool := s.engineWork.any fun x => s.linesHold x.asid pa x.moves x.lines
/-- The physical lines that copy engines own. -/
def State.engineLines (s : State) : List Nat :=
  s.engineWork.flatMap fun x =>
    let at_ := fun (va n : Nat) => match s.walk x.asid (va % 2 ^ 57) with
      | .leaf lv fr _ _ _ =>
        let a := fr + va % 2 ^ pageBits lv
        upto (a / 256) ((a + n - 1) / 256 + 1 - a / 256)
      | _ => []
    (x.moves.flatMap fun m => (pieces m.dst m.n).flatMap fun p => at_ p.1 p.2) ++ x.lines.flatMap fun l => at_ (256 * l) 256

end Sys2Proof.Machine
end

