-- ==== Sys2Proof/Machine/Owned.lean ====
section
/-!
DEFINITION. Sys2Proof/Machine/Owned.lean: the lines that matrix sequencers, copy engines and bank units own, and who waits for them
(R113, R214, R236).
-/

namespace Sys2Proof.Machine

/-! ### Transfers (R226, R236) -/

def Tile.word (t : Tile) (i : Nat) : Nat := (nth 0 t.dw i).toNat
def Tile.addr (t : Tile) : Nat := bits (t.word 0) 0 57
/-- The pitch: of the record, or of a tensor's KSPEC (R226, R93). -/
def Tile.pitch (t : Tile) : Nat := if capKind t.cap = 2 then 2 ^ bits (capKspec t.cap) 0 6 else bits (t.word 1) 0 41
def Tile.rows (t : Tile) : Nat := bits (t.word 2) 0 8
def Tile.cols (t : Tile) : Nat := bits (t.word 2) 16 14
/-- Bytes of an element in memory. -/
def Transfer.es (x : Transfer) : Nat := if x.ty = 0x0A then 2 else 4
/-- Row r: its address, and its bytes. -/
def Transfer.span (x : Transfer) (r : Nat) : Nat × Nat := (x.tile.addr + r * x.tile.pitch, x.tile.cols * x.es)
/-- Where a span through a descriptor lies, as far as its pages are resident. -/
def State.spanLocs (s : State) (k : Nat) (b : Block) (t : Tile) (x : Nat × Nat) : List (Loc × Nat) :=
  if capKind t.cap = 1 then [(.sp k (x.1 % Config.spBytes), x.2)]
  else (pieces x.1 x.2).filterMap fun p => match s.walk b.asid (p.1 % 2 ^ 57) with
    | .leaf lv fr _ _ _ => some (.pa (fr + p.1 % 2 ^ pageBits lv), p.2)
    | _ => none

/-- A transfer with its block and core; a saved block has a number that no core has. -/
structure LiveXfer where
  k : Nat
  b : Block
  x : Transfer
/-- The transfers of all blocks, the saved ones too: one that waits for a page keeps its lines (R113, R236). -/
def State.liveXfers (s : State) : List LiveXfer :=
  let of_ := fun (k : Nat) (b : Block) => (b.seq.elim [] Seq.xfers).map fun x => ({ k, b, x } : LiveXfer)
  (s.cores.flatMap fun c => c.2.block.elim [] (of_ c.1))
    ++ (s.saved.zip (upto Config.cores s.saved.length)).flatMap fun y => of_ y.2 y.1.block

/-! ### Lines that an `m.acst` owns (R113, R236) -/

/-- The start of the 256-byte line of a location. -/
def Loc.line : Loc → Loc
  | .pa a => .pa (a / 256 * 256)
  | .sp k o => .sp k (o / 256 * 256)
/-- One of the rows of a transfer has bytes on the line of a location. -/
def State.xferMeets (s : State) (y : LiveXfer) (rows : List Nat) (l : Loc) : Bool :=
  rows.any fun r => (s.spanLocs y.k y.b y.x.tile (y.x.span r)).any fun z => l.line.meets 256 z.1 z.2
/-- An `m.acst` owns the line of a location: a row that it has still to store has bytes there. -/
def State.xferOwns (s : State) (y : LiveXfer) (l : Loc) : Bool :=
  y.x.store && s.xferMeets y (upto y.x.row (y.x.tile.rows - y.x.row)) l
/-- It has stored a part of the line. -/
def State.xferPartial (s : State) (y : LiveXfer) (l : Loc) : Bool := s.xferOwns y l && s.xferMeets y (upto 0 y.x.row) l
/-- A line that some `m.acst` owns. -/
def State.matrixOwned (s : State) (l : Loc) : Bool := s.liveXfers.any fun y => s.xferOwns y l
/-- An access of order number n waits at a line that an `m.acst` owns: one that began before it, or that has stored a part of the line. -/
def State.xferHolds (s : State) (self n : Nat) (l : Loc) : Bool :=
  s.liveXfers.any fun y => y.x.seq != self && s.xferOwns y l && (decide (y.x.seq < n) || s.xferPartial y l)

/-! ### Who waits (R113) -/

/-- An agent of order number n, which may be the transfer of order number `self`, waits for a line at a location: a bank unit has taken its
row, or a copy engine or an `m.acst` that began earlier owns it, or an `m.acst` has stored a part of it (R113, R214, R236). -/
def State.agentWaits (s : State) (self n : Nat) (l : Loc) : Bool :=
  (match l with
    | .pa a => s.rowOwned a || s.engineWork.any fun x => decide (x.issueNo < n) && s.linesHold x.asid a x.moves x.lines
    | .sp _ _ => false)
  || s.xferHolds self n l
/-- The same over every line of a range. -/
def State.agentWaitsOver (s : State) (self n : Nat) (l : Loc) (len : Nat) : Bool :=
  match l with
  | .pa a => (linesOf a len).any fun u => s.agentWaits self n (.pa (256 * u))
  | .sp k o => (linesOf o len).any fun u => s.agentWaits self n (.sp k (256 * u))
/-- A thread access of order number `seq` reaches a line or row that an engine owns: it waits (R113). In the scratchpad, whose subarrays
serve in the order of arrival, an access that was there first does not wait for an `m.acst` that has stored no part of the line (R282).
[log 20: DESIGN CHOICE] -/
def State.owned (s : State) (seq : Nat) (l : Loc) : Bool :=
  match l with
  | .pa a => s.rowOwned a || s.engineOwns a || s.matrixOwned l
  | .sp _ _ => s.xferHolds seq seq l

/-- A copy that started before `issueNo` has still to land on a line of a block's scratchpad (R99). -/
def State.landBefore (s : State) (vi name line issueNo : Nat) : Bool :=
  s.slots.any fun x => x.1 / 32 == vi && match x.2.started with
    | none => false
    | some st => pkDsp st.pkt && pkSpcore st.pkt == name && decide (st.issueNo < issueNo)
        && (if st.expanded then st.moves.any (fun m => m.meets line) || st.got.any fun d => d.line == line
            else (spLines st.pkt Config.spBytes).contains line)

end Sys2Proof.Machine
end

