-- ==== Sys2Proof/Machine/ArrayInstr.lean ====
section
/-!
DEFINITION. Sys2Proof/Machine/ArrayInstr.lean: arithmetic in the subarrays (R116, R273 to R292, R387, R400 to R403): the array
instructions, and the start and the end of the macro operations that they queue.
-/

namespace Sys2Proof.Machine

/-! ### Rows and columns (R273, R274) -/

/-- Offset of row r of subarray s (R273). -/
def rowOff (sub r : Nat) : Nat := subBytes * sub + 128 * r
/-- Row r as 1,024 bits, bit c for column c. -/
def Scratch.row (p : Scratch) (sub r : Nat) : Nat := leNat (p.read (rowOff sub r) 128)
/-- n rows from r. -/
def Scratch.rows (p : Scratch) (sub r n : Nat) : List Nat := (upto r n).map (p.row sub)
/-- `Elem` (R274): the element of column c in a list of bit-planes, lowest first. -/
def elemOf (planes : List Nat) (c : Nat) : Nat := planes.foldr (fun p a => b01 (bit p c) + 2 * a) 0
/-- A row from its columns. -/
def rowFrom (f : Nat → Bool) : Nat → Nat
  | 0 => 0
  | n + 1 => rowFrom f n + b01 (f n) * 2 ^ n
/-- The planes of n bits of a value per column. -/
def planesFrom (n : Nat) (f : Nat → Nat) : List Nat := (upto 0 n).map fun i => rowFrom (fun c => bit (f c) i) 1024
/-- All 1,024 columns. -/
def allCols : Nat := 2 ^ 1024 - 1
/-- Mix two rows by a column mask. -/
def mixRow (m new old : Nat) : Nat := (new &&& m) + (old &&& (allCols - m))

/-- `Writes` (R275): the columns that an operation writes. -/
def Scratch.writes (p : Scratch) (sub prow : Nat) : Nat := if prow = 0xFF then allCols else p.row sub prow

/-- The columns computed by a form of R288 (width w): a result of `binWidth` bits for each column. -/
def binOp (func var w a b : Nat) : Nat :=
  match func, var with
  | 3, 0 => Nat.land a b
  | 3, 1 => 2 ^ w - 1 - Nat.lor a b
  | 3, 2 => Nat.lor a b
  | 3, _ => Nat.xor a b
  | 4, _ => (a + b) % 2 ^ w
  | 5, _ => (a + 2 ^ w - b) % 2 ^ w
  | 6, 2 => wrap (2 * w) (sgn w a * sgn w b)
  | 6, _ => a * b
  | 7, 0 => b01 (a == b)
  | 7, 1 => b01 (decide (a < b))
  | _, _ => b01 (decide (sgn w a < sgn w b))
/-- Destination rows of a two-operand form (R288, R289). -/
def binWidth (func w : Nat) : Nat := if func = 6 then 2 * w else if func = 7 then 1 else w

/-! ### Poison (R401) -/

/-- Segments j of a row whose 8-byte unit is poisoned. [log 32: DEDUCED] -/
def Scratch.badSegs (p : Scratch) (sub r : Nat) : List Nat :=
  (upto 0 16).filter fun j => p.poison.contains (rowOff sub r / 8 + j)
/-- The same for several rows. [log 32: DEDUCED] -/
def Scratch.badOf (p : Scratch) (sub : Nat) (rs : List Nat) : List Nat :=
  rs.foldl (fun l r => (p.badSegs sub r).foldl (fun l j => insSorted j l) l) []
/-- The predicate row, when one is used. -/
def predRow (prow : Nat) : List Nat := if prow = 0xFF then [] else [prow]

/-! ### What an operation computes from its sources (R283, R286 to R291) -/

/-- Its result rows: the first row, the rows and the column mask; or the bytes of a word layout; with the segments that
poison spoils. -/
structure ArrOut where
  bytes : List (Nat × Byte)
  poison : List Nat
  count : Nat
  bad : Option Nat

/-- Destination rows with a mask: bytes, and units that are poisoned after the operation (R283, R370, R401). -/
def Scratch.rowsOut (p : Scratch) (sub d m : Nat) (rows : List Nat) (bad : List Nat) : ArrOut :=
  let rs := (upto d rows.length).zip rows
  { bytes := rs.flatMap fun x =>
      (upto (rowOff sub x.1) 128).zip (bytesOf 128 (mixRow m x.2 (p.row sub x.1)))
    poison := rs.flatMap fun x => ((upto 0 16).filter fun j =>
      bad.contains j || (p.poison.contains (rowOff sub x.1 / 8 + j) && bits m (64 * j) 64 != 2 ^ 64 - 1)).map fun j =>
        rowOff sub x.1 / 8 + j
    count := 0, bad := none }

/-- The result of an operation (R286 to R291, R401, R403). -/
def Scratch.compute (p : Scratch) (op : ArrOp) : ArrOut :=
  let m := p.writes op.sub op.prow
  let pr := predRow op.prow
  let w := op.w
  match op.kind with
  | .fill d v => p.rowsOut op.sub d m ((upto 0 w).map fun i => if bit v i then allCols else 0) (p.badOf op.sub pr)
  | .bin func var d a b =>
    let A := p.rows op.sub a w
    let B := p.rows op.sub b w
    let bad := p.badOf op.sub (upto a w ++ upto b w ++ pr)
    if func = 8 then
      p.rowsOut op.sub d allCols ((A.zip B).map fun x => mixRow m x.1 x.2) bad
    else
      p.rowsOut op.sub d m (planesFrom (binWidth func w) fun c => binOp func var w (elemOf A c) (elemOf B c)) bad
  | .shf d a k =>
    let src := fun (c : Nat) => ((c : Int) - k)
    let inside := fun (c : Nat) => decide (0 ≤ src c) && decide (src c ≤ 1023)
    let rows := (p.rows op.sub a w).map fun r => rowFrom (fun c => inside c && bit r (src c).toNat) 1024
    let bs := p.badOf op.sub (upto a w)
    let moved := (upto 0 16).filter fun j => (upto (64 * j) 64).any fun c => inside c && bs.contains ((src c).toNat / 64)
    p.rowsOut op.sub d m rows (moved ++ p.badOf op.sub pr)
  | .tld off d =>
    let x := leNat (p.read off (128 * w))
    let bad := (upto 0 16).filter fun j => (upto (off / 8 + w * j) w).any fun u => p.poison.contains u
    p.rowsOut op.sub d m (planesFrom w fun c => bits x (w * c) w) (bad ++ p.badOf op.sub pr)
  | .tst off d =>
    let A := p.rows op.sub d w
    let old := leNat (p.read off (128 * w))
    let new := packEls w (fun c => if bit m c then elemOf A c else bits old (w * c) w) 1024
    let bs := p.badOf op.sub (upto d w ++ pr)
    { bytes := (upto off (128 * w)).zip (bytesOf (128 * w) new)
      poison := ((upto 0 (16 * w)).filter fun u => bs.contains (u / w)
        || (p.poison.contains (off / 8 + u) && (upto (64 * u / w) (64 / w)).any fun c => !bit m c)).map fun u => off / 8 + u
      count := 0, bad := none }
  | .popc a =>
    let n := (p.rows op.sub a w).foldl (fun n r => n + popc 1024 (Nat.land r m)) 0
    let units := (upto a w ++ pr).flatMap fun r => (p.badSegs op.sub r).map fun j => rowOff op.sub r + 8 * j
    { bytes := [], poison := [], count := n,
      bad := units.foldl (fun b u => match b with | none => some u | some v => some (min u v)) none }

/-! ### Queues (R280, R282) -/

/-- Operations that have reached a subarray and not started (R280). -/
def Block.queued (b : Block) (sub : Nat) : Nat := (b.arrOps.filter fun op => op.uses sub && !op.started).length

/-! ### Issue -/

/-- The index of a subarray that a capability names (R277). [log 28: DEDUCED] -/
def subIndex (cap : Cap) : Nat := bits (capBase cap) 15 6
/-- The check of SUBCAP (R277, R363, R387). [log 32: DEDUCED] -/
def subAccess (c : Ctx) (sub : CReg) (perm : Nat) : Access :=
  let cap := (c.tm.creg sub.toNat).1
  { cap := sub.toNat, field := 9, kinds := [1], perm, n := subBytes, align := subBytes, once := true,
    addrs := [(lowLane c.f.mask, (capBase cap : Int))] }

/-- Rows of one operand: its FIELD, its first row and how many. -/
abbrev RowUse := Nat × Nat × Nat
/-- The first row range past 255 (R274, R387). -/
def rowFault (xs : List RowUse) : Option Nat := (xs.find? fun x => decide (256 < x.2.1 + x.2.2)).map fun x => x.1

/-- Queue an operation: presence of every line that it uses (R285), room in its subarrays (R280), then ARRCNT (R281). -/
def Ctx.queueOp (c : Ctx) (s : State) (la : BitVec 4) (sub sub2 w prow : Nat) (kind : ArrKind) (ranges : List (Nat × Nat))
    (dst : Option Nat) : Act :=
  if !(ranges.all fun r => c.b.present r.1 r.2) then .wait s
  else if Config.subQueue ≤ c.b.queued sub ∨ Config.subQueue ≤ c.b.queued sub2 then .wait s
  else
    let seq := s.seqNo
    let s := c.pend .arr la.toNat (match dst with | some d => [.s d] | none => []) (.arr dst sub false none) s
    let op : ArrOp := { seq, team := c.t, sub, sub2, w, prow, kind, started := false, writes := [], poison := [], count := 0,
                        bad := none }
    .done (s.modBlock c.k fun b => { b with subs := AMap.put b.subs sub (AMap.get [] b.subs sub ++ [op]) })

/-- An array form without a word layout: rows, SUBCAP, then the queue. -/
def arrIssue (g : Guard) (la : BitVec 4) (sub : CReg) (wm1 : BitVec 5) (prow : BitVec 8) (perm : Nat)
    (rows : Nat → List RowUse) (dst : Option SReg) (reads : List RegRef) (kind : Ctx → ArrKind) : Issue :=
  { g, reads := .c sub.toNat :: reads, writes := (match dst with | some d => [.s d.toNat] | none => []), counts := some .arr,
    vectorOnly := true, access := true,
    body := fun c _ s =>
      let w := wm1.toNat + 1
      let use := rows w ++ (predRow prow.toNat).map fun r => (8, r, 1)
      match rowFault use with
      | some f => .trap 0x06 f 0 none
      | none =>
        let perm := if prow = 0xFF#8 then perm else perm ||| permRD
        let n := subIndex (c.tm.creg sub.toNat).1
        checked c.tm [subAccess c sub perm] <|
          c.queueOp s la n n w prow.toNat (kind c) (use.map fun x => (rowOff n x.2.1, 128 * x.2.2)) (dst.map BitVec.toNat) }

/-- `a.tld` and `a.tst` (R286, R387): the region lies in one subarray. -/
def trIssue (o : ATr) (store : Bool) : Issue :=
  { g := o.g, reads := [.c o.sub.toNat, .c o.cap.toNat, .s o.off.toNat], counts := some .arr, vectorOnly := true,
    access := true,
    body := fun c _ s =>
      let w := o.wm1.toNat + 1
      let use : List RowUse := (5, o.row.toNat, w) :: (predRow o.prow.toNat).map fun r => (8, r, 1)
      match rowFault use with
      | some f => .trap 0x06 f 0 none
      | none =>
        if !([1, 2, 4, 8, 16, 32].contains w) then .trap 0x06 9 0 none
        else
          let perm := (if store then permRD else permWR) ||| (if o.prow = 0xFF#8 then 0 else permRD)
          let n := subIndex (c.tm.creg o.sub.toNat).1
          let cap := (c.tm.creg o.cap.toNat).1
          let a : Int := (capBase cap : Int) + (c.tm.sreg o.off.toNat).toInt
          let word : Access := { cap := o.cap.toNat, kinds := [1], perm := if store then permWR else permRD, n := 128 * w,
                                 align := 128, once := true, addrs := [(lowLane c.f.mask, a)] }
          let wc := word.cause c.tm
          let inner := match wc with
            | none => true
            | some x => x.1 == 0x14
          let off := addrNat a % Config.spBytes
          let across := if inner && decide (1 < (subsOf off (128 * w)).length) then
              [(0x13, 6, 0, faultWord (addrNat a) true o.cap.toNat)] else []
          orTrap (leastCause ([(subAccess c o.sub perm).cause c.tm, wc].filterMap id ++ across)) <|
            c.queueOp s o.la n (off / subBytes) w o.prow.toNat (if store then .tst off o.row.toNat else .tld off o.row.toNat)
              ((off, 128 * w) :: use.map fun x => (rowOff n x.2.1, 128 * x.2.2)) none }
/-- `a.tld` -/
def issueATld (o : ATr) : Issue := trIssue o false
def execATld (o : ATr) (s : State) : Res := s.issue (issueATld o)
/-- `a.tst` -/
def issueATst (o : ATr) : Issue := trIssue o true
def execATst (o : ATr) (s : State) : Res := s.issue (issueATst o)

/-- `a.fill` (R287). -/
def issueAFill (o : AFill) : Issue :=
  arrIssue o.g o.la o.sub o.wm1 o.prow permWR (fun w => [(5, o.row.toNat, w)]) none [.s o.b.toNat]
    fun c => .fill o.row.toNat (c.tm.sreg o.b.toNat).toNat
def execAFill (o : AFill) (s : State) : Res := s.issue (issueAFill o)

/-- The two-operand forms (R288). -/
def binIssue (o : ABin) (func : Nat) : Issue :=
  arrIssue o.g o.la o.sub o.wm1 o.prow (permRD + permWR)
    (fun w => [(5, o.d.toNat, binWidth func w), (6, o.a.toNat, w), (7, o.b.toNat, w)]) none []
    fun _ => .bin func o.var.toNat o.d.toNat o.a.toNat o.b.toNat
/-- `a.log` -/
def issueALog (o : ABin) : Issue := binIssue o 3
def execALog (o : ABin) (s : State) : Res := s.issue (issueALog o)
/-- `a.add` -/
def issueAAdd (o : ABin) : Issue := binIssue o 4
def execAAdd (o : ABin) (s : State) : Res := s.issue (issueAAdd o)
/-- `a.sub` -/
def issueASub (o : ABin) : Issue := binIssue o 5
def execASub (o : ABin) (s : State) : Res := s.issue (issueASub o)
/-- `a.mul` -/
def issueAMul (o : ABin) : Issue := binIssue o 6
def execAMul (o : ABin) (s : State) : Res := s.issue (issueAMul o)
/-- `a.cmp` -/
def issueACmp (o : ABin) : Issue := binIssue o 7
def execACmp (o : ABin) (s : State) : Res := s.issue (issueACmp o)
/-- `a.sel` (R289): PROW is the chooser row. -/
def issueASel (o : ABin) : Issue := binIssue o 8
def execASel (o : ABin) (s : State) : Res := s.issue (issueASel o)

/-- `a.shf` (R290). -/
def issueAShf (o : AShf) : Issue :=
  arrIssue o.g o.la o.sub o.wm1 o.prow (permRD + permWR) (fun w => [(5, o.d.toNat, w), (6, o.a.toNat, w)]) none []
    fun _ => .shf o.d.toNat o.a.toNat o.k.toInt
def execAShf (o : AShf) (s : State) : Res := s.issue (issueAShf o)

/-- `a.popc` (R291). -/
def issueAPopc (o : APopc) : Issue :=
  arrIssue o.g o.la o.sub o.wm1 o.prow permRD (fun w => [(6, o.a.toNat, w)]) (some o.d) [] fun _ => .popc o.a.toNat
def execAPopc (o : APopc) (s : State) : Res := s.issue (issueAPopc o)

/-- `a.wait` (R292): it parks until the team's earlier operations that use the subarray have ended. -/
def issueAWait (o : AWait) : Issue :=
  { g := o.g, reads := [.c o.sub.toNat], vectorOnly := true, access := true,
    body := fun c _ s =>
      let n := subIndex (c.tm.creg o.sub.toNat).1
      checked c.tm [subAccess c o.sub 0] <|
        let (m, s) := c.mark s
        if c.b.arrOps.any fun op => op.team == c.t && op.uses n && decide (op.seq < m) then .park (.poll m) s else .done s }
def execAWait (o : AWait) (s : State) : Res := s.issue (issueAWait o)

/-! ### Events -/

/-- A team's own earlier accesses to a subarray are performed (R116): its store buffer and its loads. -/
def Team.subClear (tm : Team) (k seq sub : Nat) : Bool :=
  let meets : Loc → Nat → Bool := fun l n => match l with
    | .sp j o => j == k && (subsOf o n).contains sub
    | .pa _ => false
  (tm.stb.all fun r => !(decide (r.seq < seq) && meets r.loc r.bytes.length))
    && tm.pend.all fun p => !(decide (p.seq < seq) && match p.kind with
      | .load lanes n _ _ _ _ _ _ none => lanes.any fun a => meets a.loc n
      | _ => false)

/-- An operation can start: no earlier one uses its subarrays, its team's own earlier accesses to them are performed, and so are those of
other teams that reached them earlier (R116, R280, R282). -/
def Block.canStart (b : Block) (k : Nat) (op : ArrOp) : Bool :=
  !op.started
    && (b.arrOps.all fun o => !(decide (o.seq < op.seq) && (o.uses op.sub || o.uses op.sub2)))
    && match AMap.find? b.teams op.team with
      | some tm => tm.subClear k op.seq op.sub && tm.subClear k op.seq op.sub2
      | none => true
/-- The accesses that reached an operation's subarrays before it have been served (R116, R282). -/
def Core.clearFor (c : Core) (k : Nat) (op : ArrOp) : Bool := !c.reached k op.sub op.seq && !c.reached k op.sub2 op.seq

/-- Change the operation of an order number. -/
def Block.modOp (b : Block) (sub seq : Nat) (f : ArrOp → List ArrOp) : Block :=
  let q := (AMap.get [] b.subs sub).flatMap fun o => if o.seq = seq then f o else [o]
  { b with subs := AMap.set [] b.subs sub q }

/-- The rows and bytes of the scratchpad that an operation reads or writes: offset and length. -/
def ArrOp.spans (op : ArrOp) : List (Nat × Nat) :=
  let rows := fun (r n : Nat) => (rowOff op.sub r, 128 * n)
  ((predRow op.prow).map fun r => rows r 1) ++ match op.kind with
    | .tld off row => [(off, 128 * op.w), rows row op.w]
    | .tst off row => [(off, 128 * op.w), rows row op.w]
    | .fill row _ => [rows row op.w]
    | .bin func _ d a b => [rows d (binWidth func op.w), rows a op.w, rows b op.w]
    | .shf d a _ => [rows d op.w, rows a op.w]
    | .popc a => [rows a op.w]

/-- `ARRAY_OP_START`: the first waiting operation of a subarray starts: its sources are read (R280, R283). It waits for the lines that an
`m.acst` before it owns (R113). -/
def execArrayOpStart (core sub : Nat) (s : State) : Res :=
  match s.block core with
  | none => .next s
  | some b =>
    match (AMap.get [] b.subs sub).find? fun o => !o.started with
    | none => .next s
    | some op =>
      if !(b.canStart core op && (s.core core).clearFor core op)
          || op.spans.any fun x => s.agentWaitsOver op.seq op.seq (.sp core x.1) x.2 then .next s
      else
        let r := b.sp.compute op
        .next (s.modBlock core fun b => b.modOp sub op.seq fun o =>
          [{ o with started := true, writes := r.bytes, poison := r.poison, count := r.count, bad := r.bad }])

/-- Write the bytes of an operation that ends: the granules lose their tags, written segments their marks (R283, R370). -/
def Scratch.landOp (p : Scratch) (op : ArrOp) : Scratch :=
  let gs := op.writes.foldl (fun l x => insSorted (x.1 / 16) l) []
  let us := op.writes.foldl (fun l x => insSorted (x.1 / 8) l) []
  { p with
    bytes := op.writes.foldl (fun m x => AMap.put m x.1 x.2) p.bytes
    tags := p.tags.filter fun g => !gs.contains g
    poison := op.poison.foldl (fun l u => insSorted u l) (p.poison.filter fun u => !us.contains u) }

/-- ARRCNT falls for every ended operation of a team that has no earlier one outstanding (R281). -/
def Team.retireArr : Nat → Team → Team
  | 0, tm => tm
  | n + 1, tm =>
    match tm.pend.find? fun p => p.cls == .arr with
    | some p => match p.kind with
      | .arr _ _ true _ => Team.retireArr n (tm.endPend p)
      | _ => tm
    | none => tm

/-- `ARRAY_OP_END`: the running operation of a subarray ends: its writes are performed, `a.popc` writes its scalar, and
ARRCNT falls in issue order (R281, R283, R291, R403). A carry or tag latch of column `latch` that fails its parity check
poisons every destination unit of that column and gives a kind-8 entry (R402). -/
def execArrayOpEnd (core sub : Nat) (latch : Option Nat) (s : State) : Res :=
  match s.block core with
  | none => .next s
  | some b =>
    match (AMap.get [] b.subs sub).find? fun o => o.started with
    | none => .next s
    | some op =>
      let colUnits : List Nat := match latch with
        | none => []
        | some c => (op.writes.filter fun x => match op.kind with
            | .tst off _ => decide ((x.1 - off) / 8 = op.w * (c % 1024) / 64)
            | _ => decide (x.1 % 128 / 8 = c % 1024 / 64)).foldl (fun l x => insSorted (x.1 / 8) l) []
      let op := { op with poison := op.poison ++ colUnits }
      let s := s.modBlock core fun b => { b.modOp sub op.seq (fun _ => []) with sp := b.sp.landOp op }
      let s := match latch with
        | none => s
        | some c =>
          let off := match colUnits with
            | u :: _ => 8 * u
            | [] => rowOff sub (match op.kind with | .popc a => a | _ => 0) + 8 * (c % 1024 / 64)
          s.postFault b.vi 8 0x35 (sourceOf 0 (4 * core + op.team % 4)) op.team [off, 0, 0, 0, 0, 0] none none none
      match (s.team core op.team).bind fun tm => tm.pendOf op.seq with
      | none => .next s
      | some p =>
        let dst := match p.kind with
          | .arr d _ _ _ => d
          | _ => none
        let s := s.modTeam core op.team fun tm =>
          let tm := match dst, op.bad with
            | some d, none => tm.landS p d (BitVec.ofNat 64 op.count)
            | _, _ => tm
          let tm := tm.modPend op.seq fun p => { p with kind := .arr dst sub true none, dests := [], window := none }
          Team.retireArr tm.pend.length tm
        .next (match dst, op.bad with
          | some _, some off => s.requestHalt core op.team
              (p.halt 0x19 0 (some (faultWord off true (bits p.word.toNat 7 5))))
          | _, _ => s)

end Sys2Proof.Machine
end

