-- ==== Sys2Proof/Machine/Vector.lean ====
section
/-!
DEFINITION. Sys2Proof/Machine/Vector.lean: vector integer instructions (R176 to R182). Sub-elements are numbers below 2^w.
-/

namespace Sys2Proof.Machine

/-- Width of an integer type. -/
def itW : IType → Nat
  | .i8 | .n8 => 8
  | .i16 | .n16 => 16
  | .i32 | .n32 => 32
  | .i64 | .n64 => 64
  | .i4 => 4
/-- Is an integer type signed (R65)? -/
def itS : IType → Bool
  | .i8 | .i16 | .i32 | .i64 | .i4 => true
  | _ => false

/-! ### The operations of R179 on codes of width w -/

def eAdd (w a b : Nat) : Nat := (a + b) % 2 ^ w
def eSub (w a b : Nat) : Nat := (a + (2 ^ w - b % 2 ^ w)) % 2 ^ w
def eMul (w a b : Nat) : Nat := a * b % 2 ^ w
def eMulh (sg : Bool) (w a b : Nat) : Nat := wrap w (intOf sg w a * intOf sg w b / (2 : Int) ^ w)
def eShl (w a b : Nat) : Nat := if w ≤ b then 0 else a * 2 ^ b % 2 ^ w
def eShr (w a b : Nat) : Nat := if w ≤ b then 0 else a / 2 ^ b
def eSra (w a b : Nat) : Nat := wrap w (sgn w a / (2 : Int) ^ (min b w))
def eMin (sg : Bool) (w a b : Nat) : Nat := if intOf sg w b < intOf sg w a then b else a
def eMax (sg : Bool) (w a b : Nat) : Nat := if intOf sg w a < intOf sg w b then b else a
def eAbs (sg : Bool) (w a : Nat) : Nat := if sg then wrap w ((sgn w a).natAbs : Int) else a
def eAndn (w a b : Nat) : Nat := a &&& (2 ^ w - 1 - b % 2 ^ w)
/-- All ones or 0. -/
def eBool (w : Nat) (b : Bool) : Nat := if b then 2 ^ w - 1 else 0

/-! ### Shapes -/

/-- A per-lane form of the classes 0x08 to 0x0D that writes a vector register: the value and flags of each lane. -/
def vecIssue (g : Guard) (d : VReg) (reads : List RegRef) (vregs : List (Nat × Nat)) (stack : Bool)
    (val : Ctx → State → Nat → Word × Nat) : Issue :=
  { g, perLane := true, vectorOnly := true, onStack := stack, reads, writes := [.v d.toNat], vregs := (5, d.toNat) :: vregs,
    body := fun c E s =>
      let rs := (lanesOf c.tm.L E).map fun l => (l, val c s l)
      .done (s.modTeam c.k c.t fun tm =>
        (tm.setVs d.toNat (rs.map fun x => (x.1, x.2.1))).orFlags (flagsOf (rs.map fun x => x.2.2))) }

/-- The lane value of n = 64 / w elements and the OR of their flags. -/
def laneOfEls (w : Nat) (f : Nat → Nat × Nat) : Word × Nat :=
  let rs := (upto 0 (64 / w)).map f
  (BitVec.ofNat 64 (packEls w (fun e => (nth (0, 0) rs e).1) (64 / w)), flagsOf (rs.map Prod.snd))

/-- Two sources, element by element (R177, R179). -/
def vbinSrc (g : Guard) (d : VReg) (a : VASrc) (reads : List RegRef) (vregs : List (Nat × Nat)) (b : Ctx → State → Src) (w : Nat)
    (f : Nat → Nat → Nat × Nat) : Issue :=
  vecIssue g d (refVA a ++ reads) (vOfVA 6 a ++ vregs) true fun c s l =>
    let x := srcVA a
    let y := b c s
    laneOfEls w fun e => f (x.el c.tm w l e) (y.el c.tm w l e)
def vbinF (o : VBin) (f : Nat → Nat → Nat × Nat) : Issue :=
  vbinSrc o.g o.d o.a (refVS o.b) (vOfVS 7 o.b) (fun c s => c.srcV s o.b) (itW o.ty) f
def vbin (o : VBin) (f : Bool → Nat → Nat → Nat → Nat) : Issue := vbinF o fun a b => (f (itS o.ty) (itW o.ty) a b, 0)
/-- Saturating forms: SAT when changed. -/
def satEl (ty : IType) (i : Int) : Nat × Nat :=
  let r := saturate (itS ty) (itW ty) i
  (r.1, if r.2 then flSAT else 0)
def valOf (ty : IType) (a : Nat) : Int := intOf (itS ty) (itW ty) a
/-- One source. -/
def vun (o : VUn) (f : Bool → Nat → Nat → Nat) : Issue :=
  vecIssue o.g o.d (refVA o.a) (vOfVA 6 o.a) true fun c _ l =>
    laneOfEls (itW o.ty) fun e => (f (itS o.ty) (itW o.ty) ((srcVA o.a).el c.tm (itW o.ty) l e), 0)

/-- Element widths of major 0x09 (R146). -/
def ewW : EWidth → Nat
  | .w4 => 4 | .w8 => 8 | .w16 => 16 | .w32 => 32 | .w64 => 64
/-- Immediate forms (R182). -/
def vimm (o : VImm) (f : Nat → Nat → Nat → Nat) : Issue :=
  vbinSrc o.g o.d (.v o.a) [] [] (fun _ _ => .val (o.imm.signExtend 64)) (ewW o.w) fun a b => (f (ewW o.w) a b, 0)

/-! ### Moves within a lane (R181), with source B as any source -/

/-- `v.pack`: both sources at width 2w with T's signedness. -/
def packLane (ty : IType) (tm : Team) (a b : Src) (l : Nat) : Word × Nat :=
  let w := itW ty
  let n := 64 / w
  laneOfEls w fun e =>
    satEl ty (intOf (itS ty) (2 * w) (if e < n / 2 then a.el tm (2 * w) l e else b.el tm (2 * w) l (e - n / 2)))
/-- `v.unpk`: half h of vA at width w/2, extended. -/
def unpkLane (ty : IType) (tm : Team) (a b : Src) (l : Nat) : Word × Nat :=
  let w := itW ty
  let h := b.el tm w l 0 % 2
  laneOfEls w fun e => (wrap w (intOf (itS ty) (w / 2) (a.el tm (w / 2) l (h * (64 / w) + e))), 0)
/-- `v.ext`: sub-element x, extended to 64 bits; 0 when x ≥ n. -/
def extLane (ty : IType) (tm : Team) (a b : Src) (l : Nat) : Word × Nat :=
  let w := itW ty
  let x := bits (b.word tm l).toNat 0 6
  (if x < 64 / w then BitVec.ofNat 64 (wrap 64 (intOf (itS ty) w (a.el tm w l x))) else 0, 0)
/-- `v.ins`: vA with sub-element x, which vC names, replaced. -/
def insLane (ty : IType) (tm : Team) (a b c : Src) (l : Nat) : Word × Nat :=
  let w := itW ty
  let x := bits (c.word tm l).toNat 0 6
  laneOfEls w fun e => (if e = x then subEl w 0 (b.word tm l) else a.el tm w l e, 0)

/-- `v.sel` (R180): by predicate a whole lane, else element by element. -/
def selLane (ty : IType) (tm : Team) (a b : Src) (c : Src ⊕ Nat) (l : Nat) : Word × Nat :=
  let w := itW ty
  match c with
  | .inr p => (if laneIn (tm.preg p) l then a.word tm l else laneOfWord w b tm l, 0)
  | .inl y => laneOfEls w fun e => (if y.el tm w l e ≠ 0 then a.el tm w l e else b.el tm w l e, 0)
where
  /-- A source as a whole lane of elements. -/
  laneOfWord (w : Nat) (b : Src) (tm : Team) (l : Nat) : Word := (laneOfEls w fun e => (b.el tm w l e, 0)).1
def selSrc (c : Ctx) (s : State) : SelSrc → Src ⊕ Nat
  | .src x => .inl (c.srcV s x)
  | .p r => .inr r.toNat
def refSel : SelSrc → List RegRef
  | .src x => refVS x
  | .p r => [.p r.toNat]
def vOfSel : SelSrc → List (Nat × Nat)
  | .src x => vOfVS 8 x
  | .p _ => []

/-- A compare of elements into a vector or a predicate (R180, R184). -/
def cmpIssue (g : Guard) (d : VDest) (reads : List RegRef) (vregs : List (Nat × Nat)) (w : Nat)
    (test : Ctx → State → Nat → Nat → Bool) : Issue :=
  match d with
  | .v r => vecIssue g r reads vregs true fun c s l => laneOfEls w fun e => (eBool w (test c s l e), 0)
  | .p r =>
    { g, perLane := true, vectorOnly := true, onStack := true, reads, writes := refPD r, vregs,
      body := fun c E s =>
        .done (c.setPred E r.toNat (fun l => (upto 0 (64 / w)).all fun e => test c s l e) s) }

/-! ### The instructions -/

/-- `v.add` (R179). -/
def issueVAdd (o : VBin) : Issue := vbin o (fun _ w a b => eAdd w a b)
def execVAdd (o : VBin) (s : State) : Res := s.issue (issueVAdd o)
/-- `v.sub` (R179). -/
def issueVSub (o : VBin) : Issue := vbin o (fun _ w a b => eSub w a b)
def execVSub (o : VBin) (s : State) : Res := s.issue (issueVSub o)
/-- `v.mul` (R179). -/
def issueVMul (o : VBin) : Issue := vbin o (fun _ w a b => eMul w a b)
def execVMul (o : VBin) (s : State) : Res := s.issue (issueVMul o)
/-- `v.mulh` (R179). -/
def issueVMulh (o : VBin) : Issue := vbin o eMulh
def execVMulh (o : VBin) (s : State) : Res := s.issue (issueVMulh o)
/-- `v.and` (R179). -/
def issueVAnd (o : VBin) : Issue := vbin o (fun _ _ a b => a &&& b)
def execVAnd (o : VBin) (s : State) : Res := s.issue (issueVAnd o)
/-- `v.or` (R179). -/
def issueVOr (o : VBin) : Issue := vbin o (fun _ _ a b => a ||| b)
def execVOr (o : VBin) (s : State) : Res := s.issue (issueVOr o)
/-- `v.xor` (R179). -/
def issueVXor (o : VBin) : Issue := vbin o (fun _ _ a b => a ^^^ b)
def execVXor (o : VBin) (s : State) : Res := s.issue (issueVXor o)
/-- `v.andn` (R179). -/
def issueVAndn (o : VBin) : Issue := vbin o (fun _ w a b => eAndn w a b)
def execVAndn (o : VBin) (s : State) : Res := s.issue (issueVAndn o)
/-- `v.shl` (R179). -/
def issueVShl (o : VBin) : Issue := vbin o (fun _ w a b => eShl w a b)
def execVShl (o : VBin) (s : State) : Res := s.issue (issueVShl o)
/-- `v.shr` (R179). -/
def issueVShr (o : VBin) : Issue := vbin o (fun _ w a b => eShr w a b)
def execVShr (o : VBin) (s : State) : Res := s.issue (issueVShr o)
/-- `v.sra` (R179). -/
def issueVSra (o : VBin) : Issue := vbin o (fun _ w a b => eSra w a b)
def execVSra (o : VBin) (s : State) : Res := s.issue (issueVSra o)
/-- `v.min` (R179). -/
def issueVMin (o : VBin) : Issue := vbin o eMin
def execVMin (o : VBin) (s : State) : Res := s.issue (issueVMin o)
/-- `v.max` (R179). -/
def issueVMax (o : VBin) : Issue := vbin o eMax
def execVMax (o : VBin) (s : State) : Res := s.issue (issueVMax o)
/-- `v.mad` (R179): a × b + c. -/
def issueVMad (o : VTern) : Issue := 
  vecIssue o.g o.d (refVA o.a ++ refVS o.b ++ refVS o.c) (vOfVA 6 o.a ++ vOfVS 7 o.b ++ vOfVS 8 o.c) true fun c s l =>
    let w := itW o.ty
    laneOfEls w fun e =>
      (((srcVA o.a).el c.tm w l e * (c.srcV s o.b).el c.tm w l e + (c.srcV s o.c).el c.tm w l e) % 2 ^ w, 0)
def execVMad (o : VTern) (s : State) : Res := s.issue (issueVMad o)
/-- `v.adds` (R179). -/
def issueVAdds (o : VBin) : Issue := vbinF o fun a b => satEl o.ty (valOf o.ty a + valOf o.ty b)
def execVAdds (o : VBin) (s : State) : Res := s.issue (issueVAdds o)
/-- `v.subs` (R179). -/
def issueVSubs (o : VBin) : Issue := vbinF o fun a b => satEl o.ty (valOf o.ty a - valOf o.ty b)
def execVSubs (o : VBin) (s : State) : Res := s.issue (issueVSubs o)
/-- `v.abs` (R179). -/
def issueVAbs (o : VUn) : Issue := vun o eAbs
def execVAbs (o : VUn) (s : State) : Res := s.issue (issueVAbs o)
/-- `v.clz` (R179). -/
def issueVClz (o : VUn) : Issue := vun o fun _ w a => clz w a
def execVClz (o : VUn) (s : State) : Res := s.issue (issueVClz o)
/-- `v.popc` (R179). -/
def issueVPopc (o : VUn) : Issue := vun o fun _ w a => popc w a
def execVPopc (o : VUn) (s : State) : Res := s.issue (issueVPopc o)
/-- `v.mov` (R179). -/
def issueVMov (o : VMov) : Issue := 
  vecIssue o.g o.d (refVS o.a) (vOfVS 6 o.a) true fun c s l =>
    laneOfEls (itW o.ty) fun e => ((c.srcV s o.a).el c.tm (itW o.ty) l e, 0)
def execVMov (o : VMov) (s : State) : Res := s.issue (issueVMov o)
/-- `v.cmp` (R180). -/
def issueVCmp (o : VCmp) : Issue := 
  cmpIssue o.g o.d (refVA o.a ++ refVS o.b) (vOfVA 6 o.a ++ vOfVS 7 o.b) (itW o.ty) fun c s l e =>
    condI o.c (valOf o.ty ((srcVA o.a).el c.tm (itW o.ty) l e)) (valOf o.ty ((c.srcV s o.b).el c.tm (itW o.ty) l e))
def execVCmp (o : VCmp) (s : State) : Res := s.issue (issueVCmp o)
/-- `v.sel` (R180). -/
def issueVSel (o : VSel) : Issue := 
  vecIssue o.g o.d (refVA o.a ++ refVS o.b ++ refSel o.c) (vOfVA 6 o.a ++ vOfVS 7 o.b ++ vOfSel o.c) true fun c s l =>
    selLane o.ty c.tm (srcVA o.a) (c.srcV s o.b) (selSrc c s o.c) l
def execVSel (o : VSel) (s : State) : Res := s.issue (issueVSel o)
/-- `v.pack` (R181). -/
def issueVPack (o : VBin) : Issue := 
  vecIssue o.g o.d (refVA o.a ++ refVS o.b) (vOfVA 6 o.a ++ vOfVS 7 o.b) true fun c s l =>
    packLane o.ty c.tm (srcVA o.a) (c.srcV s o.b) l
def execVPack (o : VBin) (s : State) : Res := s.issue (issueVPack o)
/-- `v.unpk` (R181). -/
def issueVUnpk (o : VBin) : Issue := 
  vecIssue o.g o.d (refVA o.a ++ refVS o.b) (vOfVA 6 o.a ++ vOfVS 7 o.b) true fun c s l =>
    unpkLane o.ty c.tm (srcVA o.a) (c.srcV s o.b) l
def execVUnpk (o : VBin) (s : State) : Res := s.issue (issueVUnpk o)
/-- `v.ext` (R181). -/
def issueVExt (o : VBin) : Issue := 
  vecIssue o.g o.d (refVA o.a ++ refVS o.b) (vOfVA 6 o.a ++ vOfVS 7 o.b) true fun c s l =>
    extLane o.ty c.tm (srcVA o.a) (c.srcV s o.b) l
def execVExt (o : VBin) (s : State) : Res := s.issue (issueVExt o)
/-- `v.ins` (R181). -/
def issueVIns (o : VTern) : Issue := 
  vecIssue o.g o.d (refVA o.a ++ refVS o.b ++ refVS o.c) (vOfVA 6 o.a ++ vOfVS 7 o.b ++ vOfVS 8 o.c) true fun c s l =>
    insLane o.ty c.tm (srcVA o.a) (c.srcV s o.b) (c.srcV s o.c) l
def execVIns (o : VTern) (s : State) : Res := s.issue (issueVIns o)
/-- `v.add` with an immediate (R182). -/
def issueVAddImm (o : VImm) : Issue := vimm o eAdd
def execVAddImm (o : VImm) (s : State) : Res := s.issue (issueVAddImm o)
/-- `v.sub` with an immediate (R182). -/
def issueVSubImm (o : VImm) : Issue := vimm o eSub
def execVSubImm (o : VImm) (s : State) : Res := s.issue (issueVSubImm o)
/-- `v.mul` with an immediate (R182). -/
def issueVMulImm (o : VImm) : Issue := vimm o eMul
def execVMulImm (o : VImm) (s : State) : Res := s.issue (issueVMulImm o)
/-- `v.and` with an immediate (R182). -/
def issueVAndImm (o : VImm) : Issue := vimm o (fun _ a b => a &&& b)
def execVAndImm (o : VImm) (s : State) : Res := s.issue (issueVAndImm o)
/-- `v.or` with an immediate (R182). -/
def issueVOrImm (o : VImm) : Issue := vimm o (fun _ a b => a ||| b)
def execVOrImm (o : VImm) (s : State) : Res := s.issue (issueVOrImm o)
/-- `v.xor` with an immediate (R182). -/
def issueVXorImm (o : VImm) : Issue := vimm o (fun _ a b => a ^^^ b)
def execVXorImm (o : VImm) (s : State) : Res := s.issue (issueVXorImm o)
/-- `v.andn` with an immediate (R182). -/
def issueVAndnImm (o : VImm) : Issue := vimm o eAndn
def execVAndnImm (o : VImm) (s : State) : Res := s.issue (issueVAndnImm o)
/-- `v.shl` with an immediate (R182). -/
def issueVShlImm (o : VImm) : Issue := vimm o eShl
def execVShlImm (o : VImm) (s : State) : Res := s.issue (issueVShlImm o)
/-- `v.shr` with an immediate (R182). -/
def issueVShrImm (o : VImm) : Issue := vimm o eShr
def execVShrImm (o : VImm) (s : State) : Res := s.issue (issueVShrImm o)
/-- `v.sra` with an immediate (R182). -/
def issueVSraImm (o : VImm) : Issue := vimm o eSra
def execVSraImm (o : VImm) (s : State) : Res := s.issue (issueVSraImm o)
/-- `v.li` (R182). -/
def issueVLi (o : VLi) : Issue := 
  vecIssue o.g o.d [] [] true fun _ _ _ => laneOfEls (ewW o.w) fun _ => (subEl (ewW o.w) 0 (o.imm.signExtend 64), 0)
def execVLi (o : VLi) (s : State) : Res := s.issue (issueVLi o)

end Sys2Proof.Machine
end

