-- ==== Sys2Proof/Machine/BankUnit.lean ====
section
/-!
DEFINITION. Sys2Proof/Machine/BankUnit.lean: the micro-word and the bank units (R294, R301 to R305, R404, R409).
-/

namespace Sys2Proof.Machine

/-! ### The fields of a micro-word (R301) -/

def uFop (w : Nat) : Nat := bits w 62 2
def uFbank (w : Nat) : Nat := bits w 61 1
def uFcol (w : Nat) : Nat := bits w 56 5
def uFlc (w : Nat) : Bool := bit w 55
def uFacc (w : Nat) : Nat := bits w 52 3
def uAop (w : Nat) : Nat := bits w 44 4
def uDt (w : Nat) : Nat := bits w 41 3
def uAd (w : Nat) : Nat := bits w 38 3
def uAy (w : Nat) : Nat := bits w 35 3
def uXs (w : Nat) : Bool := bit w 34
def uPs (w : Nat) : Bool := bit w 33
def uAux (w : Nat) : Nat := bits w 30 3
def uRm (w : Nat) : Nat := bits w 28 2
def uSat (w : Nat) : Bool := bit w 27
def uPart (w : Nat) : Nat := bits w 25 2
def uWop (w : Nat) : Nat := bits w 18 2
def uWbank (w : Nat) : Nat := bits w 17 1
def uWcol (w : Nat) : Nat := bits w 12 5
def uWlc (w : Nat) : Bool := bit w 11
def uWacc (w : Nat) : Nat := bits w 8 3
def uCtl (w : Nat) : Nat := bits w 2 2
def uBack (w : Nat) : Nat := bits w 0 2

/-- The lane type of DT (R301): 0 `.bf16`, 1 `.f32`, 2 `.i8`, 3 `.i32`. -/
def dtTy (d : Nat) : ElType := match d with | 0 => .bf16 | 1 => .f32 | 2 => .i8 | _ => .i32
def dtFloat (d : Nat) : Bool := decide (d < 2)
def dtW (d : Nat) : Nat := elWidth (dtTy d)
/-- Lanes of a column (R294). -/
def dtLanes (d : Nat) : Nat := 256 / dtW d
def rmOf (n : Nat) : RM := .m (match n with | 0 => .rne | 1 => .rtz | 2 => .rdn | _ => .rup)

/-! ### Reserved words (R404) -/

/-- A word that R301 or R302 marks reserved, or with a non-zero field that its operations do not use, by the list of R404
(reason 1). -/
def uReserved (w : Nat) : Bool :=
  let aop := uAop w
  let f := dtFloat (uDt w)
  let rounds := f && [1, 2, 3, 4, 5].contains aop || (f && aop == 13 && uAux w == 0)
    || (aop == 14 && (f || uAux w < 2))
  let sats := (!f && [1, 2, 3, 4, 5].contains aop) || (aop == 14 && !f && 2 ≤ uAux w)
  bits w 48 4 != 0 || bits w 20 5 != 0 || bits w 4 4 != 0
    || aop == 15 || decide (4 ≤ uDt w) || (aop == 0 && (uDt w != 0 || uAd w != 0 || uXs w))
    || (aop == 11 && decide (6 ≤ uAux w)) || (aop == 13 && decide (3 ≤ uAux w))
    || (aop == 14 && (decide (4 ≤ uAux w)
        || decide (max (dtLanes (uDt w)) (dtLanes (uAux w)) / min (dtLanes (uDt w)) (dtLanes (uAux w)) ≤ uPart w)))
    || (!([1, 2].contains (uFop w)) && (uFbank w != 0 || uFcol w != 0 || uFlc w))
    || (uFop w != 3 && uFacc w != 0)
    || (!([1, 2, 3, 4, 6, 7, 8, 9, 10, 11].contains aop) && uAy w != 0)
    || (aop != 5 && uPs w)
    || (!([11, 13, 14].contains aop) && uAux w != 0)
    || (!rounds && uRm w != 0) || (!sats && uSat w) || (aop != 14 && uPart w != 0)
    || (uWop w == 0 && (uWbank w != 0 || uWcol w != 0 || uWlc w))
    || (decide (uWop w < 2) && uWacc w != 0)
    || (uCtl w != 1 && uBack w != 0)
/-- A word that leaves the store (R404 reason 2). -/
def uLeaves (pc w : Nat) : Bool :=
  (decide (uCtl w ≤ 1) && decide (pc = 255)) || (uCtl w == 1 && decide (pc < uBack w))
/-- Words of the store that follow a word (R404); `row-end` goes back to ENTRY. -/
def uNext (pc w : Nat) : List Nat :=
  (match uCtl w with
  | 0 => [pc + 1]
  | 1 => (pc + 1) :: (if uBack w ≤ pc then [pc - uBack w] else [])
  | _ => []).filter fun x => decide (x < 256)
/-- The words that a run can reach from a set of words, in at most n rounds (R404). -/
def uReach (store : AMap Word) : Nat → List Nat → List Nat
  | 0, seen => seen
  | n + 1, seen =>
    uReach store n (seen.foldl (fun l pc =>
      (uNext pc (AMap.get 0 store pc).toNat).foldl (fun l x => insSorted x l) l) seen)
/-- The first fault of a run from ENTRY: the lowest µPC that it can reach with a reason (R404). -/
def runFault (store : AMap Word) (entry : Nat) : Option (Nat × Nat) :=
  (uReach store 256 [entry]).findSome? fun pc =>
    let w := (AMap.get 0 store pc).toNat
    if uReserved w then some (pc, 1) else if uLeaves pc w then some (pc, 2) else none

/-! ### Arithmetic (R302, R303) -/

/-- An exact integer result: wrapped, or saturated to the signed range. -/
def deliverInt (sat : Bool) (w : Nat) (i : Int) : Nat := if sat then (saturate true w i).1 else wrap w i

/-- One lane of AOP 1 to 12 (R302). `mov` delivers the bits of X, those of a NaN too. [log 67: DESIGN CHOICE] -/
def laneOp (w : Nat) (x y d p : Nat) : Nat :=
  let dt := uDt w
  let n := dtW dt
  let F := fmtOf (dtTy dt)
  let rm := rmOf (uRm w)
  let i := sgn n
  let sat := uSat w
  match uAop w with
  | 1 => if dtFloat dt then (opAdd F rm x y).1 else deliverInt sat n (i x + i y)
  | 2 => if dtFloat dt then (opSub F rm x y).1 else deliverInt sat n (i x - i y)
  | 3 => if dtFloat dt then (opMul F rm x y).1 else deliverInt sat n (i x * i y)
  | 4 => if dtFloat dt then (opFma F rm x y d).1 else deliverInt sat n (i x * i y + i d)
  | 5 => if dtFloat dt then (opMul F rm x p).1 else deliverInt sat n (i x * i p)
  | 6 => if dtFloat dt then minMaxF F true x y else if i x < i y then y else x
  | 7 => if dtFloat dt then minMaxF F false x y else if i y < i x then y else x
  | 8 => Nat.land x y
  | 9 => Nat.lor x y
  | 10 => Nat.xor x y
  | 11 =>
    let c := (decCond (BitVec.ofNat 4 (uAux w))).getD .eq
    eBool n (if dtFloat dt then condF c (decodeF F x) (decodeF F y) else condI c (i x) (i y))
  | _ => x

/-- Combine the lanes of X in ascending order (R302). -/
def reduceLanes (w : Nat) (xs : List Nat) : Nat :=
  let dt := uDt w
  let n := dtW dt
  let F := fmtOf (dtTy dt)
  let comb : Nat → Nat → Nat := fun a x =>
    match uAux w, dtFloat dt with
    | 0, true => (opAdd F (rmOf (uRm w)) a x).1
    | 0, false => (a + x) % 2 ^ n
    | 1, true => minMaxF F true a x
    | 1, false => if sgn n a < sgn n x then x else a
    | _, true => minMaxF F false a x
    | _, false => if sgn n x < sgn n a then x else a
  match xs with
  | [] => 0
  | x :: l => l.foldl comb x

/-- One element converted (R303). -/
def convEl (w x : Nat) : Nat :=
  let s := uDt w
  let d := uAux w % 4
  let rm := rmOf (uRm w)
  match dtFloat s, dtFloat d with
  | true, true => (roundTo (fmtOf (dtTy d)) rm (decodeF (fmtOf (dtTy s)) x)).1
  | true, false => (toIntTy true (dtW d) rm (decodeF (fmtOf (dtTy s)) x)).1
  | false, true => (roundTo (fmtOf (dtTy d)) rm (ofInt (sgn (dtW s) x) 0 false)).1
  | false, false => deliverInt (uSat w) (dtW d) (sgn (dtW s) x)

/-- `ba`AD after a word (R302, R303). -/
def bankAlu (w : Nat) (X Y D : Nat) (p0 p1 : Nat) : Nat :=
  let dt := uDt w
  let n := dtW dt
  let P := (if uPs w then p1 else p0) % 2 ^ n
  match uAop w with
  | 0 => D
  | 13 => reduceLanes w ((upto 0 (dtLanes dt)).map fun k => bits X (n * k) n)
  | 14 =>
    let d := uAux w % 4
    let m := min (dtLanes dt) (dtLanes d)
    let lo := uPart w * m
    let nd := dtW d
    if dtLanes d < dtLanes dt ∨ dtLanes d = dtLanes dt then
      packEls nd (fun k => convEl w (bits X (n * (lo + k)) n)) m
    else
      packEls nd (fun k => if lo ≤ k ∧ k < lo + m then convEl w (bits X (n * (k - lo)) n) else bits D (nd * k) nd) (dtLanes d)
  | _ => packEls n (fun k => laneOp w (bits X (n * k) n) (bits Y (n * k) n) (bits D (n * k) n) P) (dtLanes dt)

/-- Does the operation of a word read Y, and D (R302, R303)? -/
def readsY (w : Nat) : Bool := [1, 2, 3, 4, 6, 7, 8, 9, 10, 11].contains (uAop w)
def readsD (w : Nat) : Bool :=
  uAop w == 4 || (uAop w == 14 && decide (dtLanes (uDt w) < dtLanes (uAux w % 4)))

/-! ### One word on one unit (R304) -/

def BankUnit.acc (u : BankUnit) (k : Nat) : BitVec 256 := AMap.get 0 u.ba k
def BankUnit.setAcc (u : BankUnit) (k : Nat) (x : BitVec 256) : BankUnit := { u with ba := AMap.set 0 u.ba k x }
def BankUnit.marked (u : BankUnit) (k : Nat) : Bool := u.pba.contains k
def BankUnit.mark (u : BankUnit) (k : Nat) (on : Bool) : BankUnit :=
  { u with pba := if on then insSorted k u.pba else delSorted k u.pba }

/-- The physical address of column c of bank b of a channel in a row (R87, R295). -/
def colPa (ch row b c : Nat) : Nat := ch / 32 * 2 ^ 36 + row * 2 ^ 20 + b * 2 ^ 15 + ch % 32 * 2 ^ 10 + c * 2 ^ 5

/-- The fetch slot: a mark of F or HL stays until its register is cleared (R409). [log 33: DEDUCED] -/
def fetchSlot (s : State) (ch row n w : Nat) (u : BankUnit) : BankUnit :=
  let c := (uFcol w + if uFlc w then u.lc else 0) % 32
  let pa := colPa ch row (2 * n + uFbank w) c
  let x : BitVec 256 := BitVec.ofNat 256 (leNat (s.mem.bytes pa 32))
  let bad := s.poisonedAt (.pa pa) 32
  match uFop w with
  | 1 => { u with f := x, pf := u.pf || bad }
  | 2 => { u with f := x, pf := u.pf || bad, hl := x, phl := u.phl || bad }
  | 3 => { u with f := u.acc (uFacc w), pf := u.pf || u.marked (uFacc w) }
  | _ => u

/-- The arithmetic slot, with the marks of R409. [log 33: DEDUCED] -/
def arithSlot (w p0 p1 : Nat) (u : BankUnit) : BankUnit :=
  if uAop w = 0 then u
  else
    let X := if uXs w then u.hl else u.f
    let bad := (if uXs w then u.phl else u.pf) || (readsY w && u.marked (uAy w)) || (readsD w && u.marked (uAd w))
    let r := bankAlu w X.toNat (u.acc (uAy w)).toNat (u.acc (uAd w)).toNat p0 p1
    let u := u.setAcc (uAd w) (BitVec.ofNat 256 r)
    if bad then u.mark (uAd w) true else u

/-- The write-back slot: a column write clears the tags of its granules (R94) and carries a mark (R409). [log 33: DEDUCED] -/
def writeSlot (s : State) (ch row n w : Nat) (u : BankUnit) : State × BankUnit :=
  if uWop w = 0 then (s, u)
  else
    let c := (uWcol w + if uWlc w then u.lc else 0) % 32
    let pa := colPa ch row (2 * n + uWbank w) c
    let k := uWacc w
    let (x, bad) := if uWop w = 1 then (u.f, u.pf) else (u.acc k, u.marked k)
    let s := s.putBytes pa (bytesOf 32 x.toNat)
    let s := if bad then s.poisonAt (.pa pa) 32 else s
    (s, if uWop w = 3 then (u.setAcc k 0).mark k false else u)

/-- The control slot: the unit, whether it leaves the row, and whether the run ends. -/
def ctlSlot (w ln : Nat) (u : BankUnit) : BankUnit × Bool × Bool :=
  match uCtl w with
  | 0 => ({ u with upc := (u.upc + 1) % 256 }, false, false)
  | 1 =>
    if u.lc + 1 < ln then ({ u with lc := u.lc + 1, upc := (u.upc + 256 - uBack w) % 256 }, false, false)
    else ({ u with lc := 0, upc := (u.upc + 1) % 256 }, false, false)
  | 2 => (u, true, false)
  | _ => (u, true, true)

/-- The units of a mask, ascending. -/
def unitsOf (m : Nat) : List Nat := (upto 0 16).filter fun k => bit m k
def Channel.unit (c : Channel) (n : Nat) : BankUnit := AMap.get BankUnit.init c.units n
def Channel.setUnit (c : Channel) (n : Nat) (u : BankUnit) : Channel := { c with units := AMap.set BankUnit.init c.units n u }

/-- One micro-word on one unit (R304). -/
def State.wordOn (s : State) (ch row w ln p0 p1 n : Nat) : State :=
  let u := arithSlot w p0 p1 (fetchSlot s ch row n w ((s.channel ch).unit n))
  let (s, u) := writeSlot s ch row n w u
  s.modChannel ch fun c => c.setUnit n (ctlSlot w ln u).1

/-! ### Channels -/

/-- A run holds its units until it ends (R305). -/
def Channel.claims (c : Channel) (m : Nat) : Bool := c.runs.any fun r => Nat.land r.cmd.units m != 0
/-- The command at an index of the queue heads the queues of all its units (R305). -/
def Channel.heads (c : Channel) (i : Nat) (cmd : BankCmd) : Bool :=
  (c.queue.take i).all fun q => Nat.land q.units cmd.units == 0
/-- The parameters of a run. -/
structure RunArgs where
  entry : Nat
  ln : Nat
  step : Bool
  keep : Bool
  row0 : Nat
  nr : Nat
  p0 : Nat
  p1 : Nat
def BankCmd.run? (c : BankCmd) : Option RunArgs :=
  match c.req with
  | .run entry ln step keep row0 nr p0 p1 => some { entry, ln, step, keep, row0, nr, p0, p1 }
  | _ => none

/-- The completion of a bank command: its result stands at the controller (R420). [log 57: DEDUCED] -/
def State.bankDone (s : State) (core team seq : Nat) (res : List (Nat × Word)) : State :=
  s.modTeam core team fun tm => tm.modPend seq fun p =>
    match p.kind with
    | .bank ch dst _ => { p with kind := .bank ch dst (some res) }
    | _ => p

end Sys2Proof.Machine
end

