-- ==== Sys2Proof/Machine/BankInstr.lean ====
section
/-!
DEFINITION. Sys2Proof/Machine/BankInstr.lean: the bank instructions (R298, R299, R311 to R318, R387, R420). What the channel
controllers do with their commands stands in Sys2Proof/Machine/BankEvents.lean.
-/

namespace Sys2Proof.Machine

/-! ### Lift and land (R298, R299) -/

/-- The window of an address space in a stack as BBASE holds it (R295); outside SGMASK it reads NROW 0 (R334). -/
def State.windowOf (s : State) (vi asid stack : Nat) : Word :=
  let (rowbase, nrow) := AMap.get (0, 0) (s.space asid).windows stack
  let nrow := if bit (s.iface vi).victl.toNat (16 + stack) then nrow else 0
  BitVec.ofNat 64 (rowbase + nrow * 2 ^ 16 + stack * 2 ^ 32)
/-- NROW and ROWBASE of BBASE (R295). -/
def nrowOf (b : Word) : Nat := bits b.toNat 16 16
def rowbaseOf (b : Word) : Nat := bits b.toNat 0 16
def stackOf (b : Word) : Nat := bits b.toNat 32 4

/-- Every team of the device, with its core and its number. -/
def State.allTeams (s : State) : List (Nat × Nat × Team) :=
  s.cores.flatMap fun x => match x.2.block with
    | some b => b.teams.map fun y => (x.1, y.1, y.2)
    | none => []
/-- Slots of a stack core that are taken (R296). -/
def State.slotsUsed (s : State) (sc : Nat) : Nat := (s.allTeams.filter fun x => x.2.2.stackCoreOf == some sc).length
/-- The lowest-numbered stack core of a stack with a free slot (R298, R410). -/
def State.freeStackCore (s : State) (stack : Nat) : Option Nat :=
  (upto 0 4).find? fun n => !(s.stackCore (4 * stack + n)).outOfService && decide (s.slotsUsed (4 * stack + n) < 4)
/-- Every stack core of a stack is out of service (R410). -/
def State.stackGone (s : State) (stack : Nat) : Bool := (upto 0 4).all fun n => (s.stackCore (4 * stack + n)).outOfService
/-- A request stands first for its stack (R298): no other one of the stack arrived earlier. -/
def State.liftFirst (s : State) (stack order : Nat) : Bool :=
  s.allTeams.all fun x => match x.2.2.lift with
    | .queued st o => !(st == stack && decide (o < order)) || x.2.2.halted
    | _ => true

/-- Every earlier bank instruction of the team is complete, but for the `b.lift` or `b.land` itself. -/
def Team.bankQuiet (tm : Team) : Bool :=
  tm.cmds.isEmpty && tm.pend.all fun p => match p.kind with
    | .bank _ _ _ => false
    | _ => true
/-- The team is one fragment and none is spilled. -/
def Team.single (tm : Team) : Bool :=
  match tm.frags with
  | [f] => !f.spilled
  | _ => false

/-- The checks of `b.lift` that can fail while it parks, then its parks (R298, R387). -/
def Ctx.liftAt (c : Ctx) (s : State) (pa : Nat) : Act :=
  let stack := bits pa 36 4
  if isHost pa || nrowOf (s.windowOf c.b.vi c.b.asid stack) == 0 || s.stackGone stack then .trap 0x07 0 0 none
  else
    let first := c.f.hold == .none
    let s := if first then c.pend .bank 0 [] .lift s else s
    let tm := c.tm
    let own := if first then 0 else 1
    if tm.single && decide (tm.memcnt = 0 ∧ tm.setcnt = 0 ∧ tm.arrcnt = 0 ∧ tm.bankcnt = own)
        && decide (s.stbcnt c.k c.t = 0) && tm.bankQuiet then
      match tm.lift with
      | .queued _ order =>
        match s.freeStackCore stack, s.liftFirst stack order with
        | some n, true => .hand (.poll 0) (s.modTeam c.k c.t fun tm => { tm with lift := .rising stack n })
        | _, _ => .park (.poll 0) s
      | _ =>
        let (order, s) := s.nextSeq
        .park (.poll 0) (s.modTeam c.k c.t fun tm => { tm with lift := .queued stack order })
    else .park (.poll 0) s

/-- `b.lift` (R298). -/
def issueBLift (o : BLift) : Issue :=
  { g := o.g, vectorOnly := true, access := true, reads := .c o.cap.toNat :: refSI o.idx, counts := some .bank,
    body := fun c _ s =>
      if 65536 < 64 * c.tm.L * c.tm.G then .trap 0x07 0 0 none
      else
        let x : Access := { cap := o.cap.toNat, kinds := [0, 2], perm := permEN, n := 1, align := 1, once := true,
                            addrs := c.addr1 o.cap.toNat 0 (c.srcSI o.idx) 0 }
        checked c.tm [x] <|
          match c.locate s x false with
          | .ok (a :: _) => match a.loc with
            | .pa pa => c.liftAt s pa
            | .sp _ _ => .wait s
          | .ok [] => .wait s
          | .wait s => if c.f.hold == .none then .wait s else .park (.poll 0) s }
def execBLift (o : BLift) (s : State) : Res := s.issue (issueBLift o)

/-- `b.land` (R299). -/
def issueBLand (o : BLand) : Issue :=
  { g := o.g, vectorOnly := true, onStack := true, liftedOnly := true, counts := some .bank,
    body := fun c _ s =>
      let s := if c.f.hold == .none then c.pend .bank 0 [] .land s else s
      if c.tm.single && c.tm.bankQuiet && decide (s.stbcnt c.k c.t = 0) then
        .hand (.poll 0) (s.modTeam c.k c.t fun tm => { tm with lift := match tm.lift with
          | .up st n _ => .landing st n
          | l => l })
      else .park (.poll 0) s }
def execBLand (o : BLand) (s : State) : Res := s.issue (issueBLand o)

/-- The fragment of a team that has moved goes on at PC + 8; a team that has halted goes no further (R298, R299, R347). -/
def Team.moved (tm : Team) : Team :=
  if tm.halted then tm else { tm with frags := tm.frags.map fun f => { f with pc := f.pc + 8, hold := .none } }
/-- `TEAM_LIFT_ARRIVE`: the state of a rising team arrives on its stack core, BBASE is loaded, and it goes on at PC + 8
(R295, R298). -/
def execTeamLiftArrive (core team : Nat) (s : State) : Res :=
  match s.block core, s.team core team with
  | some b, some tm =>
    match tm.lift with
    | .rising st n =>
      let (order, s) := s.nextSeq
      .next (s.modTeam core team fun tm => { tm.moved with lift := .up st n order, bbase := s.windowOf b.vi b.asid st })
    | _ => .next s
  | _, _ => .next s

/-- `TEAM_LAND_ARRIVE`: a landing team is back in its partition entry at PC + 8; a lifted team whose last lane has exited, or
that has halted, leaves its slot once its bank instructions are complete and `STBCNT` is 0 (R299, R408). What a landing team reads next is filled
anew. [log 12: DESIGN CHOICE] -/
def execTeamLandArrive (core team : Nat) (s : State) : Res :=
  match s.team core team with
  | none => .next s
  | some tm =>
    match tm.lift with
    | .landing _ _ =>
      .next ((s.dropL1 core).modTeam core team fun tm => { tm.moved.endMove with lift := .core })
    | .up _ _ _ =>
      if (tm.frags.isEmpty || tm.halted) && tm.bankQuiet && decide (s.stbcnt core team = 0) then
        .next (s.modTeam core team fun tm => { tm.endMove with lift := .core, finished := tm.finished || tm.frags.isEmpty })
      else .next s
    | _ => .next s

/-! ### Commands (R311 to R318) -/

/-- The channel-word bits that a form uses (R312). -/
def wordUses (fields : List (Nat × Nat)) : Nat := fields.foldl (fun m x => m + (2 ^ x.2 - 1) * 2 ^ x.1) 0
def useCh : List (Nat × Nat) := [(0, 5)]
def useUnits : List (Nat × Nat) := [(0, 5), (5, 16)]
def useFirst : List (Nat × Nat) := [(0, 5), (21, 8)]
def useRun : List (Nat × Nat) := [(0, 5), (5, 16), (21, 8), (29, 1), (30, 6), (36, 1)]
def useAcc : List (Nat × Nat) := [(0, 5), (5, 16), (37, 3)]
/-- A channel word is at fault for a form (R312, R387). -/
def wordBad (uses : List (Nat × Nat)) (w : Nat) : Bool := w != Nat.land w (wordUses uses)
def unitMask (w : Nat) : Nat := bits w 5 16
/-- The channel that a word names on the lifted stack, as 32 × stack + channel. -/
def Ctx.chanOf (c : Ctx) (w : Nat) : Nat := 32 * stackOf c.tm.bbase + bits w 0 5

/-- Issue a command: it is outstanding, counted in BANKCNT, and on its way to its controller (R311, R420). -/
def Ctx.command (c : Ctx) (s : State) (la : BitVec 4) (w : Word) (sb : Word) (units : Nat) (dst : Option RegRef)
    (req : BankReq) : State :=
  let ch := c.chanOf w.toNat
  let seq := s.seqNo
  let s := c.pend .bank la.toNat (match dst with | some d => [d] | none => []) (.bank ch dst none) s
  let cmd : BankCmd := { seq, core := c.k, team := c.t, vi := c.b.vi, ch, units, word := w, sb,
                         rowBase := rowbaseOf c.tm.bbase, req }
  s.modTeam c.k c.t fun tm => { tm with cmds := tm.cmds ++ [cmd] }

/-- A form that acts once and sends one command. -/
def bankIssue (g : Guard) (reads writes : List RegRef) (body : Ctx → State → Act) : Issue :=
  { g, vectorOnly := true, onStack := true, liftedOnly := true, access := true, reads, writes, counts := some .bank,
    body := fun c _ s => body c s }

/-- `b.ucld` (R313). -/
def issueBUcld (o : BUcld) : Issue :=
  { g := o.g, perLane := true, vectorOnly := true, onStack := true, liftedOnly := true, access := true,
    reads := [.s o.a.toNat, .v o.b.toNat], counts := some .bank, vregs := [(7, o.b.toNat)],
    body := fun c E s =>
      let w := c.tm.sreg o.a.toNat
      let ls := lanesOf c.tm.L E
      let first := bits w.toNat 21 8
      if !ls.isEmpty && (wordBad useFirst w.toNat || ls.any fun l => decide (255 < first + l)) then .trap 0x06 6 0 none
      else .done (c.command s o.la w 0 0 none (.ucld (ls.map fun l => (first + l, c.tm.vreg o.b.toNat l)))) }
def execBUcld (o : BUcld) (s : State) : Res := s.issue (issueBUcld o)

/-- `b.run` (R314). -/
def issueBRun (o : BRun) : Issue :=
  bankIssue o.g [.s o.a.toNat, .s o.b.toNat, .s o.c.toNat] [] fun c s =>
    let w := c.tm.sreg o.a.toNat
    let n := w.toNat
    let b := c.tm.sreg o.b.toNat
    let p := (c.tm.sreg o.c.toNat).toNat
    let ln := bits n 30 6
    let row0 := bits b.toNat 0 16
    let nr := bits b.toNat 16 16 + 1
    if wordBad useRun n || unitMask n == 0 || ln == 0 || decide (32 < ln) then .trap 0x06 6 0 none
    else if 2 ^ 32 ≤ b.toNat ∨ nrowOf c.tm.bbase < row0 + nr then .trap 0x06 7 0 none
    else .done (c.command s o.la w b (unitMask n) none
      (.run (bits n 21 8) ln (bit n 29) (bit n 36) row0 nr (bits p 0 32) (bits p 32 32)))
def execBRun (o : BRun) (s : State) : Res := s.issue (issueBRun o)

/-- `b.step` (R315). -/
def issueBStep (o : BStep) : Issue :=
  bankIssue o.g [.s o.a.toNat, .s o.b.toNat] [] fun c s =>
    let w := c.tm.sreg o.a.toNat
    let b := c.tm.sreg o.b.toNat
    if wordBad useUnits w.toNat || unitMask w.toNat == 0 then .trap 0x06 6 0 none
    else if b.toNat = 0 ∨ 65535 < b.toNat then .trap 0x06 7 0 none
    else .done (c.command s o.la w b (unitMask w.toNat) none (.step b.toNat))
def execBStep (o : BStep) (s : State) : Res := s.issue (issueBStep o)

/-- `b.wait` (R316): it parks until the team's earlier bank instructions to the channel are complete; it is not counted. -/
def issueBWait (o : BWait) : Issue :=
  { bankIssue o.g [.s o.a.toNat] [] (fun c s =>
      let w := (c.tm.sreg o.a.toNat).toNat
      if wordBad useCh w then .trap 0x06 6 0 none
      else
        let (m, s) := c.mark s
        let ch := c.chanOf w
        if c.tm.pend.any fun p => decide (p.seq < m) && match p.kind with
            | .bank x _ _ => x == ch
            | _ => false
        then .park (.poll m) s
        else .done s) with counts := none }
def execBWait (o : BWait) (s : State) : Res := s.issue (issueBWait o)

/-- `b.fence` (R316): a command whose completion its fragment awaits. -/
def issueBFence (o : BWait) : Issue :=
  bankIssue o.g [.s o.a.toNat] [] fun c s =>
    let w := c.tm.sreg o.a.toNat
    match c.f.hold with
    | .poll m => if (c.tm.pendOf m).isSome then .park (.poll m) s else .done s
    | _ =>
      if wordBad useCh w.toNat then .trap 0x06 6 0 none
      else
        let m := s.seqNo
        .park (.poll m) (c.command s o.la w 0 0 none .fence)
def execBFence (o : BWait) (s : State) : Res := s.issue (issueBFence o)

/-- The check of a `b.acc` word; it is made for a lane of E (R338, R387). -/
def accBad (w : Nat) (ls : List Nat) : Bool := !ls.isEmpty && (wordBad useAcc w || unitMask w == 0)
/-- `b.acc.rd` (R317). -/
def issueBAccRd (o : BAcc) : Issue :=
  { g := o.g, perLane := true, vectorOnly := true, onStack := true, liftedOnly := true, access := true,
    reads := [.s o.a.toNat], writes := [.v o.d.toNat], counts := some .bank, vregs := [(5, o.d.toNat)],
    body := fun c E s =>
      let w := c.tm.sreg o.a.toNat
      let ls := lanesOf c.tm.L E
      if accBad w.toNat ls then .trap 0x06 6 0 none
      else .done (c.command s o.la w 0 (unitMask w.toNat) (some (.v o.d.toNat)) (.accRd (bits w.toNat 37 3) ls)) }
def execBAccRd (o : BAcc) (s : State) : Res := s.issue (issueBAccRd o)
/-- `b.acc.wr` (R317). -/
def issueBAccWr (o : BAcc) : Issue :=
  { g := o.g, perLane := true, vectorOnly := true, onStack := true, liftedOnly := true, access := true,
    reads := [.s o.a.toNat, .v o.d.toNat], counts := some .bank, vregs := [(5, o.d.toNat)],
    body := fun c E s =>
      let w := c.tm.sreg o.a.toNat
      let ls := lanesOf c.tm.L E
      if accBad w.toNat ls then .trap 0x06 6 0 none
      else .done (c.command s o.la w 0 (unitMask w.toNat) none
        (.accWr (bits w.toNat 37 3) (ls.map fun l => (l, c.tm.vreg o.d.toNat l)))) }
def execBAccWr (o : BAcc) (s : State) : Res := s.issue (issueBAccWr o)

/-- `b.stat` (R318). -/
def issueBStat (o : BStat) : Issue :=
  bankIssue o.g [.s o.a.toNat] [.s o.d.toNat] fun c s =>
    let w := c.tm.sreg o.a.toNat
    if wordBad useUnits w.toNat || unitMask w.toNat == 0 then .trap 0x06 6 0 none
    else .done (c.command s o.la w 0 (unitMask w.toNat) (some (.s o.d.toNat)) .stat)
def execBStat (o : BStat) (s : State) : Res := s.issue (issueBStat o)

end Sys2Proof.Machine
end

