-- ==== Sys2Proof/Machine/Turnstiles.lean ====
section
/-!
DEFINITION. Sys2Proof/Machine/Turnstiles.lean: turnstiles and carousels (R114, R204 to R207, R365, R372).
-/

namespace Sys2Proof.Machine

/-- A form of class 0x12 that acts once. -/
def tsIssue (g : Guard) (reads writes : List RegRef) (body : Ctx → State → Act) : Issue :=
  { g, reads, writes, access := true, body := fun c _ s => body c s }
/-- Complete a wait: an acquire at block scope (R114). -/
def Ctx.passed (c : Ctx) (s : State) : Act := .done (c.acquire .blk s)

/-- `ts.init`: EXP = sA, ARR = 0, PH unchanged; the abandonment is cleared (R205, R372). -/
def issueTsInit (o : TsS) : Issue := tsIssue o.g [.s o.a.toNat] [] fun c s =>
  let n := (c.tm.sreg o.a.toNat).toNat
  if 65536 ≤ n then .trap 0x06 6 0 none
  else .done (s.modBlock c.k fun b => b.setTurnstile o.t.toNat
    { exp := n, arr := 0, ph := (b.turnstile o.t.toNat).ph, abandoned := false })
def execTsInit (o : TsS) (s : State) : Res := s.issue (issueTsInit o)

/-- `ts.arrive`: a release at block scope, then one arrival. -/
def issueTsArrive (o : TsN) : Issue := tsIssue o.g [] [] fun c s =>
  c.afterRelease s .blk (.pa 0) fun _ s => .done (s.modBlock c.k fun b => b.arrive o.t.toNat)
def execTsArrive (o : TsN) (s : State) : Res := s.issue (issueTsArrive o)

/-- `ts.wait`: until PH differs from sA[0]. -/
def issueTsWait (o : TsS) : Issue := tsIssue o.g [.s o.a.toNat] [] fun c s =>
  let x := c.b.turnstile o.t.toNat
  if c.f.hold == .released then c.passed s
  else if x.abandoned then .trap 0x18 0 (abandonAux o.t.toNat none) none
  else if x.ph != (c.tm.sreg o.a.toNat).getLsbD 0 then c.passed s
  else .park (.ts o.t.toNat none) s
def execTsWait (o : TsS) (s : State) : Res := s.issue (issueTsWait o)

/-- `ts.arrw`: a release, one arrival, then a wait for the flip of the phase read with the arrival. -/
def issueTsArrw (o : TsN) : Issue := tsIssue o.g [] [] fun c s =>
  let n := o.t.toNat
  if c.f.hold == .released then c.passed s
  else if (c.b.turnstile n).abandoned then .trap 0x18 0 (abandonAux n none) none
  else c.afterRelease s .blk (.pa 0) fun _ s =>
    let s := s.modBlock c.k fun b => b.arrive n
    match s.block c.k with
    | some b => if (b.turnstile n).ph != (c.b.turnstile n).ph then c.passed s else .park (.ts n none) s
    | none => .done s
def execTsArrw (o : TsN) (s : State) : Res := s.issue (issueTsArrw o)

/-- `ts.query`. -/
def issueTsQuery (o : TsQ) : Issue := tsIssue o.g [] [.s o.d.toNat] fun c s =>
  let x := c.b.turnstile o.t.toNat
  .done (c.setSc o.d (BitVec.ofNat 64 (x.arr % 65536 + x.exp % 65536 * 2 ^ 16 + b01 x.ph * 2 ^ 32)) s)
def execTsQuery (o : TsQ) (s : State) : Res := s.issue (issueTsQuery o)

/-! ### Carousels -/

/-- The key of a cursor: carousel and side. -/
def cursorKey (k : Nat) (cons : Bool) : Nat := 2 * k + b01 cons
def cursorOf (m : AMap Cursor) (k : Nat) (cons : Bool) : Cursor := AMap.get Cursor.init m (cursorKey k cons)
/-- The turnstile that a wait of a side watches: EMPTY of the stage for a producer, FULL for a consumer (R206, R207). -/
def waitTs (r : Carousel) (i : Nat) (cons : Bool) : Nat := if cons then r.first + 2 * i else r.first + 2 * i + 1
/-- The turnstile that a pass of a side arrives at: FULL for a producer, EMPTY for a consumer. -/
def passTs (r : Carousel) (i : Nat) (cons : Bool) : Nat := if cons then r.first + 2 * i + 1 else r.first + 2 * i
/-- The phase for which a wait completes. -/
def waitPh (b cons : Bool) : Bool := if cons then !b else b
/-- The cursor after a pass (R207). -/
def Cursor.step (x : Cursor) (n : Nat) : Cursor := if x.i + 1 = n then { i := 0, b := !x.b } else { x with i := x.i + 1 }

/-- Set a carousel up (R206, R372). -/
def Block.crInit (b : Block) (k first n prod cons : Nat) : Block :=
  let clear : AMap Cursor → AMap Cursor := fun m => AMap.erase (AMap.erase m (cursorKey k false)) (cursorKey k true)
  let b := (upto 0 n).foldl (fun b i =>
    (b.setTurnstile (first + 2 * i) { exp := prod, arr := 0, ph := false, abandoned := false }).setTurnstile (first + 2 * i + 1)
      { exp := cons, arr := 0, ph := false, abandoned := false }) b
  { b with cr := AMap.put b.cr k { first, n },
           teams := b.teams.map fun x => (x.1, { x.2 with cursors := clear x.2.cursors }),
           seq := b.seq.map fun q => { q with cursors := clear q.cursors } }

/-- `cr.init` (R206, R365). -/
def issueCrInit (o : CrInit) : Issue := tsIssue o.g [.s o.a.toNat] [] fun c s =>
  let w := (c.tm.sreg o.a.toNat).toNat
  let first := bits w 0 4
  let n := bits w 4 3 + 1
  let prod := bits w 8 16
  let cons := bits w 24 16
  if bit w 7 || decide (2 ^ 40 ≤ w) || decide (16 < first + 2 * n) || prod == 0 || cons == 0 then .trap 0x06 6 0 none
  else .done (s.modBlock c.k fun b => b.crInit o.k.toNat first n prod cons)
def execCrInit (o : CrInit) (s : State) : Res := s.issue (issueCrInit o)

/-- `cr.wait` (R207): STATE with no `cr.init` since dispatch. -/
def issueCrWait (o : CrWait) : Issue := tsIssue o.g [] [.s o.d.toNat] fun c s =>
  match AMap.find? c.b.cr o.k.toNat with
  | none => .trap 0x07 0 0 none
  | some r =>
    let x := cursorOf c.tm.cursors o.k.toNat o.cons
    let t := waitTs r x.i o.cons
    let ts := c.b.turnstile t
    let fin : Act := c.passed (c.setSc o.d (BitVec.ofNat 64 (x.i + b01 x.b * 2 ^ 8)) s)
    if c.f.hold == .released then fin
    else if ts.abandoned then .trap 0x18 0 (abandonAux t (some o.k.toNat)) none
    else if ts.ph == waitPh x.b o.cons then fin
    else .park (.ts t (some o.k.toNat)) s
def execCrWait (o : CrWait) (s : State) : Res := s.issue (issueCrWait o)

/-- `cr.pass` (R207). -/
def issueCrPass (o : CrPass) : Issue := tsIssue o.g [] [] fun c s =>
  match AMap.find? c.b.cr o.k.toNat with
  | none => .trap 0x07 0 0 none
  | some r =>
    let x := cursorOf c.tm.cursors o.k.toNat o.cons
    let step : State → State := fun s => s.modTeam c.k c.t fun tm =>
      { tm with cursors := AMap.set Cursor.init tm.cursors (cursorKey o.k.toNat o.cons) (x.step r.n) }
    if o.skip then .done (step s)
    else c.afterRelease s .blk (.pa 0) fun _ s => .done (step (s.modBlock c.k fun b => b.arrive (passTs r x.i o.cons)))
def execCrPass (o : CrPass) (s : State) : Res := s.issue (issueCrPass o)

end Sys2Proof.Machine
end

