-- ==== Sys2Proof/Machine/Matrix.lean ====
section
/-!
DEFINITION. Sys2Proof/Machine/Matrix.lean: the matrix sequencer and its engine (R223 to R241, R389 to R394): how a stream word
issues and faults, the records, the bytes of a tile, and the fourteen matrix-stream instructions.
-/

namespace Sys2Proof.Machine

/-! ### The sequencer -/

def State.seq (s : State) (k : Nat) : Option Seq := (s.block k).bind fun b => b.seq
def State.modSeq (s : State) (k : Nat) (f : Seq → Seq) : State := s.modBlock k fun b => { b with seq := b.seq.map f }

def Seq.tile (q : Seq) (n : Nat) : Tile := AMap.get Tile.init q.d n
def Seq.record (q : Seq) (n : Nat) : List Word := AMap.get (upto 0 8 |>.map fun _ => 0) q.q n
def Seq.msReg (q : Seq) (n : Nat) : Nat := (AMap.get 0 q.ms n).toNat
def Seq.setMs (q : Seq) (n x : Nat) : Seq := { q with ms := AMap.set 0 q.ms n (BitVec.ofNat 64 x) }
/-- The key of element (i, j) of an accumulator tile (R223). -/
def accKey (a i j : Nat) : Nat := 16384 * a + 128 * i + j
def Seq.accEl (q : Seq) (a i j : Nat) : Nat := (AMap.get (0 : BitVec 32) q.acc (accKey a i j)).toNat
/-- Write elements 0 to n − 1 of row i; a wholly written 8-byte unit is no longer poisoned (R370). -/
def Seq.setAcc (q : Seq) (a i : Nat) (xs : List (Nat × Nat)) : Seq :=
  { q with acc := xs.foldl (fun m x => AMap.set (0 : BitVec 32) m (accKey a i x.1) (BitVec.ofNat 32 x.2)) q.acc,
           accPoison := q.accPoison.filter fun u =>
             !decide (accKey a i 0 ≤ 2 * u ∧ 2 * u + 1 < accKey a i xs.length) }

/-- Nothing of the stream runs and no word will issue: the stream has ended (R19, R239, R389). -/
def Seq.over (q : Seq) : Bool :=
  (q.ended || q.faulted) && q.running.isNone && q.accepted.isNone && q.xfers.isEmpty && q.arrives.isEmpty

/-- The stream issues nothing now (R223, R237, R241, R389). -/
def seqBlocked (q : Seq) : Bool :=
  q.ended || q.faulted || q.stop || q.fetchWait.isSome || (match q.hold with | .ts _ _ => true | _ => false)

/-- The word at MPC (R416): the one that issues, or the one that the tables lead to; one that cannot be read is a free value (log 40).
[log 40: DEDUCED] -/
def State.streamWord (s : State) (b : Block) (mpc : Nat) : Nat × State :=
  match s.acting, s.walk b.asid mpc with
  | .seq _ w, _ => (w.toNat, s)
  | _, .leaf l fr _ _ _ => (s.dw (fr + mpc % 2 ^ pageBits l), s)
  | _, _ => (Config.freeNat s.freeIx % 2 ^ 64, { s with freeIx := s.freeIx + 1 })

/-- A stream fault (R389): the stream stops, the block's turnstiles become abandoned, and one kind-9 entry is posted with
MPC, the word there, `ROWPROG`, the address and the operand code; what fails after the first fault posts none. [log 40: DEDUCED] -/
def State.streamFault (s : State) (k code addr opnd : Nat) : State :=
  if (s.seq k).any fun q => q.faulted then s
  else
  let s := (s.modBlock k Block.abandonAll).modSeq k fun q => { q with faulted := true, hold := .none }
  match s.block k, s.seq k with
  | some b, some q =>
    let (w, s) := s.streamWord b q.mpc
    s.postFault b.vi 9 code (sourceOf 1 k) 0 [q.mpc, w, q.rowprog.toNat, addr % 2 ^ 57, opnd % 256] (some k) none none
  | _, _ => s

/-- What a stream word does when it issues. -/
inductive MAct
  /-- It does not issue now. -/
  | wait
  /-- A stream fault (R390): code, address, operand code. -/
  | fault (code addr opnd : Nat)
  /-- It completes and MPC advances. -/
  | go (s : State)
  /-- It completes and MPC goes to an address (R239). -/
  | jump (s : State) (mpc : Nat)
  /-- It holds the stream (R237). -/
  | hold (s : State) (h : Hold)

/-- The issue of one stream word by the acting sequencer (R224). -/
def State.mIssue (s : State) (body : Nat → Block → Seq → State → MAct) : Res :=
  match s.acting with
  | .seq k _ =>
    match s.block k, s.seq k with
    | some b, some q =>
      if seqBlocked q then .next s
      else match body k b q s with
        | .wait => .next s
        | .fault code addr opnd => .next (s.streamFault k code addr opnd)
        | .go s => .next (s.modSeq k fun q => { q with mpc := (q.mpc + 8) % 2 ^ 57, hold := .none })
        | .jump s a => .next (s.modSeq k fun q => { q with mpc := a % 2 ^ 57, hold := .none })
        | .hold s h => .next (s.modSeq k fun q => { q with hold := h })
    | _, _ => .fault .noSequencer
  | _ => .fault .noSequencer

/-- A record load into a register is in flight (R224): codes `d` 0 to 7, `q` 8 to 15. -/
def Seq.loading (q : Seq) (code : Nat) : Bool := q.loads.any fun l => l.code == code
/-- An earlier operation on an accumulator tile has not completed (R224); for `m.mma` only transfers count (R231). -/
def Seq.busyAcc (q : Seq) (a : Nat) (mma : Bool) : Bool :=
  q.xfers.any (fun x => x.acc == a)
    || (!mma && ((q.running.any fun m => m.acc == a) || (q.accepted.any fun m => m.acc == a)))

/-! ### Records (R225 to R229, R390) -/


def Tile.side (t : Tile) : Nat := bits (t.word 3) 0 57
def Tile.spitch (t : Tile) : Nat := bits (t.word 4) 0 41
/-- Entry i of the record's codebook (R226). -/
def Tile.cb (t : Tile) (i : Nat) : Nat := bits (t.word (4 + i / 4)) (16 * (i % 4)) 16

/-- A fault of R390: code, address, operand code. -/
abbrev MFault := Nat × Nat × Nat

/-- The record checks of R390 on a tile descriptor. -/
def Tile.faults (t : Tile) (code : Nat) : List MFault :=
  (if 2 ^ 57 ≤ t.word 0 ∨ 2 ^ 41 ≤ t.word 1 ∨ bits (t.word 2) 8 8 ≠ 0 ∨ 2 ^ 30 ≤ t.word 2 ∨ t.rows = 0 ∨ 128 < t.rows
      ∨ t.cols = 0 ∨ 8192 < t.cols ∨ (capKind t.cap = 2 ∧ bits (t.word 1) 0 41 ≠ 0) then [(0x06, 0, code)] else [])
    ++ (if t.addr % 16 ≠ 0 ∨ bits (t.word 1) 0 41 % 16 ≠ 0 then [(0x14, t.addr, code)] else [])

/-- The capability checks of R229 and R390 over the bytes that a use names. -/
def Tile.capFaults (t : Tile) (code perm : Nat) (spans : List (Nat × Nat)) : List MFault :=
  if !t.tag then [(0x10, 0, code)]
  else if 2 < capKind t.cap then [(0x11, 0, code)]
  else if !permOk (capPerm t.cap) (perm + permEN) then [(0x12, 0, code)]
  else match spans.find? fun x => decide (x.1 < capBase t.cap) || decide (capBase t.cap + capLen t.cap < x.1 + x.2) with
    | some x => [(0x13, x.1, code)]
    | none => []

/-- The first fault: the lowest code, then the order of the operands (R342, R390). -/
def firstFault (xs : List MFault) : Option MFault :=
  xs.foldl (fun best x => match best with
    | none => some x
    | some b => if x.1 < b.1 then some x else some b) none

/-- Bits of an element (R228). -/
def mBits : MType → Nat
  | .f32 => 32
  | .f16 | .bf16 => 16
  | .e4m3 | .e5m2 | .i8 => 8
  | .e3m2 | .e2m3 => 6
  | .e2m1 | .i4 | .c4 | .o4 => 4
/-- The format of an element. -/
def mElType : MType → ElType
  | .f32 => .f32 | .f16 => .f16 | .bf16 => .bf16 | .e4m3 => .e4m3 | .e5m2 => .e5m2 | .e3m2 => .e3m2 | .e2m3 => .e2m3
  | .e2m1 => .e2m1 | .o4 => .e4m3 | .c4 => .c4 | .i8 => .i8 | .i4 => .i4
/-- Formats that take scales (R230). -/
def mScaled : MType → Bool
  | .e4m3 | .e5m2 | .e3m2 | .e2m3 | .e2m1 | .o4 | .c4 => true
  | _ => false
/-- Integer formats (R80). -/
def mInt : MType → Bool
  | .i8 | .i4 => true
  | _ => false

/-- The bytes of row r with K elements: its span, and its side bytes (R228). -/
def Tile.span (t : Tile) (ty : MType) (K r : Nat) : Nat × Nat := (t.addr + r * t.pitch, K * mBits ty / 8)
def Tile.sideSpan (t : Tile) (K r : Nat) : Nat × Nat := (t.side + r * t.spitch, K / 16)
def Tile.spans (t : Tile) (ty : MType) (K r : Nat) : List (Nat × Nat) :=
  t.span ty K r :: (if ty = .o4 then [t.sideSpan K r] else [])

/-- The scale record's fields (R227). -/
def scaleOff (dw : List Word) : Nat := bits (nth 0 dw 0).toNat 0 21
def scaleStride (dw : List Word) : Nat := 64 * ceilDiv (bits (nth 0 dw 1).toNat 0 9) 64
/-- The checks of R227 and R390 on a scale record. For SOFF that is no multiple of 64 R390 names no code; the model takes that of the other
record checks, 0x06. [log 65: DESIGN CHOICE] -/
def scaleFaults (b : Block) (dw : List Word) (code K rows : Nat) : List MFault :=
  let soff := scaleOff dw
  let nkb := bits (nth 0 dw 1).toNat 0 9
  (if 2 ^ 21 ≤ (nth 0 dw 0).toNat ∨ 2 ^ 9 ≤ (nth 0 dw 1).toNat ∨ (dw.drop 2).any (fun w => w != 0) ∨ soff % 64 ≠ 0
      ∨ nkb = 0 ∨ 256 < nkb ∨ nkb ≠ K / 32 ∨ b.area ≤ soff then [(0x06, 0, code)] else [])
    ++ (if b.area < soff + rows * scaleStride dw then [(0x13, soff, code)] else [])

/-! ### Bytes of a tile (R228, R229, R391) -/

/-- What an access of the engine finds. -/
inductive Reach
  | ok (locs : List (Loc × Nat)) (s : State)
  /-- A clear presence bit or a busy subarray (R229, R282), or a row or line that another agent owns (R113). -/
  | wait
  | miss (pages : List Nat) (s : State)
  | bad (va : Nat) (poison : Bool)

/-- An `m.acst` that has stored no row yet takes all its lines before it does (R113). -/
def State.xferTakes (s : State) (k : Nat) (b : Block) (x : Transfer) : Bool :=
  !x.store || x.row != 0 || (upto 0 x.tile.rows).all fun r =>
    (s.spanLocs k b x.tile (x.span r)).all fun y => !s.agentWaitsOver x.seq x.seq y.1 y.2
/-- A row of a transfer waits for a subarray of the scratchpad: in one that it has not reached yet, for all that came before it; where it has stored
rows, for the operation that runs there (R116, R282). -/
def State.xferSubWaits (s : State) (k : Nat) (b : Block) (x : Transfer) (off n : Nat) : Bool :=
  (subsOf off n).any fun u =>
    if x.store && (upto 0 x.row).any fun r => (subsOf ((x.span r).1 % Config.spBytes) (x.span r).2).contains u then b.subHeld u 0
    else s.subWaits k (subBytes * u) 1 x.seq
/-- An atomic of a core waits in its write path on bytes of a range. -/
def State.pathAtomic (s : State) (k : Nat) (l : Loc) (n : Nat) : Bool :=
  (s.pathOf k).any fun x => x.2.atom.isSome && x.2.loc.meets x.2.bytes.length l n

/-- Bytes of the scratchpad can be read for order number `seq`: their lines are present, and neither their subarrays nor an agent that owns a
line holds them (R100, R113, R282). -/
def State.spReadable (s : State) (k : Nat) (b : Block) (off n seq : Nat) : Bool :=
  b.present off n && !s.subWaits k off n seq && !s.agentWaitsOver seq seq (.sp k off) n
/-- Row r of a transfer through a kind-1 descriptor can go: an `m.acst` owns its lines from its issue on, so that of the copies which clear presence
bits there it waits for those that started before it (R99, R113, R229). -/
def State.xferReady (s : State) (k : Nat) (b : Block) (x : Transfer) : Bool :=
  let sp := x.span x.row
  let off := sp.1 % Config.spBytes
  (if x.store then (linesOf off sp.2).all fun l => !s.landBefore b.vi b.name l x.seq else b.present off sp.2)
    && !s.xferSubWaits k b x off sp.2 && !s.agentWaitsOver x.seq x.seq (.sp k off) sp.2

/-- Reach a span through a descriptor: in the core's scratchpad, where `here` says that it can, or through the cluster's walk-ahead TLB (R229). It waits
for the lines that another agent owns (R113), and a read for the atomics of its core's write path (R108, R114). -/
def State.reachSpan (s : State) (k : Nat) (b : Block) (t : Tile) (here : Bool) (seq : Nat) (wr : Bool) (x : Nat × Nat) : Reach :=
  if capKind t.cap = 1 then
    if here then .ok [(.sp k (x.1 % Config.spBytes), x.2)] s else .wait
  else
    (pieces x.1 x.2).foldl (fun (r : Reach) p => match r with
      | .ok locs s => match s.engineXlat (clusterOf k) b.asid (p.1 % 2 ^ 57) wr with
        | (.ok pa, s) =>
          if s.agentWaitsOver seq seq (.pa pa) p.2 || (!wr && (s.pathAtomic k (.pa pa) p.2 || !s.mayFill pa p.2)) then .wait
          else .ok (locs ++ [(.pa pa, p.2)]) (if wr then s else s.l2Fill pa p.2)
        | (.absent, s) => .miss [p.1 % 2 ^ 57] s
        | (.bad q, _) => .bad p.1 q
        | (.busy, _) => .wait
      | .miss ps s => match s.engineXlat (clusterOf k) b.asid (p.1 % 2 ^ 57) wr with
        | (.absent, s) => .miss (ps ++ [p.1 % 2 ^ 57]) s
        | (_, s) => .miss ps s
      | r => r) (.ok [] s)

/-- Read what was reached, through the core's write path (R108, R114, R125). -/
def State.readReach (s : State) (k : Nat) (locs : List (Loc × Nat)) : List Byte :=
  locs.flatMap fun x => s.throughPath k x.1 (s.readLoc x.1 x.2)
/-- The address of the first poisoned byte of a span that begins at `va` (R391). -/
def State.badReach (s : State) (va : Nat) : List (Loc × Nat) → Option Nat
  | [] => none
  | x :: xs =>
    if s.poisonedAt x.1 x.2 then ((upto 0 x.2).find? fun i => s.poisonedAt (x.1.add i) 1).map fun i => va + i
    else s.badReach (va + x.2) xs

/-- Request pages for the engine (R219, R232, R236): one record for each page. -/
def State.enginePages (s : State) (k : Nat) (b : Block) (wr : Bool) (vas : List Nat) : State :=
  vas.foldl (fun s va => s.postPage b.vi 2 wr va b.asid (clusterOf k) 0) s

/-! ### Record loads (R240) -/

/-- The form of R240: the destination code, and the bytes that it reads. -/
def recLoad (o : MRec) (cap : Bool) (code n : Nat) (k : Nat) (b : Block) (q : Seq) (s : State) : MAct :=
  if q.loading code then .wait
  else
    let ix := match o.at_.idx with
      | some m => q.msReg m.toNat
      | none => 0
    let off := 64 * (o.at_.off.toNat + o.at_.step.toNat * ix)
    if b.area < off + n then .fault 0x13 off code
    else
      let (sn, s) := s.nextSeq
      .go (s.modSeq k fun q => { q with loads := q.loads ++ [{ cap, code, off, seq := sn }] })

/-- `m.tdld`. -/
def execMTdld (o : MRec) (s : State) : Res := s.mIssue (recLoad o false o.d.toNat 64)
/-- `m.sdld`. -/
def execMSdld (o : MRec) (s : State) : Res := s.mIssue (recLoad o false (8 + o.d.toNat) 64)
/-- `m.capld`. -/
def execMCapld (o : MRec) (s : State) : Res := s.mIssue (recLoad o true o.d.toNat 16)

/-! ### Accumulators (R236) -/

/-- `m.zero`. -/
def execMZero (o : MZero) (s : State) : Res := s.mIssue fun k _ q s =>
  let a := o.d.toNat
  if q.busyAcc a false then .wait
  else .go (s.modSeq k fun q =>
    { q with acc := q.acc.filter (fun x => x.1 / 16384 != a), accPoison := q.accPoison.filter fun u => u / 8192 != a })

/-- The form of a transfer (R236, R390). -/
def transfer (o : MTr) (store : Bool) (k : Nat) (_ : Block) (q : Seq) (s : State) : MAct :=
  let code := o.d.toNat
  if q.loading code || q.busyAcc o.a.toNat false then .wait
  else
    let t := q.tile code
    let x : Transfer := { store, acc := o.a.toNat, reg := code, tile := t, ty := o.ty.toNat, row := 0, seq := s.seqNo, posted := [] }
    let faults := (if [0x02, 0x08, 0x0A].contains x.ty then [] else [((0x06, 0, 0xFF) : MFault)])
      ++ t.faults code ++ (if 128 < t.cols then [((0x06, 0, code) : MFault)] else [])
      ++ t.capFaults code (if store then permWR else permRD) ((upto 0 t.rows).map x.span)
    match firstFault faults with
    | some f => .fault f.1 f.2.1 f.2.2
    | none => .go (s.nextSeq.2.modSeq k fun q => { q with xfers := q.xfers ++ [x] })

/-- `m.acst`. -/
def execMAcst (o : MTr) (s : State) : Res := s.mIssue (transfer o true)
/-- `m.acld`. -/
def execMAcld (o : MTr) (s : State) : Res := s.mIssue (transfer o false)

/-! ### `m.mma` (R230) -/

/-- The faults of an `m.mma` (R230, R390), in the order of its operands. -/
def mmaFaults (b : Block) (q : Seq) (o : MMma) : List MFault :=
  let ca := o.a.toNat
  let cb := o.b.toNat
  let ta := q.tile ca
  let tb := q.tile cb
  let K := ta.cols
  let scales := match o.qa, o.qb with
    | none, none => []
    | some x, some y =>
      if mScaled o.ty then scaleFaults b (q.record x.toNat) (8 + x.toNat) K ta.rows
        ++ scaleFaults b (q.record y.toNat) (8 + y.toNat) K tb.rows
      else [(0x06, 0, 8 + x.toNat)]
    | some x, none => [(0x06, 0, 8 + x.toNat)]
    | none, some y => [(0x06, 0, 8 + y.toNat)]
  ta.faults ca ++ tb.faults cb ++ (if K ≠ tb.cols ∨ K % 32 ≠ 0 then [(0x06, 0, ca)] else []) ++ scales
    ++ ta.capFaults ca permRD ((upto 0 ta.rows).flatMap (ta.spans o.ty K))
    ++ tb.capFaults cb permRD ((upto 0 tb.rows).flatMap (tb.spans o.ty K))

/-- `m.mma.T`: the engine accepts it with its operands captured (R224, R230, R235). -/
def execMMma (o : MMma) (s : State) : Res := s.mIssue fun k b q s =>
  let used := [o.a.toNat, o.b.toNat] ++ ([o.qa, o.qb].filterMap id).map fun x => 8 + x.toNat
  if used.any q.loading || q.busyAcc o.acc.toNat true || q.accepted.isSome then .wait
  else match firstFault (mmaFaults b q o) with
    | some f => .fault f.1 f.2.1 f.2.2
    | none =>
      let scale : Option Desc → Option (Nat × List Word) := fun x => x.map fun r => (8 + r.toNat, q.record r.toNat)
      let m : Mma :=
        { ty := o.ty, acc := o.acc.toNat, a := o.a.toNat, b := o.b.toNat, ta := q.tile o.a.toNat, tb := q.tile o.b.toNat,
          qa := scale o.qa, qb := scale o.qb, mir := q.mir, seq := s.seqNo, mpc := q.mpc, rows := 0, stopped := false,
          bv := none, av := [], handed := false, missing := [] }
      .go (s.nextSeq.2.modSeq k fun q => { q with accepted := some m })

/-! ### Hand-offs (R237, R392) -/

/-- Every operand byte that an `m.mma` will read has been read (R237, R238). -/
def Mma.allRead (m : Mma) : Bool :=
  m.bv.isSome && (upto m.rows (m.ta.rows - m.rows)).all fun i => (AMap.find? m.av i).isSome
/-- An arrival may be made (R237): earlier `m.mma` have read their operands and earlier `m.acst` have landed. -/
def Seq.mayArrive (q : Seq) (n : Nat) : Bool :=
  (q.running.all fun m => !decide (m.seq < n) || m.allRead) && (q.accepted.all fun m => !decide (m.seq < n))
    && q.xfers.all fun x => !(x.store && decide (x.seq < n))

/-- The turnstile that a form names, with the sequencer's cursor for a carousel: STATE without `cr.init` (R390). -/
def Seq.arriveTs (q : Seq) (b : Block) : MSync → Option (Nat × Seq)
  | .ts t => some (t.toNat, q)
  | .cr c cons => match AMap.find? b.cr c.toNat with
    | none => none
    | some r =>
      let x := cursorOf q.cursors c.toNat cons
      some (passTs r x.i cons, { q with cursors := AMap.set Cursor.init q.cursors (cursorKey c.toNat cons) (x.step r.n) })

/-- An arrival of order number n is made: the running `m.mma`, if it is earlier, has read what it will read, and is not read again (R237, R238). -/
def Seq.hand (n : Nat) (q : Seq) : Seq :=
  { q with running := q.running.map fun m => if m.seq < n then { m with handed := true, missing := [] } else m }
/-- Make an arrival of order number n at a turnstile. -/
def State.seqArrive (s : State) (k t n : Nat) : State := (s.modSeq k (Seq.hand n)).modBlock k fun b => b.arrive t

/-- `m.arrive`: made at once when its conditions hold and none is deferred, else deferred (R237). -/
def execMArrive (o : MArr) (s : State) : Res := s.mIssue fun k b q s =>
  match q.arriveTs b o.at_ with
  | none => .fault 0x07 0 0xFF
  | some (t, q') =>
    let n := s.seqNo
    let s := s.nextSeq.2.modSeq k fun _ => q'
    if q.arrives.isEmpty && q.mayArrive n then .go (s.seqArrive k t n)
    else .go (s.modSeq k fun q => { q with arrives := q.arrives ++ [(t, n)] })

/-- `m.wait` (R114, R237, R392): the turnstile and the phase that completes it; its completion is an acquire at block scope. One that was parked when its
turnstile was abandoned faults on its next turn, whatever the turnstile is by then. -/
def execMWait (o : MWait) (s : State) : Res := s.mIssue fun k b q s =>
  let wait := fun (t : Nat) (car : Option Nat) (ok : Bool) (fin : Seq → Seq) =>
    let pass := MAct.go ((s.dropL1 k).modSeq k fin)
    let lost := match q.hold with | .abandoned _ _ => true | _ => false
    if lost then .fault 0x18 0 0xFF
    else if q.hold == .released then pass
    else if (b.turnstile t).abandoned then .fault 0x18 0 0xFF
    else if ok then pass
    else .hold s (.ts t car)
  match o.at_ with
  | .ts t =>
    let ph := AMap.get false q.ph t.toNat
    wait t.toNat none ((b.turnstile t.toNat).ph != ph) fun q => { q with ph := AMap.set false q.ph t.toNat (!ph) }
  | .cr c cons => match AMap.find? b.cr c.toNat with
    | none => .fault 0x07 0 0xFF
    | some r =>
      let x := cursorOf q.cursors c.toNat cons
      let t := waitTs r x.i cons
      wait t (some c.toNat) ((b.turnstile t).ph == waitPh x.b cons) fun q => match o.d with
        | some d => q.setMs d.toNat (x.i + b01 x.b * 2 ^ 8)
        | none => q

/-! ### Control (R235, R239) -/

/-- The target of a stream branch: a signed word offset; the spec states no address outside the 57-bit space, and the target wraps there, as the
next MPC does (log 58). [log 58: DESIGN CHOICE] -/
def streamTarget (mpc : Nat) (off : BitVec 18) : Nat := wrap 57 ((mpc : Int) + 8 * off.toInt)

/-- `m.loop`. -/
def execMLoop (o : MLoop) (s : State) : Res := s.mIssue fun k _ q s =>
  let m := o.ms.toNat
  let n := (q.msReg m + 1) % 2 ^ 64
  if o.n = 0 then .fault 0x06 0 0xFF
  else if n < o.n.toNat then .jump (s.modSeq k fun q => q.setMs m n) (streamTarget q.mpc o.target)
  else .go (s.modSeq k fun q => q.setMs m 0)
/-- `m.jmp`. -/
def execMJmp (o : MJmp) (s : State) : Res := s.mIssue fun _ _ q s =>
  if o.hi ≠ 0 then .fault 0x06 0 0xFF else .jump s (streamTarget q.mpc o.target)
/-- `m.end`. -/
def execMEnd (s : State) : Res := s.mIssue fun k _ _ s => .go (s.modSeq k fun q => { q with ended := true })
/-- `m.mirror`: MODE 3 is reserved (R390). -/
def execMMirror (o : MMir) (s : State) : Res := s.mIssue fun k _ _ s =>
  if o.mode = 3 then .fault 0x02 0 0xFF else .go (s.modSeq k fun q => { q with mir := o.mode.toNat })
/-- `m.rowp`. -/
def execMRowp (o : MRowp) (s : State) : Res := s.mIssue fun k _ _ s =>
  .go (s.modSeq k fun q => q.setMs o.d.toNat q.rowprog.toNat)

end Sys2Proof.Machine
end

