-- ==== Sys2Proof/Machine/CopyQ.lean ====
section
/-!
DEFINITION. Sys2Proof/Machine/CopyQ.lean: appends to queues and page instructions (R208, R209, R211, R219, R220, R365), with
the claim at the header's home.
-/

namespace Sys2Proof.Machine

/-- SLOTS, the phase of the first lap and SLOTBASE of a header at a physical address (R208). -/
def State.hdrSlots (s : State) (pa : Nat) : Nat := 2 ^ bits (s.dw (pa + 16)) 0 5
def State.hdrPh (s : State) (pa : Nat) : Bool := bit (s.dw (pa + 16)) 8
def State.hdrBase (s : State) (pa : Nat) : Nat := bits (s.dw (pa + 24)) 6 51 * 64
/-- The valid bit of claim w (R209). -/
def validBit (ph : Bool) (logslots w : Nat) : Bool := ph != bit (w / 2 ^ logslots) 0

/-- The queue slot with which a header at a physical address is registered. -/
def State.slotAt (s : State) (pa : Nat) : Option QueueSlot :=
  ((s.slots.filter fun x => x.2.registered && x.2.hdrPa == pa).head?).map fun x => x.2
/-- LOGSLOTS, PH and SLOTBASE of a queue: those that its registration has read (R208); of an unregistered one those that memory holds. -/
def State.hdrOf (s : State) (pa : Nat) : Nat × Bool × Nat :=
  match s.slotAt pa with
  | some q => (q.logslots, q.ph, q.slotbase)
  | none => (bits (s.dw (pa + 16)) 0 5, s.hdrPh pa, s.hdrBase pa)
/-- One indivisible claim at a header (R209): none when no slot is free, else the claim index, its slot and its valid bit. -/
def State.claimAt (s : State) (vi pa : Nat) : Option (Nat × Nat × Bool) × State :=
  let w := s.dw pa
  let r := s.dw (pa + 8)
  let (logslots, ph, base) := s.hdrOf pa
  if (w + 2 ^ 64 - r) % 2 ^ 64 < 2 ^ logslots then
    (some (w, base + 64 * (w % 2 ^ logslots), validBit ph logslots w), s.writeFor vi (.pa pa) (bytesOf 8 ((w + 1) % 2 ^ 64)))
  else (none, s)

/-- Write pD in every active lane. -/
def Ctx.putOk (c : Ctx) (d : Nat) (ok : Bool) (s : State) : State :=
  s.modTeam c.k c.t fun tm => { tm.setPIn d c.f.mask (if ok then fullMask 1024 else 0) with claim := none }

/-- Store the packet of an answered claim: seven doublewords, a device-scope release, then the eighth with its valid bit
(R111, R211). The scalars are read now, after the claim has been answered. -/
def Ctx.append (c : Ctx) (cl : Claim) (pkt : List Word) (q w slot : Nat) (v : Bool) (s : State) : Act :=
  match s.hit c.k c.tm c.b.asid slot true with
  | none => .wait (s.addWalk c.k c.t c.csn c.b.asid slot true false c.word q 0)
  | some pa =>
    let (s1, s) := s.nextSeq
    let (s2, s) := s.nextSeq
    let body := (pkt.take 7).flatMap fun x => bytesOf 8 x.toNat
    let last := bits (nth 0 pkt 7).toNat 0 63 + b01 v * 2 ^ 63
    let req : Nat → Nat → List Byte → Option Scope → StReq := fun seq d xs rel =>
      { seq, team := c.t, csn := c.csn, loc := .pa (pa + d), bytes := xs, tag := false, atom := none, rel }
    let s := c.enter [req s1 0 body none, req s2 56 (bytesOf 8 last) (some .dev)] s
    let s := s.noteReach c.k c.t cl.seq 0 [s1, s2]
    let drem := bit (nth 0 pkt 0).toNat 47
    let app : App :=
      { asid := c.b.asid, hdr := cl.q, w, name := c.b.name, vi := c.b.vi, team := c.t, drem
        launch := bits (nth 0 pkt 0).toNat 0 8 == 7 }
    let s : State := { s with apps := s.apps ++ [app] }
    let s := s.modTeam c.k c.t fun tm => { tm with cpycnt := tm.cpycnt + 1, remote := tm.remote + b01 drem }
    .done (c.putOk cl.d true s)

/-- The append of a packet (R211). -/
def Ctx.put (c : Ctx) (d : PReg) (q : CReg) (pkt : List Word) (s : State) : Act :=
  match c.tm.claim with
  | some cl =>
    if cl.csn = c.csn && c.f.hold != .none then
      match cl.answer with
      | none => .park (.poll 0) s
      | some none => .done (c.putOk cl.d false s)
      | some (some (w, slot, v)) => c.append cl pkt q.toNat w slot v s
    else .wait s
  | none =>
    let base := capBase (c.tm.creg q.toNat).1
    let x : Access := { cap := q.toNat, kinds := [4], perm := permWR + permAT + permEN, n := 64, align := 64, once := true,
                        addrs := [(lowLane c.f.mask, (base : Int))] }
    checked c.tm [x] <|
      if c.tm.cpycnt = 65535 then .done (c.putOk d.toNat false s)
      else match s.hit c.k c.tm c.b.asid (base % 2 ^ 57) true with
        | none => .wait (s.addWalk c.k c.t c.csn c.b.asid (base % 2 ^ 57) true false c.word q.toNat 0)
        | some pa =>
          let (seq, s) := s.nextSeq
          let cl : Claim := { csn := c.csn, d := d.toNat, q := base % 2 ^ 57, pa, seq, answer := none, pc := c.f.pc,
                              word := c.word, lane := lowLane c.f.mask, hnd := c.tm.handler }
          .park (.poll 0) (s.modTeam c.k c.t fun tm => { tm with claim := some cl })

/-- `cpy.put` (R211). -/
def issueCpyPut (o : CpyPut) : Issue :=
  { g := o.g, copyOnly := true, access := true,
    reads := .c o.q.toNat :: (upto o.a.toNat 8).map fun r => .s r, writes := refPD o.d,
    body := fun c _ s => c.put o.d o.q ((upto o.a.toNat 8).map c.tm.sreg) s }
def execCpyPut (o : CpyPut) (s : State) : Res := s.issue (issueCpyPut o)

/-- The 32-bit halves of four scalars, low half first. -/
def halvesOf (tm : Team) (r : Nat) : List Nat :=
  (upto r 4).flatMap fun i => [bits (tm.sreg i).toNat 0 32, bits (tm.sreg i).toNat 32 32]
/-- The packet of `cpy.idx` (R211). -/
def idxPacket (tm : Team) (a b : Nat) : List Word :=
  let ix := (halvesOf tm b).foldr (fun h acc => bits h 0 24 + acc * 2 ^ 24) 0
  [BitVec.ofNat 64 ((tm.sreg a).toNat ||| 2 ^ 10), tm.sreg (a + 1), tm.sreg (a + 2), tm.sreg (a + 3),
   BitVec.ofNat 64 (bits ix 0 64), BitVec.ofNat 64 (bits ix 64 64), BitVec.ofNat 64 (bits ix 128 64), tm.sreg (a + 4)]
/-- `cpy.idx` (R211, R365): OPERAND for a KIND other than 3 and 4 or an index beyond 24 bits. -/
def issueCpyIdx (o : CpyIdx) : Issue :=
  { g := o.g, copyOnly := true, access := true,
    reads := .c o.q.toNat :: ((upto o.a.toNat 5) ++ (upto o.b.toNat 4)).map fun r => .s r, writes := refPD o.d,
    body := fun c _ s =>
      let kind := bits (c.tm.sreg o.a.toNat).toNat 0 8
      if c.tm.claim.isNone && kind != 3 && kind != 4 then .trap 0x06 7 0 none
      else if c.tm.claim.isNone && (halvesOf c.tm o.b.toNat).any fun h => decide (2 ^ 24 ≤ h) then .trap 0x06 8 0 none
      else c.put o.d o.q (idxPacket c.tm o.a.toNat o.b.toNat) s }
def execCpyIdx (o : CpyIdx) (s : State) : Res := s.issue (issueCpyIdx o)

/-- `QUEUE_CLAIM`: the claim of a team reaches its queue header's home and is answered in one step (R209, R211, R371). It waits for a line that
an agent owns (R113), and for its sector (R308). -/
def execQueueClaim (core team : Nat) (s : State) : Res :=
  match s.block core, s.team core team with
  | some b, some tm =>
    match tm.claim with
    | some cl =>
      if cl.answer.isSome then .next s
      else if s.agentWaits s.seqNo s.seqNo (.pa cl.pa) then .next s
      else if !s.mayFill cl.pa 32 then .next (s.ask core cl.pa 32)
      else if s.poisonedAt (.pa cl.pa) 32 then
        if tm.haltReqs.any fun r => r.code == 0x19 then .next s
        else .next (s.requestHalt core team
          { code := 0x19, aux := 0, pc := cl.pc + 8, word := cl.word, lane := cl.lane,
            fault := some (faultWord cl.q false ((Fields.ofWord cl.word).a.toNat % 32)), hnd := cl.hnd })
      else
        let s := s.noteLevel core team cl.seq (s.homeReach core cl.pa 32)
        let (a, s) := (s.l2Fill cl.pa 32).claimAt b.vi cl.pa
        .next (s.modTeam core team fun tm => { tm with claim := some { cl with answer := some a } })
    | none => .next s
  | _, _ => .next s

/-! ### Pages -/

/-- Is the page of an address present, and writable where that is asked (R219, R220)? -/
def State.pageOk (s : State) (asid va : Nat) (wr : Bool) : Bool :=
  match s.walk asid va with
  | .leaf _ _ w _ _ => w || !wr
  | _ => false
/-- The access of a page form. -/
def pgAccess (c : Ctx) (E : Mask) (cap : CReg) (idx : VIdx) (disp : BitVec 8) (scale : BitVec 2) : Access :=
  { cap := cap.toNat, kinds := [0, 1, 2, 5], perm := permRD, n := 1, align := 1,
    addrs := c.addrs cap.toNat scale (c.srcVI idx) disp (lanesOf c.tm.L E) }

/-- `pg.req` (R219): one record for each distinct page that is absent, or not writable under `.w`; they enter the ring in the order of their pages.
[log 17: DEDUCED] [log 64: DESIGN CHOICE] -/
def issuePgReq (o : PgReq) : Issue :=
  { g := o.g, perLane := true, access := true, reads := .c o.cap.toNat :: refVI o.idx, vregs := vOfVI 7 o.idx,
    body := fun c E s =>
      let x := pgAccess c E o.cap o.idx o.disp o.scale
      checked c.tm [x] <|
        if capKind (c.tm.creg o.cap.toNat).1 = 1 then .done s
        else
          let pages := x.addrs.foldl (fun l p => insSorted (addrNat p.2 % 2 ^ 57 / 65536) l) []
          .done ((pages.filter fun pg => !s.pageOk c.b.asid (pg * 65536) o.w).foldl
            (fun s pg => s.postPage c.b.vi 0 o.w (pg * 65536) c.b.asid c.k c.t) s) }
def execPgReq (o : PgReq) (s : State) : Res := s.issue (issuePgReq o)

/-- `pg.test` (R220): true for a page present, and writable for `.w`, at its walk; true for a scratchpad capability. [log 17: DEDUCED] -/
def issuePgTest (o : PgTest) : Issue :=
  { g := o.g, perLane := true, access := true, reads := .c o.cap.toNat :: refVI o.idx, writes := [.p o.d.toNat],
    vregs := vOfVI 7 o.idx,
    body := fun c E s =>
      let x := pgAccess c E o.cap o.idx o.disp o.scale
      checked c.tm [x] <|
        let sp := capKind (c.tm.creg o.cap.toNat).1 == 1
        .done (c.pend .page o.la.toNat [.p o.d.toNat]
          (.pgtest o.d.toNat (x.addrs.map fun p => (p.1, sp || s.pageOk c.b.asid (addrNat p.2 % 2 ^ 57) o.w))) s) }
def execPgTest (o : PgTest) (s : State) : Res := s.issue (issuePgTest o)

end Sys2Proof.Machine
end

