-- ==== Sys2Proof/Machine/CopyEvents.lean ====
section
/-!
DEFINITION. Sys2Proof/Machine/CopyEvents.lean: the copy engines (R99, R113, R118, R208 to R218, R243, R371, R373 to R377, R382): packets
are read, started, carried out line by line and completed, or fail.
-/

namespace Sys2Proof.Machine

/-! ### Reading and writing for an engine (R89, R214) -/

/-- What an engine's access finds: bytes with whether each is poisoned; something to wait for; a page that is not resident; or a
failure code with its address (R374). -/
inductive VaRead
  | ok (xs : List (Byte × Bool)) (s : State)
  | wait
  | miss (va : Nat) (s : State)
  | fail (code addr : Nat)

/-- Bytes where they stand, each with whether its unit is poisoned. -/
def State.bytesBad (s : State) (l : Loc) (n : Nat) : List (Byte × Bool) :=
  (s.readLoc l n).zip ((upto 0 n).map fun i => s.poisonedAt (l.add i) 1)
/-- The failure code of a walk: malformed tables; poisoned ones; or tables in host memory over a link that is down (R366, R371, R374, R382).
[log 47: DESIGN CHOICE] -/
def State.walkFail (s : State) (asid va : Nat) (poison : Bool) : Nat :=
  if !poison then 0x05 else if !s.linkUp && (s.tables asid va).any isHost then 0x0A else 0x06
/-- Read virtual memory through the walk-ahead TLB for an agent of order number `no` (R113, R214); host memory over a link that is down
fails with HOSTDOWN (R382). -/
def State.readVa (s : State) (engine asid va n no : Nat) : VaRead :=
  (pieces va n).foldl (fun (r : VaRead) p => match r with
    | .ok xs s => match s.engineXlat engine asid (p.1 % 2 ^ 57) false with
      | (.ok pa, s) =>
        if isHost pa && !s.linkUp then .fail 0x0A p.1
        else if s.agentWaitsOver no no (.pa pa) p.2 || !s.mayFill pa p.2 then .wait
        else .ok (xs ++ s.bytesBad (.pa pa) p.2) (s.l2Fill pa p.2)
      | (.absent, s) => .miss (p.1 % 2 ^ 57) s
      | (.bad q, _) => .fail (s.walkFail asid (p.1 % 2 ^ 57) q) (p.1 % 2 ^ 57)
      | (.busy, _) => .wait
    | r => r) (.ok [] s)
/-- Read the scratchpad of a named block (R20, R98) for an agent of order number `no`: it must carry the name and hold the range in its requested
area; a saved block, a clear presence bit, a busy subarray and a line that an `m.acst` owns are waited for (R99, R113, R116). -/
def State.readSp (s : State) (vi name off n no : Nat) : VaRead :=
  match s.named vi name with
  | none => .fail 0x07 off
  | some (.kept _) => .wait
  | some (.on k) => match s.block k with
    | none => .fail 0x07 off
    | some b =>
      if b.area < off + n then .fail 0x07 off
      else if !b.present off n || s.subWaits k off n s.seqNo || s.agentWaitsOver no no (.sp k off) n then .wait
      else .ok (s.bytesBad (.sp k off) n) s

/-- What reading the bytes of one destination line finds, with the address of the first poisoned source. -/
inductive LineRead
  | ok (xs : List (Nat × Byte × Bool)) (bad : Option Nat) (s : State)
  | wait
  | miss (va : Nat) (s : State)
  | fail (code addr : Nat)
/-- Read all that a packet's movements will put on a line, in their order (R99, R215, R216). -/
def readLine (rd : State → Nat → Nat → VaRead) (line : Nat) : List Move → State → List (Nat × Byte × Bool) → Option Nat → LineRead
  | [], s, xs, bad => .ok xs bad s
  | m :: ms, s, xs, bad =>
    match m.part line with
    | none => readLine rd line ms s xs bad
    | some (lo, hi) =>
      match m.src with
      | none => readLine rd line ms s (xs ++ (upto (lo - 256 * line) (hi - lo)).map fun o => (o, 0, false)) bad
      | some a =>
        match rd s (a + (lo - m.dst)) (hi - lo) with
        | .wait => .wait
        | .miss va s => .miss va s
        | .fail c v => .fail c v
        | .ok ys s =>
          let new := (upto 0 (hi - lo)).map fun i => (lo - 256 * line + i, nth (0, false) ys (m.from_ i))
          let at_ := (findIx (fun y : Byte × Bool => y.2) ys 0).map fun x => a + (lo - m.dst) + x.1
          readLine rd line ms s (xs ++ new) (bad.orElse fun _ => at_)

/-- One unit of a line: written at once when it is wholly covered, and poisoned when a byte of it comes from poison (R370, R371). -/
def State.landUnit (s : State) (base : Loc) (unit u : Nat) (m : AMap (Byte × Bool)) : State :=
  let here := (upto (unit * u) unit).filterMap fun o => (AMap.find? m o).map fun x => (o, x)
  let s := if here.length = unit then s.writeLoc (base.add (unit * u)) (here.map fun x => x.2.1)
    else here.foldl (fun s x => s.writeLoc (base.add x.1) [x.2.1]) s
  if here.any fun x => x.2.2 then s.poisonAt (base.add (unit * u)) unit else s
/-- Write the bytes of a line, of which a later one replaces an earlier one (R216). -/
def State.landBytes (s : State) (base : Loc) (xs : List (Nat × Byte × Bool)) : State :=
  let m : AMap (Byte × Bool) := xs.foldl (fun m x => AMap.put m x.1 x.2) []
  let unit := match base with | .pa _ => 32 | .sp _ _ => 8
  (upto 0 (256 / unit)).foldl (fun s u => s.landUnit base unit u m) s

/-- What landing does. -/
inductive LandOut
  | ok (s : State)
  | wait
  | miss (va : Nat) (s : State)
  | fail (code addr : Nat)
/-- Write a line in memory for an agent of order number `no` (R113, R214): whole, once no other agent owns it. -/
def State.landVa (s : State) (no engine asid line : Nat) (xs : List (Nat × Byte × Bool)) : LandOut :=
  let va := 256 * line % 2 ^ 57
  match s.engineXlat engine asid va true with
  | (.absent, s) => .miss va s
  | (.bad q, _) => .fail (s.walkFail asid va q) va
  | (.busy, _) => .wait
  | (.ok pa, s) =>
    if isHost pa && !s.linkUp then .fail 0x0A va
    else if s.agentWaits no no (.pa pa) then .wait
    else
      let s := s.landBytes (.pa pa) xs
      .ok (s.modCluster engine fun c => { c with hostl2 := c.hostl2.filter fun x => x.1 / 8 != pa / 256 })
/-- Change the lines of a block's scratchpad whose presence bit is clear. -/
def Block.modAbsent (b : Block) (f : AMap Nat → AMap Nat) : Block := { b with sp := { b.sp with absent := f b.sp.absent } }
/-- Write a line of a named block's scratchpad (R98, R99): landings of copies that name one line take place in issue order, and the
presence bit is set by the most recently issued one. -/
def State.landSp (s : State) (vi name line issueNo : Nat) (xs : List (Nat × Byte × Bool)) : LandOut :=
  let top := xs.foldl (fun a x => max a (256 * line + x.1 + 1)) 0
  match s.named vi name with
  | none => .fail 0x07 (256 * line)
  | some (.kept _) => .wait
  | some (.on k) => match s.block k with
    | none => .fail 0x07 (256 * line)
    | some b =>
      if b.area < top then .fail 0x07 (256 * line)
      else if s.landBefore vi name line issueNo || s.subWaits k (256 * line) 256 s.seqNo
          || s.agentWaits issueNo issueNo (.sp k (256 * line)) then .wait
      else
        let s := s.landBytes (.sp k (256 * line)) xs
        .ok (s.modBlock k fun b => b.modAbsent fun m => if AMap.find? m line = some issueNo then AMap.erase m line else m)

/-! ### Queues and their packets -/

/-- The queues of an interface are served (R326). -/
def State.serves (s : State) (vi : Nat) : Bool := decide (s.power = .booted) && bit (s.iface vi).victl.toNat 0
def State.modStarted (s : State) (slot : Nat) (f : Started → Started) : State :=
  s.modSlot slot fun q => { q with started := q.started.map f }
/-- The engine posts a record with SRC 2, and the packet waits for its page (R373). [log 52: DEDUCED] -/
def State.waitFor (s : State) (slot va : Nat) (wr : Bool) : State :=
  let q := s.slot slot
  (s.postPage (slot / 32) 2 wr va q.asid q.engine 0).modStarted slot fun st => { st with wait := some (va / 65536) }
/-- The appending team's CPYCNT falls (R52, R218, R375), and its remote packets (R351). -/
def State.appDone (s : State) (asid hdr w : Nat) : State :=
  match s.apps.find? fun a => a.asid == asid && a.hdr == hdr && a.w == w with
  | none => s
  | some a =>
    let s := { s with apps := s.apps.filter fun x => !(x.asid == asid && x.hdr == hdr && x.w == w) }
    match s.named a.vi a.name with
    | none => s
    | some n => s.modNamed n fun b => b.modTeam a.team fun tm =>
        { tm with cpycnt := tm.cpycnt - 1, remote := tm.remote - b01 a.drem }
/-- Every line whose presence bit a copy cleared, and on which no later one has cleared it again, has its bit set (R99). -/
def Block.unclear (issueNo : Nat) (b : Block) : Block := b.modAbsent fun m => m.filter fun x => x.2 != issueNo
def State.unclear (s : State) (vi : Nat) (st : Started) : State :=
  if !pkDsp st.pkt then s
  else match s.named vi (pkSpcore st.pkt) with
    | none => s
    | some n => s.modNamed n (Block.unclear st.issueNo)
/-- The arrival of a failed packet: its turnstile becomes abandoned, and counts the arrival (R372, R375). -/
def State.failArrival (s : State) (vi : Nat) (t : Option (Nat × Nat)) : State :=
  match t with
  | none => s
  | some (name, n) => match s.named vi name with
    | none => s
    | some x => s.modNamed x fun b => (b.abandonOne n).arrive n
/-- A packet or launch fails (R375): the arrival that it names, a kind-3 entry, and its queue stops. -/
def State.failEntry (s : State) (slot claim kind code addr word : Nat) (turn : Option (Nat × Nat)) (part unknown : Bool) (ddev : Nat) :
    State :=
  let q := s.slot slot
  let vi := slot / 32
  let s := if code = 0x0D then s else s.failArrival vi turn
  let s := s.postFault vi 3 code (sourceOf 2 q.engine) 0
    [claim, slot % 32 + kind % 256 * 2 ^ 5 + b01 part * 2 ^ 13 + b01 unknown * 2 ^ 14, addr % 2 ^ 57, word, ddev, 0]
    none (some (q.asid, q.hdr, claim)) none
  s.modSlot slot fun q => { q with stopped := true }
/-- The started packet of a queue fails; where a part of it is with a peer that has not answered, its sender cannot know what that has done (R383). -/
def State.failStarted (s : State) (slot : Nat) (st : Started) (code addr : Nat) (unknown : Bool) : State :=
  let s := (s.unclear (slot / 32) st).modSlot slot fun q => { q with started := none }
  s.failEntry slot st.claim (pkKind st.pkt) code addr ((pkWord st.pkt).getD 0) (pkTurn st.pkt) st.effect (unknown || st.sent) (pkDdev st.pkt)
/-- A packet fails before it has started. -/
def State.failHead (s : State) (slot claim : Nat) (p : List Word) (code addr : Nat) : State :=
  s.failEntry slot claim (pkKind p) code addr ((pkWord p).getD 0) (pkTurn p) false false (pkDdev p)

/-! ### Reading packets (R26, R209, R210) -/

/-- What an engine finds in the next slot of a queue. -/
inductive Peek
  | none
  | wait (va : Nat)
  | miss (va : Nat) (s : State)
  | fail (code va : Nat)
  | packet (p : List Word) (s : State)
/-- Read the slot of claim RIDX: a packet is there when its valid bit shows the phase of the lap (R209). [log 43: DESIGN CHOICE] -/
def State.peek (s : State) (slot : Nat) : Peek :=
  let q := s.slot slot
  let va := q.slotbase + 64 * (q.ridx % 2 ^ q.logslots)
  if !q.registered || q.stopped || q.closing || q.wait.isSome || q.head.isSome || q.started.isSome || q.actionHeld || !s.serves (slot / 32) then .none
  else match s.readVa q.engine q.asid va 64 s.seqNo with
    | .wait => .wait va
    | .miss v s => .miss v s
    | .fail code v => if code = 0x0A then .none else .fail code v
    | .ok xs s =>
      let p := (upto 0 8).map fun i => BitVec.ofNat 64 (leNat (((xs.drop (8 * i)).take 8).map fun x => x.1))
      if bit (pdw p 7) 63 != validBit q.ph q.logslots q.ridx then .none
      else if xs.any fun x => x.2 then .fail 0x06 va
      else .packet p s
/-- The engine has read a packet: RIDX rises in the header (R210). [log 43: DESIGN CHOICE] -/
def State.taken (s : State) (slot : Nat) : State :=
  let q := s.slot slot
  let r := (q.ridx + 1) % 2 ^ 64
  (s.writeFor (slot / 32) (.pa (q.hdrPa + 8)) (bytesOf 8 r)).modSlot slot fun q => { q with ridx := r }
/-- The slot's page is not resident: its queue alone is held (R373). -/
def State.slotWait (s : State) (slot va : Nat) : State :=
  let q := s.slot slot
  (s.postPage (slot / 32) 2 false va q.asid q.engine 0).modSlot slot fun q => { q with wait := some (va / 65536) }
/-- Eight zero doublewords: a slot that cannot be read. -/
def noPacket : List Word := [0, 0, 0, 0, 0, 0, 0, 0]

/-- `PACKET_READ`: the next packet of a queue, other than a launch, becomes its head (R118, R210). [log 43: DESIGN CHOICE] -/
def execPacketRead (slot : Nat) (s : State) : Res :=
  if !(s.slot slot).launches.isEmpty then .next s
  else match s.peek slot with
    | .none => .next s
    | .wait va => .next (s.askVa (s.slot slot).engine (s.slot slot).asid va 64)
    | .miss va s => .next (s.slotWait slot va)
    | .fail code va => .next ((s.taken slot).failHead slot (s.slot slot).ridx noPacket code va)
    | .packet p s =>
      if pkKind p = 0x07 then .next s
      else .next ((s.taken slot).modSlot slot fun q => { q with head := some p })

/-- The queues of an engine whose head may start, in the order of R210: the lowest PRIO, rotating by slot; drains after all others
unless `early` (R217). Each engine keeps one place in the rotation, after the slot that it started last. A queue that is being
unregistered starts no packet (R327). [log 60: DESIGN CHOICE] -/
def State.heads (s : State) (engine : Nat) (early : Bool) : List (Nat × QueueSlot) :=
  let can := s.slots.filter fun x => x.2.registered && x.2.engine == engine && !x.2.stopped && !x.2.closing && x.2.head.isSome
    && x.2.started.isNone && s.serves (x.1 / 32)
  let last := ((s.cluster engine).lastSlot).getD 2047
  let key := fun (x : Nat × QueueSlot) =>
    let late := pkKind (x.2.head.getD []) == 0x06 && !(early && decide (bits (s.iface (x.1 / 32)).drainshare.toNat 0 8 ≠ 0))
    b01 late * 2 ^ 20 + x.2.prio * 2 ^ 12 + (x.1 + 2048 - last - 1) % 2048
  can.foldl (fun l x => insertBy key x l) []

/-- The trace record of a packet (R360). -/
def State.tracePacket (s : State) (slot claim : Nat) (done : Bool) (clips : Nat) : State :=
  s.traceRec (slot / 32) (sourceOf 2 (s.slot slot).engine) 7 [claim, slot % 32 + b01 done * 2 ^ 5 + clips % 2 ^ 32 * 2 ^ 6]

/-- The named block of a packet's scratchpad is live and holds the destination range in its requested area (R98, R374). -/
def State.scratchFault (s : State) (vi : Nat) (p : List Word) : Option Nat :=
  if !(pkDsp p || pkSsp p) then none
  else match (s.named vi (pkSpcore p)).bind s.namedBlock with
    | none => some 0
    | some b => if pkDsp p && decide (b.area < pdw p 2 + spDstLen p) then some (pdw p 2) else none

/-- `PACKET_START`: the engine of a slice starts the head packet that R210 chooses: its fields are checked (R373, R374), and a copy into
a scratchpad clears the presence bits of the lines that it may write (R99). -/
def execPacketStart (slice : Nat) (s : State) : Res :=
  let (early, s) := s.freeBit
  match s.heads slice early with
  | [] => .next s
  | (slot, q) :: _ =>
    let p := q.head.getD []
    let claim := (q.ridx + 2 ^ 64 - 1) % 2 ^ 64
    let vi := slot / 32
    let s := (s.modCluster slice fun c => { c with lastSlot := some slot }).modSlot slot fun q => { q with head := none }
    let s := s.tracePacket slot claim false 0
    match packetCheck q.priv vi p with
    | some code => .next (s.failHead slot claim p code 0)
    | none =>
      match s.scratchFault vi p with
      | some addr => .next (s.failHead slot claim p 0x07 addr)
      | none =>
        let (n, s) := s.nextSeq
        let st : Started :=
          { pkt := p, claim, expanded := false, moves := [], got := [], clips := 0, issueNo := n, effect := false, poisoned := none
            acked := false, since := s.clock, wait := none }
        let s := s.modSlot slot fun q => { q with started := some st }
        if !pkDsp p then .next s
        else match s.named vi (pkSpcore p) with
          | none => .next s
          | some x => .next (s.modNamed x fun b => b.modAbsent fun m => (spLines p b.area).foldl (fun m l => AMap.put m l n) m)

/-! ### Carrying packets out -/

/-- How the engine of a queue reads a source (R214). -/
def State.sourceRead (slot : Nat) (q : QueueSlot) (p : List Word) (no : Nat) : State → Nat → Nat → VaRead := fun s a n =>
  if pkSsp p then s.readSp (slot / 32) (pkSpcore p) a n no else s.readVa q.engine q.asid a n no

/-- The own step of a kind of copy: its rows are known from here on (R213, R216). [log 44: DESIGN CHOICE] -/
def State.expand (s : State) (slot kind : Nat) : Res :=
  let q := s.slot slot
  match q.started with
  | none => .next s
  | some st =>
    if st.expanded || st.wait.isSome || pkKind st.pkt != kind then .next s
    else
      let go := fun (s : State) (ix : List Nat) =>
        let (moves, clips) := packetMoves st.pkt ix
        s.modStarted slot fun st => { st with expanded := true, moves, clips }
      if kind = 3 ∨ kind = 4 then
        if pkInl st.pkt then .next (go s ((upto 0 (pkCount st.pkt)).map (pkIndex st.pkt)))
        else match s.readVa q.engine q.asid (pkIdx st.pkt) (4 * pkCount st.pkt) st.issueNo with
          | .wait => .next (s.askVa q.engine q.asid (pkIdx st.pkt) (4 * pkCount st.pkt))
          | .miss va s => .next (s.waitFor slot va false)
          | .fail code va => .next (s.failStarted slot st code va false)
          | .ok xs s =>
            match findIx (fun x : Byte × Bool => x.2) xs 0 with
            | some b => .next (s.failStarted slot st 0x06 (pkIdx st.pkt + b.1) false)
            | none =>
              .next (go s ((upto 0 (pkCount st.pkt)).map fun j => leNat (((xs.drop (4 * j)).take 4).map fun x => x.1)))
      else .next (go s [])

/-- `LINEAR_COPY` (kind 0x01). -/
def execLinearCopy (slot : Nat) (s : State) : Res := s.expand slot 0x01
/-- `STRIDED_COPY` (kind 0x02). -/
def execStridedCopy (slot : Nat) (s : State) : Res := s.expand slot 0x02
/-- `GATHER` (kind 0x03): the indices are read, and rows beyond the table become zeros (R216). -/
def execGather (slot : Nat) (s : State) : Res := s.expand slot 0x03
/-- `SCATTER` (kind 0x04): the indices are read, and rows beyond the table are not written (R216). -/
def execScatter (slot : Nat) (s : State) : Res := s.expand slot 0x04
/-- `REDUCE` (kind 0x05). -/
def execReduce (slot : Nat) (s : State) : Res := s.expand slot 0x05
/-- `DRAIN` (kind 0x06): a linear copy of the lowest priority (R217). -/
def execDrain (slot : Nat) (s : State) : Res := s.expand slot 0x06

/-- One indivisible 8-byte step of an engine on memory (R217, R218); poison there is consumed when the step reads. Where only P is checked, a
page that is not writable will do (R28). [log 62: DESIGN CHOICE] -/
def State.wordStep (s : State) (engine asid va : Nat) (f : Nat → Nat) (reads : Bool) (onlyP : Bool := false) : LandOut :=
  let found := match s.engineXlat engine asid (va % 2 ^ 57) true with
    | (.absent, s) => if onlyP then s.engineXlat engine asid (va % 2 ^ 57) false else (.absent, s)
    | r => r
  match found with
  | (.absent, s) => .miss (va % 2 ^ 57) s
  | (.bad q, s) => .fail (s.walkFail asid (va % 2 ^ 57) q) (va % 2 ^ 57)
  | (.busy, _) => .wait
  | (.ok pa, s) =>
    if isHost pa && !s.linkUp then .fail 0x0A (va % 2 ^ 57)
    else if s.agentWaits s.seqNo s.seqNo (.pa pa) || (reads && !s.mayFill pa 8) then .wait
    else if reads && s.poisonedAt (.pa pa) 8 then .fail 0x06 (va % 2 ^ 57)
    else .ok ((if reads then s.l2Fill pa 8 else s).setDw pa (f (s.dw pa) % 2 ^ 64))

/-- The value that a signal leaves (R217). -/
def signalVal (p : List Word) (old : Nat) : Nat := if bit (pdw p 4) 0 then old + pdw p 3 else pdw p 3
/-- The signal of a packet of this device. -/
def State.signalHere (s : State) (slot : Nat) : Res :=
  let q := s.slot slot
  match q.started with
  | none => .next s
  | some st =>
    if st.expanded || st.wait.isSome || pkKind st.pkt != 0x08 then .next s
    else if pkDrem st.pkt then .next (s.modStarted slot fun st => { st with expanded := true, sent := true })
    else match s.wordStep q.engine q.asid (pkDst st.pkt) (signalVal st.pkt) (bit (pdw st.pkt 4) 0) with
      | .wait => .next (s.askVa q.engine q.asid (pkDst st.pkt % 2 ^ 57) 8)
      | .miss va s => .next (s.waitFor slot va true)
      | .fail code va => .next (s.failStarted slot st code va false)
      | .ok s => .next (s.modStarted slot fun st => { st with expanded := true, effect := true })

/-- What is left of movements after the first n bytes of the first one. -/
def movesAfter (n : Nat) : List Move → List Move
  | [] => []
  | m :: ms => if m.n ≤ n then ms else { m with src := m.src.map fun a => a + n, dst := m.dst + n, n := m.n - n } :: ms
/-- Read the next part of a packet that has one still to read, and what it has to read then: all that it puts on its next destination
line, or for a drain its next source line, once (R217). Offsets count from the first destination line. [log 44: DESIGN CHOICE] -/
def State.readNext (s : State) (slot : Nat) (q : QueueSlot) (st : Started) : LineRead × Nat × List Move :=
  let line := (st.moves.head?.elim 0 Move.dst) / 256
  let rd := State.sourceRead slot q st.pkt st.issueNo
  if pkKind st.pkt = 6 then
    let n := 256 - (st.moves.head?.elim 0 fun m => m.src.getD 0) % 256
    let first : List Move := st.moves.take 1 |>.map fun m => { m with n := min m.n n }
    (match readLine rd line first s [] none with
      | .ok xs bad s => match readLine rd (line + 1) first s [] bad with
        | .ok ys bad s => .ok (xs ++ ys.map fun y => (256 + y.1, y.2)) bad s
        | r => r
      | r => r, line, movesAfter n st.moves)
  else (readLine rd line st.moves s [] none, line, st.moves.flatMap fun m => m.minus line)
/-- The sources of what a packet puts on a line have to wait (R308). -/
def State.askMoves (s : State) (q : QueueSlot) (st : Started) (line : Nat) : State :=
  if pkSsp st.pkt then s
  else st.moves.foldl (fun s m => match m.part line, m.src with
    | some (lo, hi), some a => s.askVa q.engine q.asid (a + (lo - m.dst)) (hi - lo)
    | _, _ => s) s
/-- Bytes of a line join those that have been read of it. -/
def joinLine (got : List LineData) (line : Nat) (xs : List (Nat × Byte × Bool)) : List LineData :=
  if xs.isEmpty then got
  else if got.any fun d => d.line == line then got.map fun d => if d.line = line then { d with bytes := d.bytes ++ xs } else d
  else got ++ [{ line, bytes := xs }]
/-- Bytes whose offsets count from a line, on it and on the next one. -/
def joinLines (got : List LineData) (line : Nat) (xs : List (Nat × Byte × Bool)) : List LineData :=
  joinLine (joinLine got line (xs.filter fun x => decide (x.1 < 256))) (line + 1)
    ((xs.filter fun x => decide (256 ≤ x.1)).map fun x => (x.1 - 256, x.2))
/-- The oldest line that a packet has read is complete. -/
def Started.lineReady (st : Started) : Bool := st.got.head?.any fun d => !st.moves.any fun m => m.meets d.line
/-- Land the oldest line that a packet has read whole; a line of a peer's memory is sent to it (R331). [log 44: DESIGN CHOICE] -/
def State.landNext (s : State) (slot : Nat) : Res :=
  let q := s.slot slot
  match q.started with
  | none => .next s
  | some st => match st.got with
    | [] => .next s
    | d :: rest =>
      if !st.lineReady then .next s
      else
      let pop := fun (s : State) (eff : Bool) => s.modStarted slot fun st => { st with got := rest, effect := st.effect || eff }
      if pkDrem st.pkt then .next ((pop s false).modStarted slot fun st => { st with sent := true })
      else
        let out := if pkDsp st.pkt then s.landSp (slot / 32) (pkSpcore st.pkt) d.line st.issueNo d.bytes
          else s.landVa st.issueNo q.engine q.asid d.line d.bytes
        match out with
        | .wait => .next s
        | .miss va s => .next (s.waitFor slot va true)
        | .fail code va => .next (s.failStarted slot st code va false)
        | .ok s => .next (pop s true)
/-- The engine of a queue reads a line ahead, or lands the oldest line that it has read (R99, R113, R371). -/
def State.copyLine (s : State) (slot : Nat) : Res :=
  let q := s.slot slot
  match q.started with
  | none => .next s
  | some st =>
    if !st.expanded || st.wait.isSome || [5, 8].contains (pkKind st.pkt) || pkPriv st.pkt then .next s
    else
      let (ahead, s) := s.freeBit
      if st.moves.isEmpty || (st.lineReady && !ahead) then s.landNext slot
      else match s.readNext slot q st with
        | (.wait, line, _) => .next (s.askMoves q st line)
        | (.miss va s, _) => .next (s.waitFor slot va false)
        | (.fail code va, _) => .next (s.failStarted slot st code va false)
        | (.ok xs bad s, line, moves) =>
          let s := s.modStarted slot fun st =>
            { st with got := joinLines st.got line xs, moves
                      poisoned := st.poisoned.orElse fun _ => bad }
          if ahead then .next s else s.landNext slot

/-- The new value of a reduce element (R217). -/
def reduceVal (op d x : Nat) : Nat :=
  match op with
  | 0 => (opAdd (fmtOf .f32) (.m .rne) d x).1
  | 1 => (opAdd (fmtOf .bf16) (.m .rne) d x).1
  | _ => minMaxF (fmtOf .f32) true d x
/-- One element is combined at its destination's home (R217); poison on either side poisons the destination (R371). The second component
says that the destination held poison. -/
def State.combineAt (s : State) (engine asid : Nat) (p : List Word) (va : Nat) (xs : List (Byte × Bool)) : LandOut × Bool :=
  let n := pkElem p
  match s.engineXlat engine asid (va % 2 ^ 57) true with
  | (.absent, s) => (.miss (va % 2 ^ 57) s, false)
  | (.bad q, s) => (.fail (s.walkFail asid (va % 2 ^ 57) q) (va % 2 ^ 57), false)
  | (.busy, _) => (.wait, false)
  | (.ok pa, s) =>
    if isHost pa && !s.linkUp then (.fail 0x0A (va % 2 ^ 57), false)
    else if s.agentWaits s.seqNo s.seqNo (.pa pa) || !s.mayFill pa n then (.wait, false)
    else if (xs.any fun x => x.2) || s.poisonedAt (.pa pa) n then (.ok (s.poisonAt (.pa pa) n), s.poisonedAt (.pa pa) n)
    else
      let s := s.l2Fill pa n
      let d := leNat (s.mem.bytes pa n)
      (.ok (s.writeLoc (.pa pa) (bytesOf n (reduceVal (pkOp p) d (leNat (xs.map fun x => x.1))))), false)
/-- The engine of a queue reads an element ahead, or combines the oldest one that it has read. -/
def State.reduceStep (s : State) (slot : Nat) : Res :=
  let q := s.slot slot
  match q.started with
  | none => .next s
  | some st =>
    if !st.expanded || st.wait.isSome || pkKind st.pkt != 5 then .next s
    else
      let n := pkElem st.pkt
      let combine := fun (s : State) => match (s.slot slot).started with
        | none => Host.Outcome.next s
        | some st => match st.got with
          | [] => .next s
          | d :: rest =>
            let gone := d.bytes.any fun x => x.2.2
            let pop := fun (s : State) (bad : Bool) => s.modStarted slot fun st =>
              { st with got := rest, effect := st.effect || (!bad && !pkDrem st.pkt)
                        poisoned := st.poisoned.orElse fun _ => if bad then some (d.line) else none }
            if pkDrem st.pkt then .next ((pop s gone).modStarted slot fun st => { st with sent := true })
            else match s.combineAt q.engine q.asid st.pkt d.line (d.bytes.map fun x => x.2) with
              | (.wait, _) => .next (s.askVa q.engine q.asid (d.line % 2 ^ 57) n)
              | (.miss va s, _) => .next (s.waitFor slot va true)
              | (.fail code va, _) => .next (s.failStarted slot st code va false)
              | (.ok s, bad) => .next (pop s (bad || gone))
      let (ahead, s) := s.freeBit
      match st.moves with
      | [] => combine s
      | m :: _ =>
        if !st.got.isEmpty && !ahead then combine s
        else match State.sourceRead slot q st.pkt st.issueNo s (m.src.getD 0) n with
          | .wait => .next (s.askVa q.engine q.asid (m.src.getD 0) n)
          | .miss va s => .next (s.waitFor slot va false)
          | .fail code va => .next (s.failStarted slot st code va false)
          | .ok xs s =>
            let s := s.modStarted slot fun st =>
              { st with moves := movesAfter n st.moves, got := st.got ++ [{ line := m.dst, bytes := (upto 0 n).zip xs }] }
            if ahead then .next s else combine s

/-- The completion word after a packet (R218): bits [31:0] rise by 1 and [63:32] by its clips. -/
def wordAfter (clips old : Nat) : Nat := (bits old 0 32 + 1) % 2 ^ 32 + (bits old 32 32 + clips) % 2 ^ 32 * 2 ^ 32
/-- A packet of a queue of this device has performed all that it does. -/
def Started.performed (st : Started) : Bool :=
  st.expanded && st.wait.isNone && st.moves.isEmpty && st.got.isEmpty && (!pkPriv st.pkt || st.acked)
/-- A packet completes: its queue goes on, and its appending team's CPYCNT falls (R118, R218). -/
def State.finishPacket (s : State) (slot : Nat) (st : Started) : State :=
  let q := s.slot slot
  let s := (s.unclear (slot / 32) st).modSlot slot fun q => { q with started := none }
  (s.appDone q.asid q.hdr st.claim).tracePacket slot st.claim true st.clips
/-- The completion arrival (R20, R377). -/
def State.arriveNamed (s : State) (vi : Nat) (t : Nat × Nat) : Option State :=
  (s.named vi t.1).map fun n => s.modNamed n fun b => b.arrive t.2
/-- A packet of this device completes: the addition to its completion word, then its arrival (R218, R243); poisoned source data fails it
now (R371), and so does an arrival for which no live block carries the name (R377). That of a peer has been acknowledged by then (R331, R383). -/
def State.completeHere (s : State) (slot : Nat) : Res :=
  let q := s.slot slot
  match q.started with
  | none => .next s
  | some st =>
    if !st.performed then .next s
    else
    let st := if pkDrem st.pkt then { st with effect := true, sent := false } else st
    match st.poisoned with
      | some a => .next (s.failStarted slot st 0x06 a false)
      | none =>
        let word : LandOut := match pkWord st.pkt, pkPriv st.pkt with
          | some va, false => s.wordStep q.engine q.asid va (wordAfter st.clips) true
          | _, _ => .ok s
        match word with
        | .wait => .next (s.askVa q.engine q.asid ((pkWord st.pkt).getD 0) 8)
        | .miss va s => .next (s.waitFor slot va true)
        | .fail code va => .next (s.failStarted slot st code va false)
        | .ok s => match pkTurn st.pkt with
          | none => .next (s.finishPacket slot st)
          | some t => match s.arriveNamed (slot / 32) t with
            | some s => .next (s.finishPacket slot st)
            | none => .next (s.failStarted slot { st with effect := true } 0x0D 0 false)

end Sys2Proof.Machine
end

