-- ==== Sys2Proof/Machine/PrivEvents.lean ====
section
/-!
DEFINITION. Sys2Proof/Machine/PrivEvents.lean: the privileged memory packets: range invalidate, page ready and generation, and their
acknowledgement (R27, R92, R96, R97, R232, R263, R325, R367 to R369).
-/

namespace Sys2Proof.Machine

/-! ### Removing translations (R96, R368, R369) -/

/-- The 64 KiB page is in the range of a packet. -/
def pkCovers (p : List Word) (page : Nat) : Bool := decide (pkPage p ≤ page ∧ page < pkPage p + pkPages p)
/-- An entry of a TLB covers a page of a packet's range. -/
def TlbEntry.inRange (p : List Word) (e : TlbEntry) : Bool :=
  let n := 2 ^ (pageBits e.level - 16)
  e.asid == pkAsid p && decide (e.page * n < pkPage p + pkPages p ∧ pkPage p < e.page * n + n)
/-- Remove entries from every core TLB, walk-ahead TLB and stack core TLB. [log 51: DESIGN CHOICE] -/
def State.dropTlb (s : State) (gone : TlbEntry → Bool) : State :=
  let keep : List TlbEntry → List TlbEntry := fun l => l.filter fun e => !gone e
  { s with
    cores := s.cores.map fun x => (x.1, { x.2 with tlb := keep x.2.tlb })
    clusters := s.clusters.map fun x => (x.1, { x.2 with wtlb := keep x.2.wtlb })
    stackCores := s.stackCores.map fun x => (x.1, { x.2 with tlb := keep x.2.tlb }) }
/-- The own step of a privileged packet of a queue. -/
def State.privStep (s : State) (slot kind : Nat) (f : List Word → State → State) : Res :=
  match (s.slot slot).started with
  | none => .next s
  | some st =>
    if st.expanded || pkKind st.pkt != kind then .next s
    else
      let (n, s) := (f st.pkt s).nextSeq
      .next (s.modStarted slot fun st => { st with expanded := true, issueNo := n })

/-- `RANGE_INVALIDATE`: ISEQ rises and every TLB loses the entries of the range (R96, R368). -/
def execRangeInvalidate (slot : Nat) (s : State) : Res :=
  s.privStep slot 0x10 fun p s =>
    (s.modSpace (pkAsid p) fun x => { x with iseq := (x.iseq + 1) % 2 ^ 32 }).dropTlb (TlbEntry.inRange p)

/-- `GENERATION`: the space's generation is replaced; entries and walks left from an earlier use of its new value go first (R369). [log 51: DESIGN CHOICE] -/
def execGeneration (slot : Nat) (s : State) : Res :=
  s.privStep slot 0x12 fun p s =>
    let g := bits (pdw p 1) 0 16
    let s := s.dropTlb fun e => e.asid == pkAsid p && e.gen == g
    let s : State := { s with cores := s.cores.map fun x =>
      (x.1, { x.2 with walks := x.2.walks.filter fun w => !(w.asid == pkAsid p && w.gen == g) }) }
    s.modSpace (pkAsid p) fun x => { x with gen := g }

/-! ### Page ready (R92, R97) -/

/-- A block's teams and matrix stream that wait for a page of the range go on (R92, R232, R236, R367). -/
def Block.pageReady (p : List Word) (b : Block) : Block :=
  let out : List Nat → List Nat := fun l => l.filter fun page => !pkCovers p page
  { b with
    teams := b.teams.map fun (x : Nat × Team) => (x.1, { x.2 with park := x.2.park.filter fun k => !pkCovers p (k.va % 2 ^ 57 / 65536) })
    seq := b.seq.map fun q =>
      { q with
        running := q.running.map fun m => { m with missing := out m.missing }
        xfers := q.xfers.map fun x => { x with posted := (x.posted.filter fun page => !pkCovers p (page % 2 ^ 41)) }
        fetchWait := q.fetchWait.filter fun page => !pkCovers p page } }
/-- A wait on a page of the range ends. -/
def unwait (p : List Word) (w : Option Nat) : Option Nat := w.filter fun page => !pkCovers p page
/-- A queue that waits for a page of the range goes on: its next slot, its packet, its launches (R27, R28, R373). -/
def QueueSlot.pageReady (p : List Word) (q : QueueSlot) : QueueSlot :=
  { q with
    wait := unwait p q.wait
    started := q.started.map fun st => { st with wait := unwait p st.wait }
    launches := q.launches.map fun l => { l with wait := unwait p l.wait } }
/-- Everything of an address space that waits for a page of the range goes on. -/
def State.pageReady (s : State) (p : List Word) : State :=
  let a := pkAsid p
  let blk : Block → Block := fun b => if b.asid = a then b.pageReady p else b
  { s with
    cores := s.cores.map fun x => (x.1, { x.2 with block := x.2.block.map blk })
    saved := s.saved.map fun x => { x with block := blk x.block }
    clusters := s.clusters.map fun x =>
      (x.1, { x.2 with
        setq := x.2.setq.map fun (o : SetOp) =>
          if o.asid = a then { o with posted := o.posted.filter fun page => !pkCovers p page } else o
        sets := x.2.sets.map fun (y : Nat × SetObj) => (y.1, if y.2.asid = a then { y.2 with asked := unwait p y.2.asked } else y.2) })
    slots := s.slots.map fun x => (x.1, if x.2.asid = a then x.2.pageReady p else x.2)
    inbound := s.inbound.map fun x => if x.asid = a then { x with wait := unwait p x.wait } else x }
/-- `PAGE_READY`: every access parked on a page of the range is released to translate again (R97). -/
def execPageReady (slot : Nat) (s : State) : Res := s.privStep slot 0x11 fun p s => s.pageReady p

/-! ### Acknowledgement (R96, R97) -/

/-- An access before order number n may still use an earlier translation. -/
def Team.translated (tm : Team) (n : Nat) : Bool :=
  (tm.stb.any fun r => decide (r.seq < n) && (match r.loc with | .pa _ => true | .sp _ _ => false))
  || (tm.claim.any fun c => c.answer.isNone)
  || tm.pend.any fun p => decide (p.seq < n) && match p.kind with
    | .load lanes _ _ _ _ _ _ _ none => lanes.any fun a => match a.loc with | .pa _ => true | .sp _ _ => false
    | .atom left _ _ _ => left != 0
    | _ => false
/-- Every access of an address space that translated before order number n has completed. -/
def State.accessesDone (s : State) (asid n : Nat) : Bool :=
  let quiet : Block → Bool := fun b => b.asid != asid || b.teams.all fun x => !x.2.translated n
  (s.cores.all fun x => match x.2.block with
    | none => true
    | some b => quiet b && (b.asid != asid || x.2.path.all fun r => decide (n ≤ r.seq)))
  && s.saved.all fun x => quiet x.block && (x.block.asid != asid || x.path.all fun r => decide (n ≤ r.seq))

/-- `INVALIDATE_ACK`: a privileged packet is acknowledged once the accesses that it affects have completed; its completion word rises
by 1. -/
def execInvalidateAck (slot : Nat) (s : State) : Res :=
  let q := s.slot slot
  match q.started with
  | none => .next s
  | some st =>
    if !st.expanded || st.acked || st.wait.isSome || !pkPriv st.pkt
        || !(pkKind st.pkt == 0x11 || s.accessesDone (pkAsid st.pkt) st.issueNo) then .next s
    else
      let ack := fun (s : State) => s.modStarted slot fun st => { st with acked := true, effect := true }
      match pkWord st.pkt with
      | none => .next (ack s)
      | some va => match s.wordStep q.engine q.asid va (fun x => x + 1) true with
        | .wait => .next (s.askVa q.engine q.asid va 8)
        | .miss va s => .next (s.waitFor slot va true)
        | .fail code va => .next (s.failStarted slot { st with effect := true } code va false)
        | .ok s => .next (ack s)

end Sys2Proof.Machine
end

