-- ==== Sys2Proof/Machine/FabricEvents.lean ====
section
/-!
DEFINITION. Sys2Proof/Machine/FabricEvents.lean: packets from fabric peers, with the steps that they share with the packets of this
device's queues, and what a peer answers (R131, R217, R218, R331, R353, R360, R381, R383). Slot 2048 + i of an engine step
names inbound packet i.
-/

namespace Sys2Proof.Machine

/-! ### Inbound packets (R331, R383) -/

/-- A fabric port, for the SOURCE of a report: the spec does not say which port carries a packet (log 9). -/
def State.freePort (s : State) : Nat × State := (Config.freeNat s.freeIx % 12, { s with freeIx := s.freeIx + 1 })
def State.modInbound (s : State) (i : Nat) (f : Inbound → Inbound) : State :=
  { s with inbound := match s.inbound[i]? with
    | some x => setNth s.inbound i (f x)
    | none => s.inbound }
/-- An inbound packet ends. -/
def State.dropInbound (s : State) (i : Nat) : State := { s with inbound := dropNth s.inbound i }
/-- The peer is told of a rejection, and a kind-7 entry is posted here (R379, R383). -/
def State.rejectFrom (s : State) (sender vi dst : Nat) : State :=
  let (port, s) := s.freePort
  s.postFault vi 7 0x09 (sourceOf 7 port) 0 [sender % 65536, 0x09, dst, 0, 0, 0] none none none
def State.rejectInbound (s : State) (i : Nat) (x : Inbound) : State := (s.dropInbound i).rejectFrom x.sender x.vi (pkDst x.pkt)
/-- An inbound packet waits for a page (R219, R383). -/
def State.inboundWait (s : State) (i : Nat) (x : Inbound) (va : Nat) : State :=
  (s.postPage x.vi 2 true va x.asid x.engine 0).modInbound i fun x => { x with wait := some (va / 65536) }
/-- The queue to which an inbound linear copy of 64 bytes appends (R331). -/
def State.appendTo (s : State) (x : Inbound) : Option (Nat × QueueSlot) :=
  if pkKind x.pkt = 1 ∧ pkBytes x.pkt = 64 then
    List.find? (fun (q : Nat × QueueSlot) =>
      q.2.registered && q.1 / 32 == x.vi && q.2.asid == x.asid && q.2.hdr == pkDst x.pkt) s.slots
  else none
/-- The rows of an inbound packet: its bytes come in row order. -/
def inboundMoves (p : List Word) : List Move :=
  match pkKind p with
  | 0x02 => (upto 0 (pkRows p)).map fun r =>
      { src := some (r * pkRowBytes p), dst := pkDst p + r * pkDpitch p, n := pkRowBytes p, swz := 0 }
  | 0x08 => []
  | _ => [{ src := some 0, dst := pkDst p, n := pkBytes p, swz := 0 }]

/-- `FABRIC_PACKET_RECEIVE`: a packet with DREM = 1 arrives from interface `vi` of a peer with its source bytes, of which
`poison` lists those that come from poisoned units (R370); it is rejected when the
interface has EN 0 or the space that `FABSP` names has no root (R331, R383). [log 45: DESIGN CHOICE] -/
def execFabricPacketReceive (sender vi : Nat) (packet : List Word) (bytes : List Byte) (poison : List Nat) (s : State) : Res :=
  let i := s.iface vi
  let asid := 16 * vi + bits i.fabsp.toNat 0 4
  if !decide (s.power = .booted) || decide (12 ≤ s.ports.length) || !([1, 2, 5, 8].contains (pkKind packet)) then .next s
  else if !bit i.victl.toNat 0 || !bit (s.space asid).root.toNat 0 then .next (s.rejectFrom sender vi (pkDst packet))
  else
    let (n, s) := s.nextSeq
    let x : Inbound :=
      { sender, vi, asid, engine := Config.freeNat s.freeIx % Config.clusters, pkt := packet, bytes, poison, issueNo := n
        moves := inboundMoves packet, effect := false, wait := none, answered := none }
    .next { s with inbound := s.inbound ++ [x], freeIx := s.freeIx + 1 }

/-- Byte j of the data of an inbound packet, with whether it is poisoned (R370). -/
def Inbound.byte (x : Inbound) (j : Nat) : Byte × Bool := (nth 0 x.bytes j, x.poison.contains j)
/-- What a step on memory does to an inbound packet. [log 45: DESIGN CHOICE] -/
def State.inboundOut (s0 : State) (i : Nat) (x : Inbound) (out : LandOut) (go : State → State) : Res :=
  match out with
  | .ok s => .next (go s)
  | .wait => .next (match x.moves with
    | m :: _ => if pkKind x.pkt = 5 then s0.askVa x.engine x.asid (m.dst % 2 ^ 57) (pkElem x.pkt) else s0
    | [] => if pkKind x.pkt = 8 then s0.askVa x.engine x.asid (pkDst x.pkt % 2 ^ 57) 8 else s0)
  | .miss va s => .next (s.inboundWait i x va)
  | .fail _ _ => .next (s0.rejectInbound i x)

/-- The next line of an inbound copy lands whole (R113, R371). -/
def State.inboundLine (s : State) (i : Nat) : Res :=
  match s.inbound[i]? with
  | none => .next s
  | some x =>
    match x.moves with
    | [] => .next s
    | m :: _ =>
      if x.wait.isSome || pkKind x.pkt == 5 || (s.appendTo x).isSome then .next s
      else
        let line := m.dst / 256
        let rd : State → Nat → Nat → VaRead := fun s a n => .ok ((upto a n).map x.byte) s
        match readLine rd line x.moves s [] none with
        | .ok xs _ s => s.inboundOut i x (s.landVa x.issueNo x.engine x.asid line xs) fun s => s.modInbound i fun x =>
            { x with moves := x.moves.flatMap fun m => m.minus line, effect := true }
        | _ => .next s
/-- The next element of an inbound reduce is combined; poison at its destination rejects it (R217, R383). -/
def State.inboundReduce (s : State) (i : Nat) : Res :=
  match s.inbound[i]? with
  | none => .next s
  | some x =>
    match x.moves with
    | [] => .next s
    | m :: _ =>
      if x.wait.isSome || pkKind x.pkt != 5 then .next s
      else
        let n := pkElem x.pkt
        let xs := (upto (m.src.getD 0) n).map x.byte
        match s.combineAt x.engine x.asid x.pkt m.dst xs with
        | (out, bad) =>
          if bad then .next (s.rejectInbound i x)
          else s.inboundOut i x out fun s => s.modInbound i fun x =>
            { x with effect := true, moves := movesAfter n x.moves }

/-! ### Steps of either kind of packet -/

/-- `SIGNAL` (kind 0x08): VALUE is stored or added in one indivisible step (R217). -/
def execSignal (slot : Nat) (s : State) : Res :=
  if slot < Config.queueSlots then s.signalHere slot
  else
    let i := slot - Config.queueSlots
    match s.inbound[i]? with
    | none => .next s
    | some x =>
      if x.wait.isSome || x.effect || pkKind x.pkt != 8 then .next s
      else s.inboundOut i x (s.wordStep x.engine x.asid (pkDst x.pkt) (signalVal x.pkt) (bit (pdw x.pkt 4) 0)) fun s =>
        s.modInbound i fun x => { x with effect := true }
/-- `COPY_LINE_LAND`: a line of a copy moves on: it is read, or lands whole and sets its presence bit (R99, R113). -/
def execCopyLineLand (slot : Nat) (s : State) : Res :=
  if slot < Config.queueSlots then s.copyLine slot else s.inboundLine (slot - Config.queueSlots)
/-- `REDUCE_ELEMENT_COMBINE`: one element of a reduce is combined at its home (R217). -/
def execReduceElementCombine (slot : Nat) (s : State) : Res :=
  if slot < Config.queueSlots then s.reduceStep slot else s.inboundReduce (slot - Config.queueSlots)
/-- `PACKET_COMPLETE`: a packet whose effects are performed takes its completion action (R218); an inbound one is acknowledged to its
sender. [log 45: DESIGN CHOICE] -/
def execPacketComplete (slot : Nat) (s : State) : Res :=
  if slot < Config.queueSlots then s.completeHere slot
  else
    let i := slot - Config.queueSlots
    match s.inbound[i]? with
    | none => .next s
    | some x => if x.moves.isEmpty && x.wait.isNone && (pkKind x.pkt != 8 || x.effect) then .next (s.dropInbound i) else .next s

/-- `REMOTE_APPEND`: inbound packet i claims a slot of the queue whose header it names, and its bytes are written with the valid bit of
that claim, by the engine that holds the queue; a full queue holds it (R209, R331). -/
def execRemoteAppend (i : Nat) (s : State) : Res :=
  match s.inbound[i]? with
  | none => .next s
  | some x =>
    match s.appendTo x with
    | none => .next s
    | some (_, q) =>
      let x := { x with engine := q.engine }
      if x.wait.isSome || s.agentWaits s.seqNo s.seqNo (.pa q.hdrPa) then .next s
      else if !s.mayFill q.hdrPa 32 then .next (s.ask (Config.cores + q.engine) q.hdrPa 32)
      else match (s.l2Fill q.hdrPa 32).claimAt x.vi q.hdrPa with
        | (none, _) => .next s
        | (some (_, va, v), s1) =>
          let last := leNat ((x.bytes.drop 56).take 8)
          let bytes := x.bytes.take 56 ++ bytesOf 8 (bits last 0 63 + b01 v * 2 ^ 63)
          let xs := ((upto 0 64).zip bytes).map fun y => (va % 256 + y.1, y.2, x.poison.contains y.1)
          match s1.landVa x.issueNo x.engine x.asid (va / 256) xs with
          | .ok s2 => .next (s2.dropInbound i)
          | .wait => .next s
          | .miss va _ => .next (s.inboundWait i x va)
          | .fail _ _ => .next (s.rejectInbound i x)

/-! ### What a peer answers (R353, R383) -/

/-- The started packet of a queue, when its destination lies on a peer. -/
def State.remotePacket (s : State) (slot : Nat) : Option Started := (s.slot slot).started.filter fun st => pkDrem st.pkt && !pkPriv st.pkt
/-- The trace record of a fabric timeout or of a peer that recovers (R360). -/
def State.traceFabric (s : State) (slot ddev : Nat) (recovering : Bool) : State :=
  let (port, s) := s.freePort
  s.traceRec (slot / 32) (sourceOf 7 port) 13 [ddev + b01 recovering * 2 ^ 16]

/-- `PEER_RECOVERING`: a fresh 2^30 clocks start (R353). -/
def execPeerRecovering (slot : Nat) (s : State) : Res :=
  match s.remotePacket slot with
  | none => .next s
  | some st => .next ((s.modStarted slot fun st => { st with since := s.clock }).traceFabric slot (pkDdev st.pkt) true)
/-- `FABRIC_TIMEOUT`: a remote packet that has not completed after 2^30 clocks fails with FABTIME, UNKNOWN (R353, R383). -/
def execFabricTimeout (slot : Nat) (s : State) : Res :=
  match s.remotePacket slot with
  | none => .next s
  | some st =>
    if (s.clock + 2 ^ 64 - st.since) % 2 ^ 64 < Config.fabricClocks then .next s
    else .next ((s.traceFabric slot (pkDdev st.pkt) false).failStarted slot st 0x08 0 true)
/-- `PEER_REJECT_RECEIVE`: the peer's rejection fails the packet with FABREJ; the sender knows that some effect was performed, or cannot
know (R383). -/
def execPeerRejectReceive (slot : Nat) (partial_ unknown : Bool) (s : State) : Res :=
  match s.remotePacket slot with
  | none => .next s
  | some st => .next (s.failStarted slot { st with effect := partial_, sent := false } 0x09 (pkDst st.pkt) unknown)
/-- `PEER_RECOVERING_SEND`: the status that inbound packet i sends to its sender while it waits for a page, while its interface has
RSBUSY or while a port retrains. -/
def execPeerRecoveringSend (i : Nat) (s : State) : Res :=
  match s.inbound[i]? with
  | none => .next s
  | some x =>
    if x.wait.isSome || (s.iface x.vi).resync.isSome || !s.ports.isEmpty then
      .next (s.modInbound i fun x => { x with answered := some s.clock })
    else .next s
/-- `PORT_RETRAIN_START`. -/
def execPortRetrainStart (port : Nat) (s : State) : Res := .next { s with ports := if port < 12 then insSorted port s.ports else s.ports }
/-- `PORT_RETRAIN_END`. -/
def execPortRetrainEnd (port : Nat) (s : State) : Res := .next { s with ports := delSorted port s.ports }
/-- `FABRIC_DOMAIN_FORM`: the fabric sets the offset of this device's stamps, which never makes them decrease (R360). -/
def execFabricDomainForm (offset : Word) (s : State) : Res :=
  if s.stampOffset.toNat ≤ offset.toNat ∧ s.clock + offset.toNat < 2 ^ 64 then .next { s with domain := true, stampOffset := offset }
  else .next s

end Sys2Proof.Machine
end

