-- ==== Sys2Proof/Machine/Records.lean ====
section
/-!
DEFINITION. Sys2Proof/Machine/Records.lean: the records that the device writes of a partition and a team: fragment records,
team records and debug dumps (R46, R356), debug stops (R355), and the entries of poison that nothing consumes (R371, R379).
-/

namespace Sys2Proof.Machine

/-- A legal SOURCE whose agent the spec does not name (R359, log 9). -/
def State.freeSource (s : State) : Nat × State :=
  let n := nth 1 [4 * Config.cores, Config.cores, Config.clusters, Config.clusters, Config.channels, 1, 64, 12] (Config.freeNat s.freeIx % 8)
  (sourceOf (Config.freeNat s.freeIx % 8) (Config.freeNat (s.freeIx + 1) % n), { s with freeIx := s.freeIx + 2 })
/-- The values of CODE: the causes of R341, R362 and R385 and the failure codes of R374 (R378). -/
def legalCodes : List Nat :=
  upto 0 14 ++ upto 0x10 6 ++ [0x18, 0x19, 0x30, 0x31, 0x34, 0x35, 0x38, 0x39, 0x3A]
/-- A legal CODE where the spec does not say which (R378, log 9). -/
def State.freeCode (s : State) : Nat × State :=
  (nth 0 legalCodes (Config.freeNat s.freeIx % legalCodes.length), { s with freeIx := s.freeIx + 1 })
/-- The kind-4 entry of poisoned data that is not consumed (R371, R379): what the spec does not say of it is free (log 9): which legal CODE and
SOURCE it has, and where it says nothing of them the interface and the address. -/
def State.poisonEntry (s : State) (vi : Option Nat) (pa : Option Nat) (place : Nat) : State :=
  let (source, s) := s.freeSource
  let (code, s) := s.freeCode
  let free := fun (i n : Nat) => Config.freeNat (s.freeIx + i) % n
  let s' := s.postFault (vi.getD (free 0 Config.interfaces)) 4 code source 0 [pa.getD (free 1 (2 ^ 48)), place, 0, 0, 0, 0] none none none
  { s' with freeIx := s.freeIx + 2 }

/-- Clear a range of memory to 0 (R356: every byte of the slot not listed is 0). -/
def Memory.clear (m : Memory) (a n : Nat) : Memory :=
  let out : Nat → Nat → Bool := fun x unit => !(decide (a < unit * x + unit) && decide (unit * x < a + n))
  { cells := m.cells.filter fun p => out p.1 1, tags := m.tags.filter fun g => out g 16,
    poison := m.poison.filter fun u => !(decide (a ≤ 32 * u) && decide (32 * u + 32 ≤ a + n)) }

/-- Start of an interface's trace region (R329, R357). -/
def State.traceBase (s : State) (vi : Nat) : Nat := (s.iface vi).saveArea + 2 ^ 23
/-- The trace region of an interface has addresses that exist. -/
def State.traceOk (s : State) (vi : Nat) : Bool := paOk (s.traceBase vi) && paOk (s.traceBase vi + 2 ^ traceBits s.image vi - 1)
/-- The header of a trace region is written whole: the frames written, those dropped, and zeros (R358). -/
def State.traceHeader (s : State) (vi : Nat) : State :=
  let f := s.iface vi
  s.writeFor vi (.pa (s.traceBase vi)) (bytesOf 8 f.frames ++ bytesOf 8 f.dropped ++ (upto 0 240).map fun _ => 0)

/-- Doublewords at their offsets from a base. -/
abbrev Rec := List (Nat × Nat)

/-- Write a record: every listed doubleword, at its offset. -/
def Memory.putRec (m : Memory) (base : Nat) (r : Rec) : Memory :=
  r.foldl (fun m x => m.write (base + x.1) (bytesOf 8 x.2)) m

/-- A list of doublewords from an offset. -/
def dwsAt : Nat → List Nat → Rec
  | _, [] => []
  | o, x :: xs => (o, x) :: dwsAt (o + 8) xs

/-- The doublewords of a byte list. -/
def dwsOfBytes : Nat → Nat → List Byte → Rec
  | 0, _, _ => []
  | n + 1, o, xs => (o, leNat (xs.take 8)) :: dwsOfBytes n (o + 8) (xs.drop 8)

/-- A fragment record of R356: the spill record with STATE 3 for hollow, then the mask words. A spilled fragment's record names the
next one of its list (R46). -/
def fragRecord (t : Nat) (f : Frag) (next : Option Nat) : Rec :=
  let sp := dwsOfBytes 8 0 (spillRecord t f next)
  let sp := if f.hollow then sp.map fun x => if x.1 = 0 then (0, bits x.2 0 62 + 3 * 2 ^ 62) else x else sp
  sp ++ dwsAt 64 ((upto 0 16).map fun w => bits f.mask.toNat (64 * w) 64)

/-- A team record of R356. -/
def teamRecord (s : State) (k t : Nat) (b : Block) (tm : Team) : Rec :=
  let head := t % 64 + tm.L % 2 ^ 11 * 2 ^ 6 + (tm.G - 1) % 16 * 2 ^ 17 + b01 tm.copy * 2 ^ 21 + tm.prio % 4 * 2 ^ 22
    + b01 tm.handler * 2 ^ 24 + b01 tm.halted * 2 ^ 25 + b01 tm.lifted * 2 ^ 26
  dwsAt 0 [head, (teamstatWord tm false).toNat, (allotWord b t tm).toNat, tm.fpflags, s.stbcnt k t, tm.sigacc, tm.trapvec.toNat, tm.trapcause.toNat,
      tm.trappc.toNat, tm.trapword.toNat, tm.bbase.toNat]
    ++ dwsAt 128 ((upto 0 64).map fun r => (tm.sreg r).toNat)
    ++ dwsAt 640 ((upto 0 32).flatMap fun r => [bits (tm.creg r).1.toNat 0 64, bits (tm.creg r).1.toNat 64 64])
    ++ dwsAt 1152 [(upto 0 32).foldl (fun a r => a + b01 (tm.creg r).2 * 2 ^ r) 0]
    ++ dwsAt 1160 ((upto 0 4).map fun i => (upto 0 4).foldl (fun a j => a + tm.cbEntry (4 * i + j) * 2 ^ (16 * j)) 0)
    ++ dwsAt 1280 ((upto 0 7).flatMap fun r => (upto 0 16).map fun w => bits (tm.preg r).toNat (64 * w) 64)
    ++ dwsAt 4096 ((upto 0 (8 * tm.G)).flatMap fun r => (upto 0 tm.L).map fun l => (tm.vreg r l).toNat)

/-- Bytes of a team record: a multiple of 4,096 (R356). -/
def teamRecordSize (tm : Team) : Nat := (4096 + 64 * tm.G * tm.L + 4095) / 4096 * 4096

/-- A record moved to an offset. -/
def Rec.shift (r : Rec) (d : Nat) : Rec := r.map fun x => (x.1 + d, x.2)

/-- Team records one after another. -/
def teamRecords (s : State) (k : Nat) (b : Block) : List (Nat × Team) → Nat → Rec
  | [], _ => []
  | (t, tm) :: rest, o => Rec.shift (teamRecord s k t b tm) o ++ teamRecords s k b rest (o + teamRecordSize tm)

/-- The register code of R138 that a pending record names. [log 26: DESIGN CHOICE] -/
def refCode : RegRef → Nat
  | .v r => r
  | .s r => 0x80 + r
  | .c r => 0xC0 + r
  | .p r => 0xE0 + r
  | .cb => 0
/-- The class of a pending record (R356). [log 26: DESIGN CHOICE] -/
def clsCode : Cls → Nat
  | .mem => 1 | .set => 2 | .arr => 3 | .bank => 4 | .spf => 5 | .page => 0

/-- The dump of a partition (R356). The entry of a lifted team stays in its partition (R298). [log 26: DESIGN CHOICE] -/
def dumpRec (s : State) (k p n imm : Nat) (b : Block) : Rec :=
  let teams := b.teams.filter fun x => x.1 % 4 == p
  let all := teams.flatMap fun x => x.2.frags.map fun f => (x.1, f)
  let res := (all.filter fun x => !x.2.spilled).foldl (fun l x => insertBy (fun y : Nat × Frag => y.2.entry) x l) []
  let sp := b.spillList p
  let frs := (res.map fun x => fragRecord x.1 x.2 none)
    ++ (sp.zip (upto 1 sp.length)).map fun x => fragRecord x.1.1 x.1.2 (sp[x.2]?.map fun y => b.spillOff y.1 y.2)
  let pends := teams.flatMap fun x => x.2.pend.flatMap fun q => q.dests.map fun d =>
    (refCode d + x.1 % 64 * 2 ^ 8 + clsCode q.cls * 2 ^ 14 + q.lane % 1024 * 2 ^ 17, q.pc)
  let nf := frs.length
  let np := pends.length
  let t0 := (64 + 192 * nf + 16 * np + 4095) / 4096 * 4096
  dwsAt 0 [n % 2 ^ 32 + k % 512 * 2 ^ 32 + p % 4 * 2 ^ 41 + imm % 65536 * 2 ^ 48, s.clock,
      nf % 65536 + np % 65536 * 2 ^ 16 + teams.length % 256 * 2 ^ 32, (b.part p).csnNext]
    ++ (frs.zip (upto 0 nf)).flatMap (fun x => Rec.shift x.1 (64 + 192 * x.2))
    ++ dwsAt (64 + 192 * nf) (pends.flatMap fun x => [x.1, x.2])
    ++ teamRecords s k b teams t0

/-- Stopped partitions of an interface (R355). -/
def State.stoppedOf (s : State) (vi : Nat) : Nat :=
  s.cores.foldl (fun a x => match x.2.block with
    | some b => if b.vi = vi then a + (b.parts.filter fun q => q.2.stopped.isSome).length else a
    | none => a) 0

/-- A debug stop of a partition carrying a code (R355, R356, R357, R379): it takes the interface's next stop number, its
dump is written and a fault-ring entry names it. -/
def State.debugStop (s : State) (k t imm : Nat) : State :=
  match s.block k, s.team k t with
  | some b, some tm =>
    let p := t % 4
    let i := s.iface b.vi
    let n := i.stops
    let s := s.modIface b.vi fun i => { i with stops := n + 1 }
    let s := s.modBlock k fun b => b.modPart p fun q => { q with stopped := some n }
    match s.block k with
    | none => s
    | some b =>
      let base := i.saveArea + 2 ^ 21 * (n % 4)
      let s := if isHost base && !s.linkUp then s.modIface b.vi fun i => { i with lost := i.lost + 1 }
        else { s with mem := (s.mem.clear base (2 ^ 21)).putRec base (dumpRec s k p n imm b) }
      let s := s.postFault b.vi 2 0 (sourceOf 0 (4 * k + p)) 0 [n % 2 ^ 32, 0, 0, 0, 0, 0] none none (some (4 * k + p))
      s.traceRec b.vi (teamSource k t tm) 5 [n % 2 ^ 32]
  | _, _ => s

end Sys2Proof.Machine
end

