-- ==== Sys2Proof/Machine/Ringmaster.lean ====
section
/-!
DEFINITION. Sys2Proof/Machine/Ringmaster.lean: launches and the Ringmaster (R15 to R33, R59 to R61, R218, R329, R334, R354, R373 to R377,
R380, R411): a launch packet is read and checked, its condition evaluated, its gangs dispatched; blocks retire, are
saved and resume; a launch completes.
-/

namespace Sys2Proof.Machine

/-! ### Launch packets (R21, R22) -/

def lpFuse (p : List Word) : Bool := bit (pdw p 0) 8
/-- Blocks for each cluster of a gang. -/
def lpCpb (p : List Word) : Nat := 2 ^ bits (pdw p 0) 16 2
def lpCsg (p : List Word) : Nat := bits (pdw p 0) 18 4
/-- Clusters of a gang. -/
def lpClusters (p : List Word) : Nat := max 1 (lpCsg p)
/-- The gang size (R22). -/
def lpGang (p : List Word) : Nat := lpCpb p * lpClusters p
def lpTeams (p : List Word) : Nat := bits (pdw p 0) 22 6 + 1
def lpCopies (p : List Word) : Nat := bits (pdw p 0) 28 6
def lpL (p : List Word) : Nat := (bits (pdw p 0) 34 5 + 1) * 32
def lpG (p : List Word) : Nat := bits (pdw p 0) 39 4 + 1
def lpPrio (p : List Word) : Nat := bits (pdw p 0) 43 2
def lpEntry (p : List Word) : Nat := bits (pdw p 1) 0 57
/-- The entry of copy teams and of the matrix stream. -/
def lpCopyEntry (p : List Word) : Int := (lpEntry p : Int) + 8 * sgn 32 (bits (pdw p 2) 0 32)
def lpMoff (p : List Word) : Nat := bits (pdw p 2) 32 32
def lpStream (p : List Word) : Int := (lpEntry p : Int) + 8 * sgn 32 (lpMoff p)
def lpSplines (p : List Word) : Nat := bits (pdw p 3) 32 14
def lpArgs (p : List Word) : Nat := bits (pdw p 4) 0 57
def lpWkind (p : List Word) : Nat := bits (pdw p 5) 0 2
def lpWcore (p : List Word) : Nat := bits (pdw p 5) 3 9
def lpWts (p : List Word) : Nat := bits (pdw p 5) 12 4
def lpWph (p : List Word) : Bool := bit (pdw p 5) 16
def lpWval (p : List Word) : Nat := bits (pdw p 6) 0 32
def lpSgmask (p : List Word) : Nat := bits (pdw p 6) 32 16
def lpDkind (p : List Word) : Nat := bits (pdw p 7) 0 2
/-- The completion turnstile of a launch. -/
def lpTurn (p : List Word) : Option (Nat × Nat) := if lpDkind p = 2 then some (bits (pdw p 7) 3 9, bits (pdw p 7) 12 4) else none
/-- Lanes of a block. -/
def lpLanes (p : List Word) : Nat := lpTeams p * lpL p

/-- FIELD: no reserved value, and no bit set that is not listed for its WKIND and DKIND (R21). -/
def launchFieldOk (p : List Word) : Bool :=
  bits (pdw p 0) 9 7 == 0 && bits (pdw p 0) 45 19 == 0 && bits (pdw p 0) 16 2 != 3 && decide (lpCsg p ≤ 8)
    && only (pdw p 1) 57 && only (pdw p 3) 46 && lpBlocks p != 0 && only (pdw p 4) 57
    && bits (pdw p 6) 48 16 == 0 && bits (pdw p 7) 57 6 == 0 && !bit (pdw p 5) 2 && !bit (pdw p 7) 2
    && (match lpWkind p with
      | 0 => pdw p 5 == 0 && lpWval p == 0
      | 1 => only (pdw p 5) 57
      | 2 => only (pdw p 5) 17 && lpWval p == 0
      | _ => false)
    && (match lpDkind p with
      | 0 => bits (pdw p 7) 3 54 == 0
      | 1 => true
      | 2 => bits (pdw p 7) 16 41 == 0
      | _ => false)
/-- An entry address lies in [0, 2^57). -/
def inCode (a : Int) : Bool := decide (0 ≤ a) && decide (a < (2 : Int) ^ 57)
/-- LAUNCH: the limits of R16, R21 and R22, and the alignments (R374). -/
def launchOk (p : List Word) : Bool :=
  decide (64 * lpL p * lpG p * ((lpTeams p + 3) / 4) ≤ Config.poolBytes)
    && decide (256 * lpSplines p + 64 * lpLanes p ≤ Config.spBytes) && decide (lpSplines p ≤ 8192)
    && lpBlocks p % lpGang p == 0 && decide (lpCopies p ≤ lpTeams p) && lpEntry p % 8 == 0 && lpArgs p % 16 == 0
    && (lpCopies p == 0 || inCode (lpCopyEntry p)) && (lpMoff p == 0 || inCode (lpStream p))

/-! ### Placement (R20, R24, R376, R380, R411) -/

/-- Stack groups that a launch may use: those of its packet and of `VICTL` (R21, R326, R334). -/
def State.groups (s : State) (vi : Nat) (p : List Word) : Nat :=
  Nat.land (if lpSgmask p = 0 then 0xFFFF else lpSgmask p) (bits (s.iface vi).victl.toNat 16 16)
/-- A live block, other than those of `gang`, carries a core's index as its name. -/
def State.nameTaken (s : State) (k : Nat) (gang : Option Nat) : Bool :=
  let other : Block → Bool := fun b => b.name == k && gang != some b.gang
  (s.cores.any fun x => x.2.block.any other) || s.saved.any fun x => other x.block
/-- A core halted a team whose entry is held (R380). -/
def State.entryHeld (s : State) (k : Nat) : Bool := s.ifaces.any fun x => x.2.faults.any fun e => e.held && e.core == some k
/-- A core is free: it holds and is reserved for no block, it is in service and holds no unwritten entry, no test of its cluster is due, and
no live block carries its name (R20, R24, R380, R411). -/
def State.coreFree (s : State) (gang : Option Nat) (k : Nat) : Bool :=
  let c := s.core k
  c.block.isNone && c.fusedGang.isNone && !c.outOfService && !s.entryHeld k && (s.cluster (clusterOf k)).test.isNone
    && !s.nameTaken k gang
/-- The placement of R24: `ncl` clusters of one allowed stack group, each with `need` cores that a test accepts. -/
def placeIn (ok : Nat → Bool) (groups need ncl : Nat) : Option (List (List Nat)) :=
  (upto 0 16).findSome? fun sg =>
    if !bit groups sg then none
    else
      let good := (upto (8 * sg) 8).filterMap fun cl =>
        let ks := (upto (4 * cl) 4).filter ok
        if need ≤ ks.length then some (ks.take need) else none
      if ncl ≤ good.length then some (good.take ncl) else none
/-- Cores that a gang needs in each cluster (R24). -/
def lpNeed (p : List Word) : Nat := if lpFuse p then 4 else lpCpb p
/-- `Fits` (R24). -/
def State.fits (s : State) (vi : Nat) (p : List Word) : Option (List (List Nat)) :=
  placeIn (s.coreFree none) (s.groups vi p) (lpNeed p) (lpClusters p)
/-- A gang could fit with every in-service core free (R376). -/
def State.couldFit (s : State) (vi : Nat) (p : List Word) : Bool :=
  (placeIn (fun k => !(s.core k).outOfService) (s.groups vi p) (lpNeed p) (lpClusters p)).isSome

/-! ### Launches at the head of a queue (R26, R27, R376) -/

/-- The launch of a queue whose blocks are dispatched next (R26). -/
def QueueSlot.nextLaunch (q : QueueSlot) : Option Launch := q.launches.find? fun l => l.undone && l.fail.isNone
/-- The head launch of a queue (R26), unless a completion action holds the queue (R28). -/
def QueueSlot.headLaunch (q : QueueSlot) : Option Launch := if q.actionHeld then none else q.nextLaunch
def State.modLaunch (s : State) (slot id : Nat) (f : Launch → Launch) : State :=
  s.modSlot slot fun q => { q with launches := q.launches.map fun l => if l.id = id then f l else l }
/-- A hold ends: decisions resume on the next clock (R31). -/
def State.endHold (s : State) (slot : Nat) : State :=
  if s.rmHeld = some slot then { s with rmHeld := none, rmAt := some s.clock } else s
/-- A launch fails: its hold is released, and its failure waits until its blocks have retired (R375, R376). -/
def State.failLaunch (s : State) (slot id code addr : Nat) : State :=
  (s.modLaunch slot id fun l => { l with fail := some (code, addr) }).endHold slot
/-- The head launches that could never fit fail (R376). -/
def State.failMisfits (s : State) : State :=
  s.slots.foldl (fun s x => match x.2.nextLaunch with
    | none => s
    | some l => if s.couldFit (x.1 / 32) l.pkt then s else s.failLaunch x.1 l.id 0x0B 0) s

/-- `LAUNCH_PACKET_READ`: the engine takes a launch packet, once every block of the launch before it has been dispatched, checks it and
hands it to the Ringmaster (R21, R26, R374, R376). A slot whose page is absent is requested as soon as the launch could be taken. A slot
that cannot be read is failed by `PACKET_READ`, once the queue's launches have completed. [log 43: DESIGN CHOICE] -/
def execLaunchPacketRead (slot : Nat) (s : State) : Res :=
  let q := s.slot slot
  let vi := slot / 32
  if q.launches.any fun l => l.undone || l.fail.isSome then .next s
  else match s.peek slot with
    | .packet p s =>
      if pkKind p != 0x07 then .next s
      else
        let claim := q.ridx
        let s := (s.taken slot).tracePacket slot claim false 0
        let fail := fun (code : Nat) => Host.Outcome.next
          (s.failEntry slot claim 7 code 0 (if lpDkind p = 1 then lpDaddr p else 0) (lpTurn p) false false 0)
        if !launchFieldOk p then fail 0x01
        else if !launchOk p || s.groups vi p == 0 || !s.couldFit vi p then fail 0x0B
        else
          let ready := lpWkind p == 0
          let l : Launch :=
            { id := s.launchNo, pkt := p, claim, ready, wait := none, next := 0, live := 0, lastAt := none, fail := none }
          let s := s.modSlot slot fun q => { q with launches := q.launches ++ [l] }
          .next { s with launchNo := s.launchNo + 1, rmWant := s.rmWant || ready }
    | .miss va s => .next (s.slotWait slot va)
    | .wait va => .next (s.askVa q.engine q.asid va 64)
    | _ => .next s

/-- The wait condition of a launch as it stands (R20, R27), with the page that it lacks or its failure. A poisoned completion word, and
one in host memory while the link is down, does not meet it. [log 62: DESIGN CHOICE] -/
def State.condition (s : State) (slot : Nat) (q : QueueSlot) (p : List Word) : (Option Bool × State) ⊕ (Nat × Nat) :=
  match lpWkind p with
  | 0 => .inl (some true, s)
  | 1 => match s.engineXlat q.engine q.asid (lpWaddr p) false with
    | (.absent, s) => .inl (none, s)
    | (.bad b, s) => .inr (s.walkFail q.asid (lpWaddr p) b, lpWaddr p)
    | (.busy, s) => .inl (some false, s)
    | (.ok pa, s) =>
      if !s.mayFill pa 8 then .inl (some false, s.ask (Config.cores + q.engine) pa 8)
      else if s.agentWaits s.seqNo s.seqNo (.pa pa) || s.poisonedAt (.pa pa) 8 then .inl (some false, s)
      else .inl (some (decide (lpWval p ≤ bits (s.dw pa) 0 32)), s.l2Fill pa 8)
  | _ => .inl (some (((s.named (slot / 32) (lpWcore p)).bind s.namedBlock).any fun b => (b.turnstile (lpWts p)).ph == lpWph p), s)
/-- The stores to code that a WKIND 1 word orders before the launch that reads it (R33, R133). -/
def State.seenBy (s : State) (q : QueueSlot) (p : List Word) : List Nat :=
  if lpWkind p != 1 then []
  else match (s.engineXlat q.engine q.asid (lpWaddr p) false).1 with
    | .ok pa => s.seenAt pa
    | _ => []
/-- `WAIT_CONDITION_EVAL`: the wait condition of a queue's head launch is evaluated (R27). A walk that fails after the launch's first dispatch leaves
the condition as it was last evaluated: the spec gives that failure before any block is dispatched. [log 62: DESIGN CHOICE] -/
def execWaitConditionEval (slot : Nat) (s : State) : Res :=
  let q := s.slot slot
  match q.headLaunch with
  | none => .next s
  | some l =>
    if l.wait.isSome then .next s
    else match s.condition slot q l.pkt with
      | .inr (code, addr) => if l.next = 0 then .next (s.failLaunch slot l.id code addr) else .next s
      | .inl (none, s) =>
        .next ((s.postPage (slot / 32) 2 false (lpWaddr l.pkt) q.asid q.engine 0).modLaunch slot l.id fun l =>
          { l with ready := false, wait := some (lpWaddr l.pkt / 65536) })
      | .inl (some r, s) =>
        let seen := s.seenBy q l.pkt
        let s := s.modLaunch slot l.id fun l => { l with ready := r, seen := if r && l.next == 0 then seen else l.seen }
        .next { s with rmWant := s.rmWant || (r && !l.ready) }

/-! ### Dispatch (R16 to R18, R23, R25) -/

/-- A team as it starts (R18, R37, R38). -/
def newTeam (pc csn entry L G : Nat) (copy : Bool) (prio : Nat) (sr : AMap Word) (cr : AMap (Cap × Bool)) : Team :=
  { L, G, copy, prio, s := sr, c := cr, v := [], vpoison := [], p := [], fpflags := 0, sigacc := 0xFFFFFFFF, trapvec := 0
    trapcause := 0, trappc := 0, trapword := 0, faultstat := 0, bbase := 0, cb := [], memcnt := 0, setcnt := 0, arrcnt := 0
    bankcnt := 0, cpycnt := 0, stb := [], pend := [], cmds := [], cursors := [], handler := false, halted := false
    finished := false, haltReqs := [], park := [], lift := .core, wd := 0, wdNow := false, exited := 0, claim := none, remote := 0
    frags := [{ csn, pc, mask := fullMask L, rpc := 0, rpcv := false, rpcNext := 0, nextv := false, link := 0, linkv := false
                hollow := false, safe := false, spilled := false, entry, spillSeq := 0, hold := .none, trapHeld := false
                acq := none, storeAt := 0, spin := false, yielded := false }] }
/-- A matrix sequencer as it starts (R18). -/
def newSeq (mpc : Nat) : Seq :=
  { mpc, d := [], q := [], ms := [], acc := [], accPoison := [], mir := 0, ph := [], cursors := [], running := none, accepted := none
    rowprog := 0, loads := [], xfers := [], arrives := [], hold := .none, fetchWait := none, ended := false, faulted := false
    stop := false }
/-- The block of a launch that is dispatched on core k as block `index`, j-th of its gang (R16 to R18). [log 6: DESIGN CHOICE] -/
def newBlock (s : State) (slot : Nat) (q : QueueSlot) (l : Launch) (gang index j k : Nat) : Block :=
  let p := l.pkt
  let sr : AMap Word := (List.zip (upto 0 4) [index, j % lpCpb p + j / lpCpb p * 8, k, lpBlocks p]).foldl
    (fun m x => AMap.set 0 m x.1 (BitVec.ofNat 64 x.2)) []
  let c0 : Cap := mkCap 0 (256 * lpSplines p) 63 1 0
  let c1 : Cap := mkCap (lpArgs p) 256 (permRD + permLC) 0 0
  let team := fun (t : Nat) =>
    let copy := decide (t < lpCopies p)
    newTeam (if copy then (lpCopyEntry p).toNat else lpEntry p) (t / 4) (t / 4) (lpL p) (lpG p) copy (lpPrio p) sr [(0, (c0, true)), (1, (c1, true))]
  { index, name := k, vi := slot / 32, asid := q.asid, slot, priv := q.priv, launch := l.id, packet := p, lanes := lpLanes p
    splines := lpSplines p, teams := (upto 0 (lpTeams p)).map fun t => (t, team t)
    parts := ((upto 0 4).filter fun i => decide (i < lpTeams p)).map fun i => (i, { Part.init with csnNext := (lpTeams p - i + 3) / 4 })
    ts := [], cr := [], sp := { Scratch.init with seed := s.freeIx }, subs := []
    seq := if lpMoff p = 0 then none else some (newSeq (lpStream p).toNat)
    fused := lpFuse p, since := s.clock, heldClocks := 0, request := none, testReq := false, overdue := false, gang }

/-- The source of the Ringmaster's records (R359). -/
def ringmaster : Nat := sourceOf 5 0
/-- Place a block on a core, which the engine's acquire finds with an empty L1 (R33, R61, R110). -/
def State.putBlock (s : State) (k : Nat) (b : Block) : State :=
  let s := s.modCore k fun c => { c with block := some b, l1 := [], walks := [] }
  s.modCluster (clusterOf k) fun c => { c with hostl2 := [] }
/-- Reserve every core of the clusters of a fused gang (R25). -/
def State.reserve (s : State) (gang : Nat) (spot : List (List Nat)) : State :=
  spot.foldl (fun s ks => (upto ((ks.head?.getD 0) / 4 * 4) 4).foldl (fun s k =>
    s.modCore k fun c => { c with fusedGang := some gang, l1 := [] }) s) s
/-- Dispatch the next gang of a queue's head launch (R23, R218). What teams have stored and no completion word orders before the launch, its fetches do
not see (R133). -/
def State.dispatch (s : State) (slot : Nat) (l : Launch) (spot : List (List Nat)) : State :=
  let q := s.slot slot
  let p := l.pkt
  let n := lpGang p
  let (gang, s) := s.nextSeq
  let s := if lpFuse p then s.reserve gang spot else s
  let s : State := if l.next = 0 then { s with codeOld := AMap.set [] s.codeOld l.id (s.unseenCode l.seen) } else s
  let cores := spot.flatMap fun ks => ks.take (lpCpb p)
  let s := (cores.zip (upto 0 n)).foldl (fun s x =>
    let b := newBlock s slot q l gang (l.next + x.2) x.2 x.1
    let s := ({ s with freeIx := s.freeIx + 1 } : State).putBlock x.1 b
    s.traceRec (slot / 32) ringmaster 1 [b.index + x.1 * 2 ^ 32 + slot % 32 * 2 ^ 41]) s
  let s := s.modLaunch slot l.id fun l => { l with next := l.next + n, live := l.live + n, lastAt := some s.clock }
  let s := { s with rmLast := some (q.prio * 2048 + slot) }
  if l.next + n = lpBlocks p then s.appDone q.asid q.hdr l.claim else s

/-! ### Arbitration (R30 to R32) -/

/-- The queues in ring order: by priority class and slot (R30). -/
def State.ring (s : State) : List (Nat × QueueSlot) :=
  (List.filter (fun (x : Nat × QueueSlot) => x.2.registered) s.slots).foldl
    (fun l x => insertBy (fun (y : Nat × QueueSlot) => y.2.prio * 2048 + y.1) x l) []
/-- `Ready` (R27): the head launch whose condition holds. -/
def QueueSlot.ready (q : QueueSlot) : Option Launch := q.headLaunch.filter fun l => l.ready
/-- `Spaced` (R31): a gang was dispatched fewer than 4 clocks earlier. -/
def State.spaced (s : State) (l : Launch) : Bool := l.lastAt.any fun c => decide ((s.clock + 2 ^ 64 - c) % 2 ^ 64 < 4)
/-- Some core is free. -/
def State.anyFree (s : State) : Bool := (upto 0 Config.cores).any (s.coreFree none)
/-- Each Ready queue receives its quantum; held quanta take effect (R31, R327). -/
def State.replenish (s : State) : State :=
  { s with slots := s.slots.map fun x =>
      let q := if x.2.registered then { x.2 with quantum := x.2.quantumHeld.getD x.2.quantum, quantumHeld := none } else x.2
      (x.1, if x.2.registered && x.2.ready.isSome then { q with d := q.d + q.quantum } else q) }
/-- One decision step (R31). [log 42: DESIGN CHOICE] -/
def State.decide_ (s : State) : State :=
  let ready := s.ring.filter fun x => x.2.ready.isSome
  let s := if ready.any fun x => decide (0 < x.2.d) then s else s.replenish
  let ring := s.ring
  let after := fun (x : Nat × QueueSlot) => match s.rmLast with
    | none => true
    | some k => decide (k < x.2.prio * 2048 + x.1)
  let order := ring.filter after ++ ring.filter fun x => !after x
  match order.findSome? fun x => match x.2.ready with
    | some l => if 0 < x.2.d && !s.spaced l then some (x.1, l) else none
    | none => none with
  | some (slot, l) =>
    match s.fits (slot / 32) l.pkt with
    | some spot => s.dispatch slot l spot
    | none => { s with rmHeld := some slot }
  | none =>
    { s with slots := s.slots.map fun x =>
        (x.1, if x.2.registered && x.2.ready.isNone && decide (0 < x.2.d) then { x.2 with d := 0 } else x.2) }
/-- `RINGMASTER_DECISION`: one decision step, on a clock of its own, when a queue has become Ready or a core is free, and no queue is
held (R31). [log 42: DESIGN CHOICE] -/
def execRingmasterDecision (s : State) : Res :=
  if s.rmHeld.isSome || s.rmAt == some s.clock || !(s.rmWant || s.anyFree) then .next s
  else
    let s := s.decide_
    .next { s with rmWant := false, rmAt := some s.clock }
/-- `RINGMASTER_HOLD_STEP`: the gang of the held queue is dispatched once it fits, on a clock of its own (R31). [log 42: DESIGN CHOICE] -/
def execRingmasterHoldStep (s : State) : Res :=
  match s.rmHeld with
  | none => .next s
  | some slot => if s.rmAt == some s.clock then .next s else match (s.slot slot).nextLaunch with
    | none => .next s
    | some l => match s.fits (slot / 32) l.pkt with
      | none => .next s
      | some spot =>
        let s := s.dispatch slot l spot
        .next { s with rmHeld := none, rmAt := some s.clock }

/-! ### Retirement (R19, R25, R32) -/

/-- Nothing of the stream runs any more: it has ended, or it has faulted (R239, R389). -/
def Seq.over_ (q : Seq) : Bool :=
  (q.ended || q.faulted) && q.running.isNone && q.accepted.isNone && q.loads.isEmpty && q.xfers.isEmpty && q.arrives.isEmpty
/-- A block may retire (R19, R347). -/
def State.mayRetire (s : State) (k : Nat) (b : Block) : Bool :=
  (b.teams.all fun x => (x.2.finished || x.2.halted) && x.2.lift == .core && x.2.stb.isEmpty)
    && b.seq.all Seq.over_ && (s.core k).path.isEmpty
    && s.apps.all fun a => a.launch || !(a.vi == b.vi && a.name == b.name)
/-- The blocks of a gang that are live, on cores and saved. -/
def State.gangCores (s : State) (gang : Nat) : List Nat :=
  (List.filter (fun (x : Nat × Core) => x.2.block.any fun b => b.gang == gang) s.cores).map fun x => x.1
def State.gangSaved (s : State) (gang : Nat) : Bool := s.saved.any fun x => x.block.gang == gang
/-- The clocks for which a block has held its core (R32). -/
def State.heldBy (s : State) (b : Block) : Nat := b.heldClocks + (s.clock + 2 ^ 64 - b.since) % 2 ^ 64
/-- Free the cores reserved for a gang (R25). -/
def State.unreserve (s : State) (gang : Nat) : State :=
  { s with cores := s.cores.map fun x =>
      (x.1, if x.2.fusedGang = some gang then { x.2 with fusedGang := none, l1 := [] } else x.2) }
/-- `BLOCK_RETIRE`: the core is freed and the queue charged; a fused gang is charged and released with its last block. A clock's retirements
come before its decision (R32). [log 42: DESIGN CHOICE] -/
def execBlockRetire (core : Nat) (s : State) : Res :=
  match s.block core with
  | none => .next s
  | some b =>
    if !s.mayRetire core b || s.rmAt == some s.clock then .next s
    else
      let held := s.heldBy b
      let s := s.modCore core fun c => { c with block := none, walks := [] }
      let s := { s with apps := s.apps.filter fun a => !(a.vi == b.vi && a.name == b.name) }
      let s := s.modLaunch b.slot b.launch fun l => { l with live := l.live - 1, endAt := some s.clock }
      let s := s.traceRec b.vi ringmaster 2 [b.index + core * 2 ^ 32 + b.slot % 32 * 2 ^ 41]
      let charge := fun (s : State) (n : Nat) => s.modSlot b.slot fun q => { q with d := q.d - n }
      if !b.fused then .next (charge s held)
      else if !(s.gangCores b.gang).isEmpty || s.gangSaved b.gang then .next s
      else .next (charge (s.unreserve b.gang) (4 * lpClusters b.packet * held))

/-- A launch has nothing left but its completion action, or its failure. -/
def Launch.due (l : Launch) : Bool := l.live == 0 && (!l.undone || l.fail.isSome) && l.wait.isNone
/-- Launch i of a queue ends. -/
def State.endLaunch (s : State) (slot id : Nat) : State :=
  let s := s.modSlot slot fun q => { q with launches := q.launches.filter fun l => l.id != id }
  { s with codeOld := AMap.erase s.codeOld id }
/-- A launch whose packet was read earlier has completed on the same clock and acts first (R28). -/
def State.completesBefore (s : State) (l : Launch) : Bool :=
  s.slots.any fun x => x.2.launches.any fun y => y.due && decide (y.id < l.id) && y.endAt == l.endAt
/-- A launch ends in failure (R375 to R377). -/
def State.launchFails (s : State) (slot : Nat) (l : Launch) (code addr : Nat) : State :=
  (s.endLaunch slot l.id).failEntry slot l.claim 7 code addr (if lpDkind l.pkt = 1 then lpDaddr l.pkt else 0) (lpTurn l.pkt)
    (decide (0 < l.next)) false 0
/-- A launch completes with its word raised: the word orders its stores before the launches that wait on it (R28, R33, R133). -/
def State.wordRaised (s : State) (q : QueueSlot) (l : Launch) : State :=
  match (s.engineXlat q.engine q.asid (lpDaddr l.pkt) false).1 with
  | .ok pa => s.publish l.id l.seen pa
  | _ => s
/-- `LAUNCH_COMPLETE`: the last block of launch i of a queue has retired: its completion action, or its failure (R28, R375 to R377). Of two
that completed on one clock, and of two of one queue, the one read first goes first, so that an action waits for the end of the clock. An action that
waits for its page holds its queue. -/
def execLaunchComplete (slot i : Nat) (s : State) : Res :=
  let q := s.slot slot
  match q.launches[i]? with
  | none => .next s
  | some l =>
    let p := l.pkt
    if !l.due || q.actionHeld || (q.launches.take i).any Launch.due || l.endAt == some s.clock || s.completesBefore l then .next s
    else
      let fail := fun (s : State) (code addr : Nat) => s.launchFails slot l code addr
      let finish := fun (s : State) => (s.endLaunch slot l.id).tracePacket slot l.claim true 0
      match l.fail with
      | some (code, addr) => .next (fail s code addr)
      | none =>
        if lpDkind p = 1 then
          match s.wordStep q.engine q.asid (lpDaddr p) (wordAfter 0) true true with
          | .wait => .next (s.askVa q.engine q.asid (lpDaddr p) 8)
          | .miss va s => .next ((s.postPage (slot / 32) 2 false va q.asid q.engine 0).modLaunch slot l.id fun l =>
              { l with wait := some (va / 65536) })
          | .fail code va => .next (fail s code va)
          | .ok s => .next (finish (s.wordRaised q l))
        else match lpTurn p with
          | none => .next (finish s)
          | some t => match s.arriveNamed (slot / 32) t with
            | some s => .next (finish s)
            | none => .next (fail s 0x0D 0)

/-! ### Pre-emption (R59 to R61, R329, R354) -/

/-- Free save slots of an interface, lowest first. -/
def State.freeSaves (s : State) (vi : Nat) : List Nat :=
  (upto 0 (s.iface vi).saveslots).filter fun i => !s.saved.any fun x => x.vi == vi && x.slotIx == i
/-- The cores whose blocks stop and move together with that of a core: a fused gang, or one block (R61). [log 41: DESIGN CHOICE] -/
def State.together (s : State) (k : Nat) (b : Block) : List Nat := if b.fused then s.gangCores b.gang else [k]
/-- The request reaches a block (R59, R241). -/
def Block.stopFor (b : Block) (f : Block → Block) : Block := { f b with seq := b.seq.map fun q => { q with stop := true } }

/-- `PREEMPT_REQUEST`: the Ringmaster asks a block to stop at a safe point, while a save slot is free (R59, R329, R354). -/
def execPreemptRequest (core : Nat) (s : State) : Res :=
  match s.block core with
  | none => .next s
  | some b =>
    if b.request.isSome || (s.freeSaves b.vi).isEmpty then .next s
    else .next ((s.together core b).foldl (fun s k => s.modBlock k fun b => b.stopFor fun b => { b with request := some s.clock }) s)

/-- A team is at a safe point, or has exited or halted (R59, R347); one in handler mode never is (R345). [log 29: DESIGN CHOICE] -/
def Team.atSafePoint (tm : Team) : Bool :=
  tm.lift == .core && (tm.memcnt + tm.setcnt + tm.arrcnt + tm.bankcnt == 0)
    && (tm.finished || tm.halted || (!tm.handler && tm.frags.all fun f => f.safe || f.waiting || f.hollow))
/-- The matrix stream has stopped, with every deferred arrival made whose condition holds (R241, R389). -/
def Seq.stopped (q : Seq) : Bool :=
  q.over_ || (q.stop && q.loads.isEmpty && !(q.arrives.head?.any fun a => q.mayArrive a.2) && (q.running.all fun m => m.stopped) && q.xfers.all fun x => !x.posted.isEmpty)
/-- The block is at a safe point (R59, R334). -/
def Block.atSafePoint (b : Block) : Bool :=
  (b.teams.all fun x => x.2.atSafePoint) && b.seq.all Seq.stopped && b.parts.all fun x => x.2.stopped.isNone

/-- The record of a saved block (R329), as far as its layout is given. -/
def saveRec (s : State) (k : Nat) (b : Block) (held : Nat) : Rec :=
  let head := b.index % 2 ^ 32 + b.name % 512 * 2 ^ 32 + b.slot % 32 * 2 ^ 41 + (b.teams.length - 1) % 64 * 2 ^ 46 + b01 b.fused * 2 ^ 52
  dwsAt 0 [head, max s.clock 1, held, 0, 0, 0, 0, 0]
    ++ dwsAt 64 ((upto 0 8).map (pdw b.packet))
    ++ dwsAt 128 ((upto 0 16).map fun t => (b.turnstile t).dw)
    ++ teamRecords s k b b.teams 4096
/-- Offset of the requested area in a save slot. -/
def Block.savedArea (b : Block) : Nat := (4096 + b.teams.foldl (fun n x => n + teamRecordSize x.2) 0 + 65535) / 65536 * 65536
/-- Write a block into its save slot: its record, the requested area and the reserved area with their poison, and the last part, in the
device's own layout: free bytes, as many as the device takes of the slot (R60, R329). [log 26: DESIGN CHOICE] -/
def State.writeSave (s : State) (base k : Nat) (b : Block) (held : Nat) : State :=
  let s : State := if isHost base && !s.linkUp then s.modIface b.vi fun i => { i with lost := i.lost + 1 }
    else { s with mem := s.mem.putRec base (saveRec s k b held) }
  let a := base + b.savedArea
  let low := Config.spBytes - b.reserved
  let put := fun (s : State) (at_ off n : Nat) =>
    let s := s.writeFor b.vi (.pa at_) (b.sp.read off n)
    (b.sp.poison.filter fun u => decide (off ≤ 8 * u ∧ 8 * u < off + n)).foldl (fun s u => s.poisonAt (.pa (at_ + (8 * u - off))) 8) s
  let s := put (put s a 0 b.area) (a + b.area) low b.reserved
  let tail := (b.savedArea + b.area + b.reserved + 4095) / 4096 * 4096
  let n := Config.freeNat s.freeIx % (2 ^ 22 + 1 - tail)
  let s := s.writeFor b.vi (.pa (base + tail)) ((upto 0 n).map fun i => Config.freeByte (s.freeIx + 1 + i))
  { s with freeIx := s.freeIx + 1 + n }
/-- A store moves with its block to another core (R61). -/
def StReq.moveTo (k : Nat) (r : StReq) : StReq := { r with loc := match r.loc with | .sp _ o => .sp k o | l => l }
/-- A block leaves its core with its store buffers and its unacknowledged stores (R60, R132). -/
def State.takeOff (s : State) (k slotIx : Nat) (b : Block) : State :=
  let path := (s.core k).path
  let b : Block := { b with
    heldClocks := s.heldBy b, request := none, testReq := false, overdue := false }
  let s := s.modCore k fun c => { c with block := none, path := [], walks := [] }
  { s with saved := s.saved ++ [{ vi := b.vi, slotIx, block := b, core := k, path }] }
/-- Save the blocks of some cores, each into a free slot, when every one is at a safe point and there are slots enough. -/
def State.saveAll (s : State) (cores : List Nat) : Option Res :=
  let bs := cores.filterMap fun k => (s.block k).map fun b => (k, b)
  let one := fun (r : Option Res) (x : Nat × Block) => match r with
    | some (.next s) => match s.freeSaves x.2.vi with
      | [] => none
      | i :: _ =>
        let base := s.saveSlot x.2.vi i
        if !(paOk base && paOk (base + 2 ^ 22 - 1)) then some (.fault .noSuchAddress)
        else
          let s := s.writeSave base x.1 x.2 (s.heldBy x.2)
          let s := s.traceRec x.2.vi ringmaster 11 [x.2.index]
          some (.next (s.takeOff x.1 i x.2))
    | r => r
  if bs.all fun x => x.2.atSafePoint then bs.foldl one (some (.next s)) else none
/-- A fused gang that has left its cores frees them all (R25). -/
def freeGang (b : Block) (r : Res) : Res :=
  match r with
  | .next s => .next (if b.fused then s.unreserve b.gang else s)
  | r => r
/-- `BLOCK_SAVE`: a block whose request is pending is saved at its safe point; a fused gang is saved as one (R59 to R61, R329). -/
def execBlockSave (core : Nat) (s : State) : Res :=
  match s.block core with
  | none => .next s
  | some b =>
    if b.request.isNone then .next s
    else match s.saveAll (s.together core b) with
      | none => .next s
      | some r => freeGang b r

/-- A block goes on where it is put: every presence bit reads 1, its fragments leave `safept`, its stores drain from here (R60, R61). -/
def Block.resumeOn (b : Block) (k clock : Nat) : Block :=
  { b with
    since := clock
    sp := { b.sp with absent := [] }
    seq := b.seq.map fun q => { q with stop := false }
    teams := b.teams.map fun x =>
      (x.1, { x.2 with stb := x.2.stb.map (StReq.moveTo k), frags := x.2.frags.map fun f => { f with safe := false } }) }
/-- Put one saved block on a core: its save slot's DW1 becomes 0 (R329). [log 41: DESIGN CHOICE] -/
def State.resumeAt (s : State) (x : Saved) (k : Nat) : State :=
  let s := s.writeFor x.vi (.pa (s.saveSlot x.vi x.slotIx + 8)) (bytesOf 8 0)
  let s : State := { s with saved := s.saved.filter fun y => !(y.vi == x.vi && y.slotIx == x.slotIx) }
  let s := (s.putBlock k (x.block.resumeOn k s.clock)).modCore k fun c => { c with path := x.path.map (StReq.moveTo k) }
  s.traceRec x.vi ringmaster 11 [x.block.index + 2 ^ 32]
/-- `BLOCK_RESUME`: saved block i of an interface resumes on a free core, and a fused gang on four free cores of each cluster (R61). -/
def execBlockResume (vi i : Nat) (s : State) : Res :=
  match (s.saved.filter fun x => x.vi == vi)[i]? with
  | none => .next s
  | some x =>
    let b := x.block
    let p := b.packet
    let ok := s.coreFree (some b.gang)
    if !b.fused then
      match placeIn ok (s.groups vi p) 1 1 with
      | some ((k :: _) :: _) => .next (s.resumeAt x k)
      | _ => .next s
    else
      match placeIn ok (s.groups vi p) 4 (lpClusters p) with
      | none => .next s
      | some spot =>
        let s := s.reserve b.gang spot
        .next ((s.saved.filter fun y => y.block.gang == b.gang).foldl (fun s y =>
          let j := y.block.index % lpGang p
          s.resumeAt y (nth 0 (nth [] spot (j / lpCpb p)) (j % lpCpb p))) s)

/-- `PREEMPT_OVERDUE`: a request has been pending for 2^28 clocks: one record in the trace (R354). -/
def execPreemptOverdue (core : Nat) (s : State) : Res :=
  match s.block core with
  | none => .next s
  | some b => match b.request with
    | none => .next s
    | some c =>
      if b.overdue || (s.clock + 2 ^ 64 - c) % 2 ^ 64 < Config.overdueClocks then .next s
      else .next ((s.modBlock core fun b => { b with overdue := true }).traceRec b.vi ringmaster 11 [b.index + 2 * 2 ^ 32])

end Sys2Proof.Machine
end

