-- ==== Sys2Proof/Machine/SetHome.lean ====
section
/-!
DEFINITION. Sys2Proof/Machine/SetHome.lean: what the home of a set does (R250 to R264, R267 to R271, R395 to R399): the sizes
and the choice of representations, the charges, the header, the steps of every operation, and the return of results.
-/

namespace Sys2Proof.Machine

/-! ### Sizes and representations (R253, R254) -/

/-- `NextPow2` (R253). -/
def nextPow2 (x : Nat) : Nat := if x ≤ 1 then 1 else 2 ^ (log2f 40 (x - 1) + 1)
/-- Maximal runs of consecutive members of a rising list. -/
def runsOf : List Nat → Nat
  | [] => 0
  | [_] => 1
  | x :: y :: l => (if y = x + 1 then 0 else 1) + runsOf (y :: l)
/-- Bytes of a body (R253): 0 sorted list, 1 runs, 2 bitmap, 3 hash. -/
def repBytes (rep n r u : Nat) : Nat :=
  match rep with
  | 0 => if u ≤ 65536 then 2 * n else 4 * n
  | 1 => if u ≤ 65536 then 4 * r else 8 * r
  | 2 => u / 8
  | _ => 4 * nextPow2 (ceilDiv (4 * n) 3)
/-- Far bodies (R253). -/
def isFar (bytes : Nat) : Bool := decide (Config.nearBytes < bytes)
/-- `Best` (R254). -/
def bestRep (n r u : Nat) : Nat :=
  let b := if repBytes 1 n r u < repBytes 0 n r u then 1 else 0
  let b := if u ≤ 2 ^ 28 ∧ repBytes 2 n r u < repBytes b n r u then 2 else b
  if b = 0 ∧ isFar (repBytes 0 n r u) = true then 3 else b
/-- `Check` (R254): the representation that it leaves. -/
def checkRep (pin : Bool) (rep n r u : Nat) : Nat :=
  if pin then rep
  else
    let b := bestRep n r u
    let heavy := decide (rep = 0) && isFar (repBytes 0 n r u)
    if heavy || decide (repBytes b n r u + 2 < repBytes rep n r u) then b else rep

def SetObj.n (o : SetObj) : Nat := o.members.length
def SetObj.runs (o : SetObj) : Nat := runsOf o.members
def SetObj.bytes (o : SetObj) : Nat := repBytes o.rep o.n o.runs o.u
/-- A value of the universe (R250). -/
def inUni (lo u x : Nat) : Bool := decide (lo ≤ x) && decide (x < lo + u)

/-- The header doublewords (R251). -/
def SetObj.header (o : SetObj) (home : Nat) : List Nat :=
  [o.lo + o.u * 2 ^ 32,
   o.rep + b01 (isFar o.bytes) * 4 + b01 o.pin * 8 + b01 o.live * 16 + home % 128 * 2 ^ 5 + o.lastAlg * 2 ^ 12
     + o.lastOp * 2 ^ 16,
   o.n + o.runs * 2 ^ 32, o.bytes,
   nth 0 o.cv 0 + nth 0 o.cv 1 * 2 ^ 16 + nth 0 o.cv 2 * 2 ^ 32 + nth 0 o.cv 3 * 2 ^ 48,
   o.btouch, o.hcyc, o.area % 2 ^ 41]

/-! ### Charges (R257 to R259) -/

/-- One charged term: its bytes and whether the body that it is charged against is far (R259). -/
abbrev Term := Nat × Bool
/-- A term that names a body. -/
def ofBody (b : Nat) : Term := (b, isFar b)
/-- Bytes charged. -/
def sumTerms (xs : List Term) : Nat := xs.foldl (fun a x => a + x.1) 0
/-- Home clocks of a charged step without an array path (R259). -/
def clocksOf (xs : List Term) : Nat :=
  8 + ceilDiv (sumTerms (xs.filter fun x => !x.2)) 64 + ceilDiv (sumTerms (xs.filter fun x => x.2)) 32
/-- Element bytes e (R257). -/
def elBytes (u : Nat) : Nat := if u ≤ 65536 then 2 else 4

/-- A source as an algebra step reads it. -/
structure SetVal where
  members : List Nat
  rep : Nat
  u : Nat
def SetVal.bytes (a : SetVal) : Nat := repBytes a.rep a.members.length (runsOf a.members) a.u

/-- The algorithm and charge of an algebra step (R257, R259): LASTALG, the terms, and the clocks. -/
def algCharge (a b : SetVal) (bD : Nat) : Nat × List Term × Nat :=
  let na := a.members.length
  let nb := b.members.length
  let small := if na < nb then a else b
  let large := if na < nb then b else a
  let ns := small.members.length
  let nl := large.members.length
  let all := [ofBody a.bytes, ofBody b.bytes, ofBody bD]
  let plain := fun (alg : Nat) (xs : List Term) => (alg, xs, clocksOf xs)
  if a.rep = 3 ∨ b.rep = 3 then plain 8 [ofBody small.bytes, (4 * ns, isFar large.bytes), ofBody bD]
  else if a.rep = 2 ∧ b.rep = 2 then
    if isFar a.bytes then (2, all, 420 + 165 * ceilDiv a.u 262144) else (1, all, 8 + 6 * ceilDiv a.u 16384)
  else if a.rep = 0 ∧ b.rep = 0 then
    if 16 * ns ≤ nl then
      if ns = 0 then plain 4 [ofBody bD]
      else plain 4 [ofBody small.bytes, (elBytes a.u * ns * (2 * log2f 40 (nl / ns) + 2), isFar large.bytes), ofBody bD]
    else plain 3 all
  else if a.rep = 0 ∧ b.rep = 2 then plain 5 [ofBody a.bytes, (8 * na, isFar b.bytes), ofBody bD]
  else if a.rep = 2 ∧ b.rep = 0 then plain 5 [ofBody b.bytes, (8 * nb, isFar a.bytes), ofBody bD]
  else if a.rep ≤ 1 ∧ b.rep ≤ 1 then plain 6 all
  else plain 7 all

/-- The bytes that `set.has` charges for each element of the universe (R258). -/
def hasCost (o : SetObj) : Nat :=
  if o.n = 0 then 0
  else match o.rep with
    | 0 => elBytes o.u * (log2f 40 o.n + 1)
    | 1 => 2 * elBytes o.u * (log2f 40 o.runs + 1)
    | 2 => 8
    | _ => 4

/-- The bytes that `set.enum` charges (R258) for the members `got` returned from cursor c to `k` lanes. -/
def enumCost (o : SetObj) (c : Nat) (got : List Nat) (k : Nat) : Nat :=
  if o.lo + o.u ≤ c then 0
  else match o.rep with
    | 0 => elBytes o.u * got.length
    | 1 => 2 * elBytes o.u * runsOf got
    | 2 =>
      let first := (max c o.lo - o.lo) / 64
      if got.length < k then 8 * (o.u / 64 - first)
      else match got.getLast? with
        | some m => 8 * ((m - o.lo) / 64 - first + 1)
        | none => 0
    | _ => o.bytes

/-! ### Where a body lies -/

/-- The pages of [va, va+n) translated one after another for a home (R263, R398). -/
inductive Pages
  | ok (chunks : List (Nat × Nat))
  | absent (va : Nat)
  | bad (va : Nat) (poison : Bool)
  /-- A walk waits for its tables (R308). -/
  | busy
  deriving DecidableEq, Repr

/-- Translate a range page by page: a physical address and a length for each piece. [log 31: DEDUCED] -/
def State.homePages (s : State) (home asid : Nat) (wr : Bool) : Nat → Nat → Nat → Pages × State
  | 0, _, _ => (.ok [], s)
  | f + 1, va, n =>
    if n = 0 then (.ok [], s)
    else
      let m := min n (65536 - va % 65536)
      match s.engineXlat home asid (va % 2 ^ 57) wr with
      | (.absent, s) => (.absent (va % 2 ^ 57), s)
      | (.bad p, s) => (.bad (va % 2 ^ 57) p, s)
      | (.busy, s) => (.busy, s.askWalk (Config.cores + home) asid (va % 2 ^ 57))
      | (.ok pa, s) =>
        match s.homePages home asid wr f (va + m) (n - m) with
        | (.ok xs, s) => (.ok ((pa, m) :: xs), s)
        | r => r

/-- The pages of a range. -/
def State.homeRange (s : State) (home asid : Nat) (wr : Bool) (va n : Nat) : Pages × State :=
  s.homePages home asid wr (n / 65536 + 2) va n

/-- The pages of a range that are present, skipping those that are not. [log 31: DEDUCED] -/
def State.presentPages (s : State) (asid : Nat) : Nat → Nat → Nat → List (Nat × Nat)
  | 0, _, _ => []
  | f + 1, va, n =>
    if n = 0 then []
    else
      let m := min n (65536 - va % 65536)
      let rest := s.presentPages asid f (va + m) (n - m)
      match s.walk asid (va % 2 ^ 57) with
      | .leaf l fr _ _ _ => (fr + va % 2 ^ pageBits l, m) :: rest
      | _ => rest

/-- Give pieces of memory unspecified contents (R252, R267, log 9). -/
def State.scramble (s : State) (xs : List (Nat × Nat)) : State :=
  xs.foldl (fun s x =>
    let (bs, s) := s.freeBytes x.2
    s.writeLoc (.pa x.1) bs) s
/-- Give a backing area unspecified contents. -/
def State.scrambleArea (s : State) (asid va n : Nat) : State := s.scramble (s.presentPages asid (n / 65536 + 2) va n)

/-! ### A step at its home -/

/-- The set that a home holds at a header address. -/
def State.setAt (s : State) (home pa : Nat) : Option SetObj := AMap.find? (s.cluster home).sets pa
/-- Replace a set and write its header (R252). -/
def State.putSet (s : State) (home pa : Nat) (o : SetObj) : State :=
  (s.modCluster home fun c => { c with sets := AMap.put c.sets pa o }).writeLoc (.pa pa)
    ((o.header home).flatMap fun d => bytesOf 8 d)

/-- How a step ends: it waits for a page of the set at header `set`, it fails, or it is done with a result. -/
inductive StepOut
  | wait (set va : Nat) (wr : Bool) (s : State)
  | fail (code reason addr cap : Nat) (s : State)
  | done (res : SetRes) (s : State)
  /-- The body of the set at header `va` must come back into the set store of its home first, `need` bytes (R256). -/
  | hold (home va need : Nat) (s : State)
  /-- It waits for tables, sectors, or lines that another agent owns (R113, R308). -/
  | busy (s : State)

/-- The failure of a walk: malformed tables, or poisoned ones (R366, R371, R398). -/
def walkCode (poison : Bool) : Nat := if poison then 0x19 else 0x15
/-- Find the header and the set of a handle (R263, R396 reason 1, R398). -/
def State.findSet (s : State) (home asid va cap : Nat) (wr : Bool) (k : Nat → SetObj → State → StepOut) : StepOut :=
  match s.engineXlat home asid va wr with
  | (.absent, s) => .wait va va wr s
  | (.bad p, s) => .fail (walkCode p) 0 va cap s
  | (.busy, s) => .busy (s.askWalk (Config.cores + home) asid va)
  | (.ok pa, s) =>
    if s.agentWaits s.seqNo s.seqNo (.pa pa) then .busy s
    else match s.setAt home pa with
    | none => .fail 0x31 1 va cap s
    | some o => if o.live then k pa o s else .fail 0x31 1 va cap s

/-- Near bodies that the set store of a home holds, but that of one set (R106, R256). -/
def State.storeUsed (s : State) (home : Nat) (but : Option Nat) : Nat :=
  ((s.cluster home).sets.filter fun x => but != some x.1 && x.2.inStore && !isFar x.2.bytes).foldl (fun n x => n + x.2.bytes) 0
/-- The set store of a home has room for the body of a set (R106). -/
def State.storeFits (s : State) (home : Nat) (but : Option Nat) (n : Nat) : Bool := decide (s.storeUsed home but + n ≤ Config.setStoreBytes)
/-- Some line of the pieces is owned by another agent (R113). -/
def State.piecesOwned (s : State) (xs : List (Nat × Nat)) : Bool :=
  xs.any fun x => s.agentWaitsOver s.seqNo s.seqNo (.pa x.1) x.2

/-- Read a body (R256, R263, R398, R399): poison in a far one breaks the set. A near body comes back into the set store while its pages are
present. [log 31: DEDUCED] -/
def State.readBody (s : State) (home asid va cap pa : Nat) (o : SetObj) (wr : Bool) (k : State → StepOut) : StepOut :=
  if o.broken then .fail 0x19 0 va cap s
  else if !isFar o.bytes && o.inStore then k s
  else
    match s.homeRange home asid wr (va + 64) o.bytes with
    | (.absent a, s) => .wait va a wr s
    | (.bad a p, s) => .fail (walkCode p) 0 a cap s
    | (.busy, s) => .busy s
    | (.ok xs, s) =>
      if !isFar o.bytes then .hold home va o.bytes s
      else if s.piecesOwned xs || !xs.all (fun x => s.mayFill x.1 x.2) then
        .busy (xs.foldl (fun s x => s.ask (Config.cores + home) x.1 x.2) s)
      else
        let s := xs.foldl (fun s x => s.l2Fill x.1 x.2) s
        if xs.any fun x => s.poisonedAt (.pa x.1) x.2 then
          .fail 0x19 0 va cap (s.modCluster home fun c => { c with sets := AMap.put c.sets pa { o with broken := true } })
        else k s

/-- Write a body: one that is far, or for which the set store has no room, lies in its backing area, with unspecified contents (R252, R256, R263,
R398). [log 31: DEDUCED] -/
def State.writeBody (s : State) (home asid va cap : Nat) (o : SetObj) (k : State → StepOut) : StepOut :=
  if isFar o.bytes || !o.inStore then
    match s.homeRange home asid true (va + 64) o.bytes with
    | (.absent a, s) => .wait va a true s
    | (.bad a p, s) => .fail (walkCode p) 0 a cap s
    | (.busy, s) => .busy s
    | (.ok xs, s) => if s.piecesOwned xs then .busy s else k (s.scramble xs)
  else k s

/-- Charge a step (R257 to R259) and count a conversion (R255). -/
def SetObj.charged (old new : SetObj) (alg func : Nat) (xs : List Term) (clocks : Nat) : SetObj :=
  { new with
    lastAlg := alg, lastOp := func, btouch := (new.btouch + sumTerms xs) % 2 ^ 64, hcyc := (new.hcyc + clocks) % 2 ^ 64
    cv := if old.rep = new.rep then new.cv else setNth new.cv new.rep ((nth 0 new.cv new.rep + 1) % 65536) }

/-- Commit a mutating step that leaves a set as `new`: AREA (R396 reason 3), the body, the header, the trace. -/
def State.commitSet (s : State) (op : SetOp) (pa : Nat) (old new : SetObj) (need alg : Nat) (xs : List Term) (clocks : Nat)
    (res : SetRes) : StepOut :=
  if new.area < need then .fail 0x31 3 op.va op.cap s
  else
    let new := { new with inStore := s.storeFits op.home (some pa) new.bytes }
    s.writeBody op.home op.asid op.va op.cap new fun s =>
    let s := s.putSet op.home pa (old.charged new alg op.func xs clocks)
    .done res (if old.rep = new.rep then s
      else s.traceRec op.vi (sourceOf 3 op.home) 8 [op.va, old.rep + 4 * new.rep])

/-- Apply the lanes of `set.ins` or `set.del` in ascending order (R268, R395): members, results, elements of the universe. -/
def applyLanes (ins : Bool) (o : SetObj) (els : List (Nat × Nat)) : List Nat × List (Nat × Bool) × List Nat :=
  els.foldl (fun (a : List Nat × List (Nat × Bool) × List Nat) x =>
    let (mem, res, ks) := a
    if inUni o.lo o.u x.2 then
      let isIn := mem.contains x.2
      (if ins then insSorted x.2 mem else delSorted x.2 mem, res ++ [(x.1, if ins then !isIn else isIn)], ks ++ [x.2])
    else (mem, res ++ [(x.1, false)], ks)) (o.members, [], [])

/-- `set.ins` and `set.del` (R255, R258, R268). The 8 bytes for each element of a hash are charged against the body as it stood before a rebuild
(R259). [log 66: DESIGN CHOICE] -/
def State.stepLanes (s : State) (op : SetOp) (ins : Bool) (els : List (Nat × Nat)) : StepOut :=
  s.findSet op.home op.asid op.va op.cap true fun pa o s =>
    s.readBody op.home op.asid op.va op.cap pa o true fun s =>
      let (mem, res, ks) := applyLanes ins o els
      let mid := { o with members := mem }
      let b0 := o.bytes
      let b1 := mid.bytes
      let words := ks.foldl (fun l x => insSorted ((x - o.lo) / 64) l) []
      let xs : List Term :=
        match o.rep with
        | 2 => [(16 * words.length, isFar b0)]
        | 3 => (8 * ks.length, isFar b0) :: (if b1 = b0 then [] else [ofBody b0, ofBody b1])
        | _ => [ofBody b0, ofBody b1]
      let rep := checkRep o.pin o.rep mid.n mid.runs o.u
      let new := { mid with rep }
      let xs := if rep = o.rep then xs else xs ++ [ofBody b1, ofBody new.bytes]
      s.commitSet op pa o new (max b1 new.bytes) 9 xs (clocksOf xs) (.preds res)

/-- The value of source j of an algebra step: read within the step, or before (R262). -/
def State.sourceVal (s : State) (op : SetOp) (j : Nat) (k : SetVal → Nat → Nat → State → StepOut) : StepOut :=
  match op.reads.find? fun r => r.ix == j with
  | some r =>
    match r.fail with
    | some (code, reason, addr) => .fail code reason addr ((op.srcs[j]?.map SetSrc.cap).getD 0) s
    | none => k { members := r.members, rep := r.rep, u := r.u } r.lo r.u s
  | none =>
    match op.srcs[j]? with
    | none => .busy s
    | some x =>
      s.findSet x.home op.asid x.va x.cap false fun pa o s =>
        s.readBody x.home op.asid x.va x.cap pa o false fun s => k { members := o.members, rep := o.rep, u := o.u } o.lo o.u s

/-- The members of a result (R270). -/
def algMembers (func : Nat) (a b : List Nat) : List Nat :=
  match func with
  | 6 => b.foldl (fun l x => insSorted x l) a
  | 7 => a.filter fun x => b.contains x
  | 8 => a.filter fun x => !b.contains x
  | _ => a

/-- Finish an algebra or copy step into D (R255, R257, R270). -/
def State.stepInto (s : State) (op : SetOp) (a : SetVal) (b : Option SetVal) (los : List (Nat × Nat)) : StepOut :=
  s.findSet op.home op.asid op.va op.cap true fun pa o s =>
    if los.any fun x => !(x == (o.lo, o.u)) then .fail 0x31 2 op.va op.cap s
    else
      let members := algMembers op.func a.members ((b.map SetVal.members).getD [])
      let mid := { o with members }
      let new := { mid with rep := if o.pin then o.rep else bestRep mid.n mid.runs o.u, broken := false }
      match b with
      | some b =>
        let (alg, xs, clocks) := algCharge a b new.bytes
        s.commitSet op pa o new new.bytes alg xs clocks .accepted
      | none =>
        let xs := [ofBody a.bytes, ofBody new.bytes]
        s.commitSet op pa o new new.bytes 11 xs (clocksOf xs) .accepted

/-- `set.or`, `set.and`, `set.andn`, `set.copy`. -/
def State.stepAlg (s : State) (op : SetOp) : StepOut :=
  s.sourceVal op 0 fun a alo au s =>
    if op.func = 9 then s.stepInto op a none [(alo, au)]
    else s.sourceVal op 1 fun b blo bu s => s.stepInto op a (some b) [(alo, au), (blo, bu)]

/-- `set.clr` (R258, R270): it does not read the body, so it heals (R399). -/
def State.stepClr (s : State) (op : SetOp) : StepOut :=
  s.findSet op.home op.asid op.va op.cap true fun pa o s =>
    let new := { o with members := [], rep := if o.pin then o.rep else bestRep 0 0 o.u, broken := false }
    s.commitSet op pa o new new.bytes 0 [] 8 .accepted

/-- `set.pin` (R271, R396). -/
def State.stepPin (s : State) (op : SetOp) (m : PinMode) : StepOut :=
  s.findSet op.home op.asid op.va op.cap true fun pa o s =>
    let rep := match m with
      | .off => checkRep false o.rep o.n o.runs o.u
      | .list => 0 | .runs => 1 | .bmap => 2 | .hash => 3
      | .cur => o.rep
    let new := { o with rep, pin := m != .off }
    if m = .bmap ∧ 2 ^ 28 < o.u then .fail 0x31 4 op.va op.cap s
    else if rep = o.rep then .done .accepted (s.putSet op.home pa (o.charged new 0 op.func [] 8))
    else s.readBody op.home op.asid op.va op.cap pa o true fun s =>
      let xs := [ofBody o.bytes, ofBody new.bytes]
      s.commitSet op pa o new new.bytes 0 xs (clocksOf xs) .accepted

/-- `set.new` (R252, R267): the home takes the header and the backing area; a set that still lives at that header ends, whichever home holds it.
[log 66: DESIGN CHOICE] -/
def State.stepNew (s : State) (op : SetOp) (lo u area : Nat) (cap : Cap) (tag : Bool) : StepOut :=
  match s.engineXlat op.home op.asid op.va true with
  | (.absent, s) => .wait op.va op.va true s
  | (.bad p, s) => .fail (walkCode p) 0 op.va op.cap s
  | (.busy, s) => .busy (s.askWalk (Config.cores + op.home) op.asid op.va)
  | (.ok pa, s) =>
    if s.agentWaits s.seqNo s.seqNo (.pa pa) then .busy s
    else
    let o : SetObj := { lo, u, rep := 0, pin := false, live := true, members := [], lastAlg := 0, lastOp := 0,
                        cv := [0, 0, 0, 0], btouch := 0, hcyc := 0, area, broken := false, inStore := true,
                        asid := op.asid, hdrVa := op.va }
    let s : State := { s with clusters := s.clusters.map fun x => (x.1, { x.2 with sets := AMap.erase x.2.sets pa }) }
    .done (.cap cap tag) ((s.scrambleArea op.asid (op.va + 64) area).putSet op.home pa o)

/-- `set.free` (R267): it always succeeds on a set that the home holds (R399). -/
def State.stepFree (s : State) (op : SetOp) : StepOut :=
  s.findSet op.home op.asid op.va op.cap true fun pa o s =>
    let s := (s.scrambleArea op.asid (op.va + 64) o.area).putSet op.home pa { o with live := false }
    .done .accepted (s.modCluster op.home fun c => { c with sets := AMap.erase c.sets pa })

/-- `set.has` (R258, R268). -/
def State.stepHas (s : State) (op : SetOp) (els : List (Nat × Nat)) : StepOut :=
  s.findSet op.home op.asid op.va op.cap true fun pa o s =>
    s.readBody op.home op.asid op.va op.cap pa o false fun s =>
      let res := els.map fun x => (x.1, inUni o.lo o.u x.2 && o.members.contains x.2)
      let k := (els.filter fun x => inUni o.lo o.u x.2).length
      let xs : List Term := [(k * hasCost o, isFar o.bytes)]
      .done (.preds res) (s.putSet op.home pa (o.charged o 10 op.func xs (clocksOf xs)))

/-- `set.enum` (R258, R269). -/
def State.stepEnum (s : State) (op : SetOp) (c : Nat) (lanes : List Nat) : StepOut :=
  s.findSet op.home op.asid op.va op.cap true fun pa o s =>
    s.readBody op.home op.asid op.va op.cap pa o false fun s =>
      let got := (o.members.filter fun m => decide (c ≤ m)).take lanes.length
      let vals := (lanes.zip (upto 0 lanes.length)).map fun x =>
        (x.1, match got[x.2]? with | some m => BitVec.ofNat 64 m | none => BitVec.allOnes 64)
      let xs : List Term := [(enumCost o c got lanes.length, isFar o.bytes)]
      .done (.vals vals) (s.putSet op.home pa (o.charged o 10 op.func xs (clocksOf xs)))

/-- `set.card` and `set.info` read only the header (R269, R399). -/
def State.stepHeader (s : State) (op : SetOp) (f : SetObj → Nat) : StepOut :=
  s.findSet op.home op.asid op.va op.cap false fun _ o s => .done (.one (BitVec.ofNat 64 (f o))) s

/-- The step of an operation (R260). -/
def State.setStep (s : State) (op : SetOp) : StepOut :=
  match op.req with
  | .new lo u area cap tag => s.stepNew op lo u area cap tag
  | .free => s.stepFree op
  | .ins els => s.stepLanes op true els
  | .del els => s.stepLanes op false els
  | .has els => s.stepHas op els
  | .card => s.stepHeader op SetObj.n
  | .alg _ => s.stepAlg op
  | .clr => s.stepClr op
  | .enum c lanes => s.stepEnum op c lanes
  | .info f => s.stepHeader op fun o => nth 0 (o.header op.home) f
  | .pin m => s.stepPin op m

/-- A query (R261). -/
def SetReq.isQuery : SetReq → Bool
  | .has _ | .card | .enum _ _ | .info _ => true
  | _ => false

/-! ### The home's order (R115, R260 to R263) -/

/-- Sources with another home that have not been read. -/
def SetOp.unread (op : SetOp) : List (Nat × SetSrc) :=
  ((upto 0 op.srcs.length).zip op.srcs).filter fun x => x.2.home != op.home && op.reads.all fun r => r.ix != x.1
/-- The headers that an operation has still to use. -/
def SetOp.touches (op : SetOp) : List Nat :=
  op.va :: (op.srcs.filter fun x => x.home == op.home).map SetSrc.va ++ op.unread.map fun x => x.2.va

/-- One operation has its place in its home's order before another (R260 to R263). -/
def SetOp.placedBefore (o op : SetOp) : Bool :=
  match o.place, op.place with
  | some n, some m => decide (n < m)
  | some _, none => true
  | none, _ => false
/-- The homes that an operation has still to reach. -/
def SetOp.homes (op : SetOp) : List Nat := op.home :: op.unread.map fun x => x.2.home
/-- An operation that has no place yet comes after an earlier operation of its own team: at each home that it reaches, after a change there, after
a query that has no place there yet, and after a read that is still to be made there; and after any use of a set that it uses itself
(R115, R261, R262, R272). -/
def SetOp.after (op o : SetOp) : Bool :=
  op.place.isNone && o.asid == op.asid && o.core == op.core && o.team == op.team && decide (o.seq < op.seq)
    && ((op.homes.contains o.home && (o.place.isNone || !o.req.isQuery)) || (o.unread.any fun x => op.homes.contains x.2.home)
      || o.touches.any fun v => op.touches.contains v)
/-- Is the use of some headers by an operation behind another one? Behind those of its own team. Behind one placed before it that waits for a page or a body: any
use of that set (R263). For a change, behind every change of its home placed before it: they run one at a time in the order in which they reach the home
(R260). A query of another team takes its place before a change in progress (R261). [log 31: DEDUCED] -/
def setBehind (op : SetOp) (uses : List Nat) (o : SetOp) : Bool :=
  o.seq != op.seq
    && (op.after o
      || (o.placedBefore op && ((o.asid == op.asid && o.held.any fun h => uses.contains h)
        || (!op.req.isQuery && !o.req.isQuery && o.home == op.home))))
def State.setBlocked (s : State) (op : SetOp) (uses : List Nat) : Bool :=
  s.clusters.any fun c => c.2.setq.any (setBehind op uses)

/-- Change an operation in its home's queue. -/
def State.modSetOp (s : State) (op : SetOp) (f : SetOp → SetOp) : State :=
  s.modCluster op.home fun c => { c with setq := c.setq.map fun o => if o.seq = op.seq then f o else o }
/-- An operation leaves its home's queue. -/
def State.dropSetOp (s : State) (op : SetOp) : State :=
  s.modCluster op.home fun c => { c with setq := c.setq.filter fun o => o.seq != op.seq }

/-- An operation takes its place in its home's order (R260, R262); `held` is the header of the set that holds it. -/
def State.placeSetOp (s : State) (op : SetOp) (held : Option Nat) : State :=
  let (n, s) := s.nextSeq
  s.modSetOp op fun o => { o with place := some (o.place.getD n), held := held <|> o.held }
/-- A non-resident page holds a step in its place: one request record for the page (R219, R263). -/
def State.holdSetOp (s : State) (op : SetOp) (set va : Nat) (wr : Bool) (home : Nat) : State :=
  ((s.postPage op.vi 2 wr va op.asid home 0).placeSetOp op (some set)).modSetOp op fun o =>
    { o with posted := o.posted ++ [va / 65536] }
/-- A body that must come back holds a step in its place (R256). -/
def State.holdStore (s : State) (op : SetOp) (home set need : Nat) : State :=
  (s.modCluster home fun c => { c with storeNeed := need }).placeSetOp op (some set)

/-- A step fails (R386, R397 to R399): the entry of kind 10, the halt request, and SETCNT falls. -/
def State.failSet (s : State) (op : SetOp) (code reason addr cap : Nat) : State :=
  let p := (s.team op.core op.team).bind fun tm => tm.pendOf op.seq
  let trappc := (p.map fun p => (p.halt 0 0 none).pc).getD 0
  let s := s.postFault op.vi 10 code (sourceOf 3 op.home) op.team [op.va, reason, op.func, trappc, 0, 0] none none none
  let s := s.dropSetOp op
  match p with
  | none => s
  | some p =>
    let s := s.modTeam op.core op.team fun tm => tm.endPend p
    s.requestHalt op.core op.team (p.halt code reason (if code = 0x31 then none else some (faultWord addr false cap)))

/-- The operations of a team that SETCNT still counts and that were issued before one (R52). -/
def Team.setsBefore (tm : Team) (seq : Nat) : Bool :=
  tm.pend.any fun p => decide (p.seq < seq) && match p.kind with | .set counted _ _ => counted | _ => false
/-- A step is complete (R260, R264): it is accepted; SETCNT falls unless it is a query, whose result must return first, or an earlier
operation of the team is still counted (R52). [log 57: DEDUCED] -/
def State.acceptSet (s : State) (op : SetOp) (res : SetRes) : State :=
  let s := s.dropSetOp op
  s.modTeam op.core op.team fun tm =>
    match tm.pendOf op.seq with
    | none => tm
    | some p =>
      match p.kind with
      | .set counted dst _ =>
        if op.req.isQuery || tm.setsBefore op.seq then tm.modPend op.seq fun p => { p with kind := .set counted dst (some res) }
        else match dst with
          | none => tm.endPend p
          | some _ => (tm.modPend op.seq fun p => { p with kind := .set false dst (some res) }).subCount .set
      | _ => tm

/-- One read of a foreign source (R262): a query in the source home's order. The step has taken its place before. -/
def State.readSource (s : State) (op : SetOp) (j : Nat) (x : SetSrc) : State :=
  let s := s.placeSetOp op none
  let note := fun (s : State) (r : SetRead) => s.modSetOp op fun o => { o with reads := o.reads ++ [r], held := none }
  let out := s.findSet x.home op.asid x.va x.cap false fun pa o s =>
    s.readBody x.home op.asid x.va x.cap pa o false fun s =>
      .done .accepted (note s { ix := j, fail := none, members := o.members, rep := o.rep, lo := o.lo, u := o.u })
  match out with
  | .done _ s => s
  | .wait set va wr s => s.holdSetOp op set va wr x.home
  | .fail code reason addr _ s =>
    note s { ix := j, fail := some (code, reason, addr), members := [], rep := 0, lo := 0, u := 0 }
  | .hold home va need s => s.holdStore op home va need
  | .busy s => s

/-- `SET_HOME_STEP`: operation k of a home's queue takes its place: a read of one of its foreign sources, or its step
(R260 to R263). A step that waits for a page goes on when `PAGE_READY` covers it (R263). Which of two foreign sources is read first is open
(R262). -/
def execSetHomeStep (home k : Nat) (source : Bool) (s : State) : Res :=
  match (s.cluster home).setq[k]? with
  | none => .next s
  | some op =>
    if !op.posted.isEmpty then .next s
    else if source then
      match op.unread with
      | [] => .next s
      | x :: rest =>
        let (b, s) := s.freeBit
        let (j, y) := match rest with
          | z :: _ => if b then z else x
          | [] => x
        if s.setBlocked op [op.va, y.va] then .next s else .next (s.readSource op j y)
    else if !op.unread.isEmpty || s.setBlocked op op.touches then .next s
    else match s.setStep op with
      | .busy s => .next s
      | .hold home va need s => .next (s.holdStore op home va need)
      | .wait set va wr s => .next (s.holdSetOp op set va wr op.home)
      | .fail code reason addr cap s => .next (s.failSet op code reason addr cap)
      | .done res s => .next (s.acceptSet op res)

/-- Write a set result to its register (R268, R269). -/
def Team.landSet (tm : Team) (p : Pend) (dst : RegRef) (res : SetRes) : Team :=
  match dst, res with
  | .p r, .preds xs => tm.landP p r xs
  | .v r, .vals xs => tm.landV p r xs
  | .s r, .one w => tm.landS p r w
  | .c r, .cap c t => tm.landC p r (c, t)
  | _, _ => tm

/-- `SET_RESULT_RETURN`: the result of a team's oldest set operation is written once it has come back, and SETCNT falls where it still
counts it (R52, R264). [log 57: DEDUCED] -/
def execSetResultReturn (core team : Nat) (s : State) : Res :=
  match s.team core team with
  | none => .next s
  | some tm =>
    let ready := tm.pend.find? fun p => match p.kind with
      | .set _ _ _ => true
      | _ => false
    match ready with
    | none => .next s
    | some p =>
      match p.kind with
      | .set counted dst (some res) =>
        .next (s.modTeam core team fun tm =>
          let tm := match dst with
            | some d => tm.landSet p d res
            | none => tm
          if counted then tm.endPend p else tm.dropPend p.seq)
      | _ => .next s

/-- `SET_BODY_MOVE`: the home moves a near body to its backing area, when its store lacks the room that a held step needs, or back, when there is
room (R106, R256); poison in the backing area breaks the set (R399). A body that has to leave for a page that is not resident requests the page, once,
and waits for it (R219, R263); no other agent may own the lines. [log 31: DEDUCED] -/
def execSetBodyMove (home hdr : Nat) (s : State) : Res :=
  match s.setAt home hdr with
  | none => .next s
  | some o =>
    let need := (s.cluster home).storeNeed
    let out := o.inStore && need != 0 && !s.storeFits home none need
    if isFar o.bytes || !(out || (!o.inStore && s.storeFits home (some hdr) o.bytes)) then .next s
    else match s.homeRange home o.asid o.inStore (o.hdrVa + 64) o.bytes with
      | (.ok xs, s) =>
        let put := fun (s : State) (o : SetObj) (need : Nat) =>
          s.modCluster home fun c => { c with sets := AMap.put c.sets hdr o, storeNeed := need }
        if s.piecesOwned xs then .next s
        else if out then .next (put (s.scramble xs) { o with inStore := false } need)
        else if !xs.all fun x => s.mayFill x.1 x.2 then .next (xs.foldl (fun s x => s.ask (Config.cores + home) x.1 x.2) s)
        else .next (put (xs.foldl (fun s x => s.l2Fill x.1 x.2) s)
          { o with inStore := true, broken := o.broken || xs.any fun x => s.poisonedAt (.pa x.1) x.2 } 0)
      | (.absent va, s) =>
        if !out || o.asked = some (va / 65536) then .next s
        else .next ((s.postPage (o.asid / 16) 2 true va o.asid home 0).modCluster home fun c =>
          { c with sets := AMap.put c.sets hdr { o with asked := some (va / 65536) } })
      | (.busy, s) => .next s
      | _ => .next s

end Sys2Proof.Machine
end

