-- ==== Sys2Proof/Machine/BankEvents.lean ====
section
/-!
DEFINITION. Sys2Proof/Machine/BankEvents.lean: the channel controllers: commands arrive, runs start, activate rows, execute words,
release rows, suspend for ordinary accesses and end (R113, R300, R305 to R318, R404 to R409, R420).
-/

namespace Sys2Proof.Machine

/-! ### Commands arrive and complete (R420) -/

/-- The run to which a `b.step` goes (R315): the team's oldest one that claims, or will claim, a unit. -/
def Channel.stepRun (c : Channel) (core team unit : Nat) : Option BankCmd :=
  let mine : BankCmd → Bool := fun q => q.core == core && q.team == team && bit q.units unit && q.run?.isSome
  match c.runs.find? fun r => mine r.cmd && !r.ended with
  | some r => some r.cmd
  | none => c.queue.find? mine

/-- The word of `b.stat` (R318). SWAP is that of the channel for a unit that has run nothing too, and CMDS stands at 65,535 when more steps than
that are outstanding. [log 67: DESIGN CHOICE] -/
def Channel.statWord (c : Channel) (core team unit : Nat) : Word :=
  let u := c.unit unit
  let run := c.runs.find? fun r => bit r.cmd.units unit
  let swap := decide (c.activeBank ≠ c.shadow)
  let cl := run.isSome
  let mine := match run with | some r => r.cmd.core == core && r.cmd.team == team | none => false
  let susp := match run with | some r => r.suspended | none => false
  let step := match run with | some r => (r.cmd.run?.map RunArgs.step).getD false | none => false
  let cmds := match run with
    | some r => (c.steps.filter fun x => x.run == r.cmd.seq).foldl (fun n x => n + x.left) 0
    | none => 0
  BitVec.ofNat 64 (b01 cl + b01 mine * 2 + b01 susp * 4 + b01 step * 8 + b01 swap * 16 + u.upc % 256 * 2 ^ 5
    + u.lc % 64 * 2 ^ 13 + u.rowoff % 65536 * 2 ^ 19 + min cmds 65535 * 2 ^ 35)

/-- The rows with column writes that runs of a channel hold. -/
def Channel.writtenRows (c : Channel) : List (Nat × Nat) :=
  (c.runs.filter fun r => r.active && r.wrote).map fun r => (r.cmd.seq, r.row)

/-- A command of a channel's queues starts now: it heads them, none of its units is claimed, and no swap keeps a run
waiting (R300, R305). -/
def Channel.starting (c : Channel) : Bool :=
  ((upto 0 c.queue.length).zip c.queue).any fun x =>
    c.heads x.1 x.2 && !c.claims x.2.units && (x.2.run?.isNone || decide (c.activeBank = c.shadow))

/-- `BANK_COMMAND_ARRIVE`: the oldest command of a team reaches its controller (R300, R305, R315, R316, R318, R420). What
starts when it heads its queues has started before the next command arrives. -/
def execBankCommandArrive (core team : Nat) (s : State) : Res :=
  match s.team core team with
  | none => .next s
  | some tm =>
    match tm.cmds with
    | [] => .next s
    | q :: rest =>
      if (s.channel q.ch).starting then .next s
      else
      let s := s.modTeam core team fun tm => { tm with cmds := rest }
      let done := fun (s : State) (res : List (Nat × Word)) => s.bankDone core team q.seq res
      match q.req with
      | .ucld xs =>
        .next (done (s.modChannel q.ch fun c => { c with shadow := xs.foldl (fun m x => AMap.set 0 m x.1 x.2) c.shadow }) [])
      | .step n =>
        let unit := (lowest 16 0 q.units).getD 0
        match (s.channel q.ch).stepRun core team unit with
        | none => .next (done s [])
        | some r =>
          if (r.run?.map RunArgs.step).getD false then
            .next (s.modChannel q.ch fun c => { c with steps := c.steps ++ [{ seq := q.seq, core, team, run := r.seq, left := n }] })
          else .next (done s [])
      | .stat =>
        let unit := (lowest 16 0 q.units).getD 0
        .next (done s [(0, (s.channel q.ch).statWord core team unit)])
      | .fence =>
        let rows := (s.channel q.ch).writtenRows
        if rows.isEmpty then .next (done s [])
        else .next (s.modChannel q.ch fun c => { c with fences := c.fences ++ [{ seq := q.seq, core, team, rows }] })
      | _ => .next (s.modChannel q.ch fun c => { c with queue := c.queue ++ [q] })

/-- The bank instruction of a team whose completion comes next: its oldest outstanding one, once that has completed at its controller (R52,
R316). [log 57: DEDUCED] -/
def readyBank (ps : List Pend) : Option Pend :=
  match ps.find? fun p => match p.kind with | .bank _ _ _ => true | _ => false with
  | some p => match p.kind with
    | .bank _ _ (some _) => some p
    | _ => none
  | none => none

/-- `BANK_COMMAND_COMPLETE`: a completion or a result reaches the team: it is written, and BANKCNT falls (R52, R420). [log 57: DEDUCED] -/
def execBankCommandComplete (core team : Nat) (s : State) : Res :=
  match s.team core team with
  | none => .next s
  | some tm =>
    match readyBank tm.pend with
    | none => .next s
    | some p =>
      match p.kind with
      | .bank _ dst (some res) =>
        .next (s.modTeam core team fun tm =>
          (match dst, res with
            | some (.v r), xs => tm.landV p r xs
            | some (.s r), (_, w) :: _ => tm.landS p r w
            | _, _ => tm).endPend p)
      | _ => .next s

/-! ### The store and the start of runs (R300, R305, R317, R404, R405) -/

/-- `MICROPROGRAM_SWAP`: while no unit is claimed and the banks differ, the shadow bank becomes active (R300). -/
def execMicroprogramSwap (ch : Nat) (s : State) : Res :=
  let c := s.channel ch
  if c.runs.isEmpty && decide (c.activeBank ≠ c.shadow) then .next (s.modChannel ch fun c => { c with activeBank := c.shadow })
  else .next s

/-- The steps of a run that has ended are discarded and complete (R315). -/
def State.dropSteps (s : State) (ch run : Nat) : State :=
  let mine := (s.channel ch).steps.filter fun x => x.run == run
  let s := s.modChannel ch fun c => { c with steps := c.steps.filter fun x => x.run != run }
  mine.foldl (fun s x => s.bankDone x.core x.team x.seq []) s

/-- A run that fails has no effect: the entry of kind 13 and the halt request (R386, R405). [log 35: DEDUCED] -/
def State.failRun (s : State) (ch : Nat) (q : BankCmd) (pc reason : Nat) : State :=
  let w := AMap.get 0 (s.channel ch).activeBank pc
  let s := (s.dropSteps ch q.seq).bankDone q.core q.team q.seq []
  let s := s.postFault q.vi 13 0x38 (sourceOf 4 ch) q.team [q.word.toNat, pc + reason * 2 ^ 8, w.toNat, q.sb.toNat, 0, 0]
    none none none
  match (s.team q.core q.team).bind fun tm => tm.pendOf q.seq with
  | some p => s.requestHalt q.core q.team { p.halt 0x38 (pc + reason * 2 ^ 8) none with stack := true }
  | none => s

/-- A run claims its units (R305). -/
def State.startBankRun (s : State) (ch : Nat) (q : BankCmd) (a : RunArgs) : State :=
  s.modChannel ch fun c =>
    let c := (unitsOf q.units).foldl (fun (c : Channel) n =>
      let u := c.unit n
      let u := { u with f := 0, hl := 0, lc := 0, upc := a.entry, rowoff := a.row0, pf := false, phl := false }
      c.setUnit n (if a.keep then u else { u with ba := [], pba := [] })) c
    { c with runs := c.runs ++ [{ cmd := q, row := a.row0, active := false, rowEnd := false, last := false, ended := false,
                                  atPoint := false, suspended := false, free := !a.step, wrote := false }] }

/-- Doubleword j of a 256-bit register. -/
def accDw (x : BitVec 256) (j : Nat) : Word := BitVec.ofNat 64 (bits x.toNat (64 * j) 64)
def accPut (x : BitVec 256) (j : Nat) (w : Word) : BitVec 256 :=
  BitVec.ofNat 256 (x.toNat - bits x.toNat (64 * j) 64 * 2 ^ (64 * j) + w.toNat * 2 ^ (64 * j))

/-- `b.acc.rd` at its units (R317, R409). -/
def State.accRead (s : State) (ch : Nat) (q : BankCmd) (acc : Nat) (lanes : List Nat) : State :=
  let us := unitsOf q.units
  let c := s.channel ch
  let val : Nat → Word := fun l => match us[l / 4]? with
    | some n => accDw ((c.unit n).acc acc) (l % 4)
    | none => 0
  if lanes.any fun l => match us[l / 4]? with | some n => (c.unit n).marked acc | none => false then
    let s := s.bankDone q.core q.team q.seq []
    match (s.team q.core q.team).bind fun tm => tm.pendOf q.seq with
    | some p => s.requestHalt q.core q.team { p.halt 0x19 0 (some (faultWord 0 false 0)) with stack := true }
    | none => s
  else s.bankDone q.core q.team q.seq (lanes.map fun l => (l, val l))

/-- `b.acc.wr` at its units: a mark clears when all four doublewords are written (R317, R409). -/
def State.accWrite (s : State) (ch : Nat) (q : BankCmd) (acc : Nat) (vals : List (Nat × Word)) : State :=
  let us := unitsOf q.units
  let s := s.modChannel ch fun c =>
    let c := vals.foldl (fun (c : Channel) x => match us[x.1 / 4]? with
      | some n => c.setUnit n ((c.unit n).setAcc acc (accPut ((c.unit n).acc acc) (x.1 % 4) x.2))
      | none => c) c
    ((upto 0 us.length).zip us).foldl (fun (c : Channel) x =>
      if (upto (4 * x.1) 4).all fun l => vals.any fun y => y.1 == l then c.setUnit x.2 ((c.unit x.2).mark acc false) else c) c
  s.bankDone q.core q.team q.seq []

/-- `RUN_START`: the command at index i of a channel heads the queues of its units, none of which is claimed: a run is
checked and claims its units, or fails; a `b.acc` takes place (R305, R317, R404, R405). A run waits for a pending swap
(R300). -/
def execRunStart (ch i : Nat) (s : State) : Res :=
  let c := s.channel ch
  match c.queue[i]? with
  | none => .next s
  | some q =>
    if !c.heads i q || c.claims q.units then .next s
    else
      let gone := s.modChannel ch fun c => { c with queue := c.queue.filter fun x => x.seq != q.seq }
      match q.req with
      | .run _ _ _ _ _ _ _ _ =>
        if c.activeBank ≠ c.shadow then .next s
        else match q.run? with
          | none => .next s
          | some a => match runFault c.activeBank a.entry with
            | some (pc, reason) => .next (gone.failRun ch q pc reason)
            | none => .next (gone.startBankRun ch q a)
      | .accRd acc lanes => .next (gone.accRead ch q acc lanes)
      | .accWr acc vals => .next (gone.accWrite ch q acc vals)
      | _ => .next s

/-! ### Rows and words (R305 to R307) -/

/-- Change a run of a channel. -/
def State.modRun (s : State) (ch seq : Nat) (f : Run → Run) : State :=
  s.modChannel ch fun c => { c with runs := c.runs.map fun r => if r.cmd.seq = seq then f r else r }

/-- The 256-byte lines of the rows that the units of a run activate (R294, R305). -/
def Run.lines (ch : Nat) (r : Run) : List Nat :=
  (unitsOf r.cmd.units).flatMap fun n => (upto (2 * n) 2).flatMap fun b =>
    upto (colPa ch (r.cmd.rowBase + r.row) b 0 / 256) 4
/-- Another agent owns a line of the rows that a run is to activate (R113). -/
def State.rowTaken (s : State) (ch : Nat) (r : Run) : Bool :=
  (s.engineLines.any fun l => ({ r with active := true } : Run).owns ch (l * 256))
    || (r.lines ch).any fun l => s.matrixOwned (.pa (256 * l))
/-- The sectors that a core has still to read: for its teams' loads, atomics, walks, queue claims and fetches, and for its stream's. -/
def State.coreReads (s : State) (k : Nat) : List Nat :=
  let at_ := fun (l : Loc) (n : Nat) => match l with
    | .pa a => sectorsOf a n
    | .sp _ _ => []
  let code := fun (tlb : List TlbEntry) (asid pc : Nat) => [pc, pc + 8].filterMap fun a => (tlbHit s tlb asid (a % 2 ^ 57)).map fun e => e.pa (a % 2 ^ 57) / 32
  match s.block k with
  | none => []
  | some b =>
    (b.teams.flatMap fun x =>
      (x.2.pend.flatMap fun p => match p.kind with
        | .load lanes n _ _ _ _ _ _ none => lanes.flatMap fun a => if a.absent then [] else at_ a.loc n
        | _ => [])
      ++ (x.2.claim.toList.flatMap fun c => sectorsOf c.pa 32)
      ++ x.2.frags.flatMap fun f => code (s.teamTlb k x.2) b.asid f.pc)
    ++ ((s.core k).path.flatMap fun r => if r.atom.isSome then at_ r.loc r.bytes.length else [])
    ++ ((s.core k).walks.flatMap fun w => (s.tables w.asid w.va).map fun a => a / 32)
    ++ (b.seq.elim [] fun q => code (s.core k).tlb b.asid q.mpc)
/-- What the engines of a slice have still to read: a space, an address and a length. -/
def State.engineReads (s : State) (slice : Nat) : List (Nat × Nat × Nat) :=
  let moves := fun (asid : Nat) (ms : List Move) => ms.flatMap fun m => (asid, m.dst, m.n) :: m.src.toList.map fun a => (asid, a, m.n)
  (s.slots.flatMap fun x =>
    let q := x.2
    if q.engine != slice || q.wait.isSome then []
    else (q.asid, q.slotbase + 64 * (q.ridx % 2 ^ q.logslots), 64)
      :: (q.launches.flatMap fun l => if l.wait.isSome then [] else [(q.asid, lpWaddr l.pkt, 8), (q.asid, lpDaddr l.pkt, 8)])
      ++ q.started.toList.flatMap fun st =>
        if st.wait.isSome then []
        else moves q.asid st.moves ++ (pkWord st.pkt).toList.map (fun a => (q.asid, a, 8))
          ++ if st.expanded then [] else [(q.asid, pkIdx st.pkt, 4 * pkCount st.pkt)])
  ++ (s.inbound.flatMap fun x => if x.engine != slice || x.wait.isSome then [] else (x.asid, pkDst x.pkt, 8) :: moves x.asid x.moves)
  ++ (s.cores.flatMap fun x => match x.2.block with
    | none => []
    | some b => if clusterOf x.1 != slice then [] else (b.seq.elim [] fun q =>
        ((q.running.toList ++ q.accepted.toList).flatMap fun m =>
          if !m.missing.isEmpty then []
          else (upto m.rows (m.ta.rows - m.rows)).flatMap (m.ta.spans m.ty m.ta.cols) ++ (upto 0 m.tb.rows).flatMap (m.tb.spans m.ty m.ta.cols))
        ++ q.xfers.flatMap fun t => if t.posted.isEmpty then [t.span t.row] else []).map fun y => (b.asid, y.1, y.2))
  ++ (s.cluster slice).setq.flatMap fun o => if !o.posted.isEmpty then [] else
      (o.va :: o.srcs.map SetSrc.va).map fun va =>
        (o.asid, va, 64 + ((s.clusters.flatMap fun c => c.2.sets).find? fun x => x.2.asid == o.asid && x.2.hdrVa == va).elim 0 fun x => x.2.area)
/-- An agent has still to read a sector that its channel has read for it. -/
def State.wants (s : State) (agent u : Nat) : Bool :=
  if agent < Config.cores then (s.coreReads agent).contains u
  else (s.engineReads (agent - Config.cores)).any fun x => (pieces x.2.1 x.2.2).any fun p =>
    ((s.tables x.1 (p.1 % 2 ^ 57)).any fun a => a / 32 == u)
    || match s.walk x.1 (p.1 % 2 ^ 57) with
      | .leaf l fr _ _ _ => (sectorsOf (fr + p.1 % 2 ^ pageBits l) p.2).contains u
      | _ => false

/-- Dirty sectors of the rows are written back, a poisoned one with its entry (R371), and no home slice or controller holds a copy any more
(R307, R321). -/
def State.takeRows (s : State) (ch : Nat) (r : Run) : State :=
  let s := (r.lines ch).foldl (fun s l => (upto (8 * l) 8).foldl (fun s u =>
    if s.l2Dirty (32 * u) && s.mem.poison.contains u then s.poisonEntry none (some (32 * u)) 1 else s) s) s
  let s := (r.lines ch).foldl (fun s l => s.modCluster (homeSlice (256 * l)) fun c =>
    { c with l2 := AMap.erase c.l2 l, wb := AMap.erase c.wb l }) s
  s.modChannel ch fun c => { c with access := c.access.filter fun x => !(r.lines ch).contains (x.2 / 8) }

/-- `ROW_ACTIVATE`: run i activates its next row in both banks of its units and takes ownership (R113, R305, R307, R321): its home slices
write back and give up what they hold of it. A run whose rows another agent owns stands at its arbitration point; and the sectors of its rows that
a window has read reach those that wait for them before it (R322). [log 34: DESIGN CHOICE] -/
def execRowActivate (ch i : Nat) (s : State) : Res :=
  let c := s.channel ch
  match c.runs[i]? with
  | none => .next s
  | some r =>
    if r.active || r.ended || r.atPoint || r.suspended || c.window then .next s
    else
      let taken := { r with active := true, rowEnd := false, wrote := false }
      if s.rowTaken ch r then .next (s.modRun ch r.cmd.seq fun r => { r with atPoint := true })
      else if c.access.any fun x => (r.lines ch).contains (x.2 / 8) && s.wants x.1 x.2 then .next s
      else
        let entry := (r.cmd.run?.map RunArgs.entry).getD 0
        let s := (s.takeRows ch r).modRun ch r.cmd.seq fun _ => taken
        .next (s.modChannel ch fun c => (unitsOf r.cmd.units).foldl (fun (c : Channel) n =>
          c.setUnit n { c.unit n with upc := entry, lc := 0, rowoff := r.row }) c)

/-- One step of a run in step mode is used (R306, R315). -/
def State.useStep (s : State) (ch run : Nat) : State :=
  match (s.channel ch).steps.find? fun x => x.run == run with
  | none => s
  | some x =>
    let s := s.modChannel ch fun c => { c with steps := (c.steps.map fun y =>
      if y.seq = x.seq then { y with left := y.left - 1 } else y).filter fun y => y.left != 0 }
    if x.left ≤ 1 then s.bankDone x.core x.team x.seq [] else s

/-- `MICROWORD_EXECUTE`: the units of run i execute one micro-word (R304, R305); in step mode it uses one delivered command,
unless the row runs out at free-run pace (R306, R308, R408). -/
def execMicrowordExecute (ch i : Nat) (s : State) : Res :=
  let c := s.channel ch
  match c.runs[i]? with
  | none => .next s
  | some r =>
    match r.cmd.run?, unitsOf r.cmd.units with
    | some a, n0 :: _ =>
      if !r.active || r.rowEnd then .next s
      else if !r.free && !(c.steps.any fun x => x.run == r.cmd.seq) then .next s
      else
        let s := if r.free then s else s.useStep ch r.cmd.seq
        let w := (AMap.get 0 c.activeBank (c.unit n0).upc).toNat
        let (_, leave, fin) := ctlSlot w a.ln (c.unit n0)
        let s := (unitsOf r.cmd.units).foldl (fun s n => s.wordOn ch (r.cmd.rowBase + r.row) w a.ln a.p0 a.p1 n) s
        .next (s.modRun ch r.cmd.seq fun r =>
          { r with rowEnd := leave, last := fin || decide (a.row0 + a.nr ≤ r.row + 1), wrote := r.wrote || uWop w != 0 })
    | _, _ => .next s

/-- The writes of a row that is released are performed at device scope: fences go on (R316). -/
def State.releaseRow (s : State) (ch run row : Nat) : State :=
  let fs := (s.channel ch).fences.map fun f => { f with rows := f.rows.filter fun x => !(x == (run, row)) }
  let s := s.modChannel ch fun c => { c with fences := fs.filter fun f => !f.rows.isEmpty }
  (fs.filter fun f => f.rows.isEmpty).foldl (fun s f => s.bankDone f.core f.team f.seq []) s

/-- `ROW_PRECHARGE`: run i leaves its row: it is released whole, and the run ends there or stands at its arbitration point
before its next row (R113, R305, R307). -/
def execRowPrecharge (ch i : Nat) (s : State) : Res :=
  match (s.channel ch).runs[i]? with
  | none => .next s
  | some r =>
    if !r.active || !r.rowEnd then .next s
    else
      let s := s.releaseRow ch r.cmd.seq r.row
      if r.last then .next (s.modRun ch r.cmd.seq fun r => { r with active := false, ended := true })
      else
        let a := r.cmd.run?
        let step := (a.map RunArgs.step).getD false
        let halted := match s.team r.cmd.core r.cmd.team with | some tm => tm.halted | none => true
        let s := s.modRun ch r.cmd.seq fun r =>
          { r with active := false, rowEnd := false, atPoint := true, row := r.row + 1, free := !step || (halted && r.free) }
        .next (s.modChannel ch fun c => (unitsOf r.cmd.units).foldl (fun (c : Channel) n =>
          c.setUnit n { c.unit n with upc := (a.map RunArgs.entry).getD 0, rowoff := r.row + 1 }) c)

/-- The write-backs that have waited for a channel are made (R308); a poisoned sector is written back by `POISON_WRITEBACK` (R371). -/
def State.writeBacks (s : State) (ch : Nat) : State :=
  s.clusters.foldl (fun s x => x.2.wb.foldl (fun s l => (upto (8 * l.1) 8).foldl (fun s u =>
    if channelOf (32 * u) == ch && l.2.dirtyAt (u % 8) != 0 && !s.mem.poison.contains u then s.l2Clean (32 * u) else s) s) s) s

/-- `RUN_END`: a run that has left its last row unclaims its units, and the `b.run` completes (R305, R310, R315). With the channel's last run the
ordinary accesses stop waiting (R308). -/
def execRunEnd (ch i : Nat) (s : State) : Res :=
  match (s.channel ch).runs[i]? with
  | none => .next s
  | some r =>
    if !r.ended then .next s
    else
      let s := s.modChannel ch fun c => { c with runs := c.runs.filter fun x => x.cmd.seq != r.cmd.seq }
      let s := if (s.channel ch).runs.isEmpty then
          (s.modChannel ch fun c => { c with order := [], due := 0, access := [] }).writeBacks ch
        else s
      .next ((s.dropSteps ch r.cmd.seq).bankDone r.cmd.core r.cmd.team r.cmd.seq [])

/-! ### Ordinary accesses (R308, R309, R322, R323) -/

/-- The interface of a run's block, for its trace records. -/
def State.traceRun (s : State) (ch : Nat) (r : Run) (resumed : Bool) : State :=
  s.traceRec r.cmd.vi (sourceOf 4 ch) 9
    [ch % 32 + r.cmd.units % 65536 * 2 ^ 5 + r.row % 65536 * 2 ^ 21 + b01 resumed * 2 ^ 37]

/-- `ARBITRATION_POINT`: run i stands at its arbitration point: it suspends when ordinary accesses or a refresh wait, and
otherwise goes on to its next row (R308). The accesses that have arrived by then belong to the window that follows (R322). -/
def execArbitrationPoint (ch i : Nat) (s : State) : Res :=
  let c := s.channel ch
  match c.runs[i]? with
  | none => .next s
  | some r =>
    if !r.atPoint then .next s
    else if c.window || c.refresh || !c.order.isEmpty then
      let s := s.modRun ch r.cmd.seq fun r => { r with atPoint := false, suspended := true }
      let s := if c.window then s else s.modChannel ch fun c => { c with due := c.order.length }
      .next (s.traceRun ch r false)
    else .next (s.modRun ch r.cmd.seq fun r => { r with atPoint := false })

/-- `ARBITRATION_WINDOW_OPEN`: every run of the channel is suspended: a window opens, which holds a refresh that waits
(R308). -/
def execArbitrationWindowOpen (ch : Nat) (s : State) : Res :=
  let c := s.channel ch
  if !c.window && !c.runs.isEmpty && c.runs.all (fun r => r.suspended) then
    .next (s.modChannel ch fun c => { c with window := true, served := 0, refresh := false })
  else .next s

/-- The column commands that stand next in the window: those of one fill, which a home slice makes for one access, are served in one window
(R323). -/
def Channel.fill (c : Channel) : Nat :=
  match c.order with
  | [] => 0
  | x :: _ => ((c.order.take c.due).takeWhile fun y => y.1 == x.1 && y.2.1 == x.2.1 && homeSlice (32 * y.2.2) == homeSlice (32 * x.2.2)).length
/-- An ordinary access of the window is served next: the window has at most 32 column commands, and a fill that would pass them
waits for the next one, but for one of more than 32, which no window holds (R308, R322, R323). [log 34: DESIGN CHOICE] -/
def Channel.serves (c : Channel) : Bool :=
  c.window && decide (0 < c.fill) && (decide (c.served + c.fill ≤ 32) || (decide (32 < c.fill) && decide (c.served < 32)))

/-- `ARBITRATION_WINDOW_CLOSE`: no ordinary access of the window waits, or its column commands are used up: the runs resume (R308). -/
def execArbitrationWindowClose (ch : Nat) (s : State) : Res :=
  let c := s.channel ch
  if c.window && !c.serves then
    let s := c.runs.foldl (fun s r => if r.suspended then s.traceRun ch r true else s) s
    .next (s.modChannel ch fun c =>
      { c with window := false, due := 0, runs := c.runs.map fun r => { r with suspended := false } })
  else .next s

/-- `REFRESH_DUE`: a refresh falls due, at a time that the spec leaves open (R308): it takes place at once when no run is in
progress or a window is open; otherwise it waits, and a step-mode run between arbitration points finishes its row at free-run
pace (R309). -/
def execRefreshDue (ch : Nat) (s : State) : Res :=
  let c := s.channel ch
  if c.runs.isEmpty || c.window then .next s
  else .next (s.modChannel ch fun c =>
    { c with refresh := true, runs := c.runs.map fun r =>
      if r.atPoint || r.suspended || r.ended then r else { r with free := true } })

/-- `BANK_ORDINARY_ACCESS`: the controller serves the ordinary access that arrived first: one column command, which the access needs only where
its home slice does not hold the sector (R308, R322, R323): that of sector k for agent `core`. A write-back writes the sector's bytes, a poisoned
one with its entry (R371). While no unit is claimed an access waits for nothing. [log 34: DESIGN CHOICE] -/
def execBankOrdinaryAccess (ch core k : Nat) (s : State) : Res :=
  let c := s.channel ch
  match c.order with
  | [] => .next s
  | x :: rest =>
    let u := x.2.2
    let back := decide (wbAgent 0 ≤ x.1)
    let idle := if back then !s.l2Dirty (32 * u) else s.l2Holds (32 * u)
    if !c.serves || x.1 != core || u != k then .next s
    else if idle then .next (s.modChannel ch fun c => { c with order := rest, due := c.due - 1 })
    else
      let s := s.modChannel ch fun c => { c with order := rest, due := c.due - 1, served := c.served + 1 }
      if back then
        let s := if s.mem.poison.contains u then s.poisonEntry none (some (32 * u)) 1 else s
        .next (s.l2Clean (32 * u))
      else .next (s.modChannel ch fun c => { c with access := c.access ++ [(x.1, u)] })

/-! ### Parity (R410) -/

/-- `STACK_CORE_PARITY_FAIL`: a stack core leaves service: its teams halt with SCORE, their registers are lost, and each
interface that loses a team gets a kind-11 entry. -/
def execStackCoreParityFail (stack n : Nat) (s : State) : Res :=
  let sc := 4 * (stack % 16) + n % 4
  if (s.stackCore sc).outOfService then .next s
  else
    let mine := s.allTeams.filter fun x => x.2.2.stackCoreOf == some sc
    let vis := mine.foldl (fun l x => match s.block x.1 with | some b => insSorted b.vi l | none => l) []
    let count := fun (vi : Nat) => (mine.filter fun x => match s.block x.1 with | some b => b.vi == vi | none => false).length
    let s := s.modStackCore sc fun q => { q with outOfService := true, tlb := [] }
    let s := mine.foldl (fun s x =>
      let s := s.modTeam x.1 x.2.1 fun tm =>
        { tm with s := [], c := [], v := [], vpoison := [], rpoison := [], p := [], cb := [], fpflags := 0, sigacc := 0, trapvec := 0, bbase := 0,
                  pend := tm.pend.map Pend.lost,
                  lift := match tm.lift with | .rising st k => .up st k 0 | .landing st k => .up st k 0 | l => l }
      match s.team x.1 x.2.1 with
      | none => s
      | some tm =>
        let (r, s) := s.freeReport 0x39 none tm.handler
        s.requestHalt x.1 x.2.1 r) s
    .next (vis.foldl (fun s vi => s.postFault vi 11 0x39 (sourceOf 6 sc) 0 [sc, count vi, 0, 0, 0, 0] none none none) s)

end Sys2Proof.Machine
end

