-- ==== Sys2Proof/Machine/VMem.lean ====
section
/-!
DEFINITION. Sys2Proof/Machine/VMem.lean: scalar and vector loads and stores, atomics and fences (R110 to R112, R162,
R195 to R200, R365, R417).
-/

namespace Sys2Proof.Machine

/-- Bytes of a memory width. -/
def mwN : MWidth → Nat
  | .b8 => 1 | .b16 => 2 | .b32 => 4 | .b64 => 8
/-- Width and extension of `s.ld`. -/
def sldN : SLdW → Nat × Bool
  | .n8 => (1, false) | .n16 => (2, false) | .n32 => (4, false) | .n64 => (8, false)
  | .i8 => (1, true) | .i16 => (2, true) | .i32 => (4, true)

/-- The forms of memory access that a stack core permits (R297). -/
def ordOnStack : MOrd → Bool
  | .plain => true
  | .acq .bank => true
  | .rel .bank => true
  | _ => false

/-- Start a load whose lanes have been located: an acquire invalidates the L1 (R101, R110); a lifted team has none (R296). -/
def Ctx.startLoad (c : Ctx) (la : BitVec 4) (ord : MOrd) (dests : List RegRef) (kind : PendKind) (s : State) : State :=
  let s := if (acqScope ord).isSome && !c.tm.lifted then s.dropL1 c.k else s
  c.pend .mem la.toNat dests kind s

/-- A load: check, locate, start (R162, R196). -/
def Ctx.load (c : Ctx) (s : State) (la : BitVec 4) (ord : MOrd) (x : Access) (sext : Bool) (dst : RegRef) (bcast : List Nat)
    (rp : Option PReg) (lc : Bool) : Act :=
  checked c.tm [x] <|
    let dests := dst :: (match rp with | some p => [.p p.toNat] | none => [])
    let kind := fun lanes => PendKind.load lanes x.n sext dst bcast (acqScope ord) (rp.map BitVec.toNat) lc none
    match rp with
    | some _ =>
      match c.locateRp (c.tm.creg x.cap).1 x.addrs s [] with
      | .bad l va poison s => .wait (c.halts (if poison then 0x19 else 0x15) l (some (faultWord va false x.cap)) s)
      | .wait s => .wait s
      | .ok lanes s =>
        if lanes.all fun a => match a.loc with | .sp _ o => c.b.present o x.n | .pa _ => true then
          match c.inReach s lanes with
          | .wait s => .wait s
          | .ok lanes => .done (c.startLoad la ord dests (kind (c.markHome s x.n lanes)) s)
        else .wait s
    | none =>
      match c.locate s x false with
      | .wait s => .wait s
      | .ok lanes => .done (c.startLoad la ord dests (kind (c.markHome s x.n lanes)) s)

/-- A store: check, locate, enter the store buffer in ascending lane order (R109, R162, R197). -/
def Ctx.store (c : Ctx) (s : State) (ord : MOrd) (x : Access) (data : Nat → Nat) (tag : Bool) : Act :=
  checked c.tm [x] <|
    match c.locate s x true with
    | .wait s => .wait s
    | .ok lanes =>
      let (seq, s) := s.nextSeq
      .done (c.enter (lanes.map fun a =>
        { seq, team := c.t, csn := c.csn, loc := a.loc, bytes := bytesOf x.n (data a.lane), tag, atom := none,
          rel := relScope ord }) s)

/-- `s.ld` (R162). -/
def issueSLd (o : SLd) : Issue :=
  { g := o.g, onStack := ordOnStack o.ord, access := true, reads := [.c o.cap.toNat] ++ refSI o.idx,
    writes := [.s o.d.toNat], counts := some .mem,
    body := fun c _ s =>
      let n := sldN o.w
      c.load s o.la o.ord { cap := o.cap.toNat, perm := permRD, n := n.1, align := n.1, once := true,
                            addrs := c.addr1 o.cap.toNat o.scale (c.srcSI o.idx) o.disp }
        n.2 (.s o.d.toNat) [] none false }
def execSLd (o : SLd) (s : State) : Res := s.issue (issueSLd o)

/-- `s.st` (R162). -/
def issueSSt (o : SSt) : Issue :=
  { g := o.g, onStack := ordOnStack o.ord, access := true, reads := [.s o.d.toNat, .c o.cap.toNat] ++ refSI o.idx,
    body := fun c _ s =>
      let n := mwN o.w
      c.store s o.ord { cap := o.cap.toNat, perm := permWR, n, align := n, once := true,
                        addrs := c.addr1 o.cap.toNat o.scale (c.srcSI o.idx) o.disp }
        (fun _ => (c.tm.sreg o.d.toNat).toNat) false }
def execSSt (o : SSt) (s : State) : Res := s.issue (issueSSt o)

/-- `v.ld` (R196). -/
def issueVLd (o : VLd) : Issue :=
  { g := o.g, perLane := true, vectorOnly := true, onStack := ordOnStack o.ord, access := true,
    reads := [.c o.cap.toNat] ++ refVI o.idx,
    writes := .v o.d.toNat :: (match o.rp with | some p => [.p p.toNat] | none => []), counts := some .mem,
    vregs := (5, o.d.toNat) :: vOfVI 7 o.idx,
    body := fun c E s =>
      let n := mwN o.w
      c.load s o.la o.ord { cap := o.cap.toNat, perm := permRD, n, align := n,
                            addrs := c.addrs o.cap.toNat o.scale (c.srcVI o.idx) o.disp (lanesOf c.tm.L E) }
        false (.v o.d.toNat) [] o.rp false }
def execVLd (o : VLd) (s : State) : Res := s.issue (issueVLd o)

/-- `v.ldb` (R196): one read, at the address of the lowest lane of E. -/
def issueVLdb (o : VLdb) : Issue :=
  { g := o.g, perLane := true, vectorOnly := true, onStack := ordOnStack o.ord, access := true,
    reads := [.c o.cap.toNat] ++ refBI o.idx,
    writes := .v o.d.toNat :: (match o.rp with | some p => [.p p.toNat] | none => []), counts := some .mem,
    vregs := [(5, o.d.toNat)],
    body := fun c E s =>
      let n := mwN o.w
      let ls := lanesOf c.tm.L E
      c.load s o.la o.ord { cap := o.cap.toNat, perm := permRD, n, align := n,
                            addrs := c.addrs o.cap.toNat o.scale (c.srcBI o.idx) o.disp (ls.take 1) }
        false (.v o.d.toNat) ls o.rp false }
def execVLdb (o : VLdb) (s : State) : Res := s.issue (issueVLdb o)

/-- `v.st` (R196, R197). -/
def issueVSt (o : VSt) : Issue :=
  { g := o.g, perLane := true, vectorOnly := true, onStack := ordOnStack o.ord, access := true,
    reads := [.v o.d.toNat, .c o.cap.toNat] ++ refVI o.idx, vregs := (5, o.d.toNat) :: vOfVI 7 o.idx,
    body := fun c E s =>
      let n := mwN o.w
      c.store s o.ord { cap := o.cap.toNat, perm := permWR, n, align := n,
                        addrs := c.addrs o.cap.toNat o.scale (c.srcVI o.idx) o.disp (lanesOf c.tm.L E) }
        (fun l => (c.tm.vreg o.d.toNat l).toNat) false }
def execVSt (o : VSt) (s : State) : Res := s.issue (issueVSt o)

/-! ### Atomics (R198, R199) -/

/-- Bytes of an atomic type. -/
def atN : AType → Nat
  | .i64 | .n64 => 8
  | _ => 4

/-- An atomic: every lane of E enters the store buffer, and the old values return (R198, R199). -/
def atomIssue (o : VAtom) (func : Nat) : Issue :=
  { g := o.g, perLane := true, vectorOnly := true, access := true,
    reads := [.c o.cap.toNat, .v o.data.toNat] ++ (if func = 7 then [.v o.d.toNat] else []) ++ refVI o.idx,
    writes := [.v o.d.toNat], counts := some .mem,
    vregs := (5, o.d.toNat) :: (vOfVI 7 o.idx ++ [(8, o.data.toNat)]),
    body := fun c E s =>
      let n := atN o.ty
      let x : Access := { cap := o.cap.toNat, perm := permRD + permWR + permAT, n, align := n,
                          addrs := c.addrs o.cap.toNat o.scale (c.srcVI o.idx) 0 (lanesOf c.tm.L E) }
      checked c.tm [x] <|
        match c.locate s x true with
        | .wait s => .wait s
        | .ok lanes =>
          let id := s.seqNo
          let acq := acqScope o.ord
          let s := if acq.isSome then s.dropL1 c.k else s
          let s := c.pend .mem o.la.toNat [.v o.d.toNat] (.atom lanes.length acq.isSome false []) s
          .done (c.enter (lanes.map fun a =>
            { seq := id, team := c.t, csn := c.csn, loc := a.loc, bytes := (upto 0 n).map fun _ => 0, tag := false,
              atom := some { func, ty := o.ty, data := bits (c.tm.vreg o.data.toNat a.lane).toNat 0 (8 * n),
                             cmp := bits (c.tm.vreg o.d.toNat a.lane).toNat 0 (8 * n), dest := o.d.toNat, lane := a.lane, addr := a.addr, id },
              rel := relScope o.ord }) s) }
/-- `v.atom.add` -/
def issueVAtomAdd (o : VAtom) : Issue := atomIssue o 0
def execVAtomAdd (o : VAtom) (s : State) : Res := s.issue (issueVAtomAdd o)
/-- `v.atom.min` -/
def issueVAtomMin (o : VAtom) : Issue := atomIssue o 1
def execVAtomMin (o : VAtom) (s : State) : Res := s.issue (issueVAtomMin o)
/-- `v.atom.max` -/
def issueVAtomMax (o : VAtom) : Issue := atomIssue o 2
def execVAtomMax (o : VAtom) (s : State) : Res := s.issue (issueVAtomMax o)
/-- `v.atom.and` -/
def issueVAtomAnd (o : VAtom) : Issue := atomIssue o 3
def execVAtomAnd (o : VAtom) (s : State) : Res := s.issue (issueVAtomAnd o)
/-- `v.atom.or` -/
def issueVAtomOr (o : VAtom) : Issue := atomIssue o 4
def execVAtomOr (o : VAtom) (s : State) : Res := s.issue (issueVAtomOr o)
/-- `v.atom.xor` -/
def issueVAtomXor (o : VAtom) : Issue := atomIssue o 5
def execVAtomXor (o : VAtom) (s : State) : Res := s.issue (issueVAtomXor o)
/-- `v.atom.xchg` -/
def issueVAtomXchg (o : VAtom) : Issue := atomIssue o 6
def execVAtomXchg (o : VAtom) (s : State) : Res := s.issue (issueVAtomXchg o)
/-- `v.atom.cas`: vD holds the comparand. -/
def issueVAtomCas (o : VAtom) : Issue := atomIssue o 7
def execVAtomCas (o : VAtom) (s : State) : Res := s.issue (issueVAtomCas o)
/-- `v.atom.fadd` -/
def issueVAtomFadd (o : VAtom) : Issue := atomIssue o 8
def execVAtomFadd (o : VAtom) (s : State) : Res := s.issue (issueVAtomFadd o)

/-! ### Fences (R112, R200, R365) -/

/-- A fence at a scope: every earlier access of the team before every later one, as a release followed by an acquire with no
address (R112). It parks its fragment until it is performed. [log 25: DEDUCED] -/
def Ctx.fenceAt (c : Ctx) (s : State) (sc : Scope) : Act :=
  let (m, s) := c.mark s
  if s.released c.k c.t m sc (.pa 0) && loadsDone c.tm m then .done (c.acquire sc s) else .park (.poll m) s
/-- Bank scope waits until the controller has accepted the team's own commands to the channel, not until they are done (R112). [log 25: DEDUCED] -/
def bankClear (seq ch : Nat) (tm : Team) : Bool := tm.cmds.all fun q => !(q.ch == ch && decide (q.seq < seq))
/-- Array scope: the subarray is not busy (R112). -/
def arrClear (b : Block) (sub : Nat) : Bool := b.subs.all fun q => q.2.all fun op => !(op.sub == sub || op.sub2 == sub)

/-- Where `fence.bank` finds its channel: it neither parks for a page nor halts (R365). An address without a translation, or in host memory,
names no channel. [log 63: DESIGN CHOICE] -/
def Ctx.fencePlace (c : Ctx) (s : State) (va : Nat) (go : Option Nat → State → Act) : Act :=
  match c.walkNow s va with
  | .pa pa s => go (if isHost pa then none else some pa) s
  | .absent s => go none s
  | .bad _ s => go none s
  | .wait s => if c.f.hold == .none then .wait s else .park c.f.hold s
/-- `fence` (R200): it takes effect when its guard holds in some active lane (log 17). [log 17: DEDUCED] -/
def issueFence (o : Fence) : Issue :=
  match o.f with
  | .at sc =>
    { g := o.g, perLane := true, access := true, body := fun c E s => if E == 0 then .done s else c.fenceAt s sc }
  | .bank cap idx =>
    { g := o.g, perLane := true, onStack := true, access := true, reads := .c cap.toNat :: refSI idx,
      body := fun c E s =>
        let x : Access := { cap := cap.toNat, kinds := [0, 2], perm := 0, n := 1, align := 1, once := true,
                            addrs := c.addr1 cap.toNat 0 (c.srcSI idx) 0 }
        if E == 0 then .done s
        else checked c.tm [x] <|
          c.fencePlace s (addrNat ((x.addrs.map Prod.snd).headD 0) % 2 ^ 57) fun place s => match place with
            | none => c.fenceAt s .dev
            | some pa =>
              let (m, s) := c.mark s
              if s.released c.k c.t m .bank (.pa pa) && bankClear m (channelOf pa) c.tm && loadsDone c.tm m then
                .done (c.acquire .bank s)
              else .park (.poll m) s }
  | .arr cap idx =>
    { g := o.g, perLane := true, access := true, reads := .c cap.toNat :: refSI idx,
      body := fun c E s =>
        let x : Access := { cap := cap.toNat, kinds := [1], perm := 0, n := 1, align := 32768, once := true,
                            addrs := c.addr1 cap.toNat 0 (c.srcSI idx) 0 }
        if E == 0 then .done s
        else checked c.tm [x] <|
          match x.addrs with
          | (_, a) :: _ =>
            let off := addrNat a % Config.spBytes
            let (m, s) := c.mark s
            if s.released c.k c.t m .arr (.sp c.k off) && arrClear c.b (off / 32768) && loadsDone c.tm m then
              .done (c.acquire .arr s)
            else .park (.poll m) s
          | [] => .done s }
def execFence (o : Fence) (s : State) : Res := s.issue (issueFence o)

end Sys2Proof.Machine
end

