-- ==== Sys2Proof/Machine/CapOps.lean ====
section
/-!
DEFINITION. Sys2Proof/Machine/CapOps.lean: capability instructions (R93 to R95, R201 to R203, R365).
-/

namespace Sys2Proof.Machine

/-- A form that acts once and writes a capability register. -/
def capIssue (g : Guard) (d : CReg) (reads : List RegRef) (body : Ctx → State → Act) : Issue :=
  { g, reads, writes := [.c d.toNat], body := fun c _ s => body c s }

/-- `c.narrow`: [BASE + sB, + sC) of kinds 0, 1, 2 and 5; permissions, KIND, KSPEC and the tag are kept, reserved
bits of the source are not. [log 56: DEDUCED] [log 59: DESIGN CHOICE] -/
def issueCNarrow (o : CNarrow) : Issue :=
  capIssue o.g o.d [.c o.a.toNat, .s o.b.toNat, .s o.c.toNat] fun c s =>
    let (cap, tag) := c.tm.creg o.a.toNat
    let off := (c.tm.sreg o.b.toNat).toNat
    let len := (c.tm.sreg o.c.toNat).toNat
    let fs := faultWord ((capBase cap + off) % 2 ^ 64) (capKind cap == 1) o.a.toNat
    if !([0, 1, 2, 5].contains (capKind cap)) then .trap 0x11 6 0 (some fs)
    else if capLen cap < off + len then .trap 0x13 6 0 (some fs)
    else .done (c.setCap o.d (mkCap (capBase cap + off) len (capPerm cap) (capKind cap) (capKspec cap), tag) s)
def execCNarrow (o : CNarrow) (s : State) : Res := s.issue (issueCNarrow o)

/-- `c.perm`: permissions are masked, reserved bits of the source are not kept; OPERAND when sB has a bit above 5. [log 59: DESIGN CHOICE] -/
def issueCPerm (o : CPerm) : Issue :=
  capIssue o.g o.d [.c o.a.toNat, .s o.b.toNat] fun c s =>
    let (cap, tag) := c.tm.creg o.a.toNat
    let m := (c.tm.sreg o.b.toNat).toNat
    if 64 ≤ m then .trap 0x06 7 0 none
    else .done (c.setCap o.d (mkCap (capBase cap) (capLen cap) (capPerm cap &&& m) (capKind cap) (capKspec cap), tag) s)
def execCPerm (o : CPerm) (s : State) : Res := s.issue (issueCPerm o)

/-- The field f of a capability that `c.get` reads (R201). -/
def capField (f : Nat) (cap : Cap) : Nat :=
  match f with
  | 0 => capBase cap
  | 1 => capLen cap
  | 2 => capPerm cap
  | 3 => capKind cap
  | 4 => capKspec cap
  | 5 => bits cap.toNat 0 64
  | _ => bits cap.toNat 64 64
/-- `c.get` -/
def issueCGet (o : CGet) : Issue :=
  { g := o.g, reads := [.c o.a.toNat], writes := [.s o.d.toNat],
    body := fun c _ s => .done (c.setSc o.d (BitVec.ofNat 64 (capField o.f.toNat (c.tm.creg o.a.toNat).1)) s) }
def execCGet (o : CGet) (s : State) : Res := s.issue (issueCGet o)
/-- `c.tag` -/
def issueCTag (o : CTag) : Issue :=
  { g := o.g, reads := [.c o.a.toNat], writes := [.s o.d.toNat],
    body := fun c _ s => .done (c.setSc o.d (w01 (c.tm.creg o.a.toNat).2) s) }
def execCTag (o : CTag) (s : State) : Res := s.issue (issueCTag o)
/-- `c.mov` -/
def issueCMov (o : CMov) : Issue := capIssue o.g o.d [.c o.a.toNat] fun c s => .done (c.setCap o.d (c.tm.creg o.a.toNat) s)
def execCMov (o : CMov) (s : State) : Res := s.issue (issueCMov o)
/-- `c.mk`: a tagged capability from two scalars, only in launches of privileged queues (R203). -/
def issueCMk (o : CMk) : Issue :=
  { capIssue o.g o.d [.s o.a.toNat, .s o.b.toNat] (fun c s =>
      .done (c.setCap o.d ((c.tm.sreg o.b.toNat ++ c.tm.sreg o.a.toNat : BitVec 128), true) s)) with privOnly := true }
def execCMk (o : CMk) (s : State) : Res := s.issue (issueCMk o)

/-- The address of `c.ld` and `c.st`. [log 56: DEDUCED] -/
def capAccess (c : Ctx) (o : CMem) (perm : Nat) : Access :=
  { cap := o.cap.toNat, perm, n := 16, align := 16, once := true,
    addrs := c.addr1 o.cap.toNat o.scale (c.srcSI o.idx) o.disp }
/-- `c.ld` (R202): the granule's tag returns only through LC. -/
def issueCLd (o : CMem) : Issue :=
  { g := o.g, access := true, reads := .c o.cap.toNat :: refSI o.idx, writes := [.c o.d.toNat], counts := some .mem,
    body := fun c _ s =>
      c.load s o.la o.ord (capAccess c o permRD) false (.c o.d.toNat) [] none
        (permOk (capPerm (c.tm.creg o.cap.toNat).1) permLC) }
def execCLd (o : CMem) (s : State) : Res := s.issue (issueCLd o)
/-- `c.st` (R202): the granule's tag is set only for a tagged register through SC. -/
def issueCSt (o : CMem) : Issue :=
  { g := o.g, access := true, reads := [.c o.d.toNat, .c o.cap.toNat] ++ refSI o.idx,
    body := fun c _ s =>
      c.store s o.ord (capAccess c o permWR) (fun _ => (c.tm.creg o.d.toNat).1.toNat)
        ((c.tm.creg o.d.toNat).2 && permOk (capPerm (c.tm.creg o.cap.toNat).1) permSC) }
def execCSt (o : CMem) (s : State) : Res := s.issue (issueCSt o)

end Sys2Proof.Machine
end

