-- ==== Sys2Proof/Machine/Control.lean ====
section
/-!
DEFINITION. Sys2Proof/Machine/Control.lean: branches, splits, loops, calls, `exit`, `yield`, `safept`, `waitcnt`, `nop`
(R39, R43, R44, R52, R59, R163 to R165).
-/

namespace Sys2Proof.Machine

/-- The address that a word offset names from the branch (R136), modulo 2^57 (log 58). [log 58: DESIGN CHOICE] -/
def Ctx.branchTo (c : Ctx) (off : BitVec 18) : Nat := (((c.f.pc : Int) + 8 * off.toInt) % (2 : Int) ^ 57).toNat
/-- An address that a register may name as a target: 8-byte aligned, bits [63:57] zero (R164). -/
def targetOk (w : Word) : Bool := decide (w.toNat % 8 = 0) && decide (w.toNat < 2 ^ 57)

/-- A control form that acts once. -/
def ctrlIssue (g : Guard) (reads writes : List RegRef) (body : Ctx → State → Act) : Issue :=
  { g, reads, writes, ctrl := true, onStack := true, body := fun c _ s => body c s }

/-- `br`: PC = target. -/
def issueBr (o : BrT) : Issue := ctrlIssue o.g [] [] fun c s => .goto s (c.branchTo o.target)
def execBr (o : BrT) (s : State) : Res := s.issue (issueBr o)

/-- `brc`: branch when sC is not 0. -/
def issueBrc (o : BrS) : Issue := ctrlIssue o.g [.s o.c.toNat] [] fun c s =>
  if c.tm.sreg o.c.toNat ≠ 0 then .goto s (c.branchTo o.target) else .done s
def execBrc (o : BrS) (s : State) : Res := s.issue (issueBrc o)

/-- `call`: sL = PC + 8 and PC = target. -/
def issueCall (o : BrS) : Issue := ctrlIssue o.g [] [.s o.c.toNat] fun c s =>
  .goto (c.setSc o.c (BitVec.ofNat 64 (c.f.pc + 8)) s) (c.branchTo o.target)
def execCall (o : BrS) (s : State) : Res := s.issue (issueCall o)

/-- `loop`: sC falls by 1 modulo 2^64, and the branch is taken when it is then not 0. -/
def issueLoop (o : BrS) : Issue := ctrlIssue o.g [.s o.c.toNat] [.s o.c.toNat] fun c s =>
  let n := c.tm.sreg o.c.toNat - 1
  let s := c.setSc o.c n s
  if n ≠ 0 then .goto s (c.branchTo o.target) else .done s
def execLoop (o : BrS) (s : State) : Res := s.issue (issueLoop o)

/-- `ret` and `jmp`: PC = sA (R164). -/
def jumpIssue (o : JmpS) : Issue := ctrlIssue o.g [.s o.a.toNat] [] fun c s =>
  let w := c.tm.sreg o.a.toNat
  if targetOk w then .goto s w.toNat else .trap 0x05 6 0 none
def issueRet (o : JmpS) : Issue := jumpIssue o
def execRet (o : JmpS) (s : State) : Res := s.issue (issueRet o)
def issueJmp (o : JmpS) : Issue := jumpIssue o
def execJmp (o : JmpS) (s : State) : Res := s.issue (issueJmp o)

/-- FRAGS (R338, R341): on a stack core a seventeenth fragment. -/
def tooMany (tm : Team) : Bool := tm.lifted && decide (16 ≤ tm.frags.length)

/-- A new fragment as `brv` and `breakv` make it: linked to F (R39, R43). -/
def childOf (f : Frag) (csn pc rpc : Nat) (m : Mask) : Frag :=
  { csn, pc, mask := m, rpc, rpcv := true, rpcNext := f.rpc, nextv := f.rpcv, link := f.csn, linkv := true,
    hollow := false, safe := false, spilled := false, entry := 0, spillSeq := 0, hold := .none, trapHeld := false,
    acq := none, storeAt := 0, spin := false, yielded := false }

/-- A new fragment would be spilled while the subarray of its record is busy: the spill waits, as an ordinary access (R45, R282). -/
def Ctx.spillWaits (c : Ctx) (s : State) (f : Frag) : Bool :=
  let p := c.t % 4
  let b := c.b.reload (c.b.spillList p).length p
  !c.tm.lifted && (b.freeEntry p).isNone && s.subWaits c.k (b.spillOff c.t f) 64 s.seqNo

/-- `brv` (R39): all taken, none taken, or a split. -/
def issueBrv (o : BrV) : Issue :=
  { g := o.g, perLane := true, ctrl := true, onStack := true, reads := [.p o.c.toNat],
    body := fun c E s =>
      let T := E &&& c.tm.preg o.c.toNat
      let N := c.f.mask &&& ~~~T
      let target := c.branchTo o.target
      let reconv := c.branchTo o.reconv
      if N == 0 then .goto s target
      else if T == 0 then .done s
      else if tooMany c.tm then .trap 0x08 0 0 none
      else
        let (csn, s1) := s.nextCsn c.k c.t
        let child := childOf c.f csn (c.f.pc + 8) reconv N
        if c.spillWaits s child then .wait s
        else
          let s := s1.modFrag c.k c.t c.csn fun f => { f with mask := T, pc := target, rpc := reconv, rpcv := true }
          .raw ((s.place c.k c.t child).modTeam c.k c.t fun tm => tm.inherit c.csn csn) }
def execBrv (o : BrV) (s : State) : Res := s.issue (issueBrv o)

/-- `breakv` (R43): the lanes that break out become a fragment that waits at the exit address. -/
def issueBreakv (o : BkV) : Issue :=
  { g := o.g, perLane := true, ctrl := true, onStack := true, reads := [.p o.c.toNat],
    body := fun c E s =>
      let B := E &&& c.tm.preg o.c.toNat
      let x := c.branchTo o.target
      if B == 0 then .done s
      else if tooMany c.tm then .trap 0x08 0 0 none
      else
        let (csn, s1) := s.nextCsn c.k c.t
        let child := childOf c.f csn x x B
        if c.spillWaits s child then .wait s
        else
          let s := s1.modFrag c.k c.t c.csn fun f => { f with mask := f.mask &&& ~~~B, pc := f.pc + 8 }
          .raw ((s.place c.k c.t child).modTeam c.k c.t fun tm => tm.inherit c.csn csn) }
def execBreakv (o : BkV) (s : State) : Res := s.issue (issueBreakv o)

/-- `exit` (R165): the lanes of E leave for good. -/
def issueExit (o : GOnly) : Issue :=
  { g := o.g, perLane := true, ctrl := true, onStack := true,
    body := fun c E s =>
      .raw (s.modTeam c.k c.t fun tm =>
        { tm.modFrag c.csn (fun f => { f with mask := f.mask &&& ~~~E, pc := f.pc + 8 }) with exited := tm.exited ||| E }) }
def execExit (o : GOnly) (s : State) : Res := s.issue (issueExit o)

/-- `yield` (R50, R164). -/
def issueYield (o : GOnly) : Issue := { ctrlIssue o.g [] [] (fun _ s => .done s) with yields := true }
def execYield (o : GOnly) (s : State) : Res := s.issue (issueYield o)

/-- `nop` (R164). -/
def issueNop (o : GOnly) : Issue := ctrlIssue o.g [] [] fun _ s => .done s
def execNop (o : GOnly) (s : State) : Res := s.issue (issueNop o)

/-- `safept` (R59, R297): nothing while no request is pending or on a stack core; otherwise the fragment parks, once the
team's counters are zero. [log 29: DESIGN CHOICE] -/
def issueSafept (o : GOnly) : Issue := ctrlIssue o.g [] [] fun c s =>
  if (c.b.request.isNone && !c.b.testReq) || c.tm.lifted then .done s
  else if c.tm.memcnt = 0 ∧ c.tm.setcnt = 0 ∧ c.tm.arrcnt = 0 ∧ c.tm.bankcnt = 0 ∧ c.tm.cpycnt = 0 then
    .park (.poll 0) (s.modFrag c.k c.t c.csn fun f => { f with safe := true })
  else .park (.poll 0) s
def execSafept (o : GOnly) (s : State) : Res := s.issue (issueSafept o)

/-- A counter is at or below a threshold; 63 ignores it (R52). -/
def below (n : Nat) (thr : BitVec 6) : Bool := thr == 63#6 || decide (n ≤ thr.toNat)
/-- `waitcnt` (R52, R164). -/
def issueWaitcnt (o : WaitC) : Issue := ctrlIssue o.g [] [] fun c s =>
  if below c.tm.memcnt o.m && below c.tm.setcnt o.s && below c.tm.arrcnt o.a && below c.tm.bankcnt o.b then .done s
  else .park (.poll 0) s
def execWaitcnt (o : WaitC) (s : State) : Res := s.issue (issueWaitcnt o)

end Sys2Proof.Machine
end

