-- ==== Sys2Proof/Machine/VectorFloat.lean ====
section
/-!
DEFINITION. Sys2Proof/Machine/VectorFloat.lean: vector float instructions and special functions (R75, R76, R81, R183 to R185).
-/

namespace Sys2Proof.Machine

/-- Two sources of a float type, rounded once (R183). -/
def vfbinSrc (g : Guard) (d a : VReg) (reads : List RegRef) (vregs : List (Nat × Nat)) (b : Ctx → State → Src) (ty : FType)
    (f : Fmt → Nat → Nat → Nat × Nat) : Issue :=
  let F := fmtOf ty.el
  vecIssue g d (.v a.toNat :: reads) ((6, a.toNat) :: vregs) true fun c s l =>
    laneOfEls F.w fun e => f F ((Src.reg a.toNat).el c.tm F.w l e) ((b c s).el c.tm F.w l e)
def vfbin (o : VFBin) (f : Fmt → RM → Nat → Nat → Nat × Nat) : Issue :=
  vfbinSrc o.g o.d o.a (refVS o.b) (vOfVS 7 o.b) (fun c s => c.srcV s o.b) o.ty fun F => f F (.m o.rm)
def vfmin (o : VFMin) (mx : Bool) : Issue :=
  vfbinSrc o.g o.d o.a (refVS o.b) (vOfVS 7 o.b) (fun c s => c.srcV s o.b) o.ty fun F x y => (minMaxF F mx x y, 0)
/-- One source, no rounding and no flag. -/
def vfun (o : VFUn) (f : Fmt → Nat → Nat) : Issue :=
  let F := fmtOf o.ty.el
  vecIssue o.g o.d [.v o.a.toNat] [(6, o.a.toNat)] true fun c _ l =>
    laneOfEls F.w fun e => (f F ((Src.reg o.a.toNat).el c.tm F.w l e), 0)
/-- Change the sign bit unless the value is NaN, which gives the canonical NaN (R183). -/
def signEl (F : Fmt) (sg : Bool → Bool) (x : Nat) : Nat :=
  if isNan (decodeF F x) then F.nanCode else F.signed (sg (bit x (F.w - 1))) (x % 2 ^ (F.w - 1))

/-- `v.fadd` -/
def issueVFadd (o : VFBin) : Issue := vfbin o opAdd
def execVFadd (o : VFBin) (s : State) : Res := s.issue (issueVFadd o)
/-- `v.fsub` -/
def issueVFsub (o : VFBin) : Issue := vfbin o opSub
def execVFsub (o : VFBin) (s : State) : Res := s.issue (issueVFsub o)
/-- `v.fmul` -/
def issueVFmul (o : VFBin) : Issue := vfbin o opMul
def execVFmul (o : VFBin) (s : State) : Res := s.issue (issueVFmul o)
/-- `v.fma`: a × b + c, rounded once. -/
def issueVFma (o : VFma) : Issue :=
  let F := fmtOf o.ty.el
  vecIssue o.g o.d (.v o.a.toNat :: (refVS o.b ++ refVS o.c)) ((6, o.a.toNat) :: (vOfVS 7 o.b ++ vOfVS 8 o.c)) true fun c s l =>
    laneOfEls F.w fun e => opFma F (.m o.rm) ((Src.reg o.a.toNat).el c.tm F.w l e) ((c.srcV s o.b).el c.tm F.w l e)
      ((c.srcV s o.c).el c.tm F.w l e)
def execVFma (o : VFma) (s : State) : Res := s.issue (issueVFma o)
/-- `v.fmin` (R184) -/
def issueVFmin (o : VFMin) : Issue := vfmin o false
def execVFmin (o : VFMin) (s : State) : Res := s.issue (issueVFmin o)
/-- `v.fmax` (R184) -/
def issueVFmax (o : VFMin) : Issue := vfmin o true
def execVFmax (o : VFMin) (s : State) : Res := s.issue (issueVFmax o)
/-- The test of `v.fcmp` on two sources (R184). -/
def fcmpTest (ty : FType) (cond : Cond) (tm : Team) (a b : Src) (l e : Nat) : Bool :=
  let F := fmtOf ty.el
  condF cond (decodeF F (a.el tm F.w l e)) (decodeF F (b.el tm F.w l e))
/-- `v.fcmp` (R184) -/
def issueVFcmp (o : VFCmp) : Issue :=
  cmpIssue o.g o.d (.v o.a.toNat :: refVS o.b) ((6, o.a.toNat) :: vOfVS 7 o.b) (fmtOf o.ty.el).w fun c s l e =>
    fcmpTest o.ty o.c c.tm (.reg o.a.toNat) (c.srcV s o.b) l e
def execVFcmp (o : VFCmp) (s : State) : Res := s.issue (issueVFcmp o)
/-- `v.fabs` -/
def issueVFabs (o : VFUn) : Issue := vfun o fun F => signEl F fun _ => false
def execVFabs (o : VFUn) (s : State) : Res := s.issue (issueVFabs o)
/-- `v.fneg` -/
def issueVFneg (o : VFUn) : Issue := vfun o fun F => signEl F fun b => !b
def execVFneg (o : VFUn) (s : State) : Res := s.issue (issueVFneg o)
/-- `v.fclass` (R184) -/
def issueVFclass (o : VFUn) : Issue := vfun o classF
def execVFclass (o : VFUn) (s : State) : Res := s.issue (issueVFclass o)

/-! ### Special functions (R185): long-latency, uncounted; results and flags land at completion -/

/-- A special function over the lanes of E: its values are those of the operand at issue. -/
def spfIssue (g : Guard) (la : BitVec 4) (d a : VReg) (ty : FType) (rm : RMode) (fn : Nat) : Issue :=
  { g, perLane := true, vectorOnly := true, reads := [.v a.toNat], writes := [.v d.toNat],
    vregs := [(5, d.toNat), (6, a.toNat)],
    body := fun c E s =>
      let F := fmtOf ty.el
      let rs := (lanesOf c.tm.L E).map fun l =>
        (l, laneOfEls F.w fun e => spf fn ty rm ((Src.reg a.toNat).el c.tm F.w l e))
      .done (c.pend .spf la.toNat [.v d.toNat]
        (.spf d.toNat (rs.map fun x => (x.1, x.2.1)) (rs.map fun x => (x.1, x.2.2))) s) }
/-- `v.frcp` -/
def issueVFrcp (o : VSpf) : Issue := spfIssue o.g o.la o.d o.a o.ty .rne 0
def execVFrcp (o : VSpf) (s : State) : Res := s.issue (issueVFrcp o)
/-- `v.frsq` -/
def issueVFrsq (o : VSpf) : Issue := spfIssue o.g o.la o.d o.a o.ty .rne 1
def execVFrsq (o : VSpf) (s : State) : Res := s.issue (issueVFrsq o)
/-- `v.fsqrt` -/
def issueVFsqrt (o : VSqrt) : Issue := spfIssue o.g o.la o.d o.a o.ty o.rm 2
def execVFsqrt (o : VSqrt) (s : State) : Res := s.issue (issueVFsqrt o)
/-- `v.fexp2` -/
def issueVFexp2 (o : VSpf) : Issue := spfIssue o.g o.la o.d o.a o.ty .rne 3
def execVFexp2 (o : VSpf) (s : State) : Res := s.issue (issueVFexp2 o)
/-- `v.flog2` -/
def issueVFlog2 (o : VSpf) : Issue := spfIssue o.g o.la o.d o.a o.ty .rne 4
def execVFlog2 (o : VSpf) (s : State) : Res := s.issue (issueVFlog2 o)

end Sys2Proof.Machine
end

