-- ==== Sys2Proof/Machine/Convert.lean ====
section
/-!
DEFINITION. Sys2Proof/Machine/Convert.lean: conversions, block scales and the codebook (R67 to R69, R73, R74, R77, R78,
R186 to R189).
-/

namespace Sys2Proof.Machine

/-- Element j of a group of registers of element width w that starts at r (R186). -/
def groupEl (tm : Team) (r w l j : Nat) : Nat := subEl w (j % (64 / w)) (tm.vreg (r + j / (64 / w)) l)
/-- Write n elements of width w as a group of q registers. -/
def groupWrite (tm : Team) (r w q l : Nat) (el : Nat → Nat) : Team :=
  (upto 0 q).foldl (fun tm i => tm.setV (r + i) l (BitVec.ofNat 64 (packEls w (fun e => el (i * (64 / w) + e)) (64 / w)))) tm
/-- The registers of a group with their FIELD. -/
def groupRegs (field r q : Nat) : List (Nat × Nat) := (upto 0 q).map fun i => (field, r + i)
/-- The rounding of a conversion for lane l, element j (R72, R187). -/
def rndOf (tm : Team) (r : Rnd) (l j : Nat) : RM :=
  match r with
  | .mode m => .m m
  | .sr seed => .sr (srBits (tm.sreg seed.toNat).toNat l j)
def refRnd : Rnd → List RegRef
  | .mode _ => []
  | .sr seed => [.s seed.toNat]
/-- Deliver a value in a destination type (R71, R73, R74). -/
def deliverTy (t : ElType) (rm : RM) (x : FV) : Nat × Nat :=
  match t with
  | .i8 | .i16 | .i32 | .i64 | .n8 | .n16 | .n32 | .n64 | .i4 => toIntTy (elSigned t) (elWidth t) rm x
  | t => roundTo (fmtOf t) rm x

/-- A conversion: the source group, the destination group and the value of each element (R186). -/
def convIssue (g : Guard) (d a : VReg) (qs qd wd n : Nat) (reads : List RegRef) (extra : List (Nat × Nat))
    (el : Ctx → Nat → Nat → Nat × Nat) : Issue :=
  let srcs := groupRegs 6 a.toNat qs
  let dsts := groupRegs 5 d.toNat qd
  { g, perLane := true, vectorOnly := true, reads := (srcs.map fun x => RegRef.v x.2) ++ reads,
    writes := dsts.map fun x => RegRef.v x.2, vregs := dsts ++ srcs ++ extra,
    body := fun c E s =>
      let rs := (lanesOf c.tm.L E).map fun l => (l, (upto 0 n).map (el c l))
      .done (s.modTeam c.k c.t fun tm =>
        (rs.foldl (fun tm x => groupWrite tm d.toNat wd qd x.1 fun j => (nth (0, 0) x.2 j).1) tm).orFlags
          (flagsOf (rs.map fun x => flagsOf (x.2.map Prod.snd)))) }

/-- `v.cvt`, `v.cvti` and `v.cvtf` (R187). -/
def cvtIssue (o : VCvt) : Issue :=
  let ws := elWidth o.st
  let wd := elWidth o.dt
  let wn := min ws wd
  let ww := max ws wd
  let q := ww / wn
  let isO4 := o.st == .o4
  let qs := if isO4 then 2 else if ws = ww then q else 1
  let qd := if wd = ww then q else 1
  convIssue o.g o.d o.a qs qd wd (64 / wn) ((if o.st == .c4 then [.cb] else []) ++ refRnd o.rnd) [] fun c l j =>
    let x : FV :=
      if isO4 then nth (.fin false 0 0) (decodeO4 (c.tm.vreg o.a.toNat l).toNat (bits (c.tm.vreg (o.a.toNat + 1) l).toNat 0 8)) j
      else elValue c.tm.cbEntry o.st (groupEl c.tm o.a.toNat ws l j)
    deliverTy o.dt (rndOf c.tm o.rnd l j) x
def issueVCvt (o : VCvt) : Issue := cvtIssue o
def execVCvt (o : VCvt) (s : State) : Res := s.issue (issueVCvt o)
def issueVCvti (o : VCvt) : Issue := cvtIssue o
def execVCvti (o : VCvt) (s : State) : Res := s.issue (issueVCvti o)
def issueVCvtf (o : VCvt) : Issue := cvtIssue o
def execVCvtf (o : VCvt) (s : State) : Res := s.issue (issueVCvtf o)

/-- The scale byte of element j of lane l, with n elements a lane (R78). -/
def scaleByte (tm : Team) (sc sel n l j : Nat) : Nat :=
  bits (tm.vreg sc ((l * n + j) / 32 * (32 / n))).toNat (8 * sel) 8

/-- `v.qnt` (R188): `.bf16` divided by its block's scale, to T. -/
def issueVQnt (o : VQnt) : Issue :=
  let w := elWidth o.ty
  let n := 64 / w
  convIssue o.g o.d o.a (16 / w) 1 w n (.v o.sc.toNat :: refRnd o.rnd) [(7, o.sc.toNat)] fun c l j =>
    let x := decodeF (fmtOf .bf16) (groupEl c.tm o.a.toNat 16 l j)
    let y := match scaleExp (scaleByte c.tm o.sc.toNat o.sel.toNat n l j) with
      | none => .nan
      | some k => scaleF x (-k)
    deliverTy o.ty (rndOf c.tm o.rnd l j) y
def execVQnt (o : VQnt) (s : State) : Res := s.issue (issueVQnt o)

/-- `v.dqt` (R188): T times its block's scale, to `.bf16`. -/
def issueVDqt (o : VQnt) : Issue :=
  let w := elWidth o.ty
  let n := 64 / w
  convIssue o.g o.d o.a 1 (16 / w) 16 n (.v o.sc.toNat :: refRnd o.rnd) [(7, o.sc.toNat)] fun c l j =>
    let x := elValue c.tm.cbEntry o.ty (groupEl c.tm o.a.toNat w l j)
    deliverTy .bf16 (rndOf c.tm o.rnd l j) (scaled x (scaleByte c.tm o.sc.toNat o.sel.toNat n l j))
def execVDqt (o : VQnt) (s : State) : Res := s.issue (issueVDqt o)

/-- `v.cbld` (R189): lanes 0 to 3 of vA, whatever the mask, become the codebook. -/
def issueVCbld (o : VCbld) : Issue :=
  { g := o.g, vectorOnly := true, reads := [.v o.a.toNat], writes := [.cb], vregs := [(6, o.a.toNat)],
    body := fun c _ s =>
      .done (s.modTeam c.k c.t fun tm => { tm with cb := (upto 0 16).foldl (fun m i =>
        AMap.set 0 m i (BitVec.ofNat 64 (subEl 16 (i % 4) (c.tm.vreg o.a.toNat (i / 4))))) tm.cb }) }
def execVCbld (o : VCbld) (s : State) : Res := s.issue (issueVCbld o)

/-- `v.cbenc` (R69, R189). -/
def issueVCbenc (o : VCbenc) : Issue :=
  let w := if o.bf then 16 else 32
  let F := if o.bf then fmtOf .bf16 else fmtOf .f32
  convIssue o.g o.d o.a (w / 4) 1 4 16 [.cb] [] fun c l j =>
    (cbEncode c.tm.cbEntry (decodeF F (groupEl c.tm o.a.toNat w l j)), 0)
def execVCbenc (o : VCbenc) (s : State) : Res := s.issue (issueVCbenc o)

end Sys2Proof.Machine
end

