-- ==== Sys2Proof/Machine/Cross.lean ====
section
/-!
DEFINITION. Sys2Proof/Machine/Cross.lean: cross-lane instructions (R190 to R193).
-/

namespace Sys2Proof.Machine

/-- The value that a cross-lane form reads of lane x of a register (R190): zero for an exited lane or x ≥ L. -/
def Team.xlane (tm : Team) (r x : Nat) : Word := if tm.L ≤ x || laneIn tm.exited x then 0 else tm.vreg r x

/-- A cross-lane form over the lanes of E; it may read other fragments' lanes, and reads them all before it writes. -/
def crossIssue (g : Guard) (d : VReg) (reads : List RegRef) (vregs : List (Nat × Nat)) (val : Ctx → State → Nat → Word)
    (cross : Option (Nat × (Ctx → State → Nat → Nat))) : Issue :=
  { vecIssue g d reads vregs false (fun c s l => (val c s l, 0)) with perLane := true, cross }

/-- `v.shfl` (R191). -/
def issueVShfl (o : VShfl) : Issue :=
  let w := elWidth o.ty
  let n := 64 / w
  crossIssue o.g o.d (.v o.a.toNat :: refVS o.b) ((6, o.a.toNat) :: vOfVS 7 o.b) (fun c s l =>
    let x := ((c.srcV s o.b).word c.tm l).toNat
    (laneOfEls w fun e => (subEl w ((bits x 10 4 + e) % n) (c.tm.xlane o.a.toNat (bits x 0 10)), 0)).1)
    (some (o.a.toNat, fun c s l => bits ((c.srcV s o.b).word c.tm l).toNat 0 10))
def execVShfl (o : VShfl) (s : State) : Res := s.issue (issueVShfl o)

/-- `v.bcst` (R191): SRCB is read once for the lane l that receives, `lid` giving l. -/
def issueVBcst (o : VBcst) : Issue :=
  let w := elWidth o.ty
  let n := 64 / w
  crossIssue o.g o.d (.v o.a.toNat :: refSS o.b) [(6, o.a.toNat)] (fun c s l =>
    let x := ((c.srcS s o.b).word c.tm l).toNat
    (laneOfEls w fun _ => (subEl w (bits x 10 4 % n) (c.tm.xlane o.a.toNat (bits x 0 10)), 0)).1)
    (some (o.a.toNat, fun c s l => bits ((c.srcS s o.b).word c.tm l).toNat 0 10))
def execVBcst (o : VBcst) (s : State) : Res := s.issue (issueVBcst o)

/-- `v.perm` (R191). -/
def issueVPerm (o : VShfl) : Issue :=
  let w := elWidth o.ty
  let n := 64 / w
  crossIssue o.g o.d (.v o.a.toNat :: refVS o.b) ((6, o.a.toNat) :: vOfVS 7 o.b) (fun c s l =>
    let x := ((c.srcV s o.b).word c.tm l).toNat
    (laneOfEls w fun e => (subEl w (bits x (4 * e) 4 % n) (c.tm.xlane o.a.toNat l), 0)).1) none
def execVPerm (o : VShfl) (s : State) : Res := s.issue (issueVPerm o)

/-- The result of `v.vote` for lane l: P the participants, M the members (R192). -/
def voteWord (tm : Team) (mode : VoteMode) (P M : Mask) (l : Nat) : Word :=
  match mode with
  | .any a => w01 (P &&& tm.preg a.toNat != 0)
  | .all a => w01 (P &&& ~~~(tm.preg a.toNat) == 0)
  | .cnt a => BitVec.ofNat 64 (popc 1024 (P &&& tm.preg a.toNat).toNat)
  | .ballot a => BitVec.ofNat 64 (maskWord (P &&& tm.preg a.toNat) (l % 32))
  | .uni a =>
    match lanesOf tm.L P with
    | [] => 1
    | x :: xs => w01 (xs.all fun y => tm.vreg a.toNat y == tm.vreg a.toNat x)
  | .miss => BitVec.ofNat 64 (maskWord (M &&& ~~~P) (l % 32))
def voteRefs : VoteMode → List RegRef × List (Nat × Nat)
  | .uni a => ([.v a.toNat], [(6, a.toNat)])
  | .any a | .all a | .cnt a | .ballot a => ([.p a.toNat], [])
  | .miss => ([], [])
/-- `v.vote` (R192). -/
def issueVVote (o : VVote) : Issue :=
  { g := o.g, perLane := true, vectorOnly := true, reads := .p o.m.toNat :: (voteRefs o.mode).1,
    writes := .v o.d.toNat :: refPD o.r, vregs := (5, o.d.toNat) :: (voteRefs o.mode).2,
    body := fun c E s =>
      let M := fullMask c.tm.L &&& ~~~c.tm.exited &&& c.tm.preg o.m.toNat
      let P := E &&& M
      let s := c.setVec E o.d.toNat (voteWord c.tm o.mode P M) s
      .done (c.setPred E o.r.toNat (fun _ => M &&& ~~~P == 0) s) }
def execVVote (o : VVote) (s : State) : Res := s.issue (issueVVote o)

/-- `Combine` of R193 on codes of a type. -/
def combineEl (op : ScanOp) (t : ElType) (x y : Nat) : Nat × Nat :=
  let w := elWidth t
  match op, t.isFloat with
  | .add, true => opAdd (fmtOf t) (.m .rne) x y
  | .min, true => (minMaxF (fmtOf t) false x y, 0)
  | .max, true => (minMaxF (fmtOf t) true x y, 0)
  | .add, false => (eAdd w x y, 0)
  | .min, false => (eMin (elSigned t) w x y, 0)
  | .max, false => (eMax (elSigned t) w x y, 0)
  | .and, _ => (x &&& y, 0)
  | .or, _ => (x ||| y, 0)
  | .xor, _ => (x ^^^ y, 0)
/-- The identity that the first lane of an exclusive scan receives (R193). -/
def identEl (op : ScanOp) (t : ElType) : Nat :=
  let w := elWidth t
  let F := fmtOf t
  match op, t.isFloat with
  | .min, true => F.infCode
  | .max, true => F.signed true F.infCode
  | .min, false => if elSigned t then 2 ^ (w - 1) - 1 else 2 ^ w - 1
  | .max, false => if elSigned t then 2 ^ (w - 1) else 0
  | .and, _ => 2 ^ w - 1
  | _, _ => 0
/-- An element that meets no `Combine`: a NaN result is canonical (R64). -/
def scanFirst (t : ElType) (x : Nat) : Nat :=
  if t.isFloat && isNan (decodeF (fmtOf t) x) then (fmtOf t).nanCode else x
/-- The running results of one element position over a list of codes: (inclusive, flags) in order. -/
def scanEls (op : ScanOp) (t : ElType) : Option Nat → List Nat → List (Nat × Nat)
  | _, [] => []
  | none, x :: xs => (scanFirst t x, 0) :: scanEls op t (some (scanFirst t x)) xs
  | some a, x :: xs => let r := combineEl op t a x; (r.1, r.2) :: scanEls op t (some r.1) xs

/-- Write columns of codes, one list of lane values for each element position, in the lanes of E. -/
def writeCols (c : Ctx) (d w : Nat) (ls : List Nat) (cols : List (List Nat)) (fl : Nat) (s : State) : State :=
  s.modTeam c.k c.t fun tm =>
    (tm.setVs d ((ls.zip (upto 0 ls.length)).map fun x =>
      (x.1, BitVec.ofNat 64 (packEls w (fun e => nth 0 (nth [] cols e) x.2) (64 / w))))).orFlags fl

/-- `v.scan` and `v.red` (R193): `shape` gives the lanes' results and the flags of what they took (R76). -/
def scanIssue (g : Guard) (d a : VReg) (op : ScanOp) (t : ElType) (shape : List (Nat × Nat) → List (Nat × Nat)) : Issue :=
  let w := elWidth t
  { g, perLane := true, vectorOnly := true, reads := [.v a.toNat], writes := [.v d.toNat],
    vregs := [(5, d.toNat), (6, a.toNat)],
    body := fun c E s =>
      let ls := lanesOf c.tm.L E
      let cols := (upto 0 (64 / w)).map fun e => scanEls op t none (ls.map fun l => subEl w e (c.tm.vreg a.toNat l))
      let outs := cols.map shape
      .done (writeCols c d.toNat w ls (outs.map fun col => col.map Prod.fst)
        (flagsOf (outs.map fun col => flagsOf (col.map Prod.snd))) s) }
/-- `v.scan`: inclusive, or exclusive with the identity first. -/
def issueVScan (o : VScan) : Issue :=
  scanIssue o.g o.d o.a o.op o.ty fun col => if o.excl then (identEl o.op o.ty, 0) :: col.take (col.length - 1) else col
def execVScan (o : VScan) (s : State) : Res := s.issue (issueVScan o)
/-- `v.red`: the final result in every lane of E. -/
def issueVRed (o : VRed) : Issue :=
  scanIssue o.g o.d o.a o.op o.ty fun col =>
    col.map fun _ => ((nth (0, 0) col (col.length - 1)).1, flagsOf (col.map Prod.snd))
def execVRed (o : VRed) (s : State) : Res := s.issue (issueVRed o)

end Sys2Proof.Machine
end

