-- ==== Sys2Proof/Machine/TeamEvents.lean ====
section
/-!
DEFINITION. Sys2Proof/Machine/TeamEvents.lean: the steps of a team's core away from issue: reserved words, fetches, reloads, the
drain and the acknowledgement of stores, atomics at their home, loads, special functions, and translation walks (R47,
R84 to R92, R101 to R111, R185, R196 to R199, R282, R335, R366 to R371, R417, R419).
-/

namespace Sys2Proof.Machine

/-! ### Reserved words (R335) -/

/-- A reserved team word traps with ILLEGAL or ROLE, whatever its guard (R338, R341). -/
def issueIllegal (r : Reject) : Issue :=
  { g := { p := 7#3, neg := false }, perLane := true, onStack := true,
    body := fun _ _ _ => if r.role then .trap 0x03 0 0 none else .trap 0x02 r.field.toNat 0 none }
/-- `ILLEGAL_WORD_ISSUE`: a team word traps; a reserved stream word faults the stream (R390). -/
def execIllegalWordIssue (r : Reject) (s : State) : Res :=
  match s.acting with
  | .seq _ _ => s.mIssue fun _ _ _ _ => .fault 0x02 0 0xFF
  | _ => s.issue (issueIllegal r)

/-! ### Subarrays (R116, R282) -/

/-- A scratchpad access of order number `seq` waits in its subarray for an operation or an earlier access (R116, R282). Its lines were present
when it issued (R100). [log 32: DEDUCED] -/
def State.spHeld (s : State) (l : Loc) (n seq : Nat) : Bool :=
  match l with
  | .pa _ => false
  | .sp k o => s.subWaits k o n seq

/-! ### Fetch (R419) -/

/-- The address in the sector of number `base` that the fetch of the instruction at pc needs: that of its first word, or of the second of
two. -/
def State.fetchNeeds (s : State) (k asid pc base : Nat) : Option Nat :=
  if pc / 32 = base then some pc
  else if (pc + 8) / 32 = base then match s.fetchDw k (s.core k).tlb false asid pc with
    | .word w => if wordLen w = 16 then some (pc + 8) else none
    | _ => none
  else none
/-- `INSTRUCTION_FETCH`: the sector that holds an address of a core's block arrives in its L1; a poisoned one halts the teams, and
faults the stream, whose next instruction needs it (R371). -/
def execInstructionFetch (core va : Nat) (s : State) : Res :=
  match s.block core, tlbHit s (s.core core).tlb ((s.block core).elim 0 Block.asid) (va % 2 ^ 57) with
  | some b, some e =>
    let pa := e.pa (va % 2 ^ 57)
    let base := va % 2 ^ 57 / 32
    if (s.l1Get core pa).isSome || s.owned s.seqNo (.pa pa) then .next s
    else if !s.mayFill (pa / 32 * 32) 32 then .next (s.ask core (pa / 32 * 32) 32)
    else if s.poisonedAt (.pa (pa / 32 * 32)) 32 then
      let halted := b.teams.foldl (fun s' x =>
        if x.2.lifted then s'
        else match x.2.frags.findSome? fun f => if fragBlocked b x.2 x.1 f then none else (s.fetchNeeds core b.asid f.pc base).map fun a => (f, a) with
          | some (f, a) => s'.fetchHalt core x.1 f a 0x19
          | none => s') s
      .next (match b.seq with
        | some q => if q.mpc / 32 == base && !seqBlocked q then halted.streamFault core 0x19 q.mpc 0xFF else halted
        | none => halted)
    else .next (s.l1Fill core pa)
  | _, _ => .next s

/-- `FRAGMENT_RELOAD`: a free entry is refilled from the spill list; with every resident fragment waiting, parked or hollow, the
youngest leafless one that is not parked is spilled for it (R47). -/
def execFragmentReload (core part : Nat) (s : State) : Res :=
  match s.block core with
  | none => .next s
  | some b =>
    let p := part % 4
    match b.reloadable p with
    | none => .next s
    | some x =>
      match b.freeEntry p with
      | some e => .next ((s.modBlock core fun b => b.reloadInto x.1 x.2.csn e).settle core x.1)
      | none =>
        let rs := b.resident p
        if rs.all fun y => y.2.waiting || y.2.safe || y.2.hollow then
          let cand := rs.filter fun y => !y.2.safe && ((AMap.find? b.teams y.1).elim false fun tm => tm.leafless y.2.csn)
          let young := cand.foldl (fun (a : Option (Nat × Frag)) y => match a with
            | none => some y
            | some z => if z.2.csn < y.2.csn then some y else some z) none
          match young with
          | none => .next s
          | some y =>
            if s.subWaits core (b.spillOff y.1 y.2) 64 s.seqNo then .next s
            else .next ((s.modBlock core fun b => (b.spillFrag y.1 y.2.csn).reloadInto x.1 x.2.csn y.2.entry).settle core x.1)
        else .next s

/-! ### Loads (R104, R109 to R111, R196, R371, R417) -/

/-- What reading one lane finds: its bytes and tag, and the level that it reached (R361). -/
inductive LaneRead
  | got (xs : List Byte) (tag : Bool) (level : Nat) (s : State)
  | wait
  | bad

/-- Scopes whose acquire reads at the home, past the team's own buffer (R110, R417). -/
def strictScope : Option Scope → Bool
  | some .lane => false
  | some .team => false
  | some .blk => false
  | some _ => true
  | none => false
/-- The tag of a granule after the stores of a list (R94). -/
def tagThrough (l : Loc) (n : Nat) (tag : Bool) (rs : List StReq) : Bool :=
  rs.foldl (fun t r => if r.loc.meets r.bytes.length l n then r.tag && r.loc == l else t) tag
/-- Bring a sector into the L1, and the level from which it comes: device memory, or a host sector that the cluster's slice may hold for
plain loads, as one of its lines (R2, R104). [log 11: DESIGN CHOICE] -/
def State.fillSector (s : State) (k pa : Nat) : Nat × State :=
  if isHost pa then
    let u := pa / 32
    let cl := clusterOf k
    let kept := AMap.find? (s.cluster cl).hostl2 u
    let (use, s) := if kept.isSome then s.freeBit else (false, s)
    let x := if use then kept.getD 0 else leNat (s.mem.bytes (32 * u) 32)
    let s := if (s.cluster cl).hostLines.contains (u / 8) then s else s.l2Room cl
    let s := s.modCluster cl fun c => { c with hostl2 := AMap.put c.hostl2 u x }
    (if use then 4 else 8, s.l1Put k pa (leNat (s.throughPath k (.pa (32 * u)) (bytesOf 32 x))))
  else (s.homeReach k (pa / 32 * 32) 32, s.l1Fill k pa)

/-- A load has a lane in the L1: it reads through the core's write path and needs no tag (R101, R110, R296). -/
def throughL1 (tm : Team) (acq : Option Scope) (cap : Bool) (a : LaneAcc) : Bool := !strictScope acq && !tm.lifted && !a.home && !cap
/-- A request holds a load back: an atomic whose value the load must see, and for a lifted team, which reads past the write path, any request
that it meets there; in the scratchpad the requests before it (R109, R110, R282). [log 12: DESIGN CHOICE] -/
def holdsLoad (tm : Team) (through : Bool) (seq : Nat) (l : Loc) (r : StReq) : Bool :=
  match l with
  | .pa _ => tm.lifted || (through && r.atom.isSome)
  | .sp _ _ => through && r.atom.isSome && decide (r.seq < seq)
/-- Read one lane of a load (R101, R109, R110, R296). It waits for the atomics of its team before it that meet its bytes, for those that
stand in the write path when it reads through it, and at the wider scopes for its team's earlier stores to them. A lane that has waited
for an atomic of its team reads at the home, as do the wider scopes, a lifted team and a capability load; every other one reads in
the L1. It waits for its channel where a sector has to be read from HBM (R308). [log 11: DESIGN CHOICE] [log 12: DESIGN CHOICE] -/
def State.readLane (s : State) (k t : Nat) (tm : Team) (seq : Nat) (acq : Option Scope) (lc cap : Bool) (n : Nat) (a : LaneAcc) :
    LaneRead :=
  let l := a.loc
  let prior := s.priorTo k t tm seq l n
  let mine := prior.filter fun r => tm.stb.contains r
  let path := ((s.pathOf k).map fun x => x.2).filter fun r => r.loc.meets r.bytes.length l n
  let through := !strictScope acq && !tm.lifted && !a.home
  if (prior.any fun r => r.atom.isSome) || path.any (holdsLoad tm through seq l) || s.owned seq l || s.spHeld l n seq then .wait
  else if strictScope acq && !prior.isEmpty then .wait
  else match l with
    | .sp _ _ =>
      if s.poisonedAt l n then .bad
      else .got (overlayStores l (s.readLoc l n) mine) (lc && tagThrough l n (s.tagAt l) mine) 1 s
    | .pa pa =>
      if !through || cap then
        if !s.mayFill pa n then .wait
        else if s.poisonedAt l n then .bad
        else
          let newer := if through then path ++ mine else prior
          let xs := overlayStores l (s.readLoc l n) newer
          let tag := tagThrough l n (s.tagAt l) newer
          .got xs (lc && tag) (s.homeReach k pa n) ((if through then s.readBy k t seq l n else s).l2Fill pa n)
      else
        let (drop, s) := if (s.l1Get k pa).isSome && s.mayFill (pa / 32 * 32) 32 then s.freeBit else (false, s)
        let s := if drop then s.l1Drop k pa else s
        let here := s.l1Get k pa
        if here.isNone && !s.mayFill (pa / 32 * 32) 32 then .wait
        else if here.isNone && s.poisonedAt (.pa (pa / 32 * 32)) 32 then .bad
        else
          let (level, s) := if here.isNone then s.fillSector k pa else (if s.l1Core k pa = k then 2 else 3, s)
          let s := s.readBy k t seq l n
          .got (overlayStores l ((s.l1Bytes k pa n).getD (s.readLoc l n)) mine) false level s

/-- Read every lane of a load: values and the furthest level, or the lane that is poisoned, or nothing yet. -/
inductive LoadRead
  | got (vals : List (Nat × Nat × Bool)) (level : Nat) (s : State)
  | wait
  | bad (a : LaneAcc)
def State.readLanes (s : State) (k t : Nat) (tm : Team) (p : Pend) (acq : Option Scope) (lc cap : Bool) (n : Nat) (sx : Bool) :
    List LaneAcc → List (Nat × Nat × Bool) → Nat → LoadRead
  | [], vals, level => .got vals level s
  | a :: rest, vals, level =>
    if a.absent then s.readLanes k t tm p acq lc cap n sx rest (vals ++ [(a.lane, 0, false)]) level
    else match s.readLane k t tm p.seq acq lc cap n a with
      | .wait => .wait
      | .bad => .bad a
      | .got xs tag l s =>
        let x := leNat xs
        let v := if sx then wrap 64 (sgn (8 * n) x) else x
        s.readLanes k t tm p acq lc cap n sx rest (vals ++ [(a.lane, v, if cap then tag else true)]) (max level l)
/-- An acquire that reads invalidates the core's L1, and at cluster scope or wider the slice's host-memory sectors (R101, R104, R110); a lifted
team has no L1 (R296). -/
def State.acquireRead (s : State) (k : Nat) (tm : Team) (acq : Option Scope) : State :=
  match acq with
  | none => s
  | some sc =>
    if tm.lifted then s
    else if scopeWide sc then (s.dropL1 k).modCluster (clusterOf k) fun c => { c with hostl2 := [] }
    else s.dropL1 k

/-- `FAULTSTAT` of a pending access: the capability is the one in SRCA (R364). [log 37: DEDUCED] -/
def Pend.faultAt (p : Pend) (addr : Nat) (sp : Bool) : Word := faultWord addr sp ((Fields.ofWord p.word).a.toNat % 32)
/-- AUX of a pending access: the lane, or 0 for a form that acts once (R363). [log 37: DEDUCED] -/
def Pend.auxLane (p : Pend) (lane : Nat) : Nat := if p.dests.any fun d => match d with | .v _ => true | _ => false then lane else 0
/-- The halt request of poisoned data (R371). [log 37: DEDUCED] -/
def Pend.poison (p : Pend) (lane addr : Nat) (sp : Bool) : HaltReq :=
  p.halt 0x19 (p.auxLane lane) (some (p.faultAt addr sp))

/-- Write a load's results (R51, R91, R196). -/
def Team.landLoad (tm : Team) (p : Pend) (dst : RegRef) (bcast : List Nat) (rp : Option Nat) (vals : List (Nat × Nat × Bool)) : Team :=
  let one := vals.head?.elim (0, false) fun x => x.2
  let tm := match dst with
    | .v r =>
      if bcast.isEmpty then tm.landV p r (vals.map fun x => (x.1, BitVec.ofNat 64 x.2.1))
      else tm.landV p r (bcast.map fun l => (l, BitVec.ofNat 64 one.1))
    | .s r => if vals.isEmpty then tm else tm.landS p r (BitVec.ofNat 64 one.1)
    | .c r => if vals.isEmpty then tm else tm.landC p r (BitVec.ofNat 128 one.1, one.2)
    | _ => tm
  match rp with
  | some r => if bcast.isEmpty then tm.landP p r (vals.map fun x => (x.1, x.2.2)) else tm.landP p r (bcast.map fun l => (l, one.2))
  | none => tm

/-- What an acquire load returned in a lane: its address and value; lane 1024 stands for every lane (R49). -/
def acqAt (xs : List (Nat × Nat × Nat)) (l : Nat) : Option (Nat × Nat) := (xs.find? fun x => x.1 == l || x.1 == 1024).map fun x => x.2
/-- What an acquire load has returned, by lane: a form that acts once returns it for every lane, and a broadcast for each of its lanes (R49). -/
def acquireVals (dst : RegRef) (bcast : List Nat) (now : List (Nat × Nat × Nat)) : List (Nat × Nat × Nat) :=
  match dst, now with
  | .v _, x :: _ => if bcast.isEmpty then now else bcast.map fun l => (l, x.2)
  | .v _, [] => []
  | _, xs => (xs.take 1).map fun x => (1024, x.2)
/-- The classification of R49 after the acquire load of order number `seq` has returned: it spins when the load returned in every active
lane what the acquire load before it did there, with no store or atomic issued since that one. -/
def Frag.acquired (f : Frag) (seq : Nat) (now : List (Nat × Nat × Nat)) : Frag :=
  { f with spin := f.mask != 0 && f.acq.any fun x => decide (f.storeAt ≤ x.1)
             && (lanesOf 1024 f.mask).all fun l => (acqAt now l).isSome && acqAt now l == acqAt x.2 l
           acq := some (seq, now) }

/-- The sectors of a load's lanes that have to come from their channels: those that it does not read in the L1, or that the L1 does not
hold (R308, R323). -/
def State.loadNeeds (s : State) (k : Nat) (tm : Team) (acq : Option Scope) (cap : Bool) (n : Nat) (lanes : List LaneAcc) : List Nat :=
  lanes.foldl (fun l a => match a.loc with
    | .pa pa =>
      if a.absent || (throughL1 tm acq cap a && acq.isNone && (s.l1Get k pa).isSome) then l
      else (sectorsOf pa n).foldl (fun l u => insSorted u l) l
    | .sp _ _ => l) []

/-- No older outstanding instruction of the same counter class (R52). -/
def Team.firstOf (tm : Team) (p : Pend) : Bool := tm.pend.all fun q => !(q.cls == p.cls && decide (q.seq < p.seq))

/-- A load that has read keeps its values, and when it is the oldest of its class they are written and it ends (R52). -/
def State.loadEnd (s : State) (k t : Nat) (tm : Team) (p : Pend) (onlyRead : Bool) (lanes : List LaneAcc) (n : Nat) (sx : Bool) (dst : RegRef)
    (bcast : List Nat) (acq : Option Scope) (rp : Option Nat) (lc : Bool) (vs : List (Nat × Nat × Bool)) : State :=
  if onlyRead || !tm.firstOf p then
    s.modTeam k t fun tm => tm.modPend p.seq fun p => { p with kind := .load lanes n sx dst bcast acq rp lc (some vs) }
  else
    let s := s.modTeam k t fun tm => (tm.landLoad p dst bcast rp vs).endPend p
    if acq.isSome then
      s.modFrag k t p.csn fun f => f.acquired p.seq (acquireVals dst bcast ((vs.zip lanes).map fun x => (x.1.1, x.2.addr, x.1.2.1)))
    else s
/-- A load reads, when it has not, and its result is written when it is the oldest of its class (R52). One that meets poison requests the halt of
its team and writes nothing; it ends in its order (R52, R371). -/
def State.loadStep (s : State) (k t : Nat) (tm : Team) (p : Pend) (onlyRead : Bool) : State :=
  match p.kind with
  | .load lanes n sx dst bcast acq rp lc vals =>
    let cap := match dst with | .c _ => true | _ => false
    match vals with
    | some vs => s.loadEnd k t tm p onlyRead lanes n sx dst bcast acq rp lc vs
    | none => match (s.acquireRead k tm acq).readLanes k t tm p acq lc cap n sx lanes [] 0 with
      | .wait => s.askAll k (s.loadNeeds k tm acq cap n lanes)
      | .bad a =>
        let sp := match a.loc with | .sp _ _ => true | .pa _ => false
        (s.requestHalt k t (p.poison a.lane a.addr sp)).loadEnd k t tm p onlyRead [] n sx dst [] none none lc []
      | .got vs level s => (s.noteLevel k t p.seq level).loadEnd k t tm p onlyRead lanes n sx dst bcast acq rp lc vs
  | _ => s

/-- `LOAD_RESULT_RETURN`: outstanding load i reads where it stands; the oldest of its class is written and MEMCNT falls. A
complete atomic returns in the same order (R52, R199). -/
def execLoadResultReturn (core team i : Nat) (s : State) : Res :=
  match s.team core team with
  | none => .next s
  | some tm => match tm.pend[i]? with
    | none => .next s
    | some p => match p.kind with
      | .load _ _ _ _ _ _ _ _ _ => .next (s.loadStep core team tm p false)
      | .atom 0 _ bad vals =>
        if tm.firstOf p then
          match bad, p.dests with
          | false, .v d :: _ => .next (s.modTeam core team fun tm => (tm.landV p d vals).endPend p)
          | _, _ => .next (s.modTeam core team fun tm => tm.endPend p)
        else .next s
      | .pgtest d vals => .next (s.modTeam core team fun tm => (tm.landP p d vals).dropPend p.seq)
      | _ => .next s

/-- `SUBARRAY_ACCESS_SERVE`: a subarray serves outstanding load i, whose lanes are in the scratchpad, in its order (R282). -/
def execSubarrayAccessServe (core team i : Nat) (s : State) : Res :=
  match s.team core team with
  | none => .next s
  | some tm => match tm.pend[i]? with
    | none => .next s
    | some p => match p.kind with
      | .load lanes _ _ _ _ _ _ _ none =>
        if lanes.all fun a => match a.loc with | .sp _ _ => true | .pa _ => false then .next (s.loadStep core team tm p true)
        else .next s
      | _ => .next s

/-- The flags of a special function's lanes that still run (R76, R165). -/
def Team.spfFlags (tm : Team) (d : Nat) (flags : List (Nat × Nat)) : Nat :=
  if 8 * tm.G ≤ d then 0 else flagsOf ((flags.filter fun x => !laneIn tm.exited x.1).map fun x => x.2)
/-- `SPECIAL_FUNCTION_COMPLETE`: the result of outstanding special function i is written and the flags of what it writes land (R76, R185). -/
def execSpecialFunctionComplete (core team i : Nat) (s : State) : Res :=
  match s.team core team with
  | none => .next s
  | some tm => match tm.pend[i]? with
    | none => .next s
    | some p => match p.kind with
      | .spf d vals flags => .next (s.modTeam core team fun tm => ((tm.landV p d vals).orFlags (tm.spfFlags d flags)).dropPend p.seq)
      | _ => .next s

/-! ### Stores and atomics (R103, R104, R109, R111, R197 to R199) -/

/-- An earlier load of the team that has still to read bytes of a store holds the store back, so that it reads what it should. -/
def Team.loadBefore (tm : Team) (r : StReq) : Bool := tm.pend.any fun p => decide (p.seq < r.seq) && match p.kind with
  | .load lanes n _ _ _ _ _ _ none => lanes.any fun a => !a.absent && a.loc.meets n r.loc r.bytes.length
  | _ => false

/-- `STORE_BUFFER_DRAIN`: the oldest lane of a store or atomic leaves the team's store buffer: a scratchpad store lands, everything
else enters the core's write path (R101, R108, R109); a release waits for its cumulative set (R111). -/
def execStoreBufferDrain (core team : Nat) (s : State) : Res :=
  match s.block core, s.team core team with
  | some b, some tm => match tm.stb with
    | [] => .next s
    | r :: rest =>
      let rel := match r.rel with
        | some sc => s.released core team r.seq sc r.loc
        | none => true
      if !rel || tm.loadBefore r then .next s
      else
        let out := s.modTeam core team fun tm => { tm with stb := rest }
        match r.loc, r.atom with
        | .sp _ _, none =>
          if s.owned r.seq r.loc || s.spHeld r.loc r.bytes.length r.seq then .next s
          else
            let s := (out.writeFor b.vi r.loc r.bytes).noteLevel core team r.seq 1
            .next (if r.tag then s.setTagAt r.loc true else s)
        | .pa a, none =>
          let s := out.noteCode a r.bytes
          .next ((if tm.lifted then s else s.l1Store core a r.bytes).pushPath core r)
        | _, some _ => .next (out.pushPath core r)
  | _, _ => .next s

/-- The home of a request: a slice, the host link of the issuing cluster, or a subarray of the core's scratchpad (R87, R103, R104, R282). -/
def homeOf (core : Nat) : Loc → Nat × Nat
  | .pa a => if isHost a then (1, clusterOf core) else (0, homeSlice a)
  | .sp k o => (2, 64 * k + o / subBytes)
/-- An earlier request of the write path goes to the same home: requests to one home arrive in order; those to the scratchpad, whose subarrays serve in
issue order (R282), when they were issued in that order. -/
def State.pathHeld (s : State) (core i : Nat) (r : StReq) : Bool :=
  ((s.core core).path.take i).any fun q => homeOf core q.loc == homeOf core r.loc && match r.loc with
    | .pa _ => true
    | .sp _ _ => decide (q.seq < r.seq)
/-- Remove request i of a write path. -/
def State.popPath (s : State) (core i : Nat) : State := s.modCore core fun c => { c with path := dropNth c.path i }
/-- The slice keeps no copy of a host sector that a write passes through (R104). -/
def State.dropHost (s : State) (core : Nat) (l : Loc) : State :=
  match l with
  | .pa a => if isHost a then s.modCluster (clusterOf core) fun c => { c with hostl2 := AMap.erase c.hostl2 (a / 32) } else s
  | .sp _ _ => s

/-- `STORE_ACK`: the home of store i of a core's write path performs and acknowledges it (R94, R103, R104, R108). [log 2: DESIGN CHOICE] -/
def execStoreAck (core i : Nat) (s : State) : Res :=
  match s.block core, (s.core core).path[i]? with
  | some b, some r =>
    if r.atom.isSome || s.pathHeld core i r || s.owned r.seq r.loc then .next s
    else
      let tag := r.tag && !s.drops r.loc
      let level := match r.loc with | .pa a => homeLevel core a | .sp _ _ => 1
      let s := ((s.popPath core i).storeFor b.vi b.launch r.loc r.bytes).noteLevel core r.team r.seq level
      let s := if tag then s.setTagAt r.loc true else s
      .next (s.dropHost core r.loc)
  | _, _ => .next s

/-- The new value of an atomic (R198). -/
def atomNew (o : AtomOp) (old : Nat) : Nat :=
  let w := match o.ty with | .i64 | .n64 => 64 | _ => 32
  let sg := match o.ty with | .i32 | .i64 => true | _ => false
  let lt := fun (a b : Nat) => decide (intOf sg w a < intOf sg w b)
  match o.func with
  | 0 => (old + o.data) % 2 ^ w
  | 1 => if lt o.data old then o.data else old
  | 2 => if lt old o.data then o.data else old
  | 3 => Nat.land old o.data
  | 4 => Nat.lor old o.data
  | 5 => Nat.xor old o.data
  | 6 => o.data
  | 7 => if old = o.cmp then o.data else old
  | _ => (opAdd (fmtOf .f32) (.m .rne) old o.data).1

/-- One lane of an atomic has been performed: its old value is kept for its return (R199), or it has met poison (R371). -/
def Team.atomBack (tm : Team) (id : Nat) (x : Option (Nat × Word)) : Team :=
  tm.modPend id fun p => match p.kind with
    | .atom n acq bad vals => { p with kind := .atom (n - 1) acq (bad || x.isNone) (vals ++ x.toList) }
    | _ => p

/-- `ATOMIC_PERFORM`: lane request i of a core's write path is an atomic: one indivisible step at its home (R198, R199); an acquire
invalidates the L1 again before it reads (R110). Poisoned bytes halt its team and change nothing (R371). The L1 gives up the sector of its
bytes (log 11). [log 11: DESIGN CHOICE] -/
def execAtomicPerform (core i : Nat) (s : State) : Res :=
  match s.block core, (s.core core).path[i]? with
  | some b, some r => match r.atom with
    | none => .next s
    | some o =>
      let n := r.bytes.length
      let free := match r.loc with | .pa a => s.mayFill a n | .sp _ _ => true
      if s.pathHeld core i r || s.owned r.seq r.loc || s.spHeld r.loc n r.seq then .next s
      else if !free then .next (match r.loc with | .pa a => s.ask core a n | .sp _ _ => s)
      else
        let s := (s.popPath core i).noteLevel core r.team r.seq (match r.loc with | .pa a => s.homeReach core a n | .sp _ _ => 1)
        if s.poisonedAt r.loc n then
          let s := match (s.team core r.team).bind fun tm => tm.pendOf o.id with
            | some p => s.requestHalt core r.team (p.poison o.lane o.addr (match r.loc with | .sp _ _ => true | .pa _ => false))
            | none => s
          .next (s.modTeam core r.team fun tm => tm.atomBack o.id none)
        else
          let s := match r.loc with | .pa a => s.l2Fill a n | .sp _ _ => s
          let old := leNat (s.readLoc r.loc n)
          let back : Word := BitVec.ofNat 64 (match o.ty with | .i32 => wrap 64 (sgn 32 old) | _ => old)
          let s := (s.storeFor b.vi b.launch r.loc (bytesOf n (atomNew o old))).dropHost core r.loc
          let s := match r.loc with | .pa a => s.l1Drop core a | .sp _ _ => s
          let acq := ((s.team core r.team).bind fun tm => tm.pendOf o.id).any fun p => match p.kind with | .atom _ a _ _ => a | _ => false
          let s := if acq then (s.dropL1 core).modCluster (clusterOf core) fun c => { c with hostl2 := [] } else s
          .next (s.modTeam core r.team fun tm => tm.atomBack o.id (some (o.lane, back)))
  | _, _ => .next s

/-! ### Translation (R85, R88, R89, R92, R366 to R368) -/

/-- A team's walk ends on a page that is not resident, or not writable (R92, R367): the team parks and the page is requested. [log 27: DEDUCED] [log 52: DEDUCED] -/
def State.parkTeam (s : State) (k : Nat) (b : Block) (w : Walk) : State :=
  match s.team k w.team with
  | none => s
  | some tm =>
    if tm.halted || (tm.park.any fun p => p.va / 65536 == w.va / 65536 && (p.wr || !w.wr)) then s
    else (s.postPage b.vi 1 w.wr w.va w.asid k w.team).modTeam k w.team fun tm => { tm with park := tm.park ++ [{ va := w.va, wr := w.wr }] }

/-- `PAGE_WALK`: walk i of a core completes: A and D are set and the TLB filled; when GEN or ISEQ has changed the fill is dropped and the
access walks again (R85, R88, R368). [log 18: DEDUCED] -/
def execPageWalk (core i : Nat) (s : State) : Res :=
  match s.block core, (s.core core).walks[i]? with
  | some b, some w =>
    if !s.mayWalk w.asid w.va then .next (s.askWalk core w.asid w.va)
    else
    let s := (s.modCore core fun c => { c with walks := dropNth c.walks i }).fillWalk w.asid w.va
    let sp := s.space w.asid
    if sp.gen ≠ w.gen ∨ sp.iseq ≠ w.iseq then
      match s.walk w.asid w.va with
      | .leaf _ _ wOk _ path => .next (s.setAD w.asid path (w.wr && wOk))
      | _ => .next s
    else
      let absent : State :=
        if w.team = 64 then
          (s.enginePages core b false [w.va]).modSeq core fun q => { q with fetchWait := some (w.va / 65536) }
        else s.parkTeam core b w
      match s.walk w.asid w.va with
      | .absent => .next absent
      | .bad poison =>
        let code := if poison then 0x19 else 0x15
        if w.team = 64 then .next (s.streamFault core code w.va 0xFF)
        else match (s.team core w.team).bind fun tm => (tm.frag w.csn).map fun f => (tm, f) with
          | none => .next s
          | some (tm, f) =>
            if w.fetch then .next (s.fetchHalt core w.team f w.va code)
            else .next (s.haltNow core w.team
              { code, aux := w.aux, pc := f.pc + wordLen w.word, word := w.word, lane := lowLane f.mask
                fault := some (faultWord w.va false w.cap), hnd := tm.handler })
      | .leaf l fr wOk d path =>
        if w.wr && !wOk then .next (State.parkTeam (s.setAD w.asid path false) core b w)
        else
          let s := s.setAD w.asid path w.wr
          let e := leafEntry s w.asid w.va l fr wOk (d || w.wr)
          match s.team core w.team with
          | some tm => .next (s.fillTeamTlb core tm e)
          | none => .next (s.modCore core fun x => { x with tlb := tlbFillWays x.tlb e })
  | _, _ => .next s

/-- The pages of a span, in order. -/
def spanPages (x : Nat × Nat) : List Nat := (pieces x.1 x.2).map fun p => p.1 % 2 ^ 57 / 65536
/-- What an agent has presented to a walk-ahead TLB (R89): its space, whether it writes, and the pages of its next 16 tiles in the order in which
it uses them. -/
structure Window where
  asid : Nat
  wr : Bool
  pages : List Nat
/-- The windows of the matrix engine of a core: the operands of the running and the accepted `m.mma`, and its transfers. -/
def State.tileWindows (s : State) (k : Nat) : List Window :=
  match s.block k, s.seq k with
  | some b, some q =>
    let rows := fun (t : Tile) (sp : Nat → List (Nat × Nat)) (r : Nat) =>
      if capKind t.cap = 1 then [] else (upto r (t.rows - r)).flatMap fun i => (sp i).flatMap spanPages
    let mmas := (q.running.toList ++ q.accepted.toList).flatMap fun m =>
      [m.ta, m.tb].map fun t => { asid := b.asid, wr := false, pages := rows t (t.spans m.ty m.ta.cols) 0 : Window }
    mmas ++ q.xfers.map fun x => { asid := b.asid, wr := x.store, pages := rows x.tile (fun i => [x.span i]) x.row }
  | _, _ => []
/-- The windows of the copy engine of a slice: the next 16 pages that its started packets read, and that they write. -/
def State.packetWindows (s : State) (slice : Nat) : List Window :=
  s.slots.flatMap fun x => match x.2.started with
    | none => []
    | some st =>
      if x.2.engine != slice then []
      else
        let reads := st.moves.flatMap fun m => m.src.elim [] fun a => spanPages (a, m.n)
        let writes := st.moves.flatMap fun m => spanPages (m.dst, m.n)
        (if pkSsp st.pkt then [] else [{ asid := x.2.asid, wr := false, pages := reads.take 16 }])
          ++ (if pkDsp st.pkt || pkDrem st.pkt then [] else [{ asid := x.2.asid, wr := true, pages := writes.take 16 }])
/-- The windows of the set unit of a slice: the next 16 pages of the far bodies of its operations. -/
def State.setWindows (s : State) (slice : Nat) : List Window :=
  (s.cluster slice).setq.filterMap fun o => ((s.cluster slice).sets.filter fun x => x.2.hdrVa == o.va && x.2.asid == o.asid).head?.bind fun x =>
    if isFar x.2.bytes then some { asid := o.asid, wr := !o.req.isQuery, pages := (spanPages (o.va + 64, x.2.bytes)).take 16 } else none
/-- A page is the next one of a window: those before it in the window are in the TLB, or are not resident. -/
def State.nextOf (s : State) (cluster : Nat) (w : Window) (asid page : Nat) (wr : Bool) : Bool :=
  w.asid == asid && w.wr == wr && w.pages.contains page
    && (w.pages.takeWhile fun p => p != page).all fun p => (tlbHit s (s.cluster cluster).wtlb asid (65536 * p)).isSome
      || (match s.walk asid (65536 * p) with | .leaf _ _ _ _ _ => false | _ => true)
/-- The walk-ahead TLB of a cluster may walk a page ahead of use (R89). [log 11: DESIGN CHOICE] -/
def State.presented (s : State) (cluster asid page : Nat) (wr : Bool) : Bool :=
  ((upto (4 * cluster) 4).flatMap s.tileWindows ++ s.packetWindows cluster ++ s.setWindows cluster).any fun w => s.nextOf cluster w asid page wr

/-- `WALK_AHEAD_PREFETCH`: the walk-ahead TLB walks the next page of a record that an agent of its cluster has presented (R89). D is set by
the write itself (R85). -/
def execWalkAheadPrefetch (cluster va asid : Nat) (wr : Bool) (s : State) : Res :=
  if s.presented cluster asid (va % 2 ^ 57 / 65536) wr then .next (s.engineXlat cluster asid (va % 2 ^ 57) false).2
  else .next s

end Sys2Proof.Machine
end

