-- ==== Sys2Proof/Machine/FailEvents.lean ====
section
/-!
DEFINITION. Sys2Proof/Machine/FailEvents.lean: errors that cannot be corrected, halt requests and halts, watchdogs, in-field tests, samples and
trace frames, and the turn of a stack core (R296, R347 to R352, R357 to R361, R370, R371, R386, R411 to R416).
-/

namespace Sys2Proof.Machine

/-! ### Uncorrectable data (R370, R371) -/

/-- A register other than a vector register holds an uncorrectable word. -/
def Team.corrupt (tm : Team) (r : RegRef) : Team := if tm.rpoison.contains r then tm else { tm with rpoison := tm.rpoison ++ [r] }
/-- The near body of a set in the set store is bad (R399). -/
def State.breakSet (s : State) (slice hdr : Nat) : State :=
  s.modCluster slice fun c =>
    { c with sets := AMap.modify c.sets hdr fun o => if o.inStore && !isFar o.bytes then { o with broken := true } else o }
/-- `ECC_UNCORRECTABLE`: the storage unit that holds the error is poisoned; an L1 line is invalidated instead. A word of a set body in the set
store breaks its set when it is read, and so does a latch error of a set-store subarray, which has its entry (R399, R402, R416). [log 54: DEDUCED] -/
def execEccUncorrectable (unit : ErrUnit) (s : State) : Res :=
  match unit with
  | .mem pa => .next (s.poisonAt (.pa pa) 1)
  | .sp core off => .next (s.poisonAt (.sp core off) 1)
  | .l1 core pa => .next (s.modCore core fun c => { c with l1 := c.l1.filter fun x => x.1 / 8 != pa / 256 })
  | .vreg core team reg lane => .next (s.modTeam core team fun tm =>
      if tm.vpoison.contains (reg, lane) then tm else { tm with vpoison := tm.vpoison ++ [(reg, lane)] })
  | .sreg core team r => .next (s.modTeam core team fun tm => tm.corrupt (.s r))
  | .preg core team r => if r = 7 then .next s else .next (s.modTeam core team fun tm => tm.corrupt (.p r))
  | .creg core team r => .next (s.modTeam core team fun tm => tm.corrupt (.c r))
  | .acc core tile row col => .next (s.modSeq core fun q =>
      { q with accPoison := insSorted (accKey (tile % 4) (row % 128) (col % 128) / 2) q.accPoison })
  | .setStore slice hdr => .next (s.breakSet slice hdr)
  | .setLatch slice sub hdr => match s.setAt slice hdr with
    | none => .next s
    | some o =>
      if isFar o.bytes || !o.inStore then .next s
      else .next ((s.breakSet slice hdr).postFault (o.asid / 16) 8 0x35 (sourceOf 3 slice) 0 [sub % 16, 0, 0, 0, 0, 0] none none none)
/-- `POISON_WRITEBACK`: a poisoned unit that nothing has consumed is found, as a dirty sector of an L2 is when it is written back: a kind-4 entry
(R371, R379). The write-back of a sector is an ordinary access, which waits while its channel has claimed units (R308). -/
def execPoisonWriteback (unit : ErrUnit) (s : State) : Res :=
  match unit with
  | .mem pa =>
    if !s.mem.poison.contains (pa / 32) then .next s
    else if s.l2Dirty pa && !(s.channel (channelOf pa)).runs.isEmpty then .next (s.askWb (homeSlice pa) (pa / 32))
    else .next ((s.poisonEntry none (some (pa / 32 * 32)) (b01 (s.l2Dirty pa))).l2Clean pa)
  | .sp core off => match s.block core with
    | none => .next s
    | some b => if b.sp.poison.contains (off / 8) then .next (s.poisonEntry (some b.vi) none 2) else .next s
  | .setStore slice hdr => match s.setAt slice hdr with
    | none => .next s
    | some o => if o.broken && o.inStore && !isFar o.bytes then .next (s.poisonEntry (some (o.asid / 16)) none 3) else .next s
  | .l1 _ _ => .next s
  | .vreg _ _ _ _ => .next s
  | .sreg _ _ _ => .next s
  | .preg _ _ _ => .next s
  | .creg _ _ _ => .next s
  | .acc _ _ _ _ => .next s
  | .setLatch _ _ _ => .next s

/-! ### Checks on transactions (R381) -/

/-- The kind-5 entry of a transaction from slice `src` to slice `dst`, with the line's address; `ddev` names the device when it crosses the fabric
(R379). -/
def State.crcEntry (s : State) (vi source pa src dst : Nat) (ddev : Option Nat) : State :=
  s.postFault vi 5 0x0C source 0
    [pa / 256 * 256, src % 128 + dst % 128 * 2 ^ 7 + b01 ddev.isSome * 2 ^ 14 + ddev.getD 0 % 2 ^ 16 * 2 ^ 15, 0, 0, 0, 0] none none none
/-- The slice of a physical address: its home, or for host memory the slice that reaches it. -/
def sliceOf (pa near : Nat) : Nat := if isHost pa then near else homeSlice pa
/-- Where the next element or word of a packet goes. -/
def packetTarget (p : List Word) (got : List LineData) : Option (Nat × Nat) :=
  if pkKind p = 5 then got.head?.map fun d => (d.line, pkElem p)
  else if pkKind p = 8 then some (pkDst p, 8) else none
/-- A transaction of the engine of a queue to another slice is exhausted: the kind-5 entry, and its started packet fails with CRC. One within a
slice crosses nothing. -/
def State.crcFail (s : State) (slot : Nat) (st : Started) (pa src dst va : Nat) (far effect : Bool) : State :=
  if src = dst && !far then s
  else (s.crcEntry (slot / 32) (sourceOf 2 (s.slot slot).engine) pa src dst (if far then some (pkDdev st.pkt) else none)).failStarted
    slot { st with effect := st.effect || effect } 0x0C va false
/-- The next line, element or word of a queue's started packet is exhausted on its way to its home: its units become poison. [log 47: DESIGN CHOICE] -/
def State.crcQueue (s : State) (slot : Nat) : State :=
  let q := s.slot slot
  let vi := slot / 32
  match q.started with
  | none => s
  | some st =>
    if st.wait.isSome || pkPriv st.pkt then s
    else match packetTarget st.pkt st.got, st.got with
      | some (va, n), _ =>
        if pkKind st.pkt = 8 ∧ st.expanded then s
        else if pkDrem st.pkt then s.crcFail slot st 0 q.engine 0 (va % 2 ^ 57) true false
        else match s.engineXlat q.engine q.asid (va % 2 ^ 57) true with
          | (.ok pa, s') =>
            if sliceOf pa q.engine = q.engine then s
            else (s'.poisonAt (.pa pa) n).crcFail slot st pa q.engine (sliceOf pa q.engine) (va % 2 ^ 57) false true
          | (_, _) => s
      | none, [] => s
      | none, d :: _ =>
        let bad := d.bytes.map fun x => (x.1, x.2.1, true)
        let va := 256 * d.line % 2 ^ 57
        if pkDrem st.pkt then s.crcFail slot st 0 q.engine 0 va true false
        else if pkDsp st.pkt then
          match s.landSp vi (pkSpcore st.pkt) d.line st.issueNo bad, s.named vi (pkSpcore st.pkt) with
          | .ok s', some (.on k) => if clusterOf k = q.engine then s else s'.crcFail slot st 0 q.engine (clusterOf k) va false true
          | _, _ => s
        else match (s.engineXlat q.engine q.asid va true).1, s.landVa st.issueNo q.engine q.asid d.line bad with
          | .ok pa, .ok s' =>
            if sliceOf pa q.engine = q.engine then s else s'.crcFail slot st pa q.engine (sliceOf pa q.engine) va false true
          | _, _ => s
/-- What the engine of a queue reads next for its started packet is exhausted on its way from its home: the packet fails. [log 47: DESIGN CHOICE] -/
def State.crcSource (s : State) (slot : Nat) : State :=
  let q := s.slot slot
  match q.started with
  | none => s
  | some st =>
    if !st.expanded || st.wait.isSome then s
    else match st.moves.head?.bind Move.src with
      | none => s
      | some a =>
        if pkSsp st.pkt then match s.named (slot / 32) (pkSpcore st.pkt) with
          | some (.on k) => s.crcFail slot st 0 (clusterOf k) q.engine a false false
          | _ => s
        else match s.engineXlat q.engine q.asid (a % 2 ^ 57) false with
          | (.ok pa, _) => s.crcFail slot st pa (sliceOf pa q.engine) q.engine (a % 2 ^ 57) false false
          | (_, _) => s
/-- The addition to a completion word is exhausted on its way to the word's home, of a queue's started packet or of its launch that completes next:
the word becomes poison. [log 47: DESIGN CHOICE] -/
def State.crcWord (s : State) (slot : Nat) : State :=
  let q := s.slot slot
  let at_ := fun (va : Nat) (go : State → Nat → State) => match s.engineXlat q.engine q.asid va true with
    | (.ok pa, s') => if sliceOf pa q.engine = q.engine then s else go (s'.poisonAt (.pa pa) 8) pa
    | (_, _) => s
  match q.started with
  | some st =>
    if !(if pkPriv st.pkt then st.expanded && !st.acked else st.performed && st.poisoned.isNone) then s
    else match pkWord st.pkt with
      | none => s
      | some va => at_ va fun s pa => s.crcFail slot st pa q.engine (sliceOf pa q.engine) va false true
  | none => match q.launches.find? Launch.due with
    | none => s
    | some l =>
      if lpDkind l.pkt != 1 || l.fail.isSome || q.actionHeld then s
      else at_ (lpDaddr l.pkt) fun s pa =>
        (s.crcEntry (slot / 32) (sourceOf 2 q.engine) pa q.engine (sliceOf pa q.engine) none).launchFails slot l 0x0C (lpDaddr l.pkt)
/-- A transaction of an inbound packet is exhausted: its units become poison, and the peer is told so. [log 47: DESIGN CHOICE] -/
def State.crcInbound (s : State) (i : Nat) : State :=
  match s.inbound[i]? with
  | none => s
  | some x =>
    match (if pkKind x.pkt = 8 then some (pkDst x.pkt, 8) else x.moves.head?.map fun m => (m.dst, min m.n (256 - m.dst % 256))) with
    | none => s
    | some (va, n) => match s.engineXlat x.engine x.asid (va % 2 ^ 57) true with
      | (.ok pa, s') =>
        if sliceOf pa x.engine = x.engine then s
        else ((s'.poisonAt (.pa pa) n).crcEntry x.vi (sourceOf 2 x.engine) pa x.engine (sliceOf pa x.engine) none).rejectInbound i x
      | (_, _) => s
/-- An entry of a core's write path is exhausted: a store ends with its units poisoned, an atomic meets the poison when it performs (R371).
[log 47: DESIGN CHOICE] -/
def State.crcPath (s : State) (core i : Nat) : State :=
  match s.block core, (s.core core).path[i]? with
  | some b, some r => match r.loc with
    | .sp _ _ => s
    | .pa pa =>
      if sliceOf pa (clusterOf core) = clusterOf core then s
      else
        let s := s.poisonAt (.pa pa) (max 1 r.bytes.length)
        let s := if r.atom.isSome then s else (s.modCore core fun c => { c with path := dropNth c.path i }).dropL1 core
        s.crcEntry b.vi (sourceOf 0 (4 * core + r.team % 4)) pa (clusterOf core) (sliceOf pa (clusterOf core)) none
  | _, _ => s
/-- A line that a slice holds as a caching agent, the header of a set of its own, is exhausted on its way back to its home when it is recalled: its
units become poison (R252). [log 47: DESIGN CHOICE] -/
def State.crcRecall (s : State) (slice hdr : Nat) : State :=
  match s.setAt slice hdr with
  | none => s
  | some o =>
    if sliceOf hdr slice = slice then s
    else (s.poisonAt (.pa hdr) 64).crcEntry (o.asid / 16) (sourceOf 3 slice) hdr slice (sliceOf hdr slice) none
/-- `CRC_RETRY`: a copy of a transaction between two slices has mismatched for the `count`-th time: the first three change only timing; after
the fourth the receiver holds its units poisoned, a kind-5 entry is posted, and a copy engine's packet that it carries fails with CRC. A sector
on its way to a core's L1 is invalidated there and filled again. Where both slices are one, nothing crosses (R370, R381). [log 47: DESIGN CHOICE] -/
def execCrcRetry (tx : CrcTx) (count : Nat) (s : State) : Res :=
  if count < 4 then .next s
  else match tx with
    | .queue slot => .next (s.crcQueue slot)
    | .source slot => .next (s.crcSource slot)
    | .word slot => .next (s.crcWord slot)
    | .inbound i => .next (s.crcInbound i)
    | .path core i => .next (s.crcPath core i)
    | .recall slice hdr => .next (s.crcRecall slice hdr)
    | .fill core pa => match s.block core with
      | none => .next s
      | some b =>
        if sliceOf pa (clusterOf core) = clusterOf core then .next s
        else .next ((s.l1Drop core pa).crcEntry b.vi (sourceOf 0 (4 * core)) pa (sliceOf pa (clusterOf core)) (clusterOf core) none)
    | .writeBack slice pa =>
      if sliceOf pa slice = slice then .next s
      else
        let (source, s) := s.freeSource
        let vi := Config.freeNat s.freeIx % Config.interfaces
        .next (({ s.poisonAt (.pa pa) 1 with freeIx := s.freeIx + 1 }).crcEntry vi source pa slice (sliceOf pa slice) none)

/-! ### Halts (R347 to R349, R386) -/

/-- The first halt request that has not reached its team yet, reaches it. -/
def reachFirst (handler : Bool) : List HaltReq → List HaltReq
  | [] => []
  | r :: rs => match r.reached with
    | none => { r with reached := some (handler && !r.hnd) } :: rs
    | some _ => r :: reachFirst handler rs
/-- `HALT_REQUEST`: a halt request reaches its team: outside handler mode, or for an instruction of the handler, it halts the team on the next
clock; any other is held until `eret` (R349). -/
def execHaltRequest (core team : Nat) (s : State) : Res :=
  .next (s.modTeam core team fun tm => { tm with haltReqs := reachFirst tm.handler tm.haltReqs })
/-- `TEAM_HALT`: a request that is not held halts its team (R347, R349). [log 38: DEDUCED] -/
def execTeamHalt (core team : Nat) (s : State) : Res :=
  match s.team core team with
  | none => .next s
  | some tm => match tm.haltReqs.find? fun r => r.reached == some false with
    | none => .next s
    | some r => .next (s.landHalt core team r r.hnd)
/-- `WATCHDOG_EXPIRY`: on the 2^32-th counted clock the team receives a halt request with WDOG (R352). [log 36: DESIGN CHOICE] [log 39: DESIGN CHOICE] -/
def execWatchdogExpiry (core team : Nat) (s : State) : Res :=
  match s.block core, s.team core team with
  | some b, some tm =>
    if tm.wd ≤ Config.wdMax then .next s
    else
      let (r, s) := s.freeReport 0x09 none false
      let s := s.modTeam core team fun tm => { tm with wd := Config.wdMax }
      .next ((s.requestHalt core team r).traceRec b.vi (teamSource core team tm) 12 [team % 64 + core % 512 * 2 ^ 6])
  | _, _ => .next s

/-! ### In-field tests (R411 to R415) -/

/-- The clock has passed a time by n clocks. -/
def State.passed (s : State) (since n : Nat) : Bool :=
  let d := (s.clock + 2 ^ 64 - since % 2 ^ 64) % 2 ^ 64
  decide (n ≤ d) && decide (d < 2 ^ 63)
/-- The cores of a cluster. -/
def clusterCores (c : Nat) : List Nat := upto (4 * c) 4
/-- The due clock of the next test of a cluster (R411). [log 49: DESIGN CHOICE] -/
def State.nextDue (s : State) (c : Nat) : Nat := ((s.cluster c).nextTest + 1) * s.image.ti + 2 ^ 26 * c
/-- `TEST_DUE`: a test falls due; from here on no core of the cluster takes a block. [log 49: DESIGN CHOICE] -/
def execTestDue (cluster : Nat) (s : State) : Res :=
  if s.power ≠ .booted ∨ (s.cluster cluster).test.isSome ∨ Config.clusters ≤ cluster ∨ !s.passed (s.nextDue cluster) 0 then .next s
  else
    let vis := (clusterCores cluster).foldl (fun l k => match s.block k with | some b => insSorted b.vi l | none => l) []
    .next (s.modCluster cluster fun c => { c with test := some { due := s.nextDue cluster, requested := none, run := none, interfaces := vis } })
/-- A block does not delay the request of a test: no fragment spins, no team is lifted or in handler mode, no partition is stopped (R412). -/
def Block.testable (b : Block) : Bool :=
  (b.teams.all fun x => x.2.finished || x.2.halted ||
      (!x.2.handler && x.2.stackCoreOf.isNone && x.2.frags.all fun f => !f.spin)) && b.parts.all fun p => p.2.stopped.isNone
/-- The blocks that a test of a cluster moves: those on it, with the rest of their fused gangs (R61). -/
def State.testBlocks (s : State) (cluster : Nat) : List Nat :=
  (clusterCores cluster).foldl (fun l k => match s.block k with
    | none => l
    | some b => (s.together k b).foldl (fun l j => insSorted j l) l) []
/-- `TEST_REQUEST`: the request is raised, for every block on the cluster (R412). -/
def execTestRequest (cluster : Nat) (s : State) : Res :=
  match (s.cluster cluster).test with
  | none => .next s
  | some t =>
    if t.requested.isSome || !((clusterCores cluster).all fun k => (s.block k).all Block.testable) then .next s
    else
      let s := s.modCluster cluster fun c => { c with test := some { t with requested := some s.clock } }
      .next ((s.testBlocks cluster).foldl (fun s k => s.modBlock k fun b => b.stopFor fun b => { b with testReq := true }) s)
/-- `TEST_RUN`: every block on the cluster is at a safe point, or there is none: they are saved, and the test starts (R413). [log 49: DESIGN CHOICE] -/
def execTestRun (cluster : Nat) (s : State) : Res :=
  match (s.cluster cluster).test with
  | none => .next s
  | some t =>
    if t.requested.isNone || t.run.isSome then .next s
    else
      let ks := s.testBlocks cluster
      let gangs := ks.filterMap fun k => match s.block k with
        | some b => if b.fused then some b.gang else none
        | none => none
      match s.saveAll ks with
      | none => .next s
      | some (.next s) =>
        let s := gangs.foldl State.unreserve s
        .next (s.modCluster cluster fun c => { c with test := some { t with run := some s.clock } })
      | some r => r
/-- The kind-12 entry of a test, at every interface that had a block on the cluster when it fell due (R415, R416). -/
def State.postTest (s : State) (cluster : Nat) (t : Test) (result failed clocks : Nat) : State :=
  t.interfaces.foldl (fun s vi =>
    s.postFault vi 12 0 ringmaster 0 [cluster, result + failed * 2 ^ 4, clocks % 2 ^ 64, 0, 0, 0] none none none) s
/-- A test ends; the next one falls due TI clocks after it. -/
def State.endTest (s : State) (cluster : Nat) : State :=
  s.modCluster cluster fun c => { c with test := none, nextTest := c.nextTest + 1 }
/-- `TEST_COMPLETE`: 2^22 clocks after it started a test ends; failed cores leave service, and launches that could never fit fail (R413, R415,
R376). -/
def execTestComplete (cluster : Nat) (failed : BitVec 4) (s : State) : Res :=
  match (s.cluster cluster).test with
  | none => .next s
  | some t => match t.run with
    | none => .next s
    | some c =>
      if !s.passed c (2 ^ 22) then .next s
      else
        let clocks := (t.requested.getD t.due + 2 ^ 64 - t.due % 2 ^ 64) % 2 ^ 64
        let bad := failed.toNat
        let s := s.postTest cluster t (if bad = 0 then 0 else 2) bad clocks
        let s := (s.endTest cluster)
        let s := (clusterCores cluster).foldl (fun s k =>
          if bit bad (k % 4) then s.modCore k fun c => { c with outOfService := true } else s) s
        .next (if bad = 0 then s else s.failMisfits)
/-- A test request is withdrawn from the blocks that no other test asks to stop: fragments parked at `safept` go on, unless a pre-emption request
is pending (R412, R414). -/
def State.withdraw (s : State) (ks : List Nat) : State :=
  ks.foldl (fun s k => match s.block k with
    | none => s
    | some b =>
      let other := (s.together k b).any fun j => ((s.cluster (clusterOf j)).test.any fun t => t.requested.isSome)
      if other then s
      else s.modBlock k fun b =>
        let b := { b with testReq := false }
        if b.request.isSome then b
        else
          { b with
            seq := b.seq.map fun q => { q with stop := false }
            teams := b.teams.map fun x => (x.1, { x.2 with frags := x.2.frags.map fun f => { f with safe := false } }) }) s
/-- `TEST_SKIP`: 2^30 clocks after the due clock a test that has not started is skipped (R414). -/
def execTestSkip (cluster : Nat) (s : State) : Res :=
  match (s.cluster cluster).test with
  | none => .next s
  | some t =>
    if t.run.isSome || !s.passed t.due Config.testSkipClocks then .next s
    else
      let ks := s.testBlocks cluster
      let clocks := (s.clock + 2 ^ 64 - t.due % 2 ^ 64) % 2 ^ 64
      let s := s.postTest cluster t 1 0 clocks
      .next ((s.endTest cluster).withdraw ks)

/-! ### Samples and trace frames (R357 to R361) -/

/-- The record of a tagged instruction, with the furthest level that it has reached; the spec leaves its latencies to the run
(log 9). [log 55: DEDUCED] -/
def sampleRec (t : Tagged) (ix : Nat) : List Nat :=
  let free := fun (i n : Nat) => if t.trapped then 0 else Config.freeNat (ix + i) % n
  let major := (t.word.extractLsb' 58 6).toNat
  [t.pc % 2 ^ 57 + t.team % 64 * 2 ^ 57 + b01 t.trapped * 2 ^ 63,
    Config.freeNat ix % 2 ^ 16 + Config.freeNat (ix + 1) % 2 ^ 16 * 2 ^ 16 + free 2 (2 ^ 16) * 2 ^ 32 + free 3 (2 ^ 16) * 2 ^ 48,
    (if t.result then free 4 (2 ^ 16) else 0) + (if t.trapped then 0 else t.level) * 2 ^ 16 + major * 2 ^ 20
      + (t.word.extractLsb' 52 6).toNat * 2 ^ 26 + t.mask % 2 ^ 32 * 2 ^ 32, 0]
/-- Work of order number n of a team: an outstanding instruction, a store in its buffer, or a claim. -/
def Team.worksOn (tm : Team) (n : Nat) : Bool :=
  (tm.pendOf n).isSome || (tm.stb.any fun r => r.seq == n) || tm.claim.any fun c => c.seq == n
/-- A tagged instruction is still in flight: something that it has started is outstanding, in a store buffer, on a path, or a claim, in
its core or in a block that has been saved (R361). -/
def State.inFlight (s : State) (t : Tagged) : Bool :=
  !t.trapped && t.seqs.any fun n =>
    ((s.team t.core t.team).any fun tm => tm.worksOn n) || ((s.core t.core).path.any fun r => r.seq == n)
      || s.saved.any fun v => (v.path.any fun r => r.seq == n) || v.block.teams.any fun x => x.2.worksOn n
/-- A sampler's record is written: its next window starts. -/
def Sampler.next (q : Sampler) : Sampler := { windows := q.windows + 1, issued := 0, tag := none }
/-- `SAMPLE_RECORD_WRITE`: the record of the instruction that a partition has tagged, once it is no longer in flight; core 512 + i names stack
core i (R361). -/
def execSampleRecordWrite (core part : Nat) (s : State) : Res :=
  let p := part % 4
  let q := if core < Config.cores then AMap.get Sampler.init (s.core core).samplers p else (s.stackCore (core - Config.cores)).sampler
  match q.tag with
  | none => .next s
  | some t =>
    if s.inFlight t then .next s
    else
    let source := if core < Config.cores then sourceOf 0 (4 * core + p) else sourceOf 6 (core - Config.cores)
    let s := s.traceRec t.vi source 6 (sampleRec t s.freeIx)
    let s : State := { s with freeIx := s.freeIx + 5 }
    .next (if core < Config.cores then
        s.modCore core fun c => { c with samplers := AMap.set Sampler.init c.samplers p q.next }
      else s.modStackCore (core - Config.cores) fun c => { c with sampler := q.next })

/-- A record after one of stamp `prev` in a frame, none when its delta does not fit (R359). -/
def recBytes (prev : Option Nat) (r : TraceRec) : Option (List Byte) :=
  let d := match prev with
    | none => 0
    | some p => (r.stamp + 2 ^ 64 - p) % 2 ^ 64
  if 65535 < d then none
  else
    let n := if d = 0 then 0 else if d < 256 then 1 else 2
    some (bytesOf 1 (r.kind * 16 + n * 4) ++ bytesOf n d ++ r.payload.flatMap fun w => bytesOf 8 w.toNat)
/-- As many records of a list as a frame holds: their bytes and their number. -/
def fillFrame : List TraceRec → Option Nat → List Byte → Nat → List Byte × Nat
  | [], _, xs, n => (xs, n)
  | r :: rs, prev, xs, n => match recBytes prev r with
    | none => (xs, n)
    | some ys => if xs.length + ys.length ≤ 240 then fillFrame rs (some r.stamp) (xs ++ ys) (n + 1) else (xs, n)
/-- The frame of 256 bytes that holds the first records of one source, and how many it holds (R358, R359). -/
def frameOf (rs : List TraceRec) : List Byte × Nat :=
  match rs with
  | [] => ([], 0)
  | r :: _ =>
    let (body, n) := fillFrame rs none [] 0
    (bytesOf 8 r.stamp ++ bytesOf 8 (r.source % 65536 + n % 256 * 2 ^ 16) ++ body ++ (upto 0 (240 - body.length)).map (fun _ => 0), n)
/-- Remove the first n records of a source and an interface. -/
def dropRecs (vi source : Nat) : Nat → List TraceRec → List TraceRec
  | 0, l => l
  | _ + 1, [] => []
  | n + 1, r :: rs => if r.vi = vi ∧ r.source = source then dropRecs vi source n rs else r :: dropRecs vi source (n + 1) rs
/-- `TRACE_FRAME_WRITE`: the oldest unwritten records of the source of record i, none beyond it, are written as a frame, or dropped (R358). A
source that could write only after waiting drops its frame. Writes to host memory while the link is down are dropped and counted (R382). -/
def execTraceFrameWrite (i : Nat) (drop : Bool) (s : State) : Res :=
  match s.trace[i]? with
  | none => .next s
  | some r0 =>
    let vi := r0.vi
    let mine := (s.trace.take (i + 1)).filter fun r => r.vi == vi && r.source == r0.source
    let (bytes, n) := frameOf mine
    let f := s.iface vi
    let base := s.traceBase vi
    let a := base + 256 + 256 * (f.frames % (2 ^ traceBits s.image vi / 256 - 1))
    let s : State := { s with trace := dropRecs vi r0.source n s.trace }
    if !s.traceOk vi then .fault .noSuchAddress
    else if drop || s.owned s.seqNo (.pa a) || s.owned s.seqNo (.pa base) then
      .next ((s.modIface vi fun f => { f with dropped := f.dropped + 1 }).traceHeader vi)
    else
      let s := s.writeFor vi (.pa a) bytes
      .next ((s.modIface vi fun f => { f with frames := f.frames + 1 }).traceHeader vi)

/-! ### Stack cores (R296) -/

/-- `STACK_CORE_ISSUE`: a stack core picks a fragment of its lifted teams and issues it: that is its next turn (log 1). -/
def execStackCoreIssue (stack n : Nat) (s : State) : Res :=
  .next { s with agenda := .stackCore (4 * (stack % 16) + n % 4) :: s.agenda }

end Sys2Proof.Machine
end

