-- ==== Sys2Proof/Machine/HostEvents.lean ====
section
/-!
DEFINITION. Sys2Proof/Machine/HostEvents.lean: the host's control pages, rings and aperture, re-synchronisation, power and the Tylas link
(R83, R97, R208, R219, R295, R324 to R330, R333, R355, R360, R371, R375, R378 to R384).
-/

namespace Sys2Proof.Machine

/-- A physical address at which the device writes for the driver waits for an engine that owns its line (R113). [log 50: DESIGN CHOICE] -/
def State.lineBusy (s : State) (pa : Nat) : Bool := s.owned s.seqNo (.pa pa)

/-! ### The rings (R219, R328, R378 to R380) -/

/-- The V bit of ring entry w: 1 on even laps (R328). -/
def ringV (w log : Nat) : Nat := b01 (w / 2 ^ log % 2 == 0)
/-- Address of ring entry w. -/
def ringAt (r : Word) (size w : Nat) : Nat := ringBase r + size * (w % 2 ^ ringLog r)
/-- The entry that is written next: the lowest STAMP, then the lowest SOURCE (R380). -/
def firstEntry : List FaultEntry → Nat → Option (Nat × FaultEntry)
  | [], _ => none
  | e :: es, i => match firstEntry es (i + 1) with
    | none => some (i, e)
    | some (j, f) => if e.stamp * 2 ^ 16 + e.source ≤ f.stamp * 2 ^ 16 + f.source then some (i, e) else some (j, f)
/-- A partition goes on after a debug stop (R355). -/
def State.releaseStop (s : State) (k p : Nat) : State :=
  match s.block k with
  | none => s
  | some b => match (b.part p).stopped with
    | none => s
    | some n => (s.modBlock k fun b => b.modPart p fun q => { q with stopped := none }).traceRec b.vi (sourceOf 0 (4 * k + p)) 5
        [n % 2 ^ 32 + 2 ^ 32]
/-- What follows the writing of an entry (R355, R375, R380). -/
def State.afterEntry (s : State) (vi : Nat) (e : FaultEntry) : State :=
  let s := match e.app with
    | some (asid, hdr, w) => s.appDone asid hdr w
    | none => s
  match e.part with
  | some kp => if bit (s.iface vi).victl.toNat 1 then s else s.releaseStop (kp / 4) (kp % 4)
  | none => s
/-- `FAULT_ENTRY_WRITE`: the next fault-ring entry of an interface is written, once there is room (R328, R378, R380). [log 50: DESIGN CHOICE] -/
def execFaultEntryWrite (vi : Nat) (s : State) : Res :=
  let i := s.iface vi
  match firstEntry i.faults 0 with
  | none => .next s
  | some (j, e) =>
    if !ringRoom i.frbase i.frwidx i.frridx s.linkUp then .next (s.holdFaults vi)
    else
      let a := ringAt i.frbase 64 i.frwidx
      if !paOk a then .fault .noSuchAddress
      else if s.lineBusy a then .next s
      else
        let dw7 := e.stamp % 2 ^ 63 + ringV i.frwidx (ringLog i.frbase) * 2 ^ 63
        let s := s.writeLoc (.pa a) ((e.dws.map BitVec.toNat ++ [dw7]).flatMap (bytesOf 8))
        let s := s.modIface vi fun i => { i with frwidx := (i.frwidx + 1) % 2 ^ 32, faults := dropNth i.faults j }
        .next ((s.afterEntry vi e).holdFaults vi)
/-- `PAGE_REQUEST_WRITE`: the oldest page-request record of an interface is written, once there is room (R219, R328). [log 50: DESIGN CHOICE] -/
def execPageRequestWrite (vi : Nat) (s : State) : Res :=
  let i := s.iface vi
  match i.pages with
  | [] => .next s
  | (d0, d1) :: rest =>
    if !ringRoom i.prbase i.prwidx i.prridx s.linkUp then .next s
    else
      let a := ringAt i.prbase 16 i.prwidx
      if !paOk a then .fault .noSuchAddress
      else if s.lineBusy a then .next s
      else
        let d0 := d0.toNat + ringV i.prwidx (ringLog i.prbase) * 2 ^ 63
        let s := s.writeLoc (.pa a) (bytesOf 8 d0 ++ bytesOf 8 d1.toNat)
        .next (s.modIface vi fun i => { i with prwidx := (i.prwidx + 1) % 2 ^ 32, pages := rest })

/-! ### Registration (R208, R327) -/

/-- A local address space of an interface is in use (R327). -/
def State.spaceInUse (s : State) (vi j : Nat) : Bool :=
  let a := 16 * vi + j
  let i := s.iface vi
  (s.slots.any fun x => (x.2.registered && x.2.asid == a)
      || x.2.started.any fun st => pkPriv st.pkt && pkAsid st.pkt == a)
    || (s.cores.any fun x => x.2.block.any fun b => b.asid == a) || (s.saved.any fun x => x.block.asid == a)
    || (s.inbound.any fun x => x.asid == a) || (s.clusters.any fun c => c.2.sets.any fun o => o.2.live && o.2.asid == a)
    || (bit i.apsel.toNat 4 && bits i.apsel.toNat 0 4 == j) || (bit i.victl.toNat 0 && bits i.fabsp.toNat 0 4 == j)
/-- No packet of a queue is started, and its launches are complete: an unregister takes effect. A packet that has been read and not started never
starts (R327). [log 46: DESIGN CHOICE] -/
def QueueSlot.quiet (q : QueueSlot) : Bool := q.started.isNone && q.launches.isEmpty
/-- A launch waits on a word that has not been raised, and no block of it has been dispatched (R27). -/
def Launch.waitsOnWord (l : Launch) : Bool := decide (l.next = 0) && lpWkind l.pkt == 1 && !l.ready && l.fail.isNone
/-- An unregister that has been held may take effect: nothing but launches that wait on words keeps the queue, which it releases (R327,
R375). [log 46: DESIGN CHOICE] -/
def QueueSlot.leaving (q : QueueSlot) : Bool := q.started.isNone && q.launches.all Launch.waitsOnWord
/-- The slot is free again; its quantum stays, with a write that was held. -/
def State.unregister (s : State) (slot : Nat) : State :=
  (s.modSlot slot fun q => { QueueSlot.init with quantum := q.quantumHeld.getD q.quantum }).endHold slot
/-- Keep a control-page write for later. [log 47: DESIGN CHOICE] -/
def State.holdWrite (s : State) (vi : Nat) (h : HeldWrite) : State := s.modIface vi fun i => { i with held := i.held ++ [h] }
/-- The queue of a header that the engine cannot use is registered stopped, with a kind-3 entry of packet KIND 0 (R327). [log 46: DESIGN CHOICE] -/
def State.registerStopped (s : State) (slot code addr : Nat) : State :=
  let q := s.slot slot
  let s := s.postFault (slot / 32) 3 code (sourceOf 2 q.engine) 0 [q.ridx, slot % 32, addr, 0, 0, 0] none none none
  s.modSlot slot fun q => { q with stopped := true }
/-- A header that registers a working queue: no reserved bit of DW2 and DW3, and LOGSLOTS at most 20 (R208, R327). [log 46: DESIGN CHOICE] -/
def headerOk (d2 d3 : Nat) : Bool :=
  bits d2 5 3 == 0 && bits d2 11 53 == 0 && decide (bits d2 0 5 ≤ 20) && bits d3 0 6 == 0 && bits d3 57 7 == 0
/-- The space and the address of the header of an interface's slot (R326). -/
def State.qhdrOf (s : State) (vi sel : Nat) : Nat × Nat :=
  let h := (AMap.get 0 (s.iface vi).qhdr sel).toNat
  (16 * vi + bits h 60 4, bits h 6 51 * 64)
/-- The device can read the header of a slot now: its tables and its page can be reached, and no run holds a channel that it needs (R308,
R327, R382). [log 46: DESIGN CHOICE] -/
def State.registrable (s : State) (vi sel : Nat) : Bool :=
  let (asid, va) := s.qhdrOf vi sel
  s.mayWalk asid va && (s.linkUp || !(s.tables asid va).any isHost) && match s.walk asid va with
  | .absent => false
  | .bad _ => true
  | .leaf lv fr _ _ _ =>
    let pa := fr + va % 2 ^ pageBits lv
    if isHost pa then s.linkUp else s.mayFill pa 32
/-- A registration that waits asks for its tables and for the sector of its header (R308). -/
def State.askRegister (s : State) (vi sel : Nat) : State :=
  let (asid, va) := s.qhdrOf vi sel
  let agent := Config.cores + (32 * vi + sel) % Config.clusters
  let s := s.askWalk agent asid va
  match s.walk asid va with
  | .leaf lv fr _ _ _ => s.ask agent (fr + va % 2 ^ pageBits lv) 32
  | _ => s
/-- An unregistration of a slot is held. -/
def HeldWrite.unregisters (sel : Nat) (h : HeldWrite) : Bool := !h.busy && h.off == 0x058 && h.sel == sel && bits h.val.toNat 0 2 == 2
/-- Register the queue of a slot: its engine reads the header (R208, R210, R327). A slot that is registered stays as it is.
[log 46: DESIGN CHOICE] -/
def State.register (s : State) (vi sel : Nat) (priv : Bool) : State :=
  let slot := 32 * vi + sel
  let (asid, va) := s.qhdrOf vi sel
  let place := fun (s : State) (pa : Nat) => s.modSlot slot fun q =>
    { QueueSlot.init with
      registered := true, hdr := va, asid, priv, quantum := q.quantum, hdrPa := pa
      closing := (s.iface vi).held.any (HeldWrite.unregisters sel)
      engine := if isHost pa then slot % Config.clusters else homeSlice pa }
  if (s.slot slot).registered then s
  else match s.walk asid va with
  | .absent => s
  | .bad p => ((place s (slot % Config.clusters * 256)).fillWalk asid va).registerStopped slot (s.walkFail asid va p) va
  | .leaf lv fr w _ _ =>
      let pa := fr + va % 2 ^ pageBits lv
      let s := place s pa
      let s := (s.engineXlat (s.slot slot).engine asid va w).2.l2Fill pa 32
      if s.poisonedAt (.pa pa) 32 then s.registerStopped slot 0x06 va
      else
        let d2 := s.dw (pa + 16)
        let d3 := s.dw (pa + 24)
        let ridx := s.dw (pa + 8)
        let s := s.modSlot slot fun q =>
          { q with
            logslots := bits d2 0 5, ph := bit d2 8, prio := bits d2 9 2, slotbase := bits d3 6 51 * 64, ridx }
        if headerOk d2 d3 then s else s.registerStopped slot 0x01 0

/-! ### Writes to the control page (R324, R326, R327, R330) -/

/-- Release the stopped partitions of an interface, but those whose entry is held (R355, R380). -/
def State.releaseStops (s : State) (vi : Nat) : State :=
  s.cores.foldl (fun s x => match x.2.block with
    | none => s
    | some b =>
      if b.vi != vi then s
      else (upto 0 4).foldl (fun s p =>
        if (s.iface vi).faults.any fun e => e.held && e.part == some (4 * x.1 + p) then s else s.releaseStop x.1 p) s) s
/-- A new generation of a space: entries and walks left from an earlier use of the value go first (R83, R369). [log 51: DESIGN CHOICE] -/
def State.setGen (s : State) (asid g : Nat) : State :=
  let s := s.dropTlb fun e => e.asid == asid && e.gen == g
  let s : State := { s with cores := s.cores.map fun x =>
    (x.1, { x.2 with walks := x.2.walks.filter fun w => !(w.asid == asid && w.gen == g) }) }
  s.modSpace asid fun x => { x with gen := g }
/-- Held write g waits behind an earlier held write f: of the writes to `QHDR` and `QCMD` of one slot only an unregistration goes before an
earlier one, and only before `QHDR` writes, which wait for it (R327, R330). [log 46: DESIGN CHOICE] -/
def HeldWrite.behind (g f : HeldWrite) : Bool :=
  !f.busy && f.sel == g.sel
    && (f.off == g.off || (g.off == 0x048 && f.off == 0x058) || (g.off == 0x058 && f.off == 0x048 && bits g.val.toNat 0 2 == 1))
/-- A write to a register whose slot or space is busy, or behind an earlier one to it, is held (R327). -/
def State.orHold (s : State) (vi off : Nat) (val : Word) (sel : Nat) (busy : Bool) (go : State → State) : State :=
  let h : HeldWrite := { off, val, sel, busy := false }
  if busy || (s.iface vi).held.any h.behind then s.holdWrite vi h else go s
/-- A registration is held (R327). -/
def Iface.registering (i : Iface) : Bool := i.held.any fun h => !h.busy && h.off == 0x058 && bits h.val.toNat 0 2 == 1
/-- Write `ASROOT` of a space. -/
def State.setRoot (s : State) (asid : Nat) (val : Word) : State :=
  s.modSpace asid fun x => { x with root := val &&& 0x0000FFFFFFFFC001 }
/-- Write a bank window of a space (R295). -/
def State.setWindow (s : State) (asid : Nat) (val : Word) : State :=
  s.modSpace asid fun x =>
    { x with windows := AMap.set (0, 0) x.windows (bits val.toNat 32 4) (bits val.toNat 0 16, bits val.toNat 16 16) }
/-- The record of R330 as it stands. -/
def State.summaryRec (s : State) (vi : Nat) : List Nat :=
  let i := s.iface vi
  let q := fun (j : Nat) => s.slot (32 * vi + j)
  let mask := fun (n : Nat) (f : Nat → Bool) => (upto 0 n).foldl (fun a j => a + b01 (f j) * 2 ^ j) 0
  let qhead := fun (j : Nat) => (q j).launches.any fun l => l.undone && l.fail.isNone
  let blocks := (s.cores.filter fun x => x.2.block.any fun b => b.vi == vi).length
  let kept := (s.saved.filter fun x => x.vi == vi).length
  let inv := fun (j : Nat) => s.slots.any fun x =>
    (x.2.started.any fun st => pkPriv st.pkt && !st.acked && pkAsid st.pkt == 16 * vi + j)
      || x.2.head.any fun p => pkPriv p && pkAsid p == 16 * vi + j
  let lifted := s.cores.foldl (fun a x => match x.2.block with
    | none => a
    | some b => if b.vi = vi then a + (b.teams.filter fun t => t.2.stackCoreOf.isSome).length else a) 0
  [(i.rsseq + 1) % 2 ^ 32 + bits i.victl.toNat 0 2 * 2 ^ 32, s.clock,
    mask 32 (fun j => (q j).registered) + mask 32 qhead * 2 ^ 32, i.frwidx + i.frridx * 2 ^ 32, i.prwidx + i.prridx * 2 ^ 32,
    blocks + kept * 2 ^ 32, mask 16 inv + lifted % 2 ^ 16 * 2 ^ 16, 0]
  ++ (upto 0 32).flatMap (fun j => [(q j).ridx, wrap 64 (q j).d])
  ++ (upto 0 16).flatMap (fun j => [(s.space (16 * vi + j)).root.toNat, (s.space (16 * vi + j)).gen])
  ++ (upto 0 24).map fun _ => 0
/-- A write to the control page takes effect (R326). -/
def State.ctlWrite (s : State) (vi off : Nat) (val : Word) : State :=
  let i := s.iface vi
  let v := val.toNat
  match off with
  | 0x008 =>
    let s := s.modIface vi fun i => { i with victl := val &&& 0xFFFF0003 }
    if bit v 1 then s else s.releaseStops vi
  | 0x010 => s.modIface vi fun i => { i with drainshare := val &&& 0xFF }
  | 0x018 => s.modIface vi fun i => { i with assel := bits v 0 4 }
  | 0x020 => s.orHold vi off val i.assel (s.spaceInUse vi i.assel) fun s => s.setRoot (16 * vi + i.assel) val
  | 0x028 => s.setGen (16 * vi + i.assel) (bits v 0 16)
  | 0x030 =>
    let s := s.modIface vi fun i => { i with window := val }
    s.orHold vi off val i.assel (s.spaceInUse vi i.assel) fun s => s.setWindow (16 * vi + i.assel) val
  | 0x038 => s.modIface vi fun i => { i with apsel := val &&& 0x1F }
  | 0x040 => s.modIface vi fun i => { i with qsel := bits v 0 5 }
  | 0x048 => s.orHold vi off val i.qsel (s.slot (32 * vi + i.qsel)).registered fun s =>
      s.modIface vi fun i => { i with qhdr := AMap.set 0 i.qhdr i.qsel (val &&& 0xF1FFFFFFFFFFFFC0) }
  | 0x050 => s.modSlot (32 * vi + i.qsel) fun q =>
      if q.registered then { q with quantumHeld := some (bits v 0 32) } else { q with quantum := bits v 0 32 }
  | 0x058 =>
    let q := s.slot (32 * vi + i.qsel)
    if bits v 0 2 = 1 then
      s.orHold vi off val i.qsel (!q.registered && !s.registrable vi i.qsel) fun s => s.register vi i.qsel (bit v 2)
    else if bits v 0 2 = 2 then
      let s := s.modSlot (32 * vi + i.qsel) fun q => { q with closing := q.registered }
      s.orHold vi off val i.qsel (q.registered && !q.quiet) fun s =>
        if q.registered then s.unregister (32 * vi + i.qsel) else s
    else s
  | 0x068 => (s.modIface vi fun i => { i with frbase := val &&& 0x0000FFFFFFFFF01F }).holdFaults vi
  | 0x078 => s.modIface vi fun i => { i with frridx := bits v 0 32 }
  | 0x080 => s.modIface vi fun i => { i with prbase := val &&& 0x0000FFFFFFFFF01F }
  | 0x090 => s.modIface vi fun i => { i with prridx := bits v 0 32 }
  | 0x098 =>
    let s := s.modIface vi fun i => { i with savebase := val &&& 0x0000FFFFFFFF0000 }
    if bit s.image.tracing.toNat vi && s.traceOk vi then s.traceHeader vi else s
  | 0x0A0 => s.modIface vi fun i => { i with fabsp := val &&& 0xF }
  | 0x0B0 =>
    if bit v 0 then
      s.modIface vi fun i => { i with
        resync := some (if i.registering then none else some ((s.summaryRec vi).map (BitVec.ofNat 64)), bits v 12 36 * 4096) }
    else s
  | 0x0C0 => s.modIface vi fun i => { i with saveslots := bits v 0 16 }
  | _ => s
/-- The host reaches an interface: the images are verified, the interface is enabled in them, and the link is up (R324, R333, R382). -/
def State.hostReach (s : State) (vi : Nat) : Bool :=
  decide (s.power = .booted) && s.linkUp && decide (vi < Config.interfaces) && bit s.image.interfaces.toNat vi
/-- A control-page write arrives: while RSBUSY is set, or earlier writes still wait for it, it waits too (R330). -/
def State.hostWrite (s : State) (vi off : Nat) (val : Word) : Res :=
  if !s.hostReach vi || off % 8 != 0 then .next s
  else if (s.iface vi).resync.isSome || (s.iface vi).held.any HeldWrite.busy then
    .next (s.holdWrite vi { off, val, sel := 0, busy := true })
  else .next (s.ctlWrite vi off val)

/-- `VICTL_WRITE` (R326, R355). -/
def execVictlWrite (vi : Nat) (val : Word) (s : State) : Res := s.hostWrite vi 0x008 val
/-- `QCMD_REGISTER`: `QCMD` 1, with PRIV (R326, R327). -/
def execQcmdRegister (vi : Nat) (priv : Bool) (s : State) : Res := s.hostWrite vi 0x058 (BitVec.ofNat 64 (1 + b01 priv * 4))
/-- `QCMD_UNREGISTER`: `QCMD` 2 (R326, R327). -/
def execQcmdUnregister (vi : Nat) (s : State) : Res := s.hostWrite vi 0x058 2
/-- `ASROOT_WRITE` (R83, R327). -/
def execAsrootWrite (vi : Nat) (val : Word) (s : State) : Res := s.hostWrite vi 0x020 val
/-- `WINDOW_WRITE` (R295, R327). -/
def execWindowWrite (vi : Nat) (val : Word) (s : State) : Res := s.hostWrite vi 0x030 val
/-- `QHDR_WRITE` (R327). -/
def execQhdrWrite (vi : Nat) (val : Word) (s : State) : Res := s.hostWrite vi 0x048 val
/-- `QQUANT_WRITE` (R30, R327). -/
def execQquantWrite (vi : Nat) (val : Word) (s : State) : Res := s.hostWrite vi 0x050 val
/-- `FRRIDX_WRITE` (R380). -/
def execFrridxWrite (vi : Nat) (val : Word) (s : State) : Res := s.hostWrite vi 0x078 val
/-- `PRRIDX_WRITE` (R328). -/
def execPrridxWrite (vi : Nat) (val : Word) (s : State) : Res := s.hostWrite vi 0x090 val
/-- `CONTROL_REG_WRITE`: any other register; an offset that names none is ignored (R326). -/
def execControlRegWrite (vi off : Nat) (val : Word) (s : State) : Res := s.hostWrite vi off val

/-- What the host reads in the control page (R326). -/
def State.ctlRead (s : State) (vi off : Nat) : Nat :=
  let i := s.iface vi
  let a := s.space (16 * vi + i.assel)
  let q := s.slot (32 * vi + i.qsel)
  match off with
  | 0x000 => bits i.victl.toNat 0 1 + b01 i.resync.isSome * 2 + b01 (i.faults.any FaultEntry.held) * 4
      + ((upto 0 32).filter fun j => (s.slot (32 * vi + j)).registered).length * 2 ^ 8
  | 0x008 => i.victl.toNat
  | 0x010 => i.drainshare.toNat
  | 0x018 => i.assel
  | 0x020 => a.root.toNat
  | 0x028 => a.gen
  | 0x030 => i.window.toNat
  | 0x038 => i.apsel.toNat
  | 0x040 => i.qsel
  | 0x048 => (AMap.get 0 i.qhdr i.qsel).toNat
  | 0x050 => q.quantum
  | 0x060 => wrap 64 q.d
  | 0x068 => i.frbase.toNat
  | 0x070 => i.frwidx
  | 0x078 => i.frridx
  | 0x080 => i.prbase.toNat
  | 0x088 => i.prwidx
  | 0x090 => i.prridx
  | 0x098 => i.savebase.toNat
  | 0x0A0 => i.fabsp.toNat
  | 0x0A8 => s.image.devnum.toNat
  | 0x0B8 => i.rsseq
  | 0x0C0 => i.saveslots
  | _ => 0

/-! ### Held writes (R327, R330) -/

/-- A write held by R327 may take effect. -/
def State.heldReady (s : State) (vi : Nat) (h : HeldWrite) : Bool :=
  match h.off with
  | 0x020 => !s.spaceInUse vi h.sel
  | 0x030 => !s.spaceInUse vi h.sel
  | 0x048 => !(s.slot (32 * vi + h.sel)).registered
  | 0x058 =>
    let q := s.slot (32 * vi + h.sel)
    if bits h.val.toNat 0 2 = 2 then !q.registered || q.leaving else q.registered || s.registrable vi h.sel
  | _ => true
/-- A write held by R327 takes effect on the slot or space that it was written for. [log 47: DESIGN CHOICE] -/
def State.heldDo (s : State) (vi : Nat) (h : HeldWrite) : State :=
  match h.off with
  | 0x020 => s.setRoot (16 * vi + h.sel) h.val
  | 0x030 => s.setWindow (16 * vi + h.sel) h.val
  | 0x048 => s.modIface vi fun i => { i with qhdr := AMap.set 0 i.qhdr h.sel (h.val &&& 0xF1FFFFFFFFFFFFC0) }
  | 0x058 =>
    if bits h.val.toNat 0 2 = 2 then (if (s.slot (32 * vi + h.sel)).registered then s.unregister (32 * vi + h.sel) else s)
    else s.register vi h.sel (bit h.val.toNat 2)
  | _ => s
/-- `HELD_WRITE_APPLY`: held write i of an interface takes effect: one that waited for RSBUSY in arrival order, one of R327 when its slot
or space is idle, after every earlier one that it stands behind. A registration that cannot read its header yet asks for it. -/
def execHeldWriteApply (vi i : Nat) (s : State) : Res :=
  let f := s.iface vi
  match f.held[i]? with
  | none => .next s
  | some h =>
    let before := f.held.take i
    let drop := s.modIface vi fun f => { f with held := dropNth f.held i }
    if h.busy then
      if f.resync.isSome || before.any HeldWrite.busy then .next s else .next (drop.ctlWrite vi h.off h.val)
    else if before.any h.behind then .next s
    else if !s.heldReady vi h then .next (if h.off = 0x058 ∧ bits h.val.toNat 0 2 ≠ 2 then s.askRegister vi h.sel else s)
    else .next (drop.heldDo vi h)

/-! ### Re-synchronisation (R330) -/

/-- `RESYNC`: with GO = 1, the summary of the interface is taken and RSBUSY set. [log 47: DESIGN CHOICE] -/
def execResync (vi : Nat) (val : Word) (s : State) : Res := s.hostWrite vi 0x0B0 val
/-- `RESYNC_RECORD_WRITE`: the record is written, DW0 last, `RSSEQ` rises, and RSBUSY is cleared. A snapshot that registrations written
before it have kept waiting is taken first, once they are done (R330). [log 47: DESIGN CHOICE] -/
def execResyncRecordWrite (vi : Nat) (s : State) : Res :=
  match (s.iface vi).resync with
  | none => .next s
  | some (none, pa) =>
    .next (if (s.iface vi).registering then s
      else s.modIface vi fun i => { i with resync := some (some ((s.summaryRec vi).map (BitVec.ofNat 64)), pa) })
  | some (some rec_, pa) =>
    if !paOk pa then .fault .noSuchAddress
    else if (upto 0 4).any fun l => s.lineBusy (pa + 256 * l) then .next s
    else
      let s := s.writeFor vi (.pa (pa + 8)) ((rec_.drop 1).flatMap fun w => bytesOf 8 w.toNat)
      let s := s.writeFor vi (.pa pa) (bytesOf 8 (nth 0 rec_ 0).toNat)
      .next (s.modIface vi fun i => { i with rsseq := (i.rsseq + 1) % 2 ^ 32, resync := none })

/-! ### The aperture (R324, R371, R382) -/

/-- The space that an aperture access translates through. -/
def State.apertureSpace (s : State) (vi : Nat) : Nat := 16 * vi + bits (s.iface vi).apsel.toNat 0 4
/-- Where an aperture access of n bytes goes: through the space that `APSEL` names while ON, to device memory. [log 48: DESIGN CHOICE] -/
def State.apertureAt (s : State) (vi va n : Nat) (wr : Bool) : Option (Nat × State) :=
  let i := s.iface vi
  if !bit i.apsel.toNat 4 || va % n != 0 then none
  else match s.walk (s.apertureSpace vi) (va % 2 ^ 57) with
    | .leaf lv fr w _ path =>
      let pa := fr + va % 2 ^ pageBits lv
      if (wr && !w) || isHost pa then none
      else some (pa, (s.fillWalk (s.apertureSpace vi) (va % 2 ^ 57)).setAD (s.apertureSpace vi) path wr)
    | _ => none
/-- `APERTURE_READ`: the host reads device memory; poison, an address that translates to no device memory, and a link that is down complete
with an error and no data. It waits for its tables and its sectors (R308), and reads through the home slice. [log 48: DESIGN CHOICE] -/
def execApertureRead (vi va : Nat) (width : MWidth) (s : State) : Res :=
  if !s.linkUp then .next { s with hostRead := .error }
  else if !s.hostReach vi then .next s
  else if !s.mayWalk (s.apertureSpace vi) (va % 2 ^ 57) then
    .next (s.askWalk (Config.cores + vi) (s.apertureSpace vi) (va % 2 ^ 57))
  else match s.apertureAt vi va (mwN width) false with
    | none => .next { s with hostRead := .error }
    | some (pa, s') =>
      if s.lineBusy pa then .next s
      else if !s.mayFill pa (mwN width) then .next (s.ask (Config.cores + homeSlice pa) pa (mwN width))
      else if s'.poisonedAt (.pa pa) (mwN width) then .next { s'.l2Fill pa (mwN width) with hostRead := .error }
      else .next { s'.l2Fill pa (mwN width) with hostRead := .data (BitVec.ofNat 64 (leNat (s'.mem.bytes pa (mwN width)))) }
/-- `APERTURE_WRITE`: a device-scope store of the host, which clears tags (R94). [log 48: DESIGN CHOICE] -/
def execApertureWrite (vi va : Nat) (width : MWidth) (val : Word) (s : State) : Res :=
  if !s.hostReach vi then .next s
  else if !s.mayWalk (s.apertureSpace vi) (va % 2 ^ 57) then
    .next (s.askWalk (Config.cores + vi) (s.apertureSpace vi) (va % 2 ^ 57))
  else match s.apertureAt vi va (mwN width) true with
    | none => .next s
    | some (pa, s') =>
      if s.lineBusy pa then .next s else .next (s'.writeLoc (.pa pa) (bytesOf (mwN width) val.toNat))

/-! ### Power and link (R333, R382) -/

/-- `POWER_ON`: the boot controller has verified the firmware and the configuration image (R333). [log 4: DEDUCED] [log 7: DESIGN CHOICE] -/
def execPowerOn (image : Image) (s : State) : Res :=
  if s.power = .booted then .next s else .next { s with power := .booted, image }
/-- `POWER_OFF`: the device holds no state; host memory is the host's. -/
def execPowerOff (s : State) : Res :=
  .next { State.reset with
    power := .off
    mem := { cells := s.mem.cells.filter fun c => isHost c.1, tags := s.mem.tags.filter fun g => isHost (16 * g)
             poison := s.mem.poison.filter fun u => isHost (32 * u) }
    agenda := s.agenda, seqNo := s.seqNo, freeIx := s.freeIx }
/-- `LINK_DOWN`: the Tylas link goes down (R382). -/
def execLinkDown (s : State) : Res :=
  if !s.linkUp then .next s
  else
    let s : State := { s with linkUp := false, outages := s.outages + 1 }
    .next ((s.ifaces.map fun x => x.1).foldl (fun s vi => s.holdFaults vi) s)
/-- `LINK_RESTORE`: the link returns, and every interface that lost writes gets one kind-6 entry (R379, R382). The spec names no CODE and no
SOURCE for it (log 9). -/
def execLinkRestore (s : State) : Res :=
  if s.linkUp then .next s
  else
    let s : State := { s with linkUp := true }
    .next (s.ifaces.foldl (fun s x =>
      if x.2.lost = 0 then s
      else
        let (source, s) := s.freeSource
        let (code, s) := s.freeCode
        let s := s.postFault x.1 6 code source 0 [x.2.lost % 2 ^ 32, (s.outages - x.2.outagesTold) % 2 ^ 32, 0, 0, 0, 0] none none none
        s.modIface x.1 fun i => { i with lost := 0, outagesTold := s.outages }) s)

end Sys2Proof.Machine
end

