-- ==== Sys2Proof/Machine/MatrixEvents.lean ====
section
/-!
DEFINITION. Sys2Proof/Machine/MatrixEvents.lean: the steps of the matrix engine (R228 to R241, R389 to R394): the start, the
rows, the stops and the resumptions of an `m.mma`, the rows of a transfer, record loads and deferred arrivals.
-/

namespace Sys2Proof.Machine

/-! ### Element values (R230) -/

/-- The elements of one row as values, without scales (R63, R66, R67, R228). -/
def MRow.floats (t : Tile) (ty : MType) (K : Nat) (r : MRow) : List FV :=
  let x := leNat r.data
  match ty with
  | .o4 => (upto 0 (K / 16)).flatMap fun p => decodeO4 (bits x (64 * p) 64) (nth 0 r.side p).toNat
  | _ => (upto 0 K).map fun c => elValue t.cb (mElType ty) (subEl' (mBits ty) c x)
where
  /-- Element c of width w. -/
  subEl' (w c x : Nat) : Nat := bits x (w * c) w
/-- The same times its block's scale (R77). -/
def MRow.values (t : Tile) (ty : MType) (K : Nat) (r : MRow) : List FV :=
  let xs := r.floats t ty K
  if r.scales.isEmpty then xs else (xs.zip (upto 0 K)).map fun p => scaled p.1 (nth 0 r.scales (p.2 / 32)).toNat
/-- The elements of an integer row. -/
def MRow.ints (ty : MType) (K : Nat) (r : MRow) : List Int :=
  let x := leNat r.data
  let w := mBits ty
  (upto 0 K).map fun c => sgn w (bits x (w * c) w)

/-- One element's sum in FP32: one rounding for each product (R79). -/
def dotF : Nat → List FV → List FV → Nat
  | c, x :: xs, y :: ys =>
    let p := (mulF x y).1
    dotF (roundTo (fmtOf .f32) (.m .rne) (addF (.m .rne) (decodeF (fmtOf .f32) c) p).1).1 xs ys
  | c, _, _ => c
/-- One element's sum in INT32, saturated at each step (R80). -/
def dotI : Int → List Int → List Int → Int
  | c, x :: xs, y :: ys => dotI (max (-(2 : Int) ^ 31) (min ((2 : Int) ^ 31 - 1) (c + x * y))) xs ys
  | c, _, _ => c

/-- The new values of accumulator row i (R230). -/
def Mma.rowOut (m : Mma) (q : Seq) (i : Nat) (a : MRow) (bs : List MRow) : List (Nat × Nat) :=
  let K := m.ta.cols
  let js := upto 0 bs.length
  if mInt m.ty then
    let x := a.ints m.ty K
    (js.zip bs).map fun p => (p.1, wrap 32 (dotI (sgn 32 (q.accEl m.acc i p.1)) x (p.2.ints m.ty K)))
  else
    let x := a.values m.ta m.ty K
    (js.zip bs).map fun p => (p.1, dotF (q.accEl m.acc i p.1) x (p.2.values m.tb m.ty K))

/-! ### Reading operands (R228, R229, R238) -/

/-- What reading one row finds. -/
inductive RowRead
  | ok (r : MRow) (s : State)
  | wait
  | miss (pages : List Nat) (s : State)
  | bad (va : Nat) (poison : Bool)

/-- Read row r of an operand with its scales (R227, R228). [log 20: DESIGN CHOICE] -/
def State.readRow (s : State) (k : Nat) (b : Block) (m : Mma) (t : Tile) (q : Option (Nat × List Word)) (r : Nat) : RowRead :=
  let K := m.ta.cols
  let scaleSpan := q.map fun x => (scaleOff x.2 + r * scaleStride x.2, K / 32)
  let scalesHere := match scaleSpan with
    | none => true
    | some x => s.spReadable k b x.1 x.2 m.seq
  let reach := fun (s : State) (x : Nat × Nat) => s.reachSpan k b t (s.spReadable k b (x.1 % Config.spBytes) x.2 m.seq) m.seq false x
  if !scalesHere then .wait
  else match reach s (t.span m.ty K r) with
    | .wait => .wait
    | .miss ps s => .miss ps s
    | .bad va q => .bad va q
    | .ok locs s =>
      let side : Reach := if m.ty = .o4 then reach s (t.sideSpan K r) else .ok [] s
      match side with
      | .wait => .wait
      | .miss ps s => .miss ps s
      | .bad va q => .bad va q
      | .ok locs' s =>
        let sl : List (Loc × Nat) := match scaleSpan with
          | none => []
          | some x => [(.sp k x.1, x.2)]
        .ok { data := s.readReach k locs, side := s.readReach k locs', scales := s.readReach k sl,
              bad := (s.badReach (t.span m.ty K r).1 locs).orElse fun _ => s.badReach (t.sideSpan K r).1 locs'
              badScale := s.badReach ((scaleSpan.getD (0, 0)).1) sl } s

/-- The engine waits for the sectors of spans through a descriptor (R308). -/
def State.askSpans (s : State) (k : Nat) (b : Block) (t : Tile) (xs : List (Nat × Nat)) : State :=
  if capKind t.cap = 1 then s else xs.foldl (fun s x => s.askVa (clusterOf k) b.asid x.1 x.2) s
/-- Read rows in order until one cannot be read. [log 20: DESIGN CHOICE] -/
def State.readRows (s : State) (k : Nat) (b : Block) (m : Mma) (t : Tile) (q : Option (Nat × List Word)) :
    List Nat → List (Nat × MRow) → List (Nat × MRow) × Option RowRead × State
  | [], acc => (acc, none, s)
  | r :: rs, acc => match s.readRow k b m t q r with
    | .ok x s => s.readRows k b m t q rs (acc ++ [(r, x)])
    | stop => (acc, some stop, s)

/-- The 64 KiB pages of a span of a tile that goes through the walk-ahead TLB. -/
def Tile.pagesOf (t : Tile) (xs : List (Nat × Nat)) : List Nat :=
  if capKind t.cap = 1 then []
  else xs.foldl (fun l x => (pieces x.1 x.2).foldl (fun l p => insSorted (p.1 % 2 ^ 57 / 65536) l) l) []
/-- The pages that row i needs: its own of A, and all of B (R232). -/
def Mma.needs (m : Mma) (i : Nat) : List Nat :=
  m.ta.pagesOf (m.ta.spans m.ty m.ta.cols i) ++ m.tb.pagesOf ((upto 0 m.tb.rows).flatMap (m.tb.spans m.ty m.ta.cols))
/-- Row i needs a page that has been requested and is not ready (R232). -/
def Mma.pageHeld (m : Mma) (i : Nat) : Bool := (m.needs i).any fun p => m.missing.contains p

/-- Request the pages that are missing and not yet requested. -/
def State.requestFor (s : State) (k : Nat) (b : Block) (m : Mma) (pages : List Nat) : State × Mma :=
  let new := pages.filter fun p => !m.missing.contains p
  (s.enginePages k b false (new.map fun p => 65536 * p), { m with missing := m.missing ++ new })

/-- The engine translates every page of the rows from DONE on, as it does by the clock of its start (R232). -/
def State.scanPages (s : State) (k : Nat) (b : Block) (m : Mma) : State × Mma :=
  let K := m.ta.cols
  let pages := (m.ta.pagesOf ((upto m.rows (m.ta.rows - m.rows)).flatMap (m.ta.spans m.ty K))).foldl (fun l p => insSorted p l)
    (m.tb.pagesOf ((upto 0 m.tb.rows).flatMap (m.tb.spans m.ty K)))
  let out := pages.foldl (fun (x : State × List Nat) p =>
    match x.1.engineXlat (clusterOf k) b.asid (65536 * p) false with
    | (.absent, s) => (s, x.2 ++ [p])
    | (_, s) => (s, x.2)) (s, [])
  out.1.requestFor k b m out.2

/-- Start or restart a run from k = 0 (R231, R234, R238): the pages are translated, and a free choice reads the operands now as
far as they can be read, or leaves that to the rows. Operands whose reading an arrival has reported are not read again (R237, log 20). [log 20: DESIGN CHOICE] -/
def State.startRun (s : State) (k : Nat) (b : Block) (m : Mma) : State × Mma :=
  if m.handed then (s, { m with stopped := false })
  else
  let (s, m) := s.scanPages k b { m with stopped := false, bv := none, av := [] }
  let (now, s) := s.freeBit
  if now && !m.pageHeld m.rows then
    let (bs, stop, s) := s.readRows k b m m.tb m.qb (upto 0 m.tb.rows) []
    if stop.isSome then (s, m)
    else
      let m := { m with bv := some (bs.map fun x => x.2) }
      let (as_, _, s) := s.readRows k b m m.ta m.qa
        ((upto m.rows (m.ta.rows - m.rows)).takeWhile fun i => !m.pageHeld i) []
      (s, { m with av := as_ })
  else (s, m)

/-! ### The engine's steps -/

/-- `MMA_START`: the accepted `m.mma` starts once no other runs (R231, R232). -/
def execMmaStart (core : Nat) (s : State) : Res :=
  match s.block core, s.seq core with
  | some b, some q => match q.running, q.accepted with
    | none, some m =>
      if q.stop then .next s
      else
        let (s, m) := s.startRun core b m
        .next (s.modSeq core fun q => { q with running := some m, accepted := none })
    | _, _ => .next s
  | _, _ => .next s

/-- The deferred arrivals whose conditions hold are made, oldest first (R237, R241). -/
def State.makeArrivals : Nat → Nat → State → State
  | 0, _, s => s
  | n + 1, k, s => match s.seq k with
    | none => s
    | some q => match q.arrives with
      | [] => s
      | (t, a) :: rest =>
        if q.mayArrive a then State.makeArrivals n k ((s.modSeq k fun q => { q with arrives := rest }).seqArrive k t a)
        else s
/-- A fault of the running `m.mma` (R389, R391): `ROWPROG` keeps DONE and ACC, the accepted one never starts, and arrivals
that wait on either are never made; those whose conditions hold have been made. [log 40: DEDUCED] -/
def State.mmaFault (s : State) (k : Nat) (m : Mma) (code addr opnd : Nat) : State :=
  let s := s.makeArrivals ((s.seq k).elim 0 fun q => q.arrives.length) k
  (s.modSeq k fun q =>
    let next := q.accepted.map Mma.seq
    { q with running := none, accepted := none, rowprog := BitVec.ofNat 64 (m.rows % 128 + m.acc % 4 * 2 ^ 9),
             arrives := q.arrives.filter fun a => !(decide (m.seq < a.2) && !m.allRead) && !(next.any fun n => decide (n < a.2)) })
    |>.streamFault k code addr opnd

/-- Rows are mirrored (R235). -/
def Mma.mirrored (m : Mma) : Bool := m.mir == 2 || (m.mir == 1 && (decide (m.ta.rows ≤ 64) || decide (m.tb.rows ≤ 64)))

/-- Write row i and end the `m.mma` with its last row (R231, R234). -/
def State.mmaWrite (s : State) (k : Nat) (m : Mma) (xs : List (Nat × Nat)) : State :=
  s.modSeq k fun q =>
    let q := q.setAcc m.acc m.rows xs
    if m.rows + 1 = m.ta.rows then { q with running := none, rowprog := 0 }
    else { q with running := some { m with rows := m.rows + 1, av := AMap.erase m.av m.rows } }

/-- `MMA_ROW_WRITE`: the next row is computed and written (R230, R231). `mirrorFails` is how often its twins disagree: once,
they agree on the second computation; twice, the stream faults (R394). -/
def execMmaRowWrite (core mirrorFails : Nat) (s : State) : Res :=
  match s.block core, s.seq core with
  | some b, some q => match q.running with
    | none => .next s
    | some m =>
      let i := m.rows
      if m.stopped || q.stop || m.pageHeld i || (mirrorFails != 0 && !m.mirrored) then .next s
      else
        let keep := fun (s : State) (m : Mma) => s.modSeq core fun q => { q with running := some m }
        let bOut : List MRow × Option RowRead × State := match m.bv with
          | some bs => (bs, none, s)
          | none =>
            let (bs, stop, s) := s.readRows core b m m.tb m.qb (upto 0 m.tb.rows) []
            (bs.map fun x => x.2, stop, s)
        match bOut with
        | (_, some (.miss ps s1), _) =>
          let (s2, m) := s1.requestFor core b m (ps.map fun v => v / 65536)
          .next (keep s2 m)
        | (_, some (.bad va q), _) => .next (s.mmaFault core m (if q then 0x19 else 0x15) va m.b)
        | (_, some _, _) => .next (s.askSpans core b m.tb ((upto 0 m.tb.rows).flatMap (m.tb.spans m.ty m.ta.cols)))
        | (bs, none, s) =>
          let m := { m with bv := some bs }
          let aOut : RowRead := match AMap.find? m.av i with
            | some r => .ok r s
            | none => s.readRow core b m m.ta m.qa i
          match aOut with
          | .wait => .next (keep (s.askSpans core b m.ta (m.ta.spans m.ty m.ta.cols i)) m)
          | .miss ps s =>
            let (s, m) := s.requestFor core b m (ps.map fun v => v / 65536)
            .next (keep s m)
          | .bad va q => .next (s.mmaFault core m (if q then 0x19 else 0x15) va m.a)
          | .ok r s =>
            let accBad := q.accPoison.any fun u => decide (accKey m.acc i 0 ≤ 2 * u + 1 ∧ 2 * u < accKey m.acc i m.tb.rows)
            let scale := fun (x : Option (Nat × List Word)) => x.elim 0xFF fun y => y.1
            let poison : Option MFault :=
              (r.bad.map fun a => (0x19, a, m.a)).orElse fun _ =>
              ((bs.findSome? fun x => x.bad).map fun a => (0x19, a, m.b)).orElse fun _ =>
              (r.badScale.map fun a => (0x19, a, scale m.qa)).orElse fun _ =>
              ((bs.findSome? fun x => x.badScale).map fun a => (0x19, a, scale m.qb)).orElse fun _ =>
              if accBad then some (0x19, 0, 0xFF) else none
            match poison with
            | some f => .next (s.mmaFault core m f.1 f.2.1 f.2.2)
            | none =>
            if 2 ≤ mirrorFails then .next (s.mmaFault core m 0x34 0 0xFF)
            else
              let s := if mirrorFails = 1 then
                  s.postFault b.vi 8 0x34 (sourceOf 1 core) 0 [m.mpc, i % 256 + m.acc % 4 * 2 ^ 8] (some core) none none
                else s
              .next (s.mmaWrite core m (m.rowOut q i r bs))
  | _, _ => .next s

/-- `MMA_STOP`: the engine stops before the next row, for a page that it needs or for a safe point (R232, R233, R241). -/
def execMmaStop (core : Nat) (s : State) : Res :=
  match s.seq core with
  | some q => match q.running with
    | none => .next s
    | some m =>
      if m.stopped || !(q.stop || m.pageHeld m.rows) then .next s
      else
        let prog := m.rows % 128 + 2 ^ 8 + m.acc % 4 * 2 ^ 9
        let s := s.modSeq core fun q =>
          { q with running := some (if m.handed then { m with stopped := true } else { m with stopped := true, bv := none, av := [] }), rowprog := BitVec.ofNat 64 prog }
        .next (s.traceRec ((s.block core).elim 0 Block.vi) (sourceOf 1 core) 10 [prog])
  | none => .next s

/-- `MMA_RESUME`: rows DONE and above start again from k = 0 (R232, R234, R241). -/
def execMmaResume (core : Nat) (s : State) : Res :=
  match s.block core, s.seq core with
  | some b, some q => match q.running with
    | none => .next s
    | some m =>
      if !m.stopped || q.stop || m.pageHeld m.rows then .next s
      else
        let (s, m) := s.startRun core b m
        .next ((s.modSeq core fun q => { q with running := some m }).traceRec b.vi (sourceOf 1 core) 10 [q.rowprog.toNat])
  | _, _ => .next s

/-! ### Transfers (R236) -/

/-- The bytes of element c of an `m.acst` row. -/
def accOut (x : Transfer) (v : Nat) : List Byte :=
  if x.ty = 0x0A then bytesOf 2 (roundTo (fmtOf .bf16) (.m .rne) (decodeF (fmtOf .f32) v)).1 else bytesOf 4 v
/-- An element that `m.acld` reads: `.bf16` is widened exactly, a NaN to 0x7FC00000. -/
def accIn (x : Transfer) (v : Nat) : Nat :=
  if x.ty = 0x0A then (if isNan (decodeF (fmtOf .bf16) v) then 0x7FC00000 else v % 2 ^ 16 * 2 ^ 16) else v % 2 ^ 32

/-- Write bytes to the places that a span reached. -/
def State.writeReach (s : State) (vi : Nat) : List (Loc × Nat) → List Byte → State
  | [], _ => s
  | x :: xs, bs => (s.writeFor vi x.1 (bs.take x.2)).writeReach vi xs (bs.drop x.2)

/-- A fault of a transfer (R389, R391): it ends, and arrivals that wait on an `m.acst` are never made. [log 40: DEDUCED] -/
def State.xferFault (s : State) (k : Nat) (x : Transfer) (code addr opnd : Nat) : State :=
  (s.modSeq k fun q =>
    { q with xfers := q.xfers.filter (fun y => y.seq != x.seq),
             arrives := if x.store then q.arrives.filter (fun a => !decide (x.seq < a.2)) else q.arrives }).streamFault
    k code addr opnd

/-- `ACC_TRANSFER_ROW`: the next row of transfer i is stored or loaded (R236, R391). -/
def execAccTransferRow (core i : Nat) (s : State) : Res :=
  match s.block core, s.seq core with
  | some b, some q => match q.xfers[i]? with
    | none => .next s
    | some x =>
      if !x.posted.isEmpty || !s.xferTakes core b x then .next s
      else match s.reachSpan core b x.tile (s.xferReady core b x) x.seq x.store (x.span x.row) with
        | .wait => .next (if x.store then s else s.askSpans core b x.tile [x.span x.row])
        | .bad va q => .next (s.xferFault core x (if q then 0x19 else 0x15) va x.reg)
        | .miss ps s =>
          let pages := ps.map fun v => v / 65536
          .next ((s.enginePages core b x.store ps).modSeq core fun q =>
            { q with xfers := q.xfers.map fun y => if y.seq = x.seq then { y with posted := pages } else y })
        | .ok locs s =>
          let n := x.tile.cols
          let lo := accKey x.acc x.row 0
          let accBad := x.store && q.accPoison.any fun u => decide (lo ≤ 2 * u + 1 ∧ 2 * u < lo + n)
          let memBad := if x.store then none else s.badReach (x.span x.row).1 locs
          if accBad then .next (s.xferFault core x 0x19 0 0xFF)
          else match memBad with
          | some a => .next (s.xferFault core x 0x19 a x.reg)
          | none =>
            let s := if x.store then
                s.writeReach b.vi locs ((upto 0 n).flatMap fun c => accOut x (q.accEl x.acc x.row c))
              else
                let v := leNat (s.readReach core locs)
                s.modSeq core fun q => q.setAcc x.acc x.row ((upto 0 n).map fun c => (c, accIn x (bits v (8 * x.es * c) (8 * x.es))))
            .next (s.modSeq core fun q =>
              { q with xfers := if x.row + 1 = x.tile.rows then q.xfers.filter fun y => y.seq != x.seq
                  else q.xfers.map fun y => if y.seq = x.seq then { y with row := x.row + 1 } else y })
  | _, _ => .next s

/-! ### Records and arrivals -/

/-- `RECORD_LOAD_COMPLETE`: record load i reads its bytes, once (R224, R226, R227, R240). -/
def execRecordLoadComplete (core i : Nat) (s : State) : Res :=
  match s.block core, s.seq core with
  | some b, some q => match q.loads[i]? with
    | none => .next s
    | some l =>
      let n := if l.cap then 16 else 64
      if !s.spReadable core b l.off n l.seq then .next s
      else
        let s := s.modSeq core fun q => { q with loads := q.loads.filter fun y => y.seq != l.seq }
        let xs := b.sp.read l.off n
        if s.poisonedAt (.sp core l.off) n then .next (s.streamFault core 0x19 l.off l.code)
        else if l.cap then
          let t : Tile := { q.tile l.code with cap := BitVec.ofNat 128 (leNat xs), tag := s.tagAt (.sp core l.off) }
          .next (s.modSeq core fun q => { q with d := AMap.set Tile.init q.d l.code t })
        else
          let dw : List Word := (upto 0 8).map fun j => BitVec.ofNat 64 (bits (leNat xs) (64 * j) 64)
          let t : Tile := { q.tile l.code with dw }
          .next (s.modSeq core fun q =>
            if 8 ≤ l.code then { q with q := AMap.put q.q (l.code - 8) dw }
            else { q with d := AMap.set Tile.init q.d l.code t })
  | _, _ => .next s

/-- `MATRIX_DEFERRED_ARRIVE`: the oldest deferred arrival is made, once its conditions hold (R237, R392). -/
def execMatrixDeferredArrive (core : Nat) (s : State) : Res :=
  match s.seq core with
  | some q => match q.arrives with
    | [] => .next s
    | (t, n) :: rest =>
      if !q.mayArrive n then .next s
      else .next ((s.modSeq core fun q => { q with arrives := rest }).seqArrive core t n)
  | none => .next s

end Sys2Proof.Machine
end

