-- ==== Sys2Proof/Machine/Predicate.lean ====
section
/-!
DEFINITION. Sys2Proof/Machine/Predicate.lean: predicate instructions (R166 to R168).
-/

namespace Sys2Proof.Machine

/-- A per-lane form that writes a predicate in the lanes of E (R166). -/
def predIssue (g : Guard) (d : PReg) (reads : List RegRef) (vregs : List (Nat × Nat)) (m : Ctx → Mask) : Issue :=
  { g, perLane := true, onStack := true, reads, writes := refPD d, vregs,
    body := fun c E s => .done (s.modTeam c.k c.t fun tm => tm.setPIn d.toNat E (m c)) }
def pbin (o : PBin) (f : Mask → Mask → Mask) : Issue :=
  predIssue o.g o.d [.p o.a.toNat, .p o.b.toNat] [] fun c => f (c.tm.preg o.a.toNat) (c.tm.preg o.b.toNat)
def pun (o : PUn) (f : Mask → Mask) : Issue := predIssue o.g o.d [.p o.a.toNat] [] fun c => f (c.tm.preg o.a.toNat)

/-- `p.and` -/
def issuePAnd (o : PBin) : Issue := pbin o (fun a b => a &&& b)
def execPAnd (o : PBin) (s : State) : Res := s.issue (issuePAnd o)
/-- `p.or` -/
def issuePOr (o : PBin) : Issue := pbin o (fun a b => a ||| b)
def execPOr (o : PBin) (s : State) : Res := s.issue (issuePOr o)
/-- `p.xor` -/
def issuePXor (o : PBin) : Issue := pbin o (fun a b => a ^^^ b)
def execPXor (o : PBin) (s : State) : Res := s.issue (issuePXor o)
/-- `p.andn` -/
def issuePAndn (o : PBin) : Issue := pbin o (fun a b => a &&& ~~~b)
def execPAndn (o : PBin) (s : State) : Res := s.issue (issuePAndn o)
/-- `p.not` -/
def issuePNot (o : PUn) : Issue := pun o (fun a => ~~~a)
def execPNot (o : PUn) (s : State) : Res := s.issue (issuePNot o)
/-- `p.mov` -/
def issuePMov (o : PUn) : Issue := pun o id
def execPMov (o : PUn) (s : State) : Res := s.issue (issuePMov o)

/-- A reduction over E that writes one scalar (R167). It acts on lanes, so it makes its passes whatever the guard holds. -/
def predRed (o : PRed) (f : Ctx → Mask → Word) : Issue :=
  { g := o.g, perLane := true, onStack := true, reads := [.p o.a.toNat], writes := [.s o.d.toNat],
    body := fun c E s => .done (c.setSc o.d (f c E) s) }

/-- `p.any`: some lane of E has pA. -/
def issuePAny (o : PRed) : Issue := predRed o fun c E => w01 (E &&& c.tm.preg o.a.toNat != 0)
def execPAny (o : PRed) (s : State) : Res := s.issue (issuePAny o)
/-- `p.all`: every lane of E has pA. -/
def issuePAll (o : PRed) : Issue := predRed o fun c E => w01 (E &&& ~~~(c.tm.preg o.a.toNat) == 0)
def execPAll (o : PRed) (s : State) : Res := s.issue (issuePAll o)
/-- `p.cnt`: the number of lanes of E with pA. -/
def issuePCnt (o : PRed) : Issue := predRed o fun c E => BitVec.ofNat 64 (popc 1024 (E &&& c.tm.preg o.a.toNat).toNat)
def execPCnt (o : PRed) (s : State) : Res := s.issue (issuePCnt o)
/-- `p.first`: the lowest lane of E with pA, all ones when there is none. -/
def issuePFirst (o : PRed) : Issue := predRed o fun c E =>
  match lowest 1024 0 (E &&& c.tm.preg o.a.toNat).toNat with
  | some l => BitVec.ofNat 64 l
  | none => BitVec.allOnes 64
def execPFirst (o : PRed) (s : State) : Res := s.issue (issuePFirst o)

/-- `p.fromv`: pD of a lane is true when its value of vA is not 0. -/
def issuePFromv (o : PFromV) : Issue :=
  predIssue o.g o.d [.v o.a.toNat] [(6, o.a.toNat)] fun c => maskOf c.tm.L fun l => c.tm.vreg o.a.toNat l != 0
def execPFromv (o : PFromV) (s : State) : Res := s.issue (issuePFromv o)

/-- `p.tov`: vD of a lane is 1 when pA, else 0. -/
def issuePTov (o : PToV) : Issue :=
  { g := o.g, perLane := true, onStack := true, reads := [.p o.a.toNat], writes := [.v o.d.toNat], vregs := [(5, o.d.toNat)],
    body := fun c E s => .done (c.setVec E o.d.toNat (fun l => w01 (laneIn (c.tm.preg o.a.toNat) l)) s) }
def execPTov (o : PToV) (s : State) : Res := s.issue (issuePTov o)

/-- `p.act` (R168): a mask word, or the summary word, of the issuing fragment. -/
def issuePAct (o : PAct) : Issue :=
  { g := o.g, onStack := true, reads := [.s o.a.toNat], writes := [.s o.d.toNat],
    body := fun c _ s =>
      let w := (c.tm.sreg o.a.toNat).toNat
      .done (c.setSc o.d (BitVec.ofNat 64 (if w < 32 then maskWord c.f.mask w else if w = 32 then summary c.f.mask else 0)) s) }
def execPAct (o : PAct) (s : State) : Res := s.issue (issuePAct o)

end Sys2Proof.Machine
end

