-- ==== Sys2Proof/Machine/Scalar.lean ====
section
/-!
DEFINITION. Sys2Proof/Machine/Scalar.lean: scalar arithmetic (R158 to R161). These forms act once for the issuing fragment,
compute on 64-bit values and never set a flag.
-/

namespace Sys2Proof.Machine

/-! ### The functions of R161 -/

/-- Shift left: 0 when the amount is 64 or more. -/
def fShl (a b : Word) : Word := if 64 ≤ b.toNat then 0 else a <<< b.toNat
/-- Shift right. -/
def fShr (a b : Word) : Word := if 64 ≤ b.toNat then 0 else a >>> b.toNat
/-- Arithmetic shift right: copies of bit 63 for every amount. -/
def fSra (a b : Word) : Word := a.sshiftRight (min b.toNat 64)
/-- Bits [127:64] of the product (R161). -/
def fMulh (sg : Bool) (a b : Word) : Word :=
  if sg then BitVec.ofInt 64 (a.toInt * b.toInt / (2 : Int) ^ 64) else BitVec.ofNat 64 (a.toNat * b.toNat / 2 ^ 64)
/-- Signed or unsigned less-than. -/
def ltW (sg : Bool) (a b : Word) : Bool := if sg then a.slt b else a.ult b
def fMin (sg : Bool) (a b : Word) : Word := if ltW sg b a then b else a
def fMax (sg : Bool) (a b : Word) : Word := if ltW sg a b then b else a
/-- `s.cmp` (R145, R161). -/
def fCmp (sg : Bool) (c : Cond) (a b : Word) : Word :=
  w01 (match c with
    | .eq => a == b
    | .ne => a != b
    | .lt => ltW sg a b
    | .le => !ltW sg b a
    | .gt => ltW sg b a
    | .ge => !ltW sg a b
    | _ => false)
def fClz (a : Word) : Word := BitVec.ofNat 64 (clz 64 a.toNat)
def fPopc (a : Word) : Word := BitVec.ofNat 64 (popc 64 a.toNat)

/-! ### Shapes -/

/-- A form that writes one scalar register with a value (R158). -/
def scalarIssue (g : Guard) (d : SReg) (reads : List RegRef) (val : Ctx → State → Word) : Issue :=
  { g, reads, writes := [.s d.toNat], onStack := true, body := fun c _ s => .done (c.setSc d (val c s) s) }
def sbin (o : SBin) (f : Word → Word → Word) : Issue :=
  scalarIssue o.g o.d (refSS o.a ++ refSS o.b) fun c s => f (c.sval s o.a) (c.sval s o.b)
def sty (o : STy) (f : Bool → Word → Word → Word) : Issue :=
  scalarIssue o.g o.d (refSS o.a ++ refSS o.b) fun c s => f o.sg (c.sval s o.a) (c.sval s o.b)
def sun (o : SUn) (f : Word → Word) : Issue := scalarIssue o.g o.d (refSS o.a) fun c s => f (c.sval s o.a)
def simm (o : SImm) (f : Word → Word → Word) : Issue :=
  scalarIssue o.g o.d (refSS o.a) fun c s => f (c.sval s o.a) (o.imm.signExtend 64)

/-! ### The instructions of R161 -/

/-- `s.add`: sA + b. -/
def issueSAdd (o : SBin) : Issue := sbin o (fun a b => a + b)
def execSAdd (o : SBin) (s : State) : Res := s.issue (issueSAdd o)
/-- `s.sub`: sA − b. -/
def issueSSub (o : SBin) : Issue := sbin o (fun a b => a - b)
def execSSub (o : SBin) (s : State) : Res := s.issue (issueSSub o)
/-- `s.mul`: low half of the product. -/
def issueSMul (o : SBin) : Issue := sbin o (fun a b => a * b)
def execSMul (o : SBin) (s : State) : Res := s.issue (issueSMul o)
/-- `s.and`: and. -/
def issueSAnd (o : SBin) : Issue := sbin o (fun a b => a &&& b)
def execSAnd (o : SBin) (s : State) : Res := s.issue (issueSAnd o)
/-- `s.or`: or. -/
def issueSOr (o : SBin) : Issue := sbin o (fun a b => a ||| b)
def execSOr (o : SBin) (s : State) : Res := s.issue (issueSOr o)
/-- `s.xor`: exclusive or. -/
def issueSXor (o : SBin) : Issue := sbin o (fun a b => a ^^^ b)
def execSXor (o : SBin) (s : State) : Res := s.issue (issueSXor o)
/-- `s.andn`: sA and not b. -/
def issueSAndn (o : SBin) : Issue := sbin o (fun a b => a &&& ~~~b)
def execSAndn (o : SBin) (s : State) : Res := s.issue (issueSAndn o)
/-- `s.shl`: shift left. -/
def issueSShl (o : SBin) : Issue := sbin o fShl
def execSShl (o : SBin) (s : State) : Res := s.issue (issueSShl o)
/-- `s.shr`: shift right. -/
def issueSShr (o : SBin) : Issue := sbin o fShr
def execSShr (o : SBin) (s : State) : Res := s.issue (issueSShr o)
/-- `s.sra`: arithmetic shift right. -/
def issueSSra (o : SBin) : Issue := sbin o fSra
def execSSra (o : SBin) (s : State) : Res := s.issue (issueSSra o)
/-- `s.mulh`: high half of the product. -/
def issueSMulh (o : STy) : Issue := sty o fMulh
def execSMulh (o : STy) (s : State) : Res := s.issue (issueSMulh o)
/-- `s.min`. -/
def issueSMin (o : STy) : Issue := sty o fMin
def execSMin (o : STy) (s : State) : Res := s.issue (issueSMin o)
/-- `s.max`. -/
def issueSMax (o : STy) : Issue := sty o fMax
def execSMax (o : STy) (s : State) : Res := s.issue (issueSMax o)
/-- `s.clz`. -/
def issueSClz (o : SUn) : Issue := sun o fClz
def execSClz (o : SUn) (s : State) : Res := s.issue (issueSClz o)
/-- `s.popc`. -/
def issueSPopc (o : SUn) : Issue := sun o fPopc
def execSPopc (o : SUn) (s : State) : Res := s.issue (issueSPopc o)
/-- `s.mov`. -/
def issueSMov (o : SUn) : Issue := sun o id
def execSMov (o : SUn) (s : State) : Res := s.issue (issueSMov o)
/-- `s.cmp`. -/
def issueSCmp (o : SCmp) : Issue := scalarIssue o.g o.d (refSS o.a ++ refSS o.b) fun c s => fCmp o.sg o.c (c.sval s o.a) (c.sval s o.b)
def execSCmp (o : SCmp) (s : State) : Res := s.issue (issueSCmp o)
/-- `s.sel`. -/
def issueSSel (o : SSel) : Issue := scalarIssue o.g o.d (refSS o.a ++ refSS o.b ++ refSS o.c) fun c s =>
  if c.sval s o.c ≠ 0 then c.sval s o.a else c.sval s o.b
def execSSel (o : SSel) (s : State) : Res := s.issue (issueSSel o)
/-- `s.add` with an immediate (major 0x02). -/
def issueSAddImm (o : SImm) : Issue := simm o (fun a b => a + b)
def execSAddImm (o : SImm) (s : State) : Res := s.issue (issueSAddImm o)
/-- `s.sub` with an immediate (major 0x02). -/
def issueSSubImm (o : SImm) : Issue := simm o (fun a b => a - b)
def execSSubImm (o : SImm) (s : State) : Res := s.issue (issueSSubImm o)
/-- `s.mul` with an immediate (major 0x02). -/
def issueSMulImm (o : SImm) : Issue := simm o (fun a b => a * b)
def execSMulImm (o : SImm) (s : State) : Res := s.issue (issueSMulImm o)
/-- `s.and` with an immediate (major 0x02). -/
def issueSAndImm (o : SImm) : Issue := simm o (fun a b => a &&& b)
def execSAndImm (o : SImm) (s : State) : Res := s.issue (issueSAndImm o)
/-- `s.or` with an immediate (major 0x02). -/
def issueSOrImm (o : SImm) : Issue := simm o (fun a b => a ||| b)
def execSOrImm (o : SImm) (s : State) : Res := s.issue (issueSOrImm o)
/-- `s.xor` with an immediate (major 0x02). -/
def issueSXorImm (o : SImm) : Issue := simm o (fun a b => a ^^^ b)
def execSXorImm (o : SImm) (s : State) : Res := s.issue (issueSXorImm o)
/-- `s.andn` with an immediate (major 0x02). -/
def issueSAndnImm (o : SImm) : Issue := simm o (fun a b => a &&& ~~~b)
def execSAndnImm (o : SImm) (s : State) : Res := s.issue (issueSAndnImm o)
/-- `s.shl` with an immediate (major 0x02). -/
def issueSShlImm (o : SImm) : Issue := simm o fShl
def execSShlImm (o : SImm) (s : State) : Res := s.issue (issueSShlImm o)
/-- `s.shr` with an immediate (major 0x02). -/
def issueSShrImm (o : SImm) : Issue := simm o fShr
def execSShrImm (o : SImm) (s : State) : Res := s.issue (issueSShrImm o)
/-- `s.sra` with an immediate (major 0x02). -/
def issueSSraImm (o : SImm) : Issue := simm o fSra
def execSSraImm (o : SImm) (s : State) : Res := s.issue (issueSSraImm o)
/-- `s.li`. -/
def issueSLi (o : SLi) : Issue := scalarIssue o.g o.d [] fun _ _ => o.imm.signExtend 64
def execSLi (o : SLi) (s : State) : Res := s.issue (issueSLi o)

end Sys2Proof.Machine
end

