-- ==== Sys2Proof/Machine/Prefix.lean ====
section
/-!
DEFINITION. Sys2Proof/Machine/Prefix.lean: the two-word instruction (R137): a carried instruction whose source B is LIMM. In
the vector classes each sub-element receives bits [w−1:0] of LIMM (R177).
-/

namespace Sys2Proof.Machine

/-- A carried scalar function on source A and LIMM; `c` is the third operand of `s.sel`. -/
def carriedScalar (f : CScalar) (a b c : Word) : Word :=
  match f with
  | .add => a + b
  | .sub => a - b
  | .mul => a * b
  | .mulh sg => fMulh sg a b
  | .and => a &&& b
  | .or => a ||| b
  | .xor => a ^^^ b
  | .andn => a &&& ~~~b
  | .shl => fShl a b
  | .shr => fShr a b
  | .sra => fSra a b
  | .min sg => fMin sg a b
  | .max sg => fMax sg a b
  | .cmp sg cond => fCmp sg cond a b
  | .sel _ => if c ≠ 0 then a else b
/-- The third operand of a carried scalar function. -/
def carriedThird : CScalar → SSrc
  | .sel c => c
  | _ => .spec .zero

/-- A carried vector integer function, element by element, where it is one (R179). -/
def carriedEl (f : CVInt) (ty : IType) (a b : Nat) : Nat × Nat :=
  let w := itW ty
  match f with
  | .add => (eAdd w a b, 0)
  | .sub => (eSub w a b, 0)
  | .mul => (eMul w a b, 0)
  | .mulh => (eMulh (itS ty) w a b, 0)
  | .adds => satEl ty (valOf ty a + valOf ty b)
  | .subs => satEl ty (valOf ty a - valOf ty b)
  | .and => (a &&& b, 0)
  | .or => (a ||| b, 0)
  | .xor => (a ^^^ b, 0)
  | .andn => (eAndn w a b, 0)
  | .shl => (eShl w a b, 0)
  | .shr => (eShr w a b, 0)
  | .sra => (eSra w a b, 0)
  | .min => (eMin (itS ty) w a b, 0)
  | .max => (eMax (itS ty) w a b, 0)
  | _ => (a, 0)

/-- A lane of a carried vector integer function. -/
def carriedLane (f : CVInt) (ty : IType) (c : Ctx) (s : State) (a b : Src) (l : Nat) : Word × Nat :=
  let w := itW ty
  match f with
  | .mad x => laneOfEls w fun e => ((a.el c.tm w l e * b.el c.tm w l e + (c.srcV s x).el c.tm w l e) % 2 ^ w, 0)
  | .sel x => selLane ty c.tm a b (selSrc c s x) l
  | .pack => packLane ty c.tm a b l
  | .unpk => unpkLane ty c.tm a b l
  | .ext => extLane ty c.tm a b l
  | .ins x => insLane ty c.tm a b (c.srcV s x) l
  | f => laneOfEls w fun e => carriedEl f ty (a.el c.tm w l e) (b.el c.tm w l e)
/-- Registers of the third operand. -/
def carriedRefs : CVInt → List RegRef × List (Nat × Nat)
  | .mad x | .ins x => (refVS x, vOfVS 8 x)
  | .sel x => (refSel x, vOfSel x)
  | _ => ([], [])

/-- The two-word instruction (R137). [log 19: DEDUCED] -/
def issueLongImmediatePrefix (o : Prefixed) : Issue :=
  let B : Src := .val o.limm
  match o.carried with
  | .scalar f d a =>
    scalarIssue o.g d (refSS a ++ refSS (carriedThird f)) fun c s =>
      carriedScalar f (c.sval s a) o.limm (c.sval s (carriedThird f))
  | .vint f d a ty =>
    vecIssue o.g d (refVA a ++ (carriedRefs f).1) (vOfVA 6 a ++ (carriedRefs f).2) true fun c s l =>
      carriedLane f ty c s (srcVA a) B l
  | .vcmp d a ty cond =>
    cmpIssue o.g d (refVA a) (vOfVA 6 a) (itW ty) fun c _ l e =>
      condI cond (valOf ty ((srcVA a).el c.tm (itW ty) l e)) (valOf ty (B.el c.tm (itW ty) l e))
  | .vfloat f d a ty =>
    let F := fmtOf ty.el
    match f with
    | .fadd m => vfbinSrc o.g d a [] [] (fun _ _ => B) ty fun F => opAdd F (.m m)
    | .fsub m => vfbinSrc o.g d a [] [] (fun _ _ => B) ty fun F => opSub F (.m m)
    | .fmul m => vfbinSrc o.g d a [] [] (fun _ _ => B) ty fun F => opMul F (.m m)
    | .fmin => vfbinSrc o.g d a [] [] (fun _ _ => B) ty fun F x y => (minMaxF F false x y, 0)
    | .fmax => vfbinSrc o.g d a [] [] (fun _ _ => B) ty fun F x y => (minMaxF F true x y, 0)
    | .fma x m =>
      vecIssue o.g d (.v a.toNat :: refVS x) ((6, a.toNat) :: vOfVS 8 x) true fun c s l =>
        laneOfEls F.w fun e => opFma F (.m m) ((Src.reg a.toNat).el c.tm F.w l e) (B.el c.tm F.w l e)
          ((c.srcV s x).el c.tm F.w l e)
  | .vfcmp d a ty cond =>
    cmpIssue o.g d [.v a.toNat] [(6, a.toNat)] (fmtOf ty.el).w fun c _ l e =>
      fcmpTest ty cond c.tm (.reg a.toNat) B l e
def execLongImmediatePrefix (o : Prefixed) (s : State) : Res := s.issue (issueLongImmediatePrefix o)

end Sys2Proof.Machine
end

