-- ==== Sys2Proof/Machine/Resource.lean ====
section
/-!
DEFINITION. Sys2Proof/Machine/Resource.lean: allotments and roles (R54, R56, R174, R175), with the grants of a partition's
queue.
-/

namespace Sys2Proof.Machine

/-- Bytes of the pool that a team holds: none once it has finished and its counters are zero (R54, R165). -/
def Team.poolBytes (tm : Team) : Nat :=
  if tm.finished && decide (tm.memcnt = 0 ∧ tm.setcnt = 0 ∧ tm.arrcnt = 0 ∧ tm.bankcnt = 0) then 0 else 64 * tm.L * tm.G
/-- The free bytes of a partition's pool (R54). -/
def Block.pool (b : Block) (p : Nat) : Nat :=
  Config.poolBytes - (b.teams.filter fun x => x.1 % 4 == p).foldl (fun a x => a + x.2.poolBytes) 0

/-- Return granules: registers at and above v(8G) lose their contents, and results bound for them are discarded with their flags
(R54, R76, R174). -/
def Team.shrinkTo (tm : Team) (G : Nat) : Team :=
  { tm with G, v := tm.v.filter fun x => decide (x.1 < 8 * G * 1024),
            vpoison := tm.vpoison.filter fun q => decide (q.1 < 8 * G),
            pend := tm.pend.map fun p => { p with kind := p.kind.loseV (8 * G), wrote := p.wrote ++ (p.dests.filterMap fun d => match d with
              | .v r => if 8 * G ≤ r then some (d, fullMask 1024) else none
              | _ => none) } }

/-- The effect of `rolesw` once its allotment stands (R56). -/
def Team.takeRole (tm : Team) (csn : Nat) (d : Nat) (old : Word) (copy : Bool) (prio pc : Nat) : Team :=
  ({ tm with copy, prio }.modFrag csn fun f => { f with pc, hold := .none }).setS d old

/-- Grant the request at the head of a partition's queue when the pool holds its bytes (R54). -/
def Block.grantOne (b : Block) (p : Nat) : Option (Block × Nat × Nat) :=
  match (b.part p).grants with
  | [] => none
  | (t, csn, n) :: rest =>
    match AMap.find? b.teams t with
    | none => none
    | some tm =>
      if !tm.halted && decide (64 * tm.L * n ≤ b.pool p) then
        let b := b.modPart p fun q => { q with grants := rest }
        let tm := { tm with G := tm.G + n }
        let tm := match tm.frag csn with
          | some f => match f.hold with
            | .role d old copy prio pc => tm.takeRole csn d old copy prio pc
            | _ => tm.modFrag csn fun f => { f with pc := f.pc + 8, hold := .none }
          | none => tm
        some ({ b with teams := AMap.put b.teams t tm }, t, csn)
      else none

/-- Grant the requests of a partition that its pool holds, in their order (R54); at most n of them. -/
def State.grantAll (s : State) (k p : Nat) : Nat → State
  | 0 => s
  | n + 1 => match (s.block k).bind fun b => b.grantOne p with
    | none => s
    | some (b, t, _) => State.grantAll ((s.modBlock k fun _ => b).settle k t) k p n
/-- Freed bytes serve a partition's grant queue at once (R174). -/
def State.serveGrants (s : State) (k p : Nat) : State :=
  s.grantAll k p ((s.block k).elim 0 fun b => (b.part p).grants.length)

/-- n as `grow`, `shrink` and `allot` accept it: 1 to 15 (R174, R346). [log 22: DEDUCED] -/
def countOk (n : BitVec 28) : Bool := decide (1 ≤ n.toInt) && decide (n.toInt ≤ 15)

/-- `grow` (R54, R174): the fragment parks until its grant. -/
def issueGrow (o : GrowN) : Issue :=
  { g := o.g,
    body := fun c _ s =>
      let n := o.n.toNat
      if !countOk o.n || decide (16 < c.tm.G + n + c.b.pendingGrants c.t) then .trap 0x06 9 0 none
      else .hand .grow (s.modBlock c.k fun b => b.modPart (c.t % 4) fun q => { q with grants := q.grants ++ [(c.t, c.csn, n)] }) }
def execGrow (o : GrowN) (s : State) : Res := s.issue (issueGrow o)

/-- `shrink` (R54, R174): the freed bytes serve the grant queue at once. -/
def issueShrink (o : GrowN) : Issue :=
  { g := o.g,
    body := fun c _ s =>
      let n := o.n.toNat
      if !countOk o.n || decide (c.tm.G ≤ n) then .trap 0x06 9 0 none
      else .after (s.modTeam c.k c.t fun tm => tm.shrinkTo (tm.G - n)) fun s => s.serveGrants c.k (c.t % 4) }
def execShrink (o : GrowN) (s : State) : Res := s.issue (issueShrink o)

/-- `allot` (R174, R346): G + n above 16 traps, as for `grow`; it grants at once when nothing waits and the pool holds the bytes, else
sD = 0. [log 22: DEDUCED] -/
def issueAllot (o : AllotN) : Issue :=
  { g := o.g, writes := [.s o.d.toNat],
    body := fun c _ s =>
      let n := o.n.toNat
      if !countOk o.n || decide (16 < c.tm.G + n) then .trap 0x06 9 0 none
      else if (c.b.part (c.t % 4)).grants.isEmpty && decide (64 * c.tm.L * n ≤ c.b.pool (c.t % 4)) then
        .done (c.setSc o.d 1 (s.modTeam c.k c.t fun tm => { tm with G := tm.G + n }))
      else .done (c.setSc o.d 0 s) }
def execAllot (o : AllotN) (s : State) : Res := s.issue (issueAllot o)

/-- `rolesw` (R56, R175, R346): TARGET of sB, OPERAND of sA, STATE with more than one fragment; it parks until the team's
counters are zero, and for more granules until their grant. -/
def issueRolesw (o : RoleSw) : Issue :=
  { g := o.g, reads := [.s o.a.toNat, .s o.b.toNat], writes := [.s o.d.toNat],
    body := fun c _ s =>
      let w := (c.tm.sreg o.a.toNat).toNat
      let pc := c.tm.sreg o.b.toNat
      let G' := bits w 1 4 + 1
      let old : Word := BitVec.ofNat 64 (b01 c.tm.copy + (c.tm.G - 1) * 2 + c.tm.prio * 2 ^ 8)
      if !targetOk pc then .trap 0x05 7 0 none
      else if w ≠ bits w 0 5 + bits w 8 2 * 2 ^ 8 then .trap 0x06 6 0 none
      else if 1 < c.tm.frags.length then .trap 0x07 0 0 none
      else if ¬(c.tm.memcnt = 0 ∧ c.tm.setcnt = 0 ∧ c.tm.arrcnt = 0 ∧ c.tm.bankcnt = 0) then .park (.poll 0) s
      else if c.tm.G < G' then
        .hand (.role o.d.toNat old (bit w 0) (bits w 8 2) pc.toNat)
          (s.modBlock c.k fun b => b.modPart (c.t % 4) fun q => { q with grants := q.grants ++ [(c.t, c.csn, G' - c.tm.G)] })
      else
        .raw ((s.modTeam c.k c.t fun tm =>
          ((if G' < tm.G then tm.shrinkTo G' else tm).takeRole c.csn o.d.toNat old (bit w 0) (bits w 8 2) pc.toNat)).serveGrants c.k (c.t % 4)) }
def execRolesw (o : RoleSw) (s : State) : Res := s.issue (issueRolesw o)

/-- `GROW_GRANT`: the oldest request of a partition is granted when the pool holds its bytes (R54, R174). -/
def execGrowGrant (core part : Nat) (s : State) : Res :=
  match s.block core with
  | none => .next s
  | some b =>
    match b.grantOne (part % 4) with
    | none => .next s
    | some (b, t, _) => .next ((s.modBlock core fun _ => b).settle core t)

end Sys2Proof.Machine
end

