-- ==== Sys2Proof/Machine/SetInstr.lean ====
section
/-!
DEFINITION. Sys2Proof/Machine/SetInstr.lean: the issue of the set instructions (R249, R265 to R271, R387): their checks, and
the operation that each sends to the home of its set. What a home does with it stands in Sys2Proof/Machine/SetHome.lean.
-/

namespace Sys2Proof.Machine

/-- KSPEC [6:0] of a handle: its home slice (R249). -/
def handleHome (cap : Cap) : Nat := bits (capKspec cap) 0 7
/-- The header address that a handle names (R249). -/
def handleVa (cap : Cap) : Nat := capBase cap % 2 ^ 57

/-- The check of a handle in a field: kind 3 and its permission (R363, R387). [log 30: DEDUCED] -/
def Ctx.handle (c : Ctx) (cap field perm : Nat) : Access :=
  { cap, field, kinds := [3], perm, n := 0, align := 1, once := true,
    addrs := [(lowLane c.f.mask, (capBase (c.tm.creg cap).1 : Int))] }

/-- Send an operation to the home of a set (R260, R262): it is outstanding and counted until it is accepted or its result is
written (R264). -/
def Ctx.sendSet (c : Ctx) (la func : Nat) (cap home va : Nat) (srcs : List SetSrc) (req : SetReq) (dst : Option RegRef)
    (s : State) : State :=
  let seq := s.seqNo
  let s := c.pend .set la (match dst with | some d => [d] | none => []) (.set true dst none) s
  let op : SetOp := { seq, core := c.k, team := c.t, vi := c.b.vi, asid := c.b.asid, home, va, cap, srcs, reads := [],
                      posted := [], req, func }
  s.modCluster home fun q => { q with setq := q.setq ++ [op] }

/-- Send an operation on the set that a handle register names. -/
def Ctx.onHandle (c : Ctx) (la func cap : Nat) (srcs : List SetSrc) (req : SetReq) (dst : Option RegRef) (s : State) : State :=
  c.sendSet la func cap (handleHome (c.tm.creg cap).1) (handleVa (c.tm.creg cap).1) srcs req dst s

/-- A set instruction on one handle, checked and sent. [log 30: DEDUCED] -/
def setIssue (g : Guard) (la : BitVec 4) (a : CReg) (perm func : Nat) (perLane : Bool) (reads writes : List RegRef)
    (vregs : List (Nat × Nat)) (dst : Option RegRef) (req : Ctx → List Nat → State → SetReq) : Issue :=
  { g, perLane, reads := .c a.toNat :: reads, writes, counts := some .set, vectorOnly := true, access := true, vregs,
    body := fun c E s =>
      checked c.tm [c.handle a.toNat 6 perm] <|
        .done (c.onHandle la.toNat func a.toNat [] (req c (lanesOf c.tm.L E) s) dst s) }

/-- The element of each lane (R265). -/
def Ctx.elements (c : Ctx) (x : VIdx) (ls : List Nat) : List (Nat × Nat) :=
  ls.map fun l => (l, bits ((c.srcVI x).word c.tm l).toNat 0 32)
/-- A predicate destination; `p7` discards (R265). -/
def predDst (d : PReg) : Option RegRef := if d = 7#3 then none else some (.p d.toNat)

/-- The operands of `set.new` (R267, R387): the FIELD at fault, if any. [log 30: DEDUCED] -/
def newFault (b c : Nat) : Option Nat :=
  let lo := bits b 0 32
  let u := bits c 0 32
  if 2 ^ 32 ≤ b ∨ lo % 64 ≠ 0 ∨ 2 ^ 32 < lo + u then some 7
  else if 2 ^ 40 ≤ c ∨ u % 64 ≠ 0 ∨ u < 64 ∨ 0xFFFFFFC0 < u then some 8
  else none

/-- `set.new` (R267): an empty set whose header and backing area a buffer capability gives. -/
def issueSetNew (o : SetNew) : Issue :=
  { g := o.g, reads := [.c o.a.toNat, .s o.b.toNat, .s o.c.toNat], writes := [.c o.d.toNat], counts := some .set,
    vectorOnly := true, access := true,
    body := fun c _ s =>
      let (cap, tag) := c.tm.creg o.a.toNat
      let b := (c.tm.sreg o.b.toNat).toNat
      let x := (c.tm.sreg o.c.toNat).toNat
      match newFault b x with
      | some f => .trap 0x06 f 0 none
      | none =>
        checked c.tm [{ cap := o.a.toNat, kinds := [0], perm := permRD + permWR + permEN, n := 64, align := 64, once := true,
                        addrs := [(lowLane c.f.mask, (capBase cap : Int))] }] <|
          let home := if bit x 39 then clusterOf c.k else bits x 32 7
          .done (c.sendSet o.la.toNat 0 o.a.toNat home (handleVa cap) []
            (.new (bits b 0 32) (bits x 0 32) (capLen cap - 64)
              (mkCap (capBase cap) (capLen cap) (capPerm cap &&& (permRD + permWR)) 3 home) tag) (some (.c o.d.toNat)) s) }
def execSetNew (o : SetNew) (s : State) : Res := s.issue (issueSetNew o)

/-- `set.free` (R267). -/
def issueSetFree (o : SetOne) : Issue := setIssue o.g o.la o.a permWR 0x01 false [] [] [] none fun _ _ _ => .free
def execSetFree (o : SetOne) (s : State) : Res := s.issue (issueSetFree o)

/-- `set.ins` (R268). -/
def issueSetIns (o : SetEl) : Issue :=
  setIssue o.g o.la o.a permWR 0x02 true (refVI o.x) (refPD o.d) (vOfVI 7 o.x) (predDst o.d)
    fun c ls _ => .ins (c.elements o.x ls)
def execSetIns (o : SetEl) (s : State) : Res := s.issue (issueSetIns o)

/-- `set.del` (R268). -/
def issueSetDel (o : SetEl) : Issue :=
  setIssue o.g o.la o.a permWR 0x03 true (refVI o.x) (refPD o.d) (vOfVI 7 o.x) (predDst o.d)
    fun c ls _ => .del (c.elements o.x ls)
def execSetDel (o : SetEl) (s : State) : Res := s.issue (issueSetDel o)

/-- `set.has` (R268). -/
def issueSetHas (o : SetEl) : Issue :=
  setIssue o.g o.la o.a permRD 0x04 true (refVI o.x) (refPD o.d) (vOfVI 7 o.x) (predDst o.d)
    fun c ls _ => .has (c.elements o.x ls)
def execSetHas (o : SetEl) (s : State) : Res := s.issue (issueSetHas o)

/-- `set.card` (R269). -/
def issueSetCard (o : SetCard) : Issue :=
  setIssue o.g o.la o.a permRD 0x05 false [] [.s o.d.toNat] [] (some (.s o.d.toNat)) fun _ _ _ => .card
def execSetCard (o : SetCard) (s : State) : Res := s.issue (issueSetCard o)

/-- A source handle (R262). -/
def Ctx.setSrc (c : Ctx) (cap : Nat) : SetSrc :=
  { va := handleVa (c.tm.creg cap).1, home := handleHome (c.tm.creg cap).1, cap }
/-- `set.or`, `set.and`, `set.andn`: DEST is read as the destination handle (R266, R270). -/
def algIssue (o : SetAlg) (func : Nat) : Issue :=
  { g := o.g, reads := [.c o.d.toNat, .c o.a.toNat, .c o.b.toNat], counts := some .set, vectorOnly := true, access := true,
    body := fun c _ s =>
      checked c.tm [c.handle o.d.toNat 5 permWR, c.handle o.a.toNat 6 permRD, c.handle o.b.toNat 7 permRD] <|
        .done (c.onHandle o.la.toNat func o.d.toNat [c.setSrc o.a.toNat, c.setSrc o.b.toNat] (.alg func) none s) }
/-- `set.or` -/
def issueSetOr (o : SetAlg) : Issue := algIssue o 0x06
def execSetOr (o : SetAlg) (s : State) : Res := s.issue (issueSetOr o)
/-- `set.and` -/
def issueSetAnd (o : SetAlg) : Issue := algIssue o 0x07
def execSetAnd (o : SetAlg) (s : State) : Res := s.issue (issueSetAnd o)
/-- `set.andn` -/
def issueSetAndn (o : SetAlg) : Issue := algIssue o 0x08
def execSetAndn (o : SetAlg) (s : State) : Res := s.issue (issueSetAndn o)
/-- `set.copy` (R270). -/
def issueSetCopy (o : SetCopy) : Issue :=
  { g := o.g, reads := [.c o.d.toNat, .c o.a.toNat], counts := some .set, vectorOnly := true, access := true,
    body := fun c _ s =>
      checked c.tm [c.handle o.d.toNat 5 permWR, c.handle o.a.toNat 6 permRD] <|
        .done (c.onHandle o.la.toNat 0x09 o.d.toNat [c.setSrc o.a.toNat] (.alg 0x09) none s) }
def execSetCopy (o : SetCopy) (s : State) : Res := s.issue (issueSetCopy o)

/-- `set.clr` (R270). -/
def issueSetClr (o : SetOne) : Issue := setIssue o.g o.la o.a permWR 0x0A false [] [] [] none fun _ _ _ => .clr
def execSetClr (o : SetOne) (s : State) : Res := s.issue (issueSetClr o)

/-- `set.enum` (R269): the cursor is read once, unsigned. -/
def issueSetEnum (o : SetEnum) : Issue :=
  setIssue o.g o.la o.a permRD 0x0B true (refSI o.c) [.v o.d.toNat] [(5, o.d.toNat)] (some (.v o.d.toNat))
    fun c ls _ => .enum (c.once (c.srcSI o.c)).toNat ls
def execSetEnum (o : SetEnum) (s : State) : Res := s.issue (issueSetEnum o)

/-- `set.info` (R269). -/
def issueSetInfo (o : SetInfo) : Issue :=
  setIssue o.g o.la o.a permRD 0x0C false [] [.s o.d.toNat] [] (some (.s o.d.toNat)) fun _ _ _ => .info o.f.toNat
def execSetInfo (o : SetInfo) (s : State) : Res := s.issue (issueSetInfo o)

/-- `set.pin` (R271). -/
def issueSetPin (o : SetPin) : Issue := setIssue o.g o.la o.a permWR 0x0D false [] [] [] none fun _ _ _ => .pin o.mode
def execSetPin (o : SetPin) (s : State) : Res := s.issue (issueSetPin o)

end Sys2Proof.Machine
end

