-- ==== Sys2Proof/Machine/System.lean ====
section
/-!
DEFINITION. Sys2Proof/Machine/System.lean: traps and returns, control and status registers, debug breaks, signatures
(R169 to R173, R335, R343, R349, R355, R388), and the issue of a reserved word.
-/

namespace Sys2Proof.Machine

/-- `trap`: the USER trap with its 16-bit code (R169, R341). -/
def issueTrap (o : Code16) : Issue := { g := o.g, onStack := true, body := fun _ _ _ => .trap 0x01 0 o.code.toNat none }
def execTrap (o : Code16) (s : State) : Res := s.issue (issueTrap o)

/-- `eret`: STATE outside handler mode; otherwise the return of R169, or the halt that was held (R349). -/
def issueEret (o : GOnly) : Issue :=
  { g := o.g, onStack := true,
    body := fun c _ s => if c.tm.handler then .raw (s.trapReturn c.k c.t c.csn) else .trap 0x07 0 0 none }
def execEret (o : GOnly) (s : State) : Res := s.issue (issueEret o)

/-- `csrr`: the register as it stands at its issue (R171). -/
def issueCsrr (o : CsrOp) : Issue :=
  { g := o.g, onStack := true, writes := [.s o.r.toNat],
    body := fun c _ s => .done (c.setSc o.r (c.csr s o.csr) s) }
def execCsrr (o : CsrOp) (s : State) : Res := s.issue (issueCsrr o)

/-- The bits that a read-only register defines: those of its table, 32 of `SIGACC`, and all of a register that has no table (R53, R54, R149,
R172, R233, R295, R340). [log 23: DEDUCED] -/
def csrBits : Csr → Word
  | .teamstat => 0x001FFFFFFFFFFFFF
  | .allot => 0x1F1F
  | .sigacc => 0xFFFFFFFF
  | .trapcause => 0x000003FFFFFF3FFF
  | .bbase => 0xFFFFFFFFF
  | .rowprog => 0x7FF
  | _ => BitVec.allOnes 64
/-- What `csrw` of a value does: the team it leaves, or the lowest field at fault: SRCA for bits that the register does not define, IMM for a
read-only register (R171, R342, R346). [log 23: DEDUCED] -/
def csrWrite (r : Csr) (w : Word) (tm : Team) : Team ⊕ Nat :=
  match r with
  | .prio => if w.toNat < 4 then .inl { tm with prio := w.toNat } else .inr 6
  | .fpflags => if w.toNat < 64 then .inl { tm with fpflags := w.toNat } else .inr 6
  | .trapvec => if targetOk w then .inl { tm with trapvec := w } else .inr 6
  | r => .inr (if w &&& csrBits r = w then 9 else 6)
/-- `csrw`. [log 23: DEDUCED] -/
def issueCsrw (o : CsrOp) : Issue :=
  { g := o.g, onStack := true, reads := [.s o.r.toNat],
    body := fun c _ s =>
      match csrWrite o.csr (c.tm.sreg o.r.toNat) c.tm with
      | .inl tm => .done (s.modTeam c.k c.t fun _ => tm)
      | .inr field => .trap 0x06 field 0 none }
def execCsrw (o : CsrOp) (s : State) : Res := s.issue (issueCsrw o)

/-- `brk`: a debug stop while DBG is set and fewer than four partitions of the interface stand stopped, else `nop`
(R170, R355). The stop comes after the instruction has completed. -/
def issueBrk (o : Code16) : Issue :=
  { g := o.g,
    body := fun c _ s =>
      let i := s.iface c.b.vi
      if bit i.victl.toNat 1 && decide (s.stoppedOf c.b.vi < 4) then
        if paOk i.saveArea && paOk (i.saveArea + 2 ^ 23 - 1) then .after s fun s => s.debugStop c.k c.t o.code.toNat
        else .stop .noSuchAddress
      else .done s }
def execBrk (o : Code16) (s : State) : Res := s.issue (issueBrk o)

/-- `sig.chk`: SIGMIS when `SIGACC` differs while the team is one fragment; a kind-8 entry is posted (R173, R388, R416). -/
def issueSigChk (o : SigChk) : Issue :=
  { g := o.g, onStack := true,
    body := fun c _ s =>
      let want := o.limm.toNat % 2 ^ 32
      if c.tm.frags.length = 1 && c.tm.sigacc != want then
        .trapIn (s.postFault c.b.vi 8 0x30 (sourceOf 0 (4 * c.k + c.t % 4)) 0 [c.f.pc + c.len, c.tm.sigacc, want, 0, 0, 0]
          none none none) 0x30 10 (c.tm.sigacc % 65536)
      else .done s }
def execSigChk (o : SigChk) (s : State) : Res := s.issue (issueSigChk o)

/-- `sig.rst`: `SIGACC` becomes 0xFFFFFFFF, without a record of its own (R173). -/
def issueSigRst (o : GOnly) : Issue :=
  { g := o.g, onStack := true, noRecord := true,
    body := fun c _ s => .done (s.modTeam c.k c.t fun tm => { tm with sigacc := 0xFFFFFFFF }) }
def execSigRst (o : GOnly) (s : State) : Res := s.issue (issueSigRst o)

end Sys2Proof.Machine
end

