-- ==== Sys2Proof/Machine/Dispatch.lean ====
section
/-!
DEFINITION. Sys2Proof/Machine/Dispatch.lean: the meaning of every instruction and event, one arm for each row of
spec/opcode_table.json.
-/

namespace Sys2Proof.Machine

/-- The effect of one instruction, or of one event of the device. -/
def exec (i : Instr) (s : State) : Host.Outcome State Fault Refusal :=
  match i with
  | .sAdd o => Sys2Proof.Machine.execSAdd o s
  | .sSub o => Sys2Proof.Machine.execSSub o s
  | .sMul o => Sys2Proof.Machine.execSMul o s
  | .sMulh o => Sys2Proof.Machine.execSMulh o s
  | .sAnd o => Sys2Proof.Machine.execSAnd o s
  | .sOr o => Sys2Proof.Machine.execSOr o s
  | .sXor o => Sys2Proof.Machine.execSXor o s
  | .sAndn o => Sys2Proof.Machine.execSAndn o s
  | .sShl o => Sys2Proof.Machine.execSShl o s
  | .sShr o => Sys2Proof.Machine.execSShr o s
  | .sSra o => Sys2Proof.Machine.execSSra o s
  | .sMin o => Sys2Proof.Machine.execSMin o s
  | .sMax o => Sys2Proof.Machine.execSMax o s
  | .sClz o => Sys2Proof.Machine.execSClz o s
  | .sPopc o => Sys2Proof.Machine.execSPopc o s
  | .sCmp o => Sys2Proof.Machine.execSCmp o s
  | .sSel o => Sys2Proof.Machine.execSSel o s
  | .sMov o => Sys2Proof.Machine.execSMov o s
  | .sAddImm o => Sys2Proof.Machine.execSAddImm o s
  | .sSubImm o => Sys2Proof.Machine.execSSubImm o s
  | .sMulImm o => Sys2Proof.Machine.execSMulImm o s
  | .sAndImm o => Sys2Proof.Machine.execSAndImm o s
  | .sOrImm o => Sys2Proof.Machine.execSOrImm o s
  | .sXorImm o => Sys2Proof.Machine.execSXorImm o s
  | .sAndnImm o => Sys2Proof.Machine.execSAndnImm o s
  | .sShlImm o => Sys2Proof.Machine.execSShlImm o s
  | .sShrImm o => Sys2Proof.Machine.execSShrImm o s
  | .sSraImm o => Sys2Proof.Machine.execSSraImm o s
  | .sLi o => Sys2Proof.Machine.execSLi o s
  | .longImmediatePrefix o => Sys2Proof.Machine.execLongImmediatePrefix o s
  | .sLd o => Sys2Proof.Machine.execSLd o s
  | .sSt o => Sys2Proof.Machine.execSSt o s
  | .br o => Sys2Proof.Machine.execBr o s
  | .brc o => Sys2Proof.Machine.execBrc o s
  | .brv o => Sys2Proof.Machine.execBrv o s
  | .breakv o => Sys2Proof.Machine.execBreakv o s
  | .call o => Sys2Proof.Machine.execCall o s
  | .ret o => Sys2Proof.Machine.execRet o s
  | .jmp o => Sys2Proof.Machine.execJmp o s
  | .loop o => Sys2Proof.Machine.execLoop o s
  | .exit o => Sys2Proof.Machine.execExit o s
  | .yield o => Sys2Proof.Machine.execYield o s
  | .safept o => Sys2Proof.Machine.execSafept o s
  | .waitcnt o => Sys2Proof.Machine.execWaitcnt o s
  | .nop o => Sys2Proof.Machine.execNop o s
  | .pAnd o => Sys2Proof.Machine.execPAnd o s
  | .pOr o => Sys2Proof.Machine.execPOr o s
  | .pXor o => Sys2Proof.Machine.execPXor o s
  | .pAndn o => Sys2Proof.Machine.execPAndn o s
  | .pNot o => Sys2Proof.Machine.execPNot o s
  | .pMov o => Sys2Proof.Machine.execPMov o s
  | .pAny o => Sys2Proof.Machine.execPAny o s
  | .pAll o => Sys2Proof.Machine.execPAll o s
  | .pCnt o => Sys2Proof.Machine.execPCnt o s
  | .pFirst o => Sys2Proof.Machine.execPFirst o s
  | .pFromv o => Sys2Proof.Machine.execPFromv o s
  | .pTov o => Sys2Proof.Machine.execPTov o s
  | .pAct o => Sys2Proof.Machine.execPAct o s
  | .trap o => Sys2Proof.Machine.execTrap o s
  | .eret o => Sys2Proof.Machine.execEret o s
  | .csrr o => Sys2Proof.Machine.execCsrr o s
  | .csrw o => Sys2Proof.Machine.execCsrw o s
  | .brk o => Sys2Proof.Machine.execBrk o s
  | .sigChk o => Sys2Proof.Machine.execSigChk o s
  | .sigRst o => Sys2Proof.Machine.execSigRst o s
  | .grow o => Sys2Proof.Machine.execGrow o s
  | .shrink o => Sys2Proof.Machine.execShrink o s
  | .rolesw o => Sys2Proof.Machine.execRolesw o s
  | .allot o => Sys2Proof.Machine.execAllot o s
  | .vAdd o => Sys2Proof.Machine.execVAdd o s
  | .vSub o => Sys2Proof.Machine.execVSub o s
  | .vMul o => Sys2Proof.Machine.execVMul o s
  | .vMulh o => Sys2Proof.Machine.execVMulh o s
  | .vMad o => Sys2Proof.Machine.execVMad o s
  | .vAdds o => Sys2Proof.Machine.execVAdds o s
  | .vSubs o => Sys2Proof.Machine.execVSubs o s
  | .vAnd o => Sys2Proof.Machine.execVAnd o s
  | .vOr o => Sys2Proof.Machine.execVOr o s
  | .vXor o => Sys2Proof.Machine.execVXor o s
  | .vAndn o => Sys2Proof.Machine.execVAndn o s
  | .vShl o => Sys2Proof.Machine.execVShl o s
  | .vShr o => Sys2Proof.Machine.execVShr o s
  | .vSra o => Sys2Proof.Machine.execVSra o s
  | .vMin o => Sys2Proof.Machine.execVMin o s
  | .vMax o => Sys2Proof.Machine.execVMax o s
  | .vAbs o => Sys2Proof.Machine.execVAbs o s
  | .vClz o => Sys2Proof.Machine.execVClz o s
  | .vPopc o => Sys2Proof.Machine.execVPopc o s
  | .vCmp o => Sys2Proof.Machine.execVCmp o s
  | .vSel o => Sys2Proof.Machine.execVSel o s
  | .vMov o => Sys2Proof.Machine.execVMov o s
  | .vPack o => Sys2Proof.Machine.execVPack o s
  | .vUnpk o => Sys2Proof.Machine.execVUnpk o s
  | .vExt o => Sys2Proof.Machine.execVExt o s
  | .vIns o => Sys2Proof.Machine.execVIns o s
  | .vAddImm o => Sys2Proof.Machine.execVAddImm o s
  | .vSubImm o => Sys2Proof.Machine.execVSubImm o s
  | .vMulImm o => Sys2Proof.Machine.execVMulImm o s
  | .vAndImm o => Sys2Proof.Machine.execVAndImm o s
  | .vOrImm o => Sys2Proof.Machine.execVOrImm o s
  | .vXorImm o => Sys2Proof.Machine.execVXorImm o s
  | .vAndnImm o => Sys2Proof.Machine.execVAndnImm o s
  | .vShlImm o => Sys2Proof.Machine.execVShlImm o s
  | .vShrImm o => Sys2Proof.Machine.execVShrImm o s
  | .vSraImm o => Sys2Proof.Machine.execVSraImm o s
  | .vLi o => Sys2Proof.Machine.execVLi o s
  | .vFadd o => Sys2Proof.Machine.execVFadd o s
  | .vFsub o => Sys2Proof.Machine.execVFsub o s
  | .vFmul o => Sys2Proof.Machine.execVFmul o s
  | .vFma o => Sys2Proof.Machine.execVFma o s
  | .vFmin o => Sys2Proof.Machine.execVFmin o s
  | .vFmax o => Sys2Proof.Machine.execVFmax o s
  | .vFcmp o => Sys2Proof.Machine.execVFcmp o s
  | .vFabs o => Sys2Proof.Machine.execVFabs o s
  | .vFneg o => Sys2Proof.Machine.execVFneg o s
  | .vFclass o => Sys2Proof.Machine.execVFclass o s
  | .vFrcp o => Sys2Proof.Machine.execVFrcp o s
  | .vFrsq o => Sys2Proof.Machine.execVFrsq o s
  | .vFsqrt o => Sys2Proof.Machine.execVFsqrt o s
  | .vFexp2 o => Sys2Proof.Machine.execVFexp2 o s
  | .vFlog2 o => Sys2Proof.Machine.execVFlog2 o s
  | .vCvt o => Sys2Proof.Machine.execVCvt o s
  | .vCvti o => Sys2Proof.Machine.execVCvti o s
  | .vCvtf o => Sys2Proof.Machine.execVCvtf o s
  | .vQnt o => Sys2Proof.Machine.execVQnt o s
  | .vDqt o => Sys2Proof.Machine.execVDqt o s
  | .vCbld o => Sys2Proof.Machine.execVCbld o s
  | .vCbenc o => Sys2Proof.Machine.execVCbenc o s
  | .vShfl o => Sys2Proof.Machine.execVShfl o s
  | .vBcst o => Sys2Proof.Machine.execVBcst o s
  | .vVote o => Sys2Proof.Machine.execVVote o s
  | .vScan o => Sys2Proof.Machine.execVScan o s
  | .vRed o => Sys2Proof.Machine.execVRed o s
  | .vPerm o => Sys2Proof.Machine.execVPerm o s
  | .vLd o => Sys2Proof.Machine.execVLd o s
  | .vSt o => Sys2Proof.Machine.execVSt o s
  | .vLdb o => Sys2Proof.Machine.execVLdb o s
  | .vAtomAdd o => Sys2Proof.Machine.execVAtomAdd o s
  | .vAtomMin o => Sys2Proof.Machine.execVAtomMin o s
  | .vAtomMax o => Sys2Proof.Machine.execVAtomMax o s
  | .vAtomAnd o => Sys2Proof.Machine.execVAtomAnd o s
  | .vAtomOr o => Sys2Proof.Machine.execVAtomOr o s
  | .vAtomXor o => Sys2Proof.Machine.execVAtomXor o s
  | .vAtomXchg o => Sys2Proof.Machine.execVAtomXchg o s
  | .vAtomCas o => Sys2Proof.Machine.execVAtomCas o s
  | .vAtomFadd o => Sys2Proof.Machine.execVAtomFadd o s
  | .fence o => Sys2Proof.Machine.execFence o s
  | .cNarrow o => Sys2Proof.Machine.execCNarrow o s
  | .cPerm o => Sys2Proof.Machine.execCPerm o s
  | .cGet o => Sys2Proof.Machine.execCGet o s
  | .cTag o => Sys2Proof.Machine.execCTag o s
  | .cMov o => Sys2Proof.Machine.execCMov o s
  | .cLd o => Sys2Proof.Machine.execCLd o s
  | .cSt o => Sys2Proof.Machine.execCSt o s
  | .cMk o => Sys2Proof.Machine.execCMk o s
  | .tsInit o => Sys2Proof.Machine.execTsInit o s
  | .tsArrive o => Sys2Proof.Machine.execTsArrive o s
  | .tsWait o => Sys2Proof.Machine.execTsWait o s
  | .tsArrw o => Sys2Proof.Machine.execTsArrw o s
  | .tsQuery o => Sys2Proof.Machine.execTsQuery o s
  | .crInit o => Sys2Proof.Machine.execCrInit o s
  | .crWait o => Sys2Proof.Machine.execCrWait o s
  | .crPass o => Sys2Proof.Machine.execCrPass o s
  | .cpyPut o => Sys2Proof.Machine.execCpyPut o s
  | .cpyIdx o => Sys2Proof.Machine.execCpyIdx o s
  | .pgReq o => Sys2Proof.Machine.execPgReq o s
  | .pgTest o => Sys2Proof.Machine.execPgTest o s
  | .setNew o => Sys2Proof.Machine.execSetNew o s
  | .setFree o => Sys2Proof.Machine.execSetFree o s
  | .setIns o => Sys2Proof.Machine.execSetIns o s
  | .setDel o => Sys2Proof.Machine.execSetDel o s
  | .setHas o => Sys2Proof.Machine.execSetHas o s
  | .setCard o => Sys2Proof.Machine.execSetCard o s
  | .setOr o => Sys2Proof.Machine.execSetOr o s
  | .setAnd o => Sys2Proof.Machine.execSetAnd o s
  | .setAndn o => Sys2Proof.Machine.execSetAndn o s
  | .setCopy o => Sys2Proof.Machine.execSetCopy o s
  | .setClr o => Sys2Proof.Machine.execSetClr o s
  | .setEnum o => Sys2Proof.Machine.execSetEnum o s
  | .setInfo o => Sys2Proof.Machine.execSetInfo o s
  | .setPin o => Sys2Proof.Machine.execSetPin o s
  | .aTld o => Sys2Proof.Machine.execATld o s
  | .aTst o => Sys2Proof.Machine.execATst o s
  | .aFill o => Sys2Proof.Machine.execAFill o s
  | .aLog o => Sys2Proof.Machine.execALog o s
  | .aAdd o => Sys2Proof.Machine.execAAdd o s
  | .aSub o => Sys2Proof.Machine.execASub o s
  | .aMul o => Sys2Proof.Machine.execAMul o s
  | .aCmp o => Sys2Proof.Machine.execACmp o s
  | .aSel o => Sys2Proof.Machine.execASel o s
  | .aShf o => Sys2Proof.Machine.execAShf o s
  | .aPopc o => Sys2Proof.Machine.execAPopc o s
  | .aWait o => Sys2Proof.Machine.execAWait o s
  | .bLift o => Sys2Proof.Machine.execBLift o s
  | .bLand o => Sys2Proof.Machine.execBLand o s
  | .bUcld o => Sys2Proof.Machine.execBUcld o s
  | .bRun o => Sys2Proof.Machine.execBRun o s
  | .bStep o => Sys2Proof.Machine.execBStep o s
  | .bWait o => Sys2Proof.Machine.execBWait o s
  | .bFence o => Sys2Proof.Machine.execBFence o s
  | .bAccRd o => Sys2Proof.Machine.execBAccRd o s
  | .bAccWr o => Sys2Proof.Machine.execBAccWr o s
  | .bStat o => Sys2Proof.Machine.execBStat o s
  | .mTdld o => Sys2Proof.Machine.execMTdld o s
  | .mSdld o => Sys2Proof.Machine.execMSdld o s
  | .mCapld o => Sys2Proof.Machine.execMCapld o s
  | .mZero o => Sys2Proof.Machine.execMZero o s
  | .mAcst o => Sys2Proof.Machine.execMAcst o s
  | .mAcld o => Sys2Proof.Machine.execMAcld o s
  | .mArrive o => Sys2Proof.Machine.execMArrive o s
  | .mWait o => Sys2Proof.Machine.execMWait o s
  | .mLoop o => Sys2Proof.Machine.execMLoop o s
  | .mJmp o => Sys2Proof.Machine.execMJmp o s
  | .mEnd => Sys2Proof.Machine.execMEnd s
  | .mMirror o => Sys2Proof.Machine.execMMirror o s
  | .mRowp o => Sys2Proof.Machine.execMRowp o s
  | .mMma o => Sys2Proof.Machine.execMMma o s
  | .illegalWordIssue r => Sys2Proof.Machine.execIllegalWordIssue r s
  | .instructionFetch core va => Sys2Proof.Machine.execInstructionFetch core va s
  | .fragmentReload core part => Sys2Proof.Machine.execFragmentReload core part s
  | .growGrant core part => Sys2Proof.Machine.execGrowGrant core part s
  | .storeBufferDrain core team => Sys2Proof.Machine.execStoreBufferDrain core team s
  | .storeAck core k => Sys2Proof.Machine.execStoreAck core k s
  | .atomicPerform core k => Sys2Proof.Machine.execAtomicPerform core k s
  | .loadResultReturn core team k => Sys2Proof.Machine.execLoadResultReturn core team k s
  | .specialFunctionComplete core team k => Sys2Proof.Machine.execSpecialFunctionComplete core team k s
  | .pageWalk core k => Sys2Proof.Machine.execPageWalk core k s
  | .walkAheadPrefetch cluster va asid wr => Sys2Proof.Machine.execWalkAheadPrefetch cluster va asid wr s
  | .pageRequestWrite vi => Sys2Proof.Machine.execPageRequestWrite vi s
  | .faultEntryWrite vi => Sys2Proof.Machine.execFaultEntryWrite vi s
  | .launchPacketRead slot => Sys2Proof.Machine.execLaunchPacketRead slot s
  | .waitConditionEval slot => Sys2Proof.Machine.execWaitConditionEval slot s
  | .ringmasterDecision => Sys2Proof.Machine.execRingmasterDecision s
  | .ringmasterHoldStep => Sys2Proof.Machine.execRingmasterHoldStep s
  | .blockRetire core => Sys2Proof.Machine.execBlockRetire core s
  | .launchComplete slot k => Sys2Proof.Machine.execLaunchComplete slot k s
  | .preemptRequest core => Sys2Proof.Machine.execPreemptRequest core s
  | .blockSave core => Sys2Proof.Machine.execBlockSave core s
  | .blockResume vi k => Sys2Proof.Machine.execBlockResume vi k s
  | .preemptOverdue core => Sys2Proof.Machine.execPreemptOverdue core s
  | .queueClaim core team => Sys2Proof.Machine.execQueueClaim core team s
  | .packetRead slot => Sys2Proof.Machine.execPacketRead slot s
  | .packetStart slice => Sys2Proof.Machine.execPacketStart slice s
  | .linearCopy slot => Sys2Proof.Machine.execLinearCopy slot s
  | .stridedCopy slot => Sys2Proof.Machine.execStridedCopy slot s
  | .gather slot => Sys2Proof.Machine.execGather slot s
  | .scatter slot => Sys2Proof.Machine.execScatter slot s
  | .reduce slot => Sys2Proof.Machine.execReduce slot s
  | .drain slot => Sys2Proof.Machine.execDrain slot s
  | .signal slot => Sys2Proof.Machine.execSignal slot s
  | .rangeInvalidate slot => Sys2Proof.Machine.execRangeInvalidate slot s
  | .pageReady slot => Sys2Proof.Machine.execPageReady slot s
  | .generation slot => Sys2Proof.Machine.execGeneration slot s
  | .invalidateAck slot => Sys2Proof.Machine.execInvalidateAck slot s
  | .copyLineLand slot => Sys2Proof.Machine.execCopyLineLand slot s
  | .reduceElementCombine slot => Sys2Proof.Machine.execReduceElementCombine slot s
  | .packetComplete slot => Sys2Proof.Machine.execPacketComplete slot s
  | .remoteAppend k => Sys2Proof.Machine.execRemoteAppend k s
  | .fabricPacketReceive sender vi packet bytes poison => Sys2Proof.Machine.execFabricPacketReceive sender vi packet bytes poison s
  | .peerRecovering slot => Sys2Proof.Machine.execPeerRecovering slot s
  | .fabricTimeout slot => Sys2Proof.Machine.execFabricTimeout slot s
  | .crcRetry tx count => Sys2Proof.Machine.execCrcRetry tx count s
  | .setHomeStep home k source => Sys2Proof.Machine.execSetHomeStep home k source s
  | .setResultReturn core team => Sys2Proof.Machine.execSetResultReturn core team s
  | .setBodyMove home hdr => Sys2Proof.Machine.execSetBodyMove home hdr s
  | .arrayOpStart core sub => Sys2Proof.Machine.execArrayOpStart core sub s
  | .arrayOpEnd core sub latch => Sys2Proof.Machine.execArrayOpEnd core sub latch s
  | .subarrayAccessServe core team k => Sys2Proof.Machine.execSubarrayAccessServe core team k s
  | .mmaStart core => Sys2Proof.Machine.execMmaStart core s
  | .mmaRowWrite core mirrorFails => Sys2Proof.Machine.execMmaRowWrite core mirrorFails s
  | .mmaStop core => Sys2Proof.Machine.execMmaStop core s
  | .mmaResume core => Sys2Proof.Machine.execMmaResume core s
  | .accTransferRow core k => Sys2Proof.Machine.execAccTransferRow core k s
  | .recordLoadComplete core k => Sys2Proof.Machine.execRecordLoadComplete core k s
  | .matrixDeferredArrive core => Sys2Proof.Machine.execMatrixDeferredArrive core s
  | .teamLiftArrive core team => Sys2Proof.Machine.execTeamLiftArrive core team s
  | .teamLandArrive core team => Sys2Proof.Machine.execTeamLandArrive core team s
  | .stackCoreIssue stack n => Sys2Proof.Machine.execStackCoreIssue stack n s
  | .bankCommandArrive core team => Sys2Proof.Machine.execBankCommandArrive core team s
  | .microprogramSwap ch => Sys2Proof.Machine.execMicroprogramSwap ch s
  | .runStart ch k => Sys2Proof.Machine.execRunStart ch k s
  | .rowActivate ch k => Sys2Proof.Machine.execRowActivate ch k s
  | .microwordExecute ch k => Sys2Proof.Machine.execMicrowordExecute ch k s
  | .rowPrecharge ch k => Sys2Proof.Machine.execRowPrecharge ch k s
  | .arbitrationPoint ch k => Sys2Proof.Machine.execArbitrationPoint ch k s
  | .arbitrationWindowOpen ch => Sys2Proof.Machine.execArbitrationWindowOpen ch s
  | .arbitrationWindowClose ch => Sys2Proof.Machine.execArbitrationWindowClose ch s
  | .refreshDue ch => Sys2Proof.Machine.execRefreshDue ch s
  | .bankOrdinaryAccess ch core k => Sys2Proof.Machine.execBankOrdinaryAccess ch core k s
  | .runEnd ch k => Sys2Proof.Machine.execRunEnd ch k s
  | .bankCommandComplete core team => Sys2Proof.Machine.execBankCommandComplete core team s
  | .stackCoreParityFail stack n => Sys2Proof.Machine.execStackCoreParityFail stack n s
  | .eccUncorrectable unit => Sys2Proof.Machine.execEccUncorrectable unit s
  | .poisonWriteback unit => Sys2Proof.Machine.execPoisonWriteback unit s
  | .haltRequest core team => Sys2Proof.Machine.execHaltRequest core team s
  | .teamHalt core team => Sys2Proof.Machine.execTeamHalt core team s
  | .watchdogExpiry core team => Sys2Proof.Machine.execWatchdogExpiry core team s
  | .testDue cluster => Sys2Proof.Machine.execTestDue cluster s
  | .testRequest cluster => Sys2Proof.Machine.execTestRequest cluster s
  | .testRun cluster => Sys2Proof.Machine.execTestRun cluster s
  | .testComplete cluster failed => Sys2Proof.Machine.execTestComplete cluster failed s
  | .testSkip cluster => Sys2Proof.Machine.execTestSkip cluster s
  | .sampleRecordWrite core part => Sys2Proof.Machine.execSampleRecordWrite core part s
  | .traceFrameWrite k drop => Sys2Proof.Machine.execTraceFrameWrite k drop s
  | .victlWrite vi val => Sys2Proof.Machine.execVictlWrite vi val s
  | .qcmdRegister vi priv => Sys2Proof.Machine.execQcmdRegister vi priv s
  | .qcmdUnregister vi => Sys2Proof.Machine.execQcmdUnregister vi s
  | .asrootWrite vi val => Sys2Proof.Machine.execAsrootWrite vi val s
  | .windowWrite vi val => Sys2Proof.Machine.execWindowWrite vi val s
  | .qhdrWrite vi val => Sys2Proof.Machine.execQhdrWrite vi val s
  | .qquantWrite vi val => Sys2Proof.Machine.execQquantWrite vi val s
  | .frridxWrite vi val => Sys2Proof.Machine.execFrridxWrite vi val s
  | .prridxWrite vi val => Sys2Proof.Machine.execPrridxWrite vi val s
  | .controlRegWrite vi off val => Sys2Proof.Machine.execControlRegWrite vi off val s
  | .heldWriteApply vi k => Sys2Proof.Machine.execHeldWriteApply vi k s
  | .resync vi val => Sys2Proof.Machine.execResync vi val s
  | .resyncRecordWrite vi => Sys2Proof.Machine.execResyncRecordWrite vi s
  | .apertureRead vi va width => Sys2Proof.Machine.execApertureRead vi va width s
  | .apertureWrite vi va width val => Sys2Proof.Machine.execApertureWrite vi va width val s
  | .powerOn image => Sys2Proof.Machine.execPowerOn image s
  | .powerOff => Sys2Proof.Machine.execPowerOff s
  | .linkDown => Sys2Proof.Machine.execLinkDown s
  | .linkRestore => Sys2Proof.Machine.execLinkRestore s
  | .peerRecoveringSend k => Sys2Proof.Machine.execPeerRecoveringSend k s
  | .peerRejectReceive slot partial_ unknown => Sys2Proof.Machine.execPeerRejectReceive slot partial_ unknown s
  | .portRetrainStart port => Sys2Proof.Machine.execPortRetrainStart port s
  | .portRetrainEnd port => Sys2Proof.Machine.execPortRetrainEnd port s
  | .fabricDomainForm offset => Sys2Proof.Machine.execFabricDomainForm offset s

end Sys2Proof.Machine
end

