-- ==== Sys2Proof/Machine/Sched.lean ====
section
/-!
DEFINITION. Sys2Proof/Machine/Sched.lean: what each turn of the agenda does (log 1): a fragment or the matrix sequencer
fetches and issues (R133, R224), a partition chooses among its fragments (R50), the clock advances (R138, R350, R351),
or an event of the device takes place; and the round that an empty agenda stands for (log 16).
-/

namespace Sys2Proof.Machine

/-- One fragment fetches its next instruction and issues it, if nothing holds it (R48). [log 2: DESIGN CHOICE] -/
def fragmentTurn (s : State) (k t csn : Nat) : Res :=
  match s.block k, s.team k t with
  | some b, some tm =>
    match tm.frag csn with
    | none => .next s
    | some f =>
      if fragBlocked b tm t f then .next s
      else match s.fetchTeam k (s.teamTlb k tm) tm.lifted b.asid f.pc with
        | .instr w i => exec i { s with acting := .frag k t csn w }
        | .miss va => .next (s.addWalk k t csn b.asid va false true 0 0 0)
        | .line va =>
          if tm.lifted then
            match tlbHit s (s.teamTlb k tm) b.asid (va % 2 ^ 57) with
            | some e => .next (s.ask k (e.pa (va % 2 ^ 57)) 8)
            | none => .next s
          else .next s
        | .bad va => .next (s.fetchHalt k t f va 0x19)
  | _, _ => .next s

/-- The matrix sequencer fetches its next word and issues it; one that was parked when its turnstile was abandoned faults on its next clock,
stopped or not (R392). [log 2: DESIGN CHOICE] -/
def sequencerTurn (s : State) (k : Nat) : Res :=
  match s.block k with
  | none => .next s
  | some b => match b.seq with
    | none => .next s
    | some q =>
      let lost := !q.faulted && match q.hold with
        | .abandoned _ _ => true
        | _ => false
      if lost then .next (State.streamFault { s with acting := .none } k 0x18 0 0xFF)
      else if seqBlocked q then .next s
      else match s.fetchStream k b.asid q.mpc with
        | .instr w i => exec i { s with acting := .seq k w }
        | .miss va => .next (s.addWalk k 64 0 b.asid va false true 0 0 0)
        | .line _ => .next s
        | .bad _ => .next s

/-- The order in which a partition considers its fragments (R50): its last issuer first while it is neither spinning nor
has yielded, then the non-spinning ones by priority class and CSN with those that have just yielded last, then the
spinning ones. [log 16: DESIGN CHOICE] -/
def partitionOrder (b : Block) (p : Nat) : List (Nat × Nat) :=
  let fs := (b.resident p).filter fun x => match AMap.find? b.teams x.1 with
    | some tm => !fragBlocked b tm x.1 x.2 && !tm.lifted
    | none => false
  let prio := fun (x : Nat × Frag) => match AMap.find? b.teams x.1 with
    | some tm => tm.prio
    | none => 0
  let sorted := fs.foldl (fun l x => insertBy (fun y : Nat × Frag => prio y * 2 ^ 64 + y.2.csn) x l) []
  let plain := sorted.filter fun x => !x.2.spin && !x.2.yielded
  let yielded := sorted.filter fun x => !x.2.spin && x.2.yielded
  let spin := sorted.filter fun x => x.2.spin
  let greedy := plain.filter fun x => (b.part p).last == some (x.1, x.2.csn)
  (greedy ++ plain ++ yielded ++ spin).map fun x => (x.1, x.2.csn)

/-- Does a turn change anything? A fragment whose turn would change nothing is not ready (R48). -/
def progress (s : State) (r : Res) : Bool :=
  match r with
  | .next s' => !decide ({ s' with acting := s.acting } = s)
  | _ => true

/-- The first fragment of a list that is ready issues. -/
def firstReady (s : State) (k : Nat) : List (Nat × Nat) → Res
  | [] => .next s
  | x :: xs =>
    let r := fragmentTurn s k x.1 x.2
    if progress s r then r else firstReady s k xs

/-- A partition issues at most one instruction (R36, R50). [log 16: DESIGN CHOICE] -/
def partitionTurn (s : State) (k p : Nat) : Res :=
  match s.block k with
  | none => .next s
  | some b => firstReady s k (partitionOrder b p)

/-- One clock of a team's watchdog (R350, R352). 2^32 stands for the 2^32-th counted clock. [log 3: DESIGN CHOICE] [log 39: DESIGN CHOICE] -/
def Team.tick (paused : Bool) (tm : Team) : Team :=
  if tm.halted || tm.finished || tm.frags.isEmpty then tm
  else if tm.wdNow then { tm with wdNow := false }
  else if paused || tm.haltReqs.any fun r => r.code == 0x09 then tm
  else { tm with wd := min (tm.wd + 1) (Config.wdMax + 1) }

/-- The clock advances (R138). [log 3: DESIGN CHOICE] -/
def State.tick (s : State) : State :=
  if s.power = .off then s
  else
    { s with clock := (s.clock + 1) % 2 ^ 64,
             cores := s.cores.map fun x => (x.1, { x.2 with block := x.2.block.map fun b =>
               { b with teams := b.teams.map fun y => (y.1, y.2.tick (s.wdPaused x.1 b y.1 y.2)) } }) }

/-- The order in which a stack core considers its fragments (R50, R296): as a partition does, by priority class, lift order and CSN. -/
def stackOrder (s : State) (sc : Nat) : List (Nat × Nat × Nat) :=
  let fs : List (Nat × Nat × Team × Nat × Frag) := s.allTeams.flatMap fun x => match x.2.2.lift with
    | .up st n order => if 4 * st + n = sc then x.2.2.frags.map fun f => (x.1, x.2.1, x.2.2, order, f) else []
    | _ => []
  let sorted := fs.foldl (fun l x =>
    insertBy (fun y : Nat × Nat × Team × Nat × Frag => (y.2.2.1.prio * 2 ^ 64 + y.2.2.2.1) * 2 ^ 64 + y.2.2.2.2.csn) x l) []
  let plain := sorted.filter fun x => !x.2.2.2.2.spin && !x.2.2.2.2.yielded
  let yielded := sorted.filter fun x => !x.2.2.2.2.spin && x.2.2.2.2.yielded
  let spin := sorted.filter fun x => x.2.2.2.2.spin
  let greedy := plain.filter fun x => (s.stackCore sc).last == some (x.1, x.2.1, x.2.2.2.2.csn)
  (greedy ++ plain ++ yielded ++ spin).map fun x => (x.1, x.2.1, x.2.2.2.2.csn)
/-- A stack core issues the first of its fragments that is ready. -/
def stackIssue (s : State) : List (Nat × Nat × Nat) → Res
  | [] => .next s
  | x :: xs =>
    let r := fragmentTurn s x.1 x.2.1 x.2.2
    if progress s r then r else stackIssue s xs
/-- A stack core issues at most one instruction on a clock, while it is in service (R296, R410). -/
def stackTurn (s : State) (sc : Nat) : Res :=
  if (s.stackCore sc).outOfService then .next s else stackIssue s (stackOrder s sc)

/-- The turns of one round that an empty agenda stands for: every partition and sequencer of every block, every stack core, then a clock.
Events take place as the agenda lists them (log 1). [log 16: DESIGN CHOICE] -/
def roundOf (s : State) : List Turn :=
  (s.cores.flatMap fun x => match x.2.block with
    | none => []
    | some _ => [.partition x.1 0, .partition x.1 1, .partition x.1 2, .partition x.1 3, .sequencer x.1])
  ++ ((s.allTeams.filterMap fun x => x.2.2.stackCoreOf).map fun sc => .stackCore sc) ++ [.tick]

/-- What one turn does. [log 1: DESIGN CHOICE] -/
def runTurn (s : State) : Turn → Res
  | .fragment k t csn => fragmentTurn s k t csn
  | .partition k p => partitionTurn s k p
  | .sequencer k => sequencerTurn s k
  | .stackCore sc => stackTurn s sc
  | .tick => .next s.tick
  | .event i => exec i { s with acting := .none }

/-- The next turn of the agenda, or of a fresh round when the agenda is empty. [log 1: DESIGN CHOICE] -/
def nextTurn (s : State) : Res :=
  match s.agenda with
  | t :: rest => runTurn { s with agenda := rest } t
  | [] => match roundOf s with
    | t :: rest => runTurn { s with agenda := rest } t
    | [] => .next s.tick

/-! ### Placing one instruction (log 4) -/

/-- A block of one team with its sequencer. [log 4: DEDUCED] -/
def seedBlock (pc : Nat) (copy : Bool) : Block :=
  { index := 0, name := 0, vi := 0, asid := 0, slot := 0, priv := true, launch := 0, packet := [], lanes := 32,
    splines := 8184, teams := [(0, newTeam pc 0 0 32 16 copy 0 [] [])], parts := [], ts := [], cr := [], sp := Scratch.init, subs := [],
    seq := some (newSeq pc), fused := false, since := 0, heldClocks := 0, request := none, testReq := false,
    overdue := false, gang := 0 }

/-- The address at which `place1` puts an instruction. -/
def seedPc : Nat := 0x10000

/-- Place the words of one instruction as a program loaded from outside (log 4): 16 bytes in memory at `seedPc`, the page
in the TLB of core 0 and the sector in its L1, a block of one team whose fragment stands there, and its turn next. [log 4: DEDUCED] -/
def State.place1 (s : State) (nbits w : Nat) : State :=
  let bytes := bytesOf 16 (w % 2 ^ nbits)
  let major := bits (w % 2 ^ nbits) 58 6
  let stream := major = 0x20 ∨ major = 0x21
  let e : TlbEntry := { asid := 0, gen := (s.space 0).gen, level := 0, page := 1, frame := seedPc, w := false, d := false }
  { s with
    mem := s.mem.setBytes seedPc bytes
    cores := AMap.set Core.init s.cores 0
      { Core.init with tlb := [e], l1 := [(seedPc / 32, leNat bytes)], block := some (seedBlock seedPc (decide (major = 0x13))) }
    agenda := [if stream then .sequencer 0 else .fragment 0 0 0] }

end Sys2Proof.Machine
end

