-- ==== Sys2Proof/Machine/Step.lean ====
section
/-!
DEFINITION. Sys2Proof/Machine/Step.lean: one step of the device, and how one instruction is placed to run next.
-/

namespace Sys2Proof.Machine

/-- One step: the next turn of the agenda (log 1). -/
def step (s : State) : Host.Outcome State Fault Refusal := nextTurn s

/-- `s` with one instruction placed where `step` fetches its next instruction (log 4). -/
def State.withFetchWord (s : State) (nbits w : Nat) : State := s.place1 nbits w

end Sys2Proof.Machine
end

