-- ==== Sys2Proof/Safety.lean ====
section
/-!
DEFINITION. Sys2Proof/Safety.lean: the terms in which claims speak: what an instruction leaves alone, the fragment that
issues and when nothing keeps it from issuing, and the invariant of memory.
-/

namespace Sys2Proof.Machine

/-- Memory is in its canonical form. -/
def State.memWf (s : State) : Prop := s.mem.wf = true

/-! ### What an instruction may change -/

/-- An outstanding instruction without the book-keeping of its window and of fusions (R41, R51). -/
def Pend.still (p : Pend) : Pend := { p with window := none, wrote := [], heirs := [] }
/-- A team without what every issue moves: its fragments, `SIGACC` (R172), its watchdog (R350) and the windows
of its outstanding instructions (R51). All its registers, counters, stores and requests stay. -/
def Team.still (tm : Team) : Team :=
  { tm with frags := [], finished := false, sigacc := 0, wd := 0, wdNow := false, pend := tm.pend.map Pend.still }
/-- A scratchpad without what lies from offset n up. -/
def Scratch.below (n : Nat) (p : Scratch) : Scratch :=
  { p with bytes := List.filter (fun x => decide (x.1 < n)) p.bytes, tags := p.tags.filter fun g => decide (16 * g < n),
           poison := p.poison.filter fun u => decide (8 * u < n) }
/-- A block without its teams and partitions and without the reserved area of its scratchpad, which only the block's spill records
use (R17): all that it can address of the scratchpad, its turnstiles, carousels, macro operations and matrix sequencer stay. -/
def Block.rest (b : Block) : Block :=
  { b with teams := [], parts := [], sp := b.sp.below (Config.spBytes - b.reserved) }
/-- A core without its block and samplers: the L1, TLB, walks and write path stay. -/
def Core.rest (c : Core) : Core := { c with block := none, samplers := [] }
/-- The device without its cores and stack cores and the model's own counters: memory, clusters, channels, queues, interfaces and
address spaces stay. -/
def State.rest (s : State) : State := { s with cores := [], stackCores := [], seqNo := 0, freeIx := 0 }

/-- Team t of core k, if there is one, without what every issue moves. -/
def State.stillAt (s : State) (k t : Nat) : Option Team := (s.team k t).map Team.still

/-- From s to t nothing has changed but team n of core k, the samplers, the partitions and what every issue moves. -/
structure Frame (s t : State) (k n : Nat) : Prop where
  rest : t.rest = s.rest
  cores : ∀ j, (t.core j).rest = (s.core j).rest
  blocks : ∀ j, (t.block j).map Block.rest = (s.block j).map Block.rest
  others : ∀ j m, (j, m) ≠ (k, n) → t.stillAt j m = s.stillAt j m

/-- From s to t nothing has changed but what every issue moves. -/
structure Quiet (s t : State) : Prop where
  rest : t.rest = s.rest
  cores : ∀ j, (t.core j).rest = (s.core j).rest
  blocks : ∀ j, (t.block j).map Block.rest = (s.block j).map Block.rest
  teams : ∀ j m, t.stillAt j m = s.stillAt j m

/-! ### Who issues, and when nothing keeps it from issuing -/

/-- The fragment that issues, with its team and block as they stand. -/
def State.issuer (s : State) : Option Ctx :=
  match s.acting with
  | .frag k t csn word =>
    match s.block k, s.team k t with
    | some b, some tm => (tm.frag csn).map fun f => { k, t, csn, word, len := wordLen word, b, tm, f }
    | _, _ => none
  | _ => none

/-- Nothing holds the fragment, no instruction of its team is outstanding, and none of its team's registers is poisoned (R48, R51, R52,
R371). -/
def Ctx.calm (c : Ctx) : Bool :=
  !fragBlocked c.b c.tm c.t c.f && c.f.hold == .none && c.tm.pend.isEmpty && c.tm.vpoison.isEmpty && c.tm.rpoison.isEmpty
    && decide (c.tm.memcnt < 63) && decide (c.tm.setcnt < 63) && decide (c.tm.arrcnt < 63) && decide (c.tm.bankcnt < 63)
/-- The team is a vector team on its core (R55, R297). -/
def Ctx.vectorTeam (c : Ctx) : Bool := !c.tm.copy && c.tm.lift == .core
/-- The team is a copy team on its core. -/
def Ctx.copyTeam (c : Ctx) : Bool := c.tm.copy && c.tm.lift == .core
/-- The lanes in which a guarded form acts (R140). -/
def Ctx.lanes (c : Ctx) (g : Guard) : Mask := c.f.mask &&& guardMask c.tm g
/-- A form that acts once acts: its guard holds in the lowest active lane (R140). -/
def Ctx.acts (c : Ctx) (g : Guard) : Bool := laneIn (c.lanes g) (lowLane c.f.mask)
/-- The team is this fragment alone, with lanes, linked to no other (R37, R39). -/
def Ctx.alone (c : Ctx) : Bool := c.tm.frags == [c.f] && c.f.mask != 0 && !c.f.linkv

/-- A fragment of a team. -/
def State.fragAt (s : State) (k t csn : Nat) : Option Frag := (s.team k t).bind fun tm => tm.frag csn
/-- The PC of a fragment. -/
def State.pcAt (s : State) (k t csn : Nat) : Option Nat := (s.fragAt k t csn).map Frag.pc

/-- `SIGACC` once the record of R172 for the issue of the instruction has been fed. -/
def Ctx.signed (c : Ctx) : Nat := crcBytes 8 (issueRecord c.word c.f.mask) c.tm.sigacc
/-- In t the fragment that has issued stands at an address, and the record of its issue has been fed to `SIGACC` (R172), where its team is
this fragment alone. -/
def Moved (c : Ctx) (t : State) (pc : Nat) : Prop :=
  c.alone = true → fragBlocked c.b c.tm c.t c.f = false →
    t.pcAt c.k c.t c.csn = some pc ∧ (t.team c.k c.t).map Team.sigacc = some c.signed

/-- The outcome is a next state that differs from s1 only in what every issue moves; the fragment goes on behind its instruction. -/
def Becomes (c : Ctx) (out : Res) (s1 : State) : Prop :=
  ∃ t, out = .next t ∧ Quiet s1 t ∧ Moved c t (c.f.pc + c.len)

/-- The outcome is a next state in which the acting team is as `tm` is, and nothing else has changed; the fragment goes on behind its
instruction. -/
def Leaves (s : State) (c : Ctx) (out : Res) (tm : Team) : Prop :=
  ∃ t, out = .next t ∧ t.stillAt c.k c.t = some tm.still ∧ Frame s t c.k c.t ∧ Moved c t (c.f.pc + c.len)

/-- As `Leaves`, and the fragment that has issued goes on at an address. -/
def Goes (s : State) (c : Ctx) (out : Res) (tm : Team) (pc : Nat) : Prop :=
  ∃ t, out = .next t ∧ t.stillAt c.k c.t = some tm.still ∧ Frame s t c.k c.t ∧ Moved c t pc ∧ t.pcAt c.k c.t c.csn = some pc

/-- The instruction has issued and holds its fragment (R8 Park): s1 but for what every issue moves. -/
def Parks (s1 : State) (c : Ctx) (out : Res) (h : Hold) : Prop :=
  ∃ t, out = .next t ∧ Quiet s1 t ∧ (t.fragAt c.k c.t c.csn).map Frag.hold = some h

/-- The issuing instruction traps (R343): the outcome is the entry of R343 for a cause. -/
def Ctx.trapEntry (c : Ctx) (s : State) (code field aux : Nat) (fs : Option Word) : State :=
  (s.tagIssue c false true).takeTrap c.k c.t c.csn c.word c.len code field aux fs

end Sys2Proof.Machine
end

