-- ==== Sys2Proof/WellFormed.lean ====
section
/-!
DEFINITION. Sys2Proof/WellFormed.lean: the limits on an instruction that its operand types do not carry: GUARD 0b1111 is
reserved (R140), the ORD of loads and stores (R144), the types of each form (R179 to R193, R198), register groups that
must not run past `s63` (R194), and the reserved values of R145, R201, R271, R288 and R289. An event has none.
-/

namespace Sys2Proof

/-- GUARD 0b1111 is reserved (R140). -/
def Guard.wf (g : Guard) : Bool := !(g.neg && g.p == 7#3)

/-- A residency predicate is one of `p0` to `p6` (R144). -/
def wfRp : Option PReg → Bool
  | some p => p != 7#3
  | none => true

/-- The carried instruction accepts its type and condition (R137). -/
def wfCarried : Carried → Bool
  | .scalar (.cmp _ c) _ _ => c.int
  | .vint .pack _ _ ty => vintTyOk 0x16 ty
  | .vint .unpk _ _ ty => vintTyOk 0x17 ty
  | .vcmp _ _ _ c => c.int
  | _ => true

/-- A fence without an address is at neither bank nor array scope (R200). -/
def wfFence : FenceAt → Bool
  | .at .bank => false
  | .at .arr => false
  | _ => true

/-- `m.wait` on a turnstile has no destination (R237). -/
def wfMWait (o : MWait) : Bool :=
  match o.at_ with
  | .ts _ => o.d.isNone
  | .cr _ _ => true

/-- An instruction is well formed when the spec's encoding admits it; an event always is. -/
def Instr.wf : Instr → Bool
  | .sAdd o => o.g.wf
  | .sSub o => o.g.wf
  | .sMul o => o.g.wf
  | .sMulh o => o.g.wf
  | .sAnd o => o.g.wf
  | .sOr o => o.g.wf
  | .sXor o => o.g.wf
  | .sAndn o => o.g.wf
  | .sShl o => o.g.wf
  | .sShr o => o.g.wf
  | .sSra o => o.g.wf
  | .sMin o => o.g.wf
  | .sMax o => o.g.wf
  | .sClz o => o.g.wf
  | .sPopc o => o.g.wf
  | .sCmp o => o.g.wf && o.c.int
  | .sSel o => o.g.wf
  | .sMov o => o.g.wf
  | .sAddImm o => o.g.wf
  | .sSubImm o => o.g.wf
  | .sMulImm o => o.g.wf
  | .sAndImm o => o.g.wf
  | .sOrImm o => o.g.wf
  | .sXorImm o => o.g.wf
  | .sAndnImm o => o.g.wf
  | .sShlImm o => o.g.wf
  | .sShrImm o => o.g.wf
  | .sSraImm o => o.g.wf
  | .sLi o => o.g.wf
  | .longImmediatePrefix o => o.g.wf && wfCarried o.carried
  | .sLd o => o.g.wf && o.ord.load
  | .sSt o => o.g.wf && o.ord.store
  | .br o => o.g.wf
  | .brc o => o.g.wf
  | .brv o => o.g.wf
  | .breakv o => o.g.wf
  | .call o => o.g.wf
  | .ret o => o.g.wf
  | .jmp o => o.g.wf
  | .loop o => o.g.wf
  | .exit o => o.g.wf
  | .yield o => o.g.wf
  | .safept o => o.g.wf
  | .waitcnt o => o.g.wf
  | .nop o => o.g.wf
  | .pAnd o => o.g.wf
  | .pOr o => o.g.wf
  | .pXor o => o.g.wf
  | .pAndn o => o.g.wf
  | .pNot o => o.g.wf
  | .pMov o => o.g.wf
  | .pAny o => o.g.wf
  | .pAll o => o.g.wf
  | .pCnt o => o.g.wf
  | .pFirst o => o.g.wf
  | .pFromv o => o.g.wf
  | .pTov o => o.g.wf
  | .pAct o => o.g.wf
  | .trap o => o.g.wf
  | .eret o => o.g.wf
  | .csrr o => o.g.wf
  | .csrw o => o.g.wf
  | .brk o => o.g.wf
  | .sigChk o => o.g.wf && decide (o.limm.extractLsb' 32 32 = 0#32)
  | .sigRst o => o.g.wf
  | .grow o => o.g.wf
  | .shrink o => o.g.wf
  | .rolesw o => o.g.wf
  | .allot o => o.g.wf
  | .vAdd o => o.g.wf
  | .vSub o => o.g.wf
  | .vMul o => o.g.wf
  | .vMulh o => o.g.wf
  | .vMad o => o.g.wf
  | .vAdds o => o.g.wf
  | .vSubs o => o.g.wf
  | .vAnd o => o.g.wf
  | .vOr o => o.g.wf
  | .vXor o => o.g.wf
  | .vAndn o => o.g.wf
  | .vShl o => o.g.wf
  | .vShr o => o.g.wf
  | .vSra o => o.g.wf
  | .vMin o => o.g.wf
  | .vMax o => o.g.wf
  | .vAbs o => o.g.wf
  | .vClz o => o.g.wf
  | .vPopc o => o.g.wf
  | .vCmp o => o.g.wf && o.c.int
  | .vSel o => o.g.wf
  | .vMov o => o.g.wf
  | .vPack o => o.g.wf && vintTyOk 0x16 o.ty
  | .vUnpk o => o.g.wf && vintTyOk 0x17 o.ty
  | .vExt o => o.g.wf
  | .vIns o => o.g.wf
  | .vAddImm o => o.g.wf
  | .vSubImm o => o.g.wf
  | .vMulImm o => o.g.wf
  | .vAndImm o => o.g.wf
  | .vOrImm o => o.g.wf
  | .vXorImm o => o.g.wf
  | .vAndnImm o => o.g.wf
  | .vShlImm o => o.g.wf
  | .vShrImm o => o.g.wf
  | .vSraImm o => o.g.wf
  | .vLi o => o.g.wf
  | .vFadd o => o.g.wf
  | .vFsub o => o.g.wf
  | .vFmul o => o.g.wf
  | .vFma o => o.g.wf
  | .vFmin o => o.g.wf
  | .vFmax o => o.g.wf
  | .vFcmp o => o.g.wf
  | .vFabs o => o.g.wf
  | .vFneg o => o.g.wf
  | .vFclass o => o.g.wf
  | .vFrcp o => o.g.wf
  | .vFrsq o => o.g.wf
  | .vFsqrt o => o.g.wf
  | .vFexp2 o => o.g.wf
  | .vFlog2 o => o.g.wf
  | .vCvt o => o.g.wf && cvtStOk 0 o.st && cvtDtOk 0 o.dt
  | .vCvti o => o.g.wf && cvtStOk 1 o.st && cvtDtOk 1 o.dt
  | .vCvtf o => o.g.wf && cvtStOk 2 o.st && cvtDtOk 2 o.dt
  | .vQnt o => o.g.wf && qntTyOk o.ty
  | .vDqt o => o.g.wf && qntTyOk o.ty
  | .vCbld o => o.g.wf
  | .vCbenc o => o.g.wf
  | .vShfl o => o.g.wf && xTyOk o.ty
  | .vBcst o => o.g.wf && xTyOk o.ty
  | .vVote o => o.g.wf
  | .vScan o => o.g.wf && scanTyOk o.op o.ty
  | .vRed o => o.g.wf && scanTyOk o.op o.ty
  | .vPerm o => o.g.wf && xTyOk o.ty
  | .vLd o => o.g.wf && o.ord.load && wfRp o.rp
  | .vSt o => o.g.wf && o.ord.store
  | .vLdb o => o.g.wf && o.ord.load && wfRp o.rp
  | .vAtomAdd o => o.g.wf && o.ty != .f32
  | .vAtomMin o => o.g.wf && o.ty != .f32
  | .vAtomMax o => o.g.wf && o.ty != .f32
  | .vAtomAnd o => o.g.wf && o.ty != .f32
  | .vAtomOr o => o.g.wf && o.ty != .f32
  | .vAtomXor o => o.g.wf && o.ty != .f32
  | .vAtomXchg o => o.g.wf && o.ty != .f32
  | .vAtomCas o => o.g.wf && o.ty != .f32
  | .vAtomFadd o => o.g.wf && o.ty == .f32
  | .fence o => o.g.wf && wfFence o.f
  | .cNarrow o => o.g.wf
  | .cPerm o => o.g.wf
  | .cGet o => o.g.wf && o.f != 7#3
  | .cTag o => o.g.wf
  | .cMov o => o.g.wf
  | .cLd o => o.g.wf && o.ord.load
  | .cSt o => o.g.wf && o.ord.store
  | .cMk o => o.g.wf
  | .tsInit o => o.g.wf
  | .tsArrive o => o.g.wf
  | .tsWait o => o.g.wf
  | .tsArrw o => o.g.wf
  | .tsQuery o => o.g.wf
  | .crInit o => o.g.wf
  | .crWait o => o.g.wf
  | .crPass o => o.g.wf
  | .cpyPut o => o.g.wf && decide (o.a.toNat ≤ 56)
  | .cpyIdx o => o.g.wf && decide (o.a.toNat ≤ 59) && decide (o.b.toNat ≤ 60)
  | .pgReq o => o.g.wf
  | .pgTest o => o.g.wf && o.d != 7#3
  | .setNew o => o.g.wf
  | .setFree o => o.g.wf
  | .setIns o => o.g.wf
  | .setDel o => o.g.wf
  | .setHas o => o.g.wf
  | .setCard o => o.g.wf
  | .setOr o => o.g.wf
  | .setAnd o => o.g.wf
  | .setAndn o => o.g.wf
  | .setCopy o => o.g.wf
  | .setClr o => o.g.wf
  | .setEnum o => o.g.wf
  | .setInfo o => o.g.wf
  | .setPin o => o.g.wf
  | .aTld o => o.g.wf
  | .aTst o => o.g.wf
  | .aFill o => o.g.wf
  | .aLog o => o.g.wf && aVarOk 3 o.var
  | .aAdd o => o.g.wf && aVarOk 4 o.var
  | .aSub o => o.g.wf && aVarOk 5 o.var
  | .aMul o => o.g.wf && aVarOk 6 o.var
  | .aCmp o => o.g.wf && aVarOk 7 o.var
  | .aSel o => o.g.wf && aVarOk 8 o.var && o.prow != 0xFF#8
  | .aShf o => o.g.wf
  | .aPopc o => o.g.wf
  | .aWait o => o.g.wf
  | .bLift o => o.g.wf
  | .bLand o => o.g.wf
  | .bUcld o => o.g.wf
  | .bRun o => o.g.wf
  | .bStep o => o.g.wf
  | .bWait o => o.g.wf
  | .bFence o => o.g.wf
  | .bAccRd o => o.g.wf
  | .bAccWr o => o.g.wf
  | .bStat o => o.g.wf
  | .mWait o => wfMWait o
  | .mMirror o => o.mode != 3#2
  | _ => true

end Sys2Proof
end

