-- ==== Sys2Proof/Certificates/Slice0/Obligations.lean ====
section
/-!
DEFINITION. Sys2Proof/Certificates/Slice0/Obligations.lean: the statements for the provers, one per entry of OBLIGATIONS.json, each
after the tables and helpers that it uses. The rules of spec/ are cited in the docstrings.
-/

open Sys2Proof Sys2Proof.Machine

/-! ## Steps, words, memory and reset -/

namespace Sys2Proof.Machine

/-- The word that the launch of core k's block fetches from the bytes xs at pa: each byte as it stood when the launch started, where it has
been written over since (R133). -/
def State.launchWord (s : State) (k pa : Nat) (xs : List Byte) : Word :=
  let old := AMap.get [] s.codeOld ((s.block k).elim 0 Block.launch)
  BitVec.ofNat 64 (leNat ((xs.zip (upto pa xs.length)).map fun x => (AMap.find? old x.2).getD x.1))

/-- What the fetch of a team's word reads at an address (R88, R133, R296, R419): through its core's L1, or for a lifted team from memory,
where its TLB gives the translation. -/
def State.wordAt (s : State) (k : Nat) (tm : Team) (asid va : Nat) (w : Word) : Prop :=
  ∃ e, tlbHit s (s.teamTlb k tm) asid (va % 2 ^ 57) = some e ∧
    if tm.lifted then
      s.rowOwned (e.pa (va % 2 ^ 57)) = false ∧ s.mayFill (e.pa (va % 2 ^ 57)) 8 = true
        ∧ s.poisonedAt (.pa (e.pa (va % 2 ^ 57))) 8 = false
        ∧ w = s.launchWord k (e.pa (va % 2 ^ 57)) (s.mem.bytes (e.pa (va % 2 ^ 57)) 8)
    else ∃ xs, s.l1Bytes k (e.pa (va % 2 ^ 57)) 8 = some xs ∧ w = s.launchWord k (e.pa (va % 2 ^ 57)) xs

/-- What the fetch of a stream word reads at an address (R224, R419). -/
def State.streamWordAt (s : State) (k asid va : Nat) (w : Word) : Prop :=
  ∃ e xs, tlbHit s (s.core k).tlb asid (va % 2 ^ 57) = some e ∧ s.l1Bytes k (e.pa (va % 2 ^ 57)) 8 = some xs
    ∧ w = s.launchWord k (e.pa (va % 2 ^ 57)) xs

/-- The words of an instruction are words of the matrix stream (R147, R151). -/
def streamWords : List Word → Bool
  | w :: _ => w.extractLsb' 58 6 == 0x20#6 || w.extractLsb' 58 6 == 0x21#6
  | [] => false

end Sys2Proof.Machine

/-- A fragment's turn, when nothing holds the fragment and the word at its PC reads as w, is exactly `exec` of the instruction that w
(with the word after it, for a prefix) decodes to; `exec` itself moves the PC. The matrix sequencer's turn, when nothing holds the stream
and the word at its MPC reads as w, is exactly `exec` of the instruction that w decodes to, or of the reserved word (R224, R390); one that
was parked when its turnstile was abandoned faults with 0x18 instead, under a stop request too (R392). An event's turn is exactly `exec`
of the event; a clock advances `clock` and touches no memory; the turn of a fragment that something holds changes nothing but the agenda
(R48, R138). Turns (log entry 1) and the fetch through the L1 (log entry 10) are the model's choice. -/
def Obligations.StepsRunDecoded : Prop :=
  (∀ (s : State) (rest : List Turn) (k t csn : Nat) (b : Block) (tm : Team) (f : Frag) (w w2 : Word),
      s.agenda = .fragment k t csn :: rest → s.block k = some b → s.team k t = some tm → tm.frag csn = some f →
        fragBlocked b tm t f = false → s.wordAt k tm b.asid f.pc w → (wordLen w = 16 → s.wordAt k tm b.asid (f.pc + 8) w2) →
          step s = exec (decodeTeam w (if wordLen w = 16 then w2 else 0)) { s with agenda := rest, acting := .frag k t csn w })
  ∧ (∀ (s : State) (rest : List Turn) (k : Nat) (b : Block) (q : Seq),
      s.agenda = .sequencer k :: rest → s.block k = some b → b.seq = some q →
        ((∀ t car, q.hold ≠ .abandoned t car) → seqBlocked q = false → ∀ w, s.streamWordAt k b.asid q.mpc w →
          step s = exec (match decodeStream w with
            | .ok i => i
            | .error r => .illegalWordIssue r) { s with agenda := rest, acting := .seq k w })
        ∧ ∀ t car, q.hold = .abandoned t car → q.faulted = false →
          step s = .next (State.streamFault { s with agenda := rest, acting := .none } k 0x18 0 0xFF))
  ∧ (∀ (s : State) (rest : List Turn),
    (∀ i, s.agenda = .event i :: rest → step s = exec i { s with agenda := rest, acting := .none })
    ∧ (s.agenda = .tick :: rest → ∃ t, step s = .next t ∧ t.agenda = rest ∧ t.mem = s.mem
        ∧ t.clock = if s.power = .off then s.clock else (s.clock + 1) % 2 ^ 64)
    ∧ ∀ k t csn b tm f, s.agenda = .fragment k t csn :: rest → s.block k = some b → s.team k t = some tm → tm.frag csn = some f →
        fragBlocked b tm t f = true → step s = .next { s with agenda := rest })

/-- Words that the spec prints decode to the instructions that it prints beside them. -/
def Obligations.PrintedWordsDecode : Prop :=
  decodeTeam 0x04007838_18200000 0 = .sAdd ⟨⟨false, 7⟩, 3, .s 1, .s 2⟩
  ∧ decodeTeam 0x04F07858_18200182 0 = .sCmp ⟨⟨false, 7⟩, 5, .s 1, .s 2, true, .lt⟩
  ∧ decodeTeam 0x09207890_0FFFFFFB 0 = .sLi ⟨⟨false, 7⟩, 9, 0xFFFFFFB⟩
  ∧ decodeTeam 0xFC00789E_80100000 0x00000001_23456789
      = .longImmediatePrefix ⟨⟨false, 7⟩, .scalar .add 9 (.spec .zero), 0x00000001_23456789⟩
  ∧ decodeTeam 0x0C30789C_1E808150 0 = .sLd ⟨⟨false, 7⟩, 0, 9, 1, .zero, 8, 0, .acq .dev, .n64⟩
  ∧ decodeTeam 0x10207E20_00240006 0 = .brv ⟨⟨false, 7⟩, 2, 9, 6⟩
  ∧ decodeTeam 0x1000A000_0003FFFE 0 = .br ⟨⟨true, 2⟩, 0x3FFFE⟩
  ∧ decodeTeam 0x1480788E_30000000 0 = .pCnt ⟨⟨false, 7⟩, 8, 3⟩
  ∧ decodeTeam 0x18207870_00000000 0 = .csrr ⟨⟨false, 7⟩, 7, .teamstat⟩
  ∧ decodeTeam 0xFC507000_00600000 0x00000000_1234ABCD = .sigChk ⟨⟨false, 7⟩, 0x1234ABCD⟩
  ∧ decodeTeam 0x1C007000_00000002 0 = .grow ⟨⟨false, 7⟩, 2⟩
  ∧ decodeTeam 0x20507030_10200000 0 = .vAdds ⟨⟨false, 7⟩, 3, .v 1, .v 2, .i8⟩
  ∧ decodeTeam 0x28307050_10204510 0 = .vFma ⟨⟨false, 7⟩, 5, 1, .v 2, .v 4, .bf16, .rtz⟩
  ∧ decodeTeam 0x303070A0_C14847C6 0 = .vQnt ⟨⟨false, 7⟩, 10, 12, 20, 3, .e2m1, .sr 4⟩
  ∧ decodeTeam 0x342070BE_2E7E5003 0 = .vVote ⟨⟨false, 7⟩, 11, .ballot 2, 7, 5⟩
  ∧ decodeTeam 0x3834708C_20100C0B 0 = .vLd ⟨⟨false, 7⟩, 4, 8, 2, .v 1, 0, 3, .plain, .b64, some 3⟩
  ∧ decodeTeam 0x3C70706C_50307F53 0 = .vAtomCas ⟨⟨false, 7⟩, 0, 6, 5, .v 3, 7, 3, .ar .dev, .n64⟩
  ∧ decodeTeam 0x40007000_00000030 0 = .fence ⟨⟨false, 7⟩, .at .clu⟩
  ∧ decodeTeam 0x44007C9C_28485000 0 = .cNarrow ⟨⟨false, 7⟩, 9, 2, 4, 5⟩
  ∧ decodeTeam 0x489078C0_00000011 0 = .crWait ⟨⟨false, 7⟩, 1, true, 12⟩
  ∧ decodeTeam 0x4C107E2C_69098000 0 = .cpyIdx ⟨⟨false, 7⟩, 2, 6, 16, 24⟩
  ∧ decodeTeam 0x50107E4C_20100C00 0 = .pgTest ⟨⟨false, 7⟩, 0, 4, 2, .v 1, 0, 3, false⟩
  ∧ decodeTeam 0x54B0706C_98E00000 0 = .setEnum ⟨⟨false, 7⟩, 0, 6, 9, .s 14⟩
  ∧ decodeTeam 0x587075A4_048FF29F 0 = .aCmp ⟨⟨false, 7⟩, 0, 5, 7, 3, 90, 64, 72, 255⟩
  ∧ decodeTeam 0x5C707028_D0000000 0 = .bAccRd ⟨⟨false, 7⟩, 0, 2, 13⟩
  ∧ decodeStream 0x84B07210_00108090 = .ok (.mMma ⟨.e4m3, 1, 0, 1, some 0, some 1⟩)

/-- Every well-formed instruction that has words is what the decoder reads from its words: no operand is lost at any value that the
encoding admits (R134 to R151). -/
def Obligations.EncodedWordsDecode : Prop := ∀ i : Instr, i.wf = true → encode i ≠ [] →
  decodeWords (streamWords (encode i)) (encode i) = some i

/-- A word that the decoder accepts is a well-formed instruction, and its encoding is that word (and the word after a prefix): no bit of
an accepted word is ignored, except none, and no two words are one instruction (R148). -/
def Obligations.DecodedWordsEncode : Prop :=
  (∀ w w2 : Word, (∀ r, decodeTeam w w2 ≠ .illegalWordIssue r) →
    (decodeTeam w w2).wf = true ∧ encode (decodeTeam w w2) = if wordLen w = 16 then [w, w2] else [w])
  ∧ ∀ (w : Word) (i : Instr), decodeStream w = .ok i → i.wf = true ∧ encode i = [w]

/-- Every step that goes on keeps the canonical form of memory: addresses strictly rising and no entry equal to what an unlisted address
reads as. The form is the model's own; what an unlisted address reads as is its choice (log entry 5). -/
def Obligations.StepsKeepMemoryCanonical : Prop := ∀ s t : State, s.memWf → step s = .next t → t.memWf

/-- The device right after reset: memory is canonical and lists nothing, the clock stands at 0 (R138), no core holds a block, no queue is
registered, no address space is valid, and every register of every control page but `DEVNUM` reads 0 (R326, R333). What memory holds (log
entry 5) and what registers hold before boot (log entry 7) is the model's choice. -/
def Obligations.ResetState : Prop :=
  State.reset.memWf ∧ State.reset.mem.cells = [] ∧ State.reset.clock = 0 ∧ (∀ k, State.reset.block k = none)
  ∧ (∀ q, (State.reset.slot q).registered = false) ∧ (∀ a, State.reset.space a = Space.init)
  ∧ ∀ vi off, off ≠ 0x0A8 → State.reset.ctlRead vi off = 0

/-! ## Team words -/

namespace Sys2Proof.Machine

/-- Registers r to r + q − 1 in a FIELD. -/
def named (field : Nat) (r : VReg) (q : Nat := 1) : List (Nat × Nat) := (upto 0 q).map fun i => (field, r.toNat + i)

/-- The vector register that a source operand names, if it names one. -/
def namedA : VASrc → List (Nat × Nat)
  | .v r => named 6 r
  | .zero => []

def namedS (field : Nat) : VSrc → List (Nat × Nat)
  | .v r => named field r
  | _ => []

def namedX : VIdx → List (Nat × Nat)
  | .v r => named 7 r
  | _ => []

def namedSel : SelSrc → List (Nat × Nat)
  | .src x => namedS 8 x
  | .p _ => []

def namedD : VDest → List (Nat × Nat)
  | .v r => named 5 r
  | .p _ => []

/-- The vector registers that an instruction names, members of its groups (R186) and vA+1 of an `.o4` source among them, each with its
FIELD, from DEST on (R55, R341). -/
def vectorNames : Instr → List (Nat × Nat)
  | .pFromv o => named 6 o.a
  | .pTov o => named 5 o.d
  | .vAdd o | .vSub o | .vMul o | .vMulh o | .vAnd o | .vOr o | .vXor o | .vAndn o | .vShl o | .vShr o | .vSra o | .vMin o | .vMax o
  | .vAdds o | .vSubs o | .vPack o | .vUnpk o | .vExt o => named 5 o.d ++ namedA o.a ++ namedS 7 o.b
  | .vMad o | .vIns o => named 5 o.d ++ namedA o.a ++ namedS 7 o.b ++ namedS 8 o.c
  | .vAbs o | .vClz o | .vPopc o => named 5 o.d ++ namedA o.a
  | .vMov o => named 5 o.d ++ namedS 6 o.a
  | .vCmp o => namedD o.d ++ namedA o.a ++ namedS 7 o.b
  | .vSel o => named 5 o.d ++ namedA o.a ++ namedS 7 o.b ++ namedSel o.c
  | .vAddImm o | .vSubImm o | .vMulImm o | .vAndImm o | .vOrImm o | .vXorImm o | .vAndnImm o | .vShlImm o | .vShrImm o | .vSraImm o =>
    named 5 o.d ++ named 6 o.a
  | .vLi o => named 5 o.d
  | .vFadd o | .vFsub o | .vFmul o => named 5 o.d ++ named 6 o.a ++ namedS 7 o.b
  | .vFma o => named 5 o.d ++ named 6 o.a ++ namedS 7 o.b ++ namedS 8 o.c
  | .vFmin o | .vFmax o => named 5 o.d ++ named 6 o.a ++ namedS 7 o.b
  | .vFcmp o => namedD o.d ++ named 6 o.a ++ namedS 7 o.b
  | .vFabs o | .vFneg o | .vFclass o => named 5 o.d ++ named 6 o.a
  | .vFrcp o | .vFrsq o | .vFexp2 o | .vFlog2 o => named 5 o.d ++ named 6 o.a
  | .vFsqrt o => named 5 o.d ++ named 6 o.a
  | .vCvt o | .vCvti o | .vCvtf o =>
    let ws := elWidth o.st
    let wd := elWidth o.dt
    named 5 o.d (if ws < wd then wd / ws else 1) ++ named 6 o.a (if o.st = .o4 then 2 else if wd < ws then ws / wd else 1)
  | .vQnt o => named 5 o.d ++ named 6 o.a (16 / elWidth o.ty) ++ named 7 o.sc
  | .vDqt o => named 5 o.d (16 / elWidth o.ty) ++ named 6 o.a ++ named 7 o.sc
  | .vCbenc o => named 5 o.d ++ named 6 o.a (if o.bf then 4 else 8)
  | .vCbld o => named 6 o.a
  | .vShfl o | .vPerm o => named 5 o.d ++ named 6 o.a ++ namedS 7 o.b
  | .vBcst o => named 5 o.d ++ named 6 o.a
  | .vVote o => named 5 o.d ++ (match o.mode with
    | .uni a => named 6 a
    | _ => [])
  | .vScan o => named 5 o.d ++ named 6 o.a
  | .vRed o => named 5 o.d ++ named 6 o.a
  | .vLd o => named 5 o.d ++ namedX o.idx
  | .vLdb o => named 5 o.d
  | .vSt o => named 5 o.d ++ namedX o.idx
  | .vAtomAdd o | .vAtomMin o | .vAtomMax o | .vAtomAnd o | .vAtomOr o | .vAtomXor o | .vAtomXchg o | .vAtomCas o | .vAtomFadd o =>
    named 5 o.d ++ namedX o.idx ++ named 8 o.data
  | .pgReq o => namedX o.idx
  | .pgTest o => namedX o.idx
  | .setIns o | .setDel o | .setHas o => namedX o.x
  | .setEnum o => named 5 o.d
  | .bUcld o => named 7 o.b
  | .bAccRd o | .bAccWr o => named 5 o.d
  | .longImmediatePrefix o => match o.carried with
    | .scalar _ _ _ => []
    | .vint f d a _ => named 5 d ++ namedA a ++ (match f with
      | .mad x | .ins x => namedS 8 x
      | .sel x => namedSel x
      | _ => [])
    | .vcmp d a _ _ => namedD d ++ namedA a
    | .vfloat f d a _ => named 5 d ++ named 6 a ++ (match f with
      | .fma x _ => namedS 8 x
      | _ => [])
    | .vfcmp d a _ _ => namedD d ++ named 6 a
  | _ => []

/-- The team holds every vector register that the instruction names: `v0` to `v(8G − 1)` (R54, R55). -/
def Ctx.holds (c : Ctx) (i : Instr) : Bool := (vectorNames i).all fun x => decide (x.2 < 8 * c.tm.G)

/-- What each scalar instruction computes (R145, R159 to R161): its guard, its destination and the value. -/
def scalarResult (c : Ctx) (s : State) : Instr → Option (Guard × SReg × Word)
  | .sAdd o => some (o.g, o.d, c.sval s o.a + c.sval s o.b)
  | .sSub o => some (o.g, o.d, c.sval s o.a - c.sval s o.b)
  | .sMul o => some (o.g, o.d, c.sval s o.a * c.sval s o.b)
  | .sMulh o => some (o.g, o.d, fMulh o.sg (c.sval s o.a) (c.sval s o.b))
  | .sAnd o => some (o.g, o.d, c.sval s o.a &&& c.sval s o.b)
  | .sOr o => some (o.g, o.d, c.sval s o.a ||| c.sval s o.b)
  | .sXor o => some (o.g, o.d, c.sval s o.a ^^^ c.sval s o.b)
  | .sAndn o => some (o.g, o.d, c.sval s o.a &&& ~~~c.sval s o.b)
  | .sShl o => some (o.g, o.d, fShl (c.sval s o.a) (c.sval s o.b))
  | .sShr o => some (o.g, o.d, fShr (c.sval s o.a) (c.sval s o.b))
  | .sSra o => some (o.g, o.d, fSra (c.sval s o.a) (c.sval s o.b))
  | .sMin o => some (o.g, o.d, fMin o.sg (c.sval s o.a) (c.sval s o.b))
  | .sMax o => some (o.g, o.d, fMax o.sg (c.sval s o.a) (c.sval s o.b))
  | .sClz o => some (o.g, o.d, fClz (c.sval s o.a))
  | .sPopc o => some (o.g, o.d, fPopc (c.sval s o.a))
  | .sCmp o => some (o.g, o.d, fCmp o.sg o.c (c.sval s o.a) (c.sval s o.b))
  | .sSel o => some (o.g, o.d, if c.sval s o.c ≠ 0 then c.sval s o.a else c.sval s o.b)
  | .sMov o => some (o.g, o.d, c.sval s o.a)
  | .sAddImm o => some (o.g, o.d, c.sval s o.a + o.imm.signExtend 64)
  | .sSubImm o => some (o.g, o.d, c.sval s o.a - o.imm.signExtend 64)
  | .sMulImm o => some (o.g, o.d, c.sval s o.a * o.imm.signExtend 64)
  | .sAndImm o => some (o.g, o.d, c.sval s o.a &&& o.imm.signExtend 64)
  | .sOrImm o => some (o.g, o.d, c.sval s o.a ||| o.imm.signExtend 64)
  | .sXorImm o => some (o.g, o.d, c.sval s o.a ^^^ o.imm.signExtend 64)
  | .sAndnImm o => some (o.g, o.d, c.sval s o.a &&& ~~~(o.imm.signExtend 64))
  | .sShlImm o => some (o.g, o.d, fShl (c.sval s o.a) (o.imm.signExtend 64))
  | .sShrImm o => some (o.g, o.d, fShr (c.sval s o.a) (o.imm.signExtend 64))
  | .sSraImm o => some (o.g, o.d, fSra (c.sval s o.a) (o.imm.signExtend 64))
  | .sLi o => some (o.g, o.d, o.imm.signExtend 64)
  | .pAct o => some (o.g, o.d,
      let w := (c.tm.sreg o.a.toNat).toNat
      BitVec.ofNat 64 (if w < 32 then maskWord c.f.mask w else if w = 32 then summary c.f.mask else 0))
  | .longImmediatePrefix o => match o.carried with
    | .scalar f d a => some (o.g, d, carriedScalar f (c.sval s a) o.limm (c.sval s (carriedThird f)))
    | _ => none
  | _ => none

/-- Where each control instruction that acts sends its fragment, and the team that it leaves (R52, R136, R163, R164): its guard, the
team and the PC. `ret` and `jmp` need a target that R164 admits, `safept` no pending request (R59), `waitcnt` counters at or below its
thresholds (R52). -/
def controlResult (c : Ctx) : Instr → Option (Guard × Team × Nat)
  | .br o => some (o.g, c.tm, c.branchTo o.target)
  | .brc o => some (o.g, c.tm, if c.tm.sreg o.c.toNat ≠ 0 then c.branchTo o.target else c.f.pc + c.len)
  | .call o => some (o.g, c.tm.setS o.c.toNat (BitVec.ofNat 64 (c.f.pc + 8)), c.branchTo o.target)
  | .loop o =>
    let n := c.tm.sreg o.c.toNat - 1
    some (o.g, c.tm.setS o.c.toNat n, if n ≠ 0 then c.branchTo o.target else c.f.pc + c.len)
  | .ret o => if targetOk (c.tm.sreg o.a.toNat) then some (o.g, c.tm, (c.tm.sreg o.a.toNat).toNat) else none
  | .jmp o => if targetOk (c.tm.sreg o.a.toNat) then some (o.g, c.tm, (c.tm.sreg o.a.toNat).toNat) else none
  | .nop o => some (o.g, c.tm, c.f.pc + c.len)
  | .yield o => some (o.g, c.tm, c.f.pc + c.len)
  | .safept o => if c.b.request.isNone && !c.b.testReq then some (o.g, c.tm, c.f.pc + c.len) else none
  | .waitcnt o =>
    if below c.tm.memcnt o.m && below c.tm.setcnt o.s && below c.tm.arrcnt o.a && below c.tm.bankcnt o.b then
      some (o.g, c.tm, c.f.pc + c.len)
    else none
  | _ => none

/-- The team that each predicate instruction leaves over the lanes E in which its guard holds (R166, R167): its guard, and the team. -/
def predicateResult (c : Ctx) : Instr → Option (Guard × (Mask → Team))
  | .pAnd o => some (o.g, fun E => c.tm.setPIn o.d.toNat E (c.tm.preg o.a.toNat &&& c.tm.preg o.b.toNat))
  | .pOr o => some (o.g, fun E => c.tm.setPIn o.d.toNat E (c.tm.preg o.a.toNat ||| c.tm.preg o.b.toNat))
  | .pXor o => some (o.g, fun E => c.tm.setPIn o.d.toNat E (c.tm.preg o.a.toNat ^^^ c.tm.preg o.b.toNat))
  | .pAndn o => some (o.g, fun E => c.tm.setPIn o.d.toNat E (c.tm.preg o.a.toNat &&& ~~~c.tm.preg o.b.toNat))
  | .pNot o => some (o.g, fun E => c.tm.setPIn o.d.toNat E (~~~c.tm.preg o.a.toNat))
  | .pMov o => some (o.g, fun E => c.tm.setPIn o.d.toNat E (c.tm.preg o.a.toNat))
  | .pAny o => some (o.g, fun E => c.tm.setS o.d.toNat (w01 (E &&& c.tm.preg o.a.toNat != 0)))
  | .pAll o => some (o.g, fun E => c.tm.setS o.d.toNat (w01 (E &&& ~~~(c.tm.preg o.a.toNat) == 0)))
  | .pCnt o => some (o.g, fun E => c.tm.setS o.d.toNat (BitVec.ofNat 64 (popc 1024 (E &&& c.tm.preg o.a.toNat).toNat)))
  | .pFirst o => some (o.g, fun E => c.tm.setS o.d.toNat (match lowest 1024 0 (E &&& c.tm.preg o.a.toNat).toNat with
      | some l => BitVec.ofNat 64 l
      | none => BitVec.allOnes 64))
  | .pFromv o => some (o.g, fun E => c.tm.setPIn o.d.toNat E (maskOf c.tm.L fun l => c.tm.vreg o.a.toNat l != 0))
  | .pTov o => some (o.g, fun E => c.tm.setVs o.d.toNat ((lanesOf c.tm.L E).map fun l => (l, w01 (laneIn (c.tm.preg o.a.toNat) l))))
  | _ => none

/-- A lane of a vector source (R177). -/
def srcEl (c : Ctx) (s : State) (w : Nat) (x : VSrc) (l e : Nat) : Nat := (c.srcV s x).el c.tm w l e

/-- A source of class 0x08. -/
def srcA (c : Ctx) (w : Nat) (x : VASrc) (l e : Nat) : Nat := (srcVA x).el c.tm w l e

/-- An immediate at a width. -/
def immEl (w : Nat) (x : BitVec 25) : Nat := subEl w 0 (x.signExtend 64)

/-- What each vector integer instruction computes for element e of lane l (R66, R178, R179, R182): its guard, its destination, the
element width, and the element with the flags that it raises. -/
def elementResult (c : Ctx) (s : State) : Instr → Option (Guard × VReg × Nat × (Nat → Nat → Nat × Nat))
  | .vAdd o => some (o.g, o.d, itW o.ty, fun l e => ((srcA c (itW o.ty) o.a l e + srcEl c s (itW o.ty) o.b l e) % 2 ^ itW o.ty, 0))
  | .vSub o => some (o.g, o.d, itW o.ty, fun l e => (eSub (itW o.ty) (srcA c (itW o.ty) o.a l e) (srcEl c s (itW o.ty) o.b l e), 0))
  | .vMul o => some (o.g, o.d, itW o.ty, fun l e => (srcA c (itW o.ty) o.a l e * srcEl c s (itW o.ty) o.b l e % 2 ^ itW o.ty, 0))
  | .vMulh o => some (o.g, o.d, itW o.ty, fun l e =>
      (eMulh (itS o.ty) (itW o.ty) (srcA c (itW o.ty) o.a l e) (srcEl c s (itW o.ty) o.b l e), 0))
  | .vMad o => some (o.g, o.d, itW o.ty, fun l e =>
      ((srcA c (itW o.ty) o.a l e * srcEl c s (itW o.ty) o.b l e + srcEl c s (itW o.ty) o.c l e) % 2 ^ itW o.ty, 0))
  | .vAdds o => some (o.g, o.d, itW o.ty, fun l e =>
      satEl o.ty (valOf o.ty (srcA c (itW o.ty) o.a l e) + valOf o.ty (srcEl c s (itW o.ty) o.b l e)))
  | .vSubs o => some (o.g, o.d, itW o.ty, fun l e =>
      satEl o.ty (valOf o.ty (srcA c (itW o.ty) o.a l e) - valOf o.ty (srcEl c s (itW o.ty) o.b l e)))
  | .vAnd o => some (o.g, o.d, itW o.ty, fun l e => (srcA c (itW o.ty) o.a l e &&& srcEl c s (itW o.ty) o.b l e, 0))
  | .vOr o => some (o.g, o.d, itW o.ty, fun l e => (srcA c (itW o.ty) o.a l e ||| srcEl c s (itW o.ty) o.b l e, 0))
  | .vXor o => some (o.g, o.d, itW o.ty, fun l e => (srcA c (itW o.ty) o.a l e ^^^ srcEl c s (itW o.ty) o.b l e, 0))
  | .vAndn o => some (o.g, o.d, itW o.ty, fun l e => (eAndn (itW o.ty) (srcA c (itW o.ty) o.a l e) (srcEl c s (itW o.ty) o.b l e), 0))
  | .vShl o => some (o.g, o.d, itW o.ty, fun l e => (eShl (itW o.ty) (srcA c (itW o.ty) o.a l e) (srcEl c s (itW o.ty) o.b l e), 0))
  | .vShr o => some (o.g, o.d, itW o.ty, fun l e => (eShr (itW o.ty) (srcA c (itW o.ty) o.a l e) (srcEl c s (itW o.ty) o.b l e), 0))
  | .vSra o => some (o.g, o.d, itW o.ty, fun l e => (eSra (itW o.ty) (srcA c (itW o.ty) o.a l e) (srcEl c s (itW o.ty) o.b l e), 0))
  | .vMin o => some (o.g, o.d, itW o.ty, fun l e =>
      (eMin (itS o.ty) (itW o.ty) (srcA c (itW o.ty) o.a l e) (srcEl c s (itW o.ty) o.b l e), 0))
  | .vMax o => some (o.g, o.d, itW o.ty, fun l e =>
      (eMax (itS o.ty) (itW o.ty) (srcA c (itW o.ty) o.a l e) (srcEl c s (itW o.ty) o.b l e), 0))
  | .vAbs o => some (o.g, o.d, itW o.ty, fun l e => (eAbs (itS o.ty) (itW o.ty) (srcA c (itW o.ty) o.a l e), 0))
  | .vClz o => some (o.g, o.d, itW o.ty, fun l e => (clz (itW o.ty) (srcA c (itW o.ty) o.a l e), 0))
  | .vPopc o => some (o.g, o.d, itW o.ty, fun l e => (popc (itW o.ty) (srcA c (itW o.ty) o.a l e), 0))
  | .vMov o => some (o.g, o.d, itW o.ty, fun l e => (srcEl c s (itW o.ty) o.a l e, 0))
  | .vAddImm o => some (o.g, o.d, ewW o.w, fun l e => ((srcA c (ewW o.w) (.v o.a) l e + immEl (ewW o.w) o.imm) % 2 ^ ewW o.w, 0))
  | .vSubImm o => some (o.g, o.d, ewW o.w, fun l e => (eSub (ewW o.w) (srcA c (ewW o.w) (.v o.a) l e) (immEl (ewW o.w) o.imm), 0))
  | .vMulImm o => some (o.g, o.d, ewW o.w, fun l e => (srcA c (ewW o.w) (.v o.a) l e * immEl (ewW o.w) o.imm % 2 ^ ewW o.w, 0))
  | .vAndImm o => some (o.g, o.d, ewW o.w, fun l e => (srcA c (ewW o.w) (.v o.a) l e &&& immEl (ewW o.w) o.imm, 0))
  | .vOrImm o => some (o.g, o.d, ewW o.w, fun l e => (srcA c (ewW o.w) (.v o.a) l e ||| immEl (ewW o.w) o.imm, 0))
  | .vXorImm o => some (o.g, o.d, ewW o.w, fun l e => (srcA c (ewW o.w) (.v o.a) l e ^^^ immEl (ewW o.w) o.imm, 0))
  | .vAndnImm o => some (o.g, o.d, ewW o.w, fun l e => (eAndn (ewW o.w) (srcA c (ewW o.w) (.v o.a) l e) (immEl (ewW o.w) o.imm), 0))
  | .vShlImm o => some (o.g, o.d, ewW o.w, fun l e => (eShl (ewW o.w) (srcA c (ewW o.w) (.v o.a) l e) (immEl (ewW o.w) o.imm), 0))
  | .vShrImm o => some (o.g, o.d, ewW o.w, fun l e => (eShr (ewW o.w) (srcA c (ewW o.w) (.v o.a) l e) (immEl (ewW o.w) o.imm), 0))
  | .vSraImm o => some (o.g, o.d, ewW o.w, fun l e => (eSra (ewW o.w) (srcA c (ewW o.w) (.v o.a) l e) (immEl (ewW o.w) o.imm), 0))
  | .vLi o => some (o.g, o.d, ewW o.w, fun _ _ => (immEl (ewW o.w) o.imm, 0))
  | _ => none

/-- The vector team after an instruction that gives every lane of E a value with flags: the destination in the lanes of E, and the
flags of those lanes ORed into `FPFLAGS` (R76, R140). -/
def vectorTeam (c : Ctx) (d : VReg) (E : Mask) (val : Nat → Word × Nat) : Team :=
  let rs := (lanesOf c.tm.L E).map fun l => (l, val l)
  (c.tm.setVs d.toNat (rs.map fun x => (x.1, x.2.1))).orFlags (flagsOf (rs.map fun x => x.2.2))

end Sys2Proof.Machine

/-- Every scalar instruction, and `p.act`, that a calm fragment issues completes: when its guard holds in the lowest active lane its
destination takes the value of R161 (R168), else nothing is written; nothing else changes (R140, R158 to R161). -/
def Obligations.ScalarResults : Prop := ∀ (s : State) (c : Ctx) (i : Instr) (g : Guard) (d : SReg) (x : Word),
  s.issuer = some c → c.calm = true → scalarResult c s i = some (g, d, x) →
    Leaves s c (exec i s) (if c.acts g then c.tm.setS d.toNat x else c.tm)

/-- Every control instruction that a calm fragment issues alone in its team completes: it goes where R164 says when its guard holds in the
lowest active lane, else to the next instruction; nothing but what R164 names is written. Where the spec is open it follows the model's
choice: log entry 58. -/
def Obligations.ControlTransfers : Prop := ∀ (s : State) (c : Ctx) (i : Instr) (g : Guard) (r : Team) (pc : Nat),
  s.issuer = some c → c.calm = true → c.alone = true → controlResult c i = some (g, r, pc) →
    Goes s c (exec i s) (if c.acts g then r else c.tm) (if c.acts g then pc else c.f.pc + c.len)

/-- Every predicate instruction but `p.act` that a calm fragment of a team issues completes, when its team holds the vector registers that
it names, and leaves what R166 and R167 say, in the lanes in which its guard holds; nothing else changes. -/
def Obligations.PredicateResults : Prop := ∀ (s : State) (c : Ctx) (i : Instr) (g : Guard) (r : Mask → Team),
  s.issuer = some c → c.calm = true → c.holds i = true → predicateResult c i = some (g, r) →
    Leaves s c (exec i s) (r (c.lanes g))

namespace Sys2Proof.Machine

/-- A float element of a vector register, or of a source (R183). -/
def fltA (c : Ctx) (ty : FType) (a : VReg) (l e : Nat) : Nat := subEl (fmtOf ty.el).w e (c.tm.vreg a.toNat l)

def fltB (c : Ctx) (s : State) (ty : FType) (b : VSrc) (l e : Nat) : Nat := srcEl c s (fmtOf ty.el).w b l e

/-- What each other instruction that writes one lane after the other computes for lane l, with the flags that it raises (R137, R180, R181,
R183, R184, R190, R191). -/
def laneResult (c : Ctx) (s : State) : Instr → Option (Guard × VReg × (Nat → Word × Nat))
  | .vSel o =>
    let w := itW o.ty
    some (o.g, o.d, fun l => match o.c with
      | .p r => (if laneIn (c.tm.preg r.toNat) l then (srcVA o.a).word c.tm l else (laneOfEls w fun e => (srcEl c s w o.b l e, 0)).1, 0)
      | .src x => laneOfEls w fun e => (if srcEl c s w x l e ≠ 0 then srcA c w o.a l e else srcEl c s w o.b l e, 0))
  | .vPack o =>
    let w := itW o.ty
    some (o.g, o.d, fun l => laneOfEls w fun e => satEl o.ty (intOf (itS o.ty) (2 * w)
      (if e < 64 / w / 2 then srcA c (2 * w) o.a l e else srcEl c s (2 * w) o.b l (e - 64 / w / 2))))
  | .vUnpk o =>
    let w := itW o.ty
    some (o.g, o.d, fun l => laneOfEls w fun e =>
      (wrap w (intOf (itS o.ty) (w / 2) (srcA c (w / 2) o.a l (srcEl c s w o.b l 0 % 2 * (64 / w) + e))), 0))
  | .vExt o =>
    let w := itW o.ty
    some (o.g, o.d, fun l =>
      let x := bits ((c.srcV s o.b).word c.tm l).toNat 0 6
      (if x < 64 / w then BitVec.ofNat 64 (wrap 64 (intOf (itS o.ty) w (srcA c w o.a l x))) else 0, 0))
  | .vIns o =>
    let w := itW o.ty
    some (o.g, o.d, fun l => laneOfEls w fun e =>
      (if e = bits ((c.srcV s o.c).word c.tm l).toNat 0 6 then subEl w 0 ((c.srcV s o.b).word c.tm l) else srcA c w o.a l e, 0))
  | .vFadd o => some (o.g, o.d, fun l => laneOfEls (fmtOf o.ty.el).w fun e =>
      opAdd (fmtOf o.ty.el) (.m o.rm) (fltA c o.ty o.a l e) (fltB c s o.ty o.b l e))
  | .vFsub o => some (o.g, o.d, fun l => laneOfEls (fmtOf o.ty.el).w fun e =>
      opSub (fmtOf o.ty.el) (.m o.rm) (fltA c o.ty o.a l e) (fltB c s o.ty o.b l e))
  | .vFmul o => some (o.g, o.d, fun l => laneOfEls (fmtOf o.ty.el).w fun e =>
      opMul (fmtOf o.ty.el) (.m o.rm) (fltA c o.ty o.a l e) (fltB c s o.ty o.b l e))
  | .vFma o => some (o.g, o.d, fun l => laneOfEls (fmtOf o.ty.el).w fun e =>
      opFma (fmtOf o.ty.el) (.m o.rm) (fltA c o.ty o.a l e) (fltB c s o.ty o.b l e) (fltB c s o.ty o.c l e))
  | .vFmin o => some (o.g, o.d, fun l => laneOfEls (fmtOf o.ty.el).w fun e =>
      (minMaxF (fmtOf o.ty.el) false (fltA c o.ty o.a l e) (fltB c s o.ty o.b l e), 0))
  | .vFmax o => some (o.g, o.d, fun l => laneOfEls (fmtOf o.ty.el).w fun e =>
      (minMaxF (fmtOf o.ty.el) true (fltA c o.ty o.a l e) (fltB c s o.ty o.b l e), 0))
  | .vFabs o => some (o.g, o.d, fun l => laneOfEls (fmtOf o.ty.el).w fun e =>
      (signEl (fmtOf o.ty.el) (fun _ => false) (fltA c o.ty o.a l e), 0))
  | .vFneg o => some (o.g, o.d, fun l => laneOfEls (fmtOf o.ty.el).w fun e =>
      (signEl (fmtOf o.ty.el) (fun b => !b) (fltA c o.ty o.a l e), 0))
  | .vFclass o => some (o.g, o.d, fun l => laneOfEls (fmtOf o.ty.el).w fun e => (classF (fmtOf o.ty.el) (fltA c o.ty o.a l e), 0))
  | .vShfl o => some (o.g, o.d, fun l =>
      let x := ((c.srcV s o.b).word c.tm l).toNat
      laneOfEls (elWidth o.ty) fun e =>
        (subEl (elWidth o.ty) ((bits x 10 4 + e) % (64 / elWidth o.ty)) (c.tm.xlane o.a.toNat (bits x 0 10)), 0))
  | .vBcst o => some (o.g, o.d, fun l =>
      let x := ((c.srcS s o.b).word c.tm l).toNat
      laneOfEls (elWidth o.ty) fun _ =>
        (subEl (elWidth o.ty) (bits x 10 4 % (64 / elWidth o.ty)) (c.tm.xlane o.a.toNat (bits x 0 10)), 0))
  | .vPerm o => some (o.g, o.d, fun l =>
      let x := ((c.srcV s o.b).word c.tm l).toNat
      laneOfEls (elWidth o.ty) fun e =>
        (subEl (elWidth o.ty) (bits x (4 * e) 4 % (64 / elWidth o.ty)) (c.tm.xlane o.a.toNat l), 0))
  | .longImmediatePrefix o => match o.carried with
    | .vint f d a ty => some (o.g, d, carriedLane f ty c s (srcVA a) (.val o.limm))
    | .vfloat f d a ty => some (o.g, d, fun l => laneOfEls (fmtOf ty.el).w fun e =>
        let F := fmtOf ty.el
        let x := fltA c ty a l e
        let y := subEl F.w 0 o.limm
        match f with
        | .fadd m => opAdd F (.m m) x y
        | .fsub m => opSub F (.m m) x y
        | .fmul m => opMul F (.m m) x y
        | .fma z m => opFma F (.m m) x y (fltB c s ty z l e)
        | .fmin => (minMaxF F false x y, 0)
        | .fmax => (minMaxF F true x y, 0))
    | _ => none
  | _ => none

/-- What each compare tests: its guard, its destination, the element width and the test of element e of lane l (R180, R184, R137). -/
def compareResult (c : Ctx) (s : State) : Instr → Option (Guard × VDest × Nat × (Nat → Nat → Bool))
  | .vCmp o => some (o.g, o.d, itW o.ty, fun l e =>
      condI o.c (valOf o.ty (srcA c (itW o.ty) o.a l e)) (valOf o.ty (srcEl c s (itW o.ty) o.b l e)))
  | .vFcmp o => some (o.g, o.d, (fmtOf o.ty.el).w, fun l e =>
      condF o.c (decodeF (fmtOf o.ty.el) (fltA c o.ty o.a l e)) (decodeF (fmtOf o.ty.el) (fltB c s o.ty o.b l e)))
  | .longImmediatePrefix o => match o.carried with
    | .vcmp d a ty cond => some (o.g, d, itW ty, fun l e =>
        condI cond (valOf ty (srcA c (itW ty) a l e)) (valOf ty (subEl (itW ty) 0 o.limm)))
    | .vfcmp d a ty cond => some (o.g, d, (fmtOf ty.el).w, fun l e =>
        condF cond (decodeF (fmtOf ty.el) (fltA c ty a l e)) (decodeF (fmtOf ty.el) (subEl (fmtOf ty.el).w 0 o.limm)))
    | _ => none
  | _ => none

/-- The greater or the lesser of two float codes (R184): with one NaN the other operand, with two the canonical NaN, and +0 above −0. -/
def FloatPick (F : Fmt) (greater : Bool) (x y : Nat) : Nat :=
  let a := decodeF F x
  let b := decodeF F y
  let below := fun (p q : Nat) =>
    leF (decodeF F p) (decodeF F q) && (!leF (decodeF F q) (decodeF F p) || (bit p (F.w - 1) && !bit q (F.w - 1)))
  if isNan a && isNan b then F.nanCode
  else if isNan a then y
  else if isNan b then x
  else if (if greater then below x y else below y x) = true then y else x

/-- The class of a float code (R184): the number of the one bit that `v.fclass` sets. -/
def FloatClass (F : Fmt) (x : Nat) : Nat :=
  let neg := decide (2 ^ (F.w - 1) ≤ x)
  let mag := x % 2 ^ (F.w - 1)
  if F.infCode < mag then 8
  else if mag = F.infCode then (if neg then 0 else 7)
  else if 2 ^ F.mb ≤ mag then (if neg then 1 else 6)
  else if mag ≠ 0 then (if neg then 2 else 5)
  else if neg then 3 else 4

/-- The selections, the minima and maxima and the classification, one-word or carried (R180, R184). -/
def picks : Instr → Bool
  | .vSel _ | .vFmin _ | .vFmax _ | .vFclass _ => true
  | .longImmediatePrefix o => match o.carried with
    | .vint (.sel _) _ _ _ | .vfloat .fmin _ _ _ | .vfloat .fmax _ _ _ => true
    | _ => false
  | _ => false

/-- The columns that `v.scan` and `v.red` leave, element position by element position, from the lanes of E in order (R193): its guard, its
destination, its source, the operation, the type, and the column of the lanes' results with their flags from the running results with
theirs (R76: the flags of results that a lane takes; a reduction has combined all). -/
def scanResult : Instr → Option (Guard × VReg × VReg × ScanOp × ElType × (List (Nat × Nat) → List (Nat × Nat)))
  | .vScan o => some (o.g, o.d, o.a, o.op, o.ty, fun col =>
      if o.excl then (identEl o.op o.ty, 0) :: col.take (col.length - 1) else col)
  | .vRed o => some (o.g, o.d, o.a, o.op, o.ty, fun col =>
      col.map fun _ => ((nth (0, 0) col (col.length - 1)).1, flagsOf (col.map Prod.snd)))
  | _ => none

end Sys2Proof.Machine

/-- Every vector integer arithmetic instruction that a calm fragment of a vector team that holds the vector registers it names issues
completes: each lane in which its guard holds takes its elements, packed from the lowest (R66), and nothing else but `FPFLAGS` changes
(R178, R179, R182). After such an instruction, element e of a lane in which the guard holds reads as R179 says, and every other register
of the team reads as before (R66, R138, R140). Every instruction of `laneResult` that a calm fragment of a vector team that holds the
vector registers it names issues completes: each lane in which its guard holds takes its value, the flags of those lanes are ORed into
`FPFLAGS` and nothing else changes; a two-word instruction computes with LIMM as its source B (R137, R140, R180, R181, R183, R184, R190,
R191). Where the spec is open it follows the model's choice: log entries 19 and 24. -/
def Obligations.VectorResults : Prop :=
  (∀ (s : State) (c : Ctx) (i : Instr) (g : Guard) (d : VReg) (w : Nat) (f : Nat → Nat → Nat × Nat),
      s.issuer = some c → c.calm = true → c.vectorTeam = true → c.holds i = true → elementResult c s i = some (g, d, w, f) →
        Leaves s c (exec i s) (vectorTeam c d (c.lanes g) fun l => laneOfEls w (f l)))
  ∧ (∀ (s t : State) (c : Ctx) (i : Instr) (g : Guard) (d : VReg) (w : Nat) (f : Nat → Nat → Nat × Nat) (tm : Team),
      s.issuer = some c → c.calm = true → c.vectorTeam = true → c.holds i = true → elementResult c s i = some (g, d, w, f) →
        exec i s = .next t → t.team c.k c.t = some tm →
          (∀ l e, l < c.tm.L → l < 1024 → laneIn (c.lanes g) l = true → e < 64 / w → subEl w e (tm.vreg d.toNat l) = (f l e).1 % 2 ^ w)
          ∧ (∀ r l, l < 1024 → (r ≠ d.toNat ∨ laneIn (c.lanes g) l = false) → tm.vreg r l = c.tm.vreg r l)
          ∧ (∀ r, tm.sreg r = c.tm.sreg r) ∧ (∀ r, tm.creg r = c.tm.creg r) ∧ ∀ r, tm.preg r = c.tm.preg r)
  ∧ (∀ (s : State) (c : Ctx) (i : Instr) (g : Guard) (d : VReg) (f : Nat → Word × Nat),
      s.issuer = some c → c.calm = true → c.vectorTeam = true → c.holds i = true → laneResult c s i = some (g, d, f) →
        Leaves s c (exec i s) (vectorTeam c d (c.lanes g) fun l => ((f l).1, (f l).2)))

/-- Every compare that a calm fragment of a vector team that holds the vector registers it names issues completes: a vector destination
takes all ones or 0 in each element, a predicate destination of a lane is true when the test holds in all its elements, and no flag is set
(R180, R184). COND compares as its name says; with a NaN only `.ne` and `.uo` are true (R184). `v.sel`, `v.fmin`, `v.fmax` and `v.fclass`
complete with the selected operand, the lesser or greater, and the class, of every element of the lanes in which the guard holds, and set no
flag (R180, R184). -/
def Obligations.CompareResults : Prop :=
  (∀ (s : State) (c : Ctx) (i : Instr) (g : Guard) (d : VDest) (w : Nat) (test : Nat → Nat → Bool),
    s.issuer = some c → c.calm = true → c.vectorTeam = true → c.holds i = true → compareResult c s i = some (g, d, w, test) →
      Leaves s c (exec i s) (match d with
        | .v r => c.tm.setVs r.toNat ((lanesOf c.tm.L (c.lanes g)).map fun l =>
            (l, (laneOfEls w fun e => (if test l e then 2 ^ w - 1 else 0, 0)).1))
        | .p r => c.tm.setPIn r.toNat (c.lanes g) (maskOf c.tm.L fun l => (upto 0 (64 / w)).all fun e => test l e)))
  ∧ (∀ x y : Int, condI .eq x y = decide (x = y) ∧ condI .ne x y = decide (x ≠ y) ∧ condI .lt x y = decide (x < y)
      ∧ condI .le x y = decide (x ≤ y) ∧ condI .gt x y = decide (y < x) ∧ condI .ge x y = decide (y ≤ x))
  ∧ (∀ x y : FV, (isNan x || isNan y) = true → ∀ cond, condF cond x y = decide (cond = .ne ∨ cond = .uo))
  ∧ (∀ x y : FV, (isNan x || isNan y) = false → condF .ord x y = true ∧ condF .uo x y = false
      ∧ (condF .eq x y = true ↔ leF x y = true ∧ leF y x = true) ∧ condF .ne x y = !condF .eq x y
      ∧ condF .le x y = leF x y ∧ condF .ge x y = leF y x ∧ condF .lt x y = !leF y x ∧ condF .gt x y = !leF x y)
  ∧ (∀ (s : State) (c : Ctx) (i : Instr) (g : Guard) (d : VReg) (f : Nat → Word × Nat),
    s.issuer = some c → c.calm = true → c.vectorTeam = true → c.holds i = true → picks i = true → laneResult c s i = some (g, d, f) →
      Leaves s c (exec i s) (c.tm.setVs d.toNat ((lanesOf c.tm.L (c.lanes g)).map fun l => (l, (f l).1))))
  ∧ ∀ (t : ElType) (x y : Nat), t ∈ [.f32, .f16, .bf16] → x < 2 ^ (fmtOf t).w → y < 2 ^ (fmtOf t).w →
      classF (fmtOf t) x = 2 ^ FloatClass (fmtOf t) x ∧ ∀ greater, minMaxF (fmtOf t) greater x y = FloatPick (fmtOf t) greater x y

/-- `v.vote` by a calm fragment of a vector team that holds the vector registers it names completes: with M the unexited lanes that pM
names and P the lanes of E among them, every lane of E takes the word of its mode over P, and pR is true there when no member is missing
(R192). `v.scan` and `v.red` by a calm fragment of a vector team that holds the vector registers it names complete: for each element
position the lanes of E, in ascending order, take the results of combining (inclusive, or shifted by one with the identity first; the last
result for `v.red`) (R193). -/
def Obligations.VoteAndScanResults : Prop :=
  (∀ (s : State) (c : Ctx) (o : VVote),
    s.issuer = some c → c.calm = true → c.vectorTeam = true → c.holds (.vVote o) = true →
      let E := c.lanes o.g
      let M := fullMask c.tm.L &&& ~~~c.tm.exited &&& c.tm.preg o.m.toNat
      let P := E &&& M
      Leaves s c (exec (.vVote o) s)
        ((c.tm.setVs o.d.toNat ((lanesOf c.tm.L E).map fun l => (l, match o.mode with
          | .any a => if P &&& c.tm.preg a.toNat ≠ 0 then 1 else 0
          | .all a => if P &&& ~~~(c.tm.preg a.toNat) = 0 then 1 else 0
          | .cnt a => BitVec.ofNat 64 (popc 1024 (P &&& c.tm.preg a.toNat).toNat)
          | .ballot a => BitVec.ofNat 64 (maskWord (P &&& c.tm.preg a.toNat) (l % 32))
          | .uni a => if ∀ x ∈ lanesOf c.tm.L P, ∀ y ∈ lanesOf c.tm.L P, c.tm.vreg a.toNat x = c.tm.vreg a.toNat y then 1 else 0
          | .miss => BitVec.ofNat 64 (maskWord (M &&& ~~~P) (l % 32))))).setPIn o.r.toNat E
            (maskOf c.tm.L fun _ => M &&& ~~~P == 0)))
  ∧ (∀ (s : State) (c : Ctx) (i : Instr) (g : Guard) (d a : VReg) (op : ScanOp) (ty : ElType) (shape : List (Nat × Nat) → List (Nat × Nat)),
      s.issuer = some c → c.calm = true → c.vectorTeam = true → c.holds i = true →
        scanResult i = some (g, d, a, op, ty, shape) →
          let w := elWidth ty
          let ls := lanesOf c.tm.L (c.lanes g)
          let col := fun e => shape (scanEls op ty none (ls.map fun l => subEl w e (c.tm.vreg a.toNat l)))
          Leaves s c (exec i s)
            ((c.tm.setVs d.toNat ((ls.zip (upto 0 ls.length)).map fun x =>
              (x.1, BitVec.ofNat 64 (packEls w (fun e => (nth (0, 0) (col e) x.2).1) (64 / w))))).orFlags
                (flagsOf ((upto 0 (64 / w)).map fun e => flagsOf ((col e).map Prod.snd)))))

/-! ## Splits, exits, calls of the trap handler -/

namespace Sys2Proof.Machine

/-- What each conversion reads and writes: its guard, its destination and source groups with their sizes, the width of a destination
element, the number of elements, and the value of element j of lane l with its flags (R186 to R189). -/
def convertResult (c : Ctx) : Instr → Option (Guard × (VReg × Nat) × (VReg × Nat) × Option VReg × Nat × Nat × (Nat → Nat → Nat × Nat))
  | .vCvt o => some (cvt o)
  | .vCvti o => some (cvt o)
  | .vCvtf o => some (cvt o)
  | .vQnt o =>
    let w := elWidth o.ty
    some (o.g, (o.d, 1), (o.a, 16 / w), some o.sc, w, 64 / w, fun l j =>
      deliverTy o.ty (rndOf c.tm o.rnd l j)
        (match scaleExp (scaleByte c.tm o.sc.toNat o.sel.toNat (64 / w) l j) with
        | none => .nan
        | some k => scaleF (decodeF (fmtOf .bf16) (groupEl c.tm o.a.toNat 16 l j)) (-k)))
  | .vDqt o =>
    let w := elWidth o.ty
    some (o.g, (o.d, 16 / w), (o.a, 1), some o.sc, 16, 64 / w, fun l j =>
      deliverTy .bf16 (rndOf c.tm o.rnd l j)
        (scaled (elValue c.tm.cbEntry o.ty (groupEl c.tm o.a.toNat w l j)) (scaleByte c.tm o.sc.toNat o.sel.toNat (64 / w) l j)))
  | .vCbenc o =>
    let w := if o.bf then 16 else 32
    some (o.g, (o.d, 1), (o.a, w / 4), none, 4, 16, fun l j =>
      (cbEncode c.tm.cbEntry (decodeF (if o.bf then fmtOf .bf16 else fmtOf .f32) (groupEl c.tm o.a.toNat w l j)), 0))
  | _ => none
where
  /-- The three forms of R187. -/
  cvt (o : VCvt) : Guard × (VReg × Nat) × (VReg × Nat) × Option VReg × Nat × Nat × (Nat → Nat → Nat × Nat) :=
    let ws := elWidth o.st
    let wd := elWidth o.dt
    let q := max ws wd / min ws wd
    (o.g, (o.d, if wd = max ws wd then q else 1), (o.a, if o.st = .o4 then 2 else if ws = max ws wd then q else 1), none, wd,
      64 / min ws wd, fun l j => deliverTy o.dt (rndOf c.tm o.rnd l j)
        (if o.st = .o4 then
          nth (.fin false 0 0) (decodeO4 (c.tm.vreg o.a.toNat l).toNat (bits (c.tm.vreg (o.a.toNat + 1) l).toNat 0 8)) j
        else elValue c.tm.cbEntry o.st (groupEl c.tm o.a.toNat ws l j)))

/-- The special functions (R185): guard, LA, destination, source, type, rounding and function number. -/
def specialResult : Instr → Option (Guard × BitVec 4 × VReg × VReg × FType × RMode × Nat)
  | .vFrcp o => some (o.g, o.la, o.d, o.a, o.ty, .rne, 0)
  | .vFrsq o => some (o.g, o.la, o.d, o.a, o.ty, .rne, 1)
  | .vFsqrt o => some (o.g, o.la, o.d, o.a, o.ty, o.rm, 2)
  | .vFexp2 o => some (o.g, o.la, o.d, o.a, o.ty, .rne, 3)
  | .vFlog2 o => some (o.g, o.la, o.d, o.a, o.ty, .rne, 4)
  | _ => none

/-- The one fragment of a team that may split: an entry of its partition is free, nothing has been spilled, and its CSN is older than the
next (R38, R45). -/
def Ctx.splits (c : Ctx) : Bool :=
  c.alone && (c.b.freeEntry (c.t % 4)).isSome && (c.b.spillList (c.t % 4)).isEmpty && decide (c.csn < (c.b.part (c.t % 4)).csnNext)
    && c.tm.lift == .core

end Sys2Proof.Machine

/-- Every conversion that a calm fragment of a vector team issues completes when its team holds the registers of both groups: each lane in
which its guard holds takes its converted elements, packed over the destination group, from the registers as they stood, and the flags of
those lanes are ORed into `FPFLAGS`; nothing else changes (R76, R140, R186 to R189). `v.cbld` by a calm fragment of a vector team that
holds the vector registers it names whose guard holds in the lowest active lane completes: the codebook takes lanes 0 to 3 of vA, sixteen
elements of 16 bits, whatever the mask; nothing else changes (R189). Where the spec is open it follows the model's choice: log entry 24. -/
def Obligations.ConversionResults : Prop :=
  (∀ (s : State) (c : Ctx) (i : Instr) (g : Guard) (d a : VReg) (qd qs : Nat) (sc : Option VReg) (wd n : Nat) (f : Nat → Nat → Nat × Nat),
      s.issuer = some c → c.calm = true → c.vectorTeam = true →
        convertResult c i = some (g, (d, qd), (a, qs), sc, wd, n, f) →
          d.toNat + qd ≤ 8 * c.tm.G → a.toNat + qs ≤ 8 * c.tm.G → (∀ r ∈ sc, r.toNat < 8 * c.tm.G) →
            Leaves s c (exec i s)
              (((lanesOf c.tm.L (c.lanes g)).foldl (fun tm l => groupWrite tm d.toNat wd qd l fun j => if j < n then (f l j).1 else 0) c.tm).orFlags
                (flagsOf ((lanesOf c.tm.L (c.lanes g)).map fun l => flagsOf ((upto 0 n).map fun j => (f l j).2)))))
  ∧ (∀ (s : State) (c : Ctx) (o : VCbld),
    s.issuer = some c → c.calm = true → c.vectorTeam = true → c.holds (.vCbld o) = true → c.acts o.g = true →
      ∃ tm : Team, (∀ n, n < 16 → tm.cbEntry n = bits (c.tm.vreg o.a.toNat (n / 4)).toNat (16 * (n % 4)) 16)
        ∧ tm = { c.tm with cb := tm.cb } ∧ Leaves s c (exec (.vCbld o) s) tm)

/-- Every special function that a calm fragment of a vector team that holds the vector registers it names issues completes its issue: the
values of the lanes of E, from vA as it stands, become an outstanding result bound for vD that no counter counts; nothing else changes
(R51, R52, R185). Where the spec is open it follows the model's choice: log entry 8. -/
def Obligations.SpecialFunctionIssue : Prop :=
  ∀ (s : State) (c : Ctx) (i : Instr) (g : Guard) (la : BitVec 4) (d a : VReg) (ty : FType) (rm : RMode) (fn : Nat),
    s.issuer = some c → c.calm = true → c.vectorTeam = true → c.holds i = true →
      specialResult i = some (g, la, d, a, ty, rm, fn) →
        let F := fmtOf ty.el
        let rs := (lanesOf c.tm.L (c.lanes g)).map fun l => (l, laneOfEls F.w fun e => spf fn ty rm (subEl F.w e (c.tm.vreg a.toNat l)))
        Leaves s c (exec i s) { c.tm with pend := c.tm.pend ++
          [{ seq := s.seqNo, csn := c.csn, heirs := [c.csn], cls := .spf, window := some (la.toNat + 1), dests := [.v d.toNat], wrote := []
             kind := .spf d.toNat (rs.map fun x => (x.1, x.2.1)) (rs.map fun x => (x.1, x.2.2)), pc := c.f.pc, word := c.word
             lane := lowLane c.f.mask, hnd := c.tm.handler }] }

/-- `brv` by a calm fragment alone (R39): with T the lanes of E that branch and N the others, all go to the target, all fall through, or
two fragments stand, the issuing one with T at the target and a new one with N at PC + 8, both to reconverge at `reconv`; when both stand
there already they are one again, with its earlier reconvergence address (R41). `breakv` by a calm fragment alone (R43): when some lanes
of E break out and others stay, those that break out become a fragment that waits at the exit address x, linked to the issuing one; with
all of them, or with the exit address next, the one fragment goes there; with none, it goes on. `exit` by a calm fragment alone (R165):
the lanes of E are exited for good; the others go on after it, and with none left the team on its core has finished and its fragment is
gone. Where the spec is open it follows the model's choice: log entries 15 and 58. -/
def Obligations.DivergenceResults : Prop :=
  (∀ (s : State) (c : Ctx) (o : BrV),
    s.issuer = some c → c.calm = true → c.splits = true →
      let T := c.lanes o.g &&& c.tm.preg o.c.toNat
      let N := c.f.mask &&& ~~~T
      let target := c.branchTo o.target
      let reconv := c.branchTo o.reconv
      (N = 0 → Goes s c (exec (.brv o) s) c.tm target)
      ∧ (N ≠ 0 → T = 0 → Goes s c (exec (.brv o) s) c.tm (c.f.pc + c.len))
      ∧ (N ≠ 0 → T ≠ 0 → target = reconv → c.f.pc + 8 = reconv → Goes s c (exec (.brv o) s) c.tm reconv)
      ∧ (N ≠ 0 → T ≠ 0 → ¬(target = reconv ∧ c.f.pc + 8 = reconv) →
          ∃ t p q, exec (.brv o) s = .next t ∧ t.stillAt c.k c.t = some c.tm.still ∧ Frame s t c.k c.t
            ∧ t.fragAt c.k c.t c.csn = some p ∧ p.mask = T ∧ p.pc = target ∧ p.rpc = reconv ∧ p.rpcv = true
            ∧ t.fragAt c.k c.t (c.b.part (c.t % 4)).csnNext = some q ∧ q.mask = N ∧ q.pc = c.f.pc + 8 ∧ q.rpc = reconv ∧ q.rpcv = true
            ∧ q.link = c.csn ∧ q.linkv = true ∧ q.rpcNext = c.f.rpc ∧ q.nextv = c.f.rpcv))
  ∧ (∀ (s : State) (c : Ctx) (o : BkV),
    s.issuer = some c → c.calm = true → c.splits = true →
      let B := c.lanes o.g &&& c.tm.preg o.c.toNat
      let x := c.branchTo o.target
      (B = 0 → Goes s c (exec (.breakv o) s) c.tm (c.f.pc + c.len))
      ∧ (B ≠ 0 → c.f.mask &&& ~~~B = 0 → Goes s c (exec (.breakv o) s) c.tm x)
      ∧ (B ≠ 0 → x = c.f.pc + 8 → Goes s c (exec (.breakv o) s) c.tm x)
      ∧ (B ≠ 0 → c.f.mask &&& ~~~B ≠ 0 → x ≠ c.f.pc + 8 →
          ∃ t p q, exec (.breakv o) s = .next t ∧ t.stillAt c.k c.t = some c.tm.still ∧ Frame s t c.k c.t
            ∧ t.fragAt c.k c.t c.csn = some p ∧ p.mask = c.f.mask &&& ~~~B ∧ p.pc = c.f.pc + 8 ∧ p.rpc = c.f.rpc ∧ p.rpcv = c.f.rpcv
            ∧ t.fragAt c.k c.t (c.b.part (c.t % 4)).csnNext = some q ∧ q.mask = B ∧ q.pc = x ∧ q.rpc = x ∧ q.rpcv = true
            ∧ q.link = c.csn ∧ q.linkv = true ∧ q.rpcNext = c.f.rpc ∧ q.nextv = c.f.rpcv))
  ∧ (∀ (s : State) (c : Ctx) (o : GOnly),
    s.issuer = some c → c.calm = true → c.alone = true →
      let E := c.lanes o.g
      ∃ t tm, exec (.exit o) s = .next t ∧ t.team c.k c.t = some tm ∧ tm.exited = c.tm.exited ||| E
        ∧ tm.still = { c.tm.still with exited := c.tm.exited ||| E }
        ∧ (c.f.mask &&& ~~~E ≠ 0 → (t.fragAt c.k c.t c.csn).map Frag.mask = some (c.f.mask &&& ~~~E)
            ∧ t.pcAt c.k c.t c.csn = some (c.f.pc + 8) ∧ tm.finished = c.tm.finished)
        ∧ (c.f.mask &&& ~~~E = 0 → tm.frags = [] ∧ (tm.finished = true ↔ c.tm.finished = true ∨ c.tm.lift = .core)))

/-! ## System, resource and capability words -/

namespace Sys2Proof.Machine

/-- The team that each system and capability instruction that acts leaves: its guard and the team (R145, R171, R189, R201, R203). -/
def registerResult (c : Ctx) (s : State) : Instr → Option (Guard × Team)
  | .csrr o => some (o.g, c.tm.setS o.r.toNat (c.csr s o.csr))
  | .csrw o =>
    let w := c.tm.sreg o.r.toNat
    match o.csr with
    | .prio => if w.toNat < 4 then some (o.g, { c.tm with prio := w.toNat }) else none
    | .fpflags => if w.toNat < 64 then some (o.g, { c.tm with fpflags := w.toNat }) else none
    | .trapvec => if w.toNat % 8 = 0 ∧ w.toNat < 2 ^ 57 then some (o.g, { c.tm with trapvec := w }) else none
    | _ => none
  | .cNarrow o =>
    let x := c.tm.creg o.a.toNat
    let off := (c.tm.sreg o.b.toNat).toNat
    let len := (c.tm.sreg o.c.toNat).toNat
    if [0, 1, 2, 5].contains (capKind x.1) ∧ off + len ≤ capLen x.1 then
      some (o.g, c.tm.setC o.d.toNat (mkCap (capBase x.1 + off) len (capPerm x.1) (capKind x.1) (capKspec x.1), x.2))
    else none
  | .cPerm o =>
    let x := c.tm.creg o.a.toNat
    let m := (c.tm.sreg o.b.toNat).toNat
    if m < 64 then
      some (o.g, c.tm.setC o.d.toNat (mkCap (capBase x.1) (capLen x.1) (capPerm x.1 &&& m) (capKind x.1) (capKspec x.1), x.2))
    else none
  | .cGet o =>
    let x := (c.tm.creg o.a.toNat).1
    some (o.g, c.tm.setS o.d.toNat (BitVec.ofNat 64 (match o.f.toNat with
      | 0 => capBase x
      | 1 => capLen x
      | 2 => capPerm x
      | 3 => capKind x
      | 4 => capKspec x
      | 5 => (x.extractLsb' 0 64).toNat
      | _ => (x.extractLsb' 64 64).toNat)))
  | .cTag o => some (o.g, c.tm.setS o.d.toNat (if (c.tm.creg o.a.toNat).2 then 1 else 0))
  | .cMov o => some (o.g, c.tm.setC o.d.toNat (c.tm.creg o.a.toNat))
  | .cMk o =>
    if c.b.priv then some (o.g, c.tm.setC o.d.toNat ((c.tm.sreg o.b.toNat ++ c.tm.sreg o.a.toNat : BitVec 128), true)) else none
  | .shrink o =>
    if 1 ≤ o.n.toInt ∧ o.n.toInt ≤ 15 ∧ o.n.toNat < c.tm.G ∧ (c.b.part (c.t % 4)).grants = [] then
      some (o.g, c.tm.shrinkTo (c.tm.G - o.n.toNat)) else none
  | .allot o =>
    if 1 ≤ o.n.toInt ∧ o.n.toInt ≤ 15 ∧ c.tm.G + o.n.toNat ≤ 16 then
      some (o.g, if (c.b.part (c.t % 4)).grants = [] ∧ 64 * c.tm.L * o.n.toNat ≤ c.b.pool (c.t % 4) then
          { c.tm with G := c.tm.G + o.n.toNat }.setS o.d.toNat 1
        else c.tm.setS o.d.toNat 0)
    else none
  | .brk o =>
    if (s.iface c.b.vi).victl.toNat.testBit 1 ∧ s.stoppedOf c.b.vi < 4 then none else some (o.g, c.tm)
  | .sigChk o => if c.tm.frags.length = 1 ∧ c.tm.sigacc ≠ o.limm.toNat % 2 ^ 32 then none else some (o.g, c.tm)
  | _ => none

/-- A value has no bit set that a read-only register does not define (R53, R54, R149, R172, R233, R295, R340). -/
def csrHolds : Csr → Nat → Bool
  | .teamstat, w => decide (w < 2 ^ 53)
  | .allot, w => decide (w = bits w 0 5 + bits w 8 5 * 2 ^ 8)
  | .sigacc, w => decide (w < 2 ^ 32)
  | .trapcause, w => decide (w = bits w 0 14 + bits w 16 26 * 2 ^ 16)
  | .bbase, w => decide (w < 2 ^ 36)
  | .rowprog, w => decide (w < 2 ^ 11)
  | _, _ => true

/-- The trap that an instruction that acts raises for what it finds: its guard, CODE, FIELD, AUX and what `FAULTSTAT` takes (R341, R346,
R363 to R365). -/
def trapCause (c : Ctx) : Instr → Option (Guard × Nat × Nat × Nat × Option Word)
  | .trap o => some (o.g, 0x01, 0, o.code.toNat, none)
  | .eret o => if c.tm.handler then none else some (o.g, 0x07, 0, 0, none)
  | .ret o => if targetOk (c.tm.sreg o.a.toNat) then none else some (o.g, 0x05, 6, 0, none)
  | .jmp o => if targetOk (c.tm.sreg o.a.toNat) then none else some (o.g, 0x05, 6, 0, none)
  | .csrw o =>
    let w := (c.tm.sreg o.r.toNat).toNat
    match o.csr with
    | .prio => if 4 ≤ w then some (o.g, 0x06, 6, 0, none) else none
    | .fpflags => if 64 ≤ w then some (o.g, 0x06, 6, 0, none) else none
    | .trapvec => if w % 8 ≠ 0 ∨ 2 ^ 57 ≤ w then some (o.g, 0x06, 6, 0, none) else none
    | r => some (o.g, 0x06, if csrHolds r w then 9 else 6, 0, none)
  | .grow o => if o.n.toInt < 1 ∨ 15 < o.n.toInt ∨ 16 < c.tm.G + o.n.toNat + c.b.pendingGrants c.t then some (o.g, 0x06, 9, 0, none) else none
  | .shrink o => if o.n.toInt < 1 ∨ 15 < o.n.toInt ∨ c.tm.G ≤ o.n.toNat then some (o.g, 0x06, 9, 0, none) else none
  | .allot o => if o.n.toInt < 1 ∨ 15 < o.n.toInt ∨ 16 < c.tm.G + o.n.toNat then some (o.g, 0x06, 9, 0, none) else none
  | .rolesw o =>
    let w := (c.tm.sreg o.a.toNat).toNat
    if !targetOk (c.tm.sreg o.b.toNat) then some (o.g, 0x05, 7, 0, none)
    else if w ≠ bits w 0 5 + bits w 8 2 * 2 ^ 8 then some (o.g, 0x06, 6, 0, none)
    else if 1 < c.tm.frags.length then some (o.g, 0x07, 0, 0, none)
    else none
  | .cNarrow o =>
    let x := (c.tm.creg o.a.toNat).1
    let off := (c.tm.sreg o.b.toNat).toNat
    let fs := some (faultWord ((capBase x + off) % 2 ^ 64) (capKind x == 1) o.a.toNat)
    if ¬[0, 1, 2, 5].contains (capKind x) then some (o.g, 0x11, 6, 0, fs)
    else if capLen x < off + (c.tm.sreg o.c.toNat).toNat then some (o.g, 0x13, 6, 0, fs)
    else none
  | .cPerm o => if 64 ≤ (c.tm.sreg o.b.toNat).toNat then some (o.g, 0x06, 7, 0, none) else none
  | .cMk o => if c.b.priv then none else some (o.g, 0x03, 0, 0, none)
  | .tsInit o => if 65536 ≤ (c.tm.sreg o.a.toNat).toNat then some (o.g, 0x06, 6, 0, none) else none
  | .tsWait o => if (c.b.turnstile o.t.toNat).abandoned then some (o.g, 0x18, 0, o.t.toNat, none) else none
  | .tsArrw o => if (c.b.turnstile o.t.toNat).abandoned then some (o.g, 0x18, 0, o.t.toNat, none) else none
  | .crInit o =>
    let w := (c.tm.sreg o.a.toNat).toNat
    if w.testBit 7 ∨ 2 ^ 40 ≤ w ∨ 16 < bits w 0 4 + 2 * (bits w 4 3 + 1) ∨ bits w 8 16 = 0 ∨ bits w 24 16 = 0 then
      some (o.g, 0x06, 6, 0, none)
    else none
  | .crWait o => if (AMap.find? c.b.cr o.k.toNat).isNone then some (o.g, 0x07, 0, 0, none) else none
  | .crPass o => if (AMap.find? c.b.cr o.k.toNat).isNone then some (o.g, 0x07, 0, 0, none) else none
  | _ => none

end Sys2Proof.Machine

/-- Every control-register, capability and allotment instruction that a calm fragment of a team on its core issues and that no rule turns
into a trap completes: when its guard holds in the lowest active lane it leaves the team as its rule says, else as it was; nothing else
changes (R54, R170, R171, R173, R174, R201, R203). Where the spec is open it follows the model's choice: log entries 21, 22, 56 and 59. -/
def Obligations.RegisterResults : Prop := ∀ (s : State) (c : Ctx) (i : Instr) (g : Guard) (r : Team),
  s.issuer = some c → c.calm = true → c.tm.lift = .core → registerResult c s i = some (g, r) →
    Leaves s c (exec i s) (if c.acts g then r else c.tm)

/-- `sig.rst` by a calm fragment alone goes on; when it acts it leaves 0xFFFFFFFF in `SIGACC`, feeding no record of its own, else `SIGACC`
stays (R173); nothing else changes. `sig.chk` by a calm fragment of a team of one fragment that acts on a signature that differs posts a
kind-8 entry and traps with SIGMIS, FIELD 10 and the low half of `SIGACC` in AUX (R173, R388). `brk` by a calm fragment that acts, while
its interface allows debugging and fewer than four of its partitions stand stopped: it completes, and then its partition stands stopped
with the interface's next stop number (R170, R355). Where the spec is open it follows the model's choice: log entry 26. -/
def Obligations.SignatureAndBreak : Prop :=
  (∀ (s : State) (c : Ctx) (o : GOnly),
    s.issuer = some c → c.calm = true → c.alone = true →
      ∃ t, exec (.sigRst o) s = .next t ∧ t.pcAt c.k c.t c.csn = some (c.f.pc + c.len) ∧ t.stillAt c.k c.t = some c.tm.still
        ∧ Frame s t c.k c.t ∧ (t.team c.k c.t).map Team.sigacc = some (if c.acts o.g then 0xFFFFFFFF else c.tm.sigacc))
  ∧ (∀ (s : State) (c : Ctx) (o : SigChk),
    s.issuer = some c → c.calm = true → c.acts o.g = true → c.tm.frags.length = 1 → c.tm.sigacc ≠ o.limm.toNat % 2 ^ 32 →
      exec (.sigChk o) s = .next (c.trapEntry (s.postFault c.b.vi 8 0x30 (sourceOf 0 (4 * c.k + c.t % 4)) 0
        [c.f.pc + c.len, c.tm.sigacc, o.limm.toNat % 2 ^ 32, 0, 0, 0] none none none) 0x30 10 (c.tm.sigacc % 65536) none))
  ∧ (∀ (s : State) (c : Ctx) (o : Code16),
    s.issuer = some c → c.calm = true → c.alone = true → c.tm.lift = .core → c.acts o.g = true →
      (s.iface c.b.vi).victl.toNat.testBit 1 = true → s.stoppedOf c.b.vi < 4 →
        paOk (s.iface c.b.vi).saveArea = true → paOk ((s.iface c.b.vi).saveArea + 2 ^ 23 - 1) = true →
          ∃ t, exec (.brk o) s = .next t ∧ t.pcAt c.k c.t c.csn = some (c.f.pc + c.len)
            ∧ (t.block c.k).map (fun b => (b.part (c.t % 4)).stopped) = some (some (s.iface c.b.vi).stops)
            ∧ (t.iface c.b.vi).stops = (s.iface c.b.vi).stops + 1 ∧ t.stillAt c.k c.t = some c.tm.still)

/-- After `shrink n` no register at or above v(8(G−n)) holds a value, and every other register of the team is as it was (R54, R174). The
bytes that `shrink` frees serve the grant queue at once (R174): the request that waits alone in the queue of its partition is granted
before the instruction has ended, once the pool holds its bytes: its team has its granules more, and its fragment goes on. `grow n` by a
calm fragment that acts and may ask for n granules parks it, with its request last in the queue of its partition; nothing else changes
(R54, R174). The grant of the oldest request of a partition, made by `grow n`, once its pool holds the bytes: the team has n granules
more, the fragment goes on after its `grow`, and the request has left the queue; no other team changes (R54, R174). `rolesw` by a calm
fragment alone whose team has nothing outstanding, while no request waits in its partition: with no more granules than it has, the team
takes its new role, allotment and priority at once, sD takes the old ones and the fragment goes to sB; with more, it parks until their
grant (R56, R175). -/
def Obligations.ResourceForms : Prop :=
  (∀ (tm : Team) (G r l : Nat), l < 1024 →
    (tm.shrinkTo G).G = G ∧ (tm.shrinkTo G).vreg r l = (if r < 8 * G then tm.vreg r l else 0)
      ∧ (tm.shrinkTo G).s = tm.s ∧ (tm.shrinkTo G).c = tm.c ∧ (tm.shrinkTo G).p = tm.p)
  ∧ (∀ (s : State) (c : Ctx) (o : GrowN) (t csn n : Nat) (tm : Team) (f : Frag),
      s.issuer = some c → c.calm = true → c.tm.lift = .core → c.acts o.g = true → 1 ≤ o.n.toInt → o.n.toInt ≤ 15 → o.n.toNat < c.tm.G →
        (c.b.part (c.t % 4)).grants = [(t, csn, n)] → t ≠ c.t → t % 4 = c.t % 4 → AMap.find? c.b.teams t = some tm →
          tm.halted = false → tm.frags = [f] → f.csn = csn → f.hold = .grow → f.linkv = false → f.mask ≠ 0 → f.hollow = false →
            64 * tm.L * n ≤ ({ c.b with teams := AMap.put c.b.teams c.t (c.tm.shrinkTo (c.tm.G - o.n.toNat)) } : Block).pool (c.t % 4) →
              ∃ u tm', exec (.shrink o) s = .next u ∧ u.stillAt c.k c.t = some (c.tm.shrinkTo (c.tm.G - o.n.toNat)).still
                ∧ u.team c.k t = some tm' ∧ tm'.still = { tm.still with G := tm.G + n }
                ∧ tm'.frags = [{ f with pc := f.pc + 8, hold := .none, yielded := false }]
                ∧ (u.block c.k).map (fun b => (b.part (c.t % 4)).grants) = some [])
  ∧ (∀ (s : State) (c : Ctx) (o : GrowN),
    s.issuer = some c → c.calm = true → c.tm.lift = .core → c.acts o.g = true →
      1 ≤ o.n.toInt → o.n.toInt ≤ 15 → c.tm.G + o.n.toNat + c.b.pendingGrants c.t ≤ 16 →
        Parks s c (exec (.grow o) s) .grow
        ∧ ∃ t, exec (.grow o) s = .next t ∧ (t.block c.k).map (fun b => (b.part (c.t % 4)).grants)
          = some ((c.b.part (c.t % 4)).grants ++ [(c.t, c.csn, o.n.toNat)]))
  ∧ (∀ (s : State) (core p t csn n : Nat) (rest : List (Nat × Nat × Nat)) (b : Block) (tm : Team) (f : Frag),
    p < 4 → t % 4 = p → s.block core = some b → (b.part p).grants = (t, csn, n) :: rest → AMap.find? b.teams t = some tm →
      tm.halted = false → tm.frags = [f] → f.csn = csn → f.hold = .grow → f.linkv = false → f.mask ≠ 0 → f.hollow = false →
        64 * tm.L * n ≤ b.pool p →
        ∃ u tm', exec (.growGrant core p) s = .next u ∧ u.team core t = some tm' ∧ tm'.still = { tm.still with G := tm.G + n }
          ∧ tm'.frags = [{ f with pc := f.pc + 8, hold := .none }]
          ∧ (u.block core).map (fun b => (b.part p).grants) = some rest
          ∧ ∀ k m, (k, m) ≠ (core, t) → u.team k m = s.team k m)
  ∧ (∀ (s : State) (c : Ctx) (o : RoleSw),
    s.issuer = some c → c.calm = true → c.alone = true → c.tm.lift = .core → c.acts o.g = true →
      c.tm.memcnt = 0 → c.tm.setcnt = 0 → c.tm.arrcnt = 0 → c.tm.bankcnt = 0 → (c.b.part (c.t % 4)).grants = [] →
        let w := (c.tm.sreg o.a.toNat).toNat
        let pc := c.tm.sreg o.b.toNat
        let G' := bits w 1 4 + 1
        let old : Word := BitVec.ofNat 64 ((if c.tm.copy then 1 else 0) + (c.tm.G - 1) * 2 + c.tm.prio * 2 ^ 8)
        targetOk pc = true → w = bits w 0 5 + bits w 8 2 * 2 ^ 8 →
          (G' ≤ c.tm.G → ∃ t, exec (.rolesw o) s = .next t
            ∧ t.stillAt c.k c.t = some (({ (if G' < c.tm.G then c.tm.shrinkTo G' else c.tm) with copy := w.testBit 0, prio := bits w 8 2 }).setS
                o.d.toNat old).still
            ∧ Frame s t c.k c.t ∧ t.pcAt c.k c.t c.csn = some pc.toNat)
          ∧ (c.tm.G < G' → Parks s c (exec (.rolesw o) s) (.role o.d.toNat old (w.testBit 0) (bits w 8 2) pc.toNat)
            ∧ ∃ t, exec (.rolesw o) s = .next t ∧ (t.block c.k).map (fun b => (b.part (c.t % 4)).grants)
              = some ((c.b.part (c.t % 4)).grants ++ [(c.t, c.csn, G' - c.tm.G)])))

/-- Every instruction of `trapCause` that a calm fragment of a vector or copy team on its core issues and that acts traps with its cause;
the entry is that of R343 (R341, R346). Where the spec is open it follows the model's choice: log entries 22 and 23. -/
def Obligations.TrapsTaken : Prop := ∀ (s : State) (c : Ctx) (i : Instr) (g : Guard) (code field aux : Nat) (fs : Option Word),
  s.issuer = some c → c.calm = true → c.tm.lift = .core → trapCause c i = some (g, code, field, aux, fs) →
    (c.acts g = true ∨ ∃ o, i = .cMk o) → exec i s = .next (c.trapEntry s code field aux fs)

/-- In handler mode, or with TRAPVEC 0, a trap halts the team with the cause that it reports, NEST set in handler mode: TRAPCAUSE, TRAPPC
and TRAPWORD are those of the new fault, the team never issues again and every turnstile of its block is abandoned (R344, R347, R348,
R372). -/
def Obligations.TrapHalts : Prop :=
  ∀ (s : State) (k t csn : Nat) (word : Word) (len code field aux : Nat) (fs : Option Word) (b : Block) (tm : Team) (f : Frag),
    s.block k = some b → s.team k t = some tm → tm.frag csn = some f → tm.halted = false → (tm.handler = true ∨ tm.trapvec = 0) →
      ∃ u tm' b', u = s.takeTrap k t csn word len code field aux fs ∧ u.team k t = some tm' ∧ u.block k = some b'
        ∧ tm'.halted = true ∧ tm'.trapcause = causeWord code field aux (lowLane f.mask) tm.handler tm.lifted
        ∧ tm'.trappc = BitVec.ofNat 64 (f.pc + len) ∧ tm'.trapword = word ∧ (∀ n, n < 16 → (b'.turnstile n).abandoned = true)
        ∧ (∀ b t g, fragBlocked b tm' t g = true) ∧ u.mem = s.mem

/-- The trap entry of R343 outside handler mode with a handler: TRAPPC follows the instruction, TRAPWORD is its word, TRAPCAUSE the word
of R340, `FAULTSTAT` is written for a cause that reports it; the instruction's address is TRAPPC − 8, or − 16 when TRAPWORD [63:58] is
0x3F; the fragment stands at TRAPVEC in handler mode, every other fragment of the team parks, and nothing else changes but the trace
before the fragments are looked at again (R40 to R44). The fields of TRAPCAUSE (R340). `eret` in handler mode by a calm fragment that
acts, with no halt held: handler mode is over, the fragment stands at TRAPPC and every fragment that parked at the trap entry goes on,
before the fragments are looked at again (R40 to R44); a fragment alone stands there, and nothing else changes. With a halt held the team
halts instead, and reports TRAPPC as it stands (R169, R343, R345, R349); that NEST is then 1 is the model's reading: log entry 38. -/
def Obligations.TrapEntry : Prop :=
  (∀ (s : State) (k t csn : Nat) (word : Word) (len code field aux : Nat) (fs : Option Word) (b : Block) (tm : Team) (f : Frag),
      s.block k = some b → s.team k t = some tm → tm.frag csn = some f → tm.handler = false → tm.trapvec ≠ 0 →
        ∃ (u : State) (tm' : Team), s.takeTrap k t csn word len code field aux fs = u.settle k t ∧ u.team k t = some tm'
          ∧ tm' = { tm with handler := true, trappc := BitVec.ofNat 64 (f.pc + len), trapword := word,
                            trapcause := causeWord code field aux (lowLane f.mask) false tm.lifted,
                            faultstat := fs.getD tm.faultstat,
                            frags := tm.frags.map fun g =>
                              if g.csn = csn then { g with pc := tm.trapvec.toNat, hold := .none } else { g with trapHeld := true } }
          ∧ (len = wordLen word → f.pc < 2 ^ 57 → tm'.trappc.toNat - (if word.extractLsb' 58 6 = 0x3F#6 then 16 else 8) = f.pc)
          ∧ { u.rest with trace := s.trace } = s.rest ∧ ∀ j m, (j, m) ≠ (k, t) → u.team j m = s.team j m)
  ∧ (∀ (code field aux lane : Nat) (nest stack : Bool),
    code < 256 → field < 16 → aux < 65536 → lane < 1024 →
      let w := causeWord code field aux lane nest stack
      (w.extractLsb' 0 8).toNat = code ∧ (w.extractLsb' 8 4).toNat = field ∧ w.getLsbD 12 = nest ∧ w.getLsbD 13 = stack
        ∧ w.extractLsb' 14 2 = 0 ∧ (w.extractLsb' 16 16).toNat = aux ∧ (w.extractLsb' 32 10).toNat = lane ∧ w.extractLsb' 42 22 = 0)
  ∧ (∀ (s : State) (c : Ctx) (o : GOnly),
    s.issuer = some c → c.calm = true → c.acts o.g = true → c.tm.handler = true →
      ((∀ r ∈ c.tm.haltReqs, r.reached ≠ some true) →
        (c.alone = true → Goes s c (exec (.eret o) s) { c.tm with handler := false } (c.tm.trappc.toNat % 2 ^ 57))
        ∧ ∃ u tm', exec (.eret o) s = .next (u.settle c.k c.t) ∧ u.team c.k c.t = some tm'
          ∧ tm'.still = ({ c.tm with handler := false } : Team).still ∧ Frame s u c.k c.t
          ∧ tm'.frags = c.tm.frags.map fun g => { g with pc := if g.csn = c.csn then c.tm.trappc.toNat % 2 ^ 57 else g.pc, trapHeld := false
                                                         yielded := false })
      ∧ ∀ r, c.tm.haltReqs.find? (fun r => r.reached == some true) = some r →
        ∃ u tm', exec (.eret o) s = .next u ∧ u.team c.k c.t = some tm' ∧ tm'.halted = true ∧ tm'.trappc = c.tm.trappc
          ∧ tm'.trapcause = causeWord r.code 0 r.aux r.lane true r.stack)

/-! ## Memory, fences -/

namespace Sys2Proof.Machine

/-- The entry of a long-latency instruction that the acting fragment issues (R51): its class, LA, destinations and kind. -/
def Ctx.entry (c : Ctx) (seq : Nat) (cls : Cls) (la : BitVec 4) (dests : List RegRef) (kind : PendKind) : Pend :=
  { seq, csn := c.csn, heirs := [c.csn], cls, window := if dests.isEmpty || (la == 15#4 && cls != .spf && cls != .page) then none else some (la.toNat + 1),
    dests, wrote := [], kind, pc := c.f.pc, word := c.word, lane := lowLane c.f.mask, hnd := c.tm.handler }

/-- The L1 contents after an acquire, or as they were (R101, R110). -/
def Ctx.afterAcquire (c : Ctx) (o : MOrd) (s : State) : State := if (acqScope o).isSome then s.dropL1 c.k else s

/-- The address and size of an access that acts once, and of one that acts per lane (R195). -/
def onceAccess (c : Ctx) (cap : CReg) (perm n : Nat) (idx : SIdx) (disp : BitVec 8) (scale : BitVec 2) : Access :=
  { cap := cap.toNat, perm, n, align := n, once := true, addrs := [(lowLane c.f.mask,
      (capBase (c.tm.creg cap.toNat).1 : Int) + (2 : Int) ^ scale.toNat * (c.once (c.srcSI idx)).toInt + disp.toInt)] }

def laneAccess (c : Ctx) (cap : CReg) (perm n : Nat) (idx : Src) (disp : BitVec 8) (scale : BitVec 2) (ls : List Nat) : Access :=
  { cap := cap.toNat, perm, n, align := n, addrs := ls.map fun l => (l,
      (capBase (c.tm.creg cap.toNat).1 : Int) + (2 : Int) ^ scale.toNat * (idx.word c.tm l).toInt + disp.toInt) }

/-- What each load reads and where its result goes: guard, LA, ORD, the access over lanes E, the destination, the lanes of a broadcast,
sign extension, residency predicate, and whether a tag may return (R162, R196, R202). -/
def loadForm (c : Ctx) : Instr → Option (Guard × BitVec 4 × MOrd × (Mask → Access) × RegRef × (Mask → List Nat) × Bool × Option PReg × Bool)
  | .sLd o =>
    let n := match o.w with
      | .n8 | .i8 => 1
      | .n16 | .i16 => 2
      | .n32 | .i32 => 4
      | .n64 => 8
    let sx := match o.w with
      | .i8 | .i16 | .i32 => true
      | _ => false
    some (o.g, o.la, o.ord, fun _ => onceAccess c o.cap permRD n o.idx o.disp o.scale, .s o.d.toNat, fun _ => [], sx, none, false)
  | .cLd o => some (o.g, o.la, o.ord, fun _ => onceAccess c o.cap permRD 16 o.idx o.disp o.scale, .c o.d.toNat, fun _ => [], false, none,
      permOk (capPerm (c.tm.creg o.cap.toNat).1) permLC)
  | .vLd o => some (o.g, o.la, o.ord,
      fun E => laneAccess c o.cap permRD (mwN o.w) (c.srcVI o.idx) o.disp o.scale (lanesOf c.tm.L E), .v o.d.toNat, fun _ => [], false, o.rp,
      false)
  | .vLdb o => some (o.g, o.la, o.ord,
      fun E => laneAccess c o.cap permRD (mwN o.w) (c.srcBI o.idx) o.disp o.scale ((lanesOf c.tm.L E).take 1), .v o.d.toNat,
      fun E => lanesOf c.tm.L E, false, o.rp, false)
  | _ => none

/-- The team is on its core and its role may issue a memory instruction: a vector team every form, a copy team the scalar and capability forms
(R55). -/
def Ctx.mayAccess (c : Ctx) (i : Instr) : Bool :=
  c.vectorTeam || (c.copyTeam && match i with
    | .sLd _ => true
    | .sSt _ => true
    | .cLd _ => true
    | .cSt _ => true
    | _ => false)

/-- The atomics with their functions (R198). -/
def atomForm : Instr → Option (VAtom × Nat)
  | .vAtomAdd o => some (o, 0)
  | .vAtomMin o => some (o, 1)
  | .vAtomMax o => some (o, 2)
  | .vAtomAnd o => some (o, 3)
  | .vAtomOr o => some (o, 4)
  | .vAtomXor o => some (o, 5)
  | .vAtomXchg o => some (o, 6)
  | .vAtomCas o => some (o, 7)
  | .vAtomFadd o => some (o, 8)
  | _ => none

/-- The instruction acts in this guard: a scalar or capability form in the lowest active lane, a vector form always, over its lanes. -/
def Ctx.runs (c : Ctx) (g : Guard) (i : Instr) : Prop :=
  c.acts g = true ∨ (∃ o, i = .vLd o) ∨ (∃ o, i = .vLdb o) ∨ (∃ o, i = .vSt o) ∨ (atomForm i).isSome = true

/-- The access of an atomic over the lanes of E (R198). -/
def atomAccess (c : Ctx) (o : VAtom) (E : Mask) : Access :=
  laneAccess c o.cap (permRD + permWR + permAT) (match o.ty with
    | .i64 | .n64 => 8
    | _ => 4) (c.srcVI o.idx) 0 o.scale (lanesOf c.tm.L E)

/-- What each store writes: guard, ORD, the access over lanes E, each lane's data and the tag (R162, R196, R202). -/
def storeForm (c : Ctx) : Instr → Option (Guard × MOrd × (Mask → Access) × (Nat → Nat) × Bool)
  | .sSt o => some (o.g, o.ord, fun _ => onceAccess c o.cap permWR (mwN o.w) o.idx o.disp o.scale,
      fun _ => (c.tm.sreg o.d.toNat).toNat, false)
  | .cSt o => some (o.g, o.ord, fun _ => onceAccess c o.cap permWR 16 o.idx o.disp o.scale, fun _ => (c.tm.creg o.d.toNat).1.toNat,
      (c.tm.creg o.d.toNat).2 && permOk (capPerm (c.tm.creg o.cap.toNat).1) permSC)
  | .vSt o => some (o.g, o.ord,
      fun E => laneAccess c o.cap permWR (mwN o.w) (c.srcVI o.idx) o.disp o.scale (lanesOf c.tm.L E),
      fun l => (c.tm.vreg o.d.toNat l).toNat, false)
  | _ => none

/-- Nothing of the team is outstanding outside its registers: no store, no macro operation, no set operation on its way, no bank command,
and the write path that its core sees is empty (R102, R111, R112). -/
def Ctx.drained (c : Ctx) (s : State) : Bool :=
  c.tm.stb.isEmpty && (s.pathOf c.k).isEmpty && (c.b.subs.all fun q => q.2.all fun o => o.team != c.t) && c.tm.cmds.isEmpty
    && ((upto 0 Config.clusters).all fun h => (s.cluster h).setq.all fun o => !(o.core == c.k && o.team == c.t))
    && ((upto 0 512).all fun ch => (s.channel ch).queue.all fun q => !(q.core == c.k && q.team == c.t))

end Sys2Proof.Machine

/-- Every load without a residency predicate that a calm fragment of a team that may issue it and holds the vector registers it names
issues (a copy team its scalar and capability loads, R55), whose capability allows every lane and whose lanes are all translated and
present, completes its issue: a read of each lane is outstanding, counted in MEMCNT, bound for its destination (of a lane that an atomic
of its team still has to change, at the home, R109), and an acquire has emptied the L1; nothing else changes (R52, R101, R110, R162, R195,
R196, R202). A load with a residency predicate translates its lanes one by one; when all that lie in the scratchpad are present its read
is outstanding, bound for its register and its predicate, with the lanes on absent pages marked (R91, R196). Where the spec is open it
follows the model's choice: log entries 12 and 27. -/
def Obligations.LoadsIssue : Prop :=
  (∀ (s : State) (c : Ctx) (i : Instr) (g : Guard) (la : BitVec 4) (ord : MOrd) (x : Mask → Access) (dst : RegRef) (bc : Mask → List Nat)
      (sx lc : Bool) (lanes : List LaneAcc),
      s.issuer = some c → c.calm = true → c.mayAccess i = true → c.holds i = true →
        loadForm c i = some (g, la, ord, x, dst, bc, sx, none, lc) → c.runs g i →
          (x (c.lanes g)).cause c.tm = none → c.locate s (x (c.lanes g)) false = .ok lanes →
            Becomes c (exec i s) ((c.afterAcquire ord s).modTeam c.k c.t fun tm => { tm with
              memcnt := tm.memcnt + 1
              pend := tm.pend ++ [c.entry s.seqNo .mem la [dst]
                (.load (c.markHome s (x (c.lanes g)).n lanes) (x (c.lanes g)).n sx dst (bc (c.lanes g)) (acqScope ord) none lc none)] }))
  ∧ (∀ (s s1 : State) (c : Ctx) (i : Instr) (g : Guard) (la : BitVec 4) (ord : MOrd) (x : Mask → Access) (dst : RegRef) (bc : Mask → List Nat)
      (sx lc : Bool) (p : PReg) (lanes : List LaneAcc),
      s.issuer = some c → c.calm = true → c.mayAccess i = true → c.holds i = true →
        loadForm c i = some (g, la, ord, x, dst, bc, sx, some p, lc) →
          (x (c.lanes g)).cause c.tm = none →
            c.locateRp (c.tm.creg (x (c.lanes g)).cap).1 (x (c.lanes g)).addrs s [] = .ok lanes s1 →
              (∀ a ∈ lanes, ∀ k o, a.loc = .sp k o → c.b.present o (x (c.lanes g)).n = true) →
                Becomes c (exec i s) ((c.afterAcquire ord s1).modTeam c.k c.t fun tm => { tm with
                  memcnt := tm.memcnt + 1
                  pend := tm.pend ++ [c.entry s1.seqNo .mem la [dst, .p p.toNat]
                    (.load (c.markHome s1 (x (c.lanes g)).n lanes) (x (c.lanes g)).n sx dst (bc (c.lanes g)) (acqScope ord) (some p.toNat) lc none)] }))

/-- Every store that a calm fragment of a team that may issue it and holds the vector registers it names issues (a copy team its scalar
and capability stores, R55), whose capability allows every lane and whose lanes are all translated for writing and present, completes: its
lanes stand last in the team's store buffer, in ascending order, with the low bytes of their data; memory and everything else is unchanged
until they drain (R109, R162, R196, R197, R202). Every atomic that a calm fragment of a vector team that holds the vector registers it
names issues, whose capability allows every lane and whose lanes are all translated for writing and present, completes its issue: its
lanes stand last in the store buffer with their operation, data and comparand, and their old values are outstanding, counted in MEMCNT
(R52, R109, R198, R199). -/
def Obligations.StoresAndAtomicsIssue : Prop :=
  (∀ (s : State) (c : Ctx) (i : Instr) (g : Guard) (ord : MOrd) (x : Mask → Access) (data : Nat → Nat) (tag : Bool) (lanes : List LaneAcc),
      s.issuer = some c → c.calm = true → c.mayAccess i = true → c.holds i = true →
        storeForm c i = some (g, ord, x, data, tag) → c.runs g i →
          (x (c.lanes g)).cause c.tm = none → c.locate s (x (c.lanes g)) true = .ok lanes →
            Becomes c (exec i s) (s.modTeam c.k c.t fun tm => { tm with stb := tm.stb ++ lanes.map fun a =>
              { seq := s.seqNo, team := c.t, csn := c.csn, loc := a.loc, bytes := bytesOf (x (c.lanes g)).n (data a.lane), tag,
                atom := none, rel := relScope ord } }))
  ∧ (∀ (s : State) (c : Ctx) (i : Instr) (o : VAtom) (func : Nat) (lanes : List LaneAcc),
      s.issuer = some c → c.calm = true → c.vectorTeam = true → c.holds i = true → atomForm i = some (o, func) →
        let n := match o.ty with
          | .i64 | .n64 => 8
          | _ => 4
        let x := atomAccess c o (c.lanes o.g)
        x.cause c.tm = none → c.locate s x true = .ok lanes →
          Becomes c (exec i s) ((c.afterAcquire o.ord s).modTeam c.k c.t fun tm => { tm with
            memcnt := tm.memcnt + 1
            pend := tm.pend ++ [c.entry s.seqNo .mem o.la [.v o.d.toNat] (.atom lanes.length (acqScope o.ord).isSome false [])]
            stb := tm.stb ++ lanes.map fun a =>
              { seq := s.seqNo, team := c.t, csn := c.csn, loc := a.loc, bytes := List.replicate n 0, tag := false,
                atom := some { func, ty := o.ty, data := (c.tm.vreg o.data.toNat a.lane).toNat % 2 ^ (8 * n),
                               cmp := (c.tm.vreg o.d.toNat a.lane).toNat % 2 ^ (8 * n), dest := o.d.toNat, lane := a.lane, addr := a.addr,
                               id := s.seqNo },
                rel := relScope o.ord } }))

/-- An access whose capability forbids it traps with the first cause of R363: every load, store and atomic of a team that may issue it
reports its code, FIELD, lane and `FAULTSTAT`, and does nothing (R339, R363, R364). The causes of R363 in their order: an untagged
capability, its kind, its permissions, then bounds and alignment of the first lane at fault. -/
def Obligations.AccessTraps : Prop :=
  (∀ (s : State) (c : Ctx) (i : Instr) (g : Guard) (x : Mask → Access) (code field aux : Nat) (fs : Word),
      s.issuer = some c → c.calm = true → c.mayAccess i = true → c.holds i = true →
        ((∃ la ord dst bc sx rp lc, loadForm c i = some (g, la, ord, x, dst, bc, sx, rp, lc)) ∨ (∃ ord d t, storeForm c i = some (g, ord, x, d, t))
          ∨ (∃ o func, atomForm i = some (o, func) ∧ g = o.g ∧ x = atomAccess c o))
          → c.runs g i → (x (c.lanes g)).cause c.tm = some (code, field, aux, fs) →
            exec i s = .next (c.trapEntry s code field aux (some fs)))
  ∧ (∀ (tm : Team) (x : Access) (p : Nat × Int) (ps : List (Nat × Int)), x.addrs = p :: ps →
    let cap := (tm.creg x.cap).1
    let inside := fun q : Nat × Int => (capBase cap : Int) ≤ q.2 ∧ q.2 + x.n ≤ capBase cap + capLen cap
    ((tm.creg x.cap).2 = false → (x.cause tm).map (fun r => r.1) = some 0x10)
    ∧ ((tm.creg x.cap).2 = true → x.kinds.contains (capKind cap) = false → (x.cause tm).map (fun r => r.1) = some 0x11)
    ∧ ((tm.creg x.cap).2 = true → x.kinds.contains (capKind cap) = true → permOk (capPerm cap) x.perm = false →
        (x.cause tm).map (fun r => r.1) = some 0x12)
    ∧ ((tm.creg x.cap).2 = true → x.kinds.contains (capKind cap) = true → permOk (capPerm cap) x.perm = true →
        ((∃ q ∈ x.addrs, ¬inside q) → (x.cause tm).map (fun r => r.1) = some 0x13)
        ∧ ((∀ q ∈ x.addrs, inside q) → (∃ q ∈ x.addrs, q.2 % (x.align : Int) ≠ 0) → (x.cause tm).map (fun r => r.1) = some 0x14)
        ∧ ((∀ q ∈ x.addrs, inside q ∧ q.2 % (x.align : Int) = 0) → x.cause tm = none)))

/-- `fence` by a calm fragment of a team with nothing outstanding completes, in every form whose address its capability allows: with a
lane in which its guard holds it acts as an acquire at its scope (at bank scope for host memory, or for an address that no table
translates, at device scope), else it does nothing; at bank scope it neither waits for a page nor halts, and a miss walks the tables at
once, sets A in the entries and fills the TLB (R85, R101, R112, R200, R365). Where the spec is open it follows the model's choice: log
entries 17, 25 and 63. -/
def Obligations.FenceCompletes : Prop := ∀ (s : State) (c : Ctx) (o : Fence),
  s.issuer = some c → c.calm = true → c.tm.lift = .core → c.drained s = true →
    (c.lanes o.g = 0 → Becomes c (exec (.fence o) s) s)
    ∧ (c.lanes o.g ≠ 0 → match o.f with
      | .at sc => Becomes c (exec (.fence o) s) (c.acquire sc s)
      | .bank cap idx =>
        let x : Access := { onceAccess c cap 0 1 idx 0 0 with kinds := [0, 2] }
        let va := addrNat ((capBase (c.tm.creg cap.toNat).1 : Int) + (c.once (c.srcSI idx)).toInt) % 2 ^ 57
        x.cause c.tm = none →
          (∀ pa, s.hit c.k c.tm c.b.asid va false = some pa →
            Becomes c (exec (.fence o) s) (c.acquire (if isHost pa then .dev else .bank) s))
          ∧ (s.hit c.k c.tm c.b.asid va false = none → s.mayWalk c.b.asid va = true →
            (∀ lv fr w d path, s.walk c.b.asid va = .leaf lv fr w d path →
              let s1 := (s.fillWalk c.b.asid va).setAD c.b.asid path false
              Becomes c (exec (.fence o) s) (c.acquire (if isHost (fr + va % 2 ^ pageBits lv) then .dev else .bank)
                (s1.modCore c.k fun x => { x with tlb := tlbFillWays x.tlb (leafEntry s1 c.b.asid va lv fr w d) })))
            ∧ ((∀ lv fr w d path, s.walk c.b.asid va ≠ .leaf lv fr w d path) →
              Becomes c (exec (.fence o) s) (c.acquire .dev (s.fillWalk c.b.asid va))))
      | .arr cap idx =>
        let a : Int := (capBase (c.tm.creg cap.toNat).1 : Int) + (c.once (c.srcSI idx)).toInt
        let x : Access := { onceAccess c cap 0 1 idx 0 0 with kinds := [1], align := 32768 }
        x.cause c.tm = none → arrClear c.b (addrNat a % Config.spBytes / 32768) = true →
          Becomes c (exec (.fence o) s) (c.acquire .arr s))

/-! ## Turnstiles, carousels, copy queues, pages -/

namespace Sys2Proof.Machine

/-- What each turnstile and carousel instruction that acts and need not wait leaves: its guard and the state (R114, R204 to R207). -/
def syncResult (c : Ctx) (s : State) : Instr → Option (Guard × State)
  | .tsInit o =>
    let n := (c.tm.sreg o.a.toNat).toNat
    if n < 65536 then some (o.g, s.modBlock c.k fun b => b.setTurnstile o.t.toNat
      { exp := n, arr := 0, ph := (c.b.turnstile o.t.toNat).ph, abandoned := false }) else none
  | .tsArrive o => some (o.g, s.modBlock c.k fun b => b.arrive o.t.toNat)
  | .tsWait o =>
    let x := c.b.turnstile o.t.toNat
    if ¬x.abandoned ∧ x.ph ≠ (c.tm.sreg o.a.toNat).getLsbD 0 then some (o.g, c.acquire .blk s) else none
  | .tsArrw o =>
    let x := c.b.turnstile o.t.toNat
    if ¬x.abandoned ∧ x.exp ≠ 0 ∧ x.arr + 1 = x.exp then
      some (o.g, c.acquire .blk (s.modBlock c.k fun b => b.arrive o.t.toNat)) else none
  | .tsQuery o =>
    let x := c.b.turnstile o.t.toNat
    some (o.g, c.setSc o.d (BitVec.ofNat 64 (x.arr % 65536 + x.exp % 65536 * 2 ^ 16 + (if x.ph then 2 ^ 32 else 0))) s)
  | .crInit o =>
    let w := (c.tm.sreg o.a.toNat).toNat
    let first := bits w 0 4
    let n := bits w 4 3 + 1
    if ¬w.testBit 7 ∧ w < 2 ^ 40 ∧ first + 2 * n ≤ 16 ∧ bits w 8 16 ≠ 0 ∧ bits w 24 16 ≠ 0 then
      some (o.g, s.modBlock c.k fun b => b.crInit o.k.toNat first n (bits w 8 16) (bits w 24 16)) else none
  | .crWait o => match AMap.find? c.b.cr o.k.toNat with
    | none => none
    | some r =>
      let x := cursorOf c.tm.cursors o.k.toNat o.cons
      let ts := c.b.turnstile (r.first + 2 * x.i + (if o.cons then 0 else 1))
      if ¬ts.abandoned ∧ ts.ph = (if o.cons then !x.b else x.b) then
        some (o.g, c.acquire .blk (c.setSc o.d (BitVec.ofNat 64 (x.i + (if x.b then 2 ^ 8 else 0))) s)) else none
  | .crPass o => match AMap.find? c.b.cr o.k.toNat with
    | none => none
    | some r =>
      let x := cursorOf c.tm.cursors o.k.toNat o.cons
      let y : Cursor := if x.i + 1 = r.n then { i := 0, b := !x.b } else { x with i := x.i + 1 }
      let s := if o.skip then s else s.modBlock c.k fun b => b.arrive (r.first + 2 * x.i + (if o.cons then 1 else 0))
      some (o.g, s.modTeam c.k c.t fun tm => { tm with cursors := AMap.set Cursor.init tm.cursors (cursorKey o.k.toNat o.cons) y })
  | _ => none

/-- The packet that each append takes from the scalars (R211). -/
def packetOf (tm : Team) : Instr → Option (Guard × PReg × CReg × List Word)
  | .cpyPut o => some (o.g, o.d, o.q, (upto o.a.toNat 8).map tm.sreg)
  | .cpyIdx o =>
    let kind := (tm.sreg o.a.toNat).toNat % 256
    let ix := (upto o.b.toNat 4).flatMap fun r => [(tm.sreg r).toNat % 2 ^ 32, (tm.sreg r).toNat / 2 ^ 32]
    if (kind = 3 ∨ kind = 4) ∧ ∀ h ∈ ix, h < 2 ^ 24 then
      let n := ix.foldr (fun h acc => h + acc * 2 ^ 24) 0
      some (o.g, o.d, o.q, [BitVec.ofNat 64 ((tm.sreg o.a.toNat).toNat ||| 2 ^ 10), tm.sreg (o.a.toNat + 1), tm.sreg (o.a.toNat + 2),
        tm.sreg (o.a.toNat + 3), BitVec.ofNat 64 n, BitVec.ofNat 64 (n / 2 ^ 64), BitVec.ofNat 64 (n / 2 ^ 128), tm.sreg (o.a.toNat + 4)])
    else none
  | _ => none

/-- The access of an append to the queue header that its capability names (R211, R363). -/
def queueAccess (c : Ctx) (q : CReg) : Access :=
  { cap := q.toNat, kinds := [4], perm := permWR + permAT + permEN, n := 64, align := 64, once := true,
    addrs := [(lowLane c.f.mask, (capBase (c.tm.creg q.toNat).1 : Int))] }

/-- The access of a page form over the lanes of E (R219, R220). -/
def pageAccess (c : Ctx) (cap : CReg) (idx : VIdx) (disp : BitVec 8) (scale : BitVec 2) (E : Mask) : Access :=
  { laneAccess c cap permRD 1 (c.srcVI idx) disp scale (lanesOf c.tm.L E) with kinds := [0, 1, 2, 5] }

/-- The handle checks of a set instruction (R249, R363, R387): register, FIELD and permission of each. -/
def handleAccess (c : Ctx) (cap : CReg) (field perm : Nat) : Access :=
  { cap := cap.toNat, field, kinds := [3], perm, n := 0, align := 1, once := true,
    addrs := [(lowLane c.f.mask, (capBase (c.tm.creg cap.toNat).1 : Int))] }

/-- The set that a handle names (R249). -/
def sourceSet (c : Ctx) (cap : CReg) : SetSrc :=
  { va := capBase (c.tm.creg cap.toNat).1 % 2 ^ 57, home := bits (capKspec (c.tm.creg cap.toNat).1) 0 7, cap := cap.toNat }

/-- The element of each lane of E (R265). -/
def laneElements (c : Ctx) (x : VIdx) (E : Mask) : List (Nat × Nat) :=
  (lanesOf c.tm.L E).map fun l => (l, ((c.srcVI x).word c.tm l).toNat % 2 ^ 32)

/-- What each set instruction sends: whether it acts per lane, its guard, LA, its checks, the home, the set, the sources, the function, the
request and the destination of a result (R249, R262, R265 to R271). -/
def setForm (c : Ctx) : Instr → Option (Bool × Guard × BitVec 4 × List Access × SetSrc × List SetSrc × Nat × SetReq × Option RegRef)
  | .setNew o =>
    let x := c.tm.creg o.a.toNat
    let b := (c.tm.sreg o.b.toNat).toNat
    let y := (c.tm.sreg o.c.toNat).toNat
    let lo := bits b 0 32
    let u := bits y 0 32
    let home := if y.testBit 39 then c.k / 4 else bits y 32 7
    if b < 2 ^ 32 ∧ lo % 64 = 0 ∧ lo + u ≤ 2 ^ 32 ∧ y < 2 ^ 40 ∧ u % 64 = 0 ∧ 64 ≤ u ∧ u ≤ 0xFFFFFFC0 then
      some (false, o.g, o.la,
        [{ cap := o.a.toNat, kinds := [0], perm := permRD + permWR + permEN, n := 64, align := 64, once := true,
           addrs := [(lowLane c.f.mask, (capBase x.1 : Int))] }],
        { va := capBase x.1 % 2 ^ 57, home, cap := o.a.toNat }, [], 0,
        .new lo u (capLen x.1 - 64) (mkCap (capBase x.1) (capLen x.1) (capPerm x.1 &&& (permRD + permWR)) 3 home) x.2, some (.c o.d.toNat))
    else none
  | .setFree o => some (false, o.g, o.la, [handleAccess c o.a 6 permWR], sourceSet c o.a, [], 1, .free, none)
  | .setIns o => some (true, o.g, o.la, [handleAccess c o.a 6 permWR], sourceSet c o.a, [], 2, .ins (laneElements c o.x (c.lanes o.g)), dst o.d)
  | .setDel o => some (true, o.g, o.la, [handleAccess c o.a 6 permWR], sourceSet c o.a, [], 3, .del (laneElements c o.x (c.lanes o.g)), dst o.d)
  | .setHas o => some (true, o.g, o.la, [handleAccess c o.a 6 permRD], sourceSet c o.a, [], 4, .has (laneElements c o.x (c.lanes o.g)), dst o.d)
  | .setCard o => some (false, o.g, o.la, [handleAccess c o.a 6 permRD], sourceSet c o.a, [], 5, .card, some (.s o.d.toNat))
  | .setOr o => some (alg o 6)
  | .setAnd o => some (alg o 7)
  | .setAndn o => some (alg o 8)
  | .setCopy o => some (false, o.g, o.la, [handleAccess c o.d 5 permWR, handleAccess c o.a 6 permRD], sourceSet c o.d, [sourceSet c o.a], 9,
      .alg 9, none)
  | .setClr o => some (false, o.g, o.la, [handleAccess c o.a 6 permWR], sourceSet c o.a, [], 10, .clr, none)
  | .setEnum o => some (true, o.g, o.la, [handleAccess c o.a 6 permRD], sourceSet c o.a, [], 11,
      .enum (c.once (c.srcSI o.c)).toNat (lanesOf c.tm.L (c.lanes o.g)), some (.v o.d.toNat))
  | .setInfo o => some (false, o.g, o.la, [handleAccess c o.a 6 permRD], sourceSet c o.a, [], 12, .info o.f.toNat, some (.s o.d.toNat))
  | .setPin o => some (false, o.g, o.la, [handleAccess c o.a 6 permWR], sourceSet c o.a, [], 13, .pin o.mode, none)
  | _ => none
where
  /-- A predicate destination; `p7` discards (R265). -/
  dst (d : PReg) : Option RegRef := if d = 7#3 then none else some (.p d.toNat)
  /-- `set.or`, `set.and`, `set.andn`. -/
  alg (o : SetAlg) (f : Nat) : Bool × Guard × BitVec 4 × List Access × SetSrc × List SetSrc × Nat × SetReq × Option RegRef :=
    (false, o.g, o.la, [handleAccess c o.d 5 permWR, handleAccess c o.a 6 permRD, handleAccess c o.b 7 permRD], sourceSet c o.d,
      [sourceSet c o.a, sourceSet c o.b], f, .alg f, none)

/-- The array forms that stay in one subarray: guard, LA, SUBCAP, width, predicate row, permission, rows of each operand with its FIELD,
destination and kind (R277, R287 to R291). -/
def arrayForm (c : Ctx) : Instr → Option (Guard × BitVec 4 × CReg × Nat × BitVec 8 × Nat × List RowUse × Option SReg × ArrKind)
  | .aFill o => some (o.g, o.la, o.sub, o.wm1.toNat + 1, o.prow, permWR, [(5, o.row.toNat, o.wm1.toNat + 1)], none,
      .fill o.row.toNat (c.tm.sreg o.b.toNat).toNat)
  | .aLog o => some (two o 3 (o.wm1.toNat + 1))
  | .aAdd o => some (two o 4 (o.wm1.toNat + 1))
  | .aSub o => some (two o 5 (o.wm1.toNat + 1))
  | .aMul o => some (two o 6 (2 * (o.wm1.toNat + 1)))
  | .aCmp o => some (two o 7 1)
  | .aSel o => some (two o 8 (o.wm1.toNat + 1))
  | .aShf o => some (o.g, o.la, o.sub, o.wm1.toNat + 1, o.prow, permRD + permWR,
      [(5, o.d.toNat, o.wm1.toNat + 1), (6, o.a.toNat, o.wm1.toNat + 1)], none, .shf o.d.toNat o.a.toNat o.k.toInt)
  | .aPopc o => some (o.g, o.la, o.sub, o.wm1.toNat + 1, o.prow, permRD, [(6, o.a.toNat, o.wm1.toNat + 1)], some o.d, .popc o.a.toNat)
  | _ => none
where
  /-- A two-operand form. -/
  two (o : ABin) (func dw : Nat) : Guard × BitVec 4 × CReg × Nat × BitVec 8 × Nat × List RowUse × Option SReg × ArrKind :=
    (o.g, o.la, o.sub, o.wm1.toNat + 1, o.prow, permRD + permWR,
      [(5, o.d.toNat, dw), (6, o.a.toNat, o.wm1.toNat + 1), (7, o.b.toNat, o.wm1.toNat + 1)], none,
      .bin func o.var.toNat o.d.toNat o.a.toNat o.b.toNat)

/-- The check of SUBCAP: a whole subarray of the scratchpad (R277). -/
def subarrayAccess (c : Ctx) (sub : CReg) (perm : Nat) : Access :=
  { cap := sub.toNat, field := 9, kinds := [1], perm, n := 32768, align := 32768, once := true,
    addrs := [(lowLane c.f.mask, (capBase (c.tm.creg sub.toNat).1 : Int))] }

/-- The queue of a subarray after an operation (R280). -/
def Ctx.queues (c : Ctx) (sub : Nat) (op : ArrOp) (s : State) : State :=
  s.modBlock c.k fun b => { b with subs := AMap.put b.subs sub (AMap.get [] b.subs sub ++ [op]) }

/-- What each bank instruction sends while its team is lifted: whether it acts per lane, its guard, LA, channel word, second operand, units,
destination and request (R311 to R318). -/
def bankForm (c : Ctx) : Instr → Option (Bool × Guard × BitVec 4 × Word × Word × Nat × Option RegRef × BankReq)
  | .bUcld o =>
    let w := c.tm.sreg o.a.toNat
    let ls := lanesOf c.tm.L (c.lanes o.g)
    if ls = [] ∨ (w.toNat = bits w.toNat 0 5 + bits w.toNat 21 8 * 2 ^ 21 ∧ ∀ l ∈ ls, bits w.toNat 21 8 + l ≤ 255) then
      some (true, o.g, o.la, w, 0, 0, none, .ucld (ls.map fun l => (bits w.toNat 21 8 + l, c.tm.vreg o.b.toNat l)))
    else none
  | .bRun o =>
    let w := c.tm.sreg o.a.toNat
    let b := c.tm.sreg o.b.toNat
    let p := (c.tm.sreg o.c.toNat).toNat
    if w.toNat < 2 ^ 37 ∧ bits w.toNat 5 16 ≠ 0 ∧ bits w.toNat 30 6 ≠ 0 ∧ bits w.toNat 30 6 ≤ 32 ∧ b.toNat < 2 ^ 32
        ∧ bits b.toNat 0 16 + bits b.toNat 16 16 + 1 ≤ bits c.tm.bbase.toNat 16 16 then
      some (false, o.g, o.la, w, b, bits w.toNat 5 16, none, .run (bits w.toNat 21 8) (bits w.toNat 30 6) (bit w.toNat 29) (bit w.toNat 36)
        (bits b.toNat 0 16) (bits b.toNat 16 16 + 1) (bits p 0 32) (bits p 32 32))
    else none
  | .bStep o =>
    let w := c.tm.sreg o.a.toNat
    let b := c.tm.sreg o.b.toNat
    if w.toNat < 2 ^ 21 ∧ bits w.toNat 5 16 ≠ 0 ∧ 1 ≤ b.toNat ∧ b.toNat ≤ 65535 then
      some (false, o.g, o.la, w, b, bits w.toNat 5 16, none, .step b.toNat)
    else none
  | .bAccRd o =>
    let w := c.tm.sreg o.a.toNat
    let ls := lanesOf c.tm.L (c.lanes o.g)
    if ls = [] ∨ (w.toNat = bits w.toNat 0 21 + bits w.toNat 37 3 * 2 ^ 37 ∧ bits w.toNat 5 16 ≠ 0) then
      some (true, o.g, o.la, w, 0, bits w.toNat 5 16, some (.v o.d.toNat), .accRd (bits w.toNat 37 3) ls)
    else none
  | .bAccWr o =>
    let w := c.tm.sreg o.a.toNat
    let ls := lanesOf c.tm.L (c.lanes o.g)
    if ls = [] ∨ (w.toNat = bits w.toNat 0 21 + bits w.toNat 37 3 * 2 ^ 37 ∧ bits w.toNat 5 16 ≠ 0) then
      some (true, o.g, o.la, w, 0, bits w.toNat 5 16, none, .accWr (bits w.toNat 37 3) (ls.map fun l => (l, c.tm.vreg o.d.toNat l)))
    else none
  | .bStat o =>
    let w := c.tm.sreg o.a.toNat
    if w.toNat < 2 ^ 21 ∧ bits w.toNat 5 16 ≠ 0 then some (false, o.g, o.la, w, 0, bits w.toNat 5 16, some (.s o.d.toNat), .stat) else none
  | .bFence o =>
    let w := c.tm.sreg o.a.toNat
    if w.toNat < 32 then some (false, o.g, o.la, w, 0, 0, none, .fence) else none
  | _ => none

/-- The state in which a bank command of the acting fragment is on its way to the controller of its channel (R311, R420). -/
def Ctx.commands (c : Ctx) (s : State) (la : BitVec 4) (w sb : Word) (units : Nat) (dst : Option RegRef) (req : BankReq) : State :=
  let ch := 32 * bits c.tm.bbase.toNat 32 4 + bits w.toNat 0 5
  s.modTeam c.k c.t fun tm => { tm with
    bankcnt := tm.bankcnt + 1
    pend := tm.pend ++ [c.entry s.seqNo .bank la dst.toList (.bank ch dst none)]
    cmds := tm.cmds ++ [{ seq := s.seqNo, core := c.k, team := c.t, vi := c.b.vi, ch, units, word := w, sb
                          rowBase := bits c.tm.bbase.toNat 0 16, req }] }

end Sys2Proof.Machine

/-- Every turnstile and carousel instruction that a calm fragment of a team with nothing outstanding issues, and that finds what it waits
for, completes when its guard holds in the lowest active lane, else does nothing (R114, R204 to R207). An arrival (R204): the turnstile
counts it, or flips its phase at the expected number and releases every fragment and stream that waits for it; no other turnstile changes,
and without a flip no fragment does. A wait that its turnstile does not end parks the fragment on it, and a wait for an arrival counts its
own first (R114, R205, R207). Where the spec is open it follows the model's choice: log entry 53. -/
def Obligations.SyncForms : Prop :=
  (∀ (s s1 : State) (c : Ctx) (i : Instr) (g : Guard),
    s.issuer = some c → c.calm = true → c.tm.lift = .core → c.drained s = true → syncResult c s i = some (g, s1) →
      Becomes c (exec i s) (if c.acts g then s1 else s))
  ∧ (∀ (b : Block) (t : Nat),
    let x := b.turnstile t
    (x.exp = 0 → b.arrive t = b)
    ∧ (x.exp ≠ 0 → x.arr + 1 ≠ x.exp →
        (b.arrive t).turnstile t = { x with arr := (x.arr + 1) % 65536 } ∧ (b.arrive t).teams = b.teams ∧ (b.arrive t).seq = b.seq)
    ∧ (x.exp ≠ 0 → x.arr + 1 = x.exp → (b.arrive t).turnstile t = { x with arr := 0, ph := !x.ph }
        ∧ (x.abandoned = false → ∀ n tm f c, AMap.find? (b.arrive t).teams n = some tm → f ∈ tm.frags → f.hold ≠ .ts t c)
        ∧ (x.abandoned = false → ∀ q c, (b.arrive t).seq = some q → q.hold ≠ .ts t c))
    ∧ ∀ n, n ≠ t → (b.arrive t).turnstile n = b.turnstile n)
  ∧ (∀ (s : State) (c : Ctx),
    s.issuer = some c → c.calm = true → c.tm.lift = .core → c.drained s = true →
      (∀ o, c.acts o.g = true → (c.b.turnstile o.t.toNat).abandoned = false →
          (c.b.turnstile o.t.toNat).ph = (c.tm.sreg o.a.toNat).getLsbD 0 → Parks s c (exec (.tsWait o) s) (.ts o.t.toNat none))
      ∧ (∀ o, c.acts o.g = true → (c.b.turnstile o.t.toNat).abandoned = false →
          ((c.b.turnstile o.t.toNat).exp = 0 ∨ (c.b.turnstile o.t.toNat).arr + 1 ≠ (c.b.turnstile o.t.toNat).exp) →
            Parks (s.modBlock c.k fun b => b.arrive o.t.toNat) c (exec (.tsArrw o) s) (.ts o.t.toNat none)))

/-- An append that a calm fragment of a copy team issues, through a queue capability that allows it and a header that is translated, parks
with its claim on the way to the header; 65,535 outstanding packets fail it at once in pD, with nothing appended (R209, R211). The claim
at the header's home, in one step (R209): with a slot free the claim index rises by one and is answered with its slot and its valid bit,
by the LOGSLOTS, PH and SLOTBASE that the queue's registration has read (R208); of a header that is not registered, by those in memory,
which is the model's choice: log entry 46; else the answer is that there is none; no other byte of memory changes. An append whose claim has been answered completes (R209, R211): with no
slot pD is false in every active lane; with one, and its slot translated, seven doublewords and then, behind a device-scope release, the
eighth with its valid bit stand last in the store buffer, CPYCNT rises by one and pD is true. Where the spec is open it follows the
model's choice: log entries 43 and 46. -/
def Obligations.AppendForms : Prop :=
  (∀ (s : State) (c : Ctx) (i : Instr) (g : Guard) (d : PReg) (q : CReg) (pkt : List Word) (pa : Nat),
    s.issuer = some c → c.calm = true → c.copyTeam = true → c.acts g = true → packetOf c.tm i = some (g, d, q, pkt) → c.tm.claim = none →
      (queueAccess c q).cause c.tm = none →
        (c.tm.cpycnt = 65535 → Leaves s c (exec i s) (c.tm.setPIn d.toNat c.f.mask 0))
        ∧ (c.tm.cpycnt ≠ 65535 → s.hit c.k c.tm c.b.asid (capBase (c.tm.creg q.toNat).1 % 2 ^ 57) true = some pa →
          Parks (s.modTeam c.k c.t fun tm => { tm with
            claim := some { csn := c.csn, d := d.toNat, q := capBase (c.tm.creg q.toNat).1 % 2 ^ 57, pa, seq := s.seqNo, answer := none, pc := c.f.pc
                            word := c.word, lane := lowLane c.f.mask, hnd := c.tm.handler } }) c (exec i s) (.poll 0)))
  ∧ (∀ (s : State) (core team : Nat) (tm : Team) (cl : Claim),
    s.team core team = some tm → tm.claim = some cl → cl.answer = none → s.poisonedAt (.pa cl.pa) 32 = false →
      s.agentWaits s.seqNo s.seqNo (.pa cl.pa) = false → s.mayFill cl.pa 32 = true →
      let w := s.dw cl.pa
      let r := s.dw (cl.pa + 8)
      let hdr := match s.slotAt cl.pa with
        | some q => (q.logslots, q.ph, q.slotbase)
        | none => (bits (s.dw (cl.pa + 16)) 0 5, bit (s.dw (cl.pa + 16)) 8, bits (s.dw (cl.pa + 24)) 6 51 * 64)
      let logn := hdr.1
      let free := (w + 2 ^ 64 - r) % 2 ^ 64 < 2 ^ logn
      ∃ t, exec (.queueClaim core team) s = .next t
        ∧ ((t.team core team).bind Team.claim).map Claim.answer = some (some (if free then
            some (w, hdr.2.2 + 64 * (w % 2 ^ logn), hdr.2.1 != bit (w / 2 ^ logn) 0)
          else none))
        ∧ (free → t.dw cl.pa = (w + 1) % 2 ^ 64)
        ∧ (∀ a, (a < cl.pa ∨ cl.pa + 8 ≤ a ∨ ¬free) → t.mem.byte a = s.mem.byte a))
  ∧ (∀ (s : State) (c : Ctx) (i : Instr) (g : Guard) (d : PReg) (q : CReg) (pkt : List Word) (cl : Claim) (m : Nat),
      s.issuer = some c → c.copyTeam = true → c.acts g = true → packetOf c.tm i = some (g, d, q, pkt) → c.tm.claim = some cl →
        cl.csn = c.csn → c.f.hold = .poll m → fragBlocked c.b c.tm c.t c.f = false → c.tm.vpoison = [] → c.tm.rpoison = [] → c.tm.pend = [] →
          (cl.answer = some none → Becomes c (exec i s) (s.modTeam c.k c.t fun tm => { tm.setPIn cl.d c.f.mask 0 with claim := none }))
          ∧ ∀ w slot v pa, cl.answer = some (some (w, slot, v)) → s.hit c.k c.tm c.b.asid slot true = some pa →
            ∃ t tm, exec i s = .next t ∧ t.team c.k c.t = some tm ∧ tm.cpycnt = c.tm.cpycnt + 1 ∧ tm.claim = none
              ∧ (∀ l, l < 1024 → laneIn c.f.mask l = true → cl.d < 7 → laneIn (tm.preg cl.d) l = true)
              ∧ tm.stb = c.tm.stb ++
                [{ seq := s.seqNo, team := c.t, csn := c.csn, loc := .pa pa, bytes := (pkt.take 7).flatMap fun x => bytesOf 8 x.toNat
                   tag := false, atom := none, rel := none },
                 { seq := s.seqNo + 1, team := c.t, csn := c.csn, loc := .pa (pa + 56)
                   bytes := bytesOf 8 ((nth 0 pkt 7).toNat % 2 ^ 63 + (if v then 2 ^ 63 else 0))
                   tag := false, atom := none, rel := some .dev }]
              ∧ t.mem = s.mem)

/-- `pg.req` and `pg.test` by a calm fragment complete when their capability allows their lanes and the team holds the index register:
`pg.req` posts one record for each distinct 64 KiB page that is absent (or not writable, under `.w`), in ascending order, and none through
a scratchpad capability; `pg.test` makes an uncounted result outstanding that is true for a page present (and writable) and for a
scratchpad (R219, R220). Where the spec is open it follows the model's choice: log entry 17. -/
def Obligations.PageForms : Prop := ∀ (s : State) (c : Ctx), s.issuer = some c → c.calm = true → c.tm.lift = .core →
  (∀ o : PgReq, let x := pageAccess c o.cap o.idx o.disp o.scale (c.lanes o.g)
    c.holds (.pgReq o) = true → x.cause c.tm = none → Becomes c (exec (.pgReq o) s) (if capKind (c.tm.creg o.cap.toNat).1 = 1 then s else
      ((x.addrs.foldl (fun l p => insSorted (addrNat p.2 % 2 ^ 57 / 65536) l) []).filter fun pg =>
        !s.pageOk c.b.asid (pg * 65536) o.w).foldl (fun s pg => s.postPage c.b.vi 0 o.w (pg * 65536) c.b.asid c.k c.t) s))
  ∧ ∀ o : PgTest, let x := pageAccess c o.cap o.idx o.disp o.scale (c.lanes o.g)
    c.holds (.pgTest o) = true → x.cause c.tm = none → Leaves s c (exec (.pgTest o) s) { c.tm with pend := c.tm.pend ++
      [c.entry s.seqNo .page o.la [.p o.d.toNat] (.pgtest o.d.toNat (x.addrs.map fun p =>
        (p.1, capKind (c.tm.creg o.cap.toNat).1 == 1 || s.pageOk c.b.asid (addrNat p.2 % 2 ^ 57) o.w)))] }

/-- Every set instruction that a calm fragment of a vector team that holds the vector registers it names issues and whose handles and
operands are allowed completes its issue: its operation stands last at the home of its set, it is outstanding and counted in SETCNT, with
the registers as they stand; else, when its guard does not hold, nothing changes (R52, R249, R260, R262, R264 to R271). Where the spec is
open it follows the model's choice: log entry 30. -/
def Obligations.SetSends : Prop :=
  ∀ (s : State) (c : Ctx) (i : Instr) (lanes : Bool) (g : Guard) (la : BitVec 4) (checks : List Access) (x : SetSrc) (srcs : List SetSrc)
    (func : Nat) (req : SetReq) (dst : Option RegRef),
    s.issuer = some c → c.calm = true → c.vectorTeam = true → c.holds i = true →
      setForm c i = some (lanes, g, la, checks, x, srcs, func, req, dst) → (∀ a ∈ checks, a.cause c.tm = none) →
        Becomes c (exec i s) (if lanes || c.acts g then
          (s.modTeam c.k c.t fun tm => { tm with
            setcnt := tm.setcnt + 1
            pend := tm.pend ++ [c.entry s.seqNo .set la dst.toList (.set true dst none)] }).modCluster x.home fun q =>
              { q with setq := q.setq ++ [{ seq := s.seqNo, core := c.k, team := c.t, vi := c.b.vi, asid := c.b.asid, home := x.home,
                                            va := x.va, cap := x.cap, srcs, reads := [], posted := [], req, func }] }
        else s)

/-- Every array instruction without a word layout that a calm fragment of a vector team issues, whose rows end below 256, whose SUBCAP is
allowed, whose lines are present and whose subarray has room completes its issue: its macro operation stands last in the queue of the
subarray, outstanding and counted in ARRCNT; a row past 255 traps with OPERAND and its FIELD (R274, R277, R280, R281, R285, R287 to R291,
R387). `a.tld` and `a.tst` by a calm fragment of a vector team that acts complete their issue when their rows end below 256, their width
is a power of two up to 32, SUBCAP and the word capability allow them, the layout lies in one subarray, all is present and both subarrays
have room (R274, R277, R280, R285, R286, R387). `a.wait` by a calm fragment of a vector team with a SUBCAP that is allowed goes on when no
macro operation of its team uses the subarray, and parks while one does (R292). Where the spec is open it follows the model's choice: log
entry 32. -/
def Obligations.ArrayForms : Prop :=
  (∀ (s : State) (c : Ctx) (i : Instr) (g : Guard) (la : BitVec 4) (sub : CReg) (w : Nat) (prow : BitVec 8) (perm : Nat) (rows : List RowUse)
      (d : Option SReg) (kind : ArrKind),
      s.issuer = some c → c.calm = true → c.vectorTeam = true → arrayForm c i = some (g, la, sub, w, prow, perm, rows, d, kind) →
        let use := rows ++ (if prow = 0xFF#8 then [] else [(8, prow.toNat, 1)])
        let n := bits (capBase (c.tm.creg sub.toNat).1) 15 6
        (c.acts g = false → Leaves s c (exec i s) c.tm)
        ∧ (∀ f, c.acts g = true → (use.find? fun x => decide (256 < x.2.1 + x.2.2)).map (fun x => x.1) = some f →
            exec i s = .next (c.trapEntry s 0x06 f 0 none))
        ∧ (c.acts g = true → (∀ x ∈ use, x.2.1 + x.2.2 ≤ 256) →
            (subarrayAccess c sub (if prow = 0xFF#8 then perm else perm ||| permRD)).cause c.tm = none →
              (∀ x ∈ use, c.b.present (32768 * n + 128 * x.2.1) (128 * x.2.2) = true) → c.b.queued n < Config.subQueue →
                Becomes c (exec i s) (c.queues n { seq := s.seqNo, team := c.t, sub := n, sub2 := n, w, prow := prow.toNat, kind, started := false,
                                                   writes := [], poison := [], count := 0, bad := none }
                  (s.modTeam c.k c.t fun tm => { tm with
                    arrcnt := tm.arrcnt + 1
                    pend := tm.pend ++ [c.entry s.seqNo .arr la (d.map fun r => RegRef.s r.toNat).toList (.arr (d.map BitVec.toNat) n false none)] }))))
  ∧ (∀ (s : State) (c : Ctx) (i : Instr) (o : ATr) (store : Bool),
    s.issuer = some c → c.calm = true → c.vectorTeam = true → ((i = .aTld o ∧ store = false) ∨ (i = .aTst o ∧ store = true)) →
      let w := o.wm1.toNat + 1
      let use : List RowUse := (5, o.row.toNat, w) :: (if o.prow = 0xFF#8 then [] else [(8, o.prow.toNat, 1)])
      let n := bits (capBase (c.tm.creg o.sub.toNat).1) 15 6
      let a : Int := (capBase (c.tm.creg o.cap.toNat).1 : Int) + (c.tm.sreg o.off.toNat).toInt
      let off := addrNat a % Config.spBytes
      let words : Access := { cap := o.cap.toNat, kinds := [1], perm := if store then permWR else permRD, n := 128 * w, align := 128
                              once := true, addrs := [(lowLane c.f.mask, a)] }
      c.acts o.g = true → (∀ x ∈ use, x.2.1 + x.2.2 ≤ 256) → w ∈ [1, 2, 4, 8, 16, 32] →
        (subarrayAccess c o.sub ((if store then permRD else permWR) ||| (if o.prow = 0xFF#8 then 0 else permRD))).cause c.tm = none →
          words.cause c.tm = none → off / 32768 = (off + 128 * w - 1) / 32768 → c.b.present off (128 * w) = true →
            (∀ x ∈ use, c.b.present (32768 * n + 128 * x.2.1) (128 * x.2.2) = true) →
              c.b.queued n < Config.subQueue → c.b.queued (off / 32768) < Config.subQueue →
                Becomes c (exec i s) (c.queues n { seq := s.seqNo, team := c.t, sub := n, sub2 := off / 32768, w, prow := o.prow.toNat
                                                   kind := if store then .tst off o.row.toNat else .tld off o.row.toNat, started := false
                                                   writes := [], poison := [], count := 0, bad := none }
                  (s.modTeam c.k c.t fun tm => { tm with
                    arrcnt := tm.arrcnt + 1
                    pend := tm.pend ++ [c.entry s.seqNo .arr o.la [] (.arr none n false none)] })))
  ∧ (∀ (s : State) (c : Ctx) (o : AWait),
    s.issuer = some c → c.calm = true → c.vectorTeam = true → c.acts o.g = true → (subarrayAccess c o.sub 0).cause c.tm = none →
      let n := bits (capBase (c.tm.creg o.sub.toNat).1) 15 6
      ((∀ op ∈ c.b.arrOps, op.team = c.t → op.uses n = false) → Leaves s c (exec (.aWait o) s) c.tm)
      ∧ ((∃ op ∈ c.b.arrOps, op.team = c.t ∧ op.uses n = true ∧ op.seq < s.seqNo) → Parks s c (exec (.aWait o) s) (.poll s.seqNo)))

/-- The issue of a reserved word traps with ILLEGAL and the field at fault, or with ROLE, whatever its guard (R338, R341). A team's role
and allotment: a vector form in a copy team and a queue form in a vector team trap with ROLE; a form that its team may issue and that
names a vector register at or above v(8G) traps with ALLOT, the FIELD of the first such register, and the register in AUX, whatever its
guard (R55, R338, R341). A bank instruction other than `b.lift` in a team that is not lifted traps with ROLE (R311, R341); one of a lifted
team that names a vector register that its team does not hold traps with ALLOT (R55, R341). Where the spec is open it follows the model's
choice: log entries 13 and 14. -/
def Obligations.ReservedRoleAndAllotTraps : Prop :=
  (∀ (s : State) (c : Ctx) (r : Reject),
    s.issuer = some c → c.calm = true →
      exec (.illegalWordIssue r) s = .next (if r.role then c.trapEntry s 0x03 0 0 none else c.trapEntry s 0x02 r.field.toNat 0 none))
  ∧ (∀ (s : State) (c : Ctx), s.issuer = some c → c.calm = true → c.tm.lift = .core →
    (∀ i, c.tm.copy = true → ((elementResult c s i).isSome ∨ (laneResult c s i).isSome ∨ (compareResult c s i).isSome
        ∨ (convertResult c i).isSome ∨ (specialResult i).isSome ∨ (scanResult i).isSome ∨ (∃ o, i = .vVote o) ∨ (∃ o, i = .vCbld o)
        ∨ (∃ o, i = .vLd o) ∨ (∃ o, i = .vLdb o) ∨ ∃ o, i = .vSt o) →
        exec i s = .next (c.trapEntry s 0x03 0 0 none))
    ∧ (∀ o, c.tm.copy = false → exec (.cpyPut o) s = .next (c.trapEntry s 0x03 0 0 none))
    ∧ (∀ o, c.tm.copy = false → exec (.cpyIdx o) s = .next (c.trapEntry s 0x03 0 0 none))
    ∧ (∀ i field r, (vectorNames i).find? (fun x => decide (8 * c.tm.G ≤ x.2)) = some (field, r) →
        (c.tm.copy = false ∨ (∃ o, i = .pFromv o) ∨ (∃ o, i = .pTov o) ∨ (∃ o, i = .pgReq o) ∨ ∃ o, i = .pgTest o) →
          (∀ o, i ≠ .bUcld o) → (∀ o, i ≠ .bAccRd o) → (∀ o, i ≠ .bAccWr o) →
            exec i s = .next (c.trapEntry s 0x04 field r none)))
  ∧ (∀ (s : State) (c : Ctx) (i : Instr), s.issuer = some c → c.calm = true → c.tm.copy = false →
    (c.tm.lift = .core →
      ((∃ o, i = .bLand o) ∨ (∃ o, i = .bUcld o) ∨ (∃ o, i = .bRun o) ∨ (∃ o, i = .bStep o) ∨ (∃ o, i = .bWait o) ∨ (∃ o, i = .bFence o)
        ∨ (∃ o, i = .bAccRd o) ∨ (∃ o, i = .bAccWr o) ∨ ∃ o, i = .bStat o) →
        exec i s = .next (c.trapEntry s 0x03 0 0 none))
    ∧ ∀ st n order field r, c.tm.lift = .up st n order →
        ((∃ o, i = .bUcld o) ∨ (∃ o, i = .bAccRd o) ∨ ∃ o, i = .bAccWr o) →
          (vectorNames i).find? (fun x => decide (8 * c.tm.G ≤ x.2)) = some (field, r) → exec i s = .next (c.trapEntry s 0x04 field r none))

/-- Every bank command that a calm fragment of a lifted vector team that holds the vector registers it names issues with operands that
R312 to R318 allow completes its issue (and `b.fence` parks until its own command is complete): the command, with the registers as they
stand, is on its way to its controller, outstanding and counted in BANKCNT; else, when its guard does not hold, nothing changes (R311 to
R318). `b.wait` by a calm fragment of a lifted vector team on a channel word goes on, nothing of the team being outstanding; `b.fence`
goes on once its own command is complete (R316). -/
def Obligations.BankForms : Prop :=
  (∀ (s : State) (c : Ctx) (i : Instr) (lanes : Bool) (g : Guard) (la : BitVec 4) (w sb : Word) (units : Nat) (dst : Option RegRef)
      (req : BankReq) (st n order : Nat),
      s.issuer = some c → c.calm = true → c.tm.copy = false → c.tm.lift = .up st n order → c.holds i = true →
        bankForm c i = some (lanes, g, la, w, sb, units, dst, req) →
          ((∀ o, i ≠ .bFence o) → Becomes c (exec i s) (if lanes || c.acts g then c.commands s la w sb units dst req else s))
          ∧ ((∃ o, i = .bFence o) → c.acts g = true → Parks (c.commands s la w sb units dst req) c (exec i s) (.poll s.seqNo)))
  ∧ (∀ (s : State) (c : Ctx) (o : BWait) (st n order : Nat),
    s.issuer = some c → c.tm.copy = false → c.tm.lift = .up st n order →
      (c.calm = true → (c.acts o.g = false ∨ (c.tm.sreg o.a.toNat).toNat < 32) → Leaves s c (exec (.bWait o) s) c.tm)
      ∧ (∀ m, c.acts o.g = true → c.f.hold = .poll m → fragBlocked c.b c.tm c.t c.f = false → c.tm.vpoison = [] → c.tm.rpoison = [] → c.tm.pend = [] →
          Leaves s c (exec (.bFence o) s) c.tm))

/-- `b.lift` by a calm fragment alone whose team has nothing outstanding, of a team whose registers fit a slot, through a capability that
allows it, to device memory of a stack whose window has rows and that has a stack core in service: it is outstanding, counted in BANKCNT,
and the team stands in the queue of the stack (R298). A team that stands in the queue of a stack, with nothing outstanding but its
`b.lift`, goes up at a turn of its fragment that finds a slot free and its request first: to the lowest-numbered stack core with a free
slot (R298). `b.land` by a calm fragment alone of a lifted vector team with nothing outstanding sends the team down: it is outstanding,
counted in BANKCNT, and the team is on its way to its partition entry (R299). A rising team arrives on its stack core (R295, R298): BBASE
takes the window of its address space, and its fragments go on after the `b.lift`; a landing team arrives in its partition entry (R299):
its fragments go on after the `b.land`, which is no longer outstanding; a team that has halted goes no further (R347). A lifted team whose
last lane has exited, or that has halted, leaves its slot once its bank instructions are complete and no store of it is unacknowledged
(R299, R408). No other team changes. -/
def Obligations.LiftAndLand : Prop :=
  (∀ (s : State) (c : Ctx) (o : BLift) (pa : Nat),
    s.issuer = some c → c.calm = true → c.vectorTeam = true → c.alone = true → c.f.spilled = false → c.acts o.g = true → c.drained s = true →
      c.tm.memcnt = 0 → c.tm.setcnt = 0 → c.tm.arrcnt = 0 → c.tm.bankcnt = 0 → 64 * c.tm.L * c.tm.G ≤ 65536 →
        let x : Access := { onceAccess c o.cap permEN 1 o.idx 0 0 with kinds := [0, 2] }
        let stack := bits pa 36 4
        x.cause c.tm = none →
          s.hit c.k c.tm c.b.asid (addrNat ((capBase (c.tm.creg o.cap.toNat).1 : Int) + (c.once (c.srcSI o.idx)).toInt) % 2 ^ 57) false = some pa →
            isHost pa = false → nrowOf (s.windowOf c.b.vi c.b.asid stack) ≠ 0 → s.stackGone stack = false →
              Parks (s.modTeam c.k c.t fun tm => { tm with
                bankcnt := tm.bankcnt + 1
                pend := tm.pend ++ [c.entry s.seqNo .bank 0 [] .lift]
                lift := .queued stack (s.seqNo + 1) }) c (exec (.bLift o) s) (.poll 0))
  ∧ (∀ (s : State) (c : Ctx) (o : BLift) (pa n order m : Nat),
    s.issuer = some c → fragBlocked c.b c.tm c.t c.f = false → c.tm.vpoison = [] → c.tm.rpoison = [] → c.f.hold = .poll m → c.tm.copy = false → c.alone = true →
      c.f.spilled = false → c.acts o.g = true → c.drained s = true → c.tm.pend.all (fun p => p.kind == .lift) = true →
        c.tm.memcnt = 0 → c.tm.setcnt = 0 → c.tm.arrcnt = 0 → c.tm.bankcnt = 1 → 64 * c.tm.L * c.tm.G ≤ 65536 →
          let x : Access := { onceAccess c o.cap permEN 1 o.idx 0 0 with kinds := [0, 2] }
          let stack := bits pa 36 4
          c.tm.lift = .queued stack order → x.cause c.tm = none →
            s.hit c.k c.tm c.b.asid (addrNat ((capBase (c.tm.creg o.cap.toNat).1 : Int) + (c.once (c.srcSI o.idx)).toInt) % 2 ^ 57) false
                = some pa →
              isHost pa = false → nrowOf (s.windowOf c.b.vi c.b.asid stack) ≠ 0 → s.stackGone stack = false →
                s.freeStackCore stack = some n → s.liftFirst stack order = true →
                  Parks (s.modTeam c.k c.t fun tm => { tm with lift := .rising stack n }) c (exec (.bLift o) s) (.poll 0))
  ∧ (∀ (s : State) (c : Ctx) (o : BLand) (st n order : Nat),
    s.issuer = some c → c.calm = true → c.alone = true → c.f.spilled = false → c.tm.copy = false → c.tm.lift = .up st n order →
      c.acts o.g = true → c.drained s = true →
        Parks (s.modTeam c.k c.t fun tm => { tm with
          bankcnt := tm.bankcnt + 1
          pend := tm.pend ++ [c.entry s.seqNo .bank 0 [] .land]
          lift := .landing st n }) c (exec (.bLand o) s) (.poll 0))
  ∧ (∀ (s : State) (core team : Nat) (b : Block) (tm : Team),
    s.block core = some b → s.team core team = some tm →
      (∀ st n, tm.lift = .rising st n → ∃ t, exec (.teamLiftArrive core team) s = .next t
        ∧ t.team core team = some { tm with lift := .up st n s.seqNo, bbase := s.windowOf b.vi b.asid st,
                                            frags := if tm.halted then tm.frags
                                              else tm.frags.map fun f => { f with pc := f.pc + 8, hold := .none } }
        ∧ ∀ j m, (j, m) ≠ (core, team) → t.team j m = s.team j m)
      ∧ (∀ st n, tm.lift = .landing st n → ∃ t tm', exec (.teamLandArrive core team) s = .next t ∧ t.team core team = some tm'
        ∧ tm'.lift = .core ∧ tm'.pend = tm.pend.filter (fun p => p.kind != .land && p.kind != .lift)
        ∧ tm'.frags = (if tm.halted then tm.frags else tm.frags.map fun f => { f with pc := f.pc + 8, hold := .none })
        ∧ (∀ p, tm.pend.filter (fun p => p.kind == .lift || p.kind == .land) = [p] → p.cls = .bank →
            tm'.bankcnt = tm.bankcnt - 1)
        ∧ ∀ j m, (j, m) ≠ (core, team) → t.team j m = s.team j m)
      ∧ (∀ st n order, tm.lift = .up st n order → (tm.frags = [] ∨ tm.halted = true) → tm.cmds = [] →
          (∀ p ∈ tm.pend, ∀ ch d r, p.kind ≠ .bank ch d r) → s.stbcnt core team = 0 →
            ∃ t tm', exec (.teamLandArrive core team) s = .next t ∧ t.team core team = some tm' ∧ tm'.lift = .core
              ∧ tm'.pend = tm.pend.filter (fun p => p.kind != .land && p.kind != .lift)
              ∧ tm'.finished = (tm.finished || tm.frags.isEmpty)
              ∧ ∀ j m, (j, m) ≠ (core, team) → t.team j m = s.team j m))

/-! ## The matrix stream -/

namespace Sys2Proof.Machine

/-- The tile transfer that `m.acst` or `m.acld` starts (R236). -/
def transferOf (q : Seq) (o : MTr) (store : Bool) (seq : Nat) : Transfer :=
  { store, acc := o.a.toNat, reg := o.d.toNat, tile := q.tile o.d.toNat, ty := o.ty.toNat, row := 0, seq, posted := [] }

/-- Its faults of R390, in the order of its operands. -/
def transferFaults (q : Seq) (o : MTr) (store : Bool) : List MFault :=
  let t := q.tile o.d.toNat
  let x := transferOf q o store 0
  (if o.ty.toNat = 0x02 ∨ o.ty.toNat = 0x08 ∨ o.ty.toNat = 0x0A then [] else [(0x06, 0, 0xFF)]) ++ t.faults o.d.toNat
    ++ (if 128 < t.cols then [(0x06, 0, o.d.toNat)] else [])
    ++ t.capFaults o.d.toNat (if store then permWR else permRD) ((upto 0 t.rows).map x.span)

/-- The offset in the scratchpad that a record load names (R240). -/
def recordOff (q : Seq) (o : MRec) : Nat := 64 * (o.at_.off.toNat + o.at_.step.toNat * (match o.at_.idx with
  | some m => q.msReg m.toNat
  | none => 0))

/-- What each stream word that issues without waiting and without a fault leaves, and where MPC goes (R224, R230, R235 to R240). -/
def streamResult (k : Nat) (b : Block) (q : Seq) (s : State) : Instr → Option (State × Nat)
  | .mTdld o => if q.loading o.d.toNat ∨ b.area < recordOff q o + 64 then none else some (load false o.d.toNat (recordOff q o))
  | .mSdld o => if q.loading (8 + o.d.toNat) ∨ b.area < recordOff q o + 64 then none else some (load false (8 + o.d.toNat) (recordOff q o))
  | .mCapld o => if q.loading o.d.toNat ∨ b.area < recordOff q o + 16 then none else some (load true o.d.toNat (recordOff q o))
  | .mZero o => if q.busyAcc o.d.toNat false then none else
      some (s.modSeq k fun q => { q with
        acc := q.acc.filter fun x => x.1 / 16384 != o.d.toNat
        accPoison := q.accPoison.filter fun u => u / 8192 != o.d.toNat }, next)
  | .mAcst o => if q.loading o.d.toNat ∨ q.busyAcc o.a.toNat false ∨ transferFaults q o true ≠ [] then none else some (move o true)
  | .mAcld o => if q.loading o.d.toNat ∨ q.busyAcc o.a.toNat false ∨ transferFaults q o false ≠ [] then none else some (move o false)
  | .mArrive o => match o.at_ with
    | .ts t => some (arrive t.toNat q)
    | .cr n cons => match AMap.find? b.cr n.toNat with
      | none => none
      | some r =>
        let x := cursorOf q.cursors n.toNat cons
        some (arrive (r.first + 2 * x.i + (if cons then 1 else 0)) { q with
          cursors := AMap.set Cursor.init q.cursors (cursorKey n.toNat cons) (x.step r.n) })
  | .mWait o => match o.at_ with
    | .ts t =>
      let ph := AMap.get false q.ph t.toNat
      if passes q.hold (b.turnstile t.toNat).abandoned (decide ((b.turnstile t.toNat).ph ≠ ph)) then
        some ((s.dropL1 k).modSeq k fun q => { q with ph := AMap.set false q.ph t.toNat (!ph) }, next)
      else none
    | .cr n cons => match AMap.find? b.cr n.toNat with
      | none => none
      | some r =>
        let x := cursorOf q.cursors n.toNat cons
        let ts := b.turnstile (r.first + 2 * x.i + (if cons then 0 else 1))
        if passes q.hold ts.abandoned (decide (ts.ph = (if cons then !x.b else x.b))) then
          some (match o.d with
            | some d => (s.dropL1 k).modSeq k fun q => q.setMs d.toNat (x.i + (if x.b then 2 ^ 8 else 0))
            | none => s.dropL1 k, next)
        else none
  | .mLoop o =>
    let n := (q.msReg o.ms.toNat + 1) % 2 ^ 64
    if o.n = 0 then none
    else if n < o.n.toNat then
      some (s.modSeq k fun q => q.setMs o.ms.toNat n, (((q.mpc : Int) + 8 * o.target.toInt) % (2 : Int) ^ 57).toNat)
    else some (s.modSeq k fun q => q.setMs o.ms.toNat 0, next)
  | .mJmp o => if o.hi = 0 then some (s, (((q.mpc : Int) + 8 * o.target.toInt) % (2 : Int) ^ 57).toNat) else none
  | .mEnd => some (s.modSeq k fun q => { q with ended := true }, next)
  | .mMirror o => if o.mode = 3 then none else some (s.modSeq k fun q => { q with mir := o.mode.toNat }, next)
  | .mRowp o => some (s.modSeq k fun x => x.setMs o.d.toNat q.rowprog.toNat, next)
  | .mMma o =>
    let used := [o.a.toNat, o.b.toNat] ++ (o.qa.toList ++ o.qb.toList).map fun x => 8 + x.toNat
    if used.any q.loading ∨ q.busyAcc o.acc.toNat true ∨ q.accepted.isSome ∨ mmaFaults b q o ≠ [] then none
    else
      some (({ s with seqNo := s.seqNo + 1 } : State).modSeq k fun x => { x with
        accepted := some { ty := o.ty, acc := o.acc.toNat, a := o.a.toNat, b := o.b.toNat, ta := q.tile o.a.toNat, tb := q.tile o.b.toNat
                           qa := o.qa.map fun r => (8 + r.toNat, q.record r.toNat), qb := o.qb.map fun r => (8 + r.toNat, q.record r.toNat)
                           mir := q.mir, seq := s.seqNo, mpc := q.mpc, rows := 0, stopped := false, bv := none, av := []
                           handed := false, missing := [] } },
        next)
  | _ => none
where
  /-- `m.wait` passes: an earlier flip has released it, or its turnstile shows the phase and is not abandoned (R237, R392). -/
  passes (h : Hold) (abandoned shown : Bool) : Bool := match h with
    | .released => true
    | .abandoned _ _ => false
    | _ => !abandoned && shown
  /-- MPC of the next word. -/
  next : Nat := (q.mpc + 8) % 2 ^ 57
  /-- A record load in flight. -/
  load (cap : Bool) (code off : Nat) : State × Nat :=
    (({ s with seqNo := s.seqNo + 1 } : State).modSeq k fun q => { q with loads := q.loads ++ [{ cap, code, off, seq := s.seqNo }] }, next)
  /-- A transfer in flight. -/
  move (o : MTr) (store : Bool) : State × Nat :=
    (({ s with seqNo := s.seqNo + 1 } : State).modSeq k fun x => { x with xfers := x.xfers ++ [transferOf q o store s.seqNo] }, next)
  /-- An arrival, made at once when the earlier operations allow it and none is deferred, else deferred; a running `m.mma` before one that is
  made has read its operands for good (R237, R238). -/
  arrive (t : Nat) (q1 : Seq) : State × Nat :=
    let s1 : State := { s with seqNo := s.seqNo + 1 }
    (if q.arrives = [] ∧ q.mayArrive s.seqNo then
        (s1.modSeq k fun _ => { q1 with
          running := q1.running.map fun m => if m.seq < s.seqNo then { m with handed := true, missing := [] } else m }).modBlock k fun b => b.arrive t
      else s1.modSeq k fun _ => { q1 with arrives := q1.arrives ++ [(t, s.seqNo)] }, next)

/-- `m.wait` meets an abandoned turnstile: now, or while it was parked on it (R392). -/
def waitLost (h : Hold) (abandoned : Bool) : Bool := match h with
  | .released => false
  | .abandoned _ _ => true
  | _ => abandoned

/-- The stream fault that a word raises for what it finds: code, address and operand code (R390). -/
def streamCause (b : Block) (q : Seq) : Instr → Option MFault
  | .mTdld o => if ¬q.loading o.d.toNat ∧ b.area < recordOff q o + 64 then some (0x13, recordOff q o, o.d.toNat) else none
  | .mSdld o => if ¬q.loading (8 + o.d.toNat) ∧ b.area < recordOff q o + 64 then some (0x13, recordOff q o, 8 + o.d.toNat) else none
  | .mCapld o => if ¬q.loading o.d.toNat ∧ b.area < recordOff q o + 16 then some (0x13, recordOff q o, o.d.toNat) else none
  | .mAcst o => if q.loading o.d.toNat ∨ q.busyAcc o.a.toNat false then none else firstFault (transferFaults q o true)
  | .mAcld o => if q.loading o.d.toNat ∨ q.busyAcc o.a.toNat false then none else firstFault (transferFaults q o false)
  | .mArrive o => match o.at_ with
    | .ts _ => none
    | .cr n _ => if (AMap.find? b.cr n.toNat).isNone then some (0x07, 0, 0xFF) else none
  | .mWait o => match o.at_ with
    | .ts t => if waitLost q.hold (b.turnstile t.toNat).abandoned then some (0x18, 0, 0xFF) else none
    | .cr n cons => match AMap.find? b.cr n.toNat with
      | none => some (0x07, 0, 0xFF)
      | some r =>
        let x := cursorOf q.cursors n.toNat cons
        if waitLost q.hold (b.turnstile (r.first + 2 * x.i + (if cons then 0 else 1))).abandoned then some (0x18, 0, 0xFF) else none
  | .mMma o =>
    let used := [o.a.toNat, o.b.toNat] ++ (o.qa.toList ++ o.qb.toList).map fun x => 8 + x.toNat
    if used.any q.loading ∨ q.busyAcc o.acc.toNat true ∨ q.accepted.isSome then none else firstFault (mmaFaults b q o)
  | .mLoop o => if o.n = 0 then some (0x06, 0, 0xFF) else none
  | .mJmp o => if o.hi = 0 then none else some (0x06, 0, 0xFF)
  | .mMirror o => if o.mode = 3 then some (0x02, 0, 0xFF) else none
  | .illegalWordIssue _ => some (0x02, 0, 0xFF)
  | _ => none

end Sys2Proof.Machine

/-- Every stream word that the sequencer of a block issues, and that neither waits nor faults, completes: it leaves the state of its rule,
MPC stands at the next word or at its target, and nothing else changes (R224, R230, R235 to R240). That MPC + 8 and the targets of `m.loop`
and `m.jmp` are taken modulo 2^57 is the model's choice: log entry 58. -/
def Obligations.StreamResults : Prop := ∀ (s s1 : State) (k : Nat) (w : Word) (b : Block) (q : Seq) (i : Instr) (mpc : Nat),
  s.acting = .seq k w → s.block k = some b → s.seq k = some q → seqBlocked q = false → streamResult k b q s i = some (s1, mpc) →
    exec i s = .next (s1.modSeq k fun q => { q with mpc, hold := .none })

/-- Every stream word that is at fault faults its stream with the first cause of R390: the stream stops, every turnstile of its block is
abandoned, and a kind-9 entry with the code, MPC, `ROWPROG`, the address and the operand code is last in the fault queue of its interface
(R389, R390). Where the spec is open it follows the model's choice: log entry 40. -/
def Obligations.StreamFaults : Prop :=
  ∀ (s : State) (k : Nat) (w : Word) (b : Block) (q : Seq) (i : Instr) (code addr opnd : Nat),
    s.acting = .seq k w → s.block k = some b → s.seq k = some q → seqBlocked q = false → streamCause b q i = some (code, addr, opnd) →
      ∃ t q' b' e, exec i s = .next t ∧ t.seq k = some q' ∧ q'.faulted = true ∧ t.block k = some b'
        ∧ (∀ n, n < 16 → (b'.turnstile n).abandoned = true)
        ∧ (t.iface b.vi).faults.getLast? = some e
        ∧ e.dws = ([9 + code * 2 ^ 8 + (4096 + k) * 2 ^ 16, q.mpc, w.toNat, q.rowprog.toNat, addr % 2 ^ 57, opnd % 256]).map (BitVec.ofNat 64)
        ∧ t.mem = s.mem

/-! ## Events of a team, its core and its translations -/

/-- The oldest request of a team's store buffer leaves it when nothing holds it: a store to memory and an atomic go last on the core's
write path, and memory is as it was; a store to the scratchpad writes its bytes there and no other, and its granule's tag is set with the
store's and cleared without it (R94, R101, R108, R109, R111). `STORE_ACK` of a store on a core's write path that may be performed at its
home: it leaves the path; every byte of memory that it names takes its data, every other byte of memory is as it was, and the granule's
tag is set with a capability store's tag and cleared by every other store (R94, R103, R104, R108). With the Tylas link down a store to
host memory is dropped and counted (R382). Where the spec is open it follows the model's choice: log entries 11 and 12. -/
def Obligations.StoresPerform : Prop :=
  (∀ (s : State) (core team : Nat) (b : Block) (tm : Team) (r : StReq) (rest : List StReq),
    s.block core = some b → s.team core team = some tm → tm.stb = r :: rest →
      (∀ sc, r.rel = some sc → s.released core team r.seq sc r.loc = true) → tm.loadBefore r = false →
        (r.atom.isSome ∨ (∃ a, r.loc = .pa a) →
          ∃ t, exec (.storeBufferDrain core team) s = .next t ∧ t.team core team = some { tm with stb := rest }
            ∧ (t.core core).path = (s.core core).path ++ [{ r with entry := s.seqNo }] ∧ t.mem = s.mem
            ∧ ∀ j m, (j, m) ≠ (core, team) → t.team j m = s.team j m)
        ∧ (∀ o, r.atom = none → r.loc = .sp core o → s.owned r.seq r.loc = false → s.spHeld r.loc r.bytes.length r.seq = false →
            ∃ t u, exec (.storeBufferDrain core team) s = .next t ∧ t.block core = some u ∧ AMap.find? u.teams team = some { tm with stb := rest }
              ∧ (∀ x, (o ≤ x ∧ x < o + r.bytes.length → some (u.sp.byte x) = r.bytes[x - o]?)
                ∧ (¬(o ≤ x ∧ x < o + r.bytes.length) → u.sp.byte x = b.sp.byte x))
              ∧ (r.bytes ≠ [] → (o / 16 ∈ u.sp.tags ↔ r.tag = true))
              ∧ t.mem = s.mem ∧ (t.core core).path = (s.core core).path))
  ∧ (∀ (s : State) (core i a : Nat) (b : Block) (r : StReq),
    s.block core = some b → (s.core core).path[i]? = some r → r.atom = none → r.loc = .pa a →
      s.pathHeld core i r = false → s.owned r.seq r.loc = false →
        ((isHost a = true → s.linkUp = true) → ∃ t, exec (.storeAck core i) s = .next t ∧ (t.core core).path = dropNth (s.core core).path i
          ∧ (∀ x, (a ≤ x ∧ x < a + r.bytes.length → some (t.mem.byte x) = r.bytes[x - a]?)
            ∧ (¬(a ≤ x ∧ x < a + r.bytes.length) → t.mem.byte x = s.mem.byte x))
          ∧ (r.bytes ≠ [] → (a / 16 ∈ t.mem.tags ↔ r.tag = true))
          ∧ ∀ j m, t.team j m = s.team j m)
        ∧ (isHost a = true → s.linkUp = false → ∃ t, exec (.storeAck core i) s = .next t ∧ (t.core core).path = dropNth (s.core core).path i
          ∧ t.mem = s.mem ∧ (t.iface b.vi).lost = (s.iface b.vi).lost + 1))

/-- `ATOMIC_PERFORM` of an atomic on a core's write path that may be performed: in one step memory takes the new value of R198 at its
address and keeps every other byte, and the old value, sign-extended for `.i32`, is kept for its lane (R198, R199). An acquiring atomic
leaves nothing in the L1 that its team reads through, and no host-memory copy in its cluster's slice (R101, R104, R110). One whose old
value is poisoned changes no memory, asks to halt its team with POISON and will write no register (R371). The new values of R198 below
2^32 or 2^64. `v.atom.fadd` adds in FP32 to nearest even, and a NaN is canonical. Where the spec is open it follows the model's choice:
log entries 11 and 12. -/
def Obligations.AtomicsPerform : Prop :=
  (∀ (s : State) (core i : Nat) (b : Block) (r : StReq) (o : AtomOp) (tm : Team) (p : Pend)
      (left : Nat) (acq bad : Bool) (vals : List (Nat × Word)),
    s.block core = some b → (s.core core).path[i]? = some r → r.atom = some o → (∀ j x, r.loc = .sp j x → j = core) →
      s.pathHeld core i r = false → s.owned r.seq r.loc = false → s.spHeld r.loc r.bytes.length r.seq = false →
        (∀ a, r.loc = .pa a → s.mayFill a r.bytes.length = true) → s.team core r.team = some tm → tm.pendOf o.id = some p →
          p.kind = .atom left acq bad vals →
          let n := r.bytes.length
          let old := leNat (s.readLoc r.loc n)
          (s.poisonedAt r.loc n = false → ∃ t tm', exec (.atomicPerform core i) s = .next t ∧ t.readLoc r.loc n = bytesOf n (atomNew o old)
            ∧ (∀ x, (∀ a, r.loc = .pa a → ¬(a ≤ x ∧ x < a + n)) → t.mem.byte x = s.mem.byte x)
            ∧ t.team core r.team = some tm' ∧ (tm'.pendOf o.id).map Pend.kind = some (.atom (left - 1) acq bad (vals ++
              [(o.lane, BitVec.ofNat 64 (if o.ty = .i32 then wrap 64 (sgn 32 old) else old))]))
            ∧ (t.core core).path = dropNth (s.core core).path i
            ∧ (acq = true → (∀ k ∈ s.gang core, (t.core k).l1 = []) ∧ (t.cluster (clusterOf core)).hostl2 = []))
          ∧ (s.poisonedAt r.loc n = true → tm.halted = false → ∃ t tm' h, exec (.atomicPerform core i) s = .next t ∧ t.mem = s.mem
            ∧ t.team core r.team = some tm' ∧ tm'.haltReqs = tm.haltReqs ++ [h] ∧ h.code = 0x19 ∧ h.reached = none
            ∧ (tm'.pendOf o.id).map Pend.kind = some (.atom (left - 1) acq true vals)
            ∧ (t.core core).path = dropNth (s.core core).path i))
  ∧ (∀ (o : AtomOp) (old : Nat),
    let w := match o.ty with | .i64 | .n64 => 64 | _ => 32
    let int := fun x : Nat => match o.ty with
      | .i32 | .i64 => (BitVec.ofNat w x).toInt
      | _ => (x : Int)
    old < 2 ^ w → o.data < 2 ^ w →
      (o.func = 0 → atomNew o old = (old + o.data) % 2 ^ w)
      ∧ (o.func = 1 → int (atomNew o old) = min (int old) (int o.data))
      ∧ (o.func = 2 → int (atomNew o old) = max (int old) (int o.data))
      ∧ (o.func = 3 → atomNew o old = old &&& o.data) ∧ (o.func = 4 → atomNew o old = old ||| o.data)
      ∧ (o.func = 5 → atomNew o old = old ^^^ o.data) ∧ (o.func = 6 → atomNew o old = o.data)
      ∧ (o.func = 7 → atomNew o old = if old = o.cmp then o.data else old)
      ∧ (o.func = 8 → o.ty = .f32 → atomNew o old = (opAdd (fmtOf .f32) (.m .rne) old o.data).1
        ∧ (isNan (decodeF (fmtOf .f32) old) = true ∨ isNan (decodeF (fmtOf .f32) o.data) = true → atomNew o old = 0x7FC00000)))

/-- `LOAD_RESULT_RETURN` of the oldest outstanding instruction of its class: a load takes what it has read, or reads where it stands now;
it, an atomic whose lanes have all been performed and a page test are written to their destinations and are no longer outstanding, and
MEMCNT has fallen for the first two (R52, R196, R199, R220); an acquire load leaves the classification of R49: its fragment spins when it
returned in every active lane the address and the value of the acquire before it, with no store since. An acquire invalidates the L1 when it
reads, and from cluster scope on the slice's host-memory copies (R101, R104, R110). A load that meets poison asks to halt its team, writes
nothing and ends in its order, as an atomic that has met it (R52, R371). `SPECIAL_FUNCTION_COMPLETE` writes the values, and the flags of
the lanes that it writes (R76, R185). `SUBARRAY_ACCESS_SERVE` keeps what a scratchpad load has read (R282). Nothing else changes. Where results land: lanes that
have not exited, of registers that the team holds and that no later instruction of the window has written, take their values; every other
lane and register is as it was (R51, R54, R165). A plain load of one lane from device memory that no store of its core's write path or its
team meets and that the L1 does not hold, and an acquire of cluster scope or wider that no store of its own team meets (in a lifted team, none of its core's write path), read the
bytes of memory; a load from the scratchpad reads the bytes there (R101, R104, R109, R110). Where the spec is open it follows the model's choice:
log entries 11 and 12. -/
def Obligations.ResultsReturn : Prop :=
  (∀ (s : State) (core team i : Nat) (tm : Team) (p : Pend),
    s.team core team = some tm → tm.pend[i]? = some p →
      (∀ lanes n sx dst bc acq rp lc vs s1 (vals : Option (List (Nat × Nat × Bool))), p.kind = .load lanes n sx dst bc acq rp lc vals → tm.firstOf p = true →
        (vals = some vs ∧ s1 = s ∨ vals = none ∧ ∃ level s2,
          (s.acquireRead core tm acq).readLanes core team tm p acq lc (match dst with | .c _ => true | _ => false) n sx lanes [] 0 = .got vs level s2
            ∧ s1 = s2.noteLevel core team p.seq level) →
          let ends := s1.modTeam core team fun tm => (tm.landLoad p dst bc rp vs).endPend p
          exec (.loadResultReturn core team i) s = .next (match acq with
            | none => ends
            | some _ => ends.modFrag core team p.csn fun f =>
                f.acquired p.seq (acquireVals dst bc ((vs.zip lanes).map fun x => (x.1.1, x.2.addr, x.1.2.1)))))
      ∧ (∀ lanes n sx dst bc acq rp lc a, p.kind = .load lanes n sx dst bc acq rp lc none → tm.halted = false →
        (s.acquireRead core tm acq).readLanes core team tm p acq lc (match dst with | .c _ => true | _ => false) n sx lanes [] 0 = .bad a →
          ∃ t tm' h, exec (.loadResultReturn core team i) s = .next t ∧ t.team core team = some tm' ∧ h.code = 0x19 ∧ h.reached = none
            ∧ tm'.haltReqs = tm.haltReqs ++ [h] ∧ t.mem = s.mem
            ∧ { tm' with pend := [], haltReqs := [] }
              = { (if tm.firstOf p then tm.subCount p.cls else tm) with pend := [], haltReqs := [] }
            ∧ (tm.firstOf p = true → tm'.pendOf p.seq = none)
            ∧ (tm.firstOf p = false → (tm'.pendOf p.seq).map Pend.kind = some (.load [] n sx dst [] none none lc (some []))))
      ∧ (∀ acq bad vals d ds, p.kind = .atom 0 acq bad vals → p.dests = .v d :: ds → tm.firstOf p = true →
        exec (.loadResultReturn core team i) s = .next (s.modTeam core team fun tm => (if bad then tm else tm.landV p d vals).endPend p))
      ∧ (∀ d vals, p.kind = .pgtest d vals →
        exec (.loadResultReturn core team i) s = .next (s.modTeam core team fun tm => (tm.landP p d vals).dropPend p.seq))
      ∧ (∀ d vals fl, p.kind = .spf d vals fl → exec (.specialFunctionComplete core team i) s
        = .next (s.modTeam core team fun tm => ((tm.landV p d vals).orFlags
              (if 8 * tm.G ≤ d then 0 else flagsOf ((fl.filter fun x => !laneIn tm.exited x.1).map Prod.snd))).dropPend p.seq))
      ∧ (∀ lanes n sx dst bc acq rp lc vs level s1, p.kind = .load lanes n sx dst bc acq rp lc none → (∀ a ∈ lanes, ∃ k o, a.loc = .sp k o) →
        (s.acquireRead core tm acq).readLanes core team tm p acq lc (match dst with | .c _ => true | _ => false) n sx lanes [] 0 = .got vs level s1 →
          exec (.subarrayAccessServe core team i) s = .next ((s1.noteLevel core team p.seq level).modTeam core team fun tm =>
            tm.modPend p.seq fun p => { p with kind := .load lanes n sx dst bc acq rp lc (some vs) })))
  ∧ (∀ (tm : Team) (p : Pend) (r : Nat) (xs : List (Nat × Word)),
    (xs.map Prod.fst).Pairwise (· < ·) → (∀ x ∈ xs, x.1 < 1024) →
      (∀ x ∈ xs, r < 8 * tm.G → laneIn tm.exited x.1 = false → (∀ w ∈ p.wrote, w.1 = .v r → laneIn w.2 x.1 = false) →
        (tm.landV p r xs).vreg r x.1 = x.2)
      ∧ (∀ q l, l < 1024 → (q ≠ r ∨ (∀ x ∈ xs, x.1 ≠ l) ∨ 8 * tm.G ≤ r ∨ laneIn tm.exited l = true
          ∨ ∃ w ∈ p.wrote, w.1 = .v r ∧ laneIn w.2 l = true) → (tm.landV p r xs).vreg q l = tm.vreg q l))
  ∧ (∀ (f : Frag) (seq : Nat) (now : List (Nat × Nat × Nat)), (f.acquired seq now).acq = some (seq, now)
      ∧ ((f.acquired seq now).spin = true ↔ f.mask ≠ 0 ∧ ∃ m was, f.acq = some (m, was) ∧ f.storeAt ≤ m
        ∧ ∀ l, l < 1024 → laneIn f.mask l = true → ∃ x, acqAt now l = some x ∧ acqAt was l = some x))
  ∧ (∀ (s : State) (k : Nat) (b : Block) (tm : Team) (sc : Scope), s.block k = some b → tm.lifted = false →
    (∀ j ∈ s.gang k, ((s.acquireRead k tm (some sc)).core j).l1 = [])
      ∧ (sc ∈ [Scope.clu, .stk, .dev, .fab] → ((s.acquireRead k tm (some sc)).cluster (clusterOf k)).hostl2 = []))
  ∧ (∀ (s : State) (k t : Nat) (tm : Team) (seq n : Nat) (a : LaneAcc),
    (∀ pa, a.loc = .pa pa → a.home = false → isHost pa = false → s.l1Get k pa = none → s.owned seq a.loc = false →
      s.mayFill (pa / 32 * 32) 32 = true → s.poisonedAt (.pa (pa / 32 * 32)) 32 = false → s.pathOf k = [] → tm.stb = [] → tm.lifted = false →
      0 < n → pa % 32 + n ≤ 32 → ∃ level s1, s.readLane k t tm seq none false false n a = .got (s.mem.bytes pa n) false level s1)
    ∧ (∀ pa sc, a.loc = .pa pa → sc ∈ [Scope.clu, .stk, .dev, .fab] → s.owned seq a.loc = false → s.mayFill pa n = true → s.poisonedAt a.loc n = false →
      (tm.lifted = true → ∀ x ∈ s.pathOf k, x.2.loc.meets x.2.bytes.length a.loc n = false) →
      (∀ r, (r ∈ tm.stb ∨ r ∈ (s.core k).path ∧ r.team = t) → r.seq < seq → r.loc.meets r.bytes.length a.loc n = false) →
        ∃ level s1, s.readLane k t tm seq (some sc) false false n a = .got (s.mem.bytes pa n) false level s1)
    ∧ ∀ o b, a.loc = .sp k o → s.block k = some b → s.owned seq a.loc = false → s.spHeld a.loc n seq = false → s.poisonedAt a.loc n = false →
        tm.stb = [] → s.pathOf k = [] → s.readLane k t tm seq none false false n a = .got (b.sp.read o n) false 1 s)

/-- `INSTRUCTION_FETCH` of an address that a core's TLB translates, whose sector its L1 lacks, no agent owns, that its channel lets be
read and no error spoils, brings the sector into the L1 with the unacknowledged stores of its write path (R109, R419); no block and no
byte of memory changes. `FRAGMENT_RELOAD` with an entry free puts the partition's next spilled fragment into it; with none free and every
resident fragment waiting, at a safe point or hollow, the youngest leafless one that is not at a safe point is spilled, and the record
takes its entry (R47). `PAGE_WALK` of walk i of a core whose tables can be read: it is over. Of a space that has kept its generation and
sequence a leaf that may serve it sets A (and D for a write) and fills the TLB of the core or of the stack core; a leaf without W sets A
and, as an absent page, parks the team of a store with one request for the page; malformed tables halt the team with PTE, and poisoned
ones with POISON; an absent page of the stream's fetch is requested with SRC 2. When the generation or the sequence has changed the fill
is dropped (R85, R88, R92, R364, R366 to R368). `WALK_AHEAD_PREFETCH` of the next page of a presented record fills the walk-ahead TLB
(R89). That a dropped walk keeps the A and D bits that it set is the model's choice (log entry 51), and the aux and the capability that a
PTE fault found away from issue reports are its reading (log entry 37). Where else the spec is open it follows the model's choice: log
entries 10, 11 and 52. -/
def Obligations.FetchAndWalks : Prop :=
  ((∀ (s : State) (core va : Nat) (b : Block) (e : TlbEntry), s.block core = some b →
      tlbHit s (s.core core).tlb b.asid (va % 2 ^ 57) = some e →
        let pa := e.pa (va % 2 ^ 57)
        let base := pa / 32 * 32
        s.l1Get core pa = none → s.owned s.seqNo (.pa pa) = false → s.mayFill base 32 = true → s.poisonedAt (.pa base) 32 = false →
          ∃ t, exec (.instructionFetch core va) s = .next t
            ∧ t.l1Get core pa = some (leNat (overlayStores (.pa base) (s.mem.bytes base 32) ((s.pathOf core).map Prod.snd)))
            ∧ (∀ k, t.block k = s.block k) ∧ t.mem = s.mem)
    ∧ (∀ (s : State) (core part e t : Nat) (f : Frag) (b : Block) (tm : Team), s.block core = some b → b.reloadable (part % 4) = some (t, f) →
        b.freeEntry (part % 4) = some e → AMap.find? b.teams t = some tm → tm.frag f.csn = some f →
          ∃ u : State, exec (.fragmentReload core part) s = .next (u.settle core t) ∧ u.fragAt core t f.csn = some { f with spilled := false, entry := e }
            ∧ u.rest = s.rest ∧ ∀ j m, (j, m) ≠ (core, t) → u.team j m = s.team j m)
    ∧ ∀ (s : State) (core part t t' : Nat) (f g : Frag) (b : Block) (tm tm' : Team), s.block core = some b →
        let p := part % 4
        let may := fun (y : Nat × Frag) => y.2.safe = false ∧ ∃ x, AMap.find? b.teams y.1 = some x ∧ x.leafless y.2.csn = true
        b.reloadable p = some (t, f) → b.freeEntry p = none → (∀ y ∈ b.resident p, y.2.waiting = true ∨ y.2.safe = true ∨ y.2.hollow = true) →
        AMap.find? b.teams t = some tm → tm.frag f.csn = some f → f.spilled = true →
        AMap.find? b.teams t' = some tm' → tm'.frag g.csn = some g → (t', g) ∈ b.resident p → may (t', g) →
        (∀ y ∈ b.resident p, may y → y = (t', g) ∨ y.2.csn < g.csn) → s.subWaits core (b.spillOff t' g) 64 s.seqNo = false →
          ∃ u : State, exec (.fragmentReload core part) s = .next (u.settle core t)
            ∧ u.fragAt core t f.csn = some { f with spilled := false, entry := g.entry }
            ∧ (u.fragAt core t' g.csn).map Frag.spilled = some true ∧ u.rest = s.rest)
  ∧ ((∀ (s : State) (core i : Nat) (b : Block) (w : Walk), s.block core = some b → (s.core core).walks[i]? = some w → s.mayWalk w.asid w.va = true →
      let s0 := (s.modCore core fun c => { c with walks := dropNth c.walks i }).fillWalk w.asid w.va
      let keeps := (s.space w.asid).gen = w.gen ∧ (s.space w.asid).iseq = w.iseq
      let entry := fun l fr (wOk d : Bool) => ({ asid := w.asid, gen := w.gen, level := l, page := w.va / 2 ^ pageBits l, frame := fr, w := wOk, d := d || w.wr } : TlbEntry)
      let parks := fun (s1 : State) (wr : Bool) => (s1.postPage b.vi 1 wr w.va w.asid core w.team).modTeam core w.team fun tm =>
        { tm with park := [{ va := w.va, wr := wr }] }
      (∀ l fr wOk d path, s.walk w.asid w.va = .leaf l fr wOk d path → ¬keeps →
        exec (.pageWalk core i) s = .next (s0.setAD w.asid path (w.wr && wOk)))
      ∧ (∀ q, keeps → s.walk w.asid w.va = .absent → w.team = 64 → b.seq = some q →
        exec (.pageWalk core i) s = .next ((s0.enginePages core b false [w.va]).modSeq core fun q => { q with fetchWait := some (w.va / 65536) }))
      ∧ ∀ tm, keeps → s.team core w.team = some tm → tm.halted = false →
        (∀ l fr wOk d path, s.walk w.asid w.va = .leaf l fr wOk d path → (w.wr = false ∨ wOk = true) →
          (tm.lift = .core → exec (.pageWalk core i) s
            = .next ((s0.setAD w.asid path w.wr).modCore core fun x => { x with tlb := tlbFillWays x.tlb (entry l fr wOk d) }))
          ∧ (∀ st n order, tm.lift = .up st n order → exec (.pageWalk core i) s
            = .next ((s0.setAD w.asid path w.wr).modStackCore (4 * st + n) fun x => { x with tlb := tlbFill 64 x.tlb (entry l fr wOk d) })))
        ∧ (∀ l fr d path, s.walk w.asid w.va = .leaf l fr false d path → w.wr = true → tm.park = [] →
          exec (.pageWalk core i) s = .next (parks (s0.setAD w.asid path false) true))
        ∧ (s.walk w.asid w.va = .absent → w.team ≠ 64 → tm.park = [] → exec (.pageWalk core i) s = .next (parks s0 w.wr))
        ∧ (∀ f poison, s.walk w.asid w.va = .bad poison → w.team ≠ 64 → w.fetch = false → tm.frag w.csn = some f →
          ∃ t tm', exec (.pageWalk core i) s = .next t ∧ t.team core w.team = some tm' ∧ tm'.halted = true
            ∧ tm'.trapcause = causeWord (if poison then 0x19 else 0x15) 0 w.aux (lowLane f.mask) tm.handler tm.lifted
            ∧ tm'.faultstat = faultWord w.va false w.cap ∧ t.mem = s.mem))
    ∧ ∀ (s : State) (cl va asid l fr : Nat) (wr w d : Bool) (path : List Nat), s.presented cl asid (va % 2 ^ 57 / 65536) wr = true →
        tlbHit s (s.cluster cl).wtlb asid (va % 2 ^ 57) = none → s.mayWalk asid (va % 2 ^ 57) = true →
        s.walk asid (va % 2 ^ 57) = .leaf l fr w d path →
          ∃ t, exec (.walkAheadPrefetch cl va asid wr) s = .next t ∧ (t.cluster cl).wtlb.head?
            = some { asid, gen := (s.space asid).gen, level := l, page := va % 2 ^ 57 / 2 ^ pageBits l, frame := fr, w, d })

/-! ## Records, launches and blocks -/

namespace Sys2Proof.Machine

/-- From m to m' the bytes from an address on have become those of a list, and every other byte is as it was. -/
def Took (m m' : Memory) (a : Nat) (xs : List Byte) : Prop :=
  ∀ x, (a ≤ x ∧ x < a + xs.length → some (m'.byte x) = xs[x - a]?) ∧ (¬(a ≤ x ∧ x < a + xs.length) → m'.byte x = m.byte x)

/-- A fault-ring entry of a kind and a code has been posted for an interface (R378). -/
def Posted (s t : State) (vi kind code : Nat) : Prop :=
  ∃ l e, (t.iface vi).faults = l ++ [e] ∧ l.length = (s.iface vi).faults.length
    ∧ (e.dws[0]?).map (fun w => bits w.toNat 0 16) = some (kind + code * 256)

/-- A cluster without what its L2 slice holds of memory (R103, R104). -/
def Cluster.uncached (c : Cluster) : Cluster := { c with l2 := [], hostl2 := [], wb := [] }

/-- A channel without the ordinary accesses that wait at it (R308). -/
def Channel.unasked (c : Channel) : Channel := { c with order := [], access := [] }

/-- Every cluster is as it was but for what its slice holds of memory, and every channel but for the accesses that wait at it. -/
def SameUnits (s t : State) : Prop :=
  ∀ k, (t.cluster k).uncached = (s.cluster k).uncached ∧ (t.channel k).unasked = (s.channel k).unasked

/-- A state whose memory, with what the slices and the channels hold of it and what launches fetch (R103, R133, R308), is that of another. -/
def State.memoryOf (s t : State) : State :=
  { s with mem := t.mem, clusters := t.clusters, channels := t.channels, codeOld := t.codeOld, codeNew := t.codeNew, freeIx := t.freeIx,
           seqNo := t.seqNo }

/-- Nothing but memory, what the slices hold of it and what launches fetch (R133) has changed. -/
def OnlyMem (s t : State) : Prop := t = s.memoryOf t ∧ SameUnits s t

/-- Nothing but memory, with the slices' copies, and the interfaces, and of these only one, has changed. -/
def OnlyIface (s t : State) (vi : Nat) : Prop :=
  t = { s.memoryOf t with ifaces := t.ifaces } ∧ SameUnits s t ∧ ∀ j, j ≠ vi → t.iface j = s.iface j

/-- The order of R380: lower STAMP, then lower SOURCE, then posted earlier. -/
def FaultEntry.before (e f : FaultEntry) (i j : Nat) : Prop :=
  e.stamp * 2 ^ 16 + e.source < f.stamp * 2 ^ 16 + f.source ∨ (e.stamp * 2 ^ 16 + e.source = f.stamp * 2 ^ 16 + f.source ∧ i ≤ j)

/-- An agent of an order number has reached a physical address: no other agent owns it, and the Tylas link is up for host memory (R113, R382). -/
def State.openAt (s : State) (no pa : Nat) : Prop := (isHost pa = true → s.linkUp = true) ∧ s.agentWaits no no (.pa pa) = false

/-- A launch of a list with its fields changed. -/
def launchesWith (ls : List Launch) (id : Nat) (f : Launch → Launch) : List Launch := ls.map fun l => if l.id = id then f l else l

/-- What the dispatch of a gang leaves (R16 to R18, R23): on the j-th core of its place stands block NEXT + j, with its teams at their entries
and all their lanes active, and the launch has that many blocks more dispatched and in progress. -/
def Dispatched (s t : State) (slot : Nat) (l : Launch) (spot : List (List Nat)) : Prop :=
  (t.slot slot).launches = launchesWith (s.slot slot).launches l.id (fun m =>
    { m with next := m.next + lpGang l.pkt, live := m.live + lpGang l.pkt, lastAt := some s.clock })
  ∧ t.rmLast = some ((s.slot slot).prio * 2048 + slot)
  ∧ ∀ j k, (spot.flatMap fun ks => ks.take (lpCpb l.pkt))[j]? = some k → ∃ b, t.block k = some b
      ∧ b.index = l.next + j ∧ b.name = k ∧ b.launch = l.id ∧ b.packet = l.pkt ∧ b.asid = (s.slot slot).asid
      ∧ b.teams.length = lpTeams l.pkt
      ∧ ∀ x ∈ b.teams, x.2.copy = decide (x.1 < lpCopies l.pkt) ∧ x.2.L = lpL l.pkt ∧ x.2.G = lpG l.pkt
        ∧ x.2.sreg 0 = BitVec.ofNat 64 (l.next + j) ∧ x.2.sreg 2 = BitVec.ofNat 64 k ∧ x.2.sreg 3 = BitVec.ofNat 64 (lpBlocks l.pkt)
        ∧ x.2.creg 0 = (mkCap 0 (256 * lpSplines l.pkt) 63 1 0, true) ∧ x.2.creg 1 = (mkCap (lpArgs l.pkt) 256 (permRD + permLC) 0 0, true)
        ∧ ∃ f, x.2.frags = [f] ∧ f.mask = fullMask (lpL l.pkt)
          ∧ f.pc = if x.1 < lpCopies l.pkt then (lpCopyEntry l.pkt).toNat else lpEntry l.pkt

/-- The order of R31 from the queue after the last one that dispatched: (on this lap or the next, priority class and slot). -/
def State.turnOf (s : State) (x : Nat × QueueSlot) : Nat :=
  let key := x.2.prio * 2048 + x.1
  match s.rmLast with
  | none => key
  | some k => if k < key then key else key + 2 ^ 64

/-- The queues as a decision scans them (R31): while no Ready queue has D above 0, each Ready queue receives its quantum, and the quanta that were
kept take effect (R327). -/
def State.credited (s : State) : State :=
  if s.slots.any fun x => x.2.registered && x.2.ready.isSome && decide (0 < x.2.d) then s
  else { s with slots := s.slots.map fun x => (x.1, if x.2.registered then
      let quantum := x.2.quantumHeld.getD x.2.quantum
      { x.2 with quantum, quantumHeld := none, d := if x.2.ready.isSome then x.2.d + quantum else x.2.d }
    else x.2) }

/-- A queue may dispatch at a decision: its head launch's condition holds, its deficit counter is above 0, and it is not spaced (R31). -/
def State.eligible (s : State) (x : Nat × QueueSlot) : Bool :=
  match x.2.ready with
  | some l => decide (0 < x.2.d) && !s.spaced l
  | none => false

/-- A team as it goes on, on another core: its fragments out of `safept`, its stores to the scratchpad going to that core's (R61). -/
def Team.resumed (k : Nat) (tm : Team) : Team :=
  { tm with stb := tm.stb.map (StReq.moveTo k), frags := tm.frags.map fun f => { f with safe := false } }

end Sys2Proof.Machine

/-- The records that the device writes, when there is room and nothing owns the line: `FAULT_ENTRY_WRITE` the entry of the lowest STAMP
and SOURCE with its V bit at its ring address, `PAGE_REQUEST_WRITE` the oldest request, and the producer index rises (R219, R328, R378,
R380); `RESYNC_RECORD_WRITE` the summary, and RSBUSY ends; a summary that waits for earlier registrations is taken once they are done (R330).
`TRACE_FRAME_WRITE`: a frame is 256 bytes; it goes to the next place of
the ring of frames and the count of frames in the region's first doubleword rises, or it is dropped and the count of drops in the second
one rises, the rest of the region's header reading 0 (R357, R358). `SAMPLE_RECORD_WRITE`: the record of a tagged instruction that is no
longer in flight enters its interface's trace, with a WB of 0 where it has no result and the furthest level that it reached, and the sampler's
next window starts (R360, R361). Where the spec is open it follows the model's choice: log entries 50 and 55. -/
def Obligations.RingAndTraceRecords : Prop :=
  ((∀ (s : State) (vi j : Nat) (e : FaultEntry), (s.iface vi).faults[j]? = some e →
      (∀ i f, (s.iface vi).faults[i]? = some f → e.before f j i) →
        let i := s.iface vi
        let a := ringAt i.frbase 64 i.frwidx
        ringRoom i.frbase i.frwidx i.frridx s.linkUp = true → paOk a = true → (isHost a = true → s.linkUp = true) → s.lineBusy a = false →
          ∃ t, exec (.faultEntryWrite vi) s = .next t
            ∧ Took s.mem t.mem a ((e.dws.map BitVec.toNat ++ [e.stamp % 2 ^ 63 + ringV i.frwidx (ringLog i.frbase) * 2 ^ 63]).flatMap (bytesOf 8))
            ∧ (t.iface vi).frwidx = (i.frwidx + 1) % 2 ^ 32
            ∧ (t.iface vi).faults.map FaultEntry.dws = (dropNth i.faults j).map FaultEntry.dws
            ∧ (e.app = none → e.part = none → OnlyIface s t vi)
            ∧ t.apps = match e.app with
              | none => s.apps
              | some (asid, hdr, w) => s.apps.filter fun x => !(x.asid == asid && x.hdr == hdr && x.w == w))
    ∧ (∀ (s : State) (vi : Nat) (d0 d1 : Word) (rest : List (Word × Word)), (s.iface vi).pages = (d0, d1) :: rest →
      let i := s.iface vi
      let a := ringAt i.prbase 16 i.prwidx
      ringRoom i.prbase i.prwidx i.prridx s.linkUp = true → paOk a = true → (isHost a = true → s.linkUp = true) → s.lineBusy a = false →
        ∃ t, exec (.pageRequestWrite vi) s = .next t
          ∧ Took s.mem t.mem a (bytesOf 8 (d0.toNat + ringV i.prwidx (ringLog i.prbase) * 2 ^ 63) ++ bytesOf 8 d1.toNat)
          ∧ t.iface vi = { i with prwidx := (i.prwidx + 1) % 2 ^ 32, pages := rest } ∧ OnlyIface s t vi)
    ∧ (∀ (s : State) (vi pa : Nat), (s.iface vi).resync = some (none, pa) →
      ((s.iface vi).registering = true → exec (.resyncRecordWrite vi) s = .next s)
      ∧ ((s.iface vi).registering = false → ∃ t r, exec (.resyncRecordWrite vi) s = .next t ∧ r.length = 128 ∧ t.mem = s.mem
        ∧ t.iface vi = { s.iface vi with resync := some (some r, pa) }))
    ∧ ∀ (s : State) (vi pa : Nat) (r : Word) (rs : List Word), (s.iface vi).resync = some (some (r :: rs), pa) → paOk pa = true →
        (isHost pa = true → s.linkUp = true) → (∀ l, l < 4 → s.lineBusy (pa + 256 * l) = false) →
          ∃ t, exec (.resyncRecordWrite vi) s = .next t ∧ Took s.mem t.mem pa ((r :: rs).flatMap fun w => bytesOf 8 w.toNat)
            ∧ t.iface vi = { s.iface vi with rsseq := ((s.iface vi).rsseq + 1) % 2 ^ 32, resync := none } ∧ OnlyIface s t vi)
  ∧ ((∀ (s : State) (i : Nat) (r : TraceRec) (drop : Bool), s.trace[i]? = some r →
      let f := s.iface r.vi
      let base := s.traceBase r.vi
      let a := base + 256 + 256 * (f.frames % (2 ^ traceBits s.image r.vi / 256 - 1))
      let mine := (s.trace.take (i + 1)).filter fun x => x.vi == r.vi && x.source == r.source
      let header := fun (frames dropped : Nat) => bytesOf 8 frames ++ bytesOf 8 dropped ++ List.replicate 240 0
      paOk base = true → paOk (base + 2 ^ traceBits s.image r.vi - 1) = true → (isHost base = true ∨ isHost a = true → s.linkUp = true) →
        s.owned s.seqNo (.pa a) = false → s.owned s.seqNo (.pa base) = false →
          (frameOf mine).1.length = 256
          ∧ ∃ t, exec (.traceFrameWrite i drop) s = .next t ∧ t.trace = dropRecs r.vi r.source (frameOf mine).2 s.trace
            ∧ (drop = false → ∃ m, Took s.mem m a (frameOf mine).1 ∧ Took m t.mem base (header (f.frames + 1) f.dropped)
              ∧ t.iface r.vi = { f with frames := f.frames + 1 })
            ∧ (drop = true → Took s.mem t.mem base (header f.frames (f.dropped + 1)) ∧ t.iface r.vi = { f with dropped := f.dropped + 1 }))
    ∧ ∀ (s : State) (core part : Nat) (x : Tagged),
        let q := if core < Config.cores then AMap.get Sampler.init (s.core core).samplers (part % 4)
          else (s.stackCore (core - Config.cores)).sampler
        q.tag = some x → (x.trapped = true ∨ ∀ n ∈ x.seqs, (∀ tm, s.team x.core x.team = some tm → tm.worksOn n = false)
            ∧ (∀ r ∈ (s.core x.core).path, r.seq ≠ n)
            ∧ ∀ v ∈ s.saved, (∀ r ∈ v.path, r.seq ≠ n) ∧ ∀ y ∈ v.block.teams, y.2.worksOn n = false) →
          ∃ t, exec (.sampleRecordWrite core part) s = .next t ∧ t.mem = s.mem
            ∧ (if core < Config.cores then AMap.get Sampler.init (t.core core).samplers (part % 4)
                else (t.stackCore (core - Config.cores)).sampler) = { windows := q.windows + 1, issued := 0, tag := none }
            ∧ (bit s.image.tracing.toNat x.vi = true → ∃ r, t.trace = s.trace ++ [r] ∧ r.vi = x.vi ∧ r.kind = 6 ∧ r.stamp = s.stamp
              ∧ r.payload[0]? = some (BitVec.ofNat 64 (x.pc % 2 ^ 57 + x.team % 64 * 2 ^ 57 + b01 x.trapped * 2 ^ 63))
              ∧ ∃ d2, r.payload[2]? = some d2 ∧ (x.result = false ∨ x.trapped = true → bits d2.toNat 0 16 = 0)
                ∧ (x.level < 16 → bits d2.toNat 16 4 = (if x.trapped then 0 else x.level) ∧ bits d2.toNat 32 32 = x.mask % 2 ^ 32))
            ∧ (bit s.image.tracing.toNat x.vi = false → t.trace = s.trace))

/-- `LAUNCH_PACKET_READ` of a launch packet that meets R21, R22 and R374 to R376 takes it from its queue, whose RIDX rises, and puts it
behind the queue's other launches with nothing dispatched; one with a reserved field stops the queue with a kind-3 entry FIELD; an absent
page of its slot is requested, and holds its queue. `WAIT_CONDITION_EVAL` gives the head launch what its condition is: none holds, a word
has reached its value, a turnstile shows its phase; an absent page is requested and waited for (R21, R26, R27, R373, R374).
`RINGMASTER_DECISION` takes, of the queues that may dispatch, the first from the one after the last that did, in ring order; its next gang
is dispatched where it fits, or the Ringmaster holds on it. While no Ready queue has credit the decision first gives each Ready queue its
quantum; one that finds no queue to dispatch takes the credit of every queue that is not Ready (R30, R31). `RINGMASTER_HOLD_STEP` dispatches
the held gang once it fits. Where the spec is open it follows the model's choice: log entries 42 and 62. -/
def Obligations.LaunchesDispatch : Prop :=
  ((∀ (s s1 : State) (slot : Nat) (p : List Word), ((s.slot slot).launches.all fun l => !l.undone && l.fail.isNone) = true →
      s.peek slot = .packet p s1 → pkKind p = 7 →
        (launchFieldOk p = true → launchOk p = true → s1.groups (slot / 32) p ≠ 0 → s1.couldFit (slot / 32) p = true →
          ∃ t l, exec (.launchPacketRead slot) s = .next t ∧ l.pkt = p ∧ l.claim = (s.slot slot).ridx ∧ l.next = 0 ∧ l.live = 0
            ∧ l.ready = (lpWkind p == 0) ∧ l.fail = none
            ∧ t.slot slot = { s1.slot slot with
                ridx := ((s1.slot slot).ridx + 1) % 2 ^ 64, launches := (s1.slot slot).launches ++ [l] })
        ∧ (launchFieldOk p = false → ∃ t, exec (.launchPacketRead slot) s = .next t ∧ (t.slot slot).stopped = true
            ∧ Posted s1 t (slot / 32) 3 0x01))
    ∧ (∀ (s s1 : State) (slot va : Nat), ((s.slot slot).launches.all fun l => !l.undone && l.fail.isNone) = true → s.peek slot = .miss va s1 →
        exec (.launchPacketRead slot) s = .next ((s1.postPage (slot / 32) 2 false va (s1.slot slot).asid (s1.slot slot).engine 0).modSlot slot fun q =>
          { q with wait := some (va / 65536) }))
    ∧ ∀ (s : State) (slot : Nat) (l : Launch), (s.slot slot).headLaunch = some l → l.wait = none →
        let q := s.slot slot
        let gives := fun (r : Bool) => ∃ t seen, exec (.waitConditionEval slot) s = .next t
          ∧ (t.slot slot).launches = launchesWith q.launches l.id (fun m =>
            { m with ready := r, seen := if r && m.next == 0 then seen else m.seen })
        (lpWkind l.pkt = 0 → gives true)
        ∧ (∀ pa s1, lpWkind l.pkt = 1 → s.engineXlat q.engine q.asid (lpWaddr l.pkt) false = (.ok pa, s1) → s1.mayFill pa 8 = true →
            s1.agentWaits s1.seqNo s1.seqNo (.pa pa) = false → s1.poisonedAt (.pa pa) 8 = false → gives (decide (lpWval l.pkt ≤ bits (s1.dw pa) 0 32)))
        ∧ (∀ s1, lpWkind l.pkt = 1 → s.engineXlat q.engine q.asid (lpWaddr l.pkt) false = (.absent, s1) →
            ∃ t, exec (.waitConditionEval slot) s = .next t ∧ (t.iface (slot / 32)).pages.length = (s1.iface (slot / 32)).pages.length + 1
              ∧ (t.slot slot).launches = launchesWith q.launches l.id (fun m => { m with ready := false, wait := some (lpWaddr l.pkt / 65536) }))
        ∧ (∀ n b, lpWkind l.pkt = 2 → s.named (slot / 32) (lpWcore l.pkt) = some n → s.namedBlock n = some b →
            gives ((b.turnstile (lpWts l.pkt)).ph == lpWph l.pkt)))
  ∧ ((∀ (s : State), s.rmHeld = none → s.rmAt ≠ some s.clock → (s.rmWant || s.anyFree) = true →
      let s1 := s.credited
      (∀ (x : Nat × QueueSlot) (l : Launch), x ∈ s1.slots → x.2.registered = true → s1.slot x.1 = x.2 → x.2.ready = some l → s1.eligible x = true →
        (∀ y ∈ s1.slots, y.2.registered = true → y.1 < 2048 ∧ y.2.prio < 4) →
        (∀ y ∈ s1.slots, y.2.registered = true → s1.eligible y = true → y = x ∨ s1.turnOf x < s1.turnOf y) →
          (∀ spot, s.fits (x.1 / 32) l.pkt = some spot → ∃ t, exec .ringmasterDecision s = .next t ∧ Dispatched s1 t x.1 l spot
            ∧ t.rmHeld = none ∧ t.rmAt = some s.clock)
          ∧ (s.fits (x.1 / 32) l.pkt = none →
            exec .ringmasterDecision s = .next { s1 with rmHeld := some x.1, rmWant := false, rmAt := some s.clock }))
      ∧ ((∀ y ∈ s1.slots, y.2.registered = true → s1.eligible y = false) →
          exec .ringmasterDecision s = .next { s1 with
            slots := s1.slots.map fun x => (x.1, if x.2.registered = true ∧ x.2.ready = none ∧ 0 < x.2.d then { x.2 with d := 0 } else x.2)
            rmWant := false, rmAt := some s.clock }))
    ∧ ∀ (s : State) (slot : Nat) (l : Launch) (spot : List (List Nat)), s.rmHeld = some slot → s.rmAt ≠ some s.clock → (s.slot slot).nextLaunch = some l →
        s.fits (slot / 32) l.pkt = some spot →
          ∃ t, exec .ringmasterHoldStep s = .next t ∧ Dispatched s t slot l spot ∧ t.rmHeld = none ∧ t.rmAt = some s.clock)

/-- `BLOCK_RETIRE` of a block that may retire frees its core, counts it out of its launch and charges its queue the clocks for which it
has held the core, before its clock's decision; a fused gang is charged four cores of each cluster with its last block (R19, R25, R32).
`LAUNCH_COMPLETE` of the first launch that is due, on a later clock than its last retirement and with no other queue's launch that was read
earlier having completed on that clock, ends it,
and adds 1 to its completion word or makes its arrival; a failed one posts its kind-3 entry and stops its queue (R28, R375).
`PREEMPT_REQUEST` asks a block, and with it the blocks of its fused gang, to stop, and its matrix stream. `BLOCK_SAVE` takes those blocks
off their cores once each is at a safe point and there are save slots enough: what is saved is the block as it stood, with the stores of
its core that are not acknowledged. `BLOCK_RESUME` puts a saved block, or a saved gang, on free cores: every presence bit reads 1, its
fragments leave `safept`, and its stores drain there. `PREEMPT_OVERDUE` after 2^28 clocks marks the request (R59 to R61, R329, R354).
Where the spec is open it follows the model's choice: log entries 41 and 62. -/
def Obligations.BlocksLeave : Prop :=
  ((∀ (s : State) (core : Nat) (b : Block), s.block core = some b → s.mayRetire core b = true → s.rmAt ≠ some s.clock →
      let q := s.slot b.slot
      let alone := (s.cores.all fun x => x.1 == core || !(x.2.block.any fun o => o.gang == b.gang)) && !s.gangSaved b.gang
      let charge := if b.fused then (if alone then 4 * lpClusters b.packet * s.heldBy b else 0) else s.heldBy b
      ∃ t, exec (.blockRetire core) s = .next t ∧ t.block core = none ∧ (∀ k, k ≠ core → t.block k = s.block k) ∧ t.mem = s.mem
        ∧ t.slot b.slot = { q with launches := launchesWith q.launches b.launch (fun l => { l with live := l.live - 1, endAt := some s.clock })
                                   d := q.d - charge })
    ∧ ∀ (s : State) (slot i : Nat) (l : Launch), (s.slot slot).launches[i]? = some l → l.due = true →
        (∀ j m, j < i → (s.slot slot).launches[j]? = some m → m.due = false) → (s.slot slot).actionHeld = false →
        l.endAt ≠ some s.clock → (∀ x ∈ s.slots, ∀ y ∈ x.2.launches, y.due = true → y.endAt = l.endAt → l.id ≤ y.id) →
          let q := s.slot slot
          let ends := fun (t : State) => exec (.launchComplete slot i) s = .next t ∧ (t.slot slot).launches = q.launches.filter fun m => m.id != l.id
          (l.fail = none → lpDkind l.pkt = 0 → ∃ t, ends t ∧ t.mem = s.mem)
          ∧ (∀ pa s1, l.fail = none → lpDkind l.pkt = 1 → s.engineXlat q.engine q.asid (lpDaddr l.pkt % 2 ^ 57) true = (.ok pa, s1) →
              s1.openAt s1.seqNo pa → s1.mayFill pa 8 = true → s1.poisonedAt (.pa pa) 8 = false →
                ∃ t, ends t ∧ Took s1.mem t.mem pa (bytesOf 8 ((bits (s1.dw pa) 0 32 + 1) % 2 ^ 32 + bits (s1.dw pa) 32 32 * 2 ^ 32)))
          ∧ (∀ k b, l.fail = none → lpDkind l.pkt = 2 → s.named (slot / 32) (bits (pdw l.pkt 7) 3 9) = some (.on k) → s.block k = some b →
              ∃ t, ends t ∧ t.block k = some (b.arrive (bits (pdw l.pkt 7) 12 4)))
          ∧ (∀ code addr, l.fail = some (code, addr) → code < 256 →
              ∃ t, ends t ∧ (t.slot slot).stopped = true ∧ Posted s t (slot / 32) 3 code))
  ∧ ((∀ (s : State) (core : Nat) (b : Block), s.block core = some b → b.request = none → s.freeSaves b.vi ≠ [] →
      ∃ t, exec (.preemptRequest core) s = .next t ∧ t.mem = s.mem ∧ ∀ j, t.block j =
        if (s.together core b).contains j then
          (s.block j).map fun o => { o with request := some s.clock, seq := o.seq.map fun q => { q with stop := true } }
        else s.block j)
    ∧ (∀ (s : State) (core : Nat) (b : Block), s.block core = some b → b.request.isSome = true →
      let ks := s.together core b
      ks.Nodup → (∀ k ∈ ks, ∃ o, s.block k = some o ∧ o.vi = b.vi ∧ o.atSafePoint = true) → ks.length ≤ (s.freeSaves b.vi).length →
      (∀ i, i < (s.iface b.vi).saveslots → paOk (s.saveSlot b.vi i) = true ∧ paOk (s.saveSlot b.vi i + 2 ^ 22 - 1) = true) →
        ∃ t, exec (.blockSave core) s = .next t ∧ ∀ k ∈ ks, t.block k = none ∧ ∃ x ∈ t.saved, x.core = k ∧ x.vi = b.vi
          ∧ x.path = (s.core k).path
          ∧ (s.block k).map (fun o => { o with heldClocks := s.heldBy o, request := none, testReq := false, overdue := false }) = some x.block)
    ∧ (∀ (s : State) (vi i : Nat) (x : Saved), (s.saved.filter fun y => y.vi == vi)[i]? = some x →
      let back := fun (t : State) (y : Saved) (k : Nat) => ∃ b : Block, t.block k = some b ∧ b.index = y.block.index ∧ b.name = y.block.name
        ∧ b.sp = { y.block.sp with absent := [] } ∧ b.since = s.clock ∧ b.ts = y.block.ts ∧ b.cr = y.block.cr
        ∧ b.teams = y.block.teams.map (fun (z : Nat × Team) => (z.1, z.2.resumed k)) ∧ (t.core k).path = y.path.map (StReq.moveTo k)
      (∀ k ks rest, x.block.fused = false → placeIn (s.coreFree (some x.block.gang)) (s.groups vi x.block.packet) 1 1 = some ((k :: ks) :: rest) →
        ∃ t, exec (.blockResume vi i) s = .next t ∧ back t x k ∧ t.saved = s.saved.filter fun y => !(y.vi == x.vi && y.slotIx == x.slotIx))
      ∧ (∀ spot, x.block.fused = true → lpCpb x.block.packet ≤ 4 →
        placeIn (s.coreFree (some x.block.gang)) (s.groups vi x.block.packet) 4 (lpClusters x.block.packet) = some spot →
        ((s.saved.filter fun y => y.block.gang == x.block.gang).map fun y => y.block.index % lpGang x.block.packet).Nodup →
          ∃ t, exec (.blockResume vi i) s = .next t ∧ ∀ y ∈ s.saved, y.block.gang = x.block.gang → ∃ k, back t y k))
    ∧ ∀ (s : State) (core c : Nat) (b : Block), s.block core = some b → b.request = some c → b.overdue = false →
        2 ^ 28 ≤ (s.clock + 2 ^ 64 - c) % 2 ^ 64 →
          ∃ t, exec (.preemptOverdue core) s = .next t ∧ t.block core = some { b with overdue := true } ∧ t.mem = s.mem)

/-! ## Copy engines -/

namespace Sys2Proof.Machine

/-- The last byte that a line's data holds for an offset (R216: of two rows that write one byte the later one counts). -/
def lastByte (xs : List (Nat × Byte × Bool)) (o : Nat) : Option Byte := (xs.filter fun y => y.1 == o).getLast?.map fun y => y.2.1

/-- From m to m' the 256-byte line at an address has taken a line's data, and no other byte has changed. -/
def LineTook (m m' : Memory) (pa : Nat) (xs : List (Nat × Byte × Bool)) : Prop :=
  ∀ x, m'.byte x = (if pa ≤ x ∧ x < pa + 256 then lastByte xs (x - pa) else none).getD (m.byte x)

/-- An engine reads and writes n bytes in one step at a physical address: it may, its channel lets it, and no poison is there (R113, R308, R371,
R382). -/
def State.stepsAt (s : State) (pa n : Nat) : Prop := s.openAt s.seqNo pa ∧ s.mayFill pa n = true ∧ s.poisonedAt (.pa pa) n = false

/-- The arrival of a packet names no saved block, whose save slot would note it (R20, R329). -/
def State.turnHere (s : State) (vi : Nat) (p : List Word) : Prop := ∀ name n i, pkTurn p = some (name, n) → s.named vi name ≠ some (.kept i)

/-- The value that a reduce leaves in an element (R217): the sum in FP32, the sum in `.bf16`, or the maximum in FP32. -/
def reduced (op old x : Nat) : Nat :=
  match op with
  | 0 => (opAdd (fmtOf .f32) (.m .rne) old x).1
  | 1 => (opAdd (fmtOf .bf16) (.m .rne) old x).1
  | _ => minMaxF (fmtOf .f32) true old x

end Sys2Proof.Machine

/-- `PACKET_READ` takes the packet that stands at RIDX: it becomes the head of its queue, and RIDX rises in the queue's header (R118,
R210). `PACKET_START` starts the head that R210 chooses when R373 and R374 find nothing against it, and else stops its queue with a kind-3
entry of the code (R373 to R375). Where the spec is open it follows the model's choice: log entries 43, 60 and 61. -/
def Obligations.PacketsStart : Prop :=
  (∀ (s s1 : State) (slot : Nat) (p : List Word), (s.slot slot).launches = [] → s.peek slot = .packet p s1 → pkKind p ≠ 7 →
    (isHost ((s1.slot slot).hdrPa + 8) = true → s1.linkUp = true) →
      let r := ((s1.slot slot).ridx + 1) % 2 ^ 64
      ∃ t, exec (.packetRead slot) s = .next t ∧ t.slot slot = { s1.slot slot with ridx := r, head := some p }
        ∧ Took s1.mem t.mem ((s1.slot slot).hdrPa + 8) (bytesOf 8 r) ∧ OnlyMem s1 { t with slots := s1.slots }
        ∧ ∀ j, j ≠ slot → t.slot j = s1.slot j)
  ∧ ∀ (s : State) (slice slot : Nat) (q : QueueSlot) (p : List Word), (∀ early, ∃ rest, s.heads slice early = (slot, q) :: rest) →
      s.slot slot = q → q.head = some p →
        (packetCheck q.priv (slot / 32) p = none → s.scratchFault (slot / 32) p = none →
          ∃ t st, exec (.packetStart slice) s = .next t ∧ t.slot slot = { q with head := none, started := some st } ∧ st.pkt = p
            ∧ st.claim = (q.ridx + 2 ^ 64 - 1) % 2 ^ 64 ∧ st.expanded = false ∧ st.moves = [] ∧ st.got = [] ∧ t.mem = s.mem)
        ∧ (∀ code, packetCheck q.priv (slot / 32) p = some code → ∃ t, exec (.packetStart slice) s = .next t ∧ (t.slot slot).stopped = true
            ∧ (t.slot slot).head = none ∧ (t.slot slot).started = none ∧ Posted s t (slot / 32) 3 code
            ∧ (s.turnHere (slot / 32) p → t.mem = s.mem))

/-- The own step of a copy names its rows: `LINEAR_COPY`, `REDUCE` and `DRAIN` BYTES bytes, `STRIDED_COPY` ROWS rows at their pitches,
`GATHER` and `SCATTER` one row for each index, which is inline or read from memory, an index of TROWS or more being zeros of a gather and
no row of a scatter, and clips its count (R213, R215 to R217). `COPY_LINE_LAND` of a packet that has read all its lines lands the oldest:
in memory the line takes its bytes whole; in a scratchpad too, and the line's presence bit is set unless a later copy has cleared it
again; a line of a peer's memory is sent. Of a packet with lines to read and none read it reads all that goes on the next destination
line, for a drain the next source line once, or its queue stops (R98, R99, R113, R216, R217). For a packet from a peer it lands the next
line of its data, which takes the packet's bytes when one movement is left (R331). `REDUCE_ELEMENT_COMBINE` of the oldest element that a
packet has read leaves the value of R217 at its destination, or sends it to a peer; of a packet from a peer it combines the next element,
and poison at its destination rejects the packet (R217, R331, R383). Where the spec is open it follows the model's choice: log entry 44. -/
def Obligations.CopiesMove : Prop :=
  (∀ (s : State) (slot : Nat) (st : Started),
    (s.slot slot).started = some st → st.expanded = false → st.wait = none →
      let q := s.slot slot
      let p := st.pkt
      let rows := fun (s1 : State) (moves : List Move) (clips : Nat) => Host.Outcome.next (s1.modStarted slot fun st => { st with expanded := true, moves, clips })
      let indices := fun (s1 : State) (ix : List Nat) => (pkInl p = true ∧ s1 = s ∧ ix = (upto 0 (pkCount p)).map (pkIndex p))
        ∨ (pkInl p = false ∧ ∃ xs, s.readVa q.engine q.asid (pkIdx p) (4 * pkCount p) st.issueNo = .ok xs s1 ∧ (∀ x ∈ xs, x.2 = false)
          ∧ ix = (upto 0 (pkCount p)).map fun j => leNat (((xs.drop (4 * j)).take 4).map Prod.fst))
      (∀ ev kind, (ev = Instr.linearCopy slot ∧ kind = 1) ∨ (ev = .reduce slot ∧ kind = 5) ∨ (ev = .drain slot ∧ kind = 6) → pkKind p = kind →
        exec ev s = rows s [{ src := some (pkSrc p), dst := pkDst p, n := pkBytes p, swz := 0 }] 0)
      ∧ (pkKind p = 2 → exec (.stridedCopy slot) s = rows s ((upto 0 (pkRows p)).map fun r =>
          { src := some (pkSrc p + r * pkSpitch p), dst := pkDst p + r * pkDpitch p, n := pkRowBytes p
            swz := if pkSwz p = 1 then r % 8 else 0 }) 0)
      ∧ (∀ s1 ix, pkKind p = 3 → indices s1 ix → exec (.gather slot) s = rows s1 ((ix.zip (upto 0 ix.length)).map fun x =>
          { src := if x.1 < pkTrows p then some (pkSrc p + x.1 * pkRowb p) else none, dst := pkDst p + x.2 * pkRowb p, n := pkRowb p
            swz := if pkSwz p = 1 then x.2 % 8 else 0 }) (ix.countP fun x => decide (pkTrows p ≤ x)))
      ∧ (∀ s1 ix, pkKind p = 4 → indices s1 ix → exec (.scatter slot) s = rows s1 ((ix.zip (upto 0 ix.length)).filterMap fun x =>
          if x.1 < pkTrows p then some { src := some (pkSrc p + x.2 * pkRowb p), dst := pkDst p + x.1 * pkRowb p, n := pkRowb p, swz := 0 }
          else none) (ix.countP fun x => decide (pkTrows p ≤ x))))
  ∧ ((∀ (s : State) (slot : Nat) (st : Started) (d : LineData) (rest : List LineData), slot < 2048 → (s.slot slot).started = some st →
      st.expanded = true → st.wait = none → st.moves = [] → st.got = d :: rest → pkKind st.pkt ∈ [1, 2, 3, 4, 6] →
        let q := s.slot slot
        let s0 : State := { s with freeIx := s.freeIx + 1 }
        let landed := fun (t : State) => exec (.copyLineLand slot) s = .next t ∧ (t.slot slot).started.map Started.got = some rest
        (pkDrem st.pkt = true → ∃ t, landed t ∧ t.mem = s.mem)
        ∧ (∀ pa s1, pkDrem st.pkt = false → pkDsp st.pkt = false →
            s0.engineXlat q.engine q.asid (256 * d.line % 2 ^ 57) true = (.ok pa, s1) → s1.openAt st.issueNo pa → pa % 256 = 0 →
              ∃ t, landed t ∧ LineTook s1.mem t.mem pa d.bytes)
        ∧ (∀ k b, pkDrem st.pkt = false → pkDsp st.pkt = true → s.named (slot / 32) (pkSpcore st.pkt) = some (.on k) → s.block k = some b →
            (∀ x ∈ d.bytes, 256 * d.line + x.1 < b.area ∧ x.1 < 256) → s0.landBefore (slot / 32) (pkSpcore st.pkt) d.line st.issueNo = false →
            s0.subWaits k (256 * d.line) 256 s.seqNo = false → s0.agentWaits st.issueNo st.issueNo (.sp k (256 * d.line)) = false →
              ∃ t u, landed t ∧ t.block k = some u ∧ (AMap.find? b.sp.absent d.line = some st.issueNo → AMap.find? u.sp.absent d.line = none)
                ∧ ∀ x, u.sp.byte x = (if 256 * d.line ≤ x ∧ x < 256 * d.line + 256 then lastByte d.bytes (x - 256 * d.line) else none).getD
                  (b.sp.byte x)))
    ∧ (∀ (s s1 : State) (slot line : Nat) (st : Started) (xs : List (Nat × Byte × Bool)) (bad : Option Nat) (moves : List Move), slot < 2048 →
      (s.slot slot).started = some st → st.expanded = true → st.wait = none → st.moves ≠ [] → st.got = [] → pkKind st.pkt ∈ [1, 2, 3, 4, 6] →
      ({ s with freeIx := s.freeIx + 1 } : State).readNext slot (s.slot slot) st = (.ok xs bad s1, line, moves) →
        (pkKind st.pkt ≠ 6 → line = (st.moves.head?.elim 0 Move.dst) / 256 ∧ moves = st.moves.flatMap fun m => m.minus line)
        ∧ (∀ m a, pkKind st.pkt = 6 → st.moves = [m] → m.src = some a → let n := 256 - a % 256
            moves = if m.n ≤ n then [] else [{ m with src := some (a + n), dst := m.dst + n, n := m.n - n }])
        ∧ ∃ t, exec (.copyLineLand slot) s = .next t ∧ ((t.slot slot).stopped = true ∨ (t.slot slot).started.map Started.moves = some moves))
    ∧ ∀ (s s1 : State) (i pa : Nat) (x : Inbound) (m : Move) (rest : List Move), s.inbound[i]? = some x → x.moves = m :: rest → x.wait = none →
        pkKind x.pkt ∈ [1, 2] → s.appendTo x = none →
        s.engineXlat x.engine x.asid (256 * (m.dst / 256) % 2 ^ 57) true = (.ok pa, s1) → s1.openAt x.issueNo pa →
          ∃ t, exec (.copyLineLand (2048 + i)) s = .next t
            ∧ t.inbound[i]? = some { x with moves := x.moves.flatMap fun y => y.minus (m.dst / 256), effect := true }
            ∧ (rest = [] → m.swz = 0 → ∀ a y, m.src = some a →
              let va := 256 * (m.dst / 256) + (y - pa)
              t.mem.byte y = if pa ≤ y ∧ y < pa + 256 ∧ m.dst ≤ va ∧ va < m.dst + m.n then nth 0 x.bytes (a + (va - m.dst)) else s1.mem.byte y))
  ∧ ((∀ (s s1 : State) (slot pa : Nat) (st : Started) (d : LineData) (rest : List LineData), slot < 2048 → (s.slot slot).started = some st →
      st.expanded = true → st.wait = none → pkKind st.pkt = 5 → st.moves = [] → st.got = d :: rest →
      let q := s.slot slot
      let n := pkElem st.pkt
      let combines := fun (t : State) => exec (.reduceElementCombine slot) s = .next t ∧ (t.slot slot).started.map Started.got = some rest
      (pkDrem st.pkt = true → ∃ t, combines t ∧ t.mem = s.mem)
      ∧ (pkDrem st.pkt = false → pkOp st.pkt ≤ 2 → (∀ x ∈ d.bytes, x.2.2 = false) →
        ({ s with freeIx := s.freeIx + 1 } : State).engineXlat q.engine q.asid (d.line % 2 ^ 57) true = (.ok pa, s1) → s1.stepsAt pa n →
          ∃ t, combines t ∧ Took s1.mem t.mem pa
            (bytesOf n (reduced (pkOp st.pkt) (leNat (s1.mem.bytes pa n)) (leNat (d.bytes.map fun x => x.2.1))))))
    ∧ ∀ (s s1 : State) (i pa : Nat) (x : Inbound) (m : Move) (rest : List Move), s.inbound[i]? = some x → x.moves = m :: rest → x.wait = none →
        pkKind x.pkt = 5 → s.engineXlat x.engine x.asid (m.dst % 2 ^ 57) true = (.ok pa, s1) → s1.openAt s1.seqNo pa →
        let n := pkElem x.pkt
        let from_ := m.src.getD 0
        s1.mayFill pa n = true →
          (s1.poisonedAt (.pa pa) n = false → pkOp x.pkt ≤ 2 → (∀ j ∈ x.poison, ¬(from_ ≤ j ∧ j < from_ + n)) →
            ∃ t, exec (.reduceElementCombine (2048 + i)) s = .next t ∧ (t.inbound[i]?).map Inbound.effect = some true
              ∧ Took s1.mem t.mem pa (bytesOf n (reduced (pkOp x.pkt) (leNat (s1.mem.bytes pa n)) (leNat ((upto from_ n).map (nth 0 x.bytes))))))
          ∧ (s1.poisonedAt (.pa pa) n = true → ∃ t, exec (.reduceElementCombine (2048 + i)) s = .next t ∧ Posted s t x.vi 7 0x09
              ∧ t.inbound = dropNth s.inbound i ∧ t.mem = s.mem))

/-- `SIGNAL` stores its VALUE, or adds it, in one step at its home, for a queue's packet and for a peer's (R217). `PACKET_COMPLETE` adds 1
and the clips to the completion word, makes the arrival, or both, and ends the packet, and CPYCNT falls (R118, R218); a packet from a peer ends
(R331). Where the spec is open it follows the model's choice: log entries 44 and 45. -/
def Obligations.PacketsEnd : Prop :=
  (∀ (s : State) (slot : Nat) (st : Started), slot < 2048 → (s.slot slot).started = some st → st.expanded = false → st.wait = none →
    pkKind st.pkt = 8 →
      let q := s.slot slot
      (pkDrem st.pkt = true → exec (.signal slot) s = .next (s.modStarted slot fun st => { st with expanded := true, sent := true }))
      ∧ (∀ pa s1, pkDrem st.pkt = false → s.engineXlat q.engine q.asid (pkDst st.pkt % 2 ^ 57) true = (.ok pa, s1) → s1.openAt s1.seqNo pa →
          (bit (pdw st.pkt 4) 0 = true → s1.stepsAt pa 8) →
            ∃ t, exec (.signal slot) s = .next t ∧ t.slot slot = { q with started := some { st with expanded := true, effect := true } }
              ∧ Took s1.mem t.mem pa (bytesOf 8 (if bit (pdw st.pkt 4) 0 then (s1.dw pa + pdw st.pkt 3) % 2 ^ 64 else pdw st.pkt 3))))
  ∧ (∀ (s s1 : State) (i pa : Nat) (x : Inbound), s.inbound[i]? = some x → x.wait = none → x.effect = false → pkKind x.pkt = 8 →
    s.engineXlat x.engine x.asid (pkDst x.pkt % 2 ^ 57) true = (.ok pa, s1) → s1.openAt s1.seqNo pa → (bit (pdw x.pkt 4) 0 = true → s1.stepsAt pa 8) →
      ∃ t, exec (.signal (2048 + i)) s = .next t ∧ t.inbound[i]? = some { x with effect := true }
        ∧ Took s1.mem t.mem pa (bytesOf 8 (if bit (pdw x.pkt 4) 0 then (s1.dw pa + pdw x.pkt 3) % 2 ^ 64 else pdw x.pkt 3)))
  ∧ (∀ (s : State) (slot : Nat) (st : Started), slot < 2048 → (s.slot slot).started = some st → st.performed = true → st.poisoned = none →
    let q := s.slot slot
    let ends := fun (t : State) => exec (.packetComplete slot) s = .next t ∧ (t.slot slot).started = none
      ∧ t.apps = s.apps.filter (fun a => !(a.asid == q.asid && a.hdr == q.hdr && a.w == st.claim))
      ∧ ∀ a k tm, s.apps.find? (fun a => a.asid == q.asid && a.hdr == q.hdr && a.w == st.claim) = some a →
        s.named a.vi a.name = some (.on k) → s.team k a.team = some tm → (t.team k a.team).map Team.cpycnt = some (tm.cpycnt - 1)
    (pkPriv st.pkt = true ∨ pkWord st.pkt = none → pkTurn st.pkt = none → ∃ t, ends t ∧ t.mem = s.mem)
    ∧ (∀ name n k b, pkPriv st.pkt = false → pkWord st.pkt = none → pkTurn st.pkt = some (name, n) → s.named (slot / 32) name = some (.on k) →
        s.block k = some b → ∃ t, ends t ∧ t.mem = s.mem ∧ (t.block k).map (fun o => o.turnstile n) = some ((b.arrive n).turnstile n))
    ∧ (∀ va pa s1, pkPriv st.pkt = false → pkWord st.pkt = some va → pkTurn st.pkt = none →
        s.engineXlat q.engine q.asid (va % 2 ^ 57) true = (.ok pa, s1) → s1.stepsAt pa 8 →
          ∃ t, ends t ∧ Took s1.mem t.mem pa
            (bytesOf 8 ((bits (s1.dw pa) 0 32 + 1) % 2 ^ 32 + (bits (s1.dw pa) 32 32 + st.clips) % 2 ^ 32 * 2 ^ 32)))
    ∧ (∀ va pa s1 name n k b, pkPriv st.pkt = false → pkWord st.pkt = some va → pkTurn st.pkt = some (name, n) →
        s.engineXlat q.engine q.asid (va % 2 ^ 57) true = (.ok pa, s1) → s1.stepsAt pa 8 →
        s.named (slot / 32) name = some (.on k) → s.block k = some b →
          ∃ t, ends t ∧ (t.block k).map (fun o => o.turnstile n) = some ((b.arrive n).turnstile n) ∧ Took s1.mem t.mem pa
            (bytesOf 8 ((bits (s1.dw pa) 0 32 + 1) % 2 ^ 32 + (bits (s1.dw pa) 32 32 + st.clips) % 2 ^ 32 * 2 ^ 32))))
  ∧ ∀ (s : State) (i : Nat) (x : Inbound), s.inbound[i]? = some x → x.moves = [] → x.wait = none → (pkKind x.pkt = 8 → x.effect = true) →
      exec (.packetComplete (2048 + i)) s = .next { s with inbound := dropNth s.inbound i }

/-- `RANGE_INVALIDATE`: ISEQ rises and no TLB keeps an entry of the range. `GENERATION`: the space has its new generation, under which no
TLB has an entry. `PAGE_READY`: no team of the space waits for a page of the range. `INVALIDATE_ACK`: once the accesses that they affect
have completed the packet is acknowledged, and its completion word has risen by 1 (R92, R96, R97, R367 to R369). Where the spec is open it
follows the model's choice: log entry 51. -/
def Obligations.TranslationPackets : Prop := ∀ (s : State) (slot : Nat) (st : Started), (s.slot slot).started = some st →
  let p := st.pkt
  let took := fun (t : State) (ev : Instr) => exec ev s = .next t ∧ (t.slot slot).started.map (fun x => (x.pkt, x.expanded)) = some (p, true)
    ∧ t.mem = s.mem
  let gone := fun (t : State) (out : TlbEntry → Bool) => (∀ k, ∀ e ∈ (t.core k).tlb, out e = false) ∧ (∀ k, ∀ e ∈ (t.cluster k).wtlb, out e = false)
    ∧ ∀ k, ∀ e ∈ (t.stackCore k).tlb, out e = false
  (st.expanded = false → pkKind p = 0x10 → ∃ t, took t (.rangeInvalidate slot) ∧ gone t (TlbEntry.inRange p)
    ∧ t.space (pkAsid p) = { s.space (pkAsid p) with iseq := ((s.space (pkAsid p)).iseq + 1) % 2 ^ 32 })
  ∧ (st.expanded = false → pkKind p = 0x12 → ∃ t, took t (.generation slot)
    ∧ gone t (fun e => e.asid == pkAsid p && e.gen == bits (pdw p 1) 0 16)
    ∧ t.space (pkAsid p) = { s.space (pkAsid p) with gen := bits (pdw p 1) 0 16 })
  ∧ (st.expanded = false → pkKind p = 0x11 → ∃ t, took t (.pageReady slot) ∧ ∀ k b, t.block k = some b → b.asid = pkAsid p →
      ∀ x ∈ b.teams, ∀ w ∈ x.2.park, ¬(pkPage p ≤ w.va % 2 ^ 57 / 65536 ∧ w.va % 2 ^ 57 / 65536 < pkPage p + pkPages p))
  ∧ (st.expanded = true → st.acked = false → st.wait = none → pkPriv p = true →
      (pkKind p = 0x11 ∨ s.accessesDone (pkAsid p) st.issueNo = true) →
        (pkWord p = none → exec (.invalidateAck slot) s = .next (s.modStarted slot fun x => { x with acked := true, effect := true }))
        ∧ (∀ va pa s1, pkWord p = some va → s.engineXlat (s.slot slot).engine (s.slot slot).asid (va % 2 ^ 57) true = (.ok pa, s1) →
            s1.stepsAt pa 8 →
              ∃ t, exec (.invalidateAck slot) s = .next t ∧ (t.slot slot).started = some { st with acked := true, effect := true }
                ∧ Took s1.mem t.mem pa (bytesOf 8 ((s1.dw pa + 1) % 2 ^ 64))))

/-! ## The fabric -/

namespace Sys2Proof.Machine

/-- An operation in a home's queue that may take its step: its sources are read, it waits for no page, and nothing is before it (R260 to R263). -/
structure Due (s : State) (home k : Nat) (op : SetOp) : Prop where
  queued : (s.cluster home).setq[k]? = some op
  here : op.home = home
  posted : op.posted = []
  read : op.unread = []
  free : s.setBlocked op op.touches = false

/-- What the home of a set is asked to do and finds: the operation may take its step, its header translates, no agent owns it, and the home
holds a live set there (R260 to R263). -/
structure AtHome (s s1 : State) (home k : Nat) (op : SetOp) (pa : Nat) (o : SetObj) (wr : Bool) : Prop where
  due : Due s home k op
  open_ : s1.agentWaits s1.seqNo s1.seqNo (.pa pa) = false
  xlat : s.engineXlat home op.asid op.va wr = (.ok pa, s1)
  held : s1.setAt home pa = some o
  live : o.live = true

/-- The body of a set can be read where it is: it is near, in the set store, and not broken (R256, R399). -/
def SetObj.near (o : SetObj) : Prop := o.broken = false ∧ isFar o.bytes = false ∧ o.inStore = true

/-- The team is told: of a query, and of an operation with an earlier one of its team still counted, the result is kept; any other operation is
no longer outstanding, or waits uncounted for its capability to return, and SETCNT has fallen (R52, R264). -/
def Told (s t : State) (op : SetOp) (res : SetRes) : Prop :=
  ∀ tm p counted dst old, s.team op.core op.team = some tm → tm.pendOf op.seq = some p → p.cls = .set → p.kind = .set counted dst old →
    let first := ∀ q ∈ tm.pend, q.seq < op.seq → ∀ d r, q.kind ≠ .set true d r
    ∃ u, t.team op.core op.team = some u
      ∧ (op.req.isQuery = true ∨ ¬first → (u.pendOf op.seq).map Pend.kind = some (.set counted dst (some res)) ∧ u.setcnt = tm.setcnt)
      ∧ (op.req.isQuery = false → first →
          (u.pendOf op.seq).map Pend.kind = dst.map (fun d => .set false (some d) (some res)) ∧ u.setcnt = tm.setcnt - 1)

/-- The home has accepted an operation with its result: it is out of the queue, and the set at its header is `o`. -/
def Accepted (s : State) (home k : Nat) (op : SetOp) (pa : Nat) (o : SetObj) (res : SetRes) : Prop :=
  ∃ t, exec (.setHomeStep home k false) s = .next t ∧ (t.cluster home).setq = (s.cluster home).setq.filter (fun x => x.seq != op.seq)
    ∧ Told s t op res
    ∧ ∃ o', t.setAt home pa = some o' ∧ o'.members = o.members ∧ o'.rep = o.rep ∧ o'.pin = o.pin ∧ o'.lo = o.lo ∧ o'.u = o.u

/-- The lanes of `set.ins` or `set.del` in order: the members that they leave, and for each lane whether it changed them (R268). -/
def laneRuns (ins : Bool) (lo u : Nat) : List Nat → List (Nat × Nat) → List Nat × List (Nat × Bool)
  | m, [] => (m, [])
  | m, x :: xs =>
    let here := inUni lo u x.2
    let was := m.contains x.2
    let r := laneRuns ins lo u (if here then (if ins then insSorted x.2 m else delSorted x.2 m) else m) xs
    (r.1, (x.1, here && (if ins then !was else was)) :: r.2)

/-- A body that a step leaves is near, fits in the set's area and finds room in the set store (R106, R256, R396). -/
def State.holds (s : State) (home pa area rep n r u : Nat) : Prop :=
  repBytes rep n r u ≤ area ∧ isFar (repBytes rep n r u) = false ∧ s.storeFits home (some pa) (repBytes rep n r u) = true

/-- The representation that `set.pin` asks for (R271). -/
def pinRep (m : PinMode) (o : SetObj) : Nat :=
  match m with
  | .off => checkRep false o.rep o.members.length (runsOf o.members) o.u
  | .list => 0
  | .runs => 1
  | .bmap => 2
  | .hash => 3
  | .cur => o.rep

/-- `Elem` (R273, R274): the element of column c in the bit-planes of w rows of a subarray. -/
def colEl (p : Scratch) (sub row w c : Nat) : Nat :=
  ((List.range w).map fun i => (p.byte (32768 * sub + 128 * (row + i) + c / 8)).toNat / 2 ^ (c % 8) % 2 * 2 ^ i).sum

/-- The two-operand forms on elements of w bits (R288). -/
def columnOp (func var w x y : Nat) : Nat :=
  match func with
  | 3 => if var = 0 then x &&& y else if var = 1 then 2 ^ w - 1 - (x ||| y) else if var = 2 then x ||| y else x ^^^ y
  | 4 => (x + y) % 2 ^ w
  | 5 => (x + 2 ^ w - y) % 2 ^ w
  | 6 => if var = 2 then (sgn w x * sgn w y % 2 ^ (2 * w)).toNat else x * y
  | _ => if var = 0 then b01 (x == y) else if var = 1 then b01 (decide (x < y)) else b01 (decide (sgn w x < sgn w y))

end Sys2Proof.Machine

/-- A packet from a peer is taken in when its interface is enabled and its `FABSP` space has a root, and is rejected otherwise with a
kind-7 entry (R331, R383). `REMOTE_APPEND` claims a slot of the queue that an inbound packet of 64 bytes names and writes it there, by the
engine that holds the queue, with the valid bit of its claim (R208, R209, R331). `PEER_RECOVERING_SEND` answers for a packet that waits.
What a peer answers for a started packet of a queue whose destination lies there: while it recovers a fresh 2^30 clocks start; after them
the packet fails with FABTIME, and on a rejection with FABREJ: it is no longer started and its queue has stopped (R353, R383). The first
three mismatches of a transaction change nothing, the fourth fails the packet with CRC, or ends a store with its units poisoned, and has a
kind-5 entry with the address of the line, where the transaction goes to another slice (R379, R381). Ports retrain, and a domain forms, whose offset never makes stamps decrease (R360, R381). Where the spec is open it
follows the model's choice: log entries 45 and 47. -/
def Obligations.PeersArriveAndAnswer : Prop :=
  ((∀ (s : State) (sender vi : Nat) (p : List Word) (bytes : List Byte) (poison : List Nat), s.power = .booted → s.ports.length < 12 →
      pkKind p ∈ [1, 2, 5, 8] →
        let i := s.iface vi
        let asid := 16 * vi + bits i.fabsp.toNat 0 4
        (bit i.victl.toNat 0 = true → bit (s.space asid).root.toNat 0 = true →
          ∃ t x, exec (.fabricPacketReceive sender vi p bytes poison) s = .next t ∧ t.inbound = s.inbound ++ [x]
            ∧ x.sender = sender ∧ x.vi = vi ∧ x.asid = asid ∧ x.pkt = p ∧ x.bytes = bytes ∧ x.poison = poison ∧ x.issueNo = s.seqNo ∧ x.effect = false ∧ x.wait = none
            ∧ (pkKind p = 8 → x.moves = []) ∧ (pkKind p = 1 → x.moves = [{ src := some 0, dst := pkDst p, n := pkBytes p, swz := 0 }])
            ∧ t = { s with inbound := t.inbound, freeIx := t.freeIx, seqNo := s.seqNo + 1 })
        ∧ (bit i.victl.toNat 0 = false ∨ bit (s.space asid).root.toNat 0 = false →
          ∃ t, exec (.fabricPacketReceive sender vi p bytes poison) s = .next t ∧ Posted s t vi 7 0x09 ∧ t.inbound = s.inbound
            ∧ t.mem = s.mem))
    ∧ (∀ (s : State) (i slot pa : Nat) (x : Inbound) (q : QueueSlot), s.inbound[i]? = some x → s.appendTo x = some (slot, q) → x.wait = none →
      x.bytes.length = 64 → s.slotAt q.hdrPa = some q → q.slotbase % 64 = 0 → s.openAt s.seqNo q.hdrPa → s.mayFill q.hdrPa 32 = true →
        let w := s.dw q.hdrPa
        let n := 2 ^ q.logslots
        let va := q.slotbase + 64 * (w % n)
        (w + 2 ^ 64 - s.dw (q.hdrPa + 8)) % 2 ^ 64 < n →
          let s1 := (s.l2Fill q.hdrPa 32).setDw q.hdrPa ((w + 1) % 2 ^ 64)
          ∀ s2, s1.engineXlat q.engine x.asid (256 * (va / 256) % 2 ^ 57) true = (.ok pa, s2) → s2.openAt x.issueNo pa → pa % 256 = 0 →
            ∃ t, exec (.remoteAppend i) s = .next t ∧ t.inbound = dropNth s.inbound i
              ∧ (∀ j, j < 56 → some (t.mem.byte (pa + va % 256 + j)) = x.bytes[j]?)
              ∧ bit (t.mem.byte (pa + va % 256 + 63)).toNat 7 = validBit q.ph q.logslots w)
    ∧ ∀ (s : State) (i : Nat) (x : Inbound), s.inbound[i]? = some x → (x.wait.isSome || (s.iface x.vi).resync.isSome || !s.ports.isEmpty) = true →
        ∃ t, exec (.peerRecoveringSend i) s = .next t ∧ t.inbound[i]? = some { x with answered := some s.clock }
          ∧ t = { s with inbound := t.inbound })
  ∧ ((∀ (s : State) (slot : Nat) (st : Started), (s.slot slot).started = some st → pkDrem st.pkt = true → pkPriv st.pkt = false →
      let fails := fun (ev : Instr) (code : Nat) => ∃ t, exec ev s = .next t ∧ (t.slot slot).started = none ∧ (t.slot slot).stopped = true
        ∧ Posted s t (slot / 32) 3 code ∧ (s.turnHere (slot / 32) st.pkt → t.mem = s.mem)
      (∃ t, exec (.peerRecovering slot) s = .next t ∧ (t.slot slot).started = some { st with since := s.clock } ∧ t.mem = s.mem)
      ∧ (2 ^ 30 ≤ (s.clock + 2 ^ 64 - st.since) % 2 ^ 64 → fails (.fabricTimeout slot) 0x08)
      ∧ (∀ part unknown, fails (.peerRejectReceive slot part unknown) 0x09))
    ∧ (∀ (s : State) (tx : CrcTx) (count : Nat), count < 4 → exec (.crcRetry tx count) s = .next s)
    ∧ (∀ (s : State) (core i pa count : Nat) (b : Block) (r : StReq), 4 ≤ count → s.block core = some b → (s.core core).path[i]? = some r →
      r.atom = none → r.loc = .pa pa →
        (sliceOf pa (clusterOf core) = clusterOf core → exec (.crcRetry (.path core i) count) s = .next s)
        ∧ (sliceOf pa (clusterOf core) ≠ clusterOf core →
          ∃ t, exec (.crcRetry (.path core i) count) s = .next t ∧ (t.core core).path = dropNth (s.core core).path i
            ∧ (∀ u, 32 * u < pa + max 1 r.bytes.length → pa < 32 * u + 32 → u ∈ t.mem.poison) ∧ t.mem.cells = s.mem.cells ∧ Posted s t b.vi 5 0x0C
            ∧ ((t.iface b.vi).faults.getLast?.bind fun e => e.dws[1]?) = some (BitVec.ofNat 64 (pa / 256 * 256))))
    ∧ (∀ (s : State) (slot count : Nat) (st : Started) (d : LineData) (rest : List LineData), (s.slot slot).started = some st →
      st.got = d :: rest → (4 ≤ count → st.wait = none → pkDrem st.pkt = true → pkKind st.pkt ∈ [1, 2] →
          ∃ t, exec (.crcRetry (.queue slot) count) s = .next t ∧ (t.slot slot).started = none ∧ (t.slot slot).stopped = true
            ∧ ∃ l e f, (t.iface (slot / 32)).faults = l ++ [e, f] ∧ (e.dws[0]?).map (fun w => bits w.toNat 0 16) = some (5 + 0x0C * 256)
              ∧ (f.dws[0]?).map (fun w => bits w.toNat 0 16) = some (3 + 0x0C * 256)))
    ∧ ∀ (s : State) (port : Nat) (offset : Word),
        (port < 12 → ∃ t, exec (.portRetrainStart port) s = .next t ∧ (∀ x, x ∈ t.ports ↔ x = port ∨ x ∈ s.ports) ∧ t = { s with ports := t.ports })
        ∧ (∃ t, exec (.portRetrainEnd port) s = .next t ∧ (∀ x, x ∈ t.ports ↔ x ≠ port ∧ x ∈ s.ports) ∧ t = { s with ports := t.ports })
        ∧ (s.stampOffset.toNat ≤ offset.toNat → s.clock + offset.toNat < 2 ^ 64 →
            exec (.fabricDomainForm offset) s = .next { s with domain := true, stampOffset := offset })
        ∧ (offset.toNat < s.stampOffset.toNat → exec (.fabricDomainForm offset) s = .next s))

/-- `SET_HOME_STEP` of an operation at the head of its home's order: `set.ins` and `set.del` leave the members that result from the lanes
in order, with the representation of `Check`, and answer which lanes changed them; `set.clr` leaves the empty set; `set.has` answers which
lanes name members, `set.enum` the members from its start in rising order, `set.card` their number and `set.info` a header word, and they
leave the set as it is; `set.or`, `set.and`, `set.andn` and `set.copy` with their sources read leave the union, the intersection, the
difference or the copy; `set.pin` sets the pin and its representation; `set.free` ends the set; `set.new` makes an empty one; `set.has` on
a set that the home does not hold fails with SET; an absent page of the header holds a query in its place, with one request for the page.
`SET_RESULT_RETURN` writes the result of the team's oldest set operation to its register, and it is no longer outstanding (R52, R253 to
R258, R260 to R271, R396). `SET_BODY_MOVE` of a near body whose backing area the home can reach, and of which no agent owns a line: it
leaves the set store when the store lacks the room that a held step needs, and comes back when there is room for it, where poison in the
backing area breaks the set (R106, R256, R399). Where the spec is open it follows the model's choice: log entries 31 and 57. -/
def Obligations.SetsStep : Prop :=
  ((∀ (s s1 : State) (home k pa : Nat) (op : SetOp) (o : SetObj), AtHome s s1 home k op pa o true → o.near →
      (∀ (ins : Bool) (els : List (Nat × Nat)), op.req = (if ins then .ins els else .del els) →
        let r := laneRuns ins o.lo o.u o.members els
        let mem := r.1
        let rep := checkRep o.pin o.rep mem.length (runsOf mem) o.u
        repBytes o.rep mem.length (runsOf mem) o.u ≤ o.area → s1.holds home pa o.area rep mem.length (runsOf mem) o.u →
          Accepted s home k op pa { o with members := mem, rep } (.preds r.2))
      ∧ (op.req = .clr → let rep := if o.pin then o.rep else bestRep 0 0 o.u
          s1.holds home pa o.area rep 0 0 o.u →
            Accepted s home k op pa { o with members := [], rep } .accepted)
      ∧ (∀ els, op.req = .has els →
          Accepted s home k op pa o (.preds (els.map fun x => (x.1, inUni o.lo o.u x.2 && o.members.contains x.2))))
      ∧ (∀ c lanes, op.req = .enum c lanes → Accepted s home k op pa o (.vals ((upto 0 lanes.length).map fun j => (nth 0 lanes j,
          match (o.members.filter fun x => decide (c ≤ x))[j]? with
          | some x => BitVec.ofNat 64 x
          | none => 0xFFFFFFFFFFFFFFFF))))
      ∧ (∀ m, op.req = .pin m → ¬(m = .bmap ∧ 2 ^ 28 < o.u) → let rep := pinRep m o
          s1.holds home pa o.area rep o.members.length (runsOf o.members) o.u →
            Accepted s home k op pa { o with rep, pin := m != .off } .accepted)
      ∧ (op.req = .free → ∃ t, exec (.setHomeStep home k false) s = .next t ∧ t.setAt home pa = none))
    ∧ (∀ (s s1 : State) (home k pa : Nat) (op : SetOp) (o : SetObj), AtHome s s1 home k op pa o false →
      (op.req = .card → Accepted s home k op pa o (.one (BitVec.ofNat 64 o.members.length)))
      ∧ ∀ f, op.req = .info f → Accepted s home k op pa o (.one (BitVec.ofNat 64 (nth 0 (o.header home) f))))
    ∧ (∀ (s s1 : State) (home k pa : Nat) (op : SetOp) (o : SetObj) (a : SetRead), AtHome s s1 home k op pa o true →
      (∃ f, op.req = .alg f) → op.reads.find? (fun r => r.ix == 0) = some a → a.fail = none → a.lo = o.lo → a.u = o.u →
        let leaves := fun (mem : List Nat) =>
          let rep := if o.pin then o.rep else bestRep mem.length (runsOf mem) o.u
          s1.holds home pa o.area rep mem.length (runsOf mem) o.u →
            Accepted s home k op pa { o with members := mem, rep } .accepted
        (op.func = 9 → leaves a.members)
        ∧ ∀ b, op.reads.find? (fun r => r.ix == 1) = some b → b.fail = none → b.lo = o.lo → b.u = o.u →
            (op.func = 6 → leaves (b.members.foldl (fun l x => insSorted x l) a.members))
            ∧ (op.func = 7 → leaves (a.members.filter b.members.contains))
            ∧ (op.func = 8 → leaves (a.members.filter fun x => !b.members.contains x)))
    ∧ (∀ (s s1 : State) (home k pa : Nat) (op : SetOp) (lo u area : Nat) (cap : Cap) (g : Bool), Due s home k op →
      op.req = .new lo u area cap g → s.engineXlat home op.asid op.va true = (.ok pa, s1) → s1.agentWaits s1.seqNo s1.seqNo (.pa pa) = false →
        ∃ t o, exec (.setHomeStep home k false) s = .next t ∧ Told s t op (.cap cap g) ∧ t.setAt home pa = some o ∧ o.members = [] ∧ o.rep = 0
          ∧ o.pin = false ∧ o.lo = lo ∧ o.u = u ∧ o.area = area ∧ o.live = true)
    ∧ (∀ (s s1 : State) (home k pa : Nat) (op : SetOp) (els : List (Nat × Nat)), Due s home k op → op.req = .has els →
      s.engineXlat home op.asid op.va true = (.ok pa, s1) → s1.agentWaits s1.seqNo s1.seqNo (.pa pa) = false → s1.setAt home pa = none →
        ∃ t, exec (.setHomeStep home k false) s = .next t ∧ Posted s1 t op.vi 10 0x31
          ∧ (t.cluster home).setq = (s.cluster home).setq.filter fun x => x.seq != op.seq)
    ∧ (∀ (s s1 : State) (home k : Nat) (op : SetOp), Due s home k op → op.req.isQuery = true →
      (∀ wr, s.engineXlat home op.asid op.va wr = (.absent, s1)) →
        ∃ t o, exec (.setHomeStep home k false) s = .next t ∧ o ∈ (t.cluster home).setq ∧ o.seq = op.seq ∧ o.posted = [op.va / 65536]
          ∧ o.held = some op.va ∧ (t.iface op.vi).pages.length = (s1.iface op.vi).pages.length + 1)
    ∧ ∀ (s : State) (core team : Nat) (tm : Team) (p : Pend) (counted : Bool) (dst : Option RegRef) (res : SetRes), s.team core team = some tm →
        tm.pend.find? (fun p => match p.kind with | .set _ _ _ => true | _ => false) = some p → p.kind = .set counted dst (some res) →
          exec (.setResultReturn core team) s = .next (s.modTeam core team fun tm =>
            let tm := match dst, res with
              | some (.p r), .preds xs => tm.landP p r xs
              | some (.v r), .vals xs => tm.landV p r xs
              | some (.s r), .one w => tm.landS p r w
              | some (.c r), .cap c g => tm.landC p r (c, g)
              | _, _ => tm
            if counted then tm.endPend p else tm.dropPend p.seq))
  ∧ (∀ (s s1 : State) (home hdr : Nat) (o : SetObj) (xs : List (Nat × Nat)), s.setAt home hdr = some o →
    isFar o.bytes = false → s.homeRange home o.asid o.inStore (o.hdrVa + 64) o.bytes = (.ok xs, s1) → s1.piecesOwned xs = false →
      let need := (s.cluster home).storeNeed
      (o.inStore = true → need ≠ 0 → s.storeFits home none need = false →
        ∃ t, exec (.setBodyMove home hdr) s = .next t ∧ t.setAt home hdr = some { o with inStore := false } ∧ (t.cluster home).storeNeed = need)
      ∧ (o.inStore = false → s.storeFits home (some hdr) o.bytes = true → (∀ x ∈ xs, s1.mayFill x.1 x.2 = true) →
        ∃ t, exec (.setBodyMove home hdr) s = .next t ∧ (t.cluster home).storeNeed = 0 ∧ t.mem = s1.mem
          ∧ t.setAt home hdr = some { o with inStore := true, broken := o.broken || xs.any fun x => s1.poisonedAt (.pa x.1) x.2 }))

/-- `ARRAY_OP_START` of the first waiting operation of a subarray that nothing is before, and of whose lines no `m.acst` owns one, reads its
sources: what it will write is what
R283 computes from them. `ARRAY_OP_END` writes that to the scratchpad and nothing else there, `a.popc` writes its scalar, and the
operation has left its queue (R116, R280 to R283, R291). What an operation computes, for each of the 1,024 columns (R274, R275, R286 to
R291): in the columns that its predicate row selects the destination element takes the fill value, the result of the two-operand form, the
element moved across columns or the element of the word layout, and every other column stays; `a.sel` takes A or B by the predicate row;
`a.tst` writes the word layout; `a.popc` counts the ones of the selected columns. Where the spec is open it follows the model's choice:
log entry 32. -/
def Obligations.ArraysRun : Prop :=
  (∀ (s : State) (core sub : Nat) (b : Block) (op : ArrOp), s.block core = some b →
    (AMap.get [] b.subs sub).find? (fun o => !o.started) = some op → b.canStart core op = true → (s.core core).clearFor core op = true →
    (∀ x ∈ op.spans, s.agentWaitsOver op.seq op.seq (.sp core x.1) x.2 = false) → ((AMap.get [] b.subs sub).map ArrOp.seq).Nodup →
      ∃ t u, exec (.arrayOpStart core sub) s = .next t ∧ t.block core = some u ∧ u = { b with subs := u.subs }
        ∧ AMap.get [] u.subs sub = (AMap.get [] b.subs sub).map (fun o => if o.seq = op.seq then
            { op with started := true, writes := (b.sp.compute op).bytes, poison := (b.sp.compute op).poison, count := (b.sp.compute op).count
                      bad := (b.sp.compute op).bad } else o))
  ∧ (∀ (s : State) (core sub : Nat) (b : Block) (op : ArrOp) (tm : Team) (p : Pend), s.block core = some b →
      (AMap.get [] b.subs sub).find? (fun o => o.started) = some op → s.team core op.team = some tm → tm.pendOf op.seq = some p →
      (op.writes.map Prod.fst).Nodup → op.bad = none →
        ∃ t u, exec (.arrayOpEnd core sub none) s = .next t ∧ t.block core = some u
          ∧ AMap.get [] u.subs sub = (AMap.get [] b.subs sub).filter (fun o => o.seq != op.seq)
          ∧ (∀ x ∈ op.writes, u.sp.byte x.1 = x.2) ∧ (∀ a, (∀ x ∈ op.writes, x.1 ≠ a) → u.sp.byte a = b.sp.byte a)
          ∧ (∀ r sub' st n, p.kind = .arr (some r) sub' st n → p.wrote = [] → (AMap.find? u.teams op.team).map (fun tm => tm.sreg r)
            = some (BitVec.ofNat 64 op.count)))
  ∧ ∀ (p p' : Scratch) (op : ArrOp), (∀ x, p'.byte x = (((p.compute op).bytes.find? fun y => y.1 == x).map Prod.snd).getD (p.byte x)) →
      let w := op.w
      let el := fun (q : Scratch) (row n c : Nat) => colEl q op.sub row n c
      let chosen := fun (c : Nat) => op.prow = 0xFF ∨ el p op.prow 1 c = 1
      (∀ c, c < 1024 →
        (∀ d v, op.kind = .fill d v → el p' d w c = if chosen c then v % 2 ^ w else el p d w c)
        ∧ (∀ func var d a b, op.kind = .bin func var d a b → 3 ≤ func → func ≤ 7 → 0 < w →
            let n := if func = 6 then 2 * w else if func = 7 then 1 else w
            el p' d n c = if chosen c then columnOp func var w (el p a w c) (el p b w c) else el p d n c)
        ∧ (∀ var d a b, op.kind = .bin 8 var d a b → op.prow ≠ 0xFF →
            el p' d w c = if el p op.prow 1 c = 1 then el p a w c else el p b w c)
        ∧ (∀ d a k, op.kind = .shf d a k → el p' d w c = if chosen c
            then (if 0 ≤ (c : Int) - k ∧ (c : Int) - k ≤ 1023 then el p a w ((c : Int) - k).toNat else 0) else el p d w c)
        ∧ (∀ off d, op.kind = .tld off d → el p' d w c = if chosen c then bits (leNat (p.read off (128 * w))) (w * c) w else el p d w c)
        ∧ (∀ off d, op.kind = .tst off d → bits (leNat (p'.read off (128 * w))) (w * c) w
            = if chosen c then el p d w c else bits (leNat (p.read off (128 * w))) (w * c) w))
      ∧ ∀ a, op.kind = .popc a →
          (p.compute op).count = ((List.range 1024).map fun c => if chosen c then popc w (el p a w c) else 0).sum

/-! ## The matrix engine -/

namespace Sys2Proof.Machine

/-- The sum of one element in FP32: one rounding for each product, in order (R79). -/
def sumF (c : Nat) (xs ys : List FV) : Nat :=
  (xs.zip ys).foldl (fun c p => (roundTo (fmtOf .f32) (.m .rne) (addF (.m .rne) (decodeF (fmtOf .f32) c) (mulF p.1 p.2).1).1).1) c

/-- The sum of one element in INT32, saturated at each step (R80). -/
def sumI (c : Int) (xs ys : List Int) : Int :=
  (xs.zip ys).foldl (fun c p => max (-(2 : Int) ^ 31) (min ((2 : Int) ^ 31 - 1) (c + p.1 * p.2))) c

/-- A bank instruction of a team that is still outstanding, with its result. -/
def State.bankResult (s : State) (core team seq : Nat) : Option (Option (List (Nat × Word))) :=
  ((s.team core team).bind fun tm => tm.pendOf seq).bind fun p => match p.kind with
    | .bank _ _ res => some res
    | _ => none

/-- What a micro-word leaves in one unit and in memory, slot by slot (R304): F and HL after the fetch, the accumulators after the operation, and
the column that it writes. -/
def WordDone (s t : State) (ch n row w : Nat) (a : RunArgs) : Prop :=
  let u := (s.channel ch).unit n
  let u' := (t.channel ch).unit n
  let at_ := fun (bank col : Nat) (lc : Bool) => colPa ch row (2 * n + bank) ((col + if lc then u.lc else 0) % 32)
  let x := BitVec.ofNat 256 (leNat (s.mem.bytes (at_ (uFbank w) (uFcol w) (uFlc w)) 32))
  let X := if uXs w then u'.hl else u'.f
  let D := if uAop w = 0 then u.acc (uAd w)
    else BitVec.ofNat 256 (bankAlu w X.toNat (u.acc (uAy w)).toNat (u.acc (uAd w)).toNat a.p0 a.p1)
  let acc := fun (k : Nat) => if k = uAd w then D else u.acc k
  u'.f = (if uFop w = 1 ∨ uFop w = 2 then x else if uFop w = 3 then u.acc (uFacc w) else u.f)
  ∧ u'.hl = (if uFop w = 2 then x else u.hl)
  ∧ (∀ k, u'.acc k = if uWop w = 3 ∧ k = uWacc w then 0 else acc k)
  ∧ (uWop w ≠ 0 → leNat (t.mem.bytes (at_ (uWbank w) (uWcol w) (uWlc w)) 32) = (if uWop w = 1 then u'.f else acc (uWacc w)).toNat)

/-- A comparison of R145 between two signed integers, and between two float values: with a NaN only `.ne` holds (R184). -/
def intHolds (c : Nat) (x y : Int) : Bool :=
  match c with
  | 0 => decide (x = y) | 1 => decide (x ≠ y) | 2 => decide (x < y) | 3 => decide (x ≤ y) | 4 => decide (y < x) | _ => decide (y ≤ x)

def floatHolds (c : Nat) (x y : FV) : Bool :=
  if isNan x || isNan y then c == 1
  else match c with
    | 0 => leF x y && leF y x | 1 => !(leF x y && leF y x) | 2 => !leF y x | 3 => leF x y | 4 => !leF x y | _ => leF y x

/-- One element of `convert` (R303): rounded under RM, saturated from a float to an integer, and between integers wrapped or saturated. -/
def convertedEl (w x : Nat) : Nat :=
  let s := uDt w
  let d := uAux w
  let v := decodeF (fmtOf (dtTy s)) x
  let i := sgn (dtW s) x
  if dtFloat d then (roundTo (fmtOf (dtTy d)) (rmOf (uRm w)) (if dtFloat s then v else ofInt i 0 false)).1
  else if dtFloat s then (toIntTy true (dtW d) (rmOf (uRm w)) v).1
  else if uSat w then (max (-(2 : Int) ^ (dtW d - 1)) (min ((2 : Int) ^ (dtW d - 1) - 1) i) % (2 : Int) ^ dtW d).toNat
  else (i % (2 : Int) ^ dtW d).toNat

/-- A kind-4 entry of poisoned data has been posted for an interface: it names the place (R379). -/
def FoundPoison (s t : State) (vi : Nat) (e : FaultEntry) (place : Nat) : Prop :=
  ∃ l, (t.iface vi).faults = l ++ [e] ∧ l.length = (s.iface vi).faults.length ∧ (e.dws[0]?).map (fun w => bits w.toNat 0 8) = some 4
    ∧ e.dws[2]? = some (BitVec.ofNat 64 place)

end Sys2Proof.Machine

/-- The engine's `m.mma`: it starts once no other runs and stands at DONE 0 or where it stopped; a row whose operands it holds is written
whole, each element the sum of R79 or R80 from what it held, every other element staying, and the last row ends it; it stops before a row,
with `ROWPROG`, and starts that row again when it resumes (R79, R80, R230 to R234, R241). One row of a transfer between an accumulator
tile and the scratchpad: `m.acst` writes the row's elements as `.bf16` rounded to nearest even or as they are, and nothing else; `m.acld`
reads them, widened exactly; the next row follows, or the transfer ends. A record load reads its 64 bytes, or a capability with its tag,
once. The oldest deferred arrival is made when its conditions hold (R224, R226, R227, R236, R237, R240). Where the spec is open it follows
the model's choice: log entries 20 and 40. -/
def Obligations.MatrixEngine : Prop :=
  (∀ (s : State) (core : Nat) (b : Block) (q : Seq), s.block core = some b → b.seq = some q →
    (∀ m, q.running = none → q.accepted = some m → q.stop = false →
      ∃ t q' m', exec (.mmaStart core) s = .next t ∧ t.seq core = some q' ∧ q'.running = some m' ∧ q'.accepted = none ∧ q'.acc = q.acc
        ∧ m' = { m with stopped := false, bv := m'.bv, av := m'.av, missing := m'.missing })
    ∧ (∀ m bs r, q.running = some m → m.stopped = false → q.stop = false → m.pageHeld m.rows = false → m.bv = some bs →
      AMap.find? m.av m.rows = some r → (∀ x ∈ bs, x.bad = none ∧ x.badScale = none) → r.bad = none → r.badScale = none → q.accPoison = [] → bs.length ≤ 128 →
        ∃ t q', exec (.mmaRowWrite core 0) s = .next t ∧ t.seq core = some q'
          ∧ (∀ j y, bs[j]? = some y → q'.accEl m.acc m.rows j = if mInt m.ty
            then wrap 32 (sumI (sgn 32 (q.accEl m.acc m.rows j)) (r.ints m.ty m.ta.cols) (y.ints m.ty m.ta.cols))
            else sumF (q.accEl m.acc m.rows j) (r.values m.ta m.ty m.ta.cols) (y.values m.tb m.ty m.ta.cols) % 2 ^ 32)
          ∧ (∀ a i j, j < 128 → (a ≠ m.acc ∨ i ≠ m.rows ∨ bs.length ≤ j) → i < 128 → m.rows < 128 → q'.accEl a i j = q.accEl a i j)
          ∧ (m.rows + 1 = m.ta.rows → q'.running = none ∧ q'.rowprog = 0)
          ∧ (m.rows + 1 ≠ m.ta.rows → q'.running.map (fun m => (m.rows, m.acc)) = some (m.rows + 1, m.acc)))
    ∧ (∀ m, q.running = some m → m.stopped = false → (q.stop || m.pageHeld m.rows) = true →
      ∃ t q', exec (.mmaStop core) s = .next t ∧ t.seq core = some q' ∧ q' = { q with
        running := some (if m.handed then { m with stopped := true } else { m with stopped := true, bv := none, av := [] })
        rowprog := BitVec.ofNat 64 (m.rows % 128 + 2 ^ 8 + m.acc % 4 * 2 ^ 9) })
    ∧ (∀ m, q.running = some m → m.stopped = true → q.stop = false → m.pageHeld m.rows = false →
      ∃ t q' m', exec (.mmaResume core) s = .next t ∧ t.seq core = some q' ∧ q'.running = some m' ∧ q'.acc = q.acc
        ∧ m' = { m with stopped := false, bv := m'.bv, av := m'.av, missing := m'.missing }))
  ∧ (∀ (s : State) (core : Nat) (b : Block) (q : Seq), s.block core = some b → b.seq = some q →
    (∀ i x, q.xfers[i]? = some x → x.posted = [] → capKind x.tile.cap = 1 → q.accPoison = [] → x.tile.cols ≤ 128 →
      s.xferTakes core b x = true →
      let off := (x.tile.addr + x.row * x.tile.pitch) % Config.spBytes
      let es := if x.ty = 0x0A then 2 else 4
      (x.store = true → ∀ l ∈ linesOf off (x.tile.cols * es), s.landBefore b.vi b.name l x.seq = false) →
      (x.store = false → b.present off (x.tile.cols * es) = true ∧ s.poisonedAt (.sp core off) (x.tile.cols * es) = false) →
      s.xferSubWaits core b x off (x.tile.cols * es) = false → s.agentWaitsOver x.seq x.seq (.sp core off) (x.tile.cols * es) = false →
        ∃ t u q', exec (.accTransferRow core i) s = .next t ∧ t.block core = some u ∧ u.seq = some q'
          ∧ q'.xfers = (if x.row + 1 = x.tile.rows then q.xfers.filter fun y => y.seq != x.seq
            else q.xfers.map fun y => if y.seq = x.seq then { y with row := x.row + 1 } else y)
          ∧ (x.store = true → q'.acc = q.acc ∧
            let bytes := (upto 0 x.tile.cols).flatMap fun c => if x.ty = 0x0A
              then bytesOf 2 (roundTo (fmtOf .bf16) (.m .rne) (decodeF (fmtOf .f32) (q.accEl x.acc x.row c))).1
              else bytesOf 4 (q.accEl x.acc x.row c)
            ∀ a, (off ≤ a ∧ a < off + bytes.length → some (u.sp.byte a) = bytes[a - off]?)
              ∧ (¬(off ≤ a ∧ a < off + bytes.length) → u.sp.byte a = b.sp.byte a))
          ∧ (x.store = false → u.sp = b.sp ∧ ∀ c, c < x.tile.cols → q'.accEl x.acc x.row c =
            let v := leNat (((s.throughPath core (.sp core off) (b.sp.read off (x.tile.cols * es))).drop (es * c)).take es)
            if x.ty = 0x0A then (if isNan (decodeF (fmtOf .bf16) v) then 0x7FC00000 else v * 2 ^ 16) else v))
    ∧ (∀ i l, q.loads[i]? = some l → let n := if l.cap then 16 else 64
      s.spReadable core b l.off n l.seq = true → s.poisonedAt (.sp core l.off) n = false →
        ∃ t q', exec (.recordLoadComplete core i) s = .next t ∧ t.seq core = some q' ∧ q'.loads = q.loads.filter (fun y => y.seq != l.seq)
          ∧ (l.cap = true → (q'.tile l.code).cap = BitVec.ofNat 128 (leNat (b.sp.read l.off 16)) ∧ (q'.tile l.code).tag = b.sp.tags.contains (l.off / 16)
            ∧ (q'.tile l.code).dw = (q.tile l.code).dw)
          ∧ (l.cap = false → l.code < 8 → (q'.tile l.code).cap = (q.tile l.code).cap ∧
            ∀ j, j < 8 → (q'.tile l.code).dw[j]? = some (BitVec.ofNat 64 (leNat (b.sp.read (l.off + 8 * j) 8))))
          ∧ (l.cap = false → 8 ≤ l.code → ∀ j, j < 8 → (q'.record (l.code - 8))[j]? = some (BitVec.ofNat 64 (leNat (b.sp.read (l.off + 8 * j) 8)))))
    ∧ ∀ ts n rest, q.arrives = (ts, n) :: rest → q.mayArrive n = true →
        ∃ t u, exec (.matrixDeferredArrive core) s = .next t ∧ t.block core = some u ∧ u.turnstile ts = (b.arrive ts).turnstile ts
          ∧ u.seq.map Seq.arrives = some rest)

/-- `STACK_CORE_ISSUE` gives a stack core the next turn, and on that turn the first ready fragment of its lifted teams issues: the word at
its PC is decoded and executed (R50, R296). `BANK_COMMAND_ARRIVE` takes the oldest command of a team to its controller: micro-words go
into the shadow bank, a run and an accumulator access into the queues, a step to the team's run, a status word and a fence with nothing to
wait for are answered. `BANK_COMMAND_COMPLETE` writes a result, and BANKCNT falls (R52, R296, R300, R315, R316, R318, R420). That
`STACK_CORE_ISSUE` only puts the stack core's turn on the agenda is the model's choice (log entry 1), and so are the fetch and the pick of
that turn where the spec leaves them open (log entries 10 and 16), and the arrival and completion of commands (log entry 57). -/
def Obligations.BankCommands : Prop :=
  (∀ (s : State) (stack n : Nat), exec (.stackCoreIssue stack n) s
    = .next { s with agenda := .stackCore (4 * (stack % 16) + n % 4) :: s.agenda })
  ∧ (∀ (s : State) (stack n core team csn : Nat) (rest : List (Nat × Nat × Nat)) (b : Block) (tm : Team) (f : Frag) (w w2 : Word),
    let sc := 4 * (stack % 16) + n % 4
    let i := decodeTeam w (if wordLen w = 16 then w2 else 0)
    (s.stackCore sc).outOfService = false → stackOrder s sc = (core, team, csn) :: rest → s.block core = some b → s.team core team = some tm →
    tm.frag csn = some f → fragBlocked b tm team f = false → s.wordAt core tm b.asid f.pc w →
    (wordLen w = 16 → s.wordAt core tm b.asid (f.pc + 8) w2) →
    (∀ t, exec i { s with acting := .frag core team csn w } = .next t → { t with acting := s.acting } ≠ s) →
      ∃ s1, exec (.stackCoreIssue stack n) s = .next s1 ∧ step s1 = exec i { s with acting := .frag core team csn w })
  ∧ (∀ (s : State) (core team : Nat) (tm : Team) (q : BankCmd) (rest : List BankCmd), s.team core team = some tm → tm.cmds = q :: rest →
    (s.channel q.ch).starting = false →
    (∃ p dst, tm.pendOf q.seq = some p ∧ p.kind = .bank q.ch dst none) →
      let c := s.channel q.ch
      let gone := fun (t : State) => exec (.bankCommandArrive core team) s = .next t ∧ (t.team core team).map Team.cmds = some rest
      let unit := (lowest 16 0 q.units).getD 0
      (∀ xs, q.req = .ucld xs → ∃ t, gone t ∧ t.bankResult core team q.seq = some (some [])
        ∧ t.channel q.ch = { c with shadow := xs.foldl (fun m x => AMap.set 0 m x.1 x.2) c.shadow })
      ∧ ((q.run?.isSome ∨ (∃ a ls, q.req = .accRd a ls) ∨ ∃ a vs, q.req = .accWr a vs) →
        ∃ t, gone t ∧ t.channel q.ch = { c with queue := c.queue ++ [q] })
      ∧ (∀ n r a, q.req = .step n → c.stepRun core team unit = some r → r.run? = some a →
        if a.step then ∃ t, gone t ∧ t.channel q.ch = { c with steps := c.steps ++ [{ seq := q.seq, core, team, run := r.seq, left := n }] }
        else ∃ t, gone t ∧ t.channel q.ch = c ∧ t.bankResult core team q.seq = some (some []))
      ∧ (q.req = .stat → ∃ t, gone t ∧ t.channel q.ch = c
        ∧ t.bankResult core team q.seq = some (some [(0, c.statWord core team unit)]))
      ∧ (q.req = .fence → if c.writtenRows = [] then ∃ t, gone t ∧ t.channel q.ch = c ∧ t.bankResult core team q.seq = some (some [])
        else ∃ t, gone t ∧ t.channel q.ch = { c with fences := c.fences ++ [{ seq := q.seq, core, team, rows := c.writtenRows }] }))
  ∧ ∀ (s : State) (core team ch : Nat) (tm : Team) (p : Pend) (dst : Option RegRef) (res : List (Nat × Word)), s.team core team = some tm →
      readyBank tm.pend = some p → p.kind = .bank ch dst (some res) →
        exec (.bankCommandComplete core team) s = .next (s.modTeam core team fun tm =>
          (match dst, res with
            | some (.v r), xs => tm.landV p r xs
            | some (.s r), (_, w) :: _ => tm.landS p r w
            | _, _ => tm).endPend p)

/-- `MICROPROGRAM_SWAP` makes the shadow bank active while no unit is claimed. `RUN_START` of the command that heads its units' queues: a
run whose program has no fault claims its units, which stand at ENTRY and ROW0, with accumulators of 0 unless KEEP; `b.acc` reads and
writes the accumulators. `RUN_END` unclaims them and completes the run (R300, R305, R310, R317, R404). The rows of a run: it activates its
next row, with its units at ENTRY, unless another agent owns a line of it (R113); its home slices then hold no copy of the row (R307). A
micro-word, one delivered step in step mode (R306), changes its own units as R304 says and, in memory, only columns of its row; after a
row-end the row is released whole, and the run ends or stands at its arbitration point before the next one (R304, R305, R307). What a
micro-word computes (R302, R303): of each lane the sum, the difference, the product, the scaled value, the larger, the smaller, the
comparison or the logic of X and `ba`AY, as a float or as an integer that wraps or saturates; the lanes of X combined; the lanes
converted; `ba`AD stays without an operation. That a taken row leaves the run at an arbitration point is the model's choice: log entry 34. Where else
the spec is open it follows the model's choice: log entries 33 and 35. -/
def Obligations.RunsExecute : Prop :=
  ((∀ (s : State) (ch : Nat), (s.channel ch).runs = [] → (s.channel ch).activeBank ≠ (s.channel ch).shadow →
      exec (.microprogramSwap ch) s = .next (s.modChannel ch fun c => { c with activeBank := c.shadow }))
    ∧ (∀ (s : State) (ch i : Nat) (q : BankCmd), (s.channel ch).queue[i]? = some q → (s.channel ch).heads i q = true →
      (s.channel ch).claims q.units = false →
        let c := s.channel ch
        let left := c.queue.filter fun x => x.seq != q.seq
        (∀ a, q.run? = some a → c.activeBank = c.shadow → runFault c.activeBank a.entry = none →
          ∃ t r, exec (.runStart ch i) s = .next t ∧ (t.channel ch).queue = left ∧ (t.channel ch).runs = c.runs ++ [r]
            ∧ r.cmd = q ∧ r.row = a.row0 ∧ r.active = false ∧ r.ended = false ∧ r.free = !a.step
            ∧ (∀ n, n < 16 → bit q.units n = true → let u := (t.channel ch).unit n
              u.f = 0 ∧ u.hl = 0 ∧ u.lc = 0 ∧ u.upc = a.entry ∧ u.rowoff = a.row0 ∧ ∀ k, u.acc k = if a.keep then (c.unit n).acc k else 0)
            ∧ ∀ n, bit q.units n = false ∨ 16 ≤ n → (t.channel ch).unit n = c.unit n)
        ∧ (∀ a pc reason, q.run? = some a → c.activeBank = c.shadow → runFault c.activeBank a.entry = some (pc, reason) →
          ∃ t, exec (.runStart ch i) s = .next t ∧ (t.channel ch).queue = left ∧ (t.channel ch).runs = c.runs ∧ (t.channel ch).units = c.units
            ∧ t.mem = s.mem ∧ Posted s t q.vi 13 0x38)
        ∧ (∀ acc ls, q.req = .accRd acc ls → (∀ n, (c.unit n).pba = []) → ∃ t, exec (.runStart ch i) s = .next t ∧ (t.channel ch).queue = left
          ∧ (s.bankResult q.core q.team q.seq = some none → t.bankResult q.core q.team q.seq = some (some (ls.map fun l => (l,
            match (unitsOf q.units)[l / 4]? with
            | some n => BitVec.ofNat 64 (bits ((c.unit n).acc acc).toNat (64 * (l % 4)) 64)
            | none => 0)))))
        ∧ (∀ acc vs, q.req = .accWr acc vs → (vs.map Prod.fst).Nodup →
          ∃ t, exec (.runStart ch i) s = .next t ∧ (t.channel ch).queue = left
            ∧ ∀ x ∈ vs, ∀ n, (unitsOf q.units)[x.1 / 4]? = some n → bits (((t.channel ch).unit n).acc acc).toNat (64 * (x.1 % 4)) 64 = x.2.toNat))
    ∧ ∀ (s : State) (ch i : Nat) (r : Run), (s.channel ch).runs[i]? = some r → r.ended = true →
        ∃ t, exec (.runEnd ch i) s = .next t ∧ (t.channel ch).runs = (s.channel ch).runs.filter (fun x => x.cmd.seq != r.cmd.seq)
          ∧ (t.channel ch).units = (s.channel ch).units ∧ (t.channel ch).steps = (s.channel ch).steps.filter (fun x => x.run != r.cmd.seq)
          ∧ t.mem = s.mem ∧ ((t.channel ch).runs = [] → (t.channel ch).order = [] ∧ (t.channel ch).access = [])
          ∧ (s.bankResult r.cmd.core r.cmd.team r.cmd.seq = some none → t.bankResult r.cmd.core r.cmd.team r.cmd.seq = some (some [])))
  ∧ (∀ (s : State) (ch i : Nat) (r : Run) (a : RunArgs), (s.channel ch).runs[i]? = some r →
    r.cmd.run? = some a → ((s.channel ch).runs.map fun x => x.cmd.seq).Nodup →
      let c := s.channel ch
      (r.active = false → r.ended = false → r.atPoint = false → r.suspended = false → c.window = false →
        (s.rowTaken ch r = true → ∃ t, exec (.rowActivate ch i) s = .next t ∧ t.mem = s.mem ∧ (t.channel ch).runs[i]? = some { r with atPoint := true })
        ∧ (s.rowTaken ch r = false → (∀ x ∈ c.access, x.2 / 8 ∈ r.lines ch → s.wants x.1 x.2 = false) →
          ∃ t, exec (.rowActivate ch i) s = .next t ∧ t.mem = s.mem
            ∧ (∀ l ∈ r.lines ch, (∀ u, u / 8 = l → t.l2Holds (32 * u) = false) ∧ ∀ x ∈ (t.channel ch).access, x.2 / 8 ≠ l)
            ∧ (t.channel ch).runs[i]? = some { r with active := true, rowEnd := false, wrote := false }
            ∧ ∀ n, n < 16 → (t.channel ch).unit n = if bit r.cmd.units n then { c.unit n with upc := a.entry, lc := 0, rowoff := r.row } else c.unit n))
      ∧ (r.active = true → r.rowEnd = false → r.free = false → (∀ x ∈ c.steps, x.run ≠ r.cmd.seq) → exec (.microwordExecute ch i) s = .next s)
      ∧ (∀ n0, r.active = true → r.rowEnd = false → (r.free = true ∨ ∃ x ∈ c.steps, x.run = r.cmd.seq) → (unitsOf r.cmd.units).head? = some n0 →
        let w := (AMap.get 0 c.activeBank (c.unit n0).upc).toNat
        ∃ t, exec (.microwordExecute ch i) s = .next t
          ∧ (t.channel ch).runs[i]? = some { r with
              rowEnd := decide (2 ≤ uCtl w), last := uCtl w == 3 || decide (a.row0 + a.nr ≤ r.row + 1), wrote := r.wrote || uWop w != 0 }
          ∧ (∀ n, n ∉ unitsOf r.cmd.units → (t.channel ch).unit n = c.unit n)
          ∧ (∀ n ∈ unitsOf r.cmd.units, ((t.channel ch).unit n).upc = match uCtl w with
              | 0 => ((c.unit n).upc + 1) % 256
              | 1 => if (c.unit n).lc + 1 < a.ln then ((c.unit n).upc + 256 - uBack w) % 256 else ((c.unit n).upc + 1) % 256
              | _ => (c.unit n).upc)
          ∧ (∀ n ∈ unitsOf r.cmd.units, ((t.channel ch).unit n).lc
              = if uCtl w = 1 then (if (c.unit n).lc + 1 < a.ln then (c.unit n).lc + 1 else 0) else (c.unit n).lc)
          ∧ (r.free = true → (t.channel ch).steps = c.steps)
          ∧ (∀ x, r.free = false → c.steps.find? (fun y => y.run == r.cmd.seq) = some x → (c.steps.map StepCmd.seq).Nodup →
              (t.channel ch).steps = (c.steps.map fun y => if y.seq = x.seq then { y with left := y.left - 1 } else y).filter (fun y => y.left != 0)
              ∧ (x.left = 1 → s.bankResult x.core x.team x.seq = some none → t.bankResult x.core x.team x.seq = some (some [])))
          ∧ (∀ n ∈ unitsOf r.cmd.units, WordDone s t ch n (r.cmd.rowBase + r.row) w a)
          ∧ (uWop w = 0 → t.mem = s.mem)
          ∧ ∀ x, t.mem.byte x ≠ s.mem.byte x → ∃ n ∈ unitsOf r.cmd.units,
              let pa := colPa ch (r.cmd.rowBase + r.row) (2 * n + uWbank w) ((uWcol w + if uWlc w then (c.unit n).lc else 0) % 32)
              pa ≤ x ∧ x < pa + 32)
      ∧ (r.active = true → r.rowEnd = true → ∃ t, exec (.rowPrecharge ch i) s = .next t ∧ t.mem = s.mem
          ∧ (r.last = true → (t.channel ch).runs[i]? = some { r with active := false, ended := true })
          ∧ (r.last = false → ((t.channel ch).runs[i]?).map (fun x => (x.active, x.atPoint, x.ended, x.row)) = some (false, true, r.ended, r.row + 1))))
  ∧ (∀ (w X Y D p0 p1 k : Nat), uDt w < 4 → k < dtLanes (uDt w) →
    let n := dtW (uDt w)
    let F := fmtOf (dtTy (uDt w))
    let rm := rmOf (uRm w)
    let x := bits X (n * k) n
    let y := bits Y (n * k) n
    let d := bits D (n * k) n
    let r := bits (bankAlu w X Y D p0 p1) (n * k) n
    let int := fun (i : Int) => if uSat w then (saturate true n i).1 else wrap n i
    (uAop w = 0 → bankAlu w X Y D p0 p1 = D)
    ∧ (uAop w = 1 → r = (if dtFloat (uDt w) then (opAdd F rm x y).1 else int (sgn n x + sgn n y)) % 2 ^ n)
    ∧ (uAop w = 2 → r = (if dtFloat (uDt w) then (opSub F rm x y).1 else int (sgn n x - sgn n y)) % 2 ^ n)
    ∧ (uAop w = 3 → r = (if dtFloat (uDt w) then (opMul F rm x y).1 else int (sgn n x * sgn n y)) % 2 ^ n)
    ∧ (uAop w = 4 → r = (if dtFloat (uDt w) then (opFma F rm x y d).1 else int (sgn n x * sgn n y + sgn n d)) % 2 ^ n)
    ∧ (uAop w = 5 → let p := (if uPs w then p1 else p0) % 2 ^ n
        r = (if dtFloat (uDt w) then (opMul F rm x p).1 else int (sgn n x * sgn n p)) % 2 ^ n)
    ∧ (uAop w = 6 → r = if dtFloat (uDt w) then FloatPick F true x y % 2 ^ n else if sgn n x < sgn n y then y else x)
    ∧ (uAop w = 7 → r = if dtFloat (uDt w) then FloatPick F false x y % 2 ^ n else if sgn n y < sgn n x then y else x)
    ∧ (uAop w = 11 → uAux w < 6 → r = if (if dtFloat (uDt w) then floatHolds (uAux w) (decodeF F x) (decodeF F y)
          else intHolds (uAux w) (sgn n x) (sgn n y)) = true then 2 ^ n - 1 else 0)
    ∧ (uAop w = 13 → uAux w < 3 → r = if k ≠ 0 then 0 else
        let xs := (List.range (dtLanes (uDt w))).map fun j => bits X (n * j) n
        xs.tail.foldl (fun c v =>
          if uAux w = 0 then (if dtFloat (uDt w) then (opAdd F rm c v).1 % 2 ^ n else (c + v) % 2 ^ n)
          else if dtFloat (uDt w) then FloatPick F (uAux w == 1) c v % 2 ^ n
          else if uAux w = 1 then (if sgn n c < sgn n v then v else c) else if sgn n v < sgn n c then v else c) (xs.headD 0))
    ∧ (uAop w = 14 → uAux w < 4 → uPart w * min (dtLanes (uDt w)) (dtLanes (uAux w)) < max (dtLanes (uDt w)) (dtLanes (uAux w)) →
        let m := min (dtLanes (uDt w)) (dtLanes (uAux w))
        let nd := dtW (uAux w)
        ∀ j, j < m →
          let src := if dtLanes (uDt w) > m then uPart w * m + j else j
          let dst := if dtLanes (uAux w) > m then uPart w * m + j else j
          bits (bankAlu w X Y D p0 p1) (nd * dst) nd = convertedEl w (bits X (n * src) n) % 2 ^ nd)
    ∧ (uAop w = 14 → uAux w < 4 → dtLanes (uDt w) < dtLanes (uAux w) → ∀ j, j < dtLanes (uAux w) → j / dtLanes (uDt w) ≠ uPart w →
        bits (bankAlu w X Y D p0 p1) (dtW (uAux w) * j) (dtW (uAux w)) = bits D (dtW (uAux w) * j) (dtW (uAux w)))
    ∧ (uAop w = 8 → r = x &&& y) ∧ (uAop w = 9 → r = x ||| y) ∧ (uAop w = 10 → r = x ^^^ y) ∧ (uAop w = 12 → r = x))

/-- Where a run gives way (R308): at its arbitration point it goes on, or suspends while a window is open or a refresh or an ordinary
access waits; a window opens when every run of the channel is suspended and something waits, serves at most 32 column commands, of reads and of
write-backs, and closes when none waits or 32 are served; a refresh that falls due while a run is in progress waits for one. Where the spec is open it follows the
model's choice: log entry 34. -/
def Obligations.RunsGiveWay : Prop := ∀ (s : State) (ch : Nat),
  let c := s.channel ch
  (∀ i r, c.runs[i]? = some r → r.atPoint = true → (c.runs.map fun x => x.cmd.seq).Nodup →
    let waits := c.window || c.refresh || !c.order.isEmpty
    ∃ t, exec (.arbitrationPoint ch i) s = .next t ∧ (t.channel ch).runs[i]? = some { r with atPoint := false, suspended := waits || r.suspended }
      ∧ (t.channel ch).order = c.order ∧ (t.channel ch).due = if waits && !c.window then c.order.length else c.due)
  ∧ (c.window = false → c.runs ≠ [] → (∀ r ∈ c.runs, r.suspended = true) →
    exec (.arbitrationWindowOpen ch) s = .next (s.modChannel ch fun c => { c with window := true, served := 0, refresh := false }))
  ∧ (c.window = true → (c.due = 0 ∨ c.order = [] ∨ 32 ≤ c.served ∨ c.serves = false) → ∃ t, exec (.arbitrationWindowClose ch) s = .next t
    ∧ t.channel ch = { c with window := false, due := 0, runs := c.runs.map fun r => { r with suspended := false } })
  ∧ (c.runs ≠ [] → c.window = false → exec (.refreshDue ch) s = .next (s.modChannel ch fun c =>
      { c with refresh := true, runs := c.runs.map fun r => if r.atPoint || r.suspended || r.ended then r else { r with free := true } }))
  ∧ ∀ agent no u rest, c.order = (agent, no, u) :: rest → c.window = true → c.due ≠ 0 → c.served + c.fill ≤ 32 →
      (∀ k v, (k, v) ≠ (agent, u) → exec (.bankOrdinaryAccess ch k v) s = .next s)
      ∧ (agent < wbAgent 0 → exec (.bankOrdinaryAccess ch agent u) s = .next (s.modChannel ch fun c =>
        if s.l2Holds (32 * u) then { c with order := rest, due := c.due - 1 }
        else { c with order := rest, due := c.due - 1, served := c.served + 1, access := c.access ++ [(agent, u)] }))
      ∧ (wbAgent 0 ≤ agent → s.l2Dirty (32 * u) = false →
        exec (.bankOrdinaryAccess ch agent u) s = .next (s.modChannel ch fun c => { c with order := rest, due := c.due - 1 }))
      ∧ (wbAgent 0 ≤ agent → s.l2Dirty (32 * u) = true → ∃ t, exec (.bankOrdinaryAccess ch agent u) s = .next t ∧ t.mem = s.mem
        ∧ t.l2Dirty (32 * u) = false ∧ t.channel ch = { c with order := rest, due := c.due - 1, served := c.served + 1 })

/-- An error that cannot be corrected poisons the storage unit that holds it and changes no byte, be it of memory, a scratchpad, a
register or an accumulator; an L1 loses the line instead; a set body in the set store breaks its set, as a latch error of its subarray
does, with a kind-8 entry. A poisoned unit that is found without being consumed gives a kind-4 entry, of whichever interface, that says
where it was; the write-back of a sector waits while a run holds its channel (R308). A stack core whose parity fails leaves service (R370, R371, R399, R410). `HALT_REQUEST` reaches a team: outside handler mode
it will halt it, in it the request is held unless its instruction was the handler's. `TEAM_HALT` of a request that is not held halts the
team with its report, and abandons the block's turnstiles. `WATCHDOG_EXPIRY` on the 2^32-th counted clock requests a halt with WDOG (R347,
R349, R352, R372, R386). Where the spec is open it follows the model's choice: log entries 36 and 54. -/
def Obligations.ErrorsAndHalts : Prop :=
  ((∀ (s : State) (pa : Nat), ∃ t, exec (.eccUncorrectable (.mem pa)) s = .next t ∧ t = { s with mem := t.mem } ∧ t.mem.cells = s.mem.cells
      ∧ t.mem.tags = s.mem.tags ∧ ∀ u, u ∈ t.mem.poison ↔ u = pa / 32 ∨ u ∈ s.mem.poison)
    ∧ (∀ (s : State) (core off : Nat) (b : Block), s.block core = some b → ∃ t u, exec (.eccUncorrectable (.sp core off)) s = .next t
      ∧ t.block core = some { b with sp := { b.sp with poison := u } } ∧ ∀ x, x ∈ u ↔ x = off / 8 ∨ x ∈ b.sp.poison)
    ∧ (∀ (s : State) (core pa : Nat), ∃ t, exec (.eccUncorrectable (.l1 core pa)) s = .next t ∧ t.mem = s.mem
      ∧ (t.core core).l1 = (s.core core).l1.filter fun x => x.1 / 8 != pa / 256)
    ∧ (∀ (s : State) (core team reg lane : Nat) (tm : Team), s.team core team = some tm →
      ∃ t v, exec (.eccUncorrectable (.vreg core team reg lane)) s = .next t ∧ t.team core team = some { tm with vpoison := v }
        ∧ ∀ x, x ∈ v ↔ x = (reg, lane) ∨ x ∈ tm.vpoison)
    ∧ (∀ (s : State) (core team r : Nat) (tm : Team), s.team core team = some tm →
      (∀ u ref, (u = ErrUnit.sreg core team r ∧ ref = RegRef.s r) ∨ (u = ErrUnit.creg core team r ∧ ref = RegRef.c r)
          ∨ (u = ErrUnit.preg core team r ∧ r ≠ 7 ∧ ref = RegRef.p r) →
        ∃ t v, exec (.eccUncorrectable u) s = .next t ∧ t.team core team = some { tm with rpoison := v } ∧ ∀ x, x ∈ v ↔ x = ref ∨ x ∈ tm.rpoison)
      ∧ exec (.eccUncorrectable (.preg core team 7)) s = .next s)
    ∧ (∀ (s : State) (core a i j : Nat) (b : Block) (q : Seq), s.block core = some b → b.seq = some q → a < 4 → i < 128 → j < 128 →
      ∃ t v, exec (.eccUncorrectable (.acc core a i j)) s = .next t ∧ t.seq core = some { q with accPoison := v }
        ∧ ∀ x, x ∈ v ↔ x = (16384 * a + 128 * i + j) / 2 ∨ x ∈ q.accPoison)
    ∧ (∀ (s : State) (slice hdr : Nat) (o : SetObj), s.setAt slice hdr = some o → o.inStore = true → isFar o.bytes = false →
      (∃ t, exec (.eccUncorrectable (.setStore slice hdr)) s = .next t ∧ t.setAt slice hdr = some { o with broken := true })
      ∧ ∀ sub, ∃ t, exec (.eccUncorrectable (.setLatch slice sub hdr)) s = .next t ∧ t.setAt slice hdr = some { o with broken := true }
          ∧ Posted s t (o.asid / 16) 8 0x35)
    ∧ (∀ (s : State) (pa : Nat), pa / 32 ∈ s.mem.poison →
      (s.l2Dirty pa = false ∨ (s.channel (channelOf pa)).runs = [] → ∃ t vi e, exec (.poisonWriteback (.mem pa)) s = .next t ∧ t.mem = s.mem
        ∧ FoundPoison s t vi e (if s.l2Dirty pa then 1 else 0) ∧ e.dws[1]? = some (BitVec.ofNat 64 (pa / 32 * 32)))
      ∧ (s.l2Dirty pa = true → (s.channel (channelOf pa)).runs ≠ [] → ∃ t, exec (.poisonWriteback (.mem pa)) s = .next t ∧ t.mem = s.mem
        ∧ t.ifaces = s.ifaces ∧ ∃ no, (wbAgent (homeSlice pa), no, pa / 32) ∈ (t.channel (channelOf pa)).order))
    ∧ (∀ (s : State) (core off : Nat) (b : Block), s.block core = some b → off / 8 ∈ b.sp.poison →
      ∃ t e, exec (.poisonWriteback (.sp core off)) s = .next t ∧ t.mem = s.mem ∧ FoundPoison s t b.vi e 2)
    ∧ (∀ (s : State) (slice hdr : Nat) (o : SetObj), s.setAt slice hdr = some o → o.inStore = true → isFar o.bytes = false → o.broken = true →
      ∃ t e, exec (.poisonWriteback (.setStore slice hdr)) s = .next t ∧ t.mem = s.mem ∧ FoundPoison s t (o.asid / 16) e 3)
    ∧ ∀ (s : State) (stack n : Nat), let sc := 4 * (stack % 16) + n % 4
        (s.stackCore sc).outOfService = false → ∃ t, exec (.stackCoreParityFail stack n) s = .next t ∧ (t.stackCore sc).outOfService = true
          ∧ t.mem = s.mem)
  ∧ (∀ (s : State) (core team : Nat) (b : Block) (tm : Team), s.block core = some b → s.team core team = some tm →
    (∀ r rest, tm.haltReqs = r :: rest → r.reached = none → ∃ t, exec (.haltRequest core team) s = .next t
      ∧ t.team core team = some { tm with haltReqs := { r with reached := some (tm.handler && !r.hnd) } :: rest })
    ∧ (∀ r rest, tm.haltReqs = r :: rest → r.reached = some false → tm.halted = false →
      ∃ t tm' u, exec (.teamHalt core team) s = .next t ∧ t.team core team = some tm' ∧ tm'.halted = true
        ∧ tm'.trapcause = causeWord r.code 0 r.aux r.lane r.hnd r.stack ∧ tm'.trappc = BitVec.ofNat 64 r.pc ∧ tm'.trapword = r.word
        ∧ tm'.s = tm.s ∧ tm'.v = tm.v ∧ tm'.p = tm.p ∧ tm'.c = tm.c
        ∧ t.block core = some u ∧ (∀ n, n < 16 → (u.turnstile n).abandoned = true) ∧ t.mem = s.mem)
    ∧ (tm.halted = false → Config.wdMax < tm.wd → ∃ t tm' r, exec (.watchdogExpiry core team) s = .next t ∧ t.team core team = some tm'
        ∧ tm' = { tm with wd := Config.wdMax, haltReqs := tm.haltReqs ++ [r] } ∧ r.code = 0x09 ∧ r.reached = none ∧ r.stack = tm.lifted))

/-- An in-field test (R411 to R416): it falls due; its request reaches the blocks of its cluster; it starts on a cluster without blocks,
or once every block there is at a safe point, when it saves them; after 2^22 clocks it ends: the cores that failed leave service, every
interface that had a block there gets a kind-12 entry with the result and the failed cores, and the next test falls due TI clocks after
it; one that has not started after 2^30 clocks is skipped. Where the spec is open it follows the model's choice: log entry 49. -/
def Obligations.TestsRun : Prop := ∀ (s : State) (c : Nat),
  let due := ((s.cluster c).nextTest + 1) * s.image.ti + 2 ^ 26 * c
  (s.power = .booted → c < Config.clusters → (s.cluster c).test = none → s.passed due 0 = true →
    ∃ t x, exec (.testDue c) s = .next t ∧ (t.cluster c).test = some x ∧ x.due = due ∧ x.requested = none ∧ x.run = none
      ∧ ∀ vi, vi ∈ x.interfaces ↔ ∃ k b, 4 * c ≤ k ∧ k < 4 * c + 4 ∧ s.block k = some b ∧ b.vi = vi)
  ∧ ∀ x, (s.cluster c).test = some x →
      let tested := fun (t : State) (result failed : Nat) => x.interfaces.Nodup → ∀ vi ∈ x.interfaces,
        ∃ e, (t.iface vi).faults[(s.iface vi).faults.length]? = some e ∧ (e.dws[0]?).map (fun w => bits w.toNat 0 16) = some 12
          ∧ e.dws[1]? = some (BitVec.ofNat 64 c) ∧ e.dws[2]? = some (BitVec.ofNat 64 (result + 16 * failed))
      (x.requested = none → ((clusterCores c).all fun k => (s.block k).all Block.testable) = true →
        ∃ t, exec (.testRequest c) s = .next t ∧ (t.cluster c).test = some { x with requested := some s.clock }
          ∧ ∀ k b, s.block k = some b → 4 * c ≤ k → k < 4 * c + 4 → b.fused = false → (t.block k).map Block.testReq = some true)
      ∧ (x.requested.isSome = true → x.run = none → (∀ k, 4 * c ≤ k → k < 4 * c + 4 → s.block k = none) →
        ∃ t, exec (.testRun c) s = .next t ∧ (t.cluster c).test = some { x with run := some s.clock } ∧ t.mem = s.mem)
      ∧ (x.requested.isSome = true → x.run = none →
        let ks := s.testBlocks c
        (∀ k ∈ ks, ∀ b, s.block k = some b → b.atSafePoint = true) →
        (∀ vi, (ks.filter fun k => (s.block k).any fun b => b.vi == vi).length ≤ (s.freeSaves vi).length
          ∧ ∀ i, i < (s.iface vi).saveslots → paOk (s.saveSlot vi i) = true ∧ paOk (s.saveSlot vi i + 2 ^ 22 - 1) = true) →
          ∃ t, exec (.testRun c) s = .next t ∧ (t.cluster c).test = some { x with run := some s.clock }
            ∧ ∀ k ∈ ks, ∀ b, s.block k = some b → t.block k = none ∧ ∃ y ∈ t.saved, y.core = k ∧ y.vi = b.vi ∧ y.path = (s.core k).path
              ∧ y.block = { b with heldClocks := s.heldBy b, request := none, testReq := false, overdue := false })
      ∧ (x.requested.isSome = true → x.run = none → (∃ k ∈ s.testBlocks c, ∃ b, s.block k = some b ∧ b.atSafePoint = false) →
        exec (.testRun c) s = .next s)
      ∧ (∀ from_ failed, x.run = some from_ → s.passed from_ (2 ^ 22) = true →
        ∃ t, exec (.testComplete c failed) s = .next t ∧ (t.cluster c).test = none ∧ (t.cluster c).nextTest = (s.cluster c).nextTest + 1
          ∧ (∀ k, (t.core k).outOfService = ((s.core k).outOfService || decide (k / 4 = c ∧ bit failed.toNat (k % 4) = true)))
          ∧ tested t (if failed = 0 then 0 else 2) failed.toNat)
      ∧ (x.run = none → s.passed x.due Config.testSkipClocks = true →
        ∃ t, exec (.testSkip c) s = .next t ∧ (t.cluster c).test = none ∧ (t.cluster c).nextTest = (s.cluster c).nextTest + 1
          ∧ tested t 1 0)

/-! ## The host -/

namespace Sys2Proof.Machine

/-- The host's write to an interface takes effect at once: the host reaches it, and it is not re-synchronising (R324, R330, R333). -/
def State.writable (s : State) (vi : Nat) : Prop :=
  s.hostReach vi = true ∧ (s.iface vi).resync = none ∧ ∀ h ∈ (s.iface vi).held, h.busy = false

/-- A write to a register waits for its slot or space (R327). -/
def State.waitsFor (s : State) (vi off sel : Nat) : Bool := (s.iface vi).held.any fun h => h.off == off && h.sel == sel && !h.busy

/-- The write has been kept for later. -/
def Kept (s : State) (ev : Instr) (vi off : Nat) (val : Word) (sel : Nat) (busy : Bool) : Prop :=
  ∃ t, exec ev s = .next t ∧ (t.iface vi).held = (s.iface vi).held ++ [{ off := off, val := val, sel := sel, busy := busy }] ∧ t.spaces = s.spaces ∧ t.slots = s.slots
    ∧ t.mem = s.mem

/-- The header of a slot's queue can be read at a physical address, and its page's bits stand (R208, R327). -/
def State.readsHeader (s : State) (vi sel pa : Nat) : Prop :=
  let h := (AMap.get 0 (s.iface vi).qhdr sel).toNat
  let va := bits h 6 51 * 64
  sel < 32 ∧ s.poisonedAt (.pa pa) 32 = false ∧ (isHost pa = true → s.linkUp = true) ∧ (isHost pa = false → s.mayFill pa 32 = true)
    ∧ s.mayWalk (16 * vi + bits h 60 4) va = true ∧ (s.linkUp = false → ∀ a ∈ s.tables (16 * vi + bits h 60 4) va, isHost a = false)
    ∧ ∃ lv fr w d path, s.walk (16 * vi + bits h 60 4) va = .leaf lv fr w d path ∧ pa = fr + va % 2 ^ pageBits lv
      ∧ s.setAD (16 * vi + bits h 60 4) path w = s

/-- A queue has been registered in its slot from the header at a physical address: stopped, with a kind-3 entry, where the header has a reserved
bit (R208, R327). -/
def Registered (s t : State) (vi sel : Nat) (priv : Bool) (pa : Nat) : Prop :=
  let h := (AMap.get 0 (s.iface vi).qhdr sel).toNat
  let d2 := s.dw (pa + 16)
  let d3 := s.dw (pa + 24)
  let q := t.slot (32 * vi + sel)
  q.registered = true ∧ q.hdr = bits h 6 51 * 64 ∧ q.asid = 16 * vi + bits h 60 4 ∧ q.priv = priv
    ∧ q.quantum = (s.slot (32 * vi + sel)).quantum ∧ q.head = none ∧ q.started = none ∧ q.launches = []
    ∧ q.stopped = !headerOk d2 d3
    ∧ (headerOk d2 d3 = true → q.logslots = bits d2 0 5 ∧ q.ph = bit d2 8 ∧ q.prio = bits d2 9 2 ∧ q.slotbase = bits d3 6 51 * 64
        ∧ q.ridx = s.dw (pa + 8) ∧ q.d = 0)
    ∧ (headerOk d2 d3 = false → Posted s t vi 3 0x01)

end Sys2Proof.Machine

/-- The registers of a control page take what is written, the bits that they have (R326); `ASROOT`, `WINDOW` and `QHDR` of a space or slot
in use keep the write for later (R327); every write, and a second GO, is kept while RSBUSY is set or earlier writes still wait for it
(R330); a write to an offset that names no register does nothing. That after a write of `ASGEN` no core TLB keeps an entry of an older
generation is the model's choice: log entry 51. Where else the spec is open it follows the model's choice: log entries 46, 47 and 50. -/
def Obligations.HostWrites : Prop := ∀ (s : State) (vi : Nat) (val : Word),
  (s.hostReach vi = true → ((s.iface vi).resync.isSome = true ∨ ∃ h ∈ (s.iface vi).held, h.busy = true) →
    Kept s (.victlWrite vi val) vi 0x008 val 0 true ∧ Kept s (.asrootWrite vi val) vi 0x020 val 0 true
      ∧ Kept s (.windowWrite vi val) vi 0x030 val 0 true ∧ Kept s (.qhdrWrite vi val) vi 0x048 val 0 true
      ∧ Kept s (.qquantWrite vi val) vi 0x050 val 0 true ∧ Kept s (.frridxWrite vi val) vi 0x078 val 0 true
      ∧ Kept s (.prridxWrite vi val) vi 0x090 val 0 true ∧ Kept s (.resync vi val) vi 0x0B0 val 0 true
      ∧ (∀ off, off % 8 = 0 → Kept s (.controlRegWrite vi off val) vi off val 0 true)
      ∧ Kept s (.qcmdRegister vi false) vi 0x058 1 0 true ∧ Kept s (.qcmdRegister vi true) vi 0x058 5 0 true
      ∧ Kept s (.qcmdUnregister vi) vi 0x058 2 0 true)
  ∧ (s.writable vi →
    let i := s.iface vi
    let v := val.toNat
    let sets := fun (ev : Instr) (f : Iface → Iface) => ∃ t, exec ev s = .next t ∧ t.iface vi = f i ∧ (∀ j, j ≠ vi → t.iface j = s.iface j)
      ∧ t.mem = s.mem ∧ t.slots = s.slots ∧ t.spaces = s.spaces
    let space := fun (j : Nat) => 16 * vi + j
    let slot := 32 * vi + i.qsel
    sets (.victlWrite vi val) (fun i => { i with victl := val &&& 0xFFFF0003 })
    ∧ sets (.frridxWrite vi val) (fun i => { i with frridx := v % 2 ^ 32 })
    ∧ sets (.prridxWrite vi val) (fun i => { i with prridx := v % 2 ^ 32 })
    ∧ sets (.controlRegWrite vi 0x010 val) (fun i => { i with drainshare := val &&& 0xFF })
    ∧ sets (.controlRegWrite vi 0x018 val) (fun i => { i with assel := v % 16 })
    ∧ sets (.controlRegWrite vi 0x038 val) (fun i => { i with apsel := val &&& 0x1F })
    ∧ sets (.controlRegWrite vi 0x040 val) (fun i => { i with qsel := v % 32 })
    ∧ (∃ t, exec (.controlRegWrite vi 0x068 val) s = .next t ∧ (t.iface vi).frbase = val &&& 0x0000FFFFFFFFF01F
        ∧ (∀ j, j ≠ vi → t.iface j = s.iface j) ∧ t.mem = s.mem ∧ t.slots = s.slots ∧ t.spaces = s.spaces)
    ∧ sets (.controlRegWrite vi 0x080 val) (fun i => { i with prbase := val &&& 0x0000FFFFFFFFF01F })
    ∧ (let i' : Iface := { i with savebase := val &&& 0x0000FFFFFFFF0000 }
        let base := i'.saveArea + 2 ^ 23
        let traced := bit s.image.tracing.toNat vi && paOk base && paOk (base + 2 ^ traceBits s.image vi - 1)
        (traced = false → sets (.controlRegWrite vi 0x098 val) (fun i => { i with savebase := val &&& 0x0000FFFFFFFF0000 }))
        ∧ (traced = true → ∃ t, exec (.controlRegWrite vi 0x098 val) s = .next t ∧ t.iface vi = i'
            ∧ Took s.mem t.mem base (bytesOf 8 i.frames ++ bytesOf 8 i.dropped ++ List.replicate 240 0)))
    ∧ sets (.controlRegWrite vi 0x0A0 val) (fun i => { i with fabsp := val &&& 0xF })
    ∧ sets (.controlRegWrite vi 0x0C0 val) (fun i => { i with saveslots := v % 2 ^ 16 })
    ∧ (∃ t, exec (.controlRegWrite vi 0x028 val) s = .next t ∧ t.space (space i.assel) = { s.space (space i.assel) with gen := v % 2 ^ 16 }
        ∧ (∀ k, ∀ e ∈ (t.core k).tlb, ¬(e.asid = space i.assel ∧ e.gen = v % 2 ^ 16)) ∧ t.mem = s.mem)
    ∧ (∀ off, 0x0C0 < off ∨ off % 8 ≠ 0 → exec (.controlRegWrite vi off val) s = .next s)
    ∧ (s.spaceInUse vi i.assel = false → s.waitsFor vi 0x020 i.assel = false →
        ∃ t, exec (.asrootWrite vi val) s = .next t ∧ t.space (space i.assel) = { s.space (space i.assel) with root := val &&& 0x0000FFFFFFFFC001 }
          ∧ t = { s with spaces := t.spaces })
    ∧ (s.spaceInUse vi i.assel = true → Kept s (.asrootWrite vi val) vi 0x020 val i.assel false)
    ∧ (s.spaceInUse vi i.assel = false → s.waitsFor vi 0x030 i.assel = false →
        ∃ t, exec (.windowWrite vi val) s = .next t ∧ t.iface vi = { i with window := val }
          ∧ AMap.get (0, 0) (t.space (space i.assel)).windows (bits v 32 4) = (bits v 0 16, bits v 16 16))
    ∧ (s.spaceInUse vi i.assel = true → Kept s (.windowWrite vi val) vi 0x030 val i.assel false)
    ∧ ((s.slot slot).registered = false → s.waitsFor vi 0x048 i.qsel = false → s.waitsFor vi 0x058 i.qsel = false →
        ∃ t, exec (.qhdrWrite vi val) s = .next t ∧ AMap.get 0 (t.iface vi).qhdr i.qsel = val &&& 0xF1FFFFFFFFFFFFC0)
    ∧ ((s.slot slot).registered = true ∨ s.waitsFor vi 0x048 i.qsel = true ∨ s.waitsFor vi 0x058 i.qsel = true →
        Kept s (.qhdrWrite vi val) vi 0x048 val i.qsel false)
    ∧ (∃ t, exec (.qquantWrite vi val) s = .next t ∧ t = { s with slots := t.slots } ∧ t.slot slot = if (s.slot slot).registered
        then { s.slot slot with quantumHeld := some (v % 2 ^ 32) } else { s.slot slot with quantum := v % 2 ^ 32 })
    ∧ (v % 2 = 1 → i.registering = false → ∃ t r, exec (.resync vi val) s = .next t
        ∧ (t.iface vi).resync = some (some r, bits v 12 36 * 4096) ∧ r.length = 128 ∧ t.mem = s.mem)
    ∧ (v % 2 = 1 → i.registering = true → ∃ t, exec (.resync vi val) s = .next t
        ∧ (t.iface vi).resync = some (none, bits v 12 36 * 4096) ∧ t.mem = s.mem))

/-- `QCMD`: a registration reads the header through its space: the queue of a well-formed header is registered with its RIDX, its slots,
its phase and its class; one whose header has a reserved bit is registered stopped with a kind-3 entry. An unregistration takes effect
when no packet of the queue is started and its launches are complete, and waits otherwise; a waiting one also releases launches that wait
on their words. A held write takes effect when its slot or space is idle, of those to `QHDR` and `QCMD` of one slot in the order in which they arrived, and
one that waited for RSBUSY after the record as if it arrived then (R208, R327, R330). Where the spec is open it follows the model's choice: log entry 46. -/
def Obligations.QueuesRegister : Prop :=
  (∀ (s : State) (vi : Nat) (priv : Bool), s.writable vi →
    let sel := (s.iface vi).qsel
    s.waitsFor vi 0x058 sel = false → s.waitsFor vi 0x048 sel = false →
    ((s.slot (32 * vi + sel)).registered = true → exec (.qcmdRegister vi priv) s = .next s)
    ∧ ((s.slot (32 * vi + sel)).registered = false → (s.slot (32 * vi + sel)).closing = false → ∀ pa, s.readsHeader vi sel pa → ∃ t, exec (.qcmdRegister vi priv) s = .next t ∧ Registered s t vi sel priv pa))
  ∧ (∀ (s : State) (vi : Nat), s.writable vi →
    let sel := (s.iface vi).qsel
    let q := s.slot (32 * vi + sel)
    q.registered = true → q.closing = false → s.waitsFor vi 0x058 sel = false →
      (q.started = none → q.launches = [] → ∃ t, exec (.qcmdUnregister vi) s = .next t ∧ (t.slot (32 * vi + sel)).registered = false
        ∧ (t.slot (32 * vi + sel)).quantum = q.quantumHeld.getD q.quantum)
      ∧ ((q.started ≠ none ∨ q.launches ≠ []) → ∃ t, exec (.qcmdUnregister vi) s = .next t ∧ t.slot (32 * vi + sel) = { q with closing := true }
        ∧ (t.iface vi).held = (s.iface vi).held ++ [{ off := 0x058, val := 2, sel, busy := false }]))
  ∧ ∀ (s : State) (vi i : Nat) (h : HeldWrite), (s.iface vi).held[i]? = some h →
      (∀ j g, j < i → (s.iface vi).held[j]? = some g → (h.busy = true → g.busy = false)
        ∧ (h.busy = false → g.busy = false → g.sel = h.sel → g.off ≠ h.off ∧ ¬(h.off = 0x048 ∧ g.off = 0x058)
          ∧ ¬(h.off = 0x058 ∧ g.off = 0x048 ∧ bits h.val.toNat 0 2 = 1))) →
        let gone := fun (t : State) => exec (.heldWriteApply vi i) s = .next t ∧ (t.iface vi).held = dropNth (s.iface vi).held i
        (h.busy = false → h.off = 0x020 → s.spaceInUse vi h.sel = false → ∃ t, gone t
          ∧ (t.space (16 * vi + h.sel)).root = h.val &&& 0x0000FFFFFFFFC001)
        ∧ (h.busy = false → h.off = 0x048 → (s.slot (32 * vi + h.sel)).registered = false → ∃ t, gone t
          ∧ AMap.get 0 (t.iface vi).qhdr h.sel = h.val &&& 0xF1FFFFFFFFFFFFC0)
        ∧ (h.busy = false → h.off = 0x030 → s.spaceInUse vi h.sel = false → ∃ t, gone t
          ∧ AMap.get (0, 0) (t.space (16 * vi + h.sel)).windows (bits h.val.toNat 32 4) = (bits h.val.toNat 0 16, bits h.val.toNat 16 16))
        ∧ (h.busy = false → h.off = 0x058 → bits h.val.toNat 0 2 = 2 → (s.slot (32 * vi + h.sel)).registered = true →
            (s.slot (32 * vi + h.sel)).started = none →
            (∀ l ∈ (s.slot (32 * vi + h.sel)).launches, l.next = 0 ∧ lpWkind l.pkt = 1 ∧ l.ready = false ∧ l.fail = none) →
              ∃ t, gone t ∧ (t.slot (32 * vi + h.sel)).registered = false ∧ (t.slot (32 * vi + h.sel)).launches = [])
        ∧ (∀ pa, h.busy = false → h.off = 0x058 → bits h.val.toNat 0 2 = 1 → (s.slot (32 * vi + h.sel)).registered = false →
            s.readsHeader vi h.sel pa → ∃ t, gone t ∧ Registered s t vi h.sel (bit h.val.toNat 2) pa)
        ∧ (h.busy = true → (s.iface vi).resync = none →
            let calm := s.modIface vi fun f => { f with held := dropNth f.held i }
            exec (.heldWriteApply vi i) s = .next (calm.ctlWrite vi h.off h.val)
            ∧ (h.off = 0x078 → ∃ t, gone t ∧ (t.iface vi).frridx = h.val.toNat % 2 ^ 32)
            ∧ (s.hostReach vi = true → h.off % 8 = 0 → (∀ g ∈ dropNth (s.iface vi).held i, g.busy = false) →
                exec (.heldWriteApply vi i) s = exec (.controlRegWrite vi h.off h.val) calm))

/-- The aperture reads and writes device memory through the space of `APSEL`; poison, an address that is not device memory there or has no
page, and a link that is down complete a read with an error; a read waits for its sectors where a run holds the channel (R308, R324, R371,
R382). `POWER_ON` boots the device with its configuration image; `POWER_OFF` loses all state but host memory; `LINK_DOWN` takes the link
down, and `LINK_RESTORE` brings it back with a kind-6 entry for every interface that has lost writes (R333, R382). That memory which is
not the host's reads 0 after `POWER_OFF` is the model's choice: log entry 5. Where else the spec is open it follows the model's choice:
log entry 48. -/
def Obligations.ApertureAndPower : Prop :=
  (∀ (s : State) (vi va : Nat) (width : MWidth) (val : Word),
    (s.linkUp = false → exec (.apertureRead vi va width) s = .next { s with hostRead := .error })
    ∧ (s.hostReach vi = true → s.mayWalk (16 * vi + bits (s.iface vi).apsel.toNat 0 4) (va % 2 ^ 57) = true →
      (bit (s.iface vi).apsel.toNat 4 = false ∨ va % mwN width ≠ 0
        ∨ ∀ lv fr w d path, s.walk (16 * vi + bits (s.iface vi).apsel.toNat 0 4) (va % 2 ^ 57) ≠ .leaf lv fr w d path) →
          exec (.apertureRead vi va width) s = .next { s with hostRead := .error } ∧ exec (.apertureWrite vi va width val) s = .next s)
    ∧ ∀ (lv fr : Nat) (w d : Bool) (path : List Nat),
    let i := s.iface vi
    let n := mwN width
    let pa := fr + va % 2 ^ 57 % 2 ^ pageBits lv
    s.hostReach vi = true → bit i.apsel.toNat 4 = true → va % n = 0 →
      s.mayWalk (16 * vi + bits i.apsel.toNat 0 4) (va % 2 ^ 57) = true →
      s.walk (16 * vi + bits i.apsel.toNat 0 4) (va % 2 ^ 57) = .leaf lv fr w d path → s.lineBusy pa = false →
      s.setAD (16 * vi + bits i.apsel.toNat 0 4) path false = s → s.setAD (16 * vi + bits i.apsel.toNat 0 4) path true = s →
        (isHost pa = false → s.mayFill pa n = true → ∃ t, exec (.apertureRead vi va width) s = .next t ∧ t.mem = s.mem ∧ t.ifaces = s.ifaces
            ∧ t.hostRead = if s.poisonedAt (.pa pa) n then .error else .data (BitVec.ofNat 64 (leNat (s.mem.bytes pa n))))
        ∧ (isHost pa = false → s.mayFill pa n = false → ∃ t, exec (.apertureRead vi va width) s = .next t ∧ t.mem = s.mem
            ∧ t.hostRead = s.hostRead)
        ∧ (isHost pa = true → exec (.apertureRead vi va width) s = .next { s with hostRead := .error })
        ∧ (isHost pa = false → w = true → ∃ t, exec (.apertureWrite vi va width val) s = .next t
            ∧ Took s.mem t.mem pa (bytesOf n val.toNat) ∧ pa / 16 ∉ t.mem.tags ∧ OnlyMem s t)
        ∧ (isHost pa = true ∨ w = false → exec (.apertureWrite vi va width val) s = .next s))
  ∧ (∀ (s : State),
    (∀ image, s.power ≠ .booted → exec (.powerOn image) s = .next { s with power := .booted, image })
    ∧ (∃ t, exec .powerOff s = .next t ∧ t.power = .off ∧ t.cores = [] ∧ t.slots = [] ∧ t.ifaces = [] ∧ t.spaces = [] ∧ t.clock = 0
        ∧ (∀ a, isHost a = true → t.mem.byte a = s.mem.byte a) ∧ ∀ a, isHost a = false → t.mem.byte a = 0)
    ∧ (s.linkUp = true → ∃ t, exec .linkDown s = .next t ∧ t.linkUp = false ∧ t.outages = s.outages + 1 ∧ t.mem = s.mem)
    ∧ (s.linkUp = false → ∃ t, exec .linkRestore s = .next t ∧ t.linkUp = true ∧ t.mem = s.mem
        ∧ (AMap.wf Iface.init s.ifaces = true → ∀ vi, (t.iface vi).lost = 0 ∧ ((s.iface vi).lost ≠ 0 → ∃ l e, (t.iface vi).faults = l ++ [e]
          ∧ l.length = (s.iface vi).faults.length ∧ (e.dws[0]?).map (fun w => bits w.toNat 0 8) = some 6
          ∧ e.dws[1]? = some (BitVec.ofNat 64 ((s.iface vi).lost % 2 ^ 32))))))

/-! ## Values -/

namespace Sys2Proof.Machine

/-- An element of w bits as the signed or the unsigned number that it stands for (R65, R179). -/
def elInt (sg : Bool) (w x : Nat) : Int := if sg = true ∧ 2 ^ w ≤ 2 * x then (x : Int) - 2 ^ w else x

/-- The leading zero bits of w bits: as many as there are, and a 1 bit below them (R161, R179). -/
def LeadingZeros (w : Nat) (x : Nat → Bool) (n : Nat) : Prop :=
  n ≤ w ∧ (∀ i, w - n ≤ i → i < w → x i = false) ∧ (n < w → x (w - 1 - n) = true)

end Sys2Proof.Machine

/-- What the integer functions of the result statements compute, bit by bit or as numbers: shifts of any amount, high products, minima and
maxima, comparisons, leading zeros and 1 bits, of 64-bit scalars (R161) and of elements of every width (R179), saturation (R75), and the
signature's record and CRC, with its check value (R172). -/
def Obligations.IntegerValues : Prop :=
  (∀ a b : Word,
    (∀ n, n < 64 → (fShl a b).getLsbD n = (decide (b.toNat ≤ n) && a.getLsbD (n - b.toNat)))
    ∧ (∀ n, n < 64 → (fShr a b).getLsbD n = a.getLsbD (n + b.toNat))
    ∧ (∀ n, n < 64 → (fSra a b).getLsbD n = if n + b.toNat < 64 then a.getLsbD (n + b.toNat) else a.getLsbD 63)
    ∧ (64 ≤ b.toNat → fShl a b = 0 ∧ fShr a b = 0 ∧ fSra a b = if a.getLsbD 63 then -1 else 0)
    ∧ (fMulh true a b).toInt = a.toInt * b.toInt / 2 ^ 64 ∧ (fMulh false a b).toNat = a.toNat * b.toNat / 2 ^ 64
    ∧ (fMin true a b).toInt = min a.toInt b.toInt ∧ (fMax true a b).toInt = max a.toInt b.toInt
    ∧ (fMin false a b).toNat = min a.toNat b.toNat ∧ (fMax false a b).toNat = max a.toNat b.toNat
    ∧ (∀ sg, let x : Int := if sg then a.toInt else a.toNat
        let y : Int := if sg then b.toInt else b.toNat
        fCmp sg .eq a b = w01 (decide (x = y)) ∧ fCmp sg .ne a b = w01 (decide (x ≠ y)) ∧ fCmp sg .lt a b = w01 (decide (x < y))
          ∧ fCmp sg .le a b = w01 (decide (x ≤ y)) ∧ fCmp sg .gt a b = w01 (decide (y < x)) ∧ fCmp sg .ge a b = w01 (decide (y ≤ x)))
    ∧ LeadingZeros 64 a.getLsbD (fClz a).toNat
    ∧ (fPopc a).toNat = ((List.range 64).filter fun i => a.getLsbD i).length)
  ∧ (∀ (sg : Bool) (w a b : Nat), w ∈ [4, 8, 16, 32, 64] → a < 2 ^ w → b < 2 ^ w →
    let v := elInt sg w
    ((eAdd w a b : Nat) : Int) = ((a : Int) + b) % 2 ^ w ∧ ((eSub w a b : Nat) : Int) = ((a : Int) - b) % 2 ^ w
    ∧ eMul w a b = a * b % 2 ^ w ∧ ((eMulh sg w a b : Nat) : Int) = v a * v b / 2 ^ w % 2 ^ w
    ∧ (∀ n, n < w → bit (eShl w a b) n = (decide (b ≤ n) && bit a (n - b)) ∧ bit (eShr w a b) n = bit a (n + b)
        ∧ bit (eSra w a b) n = (if n + b < w then bit a (n + b) else bit a (w - 1)) ∧ bit (eAndn w a b) n = (bit a n && !bit b n))
    ∧ (w ≤ b → eShl w a b = 0 ∧ eShr w a b = 0 ∧ eSra w a b = if bit a (w - 1) then 2 ^ w - 1 else 0)
    ∧ v (eMin sg w a b) = min (v a) (v b) ∧ v (eMax sg w a b) = max (v a) (v b)
    ∧ ((eAbs sg w a : Nat) : Int) = (if v a < 0 then -v a else v a) % 2 ^ w
    ∧ LeadingZeros w (bit a) (clz w a) ∧ popc w a = ((List.range w).filter fun i => bit a i).length
    ∧ eShl w a b < 2 ^ w ∧ eShr w a b < 2 ^ w ∧ eSra w a b < 2 ^ w ∧ eMulh sg w a b < 2 ^ w ∧ eAndn w a b < 2 ^ w)
  ∧ (∀ (ty : IType) (i : Int), let w := itW ty
    let lo : Int := if itS ty then -(2 ^ (w - 1)) else 0
    let hi : Int := if itS ty then 2 ^ (w - 1) - 1 else 2 ^ w - 1
    (satEl ty i).1 < 2 ^ w ∧ elInt (itS ty) w (satEl ty i).1 = max lo (min hi i) ∧ (satEl ty i).2 = if lo ≤ i ∧ i ≤ hi then 0 else 32)
  ∧ (∀ (w : Word) (m : Mask), let r := issueRecord w m
    r < 2 ^ 64 ∧ bits r 58 6 = (if bits w.toNat 58 6 = 0x3F then bits w.toNat 20 6 else bits w.toNat 58 6) ∧ bits r 52 6 = bits w.toNat 52 6
      ∧ bits r 48 4 = 1 ∧ bits r 32 16 = 0 ∧ ∀ k, k < 32 → (bit r k = true ↔ ∃ l, l / 32 = k ∧ m.getLsbD l = true))
  ∧ crcBytes 9 0x393837363534333231 0xFFFFFFFF = 0x1CF96D7C

/-- What the float functions of the result statements compute (R62 to R64, R71, R73, R74, R81): every code is what its value rounds to, so
that nothing is flushed; the canonical NaN, also of ∞ − ∞ and 0 × ∞; overflow by mode; integers rounded by mode and saturated; the lesser
and the greater; and the special values of the special functions. That a saturated conversion sets NX when its value is no integer, and an
infinity does not, is the model's reading: log entry 24. -/
def Obligations.FloatValues : Prop :=
  ((fmtOf .f32).nanCode = 0x7FC00000 ∧ (fmtOf .f16).nanCode = 0x7E00 ∧ (fmtOf .bf16).nanCode = 0x7FC0 ∧ (fmtOf .e4m3).nanCode = 0x7F
    ∧ (fmtOf .e5m2).nanCode = 0x7E)
  ∧ (∀ (t : ElType) (rm : RM) (x : Nat), t ∈ [.f32, .f16, .bf16, .e5m2, .e4m3, .e3m2, .e2m3, .e2m1] → x < 2 ^ (fmtOf t).w →
    isNan (decodeF (fmtOf t) x) = false → roundTo (fmtOf t) rm (decodeF (fmtOf t) x) = (x, 0))
  ∧ (∀ (t : ElType) (rm : RM) (x y z : Nat), t ∈ [.f32, .f16, .bf16] → let F := fmtOf t
    let nan := fun (c : Nat) => decide (F.infCode < c % 2 ^ (F.w - 1))
    (isNan (decodeF F x) = nan x)
    ∧ (nan x = true ∨ nan y = true → opAdd F rm x y = (F.nanCode, 0) ∧ opSub F rm x y = (F.nanCode, 0) ∧ opMul F rm x y = (F.nanCode, 0))
    ∧ (nan x = true ∨ nan y = true ∨ nan z = true → (opFma F rm x y z).1 = F.nanCode)
    ∧ opAdd F rm F.infCode (F.infCode + 2 ^ (F.w - 1)) = (F.nanCode, 1) ∧ opSub F rm F.infCode F.infCode = (F.nanCode, 1)
    ∧ (x % 2 ^ (F.w - 1) = 0 → y % 2 ^ (F.w - 1) = F.infCode → opMul F rm x y = (F.nanCode, 1) ∧ opMul F rm y x = (F.nanCode, 1))
    ∧ (x < 2 ^ F.w → y < 2 ^ F.w → ∀ greater, minMaxF F greater x y = FloatPick F greater x y))
  ∧ (∀ (t : ElType) (neg : Bool) (m e u : Nat), t ∈ [.f32, .f16, .bf16, .e5m2] → let F := fmtOf t
    2 ^ (F.bias + 1) ≤ m * 2 ^ e →
      let v := FV.fin neg m e
      let sign := if neg then 2 ^ (F.w - 1) else 0
      roundTo F (.m .rne) v = (sign + F.infCode, 20) ∧ roundTo F (.m .rtz) v = (sign + F.maxCode, 20)
        ∧ roundTo F (.m .rdn) v = (sign + (if neg then F.infCode else F.maxCode), 20)
        ∧ roundTo F (.m .rup) v = (sign + (if neg then F.maxCode else F.infCode), 20) ∧ roundTo F (.sr u) v = (sign + F.infCode, 20))
  ∧ (∀ (rm : RM) (m e : Nat), 480 ≤ m * 2 ^ e → roundTo (fmtOf .e4m3) rm (.fin false m e) = (0x7E, 20) ∧ roundTo (fmtOf .e4m3) rm (.fin true m e) = (0xFE, 20))
  ∧ (∀ (neg : Bool) (m k : Nat), let v := FV.fin neg m (-(k : Int))
    let x : Int := if neg then -(m : Int) else m
    roundInt (.m .rtz) v = Int.tdiv x (2 ^ k) ∧ roundInt (.m .rdn) v = x / 2 ^ k ∧ roundInt (.m .rup) v = -(-x / 2 ^ k)
      ∧ (∀ d, d = 2 * (x - roundInt (.m .rne) v * 2 ^ k) →
        -(2 : Int) ^ k ≤ d ∧ d ≤ 2 ^ k ∧ ((d = 2 ^ k ∨ d = -(2 : Int) ^ k) → roundInt (.m .rne) v % 2 = 0)))
  ∧ (∀ (sg : Bool) (w : Nat) (rm : RM), w ∈ [4, 8, 16, 32, 64] →
    let lo : Int := if sg then -(2 ^ (w - 1)) else 0
    let hi : Int := if sg then 2 ^ (w - 1) - 1 else 2 ^ w - 1
    toIntTy sg w rm .nan = (0, 1)
    ∧ (∀ neg, elInt sg w (toIntTy sg w rm (.inf neg)).1 = (if neg then lo else hi) ∧ (toIntTy sg w rm (.inf neg)).2 = 32)
    ∧ ∀ (neg : Bool) (m k : Nat), let r := toIntTy sg w rm (.fin neg m (-(k : Int)))
      let i := roundInt rm (.fin neg m (-(k : Int)))
      elInt sg w r.1 = max lo (min hi i) ∧ r.2 = (if lo ≤ i ∧ i ≤ hi then 0 else 32) + (if m % 2 ^ k = 0 then 0 else 16))
  ∧ ∀ (ty : FType) (rm : RMode) (x : Nat), let F := fmtOf ty.el
    let mag := x % 2 ^ (F.w - 1)
    let one := fun (n : Int) => (n + F.bias).toNat * 2 ^ F.mb
    let is := fun (c : Nat) (n : Int) => leF (decodeF F c) (ofInt n 0 false) = true ∧ leF (ofInt n 0 false) (decodeF F c) = true
    x < 2 ^ F.w →
      (F.infCode < mag → ∀ fn, spf fn ty rm x = (F.nanCode, 0))
      ∧ (mag = 0 → spf 0 ty rm x = (x + F.infCode, 2) ∧ spf 1 ty rm x = (x + F.infCode, 2) ∧ spf 2 ty rm x = (x, 0)
          ∧ spf 3 ty rm x = (one 0, 0) ∧ spf 4 ty rm x = (2 ^ (F.w - 1) + F.infCode, 2))
      ∧ (x = F.infCode → spf 0 ty rm x = (0, 0) ∧ spf 1 ty rm x = (0, 0) ∧ spf 2 ty rm x = (F.infCode, 0) ∧ spf 3 ty rm x = (F.infCode, 0)
          ∧ spf 4 ty rm x = (F.infCode, 0))
      ∧ (x = 2 ^ (F.w - 1) + F.infCode → spf 0 ty rm x = (2 ^ (F.w - 1), 0) ∧ spf 3 ty rm x = (0, 0))
      ∧ (2 ^ (F.w - 1) < x → mag ≤ F.infCode → spf 1 ty rm x = (F.nanCode, 1) ∧ spf 2 ty rm x = (F.nanCode, 1) ∧ spf 4 ty rm x = (F.nanCode, 1))
      ∧ ∀ n : Int, F.emin ≤ n → n ≤ F.bias → (is x n → spf 3 ty rm x = (one n, 0))
          ∧ is (spf 4 ty rm (one n)).1 n ∧ (spf 4 ty rm (one n)).2 = 0 ∧ (n = 0 → (spf 4 ty rm (one n)).1 = 0)
end

