-- ==== Sys2Proof/Laws/Maps.lean ====
section
/-!
SUPPORT. Sys2Proof/Laws/Maps.lean: the laws of the sparse maps: a read after a write, and the canonical form that every
write keeps.
-/

namespace Sys2Proof

variable {β : Type}

@[simp] theorem AMap.find?_nil (k : Nat) : AMap.find? ([] : AMap β) k = none := rfl

theorem AMap.find?_erase_self (m : AMap β) (k : Nat) : AMap.find? (AMap.erase m k) k = none := by
  induction m with
  | nil => rfl
  | cons x m ih =>
    obtain ⟨j, v⟩ := x
    by_cases h : j = k
    · simp [AMap.erase, h, ih]
    · simp [AMap.erase, AMap.find?, h, ih]

theorem AMap.find?_erase_ne (m : AMap β) {k j : Nat} (h : k ≠ j) : AMap.find? (AMap.erase m k) j = AMap.find? m j := by
  induction m with
  | nil => rfl
  | cons x m ih =>
    obtain ⟨i, v⟩ := x
    by_cases h1 : i = k
    · have : i ≠ j := by omega
      simp [AMap.erase, AMap.find?, h1, ih, h]
    · by_cases h2 : i = j
      · have : j ≠ k := by omega
        simp [AMap.erase, AMap.find?, h2, this]
      · simp [AMap.erase, AMap.find?, h1, h2, ih]

theorem AMap.find?_place_self (m : AMap β) (k : Nat) (v : β) (h : AMap.find? m k = none) :
    AMap.find? (AMap.place m k v) k = some v := by
  induction m with
  | nil => simp [AMap.place, AMap.find?]
  | cons x m ih =>
    obtain ⟨i, w⟩ := x
    by_cases h1 : i = k
    · simp [AMap.find?, h1] at h
    · by_cases h2 : k < i
      · simp [AMap.place, AMap.find?, h2]
      · simp only [AMap.find?, h1, if_false] at h
        simp [AMap.place, AMap.find?, h2, h1, ih h]

theorem AMap.find?_place_ne (m : AMap β) {k j : Nat} (v : β) (h : k ≠ j) :
    AMap.find? (AMap.place m k v) j = AMap.find? m j := by
  induction m with
  | nil => simp [AMap.place, AMap.find?, h]
  | cons x m ih =>
    obtain ⟨i, w⟩ := x
    by_cases h2 : k < i
    · simp [AMap.place, AMap.find?, h2, h]
    · simp [AMap.place, AMap.find?, h2, ih]

@[simp] theorem AMap.find?_put_self (m : AMap β) (k : Nat) (v : β) : AMap.find? (AMap.put m k v) k = some v :=
  AMap.find?_place_self _ _ _ (AMap.find?_erase_self m k)

theorem AMap.find?_put_ne (m : AMap β) {k j : Nat} (v : β) (h : k ≠ j) : AMap.find? (AMap.put m k v) j = AMap.find? m j := by
  rw [AMap.put, AMap.find?_place_ne _ _ h, AMap.find?_erase_ne _ h]

/-- A read after a write to the same key. -/
@[simp] theorem AMap.get_set_self [DecidableEq β] (d : β) (m : AMap β) (k : Nat) (v : β) :
    AMap.get d (AMap.set d m k v) k = v := by
  unfold AMap.get AMap.set
  split
  · next h => rw [AMap.find?_erase_self]; exact h.symm
  · simp

/-- A read after a write to another key. -/
theorem AMap.get_set_ne [DecidableEq β] (d : β) (m : AMap β) {k j : Nat} (v : β) (h : k ≠ j) :
    AMap.get d (AMap.set d m k v) j = AMap.get d m j := by
  unfold AMap.get AMap.set
  split
  · rw [AMap.find?_erase_ne _ h]
  · rw [AMap.find?_put_ne _ _ h]

theorem AMap.find?_modify_self (m : AMap β) (k : Nat) (f : β → β) :
    AMap.find? (AMap.modify m k f) k = (AMap.find? m k).map f := by
  unfold AMap.modify
  cases h : AMap.find? m k <;> simp [h]

theorem AMap.find?_modify_ne (m : AMap β) {k j : Nat} (f : β → β) (h : k ≠ j) :
    AMap.find? (AMap.modify m k f) j = AMap.find? m j := by
  unfold AMap.modify
  cases h' : AMap.find? m k with
  | none => rfl
  | some v => exact AMap.find?_put_ne _ _ h

/-- Changing the values of a map changes what is found. -/
theorem AMap.find?_map {γ : Type} (m : AMap β) (f : Nat → β → γ) (k : Nat) :
    AMap.find? (m.map fun x => (x.1, f x.1 x.2)) k = (AMap.find? m k).map (f k) := by
  induction m with
  | nil => rfl
  | cons x m ih =>
    obtain ⟨i, v⟩ := x
    by_cases h : i = k
    · subst h; simp [AMap.find?]
    · simp only [List.map_cons, AMap.find?, h, if_false]; exact ih

/-- An erased or written key does not show in a part of the map that leaves it out. -/
theorem AMap.filter_erase (m : AMap β) (k : Nat) {q : Nat × β → Bool} (hq : ∀ v, q (k, v) = false) :
    List.filter q (AMap.erase m k) = List.filter q m := by
  induction m with
  | nil => rfl
  | cons x m ih =>
    obtain ⟨i, v⟩ := x
    by_cases h : i = k
    · subst h; simp [AMap.erase, hq, ih]
    · simp [AMap.erase, h, List.filter_cons, ih]
theorem AMap.filter_place (m : AMap β) (k : Nat) (v : β) {q : Nat × β → Bool} (hq : q (k, v) = false) :
    List.filter q (AMap.place m k v) = List.filter q m := by
  induction m with
  | nil => simp [AMap.place, hq]
  | cons x m ih =>
    obtain ⟨i, w⟩ := x
    by_cases h : k < i
    · simp [AMap.place, h, hq]
    · simp [AMap.place, h, List.filter_cons, ih]
theorem AMap.filter_put (m : AMap β) (k : Nat) (v : β) {q : Nat × β → Bool} (hq : ∀ v, q (k, v) = false) :
    List.filter q (AMap.put m k v) = List.filter q m := by
  rw [AMap.put, AMap.filter_place _ _ _ (hq v), AMap.filter_erase _ _ hq]

/-! ### The canonical form -/

theorem AMap.wfFrom_mono [DecidableEq β] (d : β) (m : AMap β) : ∀ {lo lo' : Nat}, lo ≤ lo' →
    AMap.wfFrom d lo' m = true → AMap.wfFrom d lo m = true := by
  cases m with
  | nil => intro lo lo' _ _; rfl
  | cons x m =>
    intro lo lo' h h'
    simp [AMap.wfFrom] at h' ⊢
    exact ⟨⟨by omega, h'.1.2⟩, h'.2⟩

theorem AMap.wfFrom_erase [DecidableEq β] (d : β) (k : Nat) (m : AMap β) : ∀ lo : Nat,
    AMap.wfFrom d lo m = true → AMap.wfFrom d lo (AMap.erase m k) = true := by
  induction m with
  | nil => intro lo _; rfl
  | cons x m ih =>
    obtain ⟨i, v⟩ := x
    intro lo h
    simp [AMap.wfFrom] at h
    by_cases h1 : i = k
    · simp [AMap.erase, h1]
      exact AMap.wfFrom_mono d _ (by omega) (ih _ h.2)
    · simp [AMap.erase, h1, AMap.wfFrom]
      exact ⟨h.1, ih _ h.2⟩

theorem AMap.wfFrom_place [DecidableEq β] (d : β) (k : Nat) (v : β) (hv : v ≠ d) (m : AMap β) : ∀ lo : Nat, lo ≤ k →
    AMap.find? m k = none → AMap.wfFrom d lo m = true → AMap.wfFrom d lo (AMap.place m k v) = true := by
  induction m with
  | nil => intro lo h _ _; simp [AMap.place, AMap.wfFrom, h, hv]
  | cons x m ih =>
    obtain ⟨i, w⟩ := x
    intro lo h hn hw
    simp [AMap.wfFrom] at hw
    by_cases h2 : k < i
    · simp [AMap.place, h2, AMap.wfFrom, h, hv]
      exact ⟨hw.1.2, hw.2⟩
    · have h1 : i ≠ k := by intro e; simp [AMap.find?, e] at hn
      simp only [AMap.find?, h1, if_false] at hn
      simp [AMap.place, h2, AMap.wfFrom]
      exact ⟨hw.1, ih _ (by omega) hn hw.2⟩

/-- Every write keeps the canonical form. -/
theorem AMap.wf_set [DecidableEq β] (d : β) (m : AMap β) (k : Nat) (v : β) (h : AMap.wf d m = true) :
    AMap.wf d (AMap.set d m k v) = true := by
  unfold AMap.wf AMap.set at *
  split
  · exact AMap.wfFrom_erase d k m 0 h
  · next hv => exact AMap.wfFrom_place d k v hv _ 0 (Nat.zero_le _) (AMap.find?_erase_self m k) (AMap.wfFrom_erase d k m 0 h)

end Sys2Proof
end

