-- ==== Sys2Proof/Laws/State.lean ====
section
/-!
SUPPORT. Sys2Proof/Laws/State.lean: one lemma per field per update of the state, so that no later proof unfolds a record
update, and the reads after writes of units, blocks and teams.
-/

namespace Sys2Proof.Machine

/-! ### Updates of one unit: the fields that they keep -/
@[simp] theorem State.setCore_clock (s : State) (k : Nat) (c : Core) : (s.setCore k c).clock = s.clock := by rw [State.setCore]
@[simp] theorem State.setCore_power (s : State) (k : Nat) (c : Core) : (s.setCore k c).power = s.power := by rw [State.setCore]
@[simp] theorem State.setCore_image (s : State) (k : Nat) (c : Core) : (s.setCore k c).image = s.image := by rw [State.setCore]
@[simp] theorem State.setCore_mem (s : State) (k : Nat) (c : Core) : (s.setCore k c).mem = s.mem := by rw [State.setCore]
@[simp] theorem State.setCore_linkUp (s : State) (k : Nat) (c : Core) : (s.setCore k c).linkUp = s.linkUp := by rw [State.setCore]
@[simp] theorem State.setCore_outages (s : State) (k : Nat) (c : Core) : (s.setCore k c).outages = s.outages := by rw [State.setCore]
@[simp] theorem State.setCore_ports (s : State) (k : Nat) (c : Core) : (s.setCore k c).ports = s.ports := by rw [State.setCore]
@[simp] theorem State.setCore_inbound (s : State) (k : Nat) (c : Core) : (s.setCore k c).inbound = s.inbound := by rw [State.setCore]
@[simp] theorem State.setCore_domain (s : State) (k : Nat) (c : Core) : (s.setCore k c).domain = s.domain := by rw [State.setCore]
@[simp] theorem State.setCore_stampOffset (s : State) (k : Nat) (c : Core) : (s.setCore k c).stampOffset = s.stampOffset := by rw [State.setCore]
@[simp] theorem State.setCore_trace (s : State) (k : Nat) (c : Core) : (s.setCore k c).trace = s.trace := by rw [State.setCore]
@[simp] theorem State.setCore_hostRead (s : State) (k : Nat) (c : Core) : (s.setCore k c).hostRead = s.hostRead := by rw [State.setCore]
@[simp] theorem State.setCore_clusters (s : State) (k : Nat) (c : Core) : (s.setCore k c).clusters = s.clusters := by rw [State.setCore]
@[simp] theorem State.setCore_channels (s : State) (k : Nat) (c : Core) : (s.setCore k c).channels = s.channels := by rw [State.setCore]
@[simp] theorem State.setCore_stackCores (s : State) (k : Nat) (c : Core) : (s.setCore k c).stackCores = s.stackCores := by rw [State.setCore]
@[simp] theorem State.setCore_slots (s : State) (k : Nat) (c : Core) : (s.setCore k c).slots = s.slots := by rw [State.setCore]
@[simp] theorem State.setCore_apps (s : State) (k : Nat) (c : Core) : (s.setCore k c).apps = s.apps := by rw [State.setCore]
@[simp] theorem State.setCore_ifaces (s : State) (k : Nat) (c : Core) : (s.setCore k c).ifaces = s.ifaces := by rw [State.setCore]
@[simp] theorem State.setCore_spaces (s : State) (k : Nat) (c : Core) : (s.setCore k c).spaces = s.spaces := by rw [State.setCore]
@[simp] theorem State.setCore_saved (s : State) (k : Nat) (c : Core) : (s.setCore k c).saved = s.saved := by rw [State.setCore]
@[simp] theorem State.setCore_codeOld (s : State) (k : Nat) (c : Core) : (s.setCore k c).codeOld = s.codeOld := by rw [State.setCore]
@[simp] theorem State.setCore_codeNew (s : State) (k : Nat) (c : Core) : (s.setCore k c).codeNew = s.codeNew := by rw [State.setCore]
@[simp] theorem State.setCore_rmLast (s : State) (k : Nat) (c : Core) : (s.setCore k c).rmLast = s.rmLast := by rw [State.setCore]
@[simp] theorem State.setCore_rmHeld (s : State) (k : Nat) (c : Core) : (s.setCore k c).rmHeld = s.rmHeld := by rw [State.setCore]
@[simp] theorem State.setCore_rmWant (s : State) (k : Nat) (c : Core) : (s.setCore k c).rmWant = s.rmWant := by rw [State.setCore]
@[simp] theorem State.setCore_rmAt (s : State) (k : Nat) (c : Core) : (s.setCore k c).rmAt = s.rmAt := by rw [State.setCore]
@[simp] theorem State.setCore_launchNo (s : State) (k : Nat) (c : Core) : (s.setCore k c).launchNo = s.launchNo := by rw [State.setCore]
@[simp] theorem State.setCore_agenda (s : State) (k : Nat) (c : Core) : (s.setCore k c).agenda = s.agenda := by rw [State.setCore]
@[simp] theorem State.setCore_acting (s : State) (k : Nat) (c : Core) : (s.setCore k c).acting = s.acting := by rw [State.setCore]
@[simp] theorem State.setCore_seqNo (s : State) (k : Nat) (c : Core) : (s.setCore k c).seqNo = s.seqNo := by rw [State.setCore]
@[simp] theorem State.setCore_freeIx (s : State) (k : Nat) (c : Core) : (s.setCore k c).freeIx = s.freeIx := by rw [State.setCore]
@[simp] theorem State.modCore_clock (s : State) (k : Nat) (f : Core → Core) : (s.modCore k f).clock = s.clock := by simp only [State.modCore, State.setCore_clock]
@[simp] theorem State.modCore_power (s : State) (k : Nat) (f : Core → Core) : (s.modCore k f).power = s.power := by simp only [State.modCore, State.setCore_power]
@[simp] theorem State.modCore_image (s : State) (k : Nat) (f : Core → Core) : (s.modCore k f).image = s.image := by simp only [State.modCore, State.setCore_image]
@[simp] theorem State.modCore_mem (s : State) (k : Nat) (f : Core → Core) : (s.modCore k f).mem = s.mem := by simp only [State.modCore, State.setCore_mem]
@[simp] theorem State.modCore_linkUp (s : State) (k : Nat) (f : Core → Core) : (s.modCore k f).linkUp = s.linkUp := by simp only [State.modCore, State.setCore_linkUp]
@[simp] theorem State.modCore_outages (s : State) (k : Nat) (f : Core → Core) : (s.modCore k f).outages = s.outages := by simp only [State.modCore, State.setCore_outages]
@[simp] theorem State.modCore_ports (s : State) (k : Nat) (f : Core → Core) : (s.modCore k f).ports = s.ports := by simp only [State.modCore, State.setCore_ports]
@[simp] theorem State.modCore_inbound (s : State) (k : Nat) (f : Core → Core) : (s.modCore k f).inbound = s.inbound := by simp only [State.modCore, State.setCore_inbound]
@[simp] theorem State.modCore_domain (s : State) (k : Nat) (f : Core → Core) : (s.modCore k f).domain = s.domain := by simp only [State.modCore, State.setCore_domain]
@[simp] theorem State.modCore_stampOffset (s : State) (k : Nat) (f : Core → Core) : (s.modCore k f).stampOffset = s.stampOffset := by simp only [State.modCore, State.setCore_stampOffset]
@[simp] theorem State.modCore_trace (s : State) (k : Nat) (f : Core → Core) : (s.modCore k f).trace = s.trace := by simp only [State.modCore, State.setCore_trace]
@[simp] theorem State.modCore_hostRead (s : State) (k : Nat) (f : Core → Core) : (s.modCore k f).hostRead = s.hostRead := by simp only [State.modCore, State.setCore_hostRead]
@[simp] theorem State.modCore_clusters (s : State) (k : Nat) (f : Core → Core) : (s.modCore k f).clusters = s.clusters := by simp only [State.modCore, State.setCore_clusters]
@[simp] theorem State.modCore_channels (s : State) (k : Nat) (f : Core → Core) : (s.modCore k f).channels = s.channels := by simp only [State.modCore, State.setCore_channels]
@[simp] theorem State.modCore_stackCores (s : State) (k : Nat) (f : Core → Core) : (s.modCore k f).stackCores = s.stackCores := by simp only [State.modCore, State.setCore_stackCores]
@[simp] theorem State.modCore_slots (s : State) (k : Nat) (f : Core → Core) : (s.modCore k f).slots = s.slots := by simp only [State.modCore, State.setCore_slots]
@[simp] theorem State.modCore_apps (s : State) (k : Nat) (f : Core → Core) : (s.modCore k f).apps = s.apps := by simp only [State.modCore, State.setCore_apps]
@[simp] theorem State.modCore_ifaces (s : State) (k : Nat) (f : Core → Core) : (s.modCore k f).ifaces = s.ifaces := by simp only [State.modCore, State.setCore_ifaces]
@[simp] theorem State.modCore_spaces (s : State) (k : Nat) (f : Core → Core) : (s.modCore k f).spaces = s.spaces := by simp only [State.modCore, State.setCore_spaces]
@[simp] theorem State.modCore_saved (s : State) (k : Nat) (f : Core → Core) : (s.modCore k f).saved = s.saved := by simp only [State.modCore, State.setCore_saved]
@[simp] theorem State.modCore_codeOld (s : State) (k : Nat) (f : Core → Core) : (s.modCore k f).codeOld = s.codeOld := by simp only [State.modCore, State.setCore_codeOld]
@[simp] theorem State.modCore_codeNew (s : State) (k : Nat) (f : Core → Core) : (s.modCore k f).codeNew = s.codeNew := by simp only [State.modCore, State.setCore_codeNew]
@[simp] theorem State.modCore_rmLast (s : State) (k : Nat) (f : Core → Core) : (s.modCore k f).rmLast = s.rmLast := by simp only [State.modCore, State.setCore_rmLast]
@[simp] theorem State.modCore_rmHeld (s : State) (k : Nat) (f : Core → Core) : (s.modCore k f).rmHeld = s.rmHeld := by simp only [State.modCore, State.setCore_rmHeld]
@[simp] theorem State.modCore_rmWant (s : State) (k : Nat) (f : Core → Core) : (s.modCore k f).rmWant = s.rmWant := by simp only [State.modCore, State.setCore_rmWant]
@[simp] theorem State.modCore_rmAt (s : State) (k : Nat) (f : Core → Core) : (s.modCore k f).rmAt = s.rmAt := by simp only [State.modCore, State.setCore_rmAt]
@[simp] theorem State.modCore_launchNo (s : State) (k : Nat) (f : Core → Core) : (s.modCore k f).launchNo = s.launchNo := by simp only [State.modCore, State.setCore_launchNo]
@[simp] theorem State.modCore_agenda (s : State) (k : Nat) (f : Core → Core) : (s.modCore k f).agenda = s.agenda := by simp only [State.modCore, State.setCore_agenda]
@[simp] theorem State.modCore_acting (s : State) (k : Nat) (f : Core → Core) : (s.modCore k f).acting = s.acting := by simp only [State.modCore, State.setCore_acting]
@[simp] theorem State.modCore_seqNo (s : State) (k : Nat) (f : Core → Core) : (s.modCore k f).seqNo = s.seqNo := by simp only [State.modCore, State.setCore_seqNo]
@[simp] theorem State.modCore_freeIx (s : State) (k : Nat) (f : Core → Core) : (s.modCore k f).freeIx = s.freeIx := by simp only [State.modCore, State.setCore_freeIx]
@[simp] theorem State.modCluster_clock (s : State) (k : Nat) (f : Cluster → Cluster) : (s.modCluster k f).clock = s.clock := by rw [State.modCluster]
@[simp] theorem State.modCluster_power (s : State) (k : Nat) (f : Cluster → Cluster) : (s.modCluster k f).power = s.power := by rw [State.modCluster]
@[simp] theorem State.modCluster_image (s : State) (k : Nat) (f : Cluster → Cluster) : (s.modCluster k f).image = s.image := by rw [State.modCluster]
@[simp] theorem State.modCluster_mem (s : State) (k : Nat) (f : Cluster → Cluster) : (s.modCluster k f).mem = s.mem := by rw [State.modCluster]
@[simp] theorem State.modCluster_linkUp (s : State) (k : Nat) (f : Cluster → Cluster) : (s.modCluster k f).linkUp = s.linkUp := by rw [State.modCluster]
@[simp] theorem State.modCluster_outages (s : State) (k : Nat) (f : Cluster → Cluster) : (s.modCluster k f).outages = s.outages := by rw [State.modCluster]
@[simp] theorem State.modCluster_ports (s : State) (k : Nat) (f : Cluster → Cluster) : (s.modCluster k f).ports = s.ports := by rw [State.modCluster]
@[simp] theorem State.modCluster_inbound (s : State) (k : Nat) (f : Cluster → Cluster) : (s.modCluster k f).inbound = s.inbound := by rw [State.modCluster]
@[simp] theorem State.modCluster_domain (s : State) (k : Nat) (f : Cluster → Cluster) : (s.modCluster k f).domain = s.domain := by rw [State.modCluster]
@[simp] theorem State.modCluster_stampOffset (s : State) (k : Nat) (f : Cluster → Cluster) : (s.modCluster k f).stampOffset = s.stampOffset := by rw [State.modCluster]
@[simp] theorem State.modCluster_trace (s : State) (k : Nat) (f : Cluster → Cluster) : (s.modCluster k f).trace = s.trace := by rw [State.modCluster]
@[simp] theorem State.modCluster_hostRead (s : State) (k : Nat) (f : Cluster → Cluster) : (s.modCluster k f).hostRead = s.hostRead := by rw [State.modCluster]
@[simp] theorem State.modCluster_cores (s : State) (k : Nat) (f : Cluster → Cluster) : (s.modCluster k f).cores = s.cores := by rw [State.modCluster]
@[simp] theorem State.modCluster_channels (s : State) (k : Nat) (f : Cluster → Cluster) : (s.modCluster k f).channels = s.channels := by rw [State.modCluster]
@[simp] theorem State.modCluster_stackCores (s : State) (k : Nat) (f : Cluster → Cluster) : (s.modCluster k f).stackCores = s.stackCores := by rw [State.modCluster]
@[simp] theorem State.modCluster_slots (s : State) (k : Nat) (f : Cluster → Cluster) : (s.modCluster k f).slots = s.slots := by rw [State.modCluster]
@[simp] theorem State.modCluster_apps (s : State) (k : Nat) (f : Cluster → Cluster) : (s.modCluster k f).apps = s.apps := by rw [State.modCluster]
@[simp] theorem State.modCluster_ifaces (s : State) (k : Nat) (f : Cluster → Cluster) : (s.modCluster k f).ifaces = s.ifaces := by rw [State.modCluster]
@[simp] theorem State.modCluster_spaces (s : State) (k : Nat) (f : Cluster → Cluster) : (s.modCluster k f).spaces = s.spaces := by rw [State.modCluster]
@[simp] theorem State.modCluster_saved (s : State) (k : Nat) (f : Cluster → Cluster) : (s.modCluster k f).saved = s.saved := by rw [State.modCluster]
@[simp] theorem State.modCluster_codeOld (s : State) (k : Nat) (f : Cluster → Cluster) : (s.modCluster k f).codeOld = s.codeOld := by rw [State.modCluster]
@[simp] theorem State.modCluster_codeNew (s : State) (k : Nat) (f : Cluster → Cluster) : (s.modCluster k f).codeNew = s.codeNew := by rw [State.modCluster]
@[simp] theorem State.modCluster_rmLast (s : State) (k : Nat) (f : Cluster → Cluster) : (s.modCluster k f).rmLast = s.rmLast := by rw [State.modCluster]
@[simp] theorem State.modCluster_rmHeld (s : State) (k : Nat) (f : Cluster → Cluster) : (s.modCluster k f).rmHeld = s.rmHeld := by rw [State.modCluster]
@[simp] theorem State.modCluster_rmWant (s : State) (k : Nat) (f : Cluster → Cluster) : (s.modCluster k f).rmWant = s.rmWant := by rw [State.modCluster]
@[simp] theorem State.modCluster_rmAt (s : State) (k : Nat) (f : Cluster → Cluster) : (s.modCluster k f).rmAt = s.rmAt := by rw [State.modCluster]
@[simp] theorem State.modCluster_launchNo (s : State) (k : Nat) (f : Cluster → Cluster) : (s.modCluster k f).launchNo = s.launchNo := by rw [State.modCluster]
@[simp] theorem State.modCluster_agenda (s : State) (k : Nat) (f : Cluster → Cluster) : (s.modCluster k f).agenda = s.agenda := by rw [State.modCluster]
@[simp] theorem State.modCluster_acting (s : State) (k : Nat) (f : Cluster → Cluster) : (s.modCluster k f).acting = s.acting := by rw [State.modCluster]
@[simp] theorem State.modCluster_seqNo (s : State) (k : Nat) (f : Cluster → Cluster) : (s.modCluster k f).seqNo = s.seqNo := by rw [State.modCluster]
@[simp] theorem State.modCluster_freeIx (s : State) (k : Nat) (f : Cluster → Cluster) : (s.modCluster k f).freeIx = s.freeIx := by rw [State.modCluster]
@[simp] theorem State.modChannel_clock (s : State) (k : Nat) (f : Channel → Channel) : (s.modChannel k f).clock = s.clock := by rw [State.modChannel]
@[simp] theorem State.modChannel_power (s : State) (k : Nat) (f : Channel → Channel) : (s.modChannel k f).power = s.power := by rw [State.modChannel]
@[simp] theorem State.modChannel_image (s : State) (k : Nat) (f : Channel → Channel) : (s.modChannel k f).image = s.image := by rw [State.modChannel]
@[simp] theorem State.modChannel_mem (s : State) (k : Nat) (f : Channel → Channel) : (s.modChannel k f).mem = s.mem := by rw [State.modChannel]
@[simp] theorem State.modChannel_linkUp (s : State) (k : Nat) (f : Channel → Channel) : (s.modChannel k f).linkUp = s.linkUp := by rw [State.modChannel]
@[simp] theorem State.modChannel_outages (s : State) (k : Nat) (f : Channel → Channel) : (s.modChannel k f).outages = s.outages := by rw [State.modChannel]
@[simp] theorem State.modChannel_ports (s : State) (k : Nat) (f : Channel → Channel) : (s.modChannel k f).ports = s.ports := by rw [State.modChannel]
@[simp] theorem State.modChannel_inbound (s : State) (k : Nat) (f : Channel → Channel) : (s.modChannel k f).inbound = s.inbound := by rw [State.modChannel]
@[simp] theorem State.modChannel_domain (s : State) (k : Nat) (f : Channel → Channel) : (s.modChannel k f).domain = s.domain := by rw [State.modChannel]
@[simp] theorem State.modChannel_stampOffset (s : State) (k : Nat) (f : Channel → Channel) : (s.modChannel k f).stampOffset = s.stampOffset := by rw [State.modChannel]
@[simp] theorem State.modChannel_trace (s : State) (k : Nat) (f : Channel → Channel) : (s.modChannel k f).trace = s.trace := by rw [State.modChannel]
@[simp] theorem State.modChannel_hostRead (s : State) (k : Nat) (f : Channel → Channel) : (s.modChannel k f).hostRead = s.hostRead := by rw [State.modChannel]
@[simp] theorem State.modChannel_cores (s : State) (k : Nat) (f : Channel → Channel) : (s.modChannel k f).cores = s.cores := by rw [State.modChannel]
@[simp] theorem State.modChannel_clusters (s : State) (k : Nat) (f : Channel → Channel) : (s.modChannel k f).clusters = s.clusters := by rw [State.modChannel]
@[simp] theorem State.modChannel_stackCores (s : State) (k : Nat) (f : Channel → Channel) : (s.modChannel k f).stackCores = s.stackCores := by rw [State.modChannel]
@[simp] theorem State.modChannel_slots (s : State) (k : Nat) (f : Channel → Channel) : (s.modChannel k f).slots = s.slots := by rw [State.modChannel]
@[simp] theorem State.modChannel_apps (s : State) (k : Nat) (f : Channel → Channel) : (s.modChannel k f).apps = s.apps := by rw [State.modChannel]
@[simp] theorem State.modChannel_ifaces (s : State) (k : Nat) (f : Channel → Channel) : (s.modChannel k f).ifaces = s.ifaces := by rw [State.modChannel]
@[simp] theorem State.modChannel_spaces (s : State) (k : Nat) (f : Channel → Channel) : (s.modChannel k f).spaces = s.spaces := by rw [State.modChannel]
@[simp] theorem State.modChannel_saved (s : State) (k : Nat) (f : Channel → Channel) : (s.modChannel k f).saved = s.saved := by rw [State.modChannel]
@[simp] theorem State.modChannel_codeOld (s : State) (k : Nat) (f : Channel → Channel) : (s.modChannel k f).codeOld = s.codeOld := by rw [State.modChannel]
@[simp] theorem State.modChannel_codeNew (s : State) (k : Nat) (f : Channel → Channel) : (s.modChannel k f).codeNew = s.codeNew := by rw [State.modChannel]
@[simp] theorem State.modChannel_rmLast (s : State) (k : Nat) (f : Channel → Channel) : (s.modChannel k f).rmLast = s.rmLast := by rw [State.modChannel]
@[simp] theorem State.modChannel_rmHeld (s : State) (k : Nat) (f : Channel → Channel) : (s.modChannel k f).rmHeld = s.rmHeld := by rw [State.modChannel]
@[simp] theorem State.modChannel_rmWant (s : State) (k : Nat) (f : Channel → Channel) : (s.modChannel k f).rmWant = s.rmWant := by rw [State.modChannel]
@[simp] theorem State.modChannel_rmAt (s : State) (k : Nat) (f : Channel → Channel) : (s.modChannel k f).rmAt = s.rmAt := by rw [State.modChannel]
@[simp] theorem State.modChannel_launchNo (s : State) (k : Nat) (f : Channel → Channel) : (s.modChannel k f).launchNo = s.launchNo := by rw [State.modChannel]
@[simp] theorem State.modChannel_agenda (s : State) (k : Nat) (f : Channel → Channel) : (s.modChannel k f).agenda = s.agenda := by rw [State.modChannel]
@[simp] theorem State.modChannel_acting (s : State) (k : Nat) (f : Channel → Channel) : (s.modChannel k f).acting = s.acting := by rw [State.modChannel]
@[simp] theorem State.modChannel_seqNo (s : State) (k : Nat) (f : Channel → Channel) : (s.modChannel k f).seqNo = s.seqNo := by rw [State.modChannel]
@[simp] theorem State.modChannel_freeIx (s : State) (k : Nat) (f : Channel → Channel) : (s.modChannel k f).freeIx = s.freeIx := by rw [State.modChannel]
@[simp] theorem State.modStackCore_clock (s : State) (k : Nat) (f : StackCore → StackCore) : (s.modStackCore k f).clock = s.clock := by rw [State.modStackCore]
@[simp] theorem State.modStackCore_power (s : State) (k : Nat) (f : StackCore → StackCore) : (s.modStackCore k f).power = s.power := by rw [State.modStackCore]
@[simp] theorem State.modStackCore_image (s : State) (k : Nat) (f : StackCore → StackCore) : (s.modStackCore k f).image = s.image := by rw [State.modStackCore]
@[simp] theorem State.modStackCore_mem (s : State) (k : Nat) (f : StackCore → StackCore) : (s.modStackCore k f).mem = s.mem := by rw [State.modStackCore]
@[simp] theorem State.modStackCore_linkUp (s : State) (k : Nat) (f : StackCore → StackCore) : (s.modStackCore k f).linkUp = s.linkUp := by rw [State.modStackCore]
@[simp] theorem State.modStackCore_outages (s : State) (k : Nat) (f : StackCore → StackCore) : (s.modStackCore k f).outages = s.outages := by rw [State.modStackCore]
@[simp] theorem State.modStackCore_ports (s : State) (k : Nat) (f : StackCore → StackCore) : (s.modStackCore k f).ports = s.ports := by rw [State.modStackCore]
@[simp] theorem State.modStackCore_inbound (s : State) (k : Nat) (f : StackCore → StackCore) : (s.modStackCore k f).inbound = s.inbound := by rw [State.modStackCore]
@[simp] theorem State.modStackCore_domain (s : State) (k : Nat) (f : StackCore → StackCore) : (s.modStackCore k f).domain = s.domain := by rw [State.modStackCore]
@[simp] theorem State.modStackCore_stampOffset (s : State) (k : Nat) (f : StackCore → StackCore) : (s.modStackCore k f).stampOffset = s.stampOffset := by rw [State.modStackCore]
@[simp] theorem State.modStackCore_trace (s : State) (k : Nat) (f : StackCore → StackCore) : (s.modStackCore k f).trace = s.trace := by rw [State.modStackCore]
@[simp] theorem State.modStackCore_hostRead (s : State) (k : Nat) (f : StackCore → StackCore) : (s.modStackCore k f).hostRead = s.hostRead := by rw [State.modStackCore]
@[simp] theorem State.modStackCore_cores (s : State) (k : Nat) (f : StackCore → StackCore) : (s.modStackCore k f).cores = s.cores := by rw [State.modStackCore]
@[simp] theorem State.modStackCore_clusters (s : State) (k : Nat) (f : StackCore → StackCore) : (s.modStackCore k f).clusters = s.clusters := by rw [State.modStackCore]
@[simp] theorem State.modStackCore_channels (s : State) (k : Nat) (f : StackCore → StackCore) : (s.modStackCore k f).channels = s.channels := by rw [State.modStackCore]
@[simp] theorem State.modStackCore_slots (s : State) (k : Nat) (f : StackCore → StackCore) : (s.modStackCore k f).slots = s.slots := by rw [State.modStackCore]
@[simp] theorem State.modStackCore_apps (s : State) (k : Nat) (f : StackCore → StackCore) : (s.modStackCore k f).apps = s.apps := by rw [State.modStackCore]
@[simp] theorem State.modStackCore_ifaces (s : State) (k : Nat) (f : StackCore → StackCore) : (s.modStackCore k f).ifaces = s.ifaces := by rw [State.modStackCore]
@[simp] theorem State.modStackCore_spaces (s : State) (k : Nat) (f : StackCore → StackCore) : (s.modStackCore k f).spaces = s.spaces := by rw [State.modStackCore]
@[simp] theorem State.modStackCore_saved (s : State) (k : Nat) (f : StackCore → StackCore) : (s.modStackCore k f).saved = s.saved := by rw [State.modStackCore]
@[simp] theorem State.modStackCore_codeOld (s : State) (k : Nat) (f : StackCore → StackCore) : (s.modStackCore k f).codeOld = s.codeOld := by rw [State.modStackCore]
@[simp] theorem State.modStackCore_codeNew (s : State) (k : Nat) (f : StackCore → StackCore) : (s.modStackCore k f).codeNew = s.codeNew := by rw [State.modStackCore]
@[simp] theorem State.modStackCore_rmLast (s : State) (k : Nat) (f : StackCore → StackCore) : (s.modStackCore k f).rmLast = s.rmLast := by rw [State.modStackCore]
@[simp] theorem State.modStackCore_rmHeld (s : State) (k : Nat) (f : StackCore → StackCore) : (s.modStackCore k f).rmHeld = s.rmHeld := by rw [State.modStackCore]
@[simp] theorem State.modStackCore_rmWant (s : State) (k : Nat) (f : StackCore → StackCore) : (s.modStackCore k f).rmWant = s.rmWant := by rw [State.modStackCore]
@[simp] theorem State.modStackCore_rmAt (s : State) (k : Nat) (f : StackCore → StackCore) : (s.modStackCore k f).rmAt = s.rmAt := by rw [State.modStackCore]
@[simp] theorem State.modStackCore_launchNo (s : State) (k : Nat) (f : StackCore → StackCore) : (s.modStackCore k f).launchNo = s.launchNo := by rw [State.modStackCore]
@[simp] theorem State.modStackCore_agenda (s : State) (k : Nat) (f : StackCore → StackCore) : (s.modStackCore k f).agenda = s.agenda := by rw [State.modStackCore]
@[simp] theorem State.modStackCore_acting (s : State) (k : Nat) (f : StackCore → StackCore) : (s.modStackCore k f).acting = s.acting := by rw [State.modStackCore]
@[simp] theorem State.modStackCore_seqNo (s : State) (k : Nat) (f : StackCore → StackCore) : (s.modStackCore k f).seqNo = s.seqNo := by rw [State.modStackCore]
@[simp] theorem State.modStackCore_freeIx (s : State) (k : Nat) (f : StackCore → StackCore) : (s.modStackCore k f).freeIx = s.freeIx := by rw [State.modStackCore]
@[simp] theorem State.modSlot_clock (s : State) (k : Nat) (f : QueueSlot → QueueSlot) : (s.modSlot k f).clock = s.clock := by rw [State.modSlot]
@[simp] theorem State.modSlot_power (s : State) (k : Nat) (f : QueueSlot → QueueSlot) : (s.modSlot k f).power = s.power := by rw [State.modSlot]
@[simp] theorem State.modSlot_image (s : State) (k : Nat) (f : QueueSlot → QueueSlot) : (s.modSlot k f).image = s.image := by rw [State.modSlot]
@[simp] theorem State.modSlot_mem (s : State) (k : Nat) (f : QueueSlot → QueueSlot) : (s.modSlot k f).mem = s.mem := by rw [State.modSlot]
@[simp] theorem State.modSlot_linkUp (s : State) (k : Nat) (f : QueueSlot → QueueSlot) : (s.modSlot k f).linkUp = s.linkUp := by rw [State.modSlot]
@[simp] theorem State.modSlot_outages (s : State) (k : Nat) (f : QueueSlot → QueueSlot) : (s.modSlot k f).outages = s.outages := by rw [State.modSlot]
@[simp] theorem State.modSlot_ports (s : State) (k : Nat) (f : QueueSlot → QueueSlot) : (s.modSlot k f).ports = s.ports := by rw [State.modSlot]
@[simp] theorem State.modSlot_inbound (s : State) (k : Nat) (f : QueueSlot → QueueSlot) : (s.modSlot k f).inbound = s.inbound := by rw [State.modSlot]
@[simp] theorem State.modSlot_domain (s : State) (k : Nat) (f : QueueSlot → QueueSlot) : (s.modSlot k f).domain = s.domain := by rw [State.modSlot]
@[simp] theorem State.modSlot_stampOffset (s : State) (k : Nat) (f : QueueSlot → QueueSlot) : (s.modSlot k f).stampOffset = s.stampOffset := by rw [State.modSlot]
@[simp] theorem State.modSlot_trace (s : State) (k : Nat) (f : QueueSlot → QueueSlot) : (s.modSlot k f).trace = s.trace := by rw [State.modSlot]
@[simp] theorem State.modSlot_hostRead (s : State) (k : Nat) (f : QueueSlot → QueueSlot) : (s.modSlot k f).hostRead = s.hostRead := by rw [State.modSlot]
@[simp] theorem State.modSlot_cores (s : State) (k : Nat) (f : QueueSlot → QueueSlot) : (s.modSlot k f).cores = s.cores := by rw [State.modSlot]
@[simp] theorem State.modSlot_clusters (s : State) (k : Nat) (f : QueueSlot → QueueSlot) : (s.modSlot k f).clusters = s.clusters := by rw [State.modSlot]
@[simp] theorem State.modSlot_channels (s : State) (k : Nat) (f : QueueSlot → QueueSlot) : (s.modSlot k f).channels = s.channels := by rw [State.modSlot]
@[simp] theorem State.modSlot_stackCores (s : State) (k : Nat) (f : QueueSlot → QueueSlot) : (s.modSlot k f).stackCores = s.stackCores := by rw [State.modSlot]
@[simp] theorem State.modSlot_apps (s : State) (k : Nat) (f : QueueSlot → QueueSlot) : (s.modSlot k f).apps = s.apps := by rw [State.modSlot]
@[simp] theorem State.modSlot_ifaces (s : State) (k : Nat) (f : QueueSlot → QueueSlot) : (s.modSlot k f).ifaces = s.ifaces := by rw [State.modSlot]
@[simp] theorem State.modSlot_spaces (s : State) (k : Nat) (f : QueueSlot → QueueSlot) : (s.modSlot k f).spaces = s.spaces := by rw [State.modSlot]
@[simp] theorem State.modSlot_saved (s : State) (k : Nat) (f : QueueSlot → QueueSlot) : (s.modSlot k f).saved = s.saved := by rw [State.modSlot]
@[simp] theorem State.modSlot_codeOld (s : State) (k : Nat) (f : QueueSlot → QueueSlot) : (s.modSlot k f).codeOld = s.codeOld := by rw [State.modSlot]
@[simp] theorem State.modSlot_codeNew (s : State) (k : Nat) (f : QueueSlot → QueueSlot) : (s.modSlot k f).codeNew = s.codeNew := by rw [State.modSlot]
@[simp] theorem State.modSlot_rmLast (s : State) (k : Nat) (f : QueueSlot → QueueSlot) : (s.modSlot k f).rmLast = s.rmLast := by rw [State.modSlot]
@[simp] theorem State.modSlot_rmHeld (s : State) (k : Nat) (f : QueueSlot → QueueSlot) : (s.modSlot k f).rmHeld = s.rmHeld := by rw [State.modSlot]
@[simp] theorem State.modSlot_rmWant (s : State) (k : Nat) (f : QueueSlot → QueueSlot) : (s.modSlot k f).rmWant = s.rmWant := by rw [State.modSlot]
@[simp] theorem State.modSlot_rmAt (s : State) (k : Nat) (f : QueueSlot → QueueSlot) : (s.modSlot k f).rmAt = s.rmAt := by rw [State.modSlot]
@[simp] theorem State.modSlot_launchNo (s : State) (k : Nat) (f : QueueSlot → QueueSlot) : (s.modSlot k f).launchNo = s.launchNo := by rw [State.modSlot]
@[simp] theorem State.modSlot_agenda (s : State) (k : Nat) (f : QueueSlot → QueueSlot) : (s.modSlot k f).agenda = s.agenda := by rw [State.modSlot]
@[simp] theorem State.modSlot_acting (s : State) (k : Nat) (f : QueueSlot → QueueSlot) : (s.modSlot k f).acting = s.acting := by rw [State.modSlot]
@[simp] theorem State.modSlot_seqNo (s : State) (k : Nat) (f : QueueSlot → QueueSlot) : (s.modSlot k f).seqNo = s.seqNo := by rw [State.modSlot]
@[simp] theorem State.modSlot_freeIx (s : State) (k : Nat) (f : QueueSlot → QueueSlot) : (s.modSlot k f).freeIx = s.freeIx := by rw [State.modSlot]
@[simp] theorem State.modIface_clock (s : State) (k : Nat) (f : Iface → Iface) : (s.modIface k f).clock = s.clock := by rw [State.modIface]
@[simp] theorem State.modIface_power (s : State) (k : Nat) (f : Iface → Iface) : (s.modIface k f).power = s.power := by rw [State.modIface]
@[simp] theorem State.modIface_image (s : State) (k : Nat) (f : Iface → Iface) : (s.modIface k f).image = s.image := by rw [State.modIface]
@[simp] theorem State.modIface_mem (s : State) (k : Nat) (f : Iface → Iface) : (s.modIface k f).mem = s.mem := by rw [State.modIface]
@[simp] theorem State.modIface_linkUp (s : State) (k : Nat) (f : Iface → Iface) : (s.modIface k f).linkUp = s.linkUp := by rw [State.modIface]
@[simp] theorem State.modIface_outages (s : State) (k : Nat) (f : Iface → Iface) : (s.modIface k f).outages = s.outages := by rw [State.modIface]
@[simp] theorem State.modIface_ports (s : State) (k : Nat) (f : Iface → Iface) : (s.modIface k f).ports = s.ports := by rw [State.modIface]
@[simp] theorem State.modIface_inbound (s : State) (k : Nat) (f : Iface → Iface) : (s.modIface k f).inbound = s.inbound := by rw [State.modIface]
@[simp] theorem State.modIface_domain (s : State) (k : Nat) (f : Iface → Iface) : (s.modIface k f).domain = s.domain := by rw [State.modIface]
@[simp] theorem State.modIface_stampOffset (s : State) (k : Nat) (f : Iface → Iface) : (s.modIface k f).stampOffset = s.stampOffset := by rw [State.modIface]
@[simp] theorem State.modIface_trace (s : State) (k : Nat) (f : Iface → Iface) : (s.modIface k f).trace = s.trace := by rw [State.modIface]
@[simp] theorem State.modIface_hostRead (s : State) (k : Nat) (f : Iface → Iface) : (s.modIface k f).hostRead = s.hostRead := by rw [State.modIface]
@[simp] theorem State.modIface_cores (s : State) (k : Nat) (f : Iface → Iface) : (s.modIface k f).cores = s.cores := by rw [State.modIface]
@[simp] theorem State.modIface_clusters (s : State) (k : Nat) (f : Iface → Iface) : (s.modIface k f).clusters = s.clusters := by rw [State.modIface]
@[simp] theorem State.modIface_channels (s : State) (k : Nat) (f : Iface → Iface) : (s.modIface k f).channels = s.channels := by rw [State.modIface]
@[simp] theorem State.modIface_stackCores (s : State) (k : Nat) (f : Iface → Iface) : (s.modIface k f).stackCores = s.stackCores := by rw [State.modIface]
@[simp] theorem State.modIface_slots (s : State) (k : Nat) (f : Iface → Iface) : (s.modIface k f).slots = s.slots := by rw [State.modIface]
@[simp] theorem State.modIface_apps (s : State) (k : Nat) (f : Iface → Iface) : (s.modIface k f).apps = s.apps := by rw [State.modIface]
@[simp] theorem State.modIface_spaces (s : State) (k : Nat) (f : Iface → Iface) : (s.modIface k f).spaces = s.spaces := by rw [State.modIface]
@[simp] theorem State.modIface_saved (s : State) (k : Nat) (f : Iface → Iface) : (s.modIface k f).saved = s.saved := by rw [State.modIface]
@[simp] theorem State.modIface_codeOld (s : State) (k : Nat) (f : Iface → Iface) : (s.modIface k f).codeOld = s.codeOld := by rw [State.modIface]
@[simp] theorem State.modIface_codeNew (s : State) (k : Nat) (f : Iface → Iface) : (s.modIface k f).codeNew = s.codeNew := by rw [State.modIface]
@[simp] theorem State.modIface_rmLast (s : State) (k : Nat) (f : Iface → Iface) : (s.modIface k f).rmLast = s.rmLast := by rw [State.modIface]
@[simp] theorem State.modIface_rmHeld (s : State) (k : Nat) (f : Iface → Iface) : (s.modIface k f).rmHeld = s.rmHeld := by rw [State.modIface]
@[simp] theorem State.modIface_rmWant (s : State) (k : Nat) (f : Iface → Iface) : (s.modIface k f).rmWant = s.rmWant := by rw [State.modIface]
@[simp] theorem State.modIface_rmAt (s : State) (k : Nat) (f : Iface → Iface) : (s.modIface k f).rmAt = s.rmAt := by rw [State.modIface]
@[simp] theorem State.modIface_launchNo (s : State) (k : Nat) (f : Iface → Iface) : (s.modIface k f).launchNo = s.launchNo := by rw [State.modIface]
@[simp] theorem State.modIface_agenda (s : State) (k : Nat) (f : Iface → Iface) : (s.modIface k f).agenda = s.agenda := by rw [State.modIface]
@[simp] theorem State.modIface_acting (s : State) (k : Nat) (f : Iface → Iface) : (s.modIface k f).acting = s.acting := by rw [State.modIface]
@[simp] theorem State.modIface_seqNo (s : State) (k : Nat) (f : Iface → Iface) : (s.modIface k f).seqNo = s.seqNo := by rw [State.modIface]
@[simp] theorem State.modIface_freeIx (s : State) (k : Nat) (f : Iface → Iface) : (s.modIface k f).freeIx = s.freeIx := by rw [State.modIface]
@[simp] theorem State.modSpace_clock (s : State) (k : Nat) (f : Space → Space) : (s.modSpace k f).clock = s.clock := by rw [State.modSpace]
@[simp] theorem State.modSpace_power (s : State) (k : Nat) (f : Space → Space) : (s.modSpace k f).power = s.power := by rw [State.modSpace]
@[simp] theorem State.modSpace_image (s : State) (k : Nat) (f : Space → Space) : (s.modSpace k f).image = s.image := by rw [State.modSpace]
@[simp] theorem State.modSpace_mem (s : State) (k : Nat) (f : Space → Space) : (s.modSpace k f).mem = s.mem := by rw [State.modSpace]
@[simp] theorem State.modSpace_linkUp (s : State) (k : Nat) (f : Space → Space) : (s.modSpace k f).linkUp = s.linkUp := by rw [State.modSpace]
@[simp] theorem State.modSpace_outages (s : State) (k : Nat) (f : Space → Space) : (s.modSpace k f).outages = s.outages := by rw [State.modSpace]
@[simp] theorem State.modSpace_ports (s : State) (k : Nat) (f : Space → Space) : (s.modSpace k f).ports = s.ports := by rw [State.modSpace]
@[simp] theorem State.modSpace_inbound (s : State) (k : Nat) (f : Space → Space) : (s.modSpace k f).inbound = s.inbound := by rw [State.modSpace]
@[simp] theorem State.modSpace_domain (s : State) (k : Nat) (f : Space → Space) : (s.modSpace k f).domain = s.domain := by rw [State.modSpace]
@[simp] theorem State.modSpace_stampOffset (s : State) (k : Nat) (f : Space → Space) : (s.modSpace k f).stampOffset = s.stampOffset := by rw [State.modSpace]
@[simp] theorem State.modSpace_trace (s : State) (k : Nat) (f : Space → Space) : (s.modSpace k f).trace = s.trace := by rw [State.modSpace]
@[simp] theorem State.modSpace_hostRead (s : State) (k : Nat) (f : Space → Space) : (s.modSpace k f).hostRead = s.hostRead := by rw [State.modSpace]
@[simp] theorem State.modSpace_cores (s : State) (k : Nat) (f : Space → Space) : (s.modSpace k f).cores = s.cores := by rw [State.modSpace]
@[simp] theorem State.modSpace_clusters (s : State) (k : Nat) (f : Space → Space) : (s.modSpace k f).clusters = s.clusters := by rw [State.modSpace]
@[simp] theorem State.modSpace_channels (s : State) (k : Nat) (f : Space → Space) : (s.modSpace k f).channels = s.channels := by rw [State.modSpace]
@[simp] theorem State.modSpace_stackCores (s : State) (k : Nat) (f : Space → Space) : (s.modSpace k f).stackCores = s.stackCores := by rw [State.modSpace]
@[simp] theorem State.modSpace_slots (s : State) (k : Nat) (f : Space → Space) : (s.modSpace k f).slots = s.slots := by rw [State.modSpace]
@[simp] theorem State.modSpace_apps (s : State) (k : Nat) (f : Space → Space) : (s.modSpace k f).apps = s.apps := by rw [State.modSpace]
@[simp] theorem State.modSpace_ifaces (s : State) (k : Nat) (f : Space → Space) : (s.modSpace k f).ifaces = s.ifaces := by rw [State.modSpace]
@[simp] theorem State.modSpace_saved (s : State) (k : Nat) (f : Space → Space) : (s.modSpace k f).saved = s.saved := by rw [State.modSpace]
@[simp] theorem State.modSpace_codeOld (s : State) (k : Nat) (f : Space → Space) : (s.modSpace k f).codeOld = s.codeOld := by rw [State.modSpace]
@[simp] theorem State.modSpace_codeNew (s : State) (k : Nat) (f : Space → Space) : (s.modSpace k f).codeNew = s.codeNew := by rw [State.modSpace]
@[simp] theorem State.modSpace_rmLast (s : State) (k : Nat) (f : Space → Space) : (s.modSpace k f).rmLast = s.rmLast := by rw [State.modSpace]
@[simp] theorem State.modSpace_rmHeld (s : State) (k : Nat) (f : Space → Space) : (s.modSpace k f).rmHeld = s.rmHeld := by rw [State.modSpace]
@[simp] theorem State.modSpace_rmWant (s : State) (k : Nat) (f : Space → Space) : (s.modSpace k f).rmWant = s.rmWant := by rw [State.modSpace]
@[simp] theorem State.modSpace_rmAt (s : State) (k : Nat) (f : Space → Space) : (s.modSpace k f).rmAt = s.rmAt := by rw [State.modSpace]
@[simp] theorem State.modSpace_launchNo (s : State) (k : Nat) (f : Space → Space) : (s.modSpace k f).launchNo = s.launchNo := by rw [State.modSpace]
@[simp] theorem State.modSpace_agenda (s : State) (k : Nat) (f : Space → Space) : (s.modSpace k f).agenda = s.agenda := by rw [State.modSpace]
@[simp] theorem State.modSpace_acting (s : State) (k : Nat) (f : Space → Space) : (s.modSpace k f).acting = s.acting := by rw [State.modSpace]
@[simp] theorem State.modSpace_seqNo (s : State) (k : Nat) (f : Space → Space) : (s.modSpace k f).seqNo = s.seqNo := by rw [State.modSpace]
@[simp] theorem State.modSpace_freeIx (s : State) (k : Nat) (f : Space → Space) : (s.modSpace k f).freeIx = s.freeIx := by rw [State.modSpace]
@[simp] theorem State.modBlock_clock (s : State) (k : Nat) (f : Block → Block) : (s.modBlock k f).clock = s.clock := by simp only [State.modBlock, State.modCore_clock]
@[simp] theorem State.modBlock_power (s : State) (k : Nat) (f : Block → Block) : (s.modBlock k f).power = s.power := by simp only [State.modBlock, State.modCore_power]
@[simp] theorem State.modBlock_image (s : State) (k : Nat) (f : Block → Block) : (s.modBlock k f).image = s.image := by simp only [State.modBlock, State.modCore_image]
@[simp] theorem State.modBlock_mem (s : State) (k : Nat) (f : Block → Block) : (s.modBlock k f).mem = s.mem := by simp only [State.modBlock, State.modCore_mem]
@[simp] theorem State.modBlock_linkUp (s : State) (k : Nat) (f : Block → Block) : (s.modBlock k f).linkUp = s.linkUp := by simp only [State.modBlock, State.modCore_linkUp]
@[simp] theorem State.modBlock_outages (s : State) (k : Nat) (f : Block → Block) : (s.modBlock k f).outages = s.outages := by simp only [State.modBlock, State.modCore_outages]
@[simp] theorem State.modBlock_ports (s : State) (k : Nat) (f : Block → Block) : (s.modBlock k f).ports = s.ports := by simp only [State.modBlock, State.modCore_ports]
@[simp] theorem State.modBlock_inbound (s : State) (k : Nat) (f : Block → Block) : (s.modBlock k f).inbound = s.inbound := by simp only [State.modBlock, State.modCore_inbound]
@[simp] theorem State.modBlock_domain (s : State) (k : Nat) (f : Block → Block) : (s.modBlock k f).domain = s.domain := by simp only [State.modBlock, State.modCore_domain]
@[simp] theorem State.modBlock_stampOffset (s : State) (k : Nat) (f : Block → Block) : (s.modBlock k f).stampOffset = s.stampOffset := by simp only [State.modBlock, State.modCore_stampOffset]
@[simp] theorem State.modBlock_trace (s : State) (k : Nat) (f : Block → Block) : (s.modBlock k f).trace = s.trace := by simp only [State.modBlock, State.modCore_trace]
@[simp] theorem State.modBlock_hostRead (s : State) (k : Nat) (f : Block → Block) : (s.modBlock k f).hostRead = s.hostRead := by simp only [State.modBlock, State.modCore_hostRead]
@[simp] theorem State.modBlock_clusters (s : State) (k : Nat) (f : Block → Block) : (s.modBlock k f).clusters = s.clusters := by simp only [State.modBlock, State.modCore_clusters]
@[simp] theorem State.modBlock_channels (s : State) (k : Nat) (f : Block → Block) : (s.modBlock k f).channels = s.channels := by simp only [State.modBlock, State.modCore_channels]
@[simp] theorem State.modBlock_stackCores (s : State) (k : Nat) (f : Block → Block) : (s.modBlock k f).stackCores = s.stackCores := by simp only [State.modBlock, State.modCore_stackCores]
@[simp] theorem State.modBlock_slots (s : State) (k : Nat) (f : Block → Block) : (s.modBlock k f).slots = s.slots := by simp only [State.modBlock, State.modCore_slots]
@[simp] theorem State.modBlock_apps (s : State) (k : Nat) (f : Block → Block) : (s.modBlock k f).apps = s.apps := by simp only [State.modBlock, State.modCore_apps]
@[simp] theorem State.modBlock_ifaces (s : State) (k : Nat) (f : Block → Block) : (s.modBlock k f).ifaces = s.ifaces := by simp only [State.modBlock, State.modCore_ifaces]
@[simp] theorem State.modBlock_spaces (s : State) (k : Nat) (f : Block → Block) : (s.modBlock k f).spaces = s.spaces := by simp only [State.modBlock, State.modCore_spaces]
@[simp] theorem State.modBlock_saved (s : State) (k : Nat) (f : Block → Block) : (s.modBlock k f).saved = s.saved := by simp only [State.modBlock, State.modCore_saved]
@[simp] theorem State.modBlock_codeOld (s : State) (k : Nat) (f : Block → Block) : (s.modBlock k f).codeOld = s.codeOld := by simp only [State.modBlock, State.modCore_codeOld]
@[simp] theorem State.modBlock_codeNew (s : State) (k : Nat) (f : Block → Block) : (s.modBlock k f).codeNew = s.codeNew := by simp only [State.modBlock, State.modCore_codeNew]
@[simp] theorem State.modBlock_rmLast (s : State) (k : Nat) (f : Block → Block) : (s.modBlock k f).rmLast = s.rmLast := by simp only [State.modBlock, State.modCore_rmLast]
@[simp] theorem State.modBlock_rmHeld (s : State) (k : Nat) (f : Block → Block) : (s.modBlock k f).rmHeld = s.rmHeld := by simp only [State.modBlock, State.modCore_rmHeld]
@[simp] theorem State.modBlock_rmWant (s : State) (k : Nat) (f : Block → Block) : (s.modBlock k f).rmWant = s.rmWant := by simp only [State.modBlock, State.modCore_rmWant]
@[simp] theorem State.modBlock_rmAt (s : State) (k : Nat) (f : Block → Block) : (s.modBlock k f).rmAt = s.rmAt := by simp only [State.modBlock, State.modCore_rmAt]
@[simp] theorem State.modBlock_launchNo (s : State) (k : Nat) (f : Block → Block) : (s.modBlock k f).launchNo = s.launchNo := by simp only [State.modBlock, State.modCore_launchNo]
@[simp] theorem State.modBlock_agenda (s : State) (k : Nat) (f : Block → Block) : (s.modBlock k f).agenda = s.agenda := by simp only [State.modBlock, State.modCore_agenda]
@[simp] theorem State.modBlock_acting (s : State) (k : Nat) (f : Block → Block) : (s.modBlock k f).acting = s.acting := by simp only [State.modBlock, State.modCore_acting]
@[simp] theorem State.modBlock_seqNo (s : State) (k : Nat) (f : Block → Block) : (s.modBlock k f).seqNo = s.seqNo := by simp only [State.modBlock, State.modCore_seqNo]
@[simp] theorem State.modBlock_freeIx (s : State) (k : Nat) (f : Block → Block) : (s.modBlock k f).freeIx = s.freeIx := by simp only [State.modBlock, State.modCore_freeIx]
@[simp] theorem State.modTeam_clock (s : State) (k t : Nat) (f : Team → Team) : (s.modTeam k t f).clock = s.clock := by simp only [State.modTeam, State.modBlock_clock]
@[simp] theorem State.modTeam_power (s : State) (k t : Nat) (f : Team → Team) : (s.modTeam k t f).power = s.power := by simp only [State.modTeam, State.modBlock_power]
@[simp] theorem State.modTeam_image (s : State) (k t : Nat) (f : Team → Team) : (s.modTeam k t f).image = s.image := by simp only [State.modTeam, State.modBlock_image]
@[simp] theorem State.modTeam_mem (s : State) (k t : Nat) (f : Team → Team) : (s.modTeam k t f).mem = s.mem := by simp only [State.modTeam, State.modBlock_mem]
@[simp] theorem State.modTeam_linkUp (s : State) (k t : Nat) (f : Team → Team) : (s.modTeam k t f).linkUp = s.linkUp := by simp only [State.modTeam, State.modBlock_linkUp]
@[simp] theorem State.modTeam_outages (s : State) (k t : Nat) (f : Team → Team) : (s.modTeam k t f).outages = s.outages := by simp only [State.modTeam, State.modBlock_outages]
@[simp] theorem State.modTeam_ports (s : State) (k t : Nat) (f : Team → Team) : (s.modTeam k t f).ports = s.ports := by simp only [State.modTeam, State.modBlock_ports]
@[simp] theorem State.modTeam_inbound (s : State) (k t : Nat) (f : Team → Team) : (s.modTeam k t f).inbound = s.inbound := by simp only [State.modTeam, State.modBlock_inbound]
@[simp] theorem State.modTeam_domain (s : State) (k t : Nat) (f : Team → Team) : (s.modTeam k t f).domain = s.domain := by simp only [State.modTeam, State.modBlock_domain]
@[simp] theorem State.modTeam_stampOffset (s : State) (k t : Nat) (f : Team → Team) : (s.modTeam k t f).stampOffset = s.stampOffset := by simp only [State.modTeam, State.modBlock_stampOffset]
@[simp] theorem State.modTeam_trace (s : State) (k t : Nat) (f : Team → Team) : (s.modTeam k t f).trace = s.trace := by simp only [State.modTeam, State.modBlock_trace]
@[simp] theorem State.modTeam_hostRead (s : State) (k t : Nat) (f : Team → Team) : (s.modTeam k t f).hostRead = s.hostRead := by simp only [State.modTeam, State.modBlock_hostRead]
@[simp] theorem State.modTeam_clusters (s : State) (k t : Nat) (f : Team → Team) : (s.modTeam k t f).clusters = s.clusters := by simp only [State.modTeam, State.modBlock_clusters]
@[simp] theorem State.modTeam_channels (s : State) (k t : Nat) (f : Team → Team) : (s.modTeam k t f).channels = s.channels := by simp only [State.modTeam, State.modBlock_channels]
@[simp] theorem State.modTeam_stackCores (s : State) (k t : Nat) (f : Team → Team) : (s.modTeam k t f).stackCores = s.stackCores := by simp only [State.modTeam, State.modBlock_stackCores]
@[simp] theorem State.modTeam_slots (s : State) (k t : Nat) (f : Team → Team) : (s.modTeam k t f).slots = s.slots := by simp only [State.modTeam, State.modBlock_slots]
@[simp] theorem State.modTeam_apps (s : State) (k t : Nat) (f : Team → Team) : (s.modTeam k t f).apps = s.apps := by simp only [State.modTeam, State.modBlock_apps]
@[simp] theorem State.modTeam_ifaces (s : State) (k t : Nat) (f : Team → Team) : (s.modTeam k t f).ifaces = s.ifaces := by simp only [State.modTeam, State.modBlock_ifaces]
@[simp] theorem State.modTeam_spaces (s : State) (k t : Nat) (f : Team → Team) : (s.modTeam k t f).spaces = s.spaces := by simp only [State.modTeam, State.modBlock_spaces]
@[simp] theorem State.modTeam_saved (s : State) (k t : Nat) (f : Team → Team) : (s.modTeam k t f).saved = s.saved := by simp only [State.modTeam, State.modBlock_saved]
@[simp] theorem State.modTeam_codeOld (s : State) (k t : Nat) (f : Team → Team) : (s.modTeam k t f).codeOld = s.codeOld := by simp only [State.modTeam, State.modBlock_codeOld]
@[simp] theorem State.modTeam_codeNew (s : State) (k t : Nat) (f : Team → Team) : (s.modTeam k t f).codeNew = s.codeNew := by simp only [State.modTeam, State.modBlock_codeNew]
@[simp] theorem State.modTeam_rmLast (s : State) (k t : Nat) (f : Team → Team) : (s.modTeam k t f).rmLast = s.rmLast := by simp only [State.modTeam, State.modBlock_rmLast]
@[simp] theorem State.modTeam_rmHeld (s : State) (k t : Nat) (f : Team → Team) : (s.modTeam k t f).rmHeld = s.rmHeld := by simp only [State.modTeam, State.modBlock_rmHeld]
@[simp] theorem State.modTeam_rmWant (s : State) (k t : Nat) (f : Team → Team) : (s.modTeam k t f).rmWant = s.rmWant := by simp only [State.modTeam, State.modBlock_rmWant]
@[simp] theorem State.modTeam_rmAt (s : State) (k t : Nat) (f : Team → Team) : (s.modTeam k t f).rmAt = s.rmAt := by simp only [State.modTeam, State.modBlock_rmAt]
@[simp] theorem State.modTeam_launchNo (s : State) (k t : Nat) (f : Team → Team) : (s.modTeam k t f).launchNo = s.launchNo := by simp only [State.modTeam, State.modBlock_launchNo]
@[simp] theorem State.modTeam_agenda (s : State) (k t : Nat) (f : Team → Team) : (s.modTeam k t f).agenda = s.agenda := by simp only [State.modTeam, State.modBlock_agenda]
@[simp] theorem State.modTeam_acting (s : State) (k t : Nat) (f : Team → Team) : (s.modTeam k t f).acting = s.acting := by simp only [State.modTeam, State.modBlock_acting]
@[simp] theorem State.modTeam_seqNo (s : State) (k t : Nat) (f : Team → Team) : (s.modTeam k t f).seqNo = s.seqNo := by simp only [State.modTeam, State.modBlock_seqNo]
@[simp] theorem State.modTeam_freeIx (s : State) (k t : Nat) (f : Team → Team) : (s.modTeam k t f).freeIx = s.freeIx := by simp only [State.modTeam, State.modBlock_freeIx]
@[simp] theorem State.modFrag_clock (s : State) (k t n : Nat) (f : Frag → Frag) : (s.modFrag k t n f).clock = s.clock := by simp only [State.modFrag, State.modTeam_clock]
@[simp] theorem State.modFrag_power (s : State) (k t n : Nat) (f : Frag → Frag) : (s.modFrag k t n f).power = s.power := by simp only [State.modFrag, State.modTeam_power]
@[simp] theorem State.modFrag_image (s : State) (k t n : Nat) (f : Frag → Frag) : (s.modFrag k t n f).image = s.image := by simp only [State.modFrag, State.modTeam_image]
@[simp] theorem State.modFrag_mem (s : State) (k t n : Nat) (f : Frag → Frag) : (s.modFrag k t n f).mem = s.mem := by simp only [State.modFrag, State.modTeam_mem]
@[simp] theorem State.modFrag_linkUp (s : State) (k t n : Nat) (f : Frag → Frag) : (s.modFrag k t n f).linkUp = s.linkUp := by simp only [State.modFrag, State.modTeam_linkUp]
@[simp] theorem State.modFrag_outages (s : State) (k t n : Nat) (f : Frag → Frag) : (s.modFrag k t n f).outages = s.outages := by simp only [State.modFrag, State.modTeam_outages]
@[simp] theorem State.modFrag_ports (s : State) (k t n : Nat) (f : Frag → Frag) : (s.modFrag k t n f).ports = s.ports := by simp only [State.modFrag, State.modTeam_ports]
@[simp] theorem State.modFrag_inbound (s : State) (k t n : Nat) (f : Frag → Frag) : (s.modFrag k t n f).inbound = s.inbound := by simp only [State.modFrag, State.modTeam_inbound]
@[simp] theorem State.modFrag_domain (s : State) (k t n : Nat) (f : Frag → Frag) : (s.modFrag k t n f).domain = s.domain := by simp only [State.modFrag, State.modTeam_domain]
@[simp] theorem State.modFrag_stampOffset (s : State) (k t n : Nat) (f : Frag → Frag) : (s.modFrag k t n f).stampOffset = s.stampOffset := by simp only [State.modFrag, State.modTeam_stampOffset]
@[simp] theorem State.modFrag_trace (s : State) (k t n : Nat) (f : Frag → Frag) : (s.modFrag k t n f).trace = s.trace := by simp only [State.modFrag, State.modTeam_trace]
@[simp] theorem State.modFrag_hostRead (s : State) (k t n : Nat) (f : Frag → Frag) : (s.modFrag k t n f).hostRead = s.hostRead := by simp only [State.modFrag, State.modTeam_hostRead]
@[simp] theorem State.modFrag_clusters (s : State) (k t n : Nat) (f : Frag → Frag) : (s.modFrag k t n f).clusters = s.clusters := by simp only [State.modFrag, State.modTeam_clusters]
@[simp] theorem State.modFrag_channels (s : State) (k t n : Nat) (f : Frag → Frag) : (s.modFrag k t n f).channels = s.channels := by simp only [State.modFrag, State.modTeam_channels]
@[simp] theorem State.modFrag_stackCores (s : State) (k t n : Nat) (f : Frag → Frag) : (s.modFrag k t n f).stackCores = s.stackCores := by simp only [State.modFrag, State.modTeam_stackCores]
@[simp] theorem State.modFrag_slots (s : State) (k t n : Nat) (f : Frag → Frag) : (s.modFrag k t n f).slots = s.slots := by simp only [State.modFrag, State.modTeam_slots]
@[simp] theorem State.modFrag_apps (s : State) (k t n : Nat) (f : Frag → Frag) : (s.modFrag k t n f).apps = s.apps := by simp only [State.modFrag, State.modTeam_apps]
@[simp] theorem State.modFrag_ifaces (s : State) (k t n : Nat) (f : Frag → Frag) : (s.modFrag k t n f).ifaces = s.ifaces := by simp only [State.modFrag, State.modTeam_ifaces]
@[simp] theorem State.modFrag_spaces (s : State) (k t n : Nat) (f : Frag → Frag) : (s.modFrag k t n f).spaces = s.spaces := by simp only [State.modFrag, State.modTeam_spaces]
@[simp] theorem State.modFrag_saved (s : State) (k t n : Nat) (f : Frag → Frag) : (s.modFrag k t n f).saved = s.saved := by simp only [State.modFrag, State.modTeam_saved]
@[simp] theorem State.modFrag_codeOld (s : State) (k t n : Nat) (f : Frag → Frag) : (s.modFrag k t n f).codeOld = s.codeOld := by simp only [State.modFrag, State.modTeam_codeOld]
@[simp] theorem State.modFrag_codeNew (s : State) (k t n : Nat) (f : Frag → Frag) : (s.modFrag k t n f).codeNew = s.codeNew := by simp only [State.modFrag, State.modTeam_codeNew]
@[simp] theorem State.modFrag_rmLast (s : State) (k t n : Nat) (f : Frag → Frag) : (s.modFrag k t n f).rmLast = s.rmLast := by simp only [State.modFrag, State.modTeam_rmLast]
@[simp] theorem State.modFrag_rmHeld (s : State) (k t n : Nat) (f : Frag → Frag) : (s.modFrag k t n f).rmHeld = s.rmHeld := by simp only [State.modFrag, State.modTeam_rmHeld]
@[simp] theorem State.modFrag_rmWant (s : State) (k t n : Nat) (f : Frag → Frag) : (s.modFrag k t n f).rmWant = s.rmWant := by simp only [State.modFrag, State.modTeam_rmWant]
@[simp] theorem State.modFrag_rmAt (s : State) (k t n : Nat) (f : Frag → Frag) : (s.modFrag k t n f).rmAt = s.rmAt := by simp only [State.modFrag, State.modTeam_rmAt]
@[simp] theorem State.modFrag_launchNo (s : State) (k t n : Nat) (f : Frag → Frag) : (s.modFrag k t n f).launchNo = s.launchNo := by simp only [State.modFrag, State.modTeam_launchNo]
@[simp] theorem State.modFrag_agenda (s : State) (k t n : Nat) (f : Frag → Frag) : (s.modFrag k t n f).agenda = s.agenda := by simp only [State.modFrag, State.modTeam_agenda]
@[simp] theorem State.modFrag_acting (s : State) (k t n : Nat) (f : Frag → Frag) : (s.modFrag k t n f).acting = s.acting := by simp only [State.modFrag, State.modTeam_acting]
@[simp] theorem State.modFrag_seqNo (s : State) (k t n : Nat) (f : Frag → Frag) : (s.modFrag k t n f).seqNo = s.seqNo := by simp only [State.modFrag, State.modTeam_seqNo]
@[simp] theorem State.modFrag_freeIx (s : State) (k t n : Nat) (f : Frag → Frag) : (s.modFrag k t n f).freeIx = s.freeIx := by simp only [State.modFrag, State.modTeam_freeIx]
@[simp] theorem State.nextSeq_clock (s : State) : s.nextSeq.2.clock = s.clock := rfl
@[simp] theorem State.nextSeq_power (s : State) : s.nextSeq.2.power = s.power := rfl
@[simp] theorem State.nextSeq_image (s : State) : s.nextSeq.2.image = s.image := rfl
@[simp] theorem State.nextSeq_mem (s : State) : s.nextSeq.2.mem = s.mem := rfl
@[simp] theorem State.nextSeq_linkUp (s : State) : s.nextSeq.2.linkUp = s.linkUp := rfl
@[simp] theorem State.nextSeq_outages (s : State) : s.nextSeq.2.outages = s.outages := rfl
@[simp] theorem State.nextSeq_ports (s : State) : s.nextSeq.2.ports = s.ports := rfl
@[simp] theorem State.nextSeq_inbound (s : State) : s.nextSeq.2.inbound = s.inbound := rfl
@[simp] theorem State.nextSeq_domain (s : State) : s.nextSeq.2.domain = s.domain := rfl
@[simp] theorem State.nextSeq_stampOffset (s : State) : s.nextSeq.2.stampOffset = s.stampOffset := rfl
@[simp] theorem State.nextSeq_trace (s : State) : s.nextSeq.2.trace = s.trace := rfl
@[simp] theorem State.nextSeq_hostRead (s : State) : s.nextSeq.2.hostRead = s.hostRead := rfl
@[simp] theorem State.nextSeq_cores (s : State) : s.nextSeq.2.cores = s.cores := rfl
@[simp] theorem State.nextSeq_clusters (s : State) : s.nextSeq.2.clusters = s.clusters := rfl
@[simp] theorem State.nextSeq_channels (s : State) : s.nextSeq.2.channels = s.channels := rfl
@[simp] theorem State.nextSeq_stackCores (s : State) : s.nextSeq.2.stackCores = s.stackCores := rfl
@[simp] theorem State.nextSeq_slots (s : State) : s.nextSeq.2.slots = s.slots := rfl
@[simp] theorem State.nextSeq_apps (s : State) : s.nextSeq.2.apps = s.apps := rfl
@[simp] theorem State.nextSeq_ifaces (s : State) : s.nextSeq.2.ifaces = s.ifaces := rfl
@[simp] theorem State.nextSeq_spaces (s : State) : s.nextSeq.2.spaces = s.spaces := rfl
@[simp] theorem State.nextSeq_saved (s : State) : s.nextSeq.2.saved = s.saved := rfl
@[simp] theorem State.nextSeq_codeOld (s : State) : s.nextSeq.2.codeOld = s.codeOld := rfl
@[simp] theorem State.nextSeq_codeNew (s : State) : s.nextSeq.2.codeNew = s.codeNew := rfl
@[simp] theorem State.nextSeq_rmLast (s : State) : s.nextSeq.2.rmLast = s.rmLast := rfl
@[simp] theorem State.nextSeq_rmHeld (s : State) : s.nextSeq.2.rmHeld = s.rmHeld := rfl
@[simp] theorem State.nextSeq_rmWant (s : State) : s.nextSeq.2.rmWant = s.rmWant := rfl
@[simp] theorem State.nextSeq_rmAt (s : State) : s.nextSeq.2.rmAt = s.rmAt := rfl
@[simp] theorem State.nextSeq_launchNo (s : State) : s.nextSeq.2.launchNo = s.launchNo := rfl
@[simp] theorem State.nextSeq_agenda (s : State) : s.nextSeq.2.agenda = s.agenda := rfl
@[simp] theorem State.nextSeq_acting (s : State) : s.nextSeq.2.acting = s.acting := rfl
@[simp] theorem State.nextSeq_freeIx (s : State) : s.nextSeq.2.freeIx = s.freeIx := rfl
@[simp] theorem State.freeBit_clock (s : State) : s.freeBit.2.clock = s.clock := rfl
@[simp] theorem State.freeBit_power (s : State) : s.freeBit.2.power = s.power := rfl
@[simp] theorem State.freeBit_image (s : State) : s.freeBit.2.image = s.image := rfl
@[simp] theorem State.freeBit_mem (s : State) : s.freeBit.2.mem = s.mem := rfl
@[simp] theorem State.freeBit_linkUp (s : State) : s.freeBit.2.linkUp = s.linkUp := rfl
@[simp] theorem State.freeBit_outages (s : State) : s.freeBit.2.outages = s.outages := rfl
@[simp] theorem State.freeBit_ports (s : State) : s.freeBit.2.ports = s.ports := rfl
@[simp] theorem State.freeBit_inbound (s : State) : s.freeBit.2.inbound = s.inbound := rfl
@[simp] theorem State.freeBit_domain (s : State) : s.freeBit.2.domain = s.domain := rfl
@[simp] theorem State.freeBit_stampOffset (s : State) : s.freeBit.2.stampOffset = s.stampOffset := rfl
@[simp] theorem State.freeBit_trace (s : State) : s.freeBit.2.trace = s.trace := rfl
@[simp] theorem State.freeBit_hostRead (s : State) : s.freeBit.2.hostRead = s.hostRead := rfl
@[simp] theorem State.freeBit_cores (s : State) : s.freeBit.2.cores = s.cores := rfl
@[simp] theorem State.freeBit_clusters (s : State) : s.freeBit.2.clusters = s.clusters := rfl
@[simp] theorem State.freeBit_channels (s : State) : s.freeBit.2.channels = s.channels := rfl
@[simp] theorem State.freeBit_stackCores (s : State) : s.freeBit.2.stackCores = s.stackCores := rfl
@[simp] theorem State.freeBit_slots (s : State) : s.freeBit.2.slots = s.slots := rfl
@[simp] theorem State.freeBit_apps (s : State) : s.freeBit.2.apps = s.apps := rfl
@[simp] theorem State.freeBit_ifaces (s : State) : s.freeBit.2.ifaces = s.ifaces := rfl
@[simp] theorem State.freeBit_spaces (s : State) : s.freeBit.2.spaces = s.spaces := rfl
@[simp] theorem State.freeBit_saved (s : State) : s.freeBit.2.saved = s.saved := rfl
@[simp] theorem State.freeBit_codeOld (s : State) : s.freeBit.2.codeOld = s.codeOld := rfl
@[simp] theorem State.freeBit_codeNew (s : State) : s.freeBit.2.codeNew = s.codeNew := rfl
@[simp] theorem State.freeBit_rmLast (s : State) : s.freeBit.2.rmLast = s.rmLast := rfl
@[simp] theorem State.freeBit_rmHeld (s : State) : s.freeBit.2.rmHeld = s.rmHeld := rfl
@[simp] theorem State.freeBit_rmWant (s : State) : s.freeBit.2.rmWant = s.rmWant := rfl
@[simp] theorem State.freeBit_rmAt (s : State) : s.freeBit.2.rmAt = s.rmAt := rfl
@[simp] theorem State.freeBit_launchNo (s : State) : s.freeBit.2.launchNo = s.launchNo := rfl
@[simp] theorem State.freeBit_agenda (s : State) : s.freeBit.2.agenda = s.agenda := rfl
@[simp] theorem State.freeBit_acting (s : State) : s.freeBit.2.acting = s.acting := rfl
@[simp] theorem State.freeBit_seqNo (s : State) : s.freeBit.2.seqNo = s.seqNo := rfl

/-! ### Reads after writes -/

@[simp] theorem State.modCore_core_self (s : State) (k : Nat) (f : Core → Core) : (s.modCore k f).core k = f (s.core k) :=
  AMap.get_set_self _ _ _ _
theorem State.modCore_core_ne (s : State) {k j : Nat} (f : Core → Core) (h : k ≠ j) : (s.modCore k f).core j = s.core j :=
  AMap.get_set_ne _ _ _ h
@[simp] theorem State.modCluster_cluster_self (s : State) (k : Nat) (f : Cluster → Cluster) : (s.modCluster k f).cluster k = f (s.cluster k) :=
  AMap.get_set_self _ _ _ _
theorem State.modCluster_cluster_ne (s : State) {k j : Nat} (f : Cluster → Cluster) (h : k ≠ j) : (s.modCluster k f).cluster j = s.cluster j :=
  AMap.get_set_ne _ _ _ h
@[simp] theorem State.modChannel_channel_self (s : State) (k : Nat) (f : Channel → Channel) : (s.modChannel k f).channel k = f (s.channel k) :=
  AMap.get_set_self _ _ _ _
theorem State.modChannel_channel_ne (s : State) {k j : Nat} (f : Channel → Channel) (h : k ≠ j) : (s.modChannel k f).channel j = s.channel j :=
  AMap.get_set_ne _ _ _ h
@[simp] theorem State.modStackCore_stackCore_self (s : State) (k : Nat) (f : StackCore → StackCore) : (s.modStackCore k f).stackCore k = f (s.stackCore k) :=
  AMap.get_set_self _ _ _ _
theorem State.modStackCore_stackCore_ne (s : State) {k j : Nat} (f : StackCore → StackCore) (h : k ≠ j) : (s.modStackCore k f).stackCore j = s.stackCore j :=
  AMap.get_set_ne _ _ _ h
@[simp] theorem State.modSlot_slot_self (s : State) (k : Nat) (f : QueueSlot → QueueSlot) : (s.modSlot k f).slot k = f (s.slot k) :=
  AMap.get_set_self _ _ _ _
theorem State.modSlot_slot_ne (s : State) {k j : Nat} (f : QueueSlot → QueueSlot) (h : k ≠ j) : (s.modSlot k f).slot j = s.slot j :=
  AMap.get_set_ne _ _ _ h
@[simp] theorem State.modIface_iface_self (s : State) (k : Nat) (f : Iface → Iface) : (s.modIface k f).iface k = f (s.iface k) :=
  AMap.get_set_self _ _ _ _
theorem State.modIface_iface_ne (s : State) {k j : Nat} (f : Iface → Iface) (h : k ≠ j) : (s.modIface k f).iface j = s.iface j :=
  AMap.get_set_ne _ _ _ h
@[simp] theorem State.modSpace_space_self (s : State) (k : Nat) (f : Space → Space) : (s.modSpace k f).space k = f (s.space k) :=
  AMap.get_set_self _ _ _ _
theorem State.modSpace_space_ne (s : State) {k j : Nat} (f : Space → Space) (h : k ≠ j) : (s.modSpace k f).space j = s.space j :=
  AMap.get_set_ne _ _ _ h

theorem State.modBlock_core_self (s : State) (k : Nat) (f : Block → Block) :
    (s.modBlock k f).core k = { s.core k with block := (s.core k).block.map f } := State.modCore_core_self _ _ _
@[simp] theorem State.modBlock_block_self (s : State) (k : Nat) (f : Block → Block) :
    (s.modBlock k f).block k = (s.block k).map f := by
  unfold State.block; rw [State.modBlock_core_self]
theorem State.modBlock_block_ne (s : State) {k j : Nat} (f : Block → Block) (h : k ≠ j) :
    (s.modBlock k f).block j = s.block j := by
  unfold State.block State.modBlock; rw [State.modCore_core_ne _ _ h]
@[simp] theorem State.modTeam_team_self (s : State) (k t : Nat) (f : Team → Team) :
    (s.modTeam k t f).team k t = (s.team k t).map f := by
  unfold State.team State.modTeam
  rw [State.modBlock_block_self]
  cases h : s.block k with
  | none => rfl
  | some b => exact AMap.find?_modify_self b.teams t f
theorem State.modTeam_team_ne (s : State) {k t k' t' : Nat} (f : Team → Team) (h : (k, t) ≠ (k', t')) :
    (s.modTeam k t f).team k' t' = s.team k' t' := by
  unfold State.team State.modTeam
  by_cases hk : k = k'
  · subst hk
    rw [State.modBlock_block_self]
    cases h' : s.block k with
    | none => rfl
    | some b => exact AMap.find?_modify_ne b.teams f (fun e => h (by rw [e]))
  · rw [State.modBlock_block_ne _ _ hk]

/-! ### Register writes of a team: the fields that they keep -/

@[simp] theorem Team.setS_L (tm : Team) (r : Nat) (x : Word) : (tm.setS r x).L = tm.L := by rw [Team.setS, Team.heal]
@[simp] theorem Team.setS_G (tm : Team) (r : Nat) (x : Word) : (tm.setS r x).G = tm.G := by rw [Team.setS, Team.heal]
@[simp] theorem Team.setS_copy (tm : Team) (r : Nat) (x : Word) : (tm.setS r x).copy = tm.copy := by rw [Team.setS, Team.heal]
@[simp] theorem Team.setS_prio (tm : Team) (r : Nat) (x : Word) : (tm.setS r x).prio = tm.prio := by rw [Team.setS, Team.heal]
@[simp] theorem Team.setS_c (tm : Team) (r : Nat) (x : Word) : (tm.setS r x).c = tm.c := by rw [Team.setS, Team.heal]
@[simp] theorem Team.setS_v (tm : Team) (r : Nat) (x : Word) : (tm.setS r x).v = tm.v := by rw [Team.setS, Team.heal]
@[simp] theorem Team.setS_vpoison (tm : Team) (r : Nat) (x : Word) : (tm.setS r x).vpoison = tm.vpoison := by rw [Team.setS, Team.heal]
@[simp] theorem Team.setS_p (tm : Team) (r : Nat) (x : Word) : (tm.setS r x).p = tm.p := by rw [Team.setS, Team.heal]
@[simp] theorem Team.setS_fpflags (tm : Team) (r : Nat) (x : Word) : (tm.setS r x).fpflags = tm.fpflags := by rw [Team.setS, Team.heal]
@[simp] theorem Team.setS_sigacc (tm : Team) (r : Nat) (x : Word) : (tm.setS r x).sigacc = tm.sigacc := by rw [Team.setS, Team.heal]
@[simp] theorem Team.setS_trapvec (tm : Team) (r : Nat) (x : Word) : (tm.setS r x).trapvec = tm.trapvec := by rw [Team.setS, Team.heal]
@[simp] theorem Team.setS_trapcause (tm : Team) (r : Nat) (x : Word) : (tm.setS r x).trapcause = tm.trapcause := by rw [Team.setS, Team.heal]
@[simp] theorem Team.setS_trappc (tm : Team) (r : Nat) (x : Word) : (tm.setS r x).trappc = tm.trappc := by rw [Team.setS, Team.heal]
@[simp] theorem Team.setS_trapword (tm : Team) (r : Nat) (x : Word) : (tm.setS r x).trapword = tm.trapword := by rw [Team.setS, Team.heal]
@[simp] theorem Team.setS_faultstat (tm : Team) (r : Nat) (x : Word) : (tm.setS r x).faultstat = tm.faultstat := by rw [Team.setS, Team.heal]
@[simp] theorem Team.setS_bbase (tm : Team) (r : Nat) (x : Word) : (tm.setS r x).bbase = tm.bbase := by rw [Team.setS, Team.heal]
@[simp] theorem Team.setS_cb (tm : Team) (r : Nat) (x : Word) : (tm.setS r x).cb = tm.cb := by rw [Team.setS, Team.heal]
@[simp] theorem Team.setS_memcnt (tm : Team) (r : Nat) (x : Word) : (tm.setS r x).memcnt = tm.memcnt := by rw [Team.setS, Team.heal]
@[simp] theorem Team.setS_setcnt (tm : Team) (r : Nat) (x : Word) : (tm.setS r x).setcnt = tm.setcnt := by rw [Team.setS, Team.heal]
@[simp] theorem Team.setS_arrcnt (tm : Team) (r : Nat) (x : Word) : (tm.setS r x).arrcnt = tm.arrcnt := by rw [Team.setS, Team.heal]
@[simp] theorem Team.setS_bankcnt (tm : Team) (r : Nat) (x : Word) : (tm.setS r x).bankcnt = tm.bankcnt := by rw [Team.setS, Team.heal]
@[simp] theorem Team.setS_cpycnt (tm : Team) (r : Nat) (x : Word) : (tm.setS r x).cpycnt = tm.cpycnt := by rw [Team.setS, Team.heal]
@[simp] theorem Team.setS_stb (tm : Team) (r : Nat) (x : Word) : (tm.setS r x).stb = tm.stb := by rw [Team.setS, Team.heal]
@[simp] theorem Team.setS_pend (tm : Team) (r : Nat) (x : Word) : (tm.setS r x).pend = tm.pend := by rw [Team.setS, Team.heal]
@[simp] theorem Team.setS_cmds (tm : Team) (r : Nat) (x : Word) : (tm.setS r x).cmds = tm.cmds := by rw [Team.setS, Team.heal]
@[simp] theorem Team.setS_cursors (tm : Team) (r : Nat) (x : Word) : (tm.setS r x).cursors = tm.cursors := by rw [Team.setS, Team.heal]
@[simp] theorem Team.setS_handler (tm : Team) (r : Nat) (x : Word) : (tm.setS r x).handler = tm.handler := by rw [Team.setS, Team.heal]
@[simp] theorem Team.setS_halted (tm : Team) (r : Nat) (x : Word) : (tm.setS r x).halted = tm.halted := by rw [Team.setS, Team.heal]
@[simp] theorem Team.setS_finished (tm : Team) (r : Nat) (x : Word) : (tm.setS r x).finished = tm.finished := by rw [Team.setS, Team.heal]
@[simp] theorem Team.setS_haltReqs (tm : Team) (r : Nat) (x : Word) : (tm.setS r x).haltReqs = tm.haltReqs := by rw [Team.setS, Team.heal]
@[simp] theorem Team.setS_park (tm : Team) (r : Nat) (x : Word) : (tm.setS r x).park = tm.park := by rw [Team.setS, Team.heal]
@[simp] theorem Team.setS_lift (tm : Team) (r : Nat) (x : Word) : (tm.setS r x).lift = tm.lift := by rw [Team.setS, Team.heal]
@[simp] theorem Team.setS_wd (tm : Team) (r : Nat) (x : Word) : (tm.setS r x).wd = tm.wd := by rw [Team.setS, Team.heal]
@[simp] theorem Team.setS_wdNow (tm : Team) (r : Nat) (x : Word) : (tm.setS r x).wdNow = tm.wdNow := by rw [Team.setS, Team.heal]
@[simp] theorem Team.setS_exited (tm : Team) (r : Nat) (x : Word) : (tm.setS r x).exited = tm.exited := by rw [Team.setS, Team.heal]
@[simp] theorem Team.setS_claim (tm : Team) (r : Nat) (x : Word) : (tm.setS r x).claim = tm.claim := by rw [Team.setS, Team.heal]
@[simp] theorem Team.setS_remote (tm : Team) (r : Nat) (x : Word) : (tm.setS r x).remote = tm.remote := by rw [Team.setS, Team.heal]
@[simp] theorem Team.setS_frags (tm : Team) (r : Nat) (x : Word) : (tm.setS r x).frags = tm.frags := by rw [Team.setS, Team.heal]
@[simp] theorem Team.setC_L (tm : Team) (r : Nat) (x : Cap × Bool) : (tm.setC r x).L = tm.L := by rw [Team.setC, Team.heal]
@[simp] theorem Team.setC_G (tm : Team) (r : Nat) (x : Cap × Bool) : (tm.setC r x).G = tm.G := by rw [Team.setC, Team.heal]
@[simp] theorem Team.setC_copy (tm : Team) (r : Nat) (x : Cap × Bool) : (tm.setC r x).copy = tm.copy := by rw [Team.setC, Team.heal]
@[simp] theorem Team.setC_prio (tm : Team) (r : Nat) (x : Cap × Bool) : (tm.setC r x).prio = tm.prio := by rw [Team.setC, Team.heal]
@[simp] theorem Team.setC_s (tm : Team) (r : Nat) (x : Cap × Bool) : (tm.setC r x).s = tm.s := by rw [Team.setC, Team.heal]
@[simp] theorem Team.setC_v (tm : Team) (r : Nat) (x : Cap × Bool) : (tm.setC r x).v = tm.v := by rw [Team.setC, Team.heal]
@[simp] theorem Team.setC_vpoison (tm : Team) (r : Nat) (x : Cap × Bool) : (tm.setC r x).vpoison = tm.vpoison := by rw [Team.setC, Team.heal]
@[simp] theorem Team.setC_p (tm : Team) (r : Nat) (x : Cap × Bool) : (tm.setC r x).p = tm.p := by rw [Team.setC, Team.heal]
@[simp] theorem Team.setC_fpflags (tm : Team) (r : Nat) (x : Cap × Bool) : (tm.setC r x).fpflags = tm.fpflags := by rw [Team.setC, Team.heal]
@[simp] theorem Team.setC_sigacc (tm : Team) (r : Nat) (x : Cap × Bool) : (tm.setC r x).sigacc = tm.sigacc := by rw [Team.setC, Team.heal]
@[simp] theorem Team.setC_trapvec (tm : Team) (r : Nat) (x : Cap × Bool) : (tm.setC r x).trapvec = tm.trapvec := by rw [Team.setC, Team.heal]
@[simp] theorem Team.setC_trapcause (tm : Team) (r : Nat) (x : Cap × Bool) : (tm.setC r x).trapcause = tm.trapcause := by rw [Team.setC, Team.heal]
@[simp] theorem Team.setC_trappc (tm : Team) (r : Nat) (x : Cap × Bool) : (tm.setC r x).trappc = tm.trappc := by rw [Team.setC, Team.heal]
@[simp] theorem Team.setC_trapword (tm : Team) (r : Nat) (x : Cap × Bool) : (tm.setC r x).trapword = tm.trapword := by rw [Team.setC, Team.heal]
@[simp] theorem Team.setC_faultstat (tm : Team) (r : Nat) (x : Cap × Bool) : (tm.setC r x).faultstat = tm.faultstat := by rw [Team.setC, Team.heal]
@[simp] theorem Team.setC_bbase (tm : Team) (r : Nat) (x : Cap × Bool) : (tm.setC r x).bbase = tm.bbase := by rw [Team.setC, Team.heal]
@[simp] theorem Team.setC_cb (tm : Team) (r : Nat) (x : Cap × Bool) : (tm.setC r x).cb = tm.cb := by rw [Team.setC, Team.heal]
@[simp] theorem Team.setC_memcnt (tm : Team) (r : Nat) (x : Cap × Bool) : (tm.setC r x).memcnt = tm.memcnt := by rw [Team.setC, Team.heal]
@[simp] theorem Team.setC_setcnt (tm : Team) (r : Nat) (x : Cap × Bool) : (tm.setC r x).setcnt = tm.setcnt := by rw [Team.setC, Team.heal]
@[simp] theorem Team.setC_arrcnt (tm : Team) (r : Nat) (x : Cap × Bool) : (tm.setC r x).arrcnt = tm.arrcnt := by rw [Team.setC, Team.heal]
@[simp] theorem Team.setC_bankcnt (tm : Team) (r : Nat) (x : Cap × Bool) : (tm.setC r x).bankcnt = tm.bankcnt := by rw [Team.setC, Team.heal]
@[simp] theorem Team.setC_cpycnt (tm : Team) (r : Nat) (x : Cap × Bool) : (tm.setC r x).cpycnt = tm.cpycnt := by rw [Team.setC, Team.heal]
@[simp] theorem Team.setC_stb (tm : Team) (r : Nat) (x : Cap × Bool) : (tm.setC r x).stb = tm.stb := by rw [Team.setC, Team.heal]
@[simp] theorem Team.setC_pend (tm : Team) (r : Nat) (x : Cap × Bool) : (tm.setC r x).pend = tm.pend := by rw [Team.setC, Team.heal]
@[simp] theorem Team.setC_cmds (tm : Team) (r : Nat) (x : Cap × Bool) : (tm.setC r x).cmds = tm.cmds := by rw [Team.setC, Team.heal]
@[simp] theorem Team.setC_cursors (tm : Team) (r : Nat) (x : Cap × Bool) : (tm.setC r x).cursors = tm.cursors := by rw [Team.setC, Team.heal]
@[simp] theorem Team.setC_handler (tm : Team) (r : Nat) (x : Cap × Bool) : (tm.setC r x).handler = tm.handler := by rw [Team.setC, Team.heal]
@[simp] theorem Team.setC_halted (tm : Team) (r : Nat) (x : Cap × Bool) : (tm.setC r x).halted = tm.halted := by rw [Team.setC, Team.heal]
@[simp] theorem Team.setC_finished (tm : Team) (r : Nat) (x : Cap × Bool) : (tm.setC r x).finished = tm.finished := by rw [Team.setC, Team.heal]
@[simp] theorem Team.setC_haltReqs (tm : Team) (r : Nat) (x : Cap × Bool) : (tm.setC r x).haltReqs = tm.haltReqs := by rw [Team.setC, Team.heal]
@[simp] theorem Team.setC_park (tm : Team) (r : Nat) (x : Cap × Bool) : (tm.setC r x).park = tm.park := by rw [Team.setC, Team.heal]
@[simp] theorem Team.setC_lift (tm : Team) (r : Nat) (x : Cap × Bool) : (tm.setC r x).lift = tm.lift := by rw [Team.setC, Team.heal]
@[simp] theorem Team.setC_wd (tm : Team) (r : Nat) (x : Cap × Bool) : (tm.setC r x).wd = tm.wd := by rw [Team.setC, Team.heal]
@[simp] theorem Team.setC_wdNow (tm : Team) (r : Nat) (x : Cap × Bool) : (tm.setC r x).wdNow = tm.wdNow := by rw [Team.setC, Team.heal]
@[simp] theorem Team.setC_exited (tm : Team) (r : Nat) (x : Cap × Bool) : (tm.setC r x).exited = tm.exited := by rw [Team.setC, Team.heal]
@[simp] theorem Team.setC_claim (tm : Team) (r : Nat) (x : Cap × Bool) : (tm.setC r x).claim = tm.claim := by rw [Team.setC, Team.heal]
@[simp] theorem Team.setC_remote (tm : Team) (r : Nat) (x : Cap × Bool) : (tm.setC r x).remote = tm.remote := by rw [Team.setC, Team.heal]
@[simp] theorem Team.setC_frags (tm : Team) (r : Nat) (x : Cap × Bool) : (tm.setC r x).frags = tm.frags := by rw [Team.setC, Team.heal]
@[simp] theorem Team.setV_L (tm : Team) (r l : Nat) (x : Word) : (tm.setV r l x).L = tm.L := by rw [Team.setV]
@[simp] theorem Team.setV_G (tm : Team) (r l : Nat) (x : Word) : (tm.setV r l x).G = tm.G := by rw [Team.setV]
@[simp] theorem Team.setV_copy (tm : Team) (r l : Nat) (x : Word) : (tm.setV r l x).copy = tm.copy := by rw [Team.setV]
@[simp] theorem Team.setV_prio (tm : Team) (r l : Nat) (x : Word) : (tm.setV r l x).prio = tm.prio := by rw [Team.setV]
@[simp] theorem Team.setV_s (tm : Team) (r l : Nat) (x : Word) : (tm.setV r l x).s = tm.s := by rw [Team.setV]
@[simp] theorem Team.setV_c (tm : Team) (r l : Nat) (x : Word) : (tm.setV r l x).c = tm.c := by rw [Team.setV]
@[simp] theorem Team.setV_rpoison (tm : Team) (r l : Nat) (x : Word) : (tm.setV r l x).rpoison = tm.rpoison := by rw [Team.setV]
@[simp] theorem Team.setV_p (tm : Team) (r l : Nat) (x : Word) : (tm.setV r l x).p = tm.p := by rw [Team.setV]
@[simp] theorem Team.setV_fpflags (tm : Team) (r l : Nat) (x : Word) : (tm.setV r l x).fpflags = tm.fpflags := by rw [Team.setV]
@[simp] theorem Team.setV_sigacc (tm : Team) (r l : Nat) (x : Word) : (tm.setV r l x).sigacc = tm.sigacc := by rw [Team.setV]
@[simp] theorem Team.setV_trapvec (tm : Team) (r l : Nat) (x : Word) : (tm.setV r l x).trapvec = tm.trapvec := by rw [Team.setV]
@[simp] theorem Team.setV_trapcause (tm : Team) (r l : Nat) (x : Word) : (tm.setV r l x).trapcause = tm.trapcause := by rw [Team.setV]
@[simp] theorem Team.setV_trappc (tm : Team) (r l : Nat) (x : Word) : (tm.setV r l x).trappc = tm.trappc := by rw [Team.setV]
@[simp] theorem Team.setV_trapword (tm : Team) (r l : Nat) (x : Word) : (tm.setV r l x).trapword = tm.trapword := by rw [Team.setV]
@[simp] theorem Team.setV_faultstat (tm : Team) (r l : Nat) (x : Word) : (tm.setV r l x).faultstat = tm.faultstat := by rw [Team.setV]
@[simp] theorem Team.setV_bbase (tm : Team) (r l : Nat) (x : Word) : (tm.setV r l x).bbase = tm.bbase := by rw [Team.setV]
@[simp] theorem Team.setV_cb (tm : Team) (r l : Nat) (x : Word) : (tm.setV r l x).cb = tm.cb := by rw [Team.setV]
@[simp] theorem Team.setV_memcnt (tm : Team) (r l : Nat) (x : Word) : (tm.setV r l x).memcnt = tm.memcnt := by rw [Team.setV]
@[simp] theorem Team.setV_setcnt (tm : Team) (r l : Nat) (x : Word) : (tm.setV r l x).setcnt = tm.setcnt := by rw [Team.setV]
@[simp] theorem Team.setV_arrcnt (tm : Team) (r l : Nat) (x : Word) : (tm.setV r l x).arrcnt = tm.arrcnt := by rw [Team.setV]
@[simp] theorem Team.setV_bankcnt (tm : Team) (r l : Nat) (x : Word) : (tm.setV r l x).bankcnt = tm.bankcnt := by rw [Team.setV]
@[simp] theorem Team.setV_cpycnt (tm : Team) (r l : Nat) (x : Word) : (tm.setV r l x).cpycnt = tm.cpycnt := by rw [Team.setV]
@[simp] theorem Team.setV_stb (tm : Team) (r l : Nat) (x : Word) : (tm.setV r l x).stb = tm.stb := by rw [Team.setV]
@[simp] theorem Team.setV_pend (tm : Team) (r l : Nat) (x : Word) : (tm.setV r l x).pend = tm.pend := by rw [Team.setV]
@[simp] theorem Team.setV_cmds (tm : Team) (r l : Nat) (x : Word) : (tm.setV r l x).cmds = tm.cmds := by rw [Team.setV]
@[simp] theorem Team.setV_cursors (tm : Team) (r l : Nat) (x : Word) : (tm.setV r l x).cursors = tm.cursors := by rw [Team.setV]
@[simp] theorem Team.setV_handler (tm : Team) (r l : Nat) (x : Word) : (tm.setV r l x).handler = tm.handler := by rw [Team.setV]
@[simp] theorem Team.setV_halted (tm : Team) (r l : Nat) (x : Word) : (tm.setV r l x).halted = tm.halted := by rw [Team.setV]
@[simp] theorem Team.setV_finished (tm : Team) (r l : Nat) (x : Word) : (tm.setV r l x).finished = tm.finished := by rw [Team.setV]
@[simp] theorem Team.setV_haltReqs (tm : Team) (r l : Nat) (x : Word) : (tm.setV r l x).haltReqs = tm.haltReqs := by rw [Team.setV]
@[simp] theorem Team.setV_park (tm : Team) (r l : Nat) (x : Word) : (tm.setV r l x).park = tm.park := by rw [Team.setV]
@[simp] theorem Team.setV_lift (tm : Team) (r l : Nat) (x : Word) : (tm.setV r l x).lift = tm.lift := by rw [Team.setV]
@[simp] theorem Team.setV_wd (tm : Team) (r l : Nat) (x : Word) : (tm.setV r l x).wd = tm.wd := by rw [Team.setV]
@[simp] theorem Team.setV_wdNow (tm : Team) (r l : Nat) (x : Word) : (tm.setV r l x).wdNow = tm.wdNow := by rw [Team.setV]
@[simp] theorem Team.setV_exited (tm : Team) (r l : Nat) (x : Word) : (tm.setV r l x).exited = tm.exited := by rw [Team.setV]
@[simp] theorem Team.setV_claim (tm : Team) (r l : Nat) (x : Word) : (tm.setV r l x).claim = tm.claim := by rw [Team.setV]
@[simp] theorem Team.setV_remote (tm : Team) (r l : Nat) (x : Word) : (tm.setV r l x).remote = tm.remote := by rw [Team.setV]
@[simp] theorem Team.setV_frags (tm : Team) (r l : Nat) (x : Word) : (tm.setV r l x).frags = tm.frags := by rw [Team.setV]
@[simp] theorem Team.setP_L (tm : Team) (r : Nat) (x : Mask) : (tm.setP r x).L = tm.L := by rw [Team.setP, apply_ite Team.L, ite_self]
@[simp] theorem Team.setP_G (tm : Team) (r : Nat) (x : Mask) : (tm.setP r x).G = tm.G := by rw [Team.setP, apply_ite Team.G, ite_self]
@[simp] theorem Team.setP_copy (tm : Team) (r : Nat) (x : Mask) : (tm.setP r x).copy = tm.copy := by rw [Team.setP, apply_ite Team.copy, ite_self]
@[simp] theorem Team.setP_prio (tm : Team) (r : Nat) (x : Mask) : (tm.setP r x).prio = tm.prio := by rw [Team.setP, apply_ite Team.prio, ite_self]
@[simp] theorem Team.setP_s (tm : Team) (r : Nat) (x : Mask) : (tm.setP r x).s = tm.s := by rw [Team.setP, apply_ite Team.s, ite_self]
@[simp] theorem Team.setP_c (tm : Team) (r : Nat) (x : Mask) : (tm.setP r x).c = tm.c := by rw [Team.setP, apply_ite Team.c, ite_self]
@[simp] theorem Team.setP_v (tm : Team) (r : Nat) (x : Mask) : (tm.setP r x).v = tm.v := by rw [Team.setP, apply_ite Team.v, ite_self]
@[simp] theorem Team.setP_vpoison (tm : Team) (r : Nat) (x : Mask) : (tm.setP r x).vpoison = tm.vpoison := by rw [Team.setP, apply_ite Team.vpoison, ite_self]
@[simp] theorem Team.setP_rpoison (tm : Team) (r : Nat) (x : Mask) : (tm.setP r x).rpoison = tm.rpoison := by rw [Team.setP, apply_ite Team.rpoison, ite_self]
@[simp] theorem Team.setP_fpflags (tm : Team) (r : Nat) (x : Mask) : (tm.setP r x).fpflags = tm.fpflags := by rw [Team.setP, apply_ite Team.fpflags, ite_self]
@[simp] theorem Team.setP_sigacc (tm : Team) (r : Nat) (x : Mask) : (tm.setP r x).sigacc = tm.sigacc := by rw [Team.setP, apply_ite Team.sigacc, ite_self]
@[simp] theorem Team.setP_trapvec (tm : Team) (r : Nat) (x : Mask) : (tm.setP r x).trapvec = tm.trapvec := by rw [Team.setP, apply_ite Team.trapvec, ite_self]
@[simp] theorem Team.setP_trapcause (tm : Team) (r : Nat) (x : Mask) : (tm.setP r x).trapcause = tm.trapcause := by rw [Team.setP, apply_ite Team.trapcause, ite_self]
@[simp] theorem Team.setP_trappc (tm : Team) (r : Nat) (x : Mask) : (tm.setP r x).trappc = tm.trappc := by rw [Team.setP, apply_ite Team.trappc, ite_self]
@[simp] theorem Team.setP_trapword (tm : Team) (r : Nat) (x : Mask) : (tm.setP r x).trapword = tm.trapword := by rw [Team.setP, apply_ite Team.trapword, ite_self]
@[simp] theorem Team.setP_faultstat (tm : Team) (r : Nat) (x : Mask) : (tm.setP r x).faultstat = tm.faultstat := by rw [Team.setP, apply_ite Team.faultstat, ite_self]
@[simp] theorem Team.setP_bbase (tm : Team) (r : Nat) (x : Mask) : (tm.setP r x).bbase = tm.bbase := by rw [Team.setP, apply_ite Team.bbase, ite_self]
@[simp] theorem Team.setP_cb (tm : Team) (r : Nat) (x : Mask) : (tm.setP r x).cb = tm.cb := by rw [Team.setP, apply_ite Team.cb, ite_self]
@[simp] theorem Team.setP_memcnt (tm : Team) (r : Nat) (x : Mask) : (tm.setP r x).memcnt = tm.memcnt := by rw [Team.setP, apply_ite Team.memcnt, ite_self]
@[simp] theorem Team.setP_setcnt (tm : Team) (r : Nat) (x : Mask) : (tm.setP r x).setcnt = tm.setcnt := by rw [Team.setP, apply_ite Team.setcnt, ite_self]
@[simp] theorem Team.setP_arrcnt (tm : Team) (r : Nat) (x : Mask) : (tm.setP r x).arrcnt = tm.arrcnt := by rw [Team.setP, apply_ite Team.arrcnt, ite_self]
@[simp] theorem Team.setP_bankcnt (tm : Team) (r : Nat) (x : Mask) : (tm.setP r x).bankcnt = tm.bankcnt := by rw [Team.setP, apply_ite Team.bankcnt, ite_self]
@[simp] theorem Team.setP_cpycnt (tm : Team) (r : Nat) (x : Mask) : (tm.setP r x).cpycnt = tm.cpycnt := by rw [Team.setP, apply_ite Team.cpycnt, ite_self]
@[simp] theorem Team.setP_stb (tm : Team) (r : Nat) (x : Mask) : (tm.setP r x).stb = tm.stb := by rw [Team.setP, apply_ite Team.stb, ite_self]
@[simp] theorem Team.setP_pend (tm : Team) (r : Nat) (x : Mask) : (tm.setP r x).pend = tm.pend := by rw [Team.setP, apply_ite Team.pend, ite_self]
@[simp] theorem Team.setP_cmds (tm : Team) (r : Nat) (x : Mask) : (tm.setP r x).cmds = tm.cmds := by rw [Team.setP, apply_ite Team.cmds, ite_self]
@[simp] theorem Team.setP_cursors (tm : Team) (r : Nat) (x : Mask) : (tm.setP r x).cursors = tm.cursors := by rw [Team.setP, apply_ite Team.cursors, ite_self]
@[simp] theorem Team.setP_handler (tm : Team) (r : Nat) (x : Mask) : (tm.setP r x).handler = tm.handler := by rw [Team.setP, apply_ite Team.handler, ite_self]
@[simp] theorem Team.setP_halted (tm : Team) (r : Nat) (x : Mask) : (tm.setP r x).halted = tm.halted := by rw [Team.setP, apply_ite Team.halted, ite_self]
@[simp] theorem Team.setP_finished (tm : Team) (r : Nat) (x : Mask) : (tm.setP r x).finished = tm.finished := by rw [Team.setP, apply_ite Team.finished, ite_self]
@[simp] theorem Team.setP_haltReqs (tm : Team) (r : Nat) (x : Mask) : (tm.setP r x).haltReqs = tm.haltReqs := by rw [Team.setP, apply_ite Team.haltReqs, ite_self]
@[simp] theorem Team.setP_park (tm : Team) (r : Nat) (x : Mask) : (tm.setP r x).park = tm.park := by rw [Team.setP, apply_ite Team.park, ite_self]
@[simp] theorem Team.setP_lift (tm : Team) (r : Nat) (x : Mask) : (tm.setP r x).lift = tm.lift := by rw [Team.setP, apply_ite Team.lift, ite_self]
@[simp] theorem Team.setP_wd (tm : Team) (r : Nat) (x : Mask) : (tm.setP r x).wd = tm.wd := by rw [Team.setP, apply_ite Team.wd, ite_self]
@[simp] theorem Team.setP_wdNow (tm : Team) (r : Nat) (x : Mask) : (tm.setP r x).wdNow = tm.wdNow := by rw [Team.setP, apply_ite Team.wdNow, ite_self]
@[simp] theorem Team.setP_exited (tm : Team) (r : Nat) (x : Mask) : (tm.setP r x).exited = tm.exited := by rw [Team.setP, apply_ite Team.exited, ite_self]
@[simp] theorem Team.setP_claim (tm : Team) (r : Nat) (x : Mask) : (tm.setP r x).claim = tm.claim := by rw [Team.setP, apply_ite Team.claim, ite_self]
@[simp] theorem Team.setP_remote (tm : Team) (r : Nat) (x : Mask) : (tm.setP r x).remote = tm.remote := by rw [Team.setP, apply_ite Team.remote, ite_self]
@[simp] theorem Team.setP_frags (tm : Team) (r : Nat) (x : Mask) : (tm.setP r x).frags = tm.frags := by rw [Team.setP, apply_ite Team.frags, ite_self]
@[simp] theorem Team.feed_L (tm : Team) (n : Nat) : (tm.feed n).L = tm.L := by rw [Team.feed]
@[simp] theorem Team.feed_G (tm : Team) (n : Nat) : (tm.feed n).G = tm.G := by rw [Team.feed]
@[simp] theorem Team.feed_copy (tm : Team) (n : Nat) : (tm.feed n).copy = tm.copy := by rw [Team.feed]
@[simp] theorem Team.feed_prio (tm : Team) (n : Nat) : (tm.feed n).prio = tm.prio := by rw [Team.feed]
@[simp] theorem Team.feed_s (tm : Team) (n : Nat) : (tm.feed n).s = tm.s := by rw [Team.feed]
@[simp] theorem Team.feed_c (tm : Team) (n : Nat) : (tm.feed n).c = tm.c := by rw [Team.feed]
@[simp] theorem Team.feed_v (tm : Team) (n : Nat) : (tm.feed n).v = tm.v := by rw [Team.feed]
@[simp] theorem Team.feed_vpoison (tm : Team) (n : Nat) : (tm.feed n).vpoison = tm.vpoison := by rw [Team.feed]
@[simp] theorem Team.feed_rpoison (tm : Team) (n : Nat) : (tm.feed n).rpoison = tm.rpoison := by rw [Team.feed]
@[simp] theorem Team.feed_p (tm : Team) (n : Nat) : (tm.feed n).p = tm.p := by rw [Team.feed]
@[simp] theorem Team.feed_fpflags (tm : Team) (n : Nat) : (tm.feed n).fpflags = tm.fpflags := by rw [Team.feed]
@[simp] theorem Team.feed_trapvec (tm : Team) (n : Nat) : (tm.feed n).trapvec = tm.trapvec := by rw [Team.feed]
@[simp] theorem Team.feed_trapcause (tm : Team) (n : Nat) : (tm.feed n).trapcause = tm.trapcause := by rw [Team.feed]
@[simp] theorem Team.feed_trappc (tm : Team) (n : Nat) : (tm.feed n).trappc = tm.trappc := by rw [Team.feed]
@[simp] theorem Team.feed_trapword (tm : Team) (n : Nat) : (tm.feed n).trapword = tm.trapword := by rw [Team.feed]
@[simp] theorem Team.feed_faultstat (tm : Team) (n : Nat) : (tm.feed n).faultstat = tm.faultstat := by rw [Team.feed]
@[simp] theorem Team.feed_bbase (tm : Team) (n : Nat) : (tm.feed n).bbase = tm.bbase := by rw [Team.feed]
@[simp] theorem Team.feed_cb (tm : Team) (n : Nat) : (tm.feed n).cb = tm.cb := by rw [Team.feed]
@[simp] theorem Team.feed_memcnt (tm : Team) (n : Nat) : (tm.feed n).memcnt = tm.memcnt := by rw [Team.feed]
@[simp] theorem Team.feed_setcnt (tm : Team) (n : Nat) : (tm.feed n).setcnt = tm.setcnt := by rw [Team.feed]
@[simp] theorem Team.feed_arrcnt (tm : Team) (n : Nat) : (tm.feed n).arrcnt = tm.arrcnt := by rw [Team.feed]
@[simp] theorem Team.feed_bankcnt (tm : Team) (n : Nat) : (tm.feed n).bankcnt = tm.bankcnt := by rw [Team.feed]
@[simp] theorem Team.feed_cpycnt (tm : Team) (n : Nat) : (tm.feed n).cpycnt = tm.cpycnt := by rw [Team.feed]
@[simp] theorem Team.feed_stb (tm : Team) (n : Nat) : (tm.feed n).stb = tm.stb := by rw [Team.feed]
@[simp] theorem Team.feed_pend (tm : Team) (n : Nat) : (tm.feed n).pend = tm.pend := by rw [Team.feed]
@[simp] theorem Team.feed_cmds (tm : Team) (n : Nat) : (tm.feed n).cmds = tm.cmds := by rw [Team.feed]
@[simp] theorem Team.feed_cursors (tm : Team) (n : Nat) : (tm.feed n).cursors = tm.cursors := by rw [Team.feed]
@[simp] theorem Team.feed_handler (tm : Team) (n : Nat) : (tm.feed n).handler = tm.handler := by rw [Team.feed]
@[simp] theorem Team.feed_halted (tm : Team) (n : Nat) : (tm.feed n).halted = tm.halted := by rw [Team.feed]
@[simp] theorem Team.feed_finished (tm : Team) (n : Nat) : (tm.feed n).finished = tm.finished := by rw [Team.feed]
@[simp] theorem Team.feed_haltReqs (tm : Team) (n : Nat) : (tm.feed n).haltReqs = tm.haltReqs := by rw [Team.feed]
@[simp] theorem Team.feed_park (tm : Team) (n : Nat) : (tm.feed n).park = tm.park := by rw [Team.feed]
@[simp] theorem Team.feed_lift (tm : Team) (n : Nat) : (tm.feed n).lift = tm.lift := by rw [Team.feed]
@[simp] theorem Team.feed_wd (tm : Team) (n : Nat) : (tm.feed n).wd = tm.wd := by rw [Team.feed]
@[simp] theorem Team.feed_wdNow (tm : Team) (n : Nat) : (tm.feed n).wdNow = tm.wdNow := by rw [Team.feed]
@[simp] theorem Team.feed_exited (tm : Team) (n : Nat) : (tm.feed n).exited = tm.exited := by rw [Team.feed]
@[simp] theorem Team.feed_claim (tm : Team) (n : Nat) : (tm.feed n).claim = tm.claim := by rw [Team.feed]
@[simp] theorem Team.feed_remote (tm : Team) (n : Nat) : (tm.feed n).remote = tm.remote := by rw [Team.feed]
@[simp] theorem Team.feed_frags (tm : Team) (n : Nat) : (tm.feed n).frags = tm.frags := by rw [Team.feed]
@[simp] theorem Team.modFrag_L (tm : Team) (n : Nat) (g : Frag → Frag) : (tm.modFrag n g).L = tm.L := by rw [Team.modFrag]
@[simp] theorem Team.modFrag_G (tm : Team) (n : Nat) (g : Frag → Frag) : (tm.modFrag n g).G = tm.G := by rw [Team.modFrag]
@[simp] theorem Team.modFrag_copy (tm : Team) (n : Nat) (g : Frag → Frag) : (tm.modFrag n g).copy = tm.copy := by rw [Team.modFrag]
@[simp] theorem Team.modFrag_prio (tm : Team) (n : Nat) (g : Frag → Frag) : (tm.modFrag n g).prio = tm.prio := by rw [Team.modFrag]
@[simp] theorem Team.modFrag_s (tm : Team) (n : Nat) (g : Frag → Frag) : (tm.modFrag n g).s = tm.s := by rw [Team.modFrag]
@[simp] theorem Team.modFrag_c (tm : Team) (n : Nat) (g : Frag → Frag) : (tm.modFrag n g).c = tm.c := by rw [Team.modFrag]
@[simp] theorem Team.modFrag_v (tm : Team) (n : Nat) (g : Frag → Frag) : (tm.modFrag n g).v = tm.v := by rw [Team.modFrag]
@[simp] theorem Team.modFrag_vpoison (tm : Team) (n : Nat) (g : Frag → Frag) : (tm.modFrag n g).vpoison = tm.vpoison := by rw [Team.modFrag]
@[simp] theorem Team.modFrag_rpoison (tm : Team) (n : Nat) (g : Frag → Frag) : (tm.modFrag n g).rpoison = tm.rpoison := by rw [Team.modFrag]
@[simp] theorem Team.modFrag_p (tm : Team) (n : Nat) (g : Frag → Frag) : (tm.modFrag n g).p = tm.p := by rw [Team.modFrag]
@[simp] theorem Team.modFrag_fpflags (tm : Team) (n : Nat) (g : Frag → Frag) : (tm.modFrag n g).fpflags = tm.fpflags := by rw [Team.modFrag]
@[simp] theorem Team.modFrag_sigacc (tm : Team) (n : Nat) (g : Frag → Frag) : (tm.modFrag n g).sigacc = tm.sigacc := by rw [Team.modFrag]
@[simp] theorem Team.modFrag_trapvec (tm : Team) (n : Nat) (g : Frag → Frag) : (tm.modFrag n g).trapvec = tm.trapvec := by rw [Team.modFrag]
@[simp] theorem Team.modFrag_trapcause (tm : Team) (n : Nat) (g : Frag → Frag) : (tm.modFrag n g).trapcause = tm.trapcause := by rw [Team.modFrag]
@[simp] theorem Team.modFrag_trappc (tm : Team) (n : Nat) (g : Frag → Frag) : (tm.modFrag n g).trappc = tm.trappc := by rw [Team.modFrag]
@[simp] theorem Team.modFrag_trapword (tm : Team) (n : Nat) (g : Frag → Frag) : (tm.modFrag n g).trapword = tm.trapword := by rw [Team.modFrag]
@[simp] theorem Team.modFrag_faultstat (tm : Team) (n : Nat) (g : Frag → Frag) : (tm.modFrag n g).faultstat = tm.faultstat := by rw [Team.modFrag]
@[simp] theorem Team.modFrag_bbase (tm : Team) (n : Nat) (g : Frag → Frag) : (tm.modFrag n g).bbase = tm.bbase := by rw [Team.modFrag]
@[simp] theorem Team.modFrag_cb (tm : Team) (n : Nat) (g : Frag → Frag) : (tm.modFrag n g).cb = tm.cb := by rw [Team.modFrag]
@[simp] theorem Team.modFrag_memcnt (tm : Team) (n : Nat) (g : Frag → Frag) : (tm.modFrag n g).memcnt = tm.memcnt := by rw [Team.modFrag]
@[simp] theorem Team.modFrag_setcnt (tm : Team) (n : Nat) (g : Frag → Frag) : (tm.modFrag n g).setcnt = tm.setcnt := by rw [Team.modFrag]
@[simp] theorem Team.modFrag_arrcnt (tm : Team) (n : Nat) (g : Frag → Frag) : (tm.modFrag n g).arrcnt = tm.arrcnt := by rw [Team.modFrag]
@[simp] theorem Team.modFrag_bankcnt (tm : Team) (n : Nat) (g : Frag → Frag) : (tm.modFrag n g).bankcnt = tm.bankcnt := by rw [Team.modFrag]
@[simp] theorem Team.modFrag_cpycnt (tm : Team) (n : Nat) (g : Frag → Frag) : (tm.modFrag n g).cpycnt = tm.cpycnt := by rw [Team.modFrag]
@[simp] theorem Team.modFrag_stb (tm : Team) (n : Nat) (g : Frag → Frag) : (tm.modFrag n g).stb = tm.stb := by rw [Team.modFrag]
@[simp] theorem Team.modFrag_pend (tm : Team) (n : Nat) (g : Frag → Frag) : (tm.modFrag n g).pend = tm.pend := by rw [Team.modFrag]
@[simp] theorem Team.modFrag_cmds (tm : Team) (n : Nat) (g : Frag → Frag) : (tm.modFrag n g).cmds = tm.cmds := by rw [Team.modFrag]
@[simp] theorem Team.modFrag_cursors (tm : Team) (n : Nat) (g : Frag → Frag) : (tm.modFrag n g).cursors = tm.cursors := by rw [Team.modFrag]
@[simp] theorem Team.modFrag_handler (tm : Team) (n : Nat) (g : Frag → Frag) : (tm.modFrag n g).handler = tm.handler := by rw [Team.modFrag]
@[simp] theorem Team.modFrag_halted (tm : Team) (n : Nat) (g : Frag → Frag) : (tm.modFrag n g).halted = tm.halted := by rw [Team.modFrag]
@[simp] theorem Team.modFrag_finished (tm : Team) (n : Nat) (g : Frag → Frag) : (tm.modFrag n g).finished = tm.finished := by rw [Team.modFrag]
@[simp] theorem Team.modFrag_haltReqs (tm : Team) (n : Nat) (g : Frag → Frag) : (tm.modFrag n g).haltReqs = tm.haltReqs := by rw [Team.modFrag]
@[simp] theorem Team.modFrag_park (tm : Team) (n : Nat) (g : Frag → Frag) : (tm.modFrag n g).park = tm.park := by rw [Team.modFrag]
@[simp] theorem Team.modFrag_lift (tm : Team) (n : Nat) (g : Frag → Frag) : (tm.modFrag n g).lift = tm.lift := by rw [Team.modFrag]
@[simp] theorem Team.modFrag_wd (tm : Team) (n : Nat) (g : Frag → Frag) : (tm.modFrag n g).wd = tm.wd := by rw [Team.modFrag]
@[simp] theorem Team.modFrag_wdNow (tm : Team) (n : Nat) (g : Frag → Frag) : (tm.modFrag n g).wdNow = tm.wdNow := by rw [Team.modFrag]
@[simp] theorem Team.modFrag_exited (tm : Team) (n : Nat) (g : Frag → Frag) : (tm.modFrag n g).exited = tm.exited := by rw [Team.modFrag]
@[simp] theorem Team.modFrag_claim (tm : Team) (n : Nat) (g : Frag → Frag) : (tm.modFrag n g).claim = tm.claim := by rw [Team.modFrag]
@[simp] theorem Team.modFrag_remote (tm : Team) (n : Nat) (g : Frag → Frag) : (tm.modFrag n g).remote = tm.remote := by rw [Team.modFrag]
@[simp] theorem Team.setVs_L (tm : Team) (r : Nat) (xs : List (Nat × Word)) : (tm.setVs r xs).L = tm.L := by
  unfold Team.setVs; induction xs generalizing tm with
  | nil => rfl
  | cons x xs ih => exact ih _
@[simp] theorem Team.setVs_G (tm : Team) (r : Nat) (xs : List (Nat × Word)) : (tm.setVs r xs).G = tm.G := by
  unfold Team.setVs; induction xs generalizing tm with
  | nil => rfl
  | cons x xs ih => exact ih _
@[simp] theorem Team.setVs_copy (tm : Team) (r : Nat) (xs : List (Nat × Word)) : (tm.setVs r xs).copy = tm.copy := by
  unfold Team.setVs; induction xs generalizing tm with
  | nil => rfl
  | cons x xs ih => exact ih _
@[simp] theorem Team.setVs_prio (tm : Team) (r : Nat) (xs : List (Nat × Word)) : (tm.setVs r xs).prio = tm.prio := by
  unfold Team.setVs; induction xs generalizing tm with
  | nil => rfl
  | cons x xs ih => exact ih _
@[simp] theorem Team.setVs_s (tm : Team) (r : Nat) (xs : List (Nat × Word)) : (tm.setVs r xs).s = tm.s := by
  unfold Team.setVs; induction xs generalizing tm with
  | nil => rfl
  | cons x xs ih => exact ih _
@[simp] theorem Team.setVs_c (tm : Team) (r : Nat) (xs : List (Nat × Word)) : (tm.setVs r xs).c = tm.c := by
  unfold Team.setVs; induction xs generalizing tm with
  | nil => rfl
  | cons x xs ih => exact ih _
@[simp] theorem Team.setVs_rpoison (tm : Team) (r : Nat) (xs : List (Nat × Word)) : (tm.setVs r xs).rpoison = tm.rpoison := by
  unfold Team.setVs; induction xs generalizing tm with
  | nil => rfl
  | cons x xs ih => exact ih _
@[simp] theorem Team.setVs_p (tm : Team) (r : Nat) (xs : List (Nat × Word)) : (tm.setVs r xs).p = tm.p := by
  unfold Team.setVs; induction xs generalizing tm with
  | nil => rfl
  | cons x xs ih => exact ih _
@[simp] theorem Team.setVs_fpflags (tm : Team) (r : Nat) (xs : List (Nat × Word)) : (tm.setVs r xs).fpflags = tm.fpflags := by
  unfold Team.setVs; induction xs generalizing tm with
  | nil => rfl
  | cons x xs ih => exact ih _
@[simp] theorem Team.setVs_sigacc (tm : Team) (r : Nat) (xs : List (Nat × Word)) : (tm.setVs r xs).sigacc = tm.sigacc := by
  unfold Team.setVs; induction xs generalizing tm with
  | nil => rfl
  | cons x xs ih => exact ih _
@[simp] theorem Team.setVs_trapvec (tm : Team) (r : Nat) (xs : List (Nat × Word)) : (tm.setVs r xs).trapvec = tm.trapvec := by
  unfold Team.setVs; induction xs generalizing tm with
  | nil => rfl
  | cons x xs ih => exact ih _
@[simp] theorem Team.setVs_trapcause (tm : Team) (r : Nat) (xs : List (Nat × Word)) : (tm.setVs r xs).trapcause = tm.trapcause := by
  unfold Team.setVs; induction xs generalizing tm with
  | nil => rfl
  | cons x xs ih => exact ih _
@[simp] theorem Team.setVs_trappc (tm : Team) (r : Nat) (xs : List (Nat × Word)) : (tm.setVs r xs).trappc = tm.trappc := by
  unfold Team.setVs; induction xs generalizing tm with
  | nil => rfl
  | cons x xs ih => exact ih _
@[simp] theorem Team.setVs_trapword (tm : Team) (r : Nat) (xs : List (Nat × Word)) : (tm.setVs r xs).trapword = tm.trapword := by
  unfold Team.setVs; induction xs generalizing tm with
  | nil => rfl
  | cons x xs ih => exact ih _
@[simp] theorem Team.setVs_faultstat (tm : Team) (r : Nat) (xs : List (Nat × Word)) : (tm.setVs r xs).faultstat = tm.faultstat := by
  unfold Team.setVs; induction xs generalizing tm with
  | nil => rfl
  | cons x xs ih => exact ih _
@[simp] theorem Team.setVs_bbase (tm : Team) (r : Nat) (xs : List (Nat × Word)) : (tm.setVs r xs).bbase = tm.bbase := by
  unfold Team.setVs; induction xs generalizing tm with
  | nil => rfl
  | cons x xs ih => exact ih _
@[simp] theorem Team.setVs_cb (tm : Team) (r : Nat) (xs : List (Nat × Word)) : (tm.setVs r xs).cb = tm.cb := by
  unfold Team.setVs; induction xs generalizing tm with
  | nil => rfl
  | cons x xs ih => exact ih _
@[simp] theorem Team.setVs_memcnt (tm : Team) (r : Nat) (xs : List (Nat × Word)) : (tm.setVs r xs).memcnt = tm.memcnt := by
  unfold Team.setVs; induction xs generalizing tm with
  | nil => rfl
  | cons x xs ih => exact ih _
@[simp] theorem Team.setVs_setcnt (tm : Team) (r : Nat) (xs : List (Nat × Word)) : (tm.setVs r xs).setcnt = tm.setcnt := by
  unfold Team.setVs; induction xs generalizing tm with
  | nil => rfl
  | cons x xs ih => exact ih _
@[simp] theorem Team.setVs_arrcnt (tm : Team) (r : Nat) (xs : List (Nat × Word)) : (tm.setVs r xs).arrcnt = tm.arrcnt := by
  unfold Team.setVs; induction xs generalizing tm with
  | nil => rfl
  | cons x xs ih => exact ih _
@[simp] theorem Team.setVs_bankcnt (tm : Team) (r : Nat) (xs : List (Nat × Word)) : (tm.setVs r xs).bankcnt = tm.bankcnt := by
  unfold Team.setVs; induction xs generalizing tm with
  | nil => rfl
  | cons x xs ih => exact ih _
@[simp] theorem Team.setVs_cpycnt (tm : Team) (r : Nat) (xs : List (Nat × Word)) : (tm.setVs r xs).cpycnt = tm.cpycnt := by
  unfold Team.setVs; induction xs generalizing tm with
  | nil => rfl
  | cons x xs ih => exact ih _
@[simp] theorem Team.setVs_stb (tm : Team) (r : Nat) (xs : List (Nat × Word)) : (tm.setVs r xs).stb = tm.stb := by
  unfold Team.setVs; induction xs generalizing tm with
  | nil => rfl
  | cons x xs ih => exact ih _
@[simp] theorem Team.setVs_pend (tm : Team) (r : Nat) (xs : List (Nat × Word)) : (tm.setVs r xs).pend = tm.pend := by
  unfold Team.setVs; induction xs generalizing tm with
  | nil => rfl
  | cons x xs ih => exact ih _
@[simp] theorem Team.setVs_cmds (tm : Team) (r : Nat) (xs : List (Nat × Word)) : (tm.setVs r xs).cmds = tm.cmds := by
  unfold Team.setVs; induction xs generalizing tm with
  | nil => rfl
  | cons x xs ih => exact ih _
@[simp] theorem Team.setVs_cursors (tm : Team) (r : Nat) (xs : List (Nat × Word)) : (tm.setVs r xs).cursors = tm.cursors := by
  unfold Team.setVs; induction xs generalizing tm with
  | nil => rfl
  | cons x xs ih => exact ih _
@[simp] theorem Team.setVs_handler (tm : Team) (r : Nat) (xs : List (Nat × Word)) : (tm.setVs r xs).handler = tm.handler := by
  unfold Team.setVs; induction xs generalizing tm with
  | nil => rfl
  | cons x xs ih => exact ih _
@[simp] theorem Team.setVs_halted (tm : Team) (r : Nat) (xs : List (Nat × Word)) : (tm.setVs r xs).halted = tm.halted := by
  unfold Team.setVs; induction xs generalizing tm with
  | nil => rfl
  | cons x xs ih => exact ih _
@[simp] theorem Team.setVs_finished (tm : Team) (r : Nat) (xs : List (Nat × Word)) : (tm.setVs r xs).finished = tm.finished := by
  unfold Team.setVs; induction xs generalizing tm with
  | nil => rfl
  | cons x xs ih => exact ih _
@[simp] theorem Team.setVs_haltReqs (tm : Team) (r : Nat) (xs : List (Nat × Word)) : (tm.setVs r xs).haltReqs = tm.haltReqs := by
  unfold Team.setVs; induction xs generalizing tm with
  | nil => rfl
  | cons x xs ih => exact ih _
@[simp] theorem Team.setVs_park (tm : Team) (r : Nat) (xs : List (Nat × Word)) : (tm.setVs r xs).park = tm.park := by
  unfold Team.setVs; induction xs generalizing tm with
  | nil => rfl
  | cons x xs ih => exact ih _
@[simp] theorem Team.setVs_lift (tm : Team) (r : Nat) (xs : List (Nat × Word)) : (tm.setVs r xs).lift = tm.lift := by
  unfold Team.setVs; induction xs generalizing tm with
  | nil => rfl
  | cons x xs ih => exact ih _
@[simp] theorem Team.setVs_wd (tm : Team) (r : Nat) (xs : List (Nat × Word)) : (tm.setVs r xs).wd = tm.wd := by
  unfold Team.setVs; induction xs generalizing tm with
  | nil => rfl
  | cons x xs ih => exact ih _
@[simp] theorem Team.setVs_wdNow (tm : Team) (r : Nat) (xs : List (Nat × Word)) : (tm.setVs r xs).wdNow = tm.wdNow := by
  unfold Team.setVs; induction xs generalizing tm with
  | nil => rfl
  | cons x xs ih => exact ih _
@[simp] theorem Team.setVs_exited (tm : Team) (r : Nat) (xs : List (Nat × Word)) : (tm.setVs r xs).exited = tm.exited := by
  unfold Team.setVs; induction xs generalizing tm with
  | nil => rfl
  | cons x xs ih => exact ih _
@[simp] theorem Team.setVs_claim (tm : Team) (r : Nat) (xs : List (Nat × Word)) : (tm.setVs r xs).claim = tm.claim := by
  unfold Team.setVs; induction xs generalizing tm with
  | nil => rfl
  | cons x xs ih => exact ih _
@[simp] theorem Team.setVs_remote (tm : Team) (r : Nat) (xs : List (Nat × Word)) : (tm.setVs r xs).remote = tm.remote := by
  unfold Team.setVs; induction xs generalizing tm with
  | nil => rfl
  | cons x xs ih => exact ih _
@[simp] theorem Team.setVs_frags (tm : Team) (r : Nat) (xs : List (Nat × Word)) : (tm.setVs r xs).frags = tm.frags := by
  unfold Team.setVs; induction xs generalizing tm with
  | nil => rfl
  | cons x xs ih => exact ih _

/-- A register reads as it was last written. -/
@[simp] theorem Team.sreg_setS_self (tm : Team) (r : Nat) (x : Word) : (tm.setS r x).sreg r = x := AMap.get_set_self _ _ _ _
theorem Team.sreg_setS_ne (tm : Team) {r q : Nat} (x : Word) (h : r ≠ q) : (tm.setS r x).sreg q = tm.sreg q :=
  AMap.get_set_ne _ _ _ h
@[simp] theorem Team.creg_setC_self (tm : Team) (r : Nat) (x : Cap × Bool) : (tm.setC r x).creg r = x := AMap.get_set_self _ _ _ _
theorem Team.creg_setC_ne (tm : Team) {r q : Nat} (x : Cap × Bool) (h : r ≠ q) : (tm.setC r x).creg q = tm.creg q :=
  AMap.get_set_ne _ _ _ h
/-- `p7` discards a write (R138). -/
@[simp] theorem Team.setP_seven (tm : Team) (x : Mask) : tm.setP 7 x = tm := rfl
theorem Team.preg_setP_self (tm : Team) {r : Nat} (x : Mask) (h : r ≠ 7) : (tm.setP r x).preg r = x := by
  unfold Team.preg Team.setP; simp [h]
theorem Team.preg_setP_ne (tm : Team) {r q : Nat} (x : Mask) (h : r ≠ q) : (tm.setP r x).preg q = tm.preg q := by
  unfold Team.preg Team.setP
  by_cases hr : r = 7
  · simp [hr]
  · by_cases hq : q = 7
    · simp [hq]
    · simp only [hr, hq, if_false]; exact AMap.get_set_ne _ _ _ h

end Sys2Proof.Machine
end

