-- ==== Sys2Proof/Laws/Issue.lean ====
section
/-!
SUPPORT. Sys2Proof/Laws/Issue.lean: what the issue of an instruction can do: its book-keeping, the advance of the PC and the
rewriting of fragments leave a team still and all else as it was, and a calm fragment runs the body of its instruction.
-/

namespace Sys2Proof.Machine

/-! ### A team under the updates -/

theorem Team.still_modFrag (tm : Team) (n : Nat) (g : Frag → Frag) : (tm.modFrag n g).still = tm.still := by
  simp only [Team.modFrag, Team.still]
theorem Team.still_feed (tm : Team) (n : Nat) : (tm.feed n).still = tm.still := by simp only [Team.feed, Team.still]
theorem Team.still_absorb (tm : Team) (gone : List Nat) (parent : Nat) : (tm.absorb gone parent).still = tm.still := by
  have : (tm.pend.map fun p => if p.heirs.any gone.contains then
        { p with heirs := insSorted parent (p.heirs.filter fun h => !gone.contains h) } else p).map Pend.still = tm.pend.map Pend.still := by
    rw [List.map_map]
    refine List.map_congr_left fun p _ => ?_
    simp only [Function.comp]
    split <;> simp only [Pend.still]
  simp only [Team.absorb, Team.still, this]
theorem Team.still_fuse (tm : Team) (p : Frag) (a : Nat) (cs : List Frag) (w : Bool) : (tm.fuse p a cs w).still = tm.still := by
  simp only [Team.fuse, Team.still_absorb, Team.still_modFrag]
theorem Team.still_unyield (tm : Team) (y : Bool) (n : Nat) : (tm.unyield y n).still = tm.still := by
  simp only [Team.unyield, Team.still]

theorem Team.still_settleStep (tm : Team) {x : Team × Bool} (h : tm.settleStep = some x) : x.1.still = tm.still := by
  unfold Team.settleStep at h
  split at h
  · cases h; simp only [Team.still]
  · split at h
    · cases h; exact Team.still_modFrag _ _ _
    · split at h
      · cases h; rw [Team.still_absorb, Team.still_modFrag]
      · obtain ⟨p, -, hp⟩ := List.exists_of_findSome?_eq_some h
        simp only at hp
        repeat' split at hp
        all_goals first
          | (cases hp; exact Team.still_fuse _ _ _ _ _)
          | cases hp

theorem Team.still_settle (n : Nat) (tm : Team) : (Team.settle n tm).still = tm.still := by
  induction n generalizing tm with
  | zero => rfl
  | succ n ih =>
    unfold Team.settle
    cases h : tm.settleStep with
    | none => rfl
    | some x =>
      obtain ⟨tm', fused⟩ := x
      have h1 := Team.still_settleStep tm h
      simp only
      rw [ih]
      split
      · split
        · exact h1
        · rw [Team.still_feed]; exact h1
      · exact h1

/-- No `b.lift` of the team is outstanding, or it is not lifted: its book-keeping then leaves its counters. -/
def Team.noLift (tm : Team) : Prop := tm.lifted = false ∨ ∀ p ∈ tm.pend, p.kind ≠ .lift

theorem Team.still_noteRecord (c : Ctx) (i : Issue) (tm : Team) : (Team.noteRecord c i tm).still = tm.still := by
  unfold Team.noteRecord; rw [apply_ite Team.still, Team.still_feed, ite_self]
theorem Team.still_noteWatch (c : Ctx) (y : Bool) (tm : Team) : (Team.noteWatch c y tm).still = tm.still := by
  unfold Team.noteWatch; split <;> simp only [Team.still]
theorem Team.still_noteWindows (c : Ctx) (tm : Team) : (Team.noteWindows c tm).still = tm.still := by
  unfold Team.noteWindows Team.still
  dsimp only
  rw [List.map_map]
  congr 1
  refine List.map_congr_left fun p _ => ?_
  simp only [Function.comp]
  split <;> simp only [Pend.still]
theorem Team.still_noteWrites (c : Ctx) (i : Issue) (tm : Team) : (Team.noteWrites c i tm).still = tm.still := by
  unfold Team.noteWrites
  dsimp only
  split
  · rfl
  · unfold Team.still
    dsimp only
    rw [List.map_map]
    congr 1
    refine List.map_congr_left fun p _ => ?_
    simp only [Function.comp]
    split <;> simp only [Pend.still]
theorem Team.noteLift_of (tm : Team) (h : tm.noLift) : Team.noteLift tm = tm := by
  unfold Team.noteLift
  split
  · next hl =>
    have hp : ∀ p ∈ tm.pend, p.kind ≠ .lift := h.resolve_left (by simp [hl])
    have h1 : tm.pend.filter (fun p => p.kind == .lift) = [] := by
      rw [List.filter_eq_nil_iff]; intro p hm; simpa using hp p hm
    have h2 : tm.pend.filter (fun p => p.kind != .lift) = tm.pend := by
      rw [List.filter_eq_self]; intro p hm; simpa using hp p hm
    rw [h1, h2]; rfl
  · rfl
theorem Team.pend_noteWatch (c : Ctx) (y : Bool) (tm : Team) : (Team.noteWatch c y tm).pend = tm.pend := by
  unfold Team.noteWatch; rw [apply_ite Team.pend, ite_self]
theorem Team.lifted_noteWatch (c : Ctx) (y : Bool) (tm : Team) : (Team.noteWatch c y tm).lift = tm.lift := by
  unfold Team.noteWatch; rw [apply_ite Team.lift, ite_self]

theorem Team.still_noteIssue (c : Ctx) (y : Bool) (tm : Team) (h : tm.noLift) : (Team.noteIssue c y tm).still = tm.still := by
  have h' : (Team.noteWatch c y tm).noLift := by
    unfold Team.noLift Team.lifted at h ⊢
    rw [Team.pend_noteWatch, Team.lifted_noteWatch]; exact h
  rw [Team.noteIssue, Team.still_noteWindows, Team.noteLift_of _ h', Team.still_noteWatch]

/-! ### The state under the updates -/

theorem State.team_of_block {s t : State} {k : Nat} (h : t.block k = s.block k) (n : Nat) : t.team k n = s.team k n := by
  unfold State.team; rw [h]
theorem State.team_modBlock_teams (s : State) (k : Nat) {f : Block → Block} (hf : ∀ b, (f b).teams = b.teams) (j n : Nat) :
    (s.modBlock k f).team j n = s.team j n := by
  unfold State.team
  by_cases h : k = j
  · subst h
    rw [State.modBlock_block_self]
    cases s.block k with
    | none => rfl
    | some b => simp only [Option.map_some, Option.bind_some, hf]
  · rw [State.modBlock_block_ne _ _ h]
theorem State.block_modCore_keep (s : State) (k : Nat) {f : Core → Core} (hf : ∀ c, (f c).block = c.block) (j : Nat) :
    (s.modCore k f).block j = s.block j := by
  unfold State.block
  by_cases h : k = j
  · subst h; rw [State.modCore_core_self, hf]
  · rw [State.modCore_core_ne _ _ h]

theorem Quiet.refl (s : State) : Quiet s s := ⟨rfl, fun _ => rfl, fun _ => rfl, fun _ _ => rfl⟩
theorem Quiet.trans {s t u : State} (h : Quiet s t) (h' : Quiet t u) : Quiet s u :=
  ⟨h'.rest.trans h.rest, fun j => (h'.cores j).trans (h.cores j), fun j => (h'.blocks j).trans (h.blocks j),
    fun j m => (h'.teams j m).trans (h.teams j m)⟩
theorem Frame.trans {s t u : State} {k n : Nat} (h : Frame s t k n) (h' : Frame t u k n) : Frame s u k n :=
  ⟨h'.rest.trans h.rest, fun j => (h'.cores j).trans (h.cores j), fun j => (h'.blocks j).trans (h.blocks j),
    fun j m e => (h'.others j m e).trans (h.others j m e)⟩
theorem Frame.refl (s : State) (k n : Nat) : Frame s s k n := ⟨rfl, fun _ => rfl, fun _ => rfl, fun _ _ _ => rfl⟩
theorem Quiet.frame {s t : State} (h : Quiet s t) (k n : Nat) : Frame s t k n :=
  ⟨h.rest, h.cores, h.blocks, fun j m _ => h.teams j m⟩

theorem State.rest_modCore (s : State) (k : Nat) (f : Core → Core) : (s.modCore k f).rest = s.rest := by
  simp only [State.modCore, State.setCore, State.rest]
theorem State.core_rest_modBlock (s : State) (k : Nat) (f : Block → Block) (j : Nat) :
    ((s.modBlock k f).core j).rest = (s.core j).rest := by
  unfold State.modBlock
  by_cases h : k = j
  · subst h; rw [State.modCore_core_self]; simp only [Core.rest]
  · rw [State.modCore_core_ne _ _ h]
theorem State.block_rest_modBlock (s : State) (k : Nat) {f : Block → Block} (hf : ∀ b, (f b).rest = b.rest) (j : Nat) :
    ((s.modBlock k f).block j).map Block.rest = (s.block j).map Block.rest := by
  by_cases h : k = j
  · subst h; rw [State.modBlock_block_self, Option.map_map]
    congr 1; funext b; exact hf b
  · rw [State.modBlock_block_ne _ _ h]

/-- A change of one team leaves the rest. -/
theorem frame_modTeam (s : State) (k t : Nat) (f : Team → Team) : Frame s (s.modTeam k t f) k t :=
  ⟨State.rest_modCore s k _, State.core_rest_modBlock s k _,
    State.block_rest_modBlock s k (fun b => by simp only [Block.modTeam, Block.rest, Block.reserved]),
    fun j m e => by unfold State.stillAt; rw [State.modTeam_team_ne _ _ (Ne.symm e)]⟩
/-- A change of one team that leaves it still. -/
theorem quiet_modTeam (s : State) (k t : Nat) {f : Team → Team} (hf : ∀ tm, s.team k t = some tm → (f tm).still = tm.still) :
    Quiet s (s.modTeam k t f) := by
  have fr := frame_modTeam s k t f
  refine ⟨fr.rest, fr.cores, fr.blocks, fun j m => ?_⟩
  by_cases e : (j, m) = (k, t)
  · cases e; unfold State.stillAt; rw [State.modTeam_team_self]
    cases h : s.team k t with
    | none => rfl
    | some tm => simp only [Option.map_some, hf tm h]
  · exact fr.others j m e
theorem quiet_modFrag (s : State) (k t n : Nat) (g : Frag → Frag) : Quiet s (s.modFrag k t n g) :=
  quiet_modTeam s k t fun tm _ => Team.still_modFrag tm n g

/-! ### The spill records (R45, R46) -/

theorem mem_upto {x n : Nat} : ∀ {lo : Nat}, x ∈ upto lo n → lo ≤ x := by
  induction n with
  | zero => intro lo h; simp [upto] at h
  | succ n ih =>
    intro lo h
    rcases List.mem_cons.1 h with e | e
    · omega
    · have := ih e; omega
/-- A write from offset n up leaves what lies below. -/
theorem Scratch.below_write (p : Scratch) {n off : Nat} (xs : List Byte) (h : n ≤ off) (h16 : n % 16 = 0) :
    (p.write off xs).below n = p.below n := by
  have hb : ∀ (l : List (Byte × Nat)) (m : AMap Byte), (∀ x ∈ l, n ≤ x.2) →
      List.filter (fun x => decide (x.1 < n)) (l.foldl (fun m x => AMap.put m x.2 x.1) m) = List.filter (fun x => decide (x.1 < n)) m := by
    intro l
    induction l with
    | nil => intro m _; rfl
    | cons x l ih =>
      intro m hl
      rw [List.foldl_cons, ih _ (fun y hy => hl y (List.mem_cons_of_mem _ hy)),
        AMap.filter_put _ _ _ (fun _ => decide_eq_false (by have := hl x List.mem_cons_self; simp only; omega))]
  have hp : ∀ (l : List Nat) (m : List Nat), (∀ x ∈ l, n ≤ 8 * x) →
      (l.foldl (fun l u => delSorted u l) m).filter (fun u => decide (8 * u < n)) = m.filter (fun u => decide (8 * u < n)) := by
    intro l
    induction l with
    | nil => intro m _; rfl
    | cons x l ih =>
      intro m hl
      rw [List.foldl_cons, ih _ (fun y hy => hl y (List.mem_cons_of_mem _ hy)), delSorted, List.filter_filter]
      refine List.filter_congr fun y _ => ?_
      have := hl x List.mem_cons_self
      by_cases e : y = x
      · subst e; simp; omega
      · simp [e]
  unfold Scratch.write Scratch.below
  simp only [Scratch.mk.injEq, true_and, and_true]
  refine ⟨?_, ?_, ?_⟩
  · refine hb _ _ fun x hx => ?_
    have := mem_upto (List.of_mem_zip hx).2; omega
  · rw [List.filter_filter]
    refine List.filter_congr fun g _ => ?_
    by_cases hg : 16 * g < n
    · have : g ∉ upto (off / 16) ((off + xs.length + 15) / 16 - off / 16) := fun hm => by have := mem_upto hm; omega
      simp [this]
    · simp [hg]
  · refine hp _ _ fun x hx => ?_
    have := mem_upto hx; omega
theorem Block.spillRecords_off (b : Block) (l : List (Nat × Frag)) : ∀ x ∈ b.spillRecords l, Config.spBytes - b.reserved ≤ x.1 := by
  induction l with
  | nil => intro x h; cases h
  | cons y l ih =>
    intro x h
    rcases List.mem_cons.1 h with e | e
    · subst e; exact Nat.le_add_right _ _
    · exact ih x e
theorem Block.reserved_aligned (b : Block) : (Config.spBytes - b.reserved) % 16 = 0 := by
  unfold Block.reserved Config.spBytes; omega
/-- The records change the reserved area only. -/
theorem Block.rest_syncSpill (b : Block) (p : Nat) : (b.syncSpill p).rest = b.rest := by
  have key : ∀ (l : List (Nat × List Byte)) (sp : Scratch), (∀ x ∈ l, Config.spBytes - b.reserved ≤ x.1) →
      (l.foldl (fun sp x => if sp.read x.1 64 == x.2 then sp else sp.write x.1 x.2) sp).below (Config.spBytes - b.reserved)
        = sp.below (Config.spBytes - b.reserved) := by
    intro l
    induction l with
    | nil => intro sp _; rfl
    | cons x l ih =>
      intro sp hl
      rw [List.foldl_cons, ih _ (fun y hy => hl y (List.mem_cons_of_mem _ hy))]
      split
      · rfl
      · exact Scratch.below_write _ _ (hl x List.mem_cons_self) b.reserved_aligned
  have := key _ b.sp (b.spillRecords_off (b.spillList p))
  unfold Block.rest Block.syncSpill
  simp only [Block.mk.injEq, true_and, and_true]
  exact this
theorem Block.teams_syncSpill (b : Block) (p : Nat) : (b.syncSpill p).teams = b.teams := rfl

/-- A change of a block's teams and records is a change of its team. -/
theorem State.team_settle (s : State) (k t : Nat) (j n : Nat) : (s.settle k t).team j n = (s.modTeam k t fun tm =>
    let tm := Team.settle (2 * tm.frags.length + 2) tm
    { tm with finished := tm.finished || (tm.frags.isEmpty && tm.lift == .core) }).team j n := by
  unfold State.settle State.modTeam State.team
  by_cases h : k = j
  · subst h; rw [State.modBlock_block_self, State.modBlock_block_self]
    cases s.block k <;> rfl
  · rw [State.modBlock_block_ne _ _ h, State.modBlock_block_ne _ _ h]
theorem quiet_settle (s : State) (k t : Nat) : Quiet s (s.settle k t) := by
  refine ⟨State.rest_modCore s k _, State.core_rest_modBlock s k _, State.block_rest_modBlock s k fun b => ?_, fun j m => ?_⟩
  · rw [Block.rest_syncSpill]; simp only [Block.modTeam, Block.rest, Block.reserved]
  · unfold State.stillAt
    rw [State.team_settle]
    exact (quiet_modTeam s k t fun tm _ => by
      rw [← Team.still_settle (2 * tm.frags.length + 2) tm]; simp only [Team.still]).teams j m
theorem quiet_advance (s : State) (c : Ctx) (pc : Nat) : Quiet s (s.advance c pc) :=
  (quiet_modFrag s c.k c.t c.csn _).trans (quiet_settle _ _ _)

theorem quiet_stackCore (s : State) (k : Nat) (f : StackCore → StackCore) : Quiet s (s.modStackCore k f) :=
  ⟨by simp only [State.modStackCore, State.rest], fun _ => rfl, fun _ => rfl, fun _ _ => rfl⟩
theorem quiet_modSampler (s : State) (c : Ctx) (f : Nat → Sampler → Sampler) : Quiet s (s.modSampler c f) := by
  unfold State.modSampler
  split
  · exact quiet_stackCore _ _ _
  · refine ⟨State.rest_modCore _ _ _, fun j => ?_, fun j => ?_, fun j m => ?_⟩
    · by_cases h : c.k = j
      · subst h; rw [State.modCore_core_self]; simp only [Core.rest]
      · rw [State.modCore_core_ne _ _ h]
    · rw [State.block_modCore_keep _ _ (fun _ => by rfl)]
    · unfold State.stillAt; rw [State.team_of_block (State.block_modCore_keep _ _ (fun _ => by rfl) j)]
theorem quiet_noteLast (s : State) (c : Ctx) : Quiet s (s.noteLast c) := by
  unfold State.noteLast
  split
  · exact quiet_stackCore _ _ _
  · exact ⟨State.rest_modCore _ _ _, State.core_rest_modBlock _ _ _,
      State.block_rest_modBlock _ _ (fun b => by simp only [Block.modPart, Block.rest, Block.reserved]),
      fun j m => by unfold State.stillAt; rw [State.team_modBlock_teams _ _ (fun b => by rw [Block.modPart])]⟩
theorem quiet_noteIssue (s : State) (c : Ctx) (i : Issue) (h : ∀ tm, s.team c.k c.t = some tm → tm.noLift) :
    Quiet s (s.noteIssue c i) :=
  ((quiet_modTeam s c.k c.t fun tm e => Team.still_noteIssue c _ tm (h tm e)).trans (quiet_modSampler _ _ _)).trans
    (quiet_noteLast _ _)
theorem quiet_unyield (s : State) (c : Ctx) (y : Bool) : Quiet s (c.unyield y s) := by
  refine ⟨State.rest_modCore _ _ _, State.core_rest_modBlock _ _ _,
    State.block_rest_modBlock _ _ (fun b => by simp only [Block.rest, Block.reserved]), fun j m => ?_⟩
  unfold State.stillAt State.team Ctx.unyield
  by_cases e : c.k = j
  · subst e
    rw [State.modBlock_block_self]
    cases s.block c.k with
    | none => rfl
    | some b =>
      simp only [Option.map_some, Option.bind_some]
      rw [AMap.find?_map b.teams fun n (tm : Team) => if n % 4 = c.t % 4 then tm.unyield (y && n == c.t) c.csn else tm]
      rw [Option.map_map]
      congr 1
      funext tm
      simp only [Function.comp]
      rw [apply_ite Team.still, Team.still_unyield, ite_self]
  · rw [State.modBlock_block_ne _ _ e]

/-- Everything that follows a body: the book-keeping and the advance change nothing but what every issue moves. -/
theorem quiet_goOn (c : Ctx) (i : Issue) (pc : Nat) (s : State) (h : ∀ tm, s.team c.k c.t = some tm → tm.noLift) :
    Quiet s (c.goOn i pc s) := by
  unfold Ctx.goOn Ctx.noted
  refine Quiet.trans ?_ (quiet_advance _ _ _)
  refine Quiet.trans (Quiet.trans (t := if c.f.hold == .none then s.noteIssue c i else s) ?_
    (quiet_modTeam _ _ _ fun tm _ => by rw [Team.still_noteRecord, Team.still_noteWrites])) (quiet_unyield _ _ _)
  split
  · exact quiet_noteIssue s c i h
  · exact Quiet.refl s

/-! ### The issue of a calm fragment -/

theorem issuer_spec {s : State} {c : Ctx} (h : s.issuer = some c) :
    s.acting = .frag c.k c.t c.csn c.word ∧ s.block c.k = some c.b ∧ s.team c.k c.t = some c.tm ∧ c.tm.frag c.csn = some c.f
      ∧ c.len = wordLen c.word := by
  unfold State.issuer at h
  split at h
  · next k t csn word ha =>
    split at h
    · next b tm hb ht =>
      cases hf : tm.frag csn with
      | none => simp [hf] at h
      | some f => simp only [hf, Option.map_some, Option.some.injEq] at h; subst h; exact ⟨ha, hb, ht, hf, rfl⟩
    · cases h
  · cases h

/-- The parts of `calm`. -/
theorem calm_spec {c : Ctx} (hc : c.calm = true) : fragBlocked c.b c.tm c.t c.f = false ∧ c.f.hold = .none ∧ c.tm.pend = []
    ∧ (c.tm.vpoison = [] ∧ c.tm.rpoison = []) ∧ ∀ q, c.tm.counter q < 63 := by
  simp only [Ctx.calm, Bool.and_eq_true, Bool.not_eq_true', beq_iff_eq, List.isEmpty_iff, decide_eq_true_eq] at hc
  obtain ⟨⟨⟨⟨⟨⟨⟨⟨h1, h2⟩, h3⟩, h4⟩, h5⟩, h6⟩, h7⟩, h8⟩, h9⟩ := hc
  refine ⟨h1, h2, h3, ⟨h4, h5⟩, fun q => ?_⟩
  cases q <;> first | exact h6 | exact h7 | exact h8 | exact h9 | exact Nat.zero_lt_succ _

theorem interlocked_calm (tm : Team) (csn : Nat) (i : Issue) (h : tm.pend = []) : interlocked tm csn i = false := by
  simp [interlocked, h]
theorem acquirePending_calm (tm : Team) (csn : Nat) (h : tm.pend = []) : acquirePending tm csn = false := by
  simp [acquirePending, h]

/-- A calm fragment of a team that may issue i runs its body in the lanes in which the guard holds. -/
theorem issue_calm {s : State} {c : Ctx} {i : Issue} (h : s.issuer = some c) (hc : c.calm = true) (hr : roleFault c i = false)
    (hv : ∀ x ∈ i.vregs, x.2 < 8 * c.tm.G) :
    s.issue i = if i.perLane || c.acts i.g then c.finish i s (i.body c (c.lanes i.g) s)
      else c.finish { i with yields := false } s (.done s) := by
  obtain ⟨ha, hb, ht, hf, hl⟩ := issuer_spec h
  obtain ⟨h1, h2, h3, h4, h5⟩ := calm_spec hc
  have hcnt : (match i.counts with | some q => decide (63 ≤ c.tm.counter q) | none => false) = false := by
    cases i.counts with
    | none => rfl
    | some q => have := h5 q; exact decide_eq_false (by omega)
  have hall : allotFault c.tm i = none := by
    unfold allotFault
    rw [List.find?_eq_none]
    intro x hx
    have := hv x hx
    simp only [decide_eq_true_eq]; omega
  have hp : ∀ E, poisonRead c s i E = false := by intro E; simp [poisonRead, h4.1, h4.2]
  obtain ⟨k, t, csn, word, len, b, tm, f⟩ := c
  simp only at ha hb ht hf hl h1 h2 h3 h4 hcnt hall hp
  subst hl
  unfold State.issue
  simp only [ha, hb, ht, hf, h1, h2, interlocked_calm _ _ _ h3, acquirePending_calm _ _ h3, hr, hall, hp]
  simp only [Bool.and_false, Bool.false_and, Bool.or_self, Bool.false_or, beq_self_eq_true, Bool.false_eq_true, if_false]
  rw [if_neg (by rw [Bool.and_eq_true]; exact fun e => absurd (hcnt.symm.trans e.2) Bool.false_ne_true)]
  by_cases hpl : i.perLane = true
  · rw [if_neg (by simp [hpl]), if_pos (by simp [hpl])]; rfl
  · by_cases hla : laneIn (f.mask &&& guardMask tm i.g) (lowLane f.mask) = true
    · rw [if_neg (by simp [hla]), if_pos (by simp only [Ctx.acts, Ctx.lanes]; rw [hla, Bool.or_true])]; rfl
    · rw [if_pos (by simp only [Bool.not_eq_true] at hpl hla; rw [hpl, hla]; rfl),
        if_neg (by simp only [Ctx.acts, Ctx.lanes]; simp only [Bool.not_eq_true] at hpl hla; rw [hpl, hla]; exact Bool.false_ne_true)]

theorem noLift_of_pend {tm : Team} (h : tm.pend = []) : tm.noLift := Or.inr (by rw [h]; simp)

/-! ### Roles (R55, R297, R341) -/

theorem roleFault_any {c : Ctx} {i : Issue} (h1 : i.vectorOnly = false) (h2 : i.copyOnly = false) (h3 : i.onStack = true)
    (h4 : i.liftedOnly = false) (h5 : i.privOnly = false) : roleFault c i = false := by
  simp [roleFault, h1, h2, h3, h4, h5]
theorem notLifted_of {c : Ctx} (h : c.tm.lift = .core) : c.tm.lifted = false := by simp [Team.lifted, h]
theorem roleFault_core {c : Ctx} {i : Issue} (h : c.tm.lift = .core) (h1 : i.vectorOnly = true → c.tm.copy = false)
    (h2 : i.copyOnly = true → c.tm.copy = true) (h4 : i.liftedOnly = false) (h5 : i.privOnly = true → c.b.priv = true) :
    roleFault c i = false := by
  have hl := notLifted_of h
  simp only [roleFault, hl, h4, Bool.false_and, Bool.and_false, Bool.or_false, Bool.or_eq_false_iff, Bool.and_eq_false_iff]
  refine ⟨⟨?_, ?_⟩, ?_⟩
  · by_cases e : i.vectorOnly = true
    · exact Or.inr (h1 e)
    · exact Or.inl (by simpa using e)
  · by_cases e : i.copyOnly = true
    · exact Or.inr (by simp [h2 e])
    · exact Or.inl (by simpa using e)
  · by_cases e : i.privOnly = true
    · exact Or.inr (by simp [h5 e])
    · exact Or.inl (by simpa using e)

end Sys2Proof.Machine
end

