-- ==== Sys2Proof/Laws/Alone.lean ====
section
/-!
SUPPORT. Sys2Proof/Laws/Alone.lean: a team of one fragment: no rewriting applies to it, so an instruction that goes on leaves the
fragment where it sends it.
-/

namespace Sys2Proof.Machine

/-! ### A fragment alone -/

theorem Team.settleStep_alone {tm : Team} {f : Frag} (h : tm.frags = [f]) (hm : f.mask ≠ 0) (hl : f.linkv = false)
    (hh : f.hollow = false) : tm.settleStep = none := by
  have e1 : (f.mask == 0) = false := by simpa using hm
  have hlk : tm.linked f.csn = [] := by simp [Team.linked, h, hl]
  have hfu : ∀ a, tm.fusable f a = [] := by intro a; simp [Team.fusable, hlk]
  have hmp : tm.mergePair = none := by simp [Team.mergePair, h, hl]
  unfold Team.settleStep
  simp only [h, List.find?_cons, e1, Bool.false_and, List.find?_nil, hmp, List.findSome?_cons, List.findSome?_nil, hlk, hfu, hh,
    List.isEmpty_nil, if_true, Bool.false_eq_true, if_false, List.any_nil, Bool.and_false, Bool.or_false, Bool.false_and]
  split
  · next h2 => split at h2 <;> (try split at h2) <;> cases h2
  · rfl

theorem Team.settle_alone {tm : Team} {f : Frag} (h : tm.frags = [f]) (hm : f.mask ≠ 0) (hl : f.linkv = false)
    (hh : f.hollow = false) (n : Nat) : Team.settle n tm = tm := by
  cases n with
  | zero => rfl
  | succ n => unfold Team.settle; rw [Team.settleStep_alone h hm hl hh]

/-- The fragments of a team under a change of one team. -/
theorem State.fragAt_modTeam (s : State) (k t csn : Nat) (f : Team → Team) :
    (s.modTeam k t f).fragAt k t csn = (s.team k t).bind fun tm => (f tm).frag csn := by
  unfold State.fragAt
  rw [State.modTeam_team_self, Option.bind_map]; rfl

/-! ### A team and its fragments after the book-keeping -/

theorem State.team_tagIssue (s : State) (c : Ctx) (r b : Bool) (k n : Nat) : (s.tagIssue c r b).team k n = s.team k n := by
  unfold State.tagIssue State.modSampler
  simp only
  split
  · exact State.team_of_block rfl n
  · exact State.team_of_block (State.block_modCore_keep s _ (f := _) (fun _ => by rfl) k) n
theorem State.team_noteLast (s : State) (c : Ctx) (n : Nat) : (s.noteLast c).team c.k n = s.team c.k n := by
  unfold State.noteLast
  split
  · exact State.team_of_block rfl n
  · exact State.team_modBlock_teams s c.k (fun b => by rw [Block.modPart]) c.k n
theorem State.team_noteIssue (s : State) (c : Ctx) (i : Issue) :
    (s.noteIssue c i).team c.k c.t = (s.team c.k c.t).map (Team.noteIssue c (s.wdPaused c.k c.b c.t c.tm)) := by
  rw [State.noteIssue, State.team_noteLast, State.team_tagIssue, State.modTeam_team_self]
theorem State.team_unyield (s : State) (c : Ctx) (y : Bool) :
    (c.unyield y s).team c.k c.t = (s.team c.k c.t).map (Team.unyield y c.csn) := by
  unfold Ctx.unyield State.team
  rw [State.modBlock_block_self]
  cases s.block c.k with
  | none => rfl
  | some b =>
    simp only [Option.map_some, Option.bind_some]
    rw [AMap.find?_map b.teams fun n (tm : Team) => if n % 4 = c.t % 4 then tm.unyield (y && n == c.t) c.csn else tm]
    simp only [if_true, beq_self_eq_true, Bool.and_true]

theorem Team.frags_subCount (tm : Team) (c : Cls) : (tm.subCount c).frags = tm.frags := by
  unfold Team.subCount; split <;> rw []
theorem Team.sigacc_subCount (tm : Team) (c : Cls) : (tm.subCount c).sigacc = tm.sigacc := by
  unfold Team.subCount; split <;> rw []
/-- The book-keeping of an issue leaves the fragments and `SIGACC`. -/
theorem Team.noteIssue_keeps (c : Ctx) (y : Bool) (tm : Team) :
    (Team.noteIssue c y tm).frags = tm.frags ∧ (Team.noteIssue c y tm).sigacc = tm.sigacc := by
  have h2 : ∀ tm : Team, (Team.noteWatch c y tm).frags = tm.frags ∧ (Team.noteWatch c y tm).sigacc = tm.sigacc := by
    intro tm; unfold Team.noteWatch; constructor <;> split <;> rfl
  have h3 : ∀ tm : Team, (Team.noteLift tm).frags = tm.frags ∧ (Team.noteLift tm).sigacc = tm.sigacc := by
    intro tm; unfold Team.noteLift
    split
    · generalize tm.pend.filter (fun p => p.kind == .lift) = ps
      generalize hq : ({ tm with pend := tm.pend.filter fun p => p.kind != .lift } : Team) = tm'
      have e : tm'.frags = tm.frags ∧ tm'.sigacc = tm.sigacc := by rw [← hq]; exact ⟨rfl, rfl⟩
      rw [← e.1, ← e.2]; clear hq e
      induction ps generalizing tm' with
      | nil => exact ⟨rfl, rfl⟩
      | cons p ps ih =>
        rw [List.foldl_cons]
        obtain ⟨a, b⟩ := ih (tm'.subCount p.cls)
        exact ⟨a.trans (Team.frags_subCount _ _), b.trans (Team.sigacc_subCount _ _)⟩
    · exact ⟨rfl, rfl⟩
  obtain ⟨a, b⟩ := h3 (Team.noteWatch c y tm)
  obtain ⟨a', b'⟩ := h2 tm
  exact ⟨a.trans a', b.trans b'⟩

theorem Team.noteWrites_keeps (c : Ctx) (i : Issue) (tm : Team) :
    (Team.noteWrites c i tm).frags = tm.frags ∧ (Team.noteWrites c i tm).sigacc = tm.sigacc := by
  unfold Team.noteWrites; dsimp only; constructor <;> split <;> rfl

/-- The team of one fragment after it has issued and gone on: the fragment stands at its address, and the record has been fed (R172). -/
theorem goOn_alone {s : State} {c : Ctx} {i : Issue} {pc : Nat} {tm : Team} {f : Frag} (ht : s.team c.k c.t = some tm)
    (hf : tm.frags = [f]) (hc : f.csn = c.csn) (hm : f.mask ≠ 0) (hl : f.linkv = false) (hh : f.hollow = false)
    (h1 : c.tm.frags = [c.f]) (hs : c.f.spilled = false) (hr : i.noRecord = false) :
    ∃ tm', (c.goOn i pc s).team c.k c.t = some tm' ∧ tm'.frags = [{ f with pc, hold := .none, yielded := i.yields }]
      ∧ tm'.sigacc = crcBytes 8 (issueRecord c.word c.f.mask) tm.sigacc := by
  have key : ∃ u : Team, (c.noted i s).team c.k c.t = some (Team.unyield i.yields c.csn (u.feed (issueRecord c.word c.f.mask)))
      ∧ u.frags = tm.frags ∧ u.sigacc = tm.sigacc := by
    have rec_ : ∀ u : Team, Team.noteRecord c i u = u.feed (issueRecord c.word c.f.mask) := by
      intro u; simp [Team.noteRecord, h1, hs, hr]
    unfold Ctx.noted
    rw [State.team_unyield, State.modTeam_team_self]
    split
    · rw [State.team_noteIssue, ht]
      obtain ⟨a, b⟩ := Team.noteIssue_keeps c (s.wdPaused c.k c.b c.t c.tm) tm
      obtain ⟨a', b'⟩ := Team.noteWrites_keeps c i (Team.noteIssue c (s.wdPaused c.k c.b c.t c.tm) tm)
      exact ⟨_, (by simp only [Option.map_some, rec_]), a'.trans a, b'.trans b⟩
    · rw [ht]; exact ⟨_, by simp only [Option.map_some, rec_], Team.noteWrites_keeps c i tm⟩
  obtain ⟨u, h2, h3, h4⟩ := key
  have h5 : (Team.modFrag (Team.unyield i.yields c.csn (u.feed (issueRecord c.word c.f.mask))) c.csn fun f =>
      { f with pc := pc, hold := .none }).frags = [{ f with pc, hold := .none, yielded := i.yields }] := by
    simp only [Team.modFrag, Team.unyield, Team.feed, h3, hf, List.map_cons, List.map_nil, hc, if_true, beq_self_eq_true, Bool.and_true]
  unfold Ctx.goOn State.advance
  rw [State.team_settle, State.modTeam_team_self]
  unfold State.modFrag
  rw [State.modTeam_team_self, h2]
  refine ⟨_, rfl, ?_, ?_⟩
  · simp only
    rw [Team.settle_alone h5 hm hl hh]; exact h5
  · simp only
    rw [Team.settle_alone h5 hm hl hh]
    simp only [Team.modFrag, Team.unyield, Team.feed, h4]
theorem alone_parts {s : State} {c : Ctx} (h : s.issuer = some c) (hb : fragBlocked c.b c.tm c.t c.f = false) (hl : c.alone = true) :
    c.tm.frags = [c.f] ∧ c.f.csn = c.csn ∧ c.f.mask ≠ 0 ∧ c.f.linkv = false ∧ c.f.hollow = false ∧ c.f.spilled = false := by
  obtain ⟨-, -, ht, hfr, -⟩ := issuer_spec h
  simp only [Ctx.alone, Bool.and_eq_true, beq_iff_eq, bne_iff_ne, ne_eq, Bool.not_eq_true'] at hl
  obtain ⟨⟨h1, h2⟩, h3⟩ := hl
  simp only [fragBlocked, Bool.or_eq_false_iff] at hb
  have hcsn := List.find?_some hfr
  exact ⟨h1, by simpa using hcsn, h2, h3, by simp only [hb], by simp only [hb]⟩

/-- An instruction that goes on to an address has moved its fragment there and fed its record. -/
theorem moved_goOn {s s1 : State} {c : Ctx} {i : Issue} {tm : Team} {pc : Nat} (h : s.issuer = some c) (ht : s1.team c.k c.t = some tm)
    (hf : tm.frags = c.tm.frags) (hg : tm.sigacc = c.tm.sigacc) (hr : i.noRecord = false) : Moved c (c.goOn i pc s1) pc := by
  intro ha hb
  obtain ⟨h1, h2, h3, h4, h5, h6⟩ := alone_parts h hb ha
  obtain ⟨tm', e1, e2, e3⟩ := goOn_alone (pc := pc) ht (hf.trans h1) h2 h3 h4 h5 h1 h6 hr
  refine ⟨?_, ?_⟩
  · simp only [State.pcAt, State.fragAt, e1, Option.bind_some, Team.frag, e2, List.find?_cons, h2, beq_self_eq_true, Option.map_some]
  · rw [e1, Option.map_some, e3, hg]; rfl

/-- An instruction whose body has changed only its team leaves the team so. -/
theorem leaves_of {s s1 : State} {c : Ctx} {i : Issue} {tm : Team} {out : Res} (h : s.issuer = some c)
    (hi : out = .next (c.goOn i (c.f.pc + c.len) s1)) (ht : s1.team c.k c.t = some tm) (hf : tm.frags = c.tm.frags)
    (hg : tm.sigacc = c.tm.sigacc) (hr : i.noRecord = false) (hn : tm.noLift) (fr : Frame s s1 c.k c.t) : Leaves s c out tm := by
  have q := quiet_goOn c i (c.f.pc + c.len) s1 (fun tm' e => by rw [ht] at e; cases e; exact hn)
  refine ⟨_, hi, ?_, fr.trans (q.frame _ _), moved_goOn h ht hf hg hr⟩
  rw [q.teams]; unfold State.stillAt; rw [ht]; rfl
/-- A body that changes its team only. -/
theorem leaves_modTeam {s : State} {c : Ctx} {i : Issue} {f : Team → Team} {out : Res} (h : s.issuer = some c)
    (hi : out = .next (c.goOn i (c.f.pc + c.len) (s.modTeam c.k c.t f))) (hf : (f c.tm).frags = c.tm.frags)
    (hg : (f c.tm).sigacc = c.tm.sigacc) (hr : i.noRecord = false) (hn : (f c.tm).noLift) : Leaves s c out (f c.tm) :=
  leaves_of h hi (by rw [State.modTeam_team_self, (issuer_spec h).2.2.1]; rfl) hf hg hr hn (frame_modTeam _ _ _ _)
/-- A body that changes nothing. -/
theorem leaves_same {s : State} {c : Ctx} {i : Issue} {out : Res} (h : s.issuer = some c) (hc : c.calm = true)
    (hi : out = .next (c.goOn i (c.f.pc + c.len) s)) (hr : i.noRecord = false) : Leaves s c out c.tm :=
  leaves_of h hi (issuer_spec h).2.2.1 rfl rfl hr (Or.inr (by rw [(calm_spec hc).2.2.1]; simp)) (Frame.refl _ _ _)
/-- A body that changes the state to s1, without the team's fragments and signature. -/
theorem becomes_of {s s1 : State} {c : Ctx} {i : Issue} {tm : Team} {out : Res} (h : s.issuer = some c)
    (hi : out = .next (c.goOn i (c.f.pc + c.len) s1)) (ht : s1.team c.k c.t = some tm) (hf : tm.frags = c.tm.frags)
    (hg : tm.sigacc = c.tm.sigacc) (hr : i.noRecord = false) (hn : tm.noLift) : Becomes c out s1 :=
  ⟨_, hi, quiet_goOn c i _ s1 (fun tm' e => by rw [ht] at e; cases e; exact hn), moved_goOn h ht hf hg hr⟩

/-- An instruction of a fragment alone that goes on to an address. -/
theorem goes_of {s s1 : State} {c : Ctx} {i : Issue} {tm : Team} {pc : Nat} {out : Res} (h : s.issuer = some c)
    (hc : c.calm = true) (hl : c.alone = true) (hi : out = .next (c.goOn i pc s1)) (ht : s1.team c.k c.t = some tm)
    (hf : tm.frags = c.tm.frags) (hg : tm.sigacc = c.tm.sigacc) (hr : i.noRecord = false) (hn : tm.noLift)
    (fr : Frame s s1 c.k c.t) : Goes s c out tm pc := by
  have q := quiet_goOn c i pc s1 (fun tm' e => by rw [ht] at e; cases e; exact hn)
  have m := moved_goOn (i := i) (pc := pc) h ht hf hg hr
  refine ⟨_, hi, ?_, fr.trans (q.frame _ _), m, (m hl (calm_spec hc).1).1⟩
  rw [q.teams]; unfold State.stillAt; rw [ht]; rfl
theorem goes_same {s : State} {c : Ctx} {i : Issue} {pc : Nat} {out : Res} (h : s.issuer = some c) (hc : c.calm = true)
    (hl : c.alone = true) (hi : out = .next (c.goOn i pc s)) (hr : i.noRecord = false) : Goes s c out c.tm pc :=
  goes_of h hc hl hi (issuer_spec h).2.2.1 rfl rfl hr (noLift_of_pend (calm_spec hc).2.2.1) (Frame.refl _ _ _)
theorem goes_modTeam {s : State} {c : Ctx} {i : Issue} {f : Team → Team} {pc : Nat} {out : Res} (h : s.issuer = some c)
    (hc : c.calm = true) (hl : c.alone = true) (hf : (f c.tm).frags = c.tm.frags) (hg : (f c.tm).sigacc = c.tm.sigacc)
    (hr : i.noRecord = false) (hn : (f c.tm).noLift) (hi : out = .next (c.goOn i pc (s.modTeam c.k c.t f))) : Goes s c out (f c.tm) pc :=
  goes_of h hc hl hi (by rw [State.modTeam_team_self, (issuer_spec h).2.2.1]; rfl) hf hg hr hn (frame_modTeam _ _ _ _)

end Sys2Proof.Machine
end

