-- ==== Sys2Proof/Laws/Memory.lean ====
section
/-!
SUPPORT. Sys2Proof/Laws/Memory.lean: what every operation over memory does to one byte, and that each of them keeps the canonical form of
memory.
-/

namespace Sys2Proof.Machine

/-! ### Rising lists and filtered maps -/

theorem risingFrom_mono (l : List Nat) : ∀ {lo lo' : Nat}, lo ≤ lo' → risingFrom lo' l = true → risingFrom lo l = true := by
  cases l with
  | nil => intro _ _ _ _; rfl
  | cons x l => intro lo lo' h h'; simp [risingFrom] at h' ⊢; exact ⟨by omega, h'.2⟩
theorem risingFrom_filter (p : Nat → Bool) (l : List Nat) : ∀ lo : Nat, risingFrom lo l = true → risingFrom lo (l.filter p) = true := by
  induction l with
  | nil => intro lo _; rfl
  | cons x l ih =>
    intro lo h
    simp [risingFrom] at h
    by_cases hp : p x = true
    · simp [hp, risingFrom, h.1, ih _ h.2]
    · simp only [List.filter_cons, hp]
      exact risingFrom_mono _ (by omega) (ih _ h.2)
theorem risingFrom_insSorted (x : Nat) (l : List Nat) : ∀ lo : Nat, lo ≤ x → risingFrom lo l = true → risingFrom lo (insSorted x l) = true := by
  induction l with
  | nil => intro lo h _; simp [insSorted, risingFrom, h]
  | cons y l ih =>
    intro lo h h'
    simp [risingFrom] at h'
    by_cases h1 : x < y
    · simp [insSorted, h1, risingFrom, h]; exact h'.2
    · by_cases h2 : x = y
      · subst h2; simp [insSorted, risingFrom, h, h'.2]
      · simp [insSorted, h1, h2, risingFrom, h'.1]; exact ih _ (by omega) h'.2
theorem risingFrom_delSorted (x : Nat) (l : List Nat) (lo : Nat) (h : risingFrom lo l = true) : risingFrom lo (delSorted x l) = true :=
  risingFrom_filter _ l lo h
theorem AMap.wfFrom_filter {β : Type} [DecidableEq β] (d : β) (p : Nat × β → Bool) (m : AMap β) : ∀ lo : Nat,
    AMap.wfFrom d lo m = true → AMap.wfFrom d lo (m.filter p) = true := by
  induction m with
  | nil => intro lo _; rfl
  | cons x m ih =>
    obtain ⟨i, v⟩ := x
    intro lo h
    simp [AMap.wfFrom] at h
    by_cases hp : p (i, v) = true
    · simp [hp, AMap.wfFrom, h.1, ih _ h.2]
    · simp only [List.filter_cons, hp]
      exact AMap.wfFrom_mono d _ (by omega) (ih _ h.2)

/-! ### The canonical form -/

theorem Memory.wf_iff (m : Memory) :
    m.wf = true ↔ AMap.wf Memory.blank m.cells = true ∧ risingFrom 0 m.tags = true ∧ risingFrom 0 m.poison = true := by
  simp [Memory.wf, Bool.and_eq_true, and_assoc]
theorem Memory.wf_setByte (m : Memory) (a : Nat) (x : Byte) (h : m.wf = true) : (m.setByte a x).wf = true := by
  rw [Memory.wf_iff] at h ⊢
  exact ⟨AMap.wf_set _ _ _ _ h.1, risingFrom_delSorted _ _ _ h.2.1, h.2.2⟩
theorem Memory.wf_setTag (m : Memory) (g : Nat) (on : Bool) (h : m.wf = true) : (m.setTag g on).wf = true := by
  rw [Memory.wf_iff] at h ⊢
  refine ⟨h.1, ?_, h.2.2⟩
  cases on
  · exact risingFrom_delSorted _ _ _ h.2.1
  · exact risingFrom_insSorted _ _ _ (Nat.zero_le _) h.2.1
theorem Memory.wf_setPoison (m : Memory) (u : Nat) (on : Bool) (h : m.wf = true) : (m.setPoison u on).wf = true := by
  rw [Memory.wf_iff] at h ⊢
  refine ⟨h.1, h.2.1, ?_⟩
  cases on
  · exact risingFrom_delSorted _ _ _ h.2.2
  · exact risingFrom_insSorted _ _ _ (Nat.zero_le _) h.2.2
theorem Memory.wf_foldPoison (on : Bool) (l : List Nat) : ∀ m : Memory, m.wf = true →
    (l.foldl (fun m u => m.setPoison u on) m).wf = true := by
  induction l with
  | nil => intro m h; exact h
  | cons u l ih => intro m h; exact ih _ (Memory.wf_setPoison m u on h)
theorem Memory.wf_setBytes (xs : List Byte) : ∀ (m : Memory) (a : Nat), m.wf = true → (m.setBytes a xs).wf = true := by
  induction xs with
  | nil => intro m a h; exact h
  | cons x xs ih => intro m a h; exact ih _ _ (Memory.wf_setByte m a x h)
theorem Memory.wf_write (m : Memory) (a : Nat) (xs : List Byte) (h : m.wf = true) : (m.write a xs).wf = true :=
  Memory.wf_foldPoison false _ _ (Memory.wf_setBytes xs m a h)
/-- Part of a memory: the cells, tags and marks that tests choose. -/
theorem Memory.wf_filter (m : Memory) (p : Host.Cell → Bool) (q r : Nat → Bool) (h : m.wf = true) :
    ({ cells := m.cells.filter p, tags := m.tags.filter q, poison := m.poison.filter r } : Memory).wf = true := by
  rw [Memory.wf_iff] at h ⊢
  exact ⟨AMap.wfFrom_filter _ p _ 0 h.1, risingFrom_filter q _ 0 h.2.1, risingFrom_filter r _ 0 h.2.2⟩
theorem Memory.wf_clear (m : Memory) (a n : Nat) (h : m.wf = true) : (m.clear a n).wf = true := Memory.wf_filter m _ _ _ h
theorem Memory.wf_putRec (r : Rec) (base : Nat) : ∀ m : Memory, m.wf = true → (m.putRec base r).wf = true := by
  induction r with
  | nil => intro m h; exact h
  | cons x r ih => intro m h; exact ih _ (Memory.wf_write m _ _ h)
theorem State.memWf_reset : State.reset.memWf := rfl

/-! ### The operations of the state -/

@[simp] theorem State.mem_modCore (s : State) (k : Nat) (f : Core → Core) : (s.modCore k f).mem = s.mem := rfl
@[simp] theorem State.mem_modBlock (s : State) (k : Nat) (f : Block → Block) : (s.modBlock k f).mem = s.mem := rfl
@[simp] theorem State.mem_modTeam (s : State) (k t : Nat) (f : Team → Team) : (s.modTeam k t f).mem = s.mem := rfl
@[simp] theorem State.mem_modFrag (s : State) (k t n : Nat) (f : Frag → Frag) : (s.modFrag k t n f).mem = s.mem := rfl
@[simp] theorem State.mem_modCluster (s : State) (k : Nat) (f : Cluster → Cluster) : (s.modCluster k f).mem = s.mem := rfl
@[simp] theorem State.mem_modChannel (s : State) (k : Nat) (f : Channel → Channel) : (s.modChannel k f).mem = s.mem := rfl
@[simp] theorem State.mem_modStackCore (s : State) (k : Nat) (f : StackCore → StackCore) : (s.modStackCore k f).mem = s.mem := rfl
@[simp] theorem State.mem_modSlot (s : State) (k : Nat) (f : QueueSlot → QueueSlot) : (s.modSlot k f).mem = s.mem := rfl
@[simp] theorem State.mem_modIface (s : State) (k : Nat) (f : Iface → Iface) : (s.modIface k f).mem = s.mem := rfl
@[simp] theorem State.mem_modSpace (s : State) (k : Nat) (f : Space → Space) : (s.modSpace k f).mem = s.mem := rfl

/-! ### The home slices keep no bytes of their own (R103): what they do changes their lines and free choices only -/

/-- `s` with other lines, free choices, accesses and order numbers. -/
def State.withL2 (s : State) (cl : AMap Cluster) (ix : Nat) (ch : AMap Channel) (sq : Nat) : State :=
  { s with clusters := cl, freeIx := ix, channels := ch, seqNo := sq }
theorem State.withL2_trans {s t u : State} (h : ∃ cl ix ch sq, t = s.withL2 cl ix ch sq) (h' : ∃ cl ix ch sq, u = t.withL2 cl ix ch sq) :
    ∃ cl ix ch sq, u = s.withL2 cl ix ch sq := by
  obtain ⟨_, _, _, _, rfl⟩ := h
  obtain ⟨cl, ix, ch, sq, rfl⟩ := h'
  exact ⟨cl, ix, ch, sq, rfl⟩
theorem State.withL2_foldl {α : Type} (f : State → α → State) (hf : ∀ s x, ∃ cl ix ch sq, f s x = s.withL2 cl ix ch sq) (l : List α) (s : State) :
    ∃ cl ix ch sq, l.foldl f s = s.withL2 cl ix ch sq := by
  induction l generalizing s with
  | nil => exact ⟨_, _, _, _, rfl⟩
  | cons x l ih => rw [List.foldl_cons]; exact State.withL2_trans (hf s x) (ih _)
theorem State.askWb_eq (s : State) (slice u : Nat) : ∃ cl ix ch sq, s.askWb slice u = s.withL2 cl ix ch sq := by
  unfold State.askWb
  dsimp only
  split <;> exact ⟨_, _, _, _, rfl⟩
theorem State.l2Evict_eq (s : State) (home line : Nat) : ∃ cl ix ch sq, s.l2Evict home line = s.withL2 cl ix ch sq := by
  unfold State.l2Evict
  split
  · exact ⟨_, _, _, _, rfl⟩
  · obtain ⟨_, _, _, _, h⟩ := State.withL2_foldl _ (fun t i => State.askWb_eq t home (8 * line + i)) _ _
    exact ⟨_, _, _, _, h⟩
theorem State.l2Room_eq (s : State) (home : Nat) : ∃ cl ix ch sq, s.l2Room home = s.withL2 cl ix ch sq := by
  unfold State.l2Room
  dsimp only
  split
  · exact ⟨_, _, _, _, rfl⟩
  · split
    · exact State.withL2_trans (t := { s with freeIx := s.freeIx + 1 }) ⟨_, _, _, _, rfl⟩ (State.l2Evict_eq _ _ _)
    · exact ⟨_, _, _, _, rfl⟩
theorem State.l2Mod_eq (s : State) (line : Nat) (f : L2Line → L2Line) : ∃ cl ix ch sq, s.l2Mod line f = s.withL2 cl ix ch sq := by
  unfold State.l2Mod
  dsimp only
  split
  · exact ⟨_, _, _, _, rfl⟩
  · exact State.withL2_trans (State.l2Room_eq _ _) ⟨_, _, _, _, rfl⟩
theorem State.l2Write_eq (s : State) (pa n : Nat) : ∃ cl ix ch sq, s.l2Write pa n = s.withL2 cl ix ch sq := by
  unfold State.l2Write
  split
  · exact ⟨_, _, _, _, rfl⟩
  · exact State.withL2_foldl _ (fun _ _ => State.l2Mod_eq _ _ _) _ _
theorem State.l2Fill_eq (s : State) (pa n : Nat) : ∃ cl ix ch sq, s.l2Fill pa n = s.withL2 cl ix ch sq := by
  unfold State.l2Fill
  split
  · exact ⟨_, _, _, _, rfl⟩
  · refine State.withL2_foldl _ (fun t u => ?_) _ _
    split
    · exact ⟨_, _, _, _, rfl⟩
    · refine State.withL2_trans ?_ (State.l2Mod_eq _ _ _)
      unfold State.unserve
      split <;> exact ⟨_, _, _, _, rfl⟩
@[simp] theorem State.mem_l2Write (s : State) (pa n : Nat) : (s.l2Write pa n).mem = s.mem := by
  obtain ⟨cl, ix, ch, sq, h⟩ := State.l2Write_eq s pa n
  rw [h]; rfl
@[simp] theorem State.mem_l2Fill (s : State) (pa n : Nat) : (s.l2Fill pa n).mem = s.mem := by
  obtain ⟨cl, ix, ch, sq, h⟩ := State.l2Fill_eq s pa n
  rw [h]; rfl
/-- What the stores of teams leave behind for launches is no memory (R133). -/
@[simp] theorem State.mem_forgetCode (s : State) (pa n : Nat) : (s.forgetCode pa n).mem = s.mem := by
  unfold State.forgetCode; split <;> rfl
@[simp] theorem State.mem_noteStore (s : State) (launch pa : Nat) (xs : List Byte) : (s.noteStore launch pa xs).mem = s.mem := by
  unfold State.noteStore; dsimp only; split <;> rfl
@[simp] theorem State.mem_putBytes (s : State) (a : Nat) (xs : List Byte) : (s.putBytes a xs).mem = s.mem.write a xs := rfl

/-- A write where bytes stand: nothing, or the write of memory, or a scratchpad's. -/
theorem State.mem_writeLoc (s : State) (l : Loc) (xs : List Byte) :
    (s.writeLoc l xs).mem = match l with
      | .pa a => if s.drops (.pa a) then s.mem else s.mem.write a xs
      | .sp _ _ => s.mem := by
  cases l <;> simp only [State.writeLoc]
  · split
    · rfl
    · rw [State.mem_putBytes, State.mem_forgetCode, State.mem_l2Write]
  · rfl
theorem State.memWf_writeLoc (s : State) (l : Loc) (xs : List Byte) (h : s.memWf) : (s.writeLoc l xs).memWf := by
  unfold State.memWf at *
  rw [State.mem_writeLoc]
  cases l
  · dsimp only; split
    · exact h
    · exact Memory.wf_write _ _ _ h
  · exact h
theorem State.memWf_writeFor (s : State) (vi : Nat) (l : Loc) (xs : List Byte) (h : s.memWf) : (s.writeFor vi l xs).memWf := by
  unfold State.writeFor
  split
  · exact h
  · exact State.memWf_writeLoc s _ xs h
theorem State.memWf_setTagAt (s : State) (l : Loc) (on : Bool) (h : s.memWf) : (s.setTagAt l on).memWf := by
  cases l
  · exact Memory.wf_setTag _ _ _ h
  · exact h
theorem State.memWf_poisonAt (s : State) (l : Loc) (n : Nat) (h : s.memWf) : (s.poisonAt l n).memWf := by
  cases l
  · exact Memory.wf_foldPoison true _ _ h
  · exact h
theorem State.memWf_setDw (s : State) (a x : Nat) (h : s.memWf) : (s.setDw a x).memWf := State.memWf_writeLoc s _ _ h
theorem State.memWf_storeFor (s : State) (vi launch : Nat) (l : Loc) (xs : List Byte) (h : s.memWf) :
    (s.storeFor vi launch l xs).memWf := by
  unfold State.storeFor
  split
  · split
    · exact h
    · unfold State.memWf
      rw [State.mem_putBytes, State.mem_l2Write, State.mem_noteStore]
      exact Memory.wf_write _ _ _ h
  · exact State.memWf_writeLoc s _ _ h
theorem State.memWf_setAD (s : State) (asid : Nat) (path : List Nat) (d : Bool) (h : s.memWf) : (s.setAD asid path d).memWf := by
  let orDw := fun (s : State) (a m : Nat) =>
    if s.dw a ||| m = s.dw a then s
    else if s.drops (.pa a) then s.modIface (ifaceOf asid) fun i => { i with lost := i.lost + 1 }
    else { s.l2Write a 8 with mem := s.mem.setBytes a (bytesOf 8 (s.dw a ||| m)) }
  have one : ∀ (s : State) (a m : Nat), s.memWf → (orDw s a m).memWf := by
    intro s a m h
    simp only [orDw]
    split
    · exact h
    · split
      · exact h
      · exact Memory.wf_setBytes _ _ _ h
  have all : ∀ (l : List Nat) (s : State), s.memWf → (l.foldl (fun s a => orDw s a 8) s).memWf := by
    intro l
    induction l with
    | nil => intro s h; exact h
    | cons a l ih => intro s h; exact ih _ (one s a 8 h)
  show (match path.getLast? with
    | some a => if d then orDw (path.foldl (fun s a => orDw s a 8) s) a 16 else path.foldl (fun s a => orDw s a 8) s
    | none => path.foldl (fun s a => orDw s a 8) s).memWf
  split
  · split
    · exact one _ _ _ (all path s h)
    · exact all path s h
  · exact all path s h

/-! ### One byte -/

theorem Memory.byte_setByte (m : Memory) (a x : Nat) (v : Byte) : (m.setByte a v).byte x = if x = a then v else m.byte x := by
  unfold Memory.byte Memory.setByte
  by_cases h : x = a
  · subst h; simp
  · rw [if_neg h]; exact AMap.get_set_ne _ _ _ (Ne.symm h)
theorem Memory.byte_setTag (m : Memory) (g x : Nat) (on : Bool) : (m.setTag g on).byte x = m.byte x := rfl
theorem Memory.byte_setPoison (m : Memory) (u x : Nat) (on : Bool) : (m.setPoison u on).byte x = m.byte x := rfl
theorem Memory.byte_foldPoison (on : Bool) (x : Nat) (l : List Nat) : ∀ m : Memory,
    (l.foldl (fun m u => m.setPoison u on) m).byte x = m.byte x := by
  induction l with
  | nil => intro m; rfl
  | cons u l ih => intro m; rw [List.foldl_cons, ih, Memory.byte_setPoison]
/-- A byte after a write of bytes: the written one inside the range, the old one outside it. -/
theorem Memory.byte_setBytes (x : Nat) (xs : List Byte) : ∀ (m : Memory) (a : Nat),
    (m.setBytes a xs).byte x = if a ≤ x then (xs[x - a]?).getD (m.byte x) else m.byte x := by
  induction xs with
  | nil => intro m a; simp [Memory.setBytes]
  | cons v xs ih =>
    intro m a
    rw [Memory.setBytes, ih, Memory.byte_setByte]
    by_cases h : a + 1 ≤ x
    · rw [if_pos h, if_neg (by omega : ¬x = a), if_pos (by omega : a ≤ x), show x - a = (x - (a + 1)) + 1 by omega, List.getElem?_cons_succ]
    · rw [if_neg h]
      by_cases h2 : x = a
      · subst h2; simp
      · rw [if_neg h2, if_neg (by omega)]
theorem Memory.byte_write (m : Memory) (a x : Nat) (xs : List Byte) :
    (m.write a xs).byte x = if a ≤ x then (xs[x - a]?).getD (m.byte x) else m.byte x := by
  unfold Memory.write
  rw [Memory.byte_foldPoison, Memory.byte_setBytes]

/-- The bytes from an address on, and none else, have become those of a list. -/
theorem Memory.write_inside (m : Memory) (a x : Nat) (xs : List Byte) (h : a ≤ x) (h' : x < a + xs.length) :
    some ((m.write a xs).byte x) = xs[x - a]? := by
  rw [Memory.byte_write, if_pos h]
  have : x - a < xs.length := by omega
  simp [List.getElem?_eq_getElem this]
theorem Memory.write_outside (m : Memory) (a x : Nat) (xs : List Byte) (h : ¬(a ≤ x ∧ x < a + xs.length)) :
    (m.write a xs).byte x = m.byte x := by
  rw [Memory.byte_write]
  split
  · next h1 => rw [List.getElem?_eq_none (by omega)]; rfl
  · rfl

end Sys2Proof.Machine
end

