-- ==== Sys2Proof/Laws/Shapes.lean ====
section
/-!
SUPPORT. Sys2Proof/Laws/Shapes.lean: for each shape of an instruction, what its issue by a calm fragment does.
-/

namespace Sys2Proof.Machine

/-- A form that acts once and that any role may issue, its guard holding in the lowest active lane: its body. -/
theorem once_acts {s : State} {c : Ctx} {i : Issue} (h : s.issuer = some c) (hc : c.calm = true) (hr : roleFault c i = false)
    (hv : i.vregs = []) (hg : c.acts i.g = true) : s.issue i = c.finish i s (i.body c (c.lanes i.g) s) := by
  rw [issue_calm h hc hr (by simp [hv]), hg, Bool.or_true, if_pos rfl]
/-- Its guard false there: no effect (R140). -/
theorem once_idle {s : State} {c : Ctx} {i : Issue} (h : s.issuer = some c) (hc : c.calm = true) (hr : roleFault c i = false)
    (hp : i.perLane = false) (hv : i.vregs = []) (hg : c.acts i.g = false) :
    s.issue i = c.finish { i with yields := false } s (.done s) := by
  rw [issue_calm h hc hr (by simp [hv]), hp, hg]; rfl
/-- A form that acts per lane: its body, over the lanes in which its guard holds. -/
theorem lanes_issue {s : State} {c : Ctx} {i : Issue} (h : s.issuer = some c) (hc : c.calm = true) (hr : roleFault c i = false)
    (hp : i.perLane = true) (hv : ∀ x ∈ i.vregs, x.2 < 8 * c.tm.G) :
    s.issue i = c.finish i s (i.body c (c.lanes i.g) s) := by
  rw [issue_calm h hc hr hv, hp, Bool.true_or, if_pos rfl]

/-- The scalar forms. -/
theorem scalar_issue {s : State} {c : Ctx} (h : s.issuer = some c) (hc : c.calm = true) (g : Guard) (d : SReg)
    (reads : List RegRef) (val : Ctx → State → Word) :
    Leaves s c (s.issue (scalarIssue g d reads val)) (if c.acts g then c.tm.setS d.toNat (val c s) else c.tm) := by
  have hr : roleFault c (scalarIssue g d reads val) = false := roleFault_any rfl rfl rfl rfl rfl
  by_cases hg : c.acts g = true
  · rw [if_pos hg]
    exact leaves_modTeam h (once_acts (i := scalarIssue g d reads val) h hc hr rfl hg) rfl rfl rfl
      (noLift_of_pend (by simp [calm_spec hc]))
  · rw [if_neg hg]
    exact leaves_same h hc (once_idle (i := scalarIssue g d reads val) h hc hr rfl rfl (Bool.not_eq_true _ ▸ hg)) rfl

/-- The control forms that act once. -/
theorem ctrl_issue {s : State} {c : Ctx} (h : s.issuer = some c) (hc : c.calm = true) (g : Guard) (reads writes : List RegRef)
    (body : Ctx → State → Act) :
    s.issue (ctrlIssue g reads writes body)
      = if c.acts g then c.finish (ctrlIssue g reads writes body) s (body c s)
        else c.finish { ctrlIssue g reads writes body with yields := false } s (.done s) := by
  have hr : roleFault c (ctrlIssue g reads writes body) = false := roleFault_any rfl rfl rfl rfl rfl
  by_cases hg : c.acts g = true
  · rw [if_pos hg, once_acts (i := ctrlIssue g reads writes body) h hc hr rfl hg]; rfl
  · rw [if_neg hg, once_idle (i := ctrlIssue g reads writes body) h hc hr rfl rfl (Bool.not_eq_true _ ▸ hg)]

end Sys2Proof.Machine
end

