-- ==== Sys2Proof/Tests/Slice0.lean ====
section
/-!
SUPPORT. Sys2Proof/Tests/Slice0.lean: words of every word constructor written from the encodings of sections 05 to 17, which decode to the
instruction that they stand for; a term that each limit of WellFormed.lean refuses; one step each on the spec's examples; and for every
statement of Certificates/Slice0/Obligations.lean that has hypotheses, states and operands that meet them.
-/

open Sys2Proof Sys2Proof.Machine
namespace Sys2Proof.Tests
set_option Elab.async false

/-! ### Small states -/

/-- A lone team of 32 lanes with all its registers. -/
def tm0 : Team := newTeam 0x10000 0 0 32 16 false 0 [] []
/-- A block of that one team, or of a team like it. -/
def blkOf (tm : Team) : Block := 
  { seedBlock 0x10000 false with teams := [(0, tm)], parts := [(0, { Part.init with csnNext := 1 })] }
/-- Core 0 holds the block b, and its team 0 issues the word w. -/
def stB (b : Block) (w : Word) : State :=
  { State.reset with cores := [(0, { Core.init with block := some b })], acting := .frag 0 0 0 w }
/-- The fragment of a team that starts alone. -/
def fr0 : Frag := (newTeam 0x10000 0 0 32 16 false 0 [] []).frags.headD
  { csn := 0, pc := 0, mask := 0, rpc := 0, rpcv := false, rpcNext := 0, nextv := false, link := 0, linkv := false, hollow := false
    safe := false, spilled := false, entry := 0, spillSeq := 0, hold := .none, trapHeld := false, acq := none, storeAt := 0, spin := false
    yielded := false }
/-- The issuing fragment of `stB b w`, when its team is tm and its fragment f. -/
def ctxB (b : Block) (tm : Team) (f : Frag) (w : Word) : Ctx := { k := 0, t := 0, csn := 0, word := w, len := wordLen w, b, tm, f }
/-- Core 0 with one block of one team. -/
def st (tm : Team) : State := stB (blkOf tm) 0
/-- Its issuing fragment. -/
def ctx (tm : Team) : Ctx := ctxB (blkOf tm) tm (tm.frags.headD fr0) 0
/-- `p7`, true: unguarded. -/
def un : Guard := ⟨false, 7⟩
/-- Team 0 of core 0 after a step. -/
def after (r : Res) : Option Team :=
  match r with
  | .next s => s.team 0 0
  | _ => none

/-! ### Words from the tables of the spec -/

theorem test_decode_scalar_1 :
    decodeTeam 0x04007838_1BE00000 0 = .sAdd ⟨⟨false, 7⟩, 3, .s 1, .s 62⟩
    ∧ decodeTeam 0x0410A848_1E800000 0 = .sSub ⟨⟨true, 2⟩, 4, .s 1, .spec .zero⟩
    ∧ decodeTeam 0x04207858_1E900000 0 = .sMul ⟨⟨false, 7⟩, 5, .s 1, .spec .lid⟩
    ∧ decodeTeam 0x0440A868_1EA00000 0 = .sAnd ⟨⟨true, 2⟩, 6, .s 1, .spec .tid⟩
    ∧ decodeTeam 0x04507878_1EB00000 0 = .sOr ⟨⟨false, 7⟩, 7, .s 1, .spec .bid⟩
    ∧ decodeTeam 0x0460A888_1EC00000 0 = .sXor ⟨⟨true, 2⟩, 8, .s 1, .spec .lcnt⟩
    ∧ decodeTeam 0x04707898_1ED00000 0 = .sAndn ⟨⟨false, 7⟩, 9, .s 1, .spec .clock⟩
    ∧ decodeTeam 0x0480A8A8_1BE00000 0 = .sShl ⟨⟨true, 2⟩, 10, .s 1, .s 62⟩
    ∧ decodeTeam 0x049078B8_1E800000 0 = .sShr ⟨⟨false, 7⟩, 11, .s 1, .spec .zero⟩
    ∧ decodeTeam 0x04A0A8C8_1E900000 0 = .sSra ⟨⟨true, 2⟩, 12, .s 1, .spec .lid⟩
    ∧ decodeTeam 0x04307899_4BF00180 0 = .sMulh ⟨⟨false, 7⟩, 9, .s 20, .s 63, true⟩
    ∧ decodeTeam 0x04307899_5BF00380 0 = .sMulh ⟨⟨false, 7⟩, 9, .s 21, .s 63, false⟩
    ∧ decodeTeam 0x04B07899_6BF00180 0 = .sMin ⟨⟨false, 7⟩, 9, .s 22, .s 63, true⟩
    ∧ decodeTeam 0x04B07899_7BF00380 0 = .sMin ⟨⟨false, 7⟩, 9, .s 23, .s 63, false⟩ := by
  refine ⟨?_, ?_, ?_, ?_, ?_, ?_, ?_, ?_, ?_, ?_, ?_, ?_, ?_, ?_⟩ <;> rfl

theorem test_decode_scalar_2 :
    decodeTeam 0x04C07899_8BF00180 0 = .sMax ⟨⟨false, 7⟩, 9, .s 24, .s 63, true⟩
    ∧ decodeTeam 0x04C07899_9BF00380 0 = .sMax ⟨⟨false, 7⟩, 9, .s 25, .s 63, false⟩
    ∧ decodeTeam 0x04D0789B_F0000000 0 = .sClz ⟨⟨false, 7⟩, 9, .s 63⟩
    ∧ decodeTeam 0x04E0789B_F0000000 0 = .sPopc ⟨⟨false, 7⟩, 9, .s 63⟩
    ∧ decodeTeam 0x0510789B_F0000000 0 = .sMov ⟨⟨false, 7⟩, 9, .s 63⟩
    ∧ decodeTeam 0x04F07858_18200182 0 = .sCmp ⟨⟨false, 7⟩, 5, .s 1, .s 2, true, .lt⟩
    ∧ decodeTeam 0x04F07858_18200385 0 = .sCmp ⟨⟨false, 7⟩, 5, .s 1, .s 2, false, .ge⟩
    ∧ decodeTeam 0x05007858_18283000 0 = .sSel ⟨⟨false, 7⟩, 5, .s 1, .s 2, .s 3⟩ := by
  refine ⟨?_, ?_, ?_, ?_, ?_, ?_, ?_, ?_⟩ <;> rfl

theorem test_decode_scalar_immediate :
    decodeTeam 0x0800783A_80000005 0 = .sAddImm ⟨⟨false, 7⟩, 3, .s 40, 5⟩
    ∧ decodeTeam 0x0810784A_8FFFFFFB 0 = .sSubImm ⟨⟨false, 7⟩, 4, .s 40, 268435451⟩
    ∧ decodeTeam 0x0820785A_87FFFFFF 0 = .sMulImm ⟨⟨false, 7⟩, 5, .s 40, 134217727⟩
    ∧ decodeTeam 0x0840786A_88000000 0 = .sAndImm ⟨⟨false, 7⟩, 6, .s 40, 134217728⟩
    ∧ decodeTeam 0x0850787A_80000005 0 = .sOrImm ⟨⟨false, 7⟩, 7, .s 40, 5⟩
    ∧ decodeTeam 0x0860788A_8FFFFFFB 0 = .sXorImm ⟨⟨false, 7⟩, 8, .s 40, 268435451⟩
    ∧ decodeTeam 0x0870789A_87FFFFFF 0 = .sAndnImm ⟨⟨false, 7⟩, 9, .s 40, 134217727⟩
    ∧ decodeTeam 0x088078AA_88000000 0 = .sShlImm ⟨⟨false, 7⟩, 10, .s 40, 134217728⟩
    ∧ decodeTeam 0x089078BA_80000005 0 = .sShrImm ⟨⟨false, 7⟩, 11, .s 40, 5⟩
    ∧ decodeTeam 0x08A078CA_8FFFFFFB 0 = .sSraImm ⟨⟨false, 7⟩, 12, .s 40, 268435451⟩
    ∧ decodeTeam 0x09207890_0FFFFFFB 0 = .sLi ⟨⟨false, 7⟩, 9, 268435451⟩ := by
  refine ⟨?_, ?_, ?_, ?_, ?_, ?_, ?_, ?_, ?_, ?_, ?_⟩ <;> rfl

theorem test_decode_long_immediate_1 :
    decodeTeam 0xFC00789E_80100000 0x00000001_23456789 = .longImmediatePrefix ⟨⟨false, 7⟩, .scalar .add 9 (.spec .zero), 4886718345⟩
    ∧ decodeTeam 0xFC107898_40100000 0x3F000000_3F000000 = .longImmediatePrefix ⟨⟨false, 7⟩, .scalar .sub 9 (.s 4), 4539628425446424576⟩
    ∧ decodeTeam 0xFC207898_40100000 0x3F000000_3F000000 = .longImmediatePrefix ⟨⟨false, 7⟩, .scalar .mul 9 (.s 4), 4539628425446424576⟩
    ∧ decodeTeam 0xFC307898_40100180 0x3F000000_3F000000 = .longImmediatePrefix ⟨⟨false, 7⟩, .scalar (.mulh true) 9 (.s 4), 4539628425446424576⟩
    ∧ decodeTeam 0xFC307898_40100380 0x3F000000_3F000000 = .longImmediatePrefix ⟨⟨false, 7⟩, .scalar (.mulh false) 9 (.s 4), 4539628425446424576⟩
    ∧ decodeTeam 0xFC407898_40100000 0x3F000000_3F000000 = .longImmediatePrefix ⟨⟨false, 7⟩, .scalar .and 9 (.s 4), 4539628425446424576⟩
    ∧ decodeTeam 0xFC507898_40100000 0x3F000000_3F000000 = .longImmediatePrefix ⟨⟨false, 7⟩, .scalar .or 9 (.s 4), 4539628425446424576⟩
    ∧ decodeTeam 0xFC607898_40100000 0x3F000000_3F000000 = .longImmediatePrefix ⟨⟨false, 7⟩, .scalar .xor 9 (.s 4), 4539628425446424576⟩
    ∧ decodeTeam 0xFC707898_40100000 0x3F000000_3F000000 = .longImmediatePrefix ⟨⟨false, 7⟩, .scalar .andn 9 (.s 4), 4539628425446424576⟩
    ∧ decodeTeam 0xFC807898_40100000 0x3F000000_3F000000 = .longImmediatePrefix ⟨⟨false, 7⟩, .scalar .shl 9 (.s 4), 4539628425446424576⟩
    ∧ decodeTeam 0xFC907898_40100000 0x3F000000_3F000000 = .longImmediatePrefix ⟨⟨false, 7⟩, .scalar .shr 9 (.s 4), 4539628425446424576⟩
    ∧ decodeTeam 0xFCA07898_40100000 0x3F000000_3F000000 = .longImmediatePrefix ⟨⟨false, 7⟩, .scalar .sra 9 (.s 4), 4539628425446424576⟩
    ∧ decodeTeam 0xFCB07898_40100180 0x3F000000_3F000000 = .longImmediatePrefix ⟨⟨false, 7⟩, .scalar (.min true) 9 (.s 4), 4539628425446424576⟩
    ∧ decodeTeam 0xFCC07898_40100380 0x3F000000_3F000000 = .longImmediatePrefix ⟨⟨false, 7⟩, .scalar (.max false) 9 (.s 4), 4539628425446424576⟩ := by
  refine ⟨?_, ?_, ?_, ?_, ?_, ?_, ?_, ?_, ?_, ?_, ?_, ?_, ?_, ?_⟩ <;> rfl

theorem test_decode_long_immediate_2 :
    decodeTeam 0xFCF07898_40100385 0x3F000000_3F000000 = .longImmediatePrefix ⟨⟨false, 7⟩, .scalar (.cmp false .ge) 9 (.s 4), 4539628425446424576⟩
    ∧ decodeTeam 0xFD007898_40187000 0x3F000000_3F000000 = .longImmediatePrefix ⟨⟨false, 7⟩, .scalar (.sel (.s 7)) 9 (.s 4), 4539628425446424576⟩
    ∧ decodeTeam 0xFC007070_00800080 0x3F000000_3F000000 = .longImmediatePrefix ⟨⟨false, 7⟩, .vint .add 7 (.v 0) .i16, 4539628425446424576⟩
    ∧ decodeTeam 0xFC107070_10800100 0x3F000000_3F000000 = .longImmediatePrefix ⟨⟨false, 7⟩, .vint .sub 7 (.v 1) .i32, 4539628425446424576⟩
    ∧ decodeTeam 0xFC207070_20800280 0x3F000000_3F000000 = .longImmediatePrefix ⟨⟨false, 7⟩, .vint .mul 7 (.v 2) .n16, 4539628425446424576⟩
    ∧ decodeTeam 0xFC307070_30800300 0x3F000000_3F000000 = .longImmediatePrefix ⟨⟨false, 7⟩, .vint .mulh 7 (.v 3) .n32, 4539628425446424576⟩
    ∧ decodeTeam 0xFC507070_40800080 0x3F000000_3F000000 = .longImmediatePrefix ⟨⟨false, 7⟩, .vint .adds 7 (.v 4) .i16, 4539628425446424576⟩
    ∧ decodeTeam 0xFC607070_50800100 0x3F000000_3F000000 = .longImmediatePrefix ⟨⟨false, 7⟩, .vint .subs 7 (.v 5) .i32, 4539628425446424576⟩
    ∧ decodeTeam 0xFC707070_60800280 0x3F000000_3F000000 = .longImmediatePrefix ⟨⟨false, 7⟩, .vint .and 7 (.v 6) .n16, 4539628425446424576⟩
    ∧ decodeTeam 0xFC807070_70800300 0x3F000000_3F000000 = .longImmediatePrefix ⟨⟨false, 7⟩, .vint .or 7 (.v 7) .n32, 4539628425446424576⟩
    ∧ decodeTeam 0xFC907070_80800080 0x3F000000_3F000000 = .longImmediatePrefix ⟨⟨false, 7⟩, .vint .xor 7 (.v 8) .i16, 4539628425446424576⟩
    ∧ decodeTeam 0xFCA07070_90800100 0x3F000000_3F000000 = .longImmediatePrefix ⟨⟨false, 7⟩, .vint .andn 7 (.v 9) .i32, 4539628425446424576⟩
    ∧ decodeTeam 0xFCB07070_A0800280 0x3F000000_3F000000 = .longImmediatePrefix ⟨⟨false, 7⟩, .vint .shl 7 (.v 10) .n16, 4539628425446424576⟩
    ∧ decodeTeam 0xFCC07070_B0800300 0x3F000000_3F000000 = .longImmediatePrefix ⟨⟨false, 7⟩, .vint .shr 7 (.v 11) .n32, 4539628425446424576⟩ := by
  refine ⟨?_, ?_, ?_, ?_, ?_, ?_, ?_, ?_, ?_, ?_, ?_, ?_, ?_, ?_⟩ <;> rfl

theorem test_decode_long_immediate_3 :
    decodeTeam 0xFCD07070_C0800080 0x3F000000_3F000000 = .longImmediatePrefix ⟨⟨false, 7⟩, .vint .sra 7 (.v 12) .i16, 4539628425446424576⟩
    ∧ decodeTeam 0xFCE07070_D0800100 0x3F000000_3F000000 = .longImmediatePrefix ⟨⟨false, 7⟩, .vint .min 7 (.v 13) .i32, 4539628425446424576⟩
    ∧ decodeTeam 0xFCF07070_E0800280 0x3F000000_3F000000 = .longImmediatePrefix ⟨⟨false, 7⟩, .vint .max 7 (.v 14) .n16, 4539628425446424576⟩
    ∧ decodeTeam 0xFD607070_F0800300 0x3F000000_3F000000 = .longImmediatePrefix ⟨⟨false, 7⟩, .vint .pack 7 (.v 15) .n32, 4539628425446424576⟩
    ∧ decodeTeam 0xFD707071_00800080 0x3F000000_3F000000 = .longImmediatePrefix ⟨⟨false, 7⟩, .vint .unpk 7 (.v 16) .i16, 4539628425446424576⟩
    ∧ decodeTeam 0xFD807071_10800100 0x3F000000_3F000000 = .longImmediatePrefix ⟨⟨false, 7⟩, .vint .ext 7 (.v 17) .i32, 4539628425446424576⟩
    ∧ decodeTeam 0xFC407070_10805100 0x3F000000_3F000000 = .longImmediatePrefix ⟨⟨false, 7⟩, .vint (.mad (.v 5)) 7 (.v 1) .i32, 4539628425446424576⟩
    ∧ decodeTeam 0xFD407070_108E4100 0x3F000000_3F000000 = .longImmediatePrefix ⟨⟨false, 7⟩, .vint (.sel (.p 4)) 7 (.v 1) .i32, 4539628425446424576⟩
    ∧ decodeTeam 0xFD907070_10884100 0x3F000000_3F000000 = .longImmediatePrefix ⟨⟨false, 7⟩, .vint (.ins (.s 4)) 7 (.v 1) .i32, 4539628425446424576⟩
    ∧ decodeTeam 0xFD307E30_10800104 0x3F000000_3F000000 = .longImmediatePrefix ⟨⟨false, 7⟩, .vcmp (.p 3) (.v 1) .i32 .gt, 4539628425446424576⟩
    ∧ decodeTeam 0xFC007020_30A00420 0x3F000000_3F000000 = .longImmediatePrefix ⟨⟨false, 7⟩, .vfloat (.fadd .rdn) 2 3 .f32, 4539628425446424576⟩
    ∧ decodeTeam 0xFC107020_30A00420 0x3F000000_3F000000 = .longImmediatePrefix ⟨⟨false, 7⟩, .vfloat (.fsub .rdn) 2 3 .f32, 4539628425446424576⟩
    ∧ decodeTeam 0xFC207020_30A00420 0x3F000000_3F000000 = .longImmediatePrefix ⟨⟨false, 7⟩, .vfloat (.fmul .rdn) 2 3 .f32, 4539628425446424576⟩
    ∧ decodeTeam 0xFC307020_30A044B0 0x3F000000_3F000000 = .longImmediatePrefix ⟨⟨false, 7⟩, .vfloat (.fma (.v 4) .rup) 2 3 .f16, 4539628425446424576⟩ := by
  refine ⟨?_, ?_, ?_, ?_, ?_, ?_, ?_, ?_, ?_, ?_, ?_, ?_, ?_, ?_⟩ <;> rfl

theorem test_decode_long_immediate_4 :
    decodeTeam 0xFC407020_30A00500 0x3F000000_3F000000 = .longImmediatePrefix ⟨⟨false, 7⟩, .vfloat .fmin 2 3 .bf16, 4539628425446424576⟩
    ∧ decodeTeam 0xFC507020_30A00500 0x3F000000_3F000000 = .longImmediatePrefix ⟨⟨false, 7⟩, .vfloat .fmax 2 3 .bf16, 4539628425446424576⟩
    ∧ decodeTeam 0xFC607E10_30A00407 0x3F000000_3F000000 = .longImmediatePrefix ⟨⟨false, 7⟩, .vfcmp (.p 1) 3 .f32 .ord, 4539628425446424576⟩
    ∧ decodeTeam 0xFC507000_00600000 0x00000000_1234ABCD = .sigChk ⟨⟨false, 7⟩, 305441741⟩ := by
  refine ⟨?_, ?_, ?_, ?_⟩ <;> rfl

theorem test_decode_scalar_memory :
    decodeTeam 0x0C00789C_1E8F8000 0 = .sLd ⟨⟨false, 7⟩, 0, 9, 1, .zero, 248, 0, .plain, .n8⟩
    ∧ decodeTeam 0x0C12789C_187F8550 0 = .sLd ⟨⟨false, 7⟩, 2, 9, 1, .s 7, 248, 1, .acq .dev, .n16⟩
    ∧ decodeTeam 0x0C24789C_1E8F8800 0 = .sLd ⟨⟨false, 7⟩, 4, 9, 1, .zero, 248, 2, .plain, .n32⟩
    ∧ decodeTeam 0x0C36789C_187F8D50 0 = .sLd ⟨⟨false, 7⟩, 6, 9, 1, .s 7, 248, 3, .acq .dev, .n64⟩
    ∧ decodeTeam 0x0C48789C_1E8F8000 0 = .sLd ⟨⟨false, 7⟩, 8, 9, 1, .zero, 248, 0, .plain, .i8⟩
    ∧ decodeTeam 0x0C5A789C_187F8550 0 = .sLd ⟨⟨false, 7⟩, 10, 9, 1, .s 7, 248, 1, .acq .dev, .i16⟩
    ∧ decodeTeam 0x0C6C789C_1E8F8800 0 = .sLd ⟨⟨false, 7⟩, 12, 9, 1, .zero, 248, 2, .plain, .i32⟩
    ∧ decodeTeam 0x0C80789D_F8708000 0 = .sSt ⟨⟨false, 7⟩, 0, 9, 31, .s 7, 8, 0, .plain, .b8⟩
    ∧ decodeTeam 0x0C90789D_F8708630 0 = .sSt ⟨⟨false, 7⟩, 0, 9, 31, .s 7, 8, 1, .rel .clu, .b16⟩
    ∧ decodeTeam 0x0CA0789D_F8708800 0 = .sSt ⟨⟨false, 7⟩, 0, 9, 31, .s 7, 8, 2, .plain, .b32⟩
    ∧ decodeTeam 0x0CB0789D_F8708E30 0 = .sSt ⟨⟨false, 7⟩, 0, 9, 31, .s 7, 8, 3, .rel .clu, .b64⟩ := by
  refine ⟨?_, ?_, ?_, ?_, ?_, ?_, ?_, ?_, ?_, ?_, ?_⟩ <;> rfl

theorem test_decode_control :
    decodeTeam 0x1000A000_0003FFFE 0 = .br ⟨⟨true, 2⟩, 262142⟩
    ∧ decodeTeam 0x10107850_00000003 0 = .brc ⟨⟨false, 7⟩, 5, 3⟩
    ∧ decodeTeam 0x10207E20_00240006 0 = .brv ⟨⟨false, 7⟩, 2, 9, 6⟩
    ∧ decodeTeam 0x10307E20_00000003 0 = .breakv ⟨⟨false, 7⟩, 2, 3⟩
    ∧ decodeTeam 0x10407BE0_0000001E 0 = .call ⟨⟨false, 7⟩, 62, 30⟩
    ∧ decodeTeam 0x1050700B_E0000000 0 = .ret ⟨⟨false, 7⟩, 62⟩
    ∧ decodeTeam 0x1060700B_D0000000 0 = .jmp ⟨⟨false, 7⟩, 61⟩
    ∧ decodeTeam 0x10707860_0003FFFD 0 = .loop ⟨⟨false, 7⟩, 6, 262141⟩
    ∧ decodeTeam 0x10803000_00000000 0 = .exit ⟨⟨false, 3⟩⟩
    ∧ decodeTeam 0x10903000_00000000 0 = .yield ⟨⟨false, 3⟩⟩
    ∧ decodeTeam 0x10A03000_00000000 0 = .safept ⟨⟨false, 3⟩⟩
    ∧ decodeTeam 0x10C03000_00000000 0 = .nop ⟨⟨false, 3⟩⟩
    ∧ decodeTeam 0x10B07000_00F7E03F 0 = .waitcnt ⟨⟨false, 7⟩, 63, 0, 62, 61⟩ := by
  refine ⟨?_, ?_, ?_, ?_, ?_, ?_, ?_, ?_, ?_, ?_, ?_, ?_, ?_⟩ <;> rfl

theorem test_decode_predicate :
    decodeTeam 0x14007E1E_2E300000 0 = .pAnd ⟨⟨false, 7⟩, 1, 2, 3⟩
    ∧ decodeTeam 0x14107E1E_2E300000 0 = .pOr ⟨⟨false, 7⟩, 1, 2, 3⟩
    ∧ decodeTeam 0x14207E1E_2E300000 0 = .pXor ⟨⟨false, 7⟩, 1, 2, 3⟩
    ∧ decodeTeam 0x14307E1E_2E300000 0 = .pAndn ⟨⟨false, 7⟩, 1, 2, 3⟩
    ∧ decodeTeam 0x14407E1E_70000000 0 = .pNot ⟨⟨false, 7⟩, 1, 7⟩
    ∧ decodeTeam 0x14507E1E_70000000 0 = .pMov ⟨⟨false, 7⟩, 1, 7⟩
    ∧ decodeTeam 0x1460788E_30000000 0 = .pAny ⟨⟨false, 7⟩, 8, 3⟩
    ∧ decodeTeam 0x1470788E_30000000 0 = .pAll ⟨⟨false, 7⟩, 8, 3⟩
    ∧ decodeTeam 0x1480788E_30000000 0 = .pCnt ⟨⟨false, 7⟩, 8, 3⟩
    ∧ decodeTeam 0x1490788E_30000000 0 = .pFirst ⟨⟨false, 7⟩, 8, 3⟩
    ∧ decodeTeam 0x14A07E16_40000000 0 = .pFromv ⟨⟨false, 7⟩, 1, 100⟩
    ∧ decodeTeam 0x14B0764E_10000000 0 = .pTov ⟨⟨false, 7⟩, 100, 1⟩
    ∧ decodeTeam 0x14C07848_50000000 0 = .pAct ⟨⟨false, 7⟩, 4, 5⟩ := by
  refine ⟨?_, ?_, ?_, ?_, ?_, ?_, ?_, ?_, ?_, ?_, ?_, ?_, ?_⟩ <;> rfl

theorem test_decode_system_and_resource_1 :
    decodeTeam 0x18007000_0000BEEF 0 = .trap ⟨⟨false, 7⟩, 48879⟩
    ∧ decodeTeam 0x18107000_00000000 0 = .eret ⟨⟨false, 7⟩⟩
    ∧ decodeTeam 0x18207870_00000000 0 = .csrr ⟨⟨false, 7⟩, 7, .teamstat⟩
    ∧ decodeTeam 0x18207870_00000001 0 = .csrr ⟨⟨false, 7⟩, 7, .allot⟩
    ∧ decodeTeam 0x18207870_00000002 0 = .csrr ⟨⟨false, 7⟩, 7, .prio⟩
    ∧ decodeTeam 0x18207870_00000003 0 = .csrr ⟨⟨false, 7⟩, 7, .fpflags⟩
    ∧ decodeTeam 0x18207870_00000004 0 = .csrr ⟨⟨false, 7⟩, 7, .stbcnt⟩
    ∧ decodeTeam 0x18207870_00000005 0 = .csrr ⟨⟨false, 7⟩, 7, .sigacc⟩
    ∧ decodeTeam 0x18207870_00000010 0 = .csrr ⟨⟨false, 7⟩, 7, .trapvec⟩
    ∧ decodeTeam 0x18207870_00000011 0 = .csrr ⟨⟨false, 7⟩, 7, .trapcause⟩
    ∧ decodeTeam 0x18207870_00000012 0 = .csrr ⟨⟨false, 7⟩, 7, .trappc⟩
    ∧ decodeTeam 0x18207870_00000013 0 = .csrr ⟨⟨false, 7⟩, 7, .trapword⟩
    ∧ decodeTeam 0x18207870_00000014 0 = .csrr ⟨⟨false, 7⟩, 7, .faultstat⟩
    ∧ decodeTeam 0x18207870_00000020 0 = .csrr ⟨⟨false, 7⟩, 7, .bbase⟩ := by
  refine ⟨?_, ?_, ?_, ?_, ?_, ?_, ?_, ?_, ?_, ?_, ?_, ?_, ?_, ?_⟩ <;> rfl

theorem test_decode_system_and_resource_2 :
    decodeTeam 0x18207870_00000021 0 = .csrr ⟨⟨false, 7⟩, 7, .rowprog⟩
    ∧ decodeTeam 0x18307008_70000002 0 = .csrw ⟨⟨false, 7⟩, 7, .prio⟩
    ∧ decodeTeam 0x18307008_70000003 0 = .csrw ⟨⟨false, 7⟩, 7, .fpflags⟩
    ∧ decodeTeam 0x18307008_70000010 0 = .csrw ⟨⟨false, 7⟩, 7, .trapvec⟩
    ∧ decodeTeam 0x18407000_00001234 0 = .brk ⟨⟨false, 7⟩, 4660⟩
    ∧ decodeTeam 0x18607000_00000000 0 = .sigRst ⟨⟨false, 7⟩⟩
    ∧ decodeTeam 0x1C007000_00000002 0 = .grow ⟨⟨false, 7⟩, 2⟩
    ∧ decodeTeam 0x1C107000_0000000F 0 = .shrink ⟨⟨false, 7⟩, 15⟩
    ∧ decodeTeam 0x1C207818_28300000 0 = .rolesw ⟨⟨false, 7⟩, 1, 2, 3⟩
    ∧ decodeTeam 0x1C307880_00000004 0 = .allot ⟨⟨false, 7⟩, 8, 4⟩ := by
  refine ⟨?_, ?_, ?_, ?_, ?_, ?_, ?_, ?_, ?_, ?_⟩ <;> rfl

theorem test_decode_vector_integer_1 :
    decodeTeam 0x20007037_F0200000 0 = .vAdd ⟨⟨false, 7⟩, 3, .v 127, .v 2, .i8⟩
    ∧ decodeTeam 0x2010703E_8BF00080 0 = .vSub ⟨⟨false, 7⟩, 3, .zero, .s 63, .i16⟩
    ∧ decodeTeam 0x20207037_FE900100 0 = .vMul ⟨⟨false, 7⟩, 3, .v 127, .spec .lid, .i32⟩
    ∧ decodeTeam 0x2030703E_80200180 0 = .vMulh ⟨⟨false, 7⟩, 3, .zero, .v 2, .i64⟩
    ∧ decodeTeam 0x20507037_FBF00200 0 = .vAdds ⟨⟨false, 7⟩, 3, .v 127, .s 63, .n8⟩
    ∧ decodeTeam 0x2060703E_8E900280 0 = .vSubs ⟨⟨false, 7⟩, 3, .zero, .spec .lid, .n16⟩
    ∧ decodeTeam 0x20707037_F0200300 0 = .vAnd ⟨⟨false, 7⟩, 3, .v 127, .v 2, .n32⟩
    ∧ decodeTeam 0x2080703E_8BF00380 0 = .vOr ⟨⟨false, 7⟩, 3, .zero, .s 63, .n64⟩
    ∧ decodeTeam 0x20907037_FE900000 0 = .vXor ⟨⟨false, 7⟩, 3, .v 127, .spec .lid, .i8⟩
    ∧ decodeTeam 0x20A0703E_80200080 0 = .vAndn ⟨⟨false, 7⟩, 3, .zero, .v 2, .i16⟩
    ∧ decodeTeam 0x20B07037_FBF00100 0 = .vShl ⟨⟨false, 7⟩, 3, .v 127, .s 63, .i32⟩
    ∧ decodeTeam 0x20C0703E_8E900180 0 = .vShr ⟨⟨false, 7⟩, 3, .zero, .spec .lid, .i64⟩
    ∧ decodeTeam 0x20D07037_F0200200 0 = .vSra ⟨⟨false, 7⟩, 3, .v 127, .v 2, .n8⟩
    ∧ decodeTeam 0x20E0703E_8BF00280 0 = .vMin ⟨⟨false, 7⟩, 3, .zero, .s 63, .n16⟩ := by
  refine ⟨?_, ?_, ?_, ?_, ?_, ?_, ?_, ?_, ?_, ?_, ?_, ?_, ?_, ?_⟩ <;> rfl

theorem test_decode_vector_integer_2 :
    decodeTeam 0x20F07037_FE900300 0 = .vMax ⟨⟨false, 7⟩, 3, .v 127, .spec .lid, .n32⟩
    ∧ decodeTeam 0x2180703E_80200380 0 = .vExt ⟨⟨false, 7⟩, 3, .zero, .v 2, .n64⟩
    ∧ decodeTeam 0x20007030_10200900 0 = .vAdd ⟨⟨false, 7⟩, 3, .v 1, .v 2, .i4⟩
    ∧ decodeTeam 0x21607030_10200280 0 = .vPack ⟨⟨false, 7⟩, 3, .v 1, .v 2, .n16⟩
    ∧ decodeTeam 0x21707030_10200300 0 = .vUnpk ⟨⟨false, 7⟩, 3, .v 1, .v 2, .n32⟩
    ∧ decodeTeam 0x20407030_10286080 0 = .vMad ⟨⟨false, 7⟩, 3, .v 1, .v 2, .s 6, .i16⟩
    ∧ decodeTeam 0x21907030_10204080 0 = .vIns ⟨⟨false, 7⟩, 3, .v 1, .v 2, .v 4, .i16⟩
    ∧ decodeTeam 0x21007030_10000100 0 = .vAbs ⟨⟨false, 7⟩, 3, .v 1, .i32⟩
    ∧ decodeTeam 0x21107030_10000100 0 = .vClz ⟨⟨false, 7⟩, 3, .v 1, .i32⟩
    ∧ decodeTeam 0x21207030_10000100 0 = .vPopc ⟨⟨false, 7⟩, 3, .v 1, .i32⟩
    ∧ decodeTeam 0x21507038_50000180 0 = .vMov ⟨⟨false, 7⟩, 3, .s 5, .i64⟩
    ∧ decodeTeam 0x21307E20_18800180 0 = .vCmp ⟨⟨false, 7⟩, .p 2, .v 1, .s 8, .i64, .eq⟩
    ∧ decodeTeam 0x21307090_18800181 0 = .vCmp ⟨⟨false, 7⟩, .v 9, .v 1, .s 8, .i64, .ne⟩
    ∧ decodeTeam 0x21307E20_18800182 0 = .vCmp ⟨⟨false, 7⟩, .p 2, .v 1, .s 8, .i64, .lt⟩ := by
  refine ⟨?_, ?_, ?_, ?_, ?_, ?_, ?_, ?_, ?_, ?_, ?_, ?_, ?_, ?_⟩ <;> rfl

theorem test_decode_vector_integer_3 :
    decodeTeam 0x21307090_18800183 0 = .vCmp ⟨⟨false, 7⟩, .v 9, .v 1, .s 8, .i64, .le⟩
    ∧ decodeTeam 0x21307E20_18800184 0 = .vCmp ⟨⟨false, 7⟩, .p 2, .v 1, .s 8, .i64, .gt⟩
    ∧ decodeTeam 0x21307090_18800185 0 = .vCmp ⟨⟨false, 7⟩, .v 9, .v 1, .s 8, .i64, .ge⟩
    ∧ decodeTeam 0x21407030_102E4300 0 = .vSel ⟨⟨false, 7⟩, 3, .v 1, .v 2, .p 4, .n32⟩
    ∧ decodeTeam 0x21407030_10205300 0 = .vSel ⟨⟨false, 7⟩, 3, .v 1, .v 2, .src (.v 5), .n32⟩ := by
  refine ⟨?_, ?_, ?_, ?_, ?_⟩ <;> rfl

theorem test_decode_vector_immediate :
    decodeTeam 0x24007024_00000003 0 = .vAddImm ⟨⟨false, 7⟩, 2, 64, .w4, 3⟩
    ∧ decodeTeam 0x24107024_03FFFFFD 0 = .vSubImm ⟨⟨false, 7⟩, 2, 64, .w8, 33554429⟩
    ∧ decodeTeam 0x24207024_04000003 0 = .vMulImm ⟨⟨false, 7⟩, 2, 64, .w16, 3⟩
    ∧ decodeTeam 0x24707024_07FFFFFD 0 = .vAndImm ⟨⟨false, 7⟩, 2, 64, .w32, 33554429⟩
    ∧ decodeTeam 0x24807024_08000003 0 = .vOrImm ⟨⟨false, 7⟩, 2, 64, .w64, 3⟩
    ∧ decodeTeam 0x24907024_01FFFFFD 0 = .vXorImm ⟨⟨false, 7⟩, 2, 64, .w4, 33554429⟩
    ∧ decodeTeam 0x24A07024_02000003 0 = .vAndnImm ⟨⟨false, 7⟩, 2, 64, .w8, 3⟩
    ∧ decodeTeam 0x24B07024_05FFFFFD 0 = .vShlImm ⟨⟨false, 7⟩, 2, 64, .w16, 33554429⟩
    ∧ decodeTeam 0x24C07024_06000003 0 = .vShrImm ⟨⟨false, 7⟩, 2, 64, .w32, 3⟩
    ∧ decodeTeam 0x24D07024_09FFFFFD 0 = .vSraImm ⟨⟨false, 7⟩, 2, 64, .w64, 33554429⟩
    ∧ decodeTeam 0x25A07040_0800003F 0 = .vLi ⟨⟨false, 7⟩, 4, .w64, 63⟩ := by
  refine ⟨?_, ?_, ?_, ?_, ?_, ?_, ?_, ?_, ?_, ?_, ?_⟩ <;> rfl

theorem test_decode_vector_float_1 :
    decodeTeam 0x28007050_10200410 0 = .vFadd ⟨⟨false, 7⟩, 5, 1, .v 2, .f32, .rtz⟩
    ∧ decodeTeam 0x28107050_102004A0 0 = .vFsub ⟨⟨false, 7⟩, 5, 1, .v 2, .f16, .rdn⟩
    ∧ decodeTeam 0x28207050_10200530 0 = .vFmul ⟨⟨false, 7⟩, 5, 1, .v 2, .bf16, .rup⟩
    ∧ decodeTeam 0x28307050_10204510 0 = .vFma ⟨⟨false, 7⟩, 5, 1, .v 2, .v 4, .bf16, .rtz⟩
    ∧ decodeTeam 0x28407050_18200480 0 = .vFmin ⟨⟨false, 7⟩, 5, 1, .s 2, .f16⟩
    ∧ decodeTeam 0x28507050_18200480 0 = .vFmax ⟨⟨false, 7⟩, 5, 1, .s 2, .f16⟩
    ∧ decodeTeam 0x28607E10_10200400 0 = .vFcmp ⟨⟨false, 7⟩, .p 1, 1, .v 2, .f32, .eq⟩
    ∧ decodeTeam 0x28607E10_10200401 0 = .vFcmp ⟨⟨false, 7⟩, .p 1, 1, .v 2, .f32, .ne⟩
    ∧ decodeTeam 0x28607E10_10200402 0 = .vFcmp ⟨⟨false, 7⟩, .p 1, 1, .v 2, .f32, .lt⟩
    ∧ decodeTeam 0x28607E10_10200403 0 = .vFcmp ⟨⟨false, 7⟩, .p 1, 1, .v 2, .f32, .le⟩
    ∧ decodeTeam 0x28607E10_10200404 0 = .vFcmp ⟨⟨false, 7⟩, .p 1, 1, .v 2, .f32, .gt⟩
    ∧ decodeTeam 0x28607E10_10200405 0 = .vFcmp ⟨⟨false, 7⟩, .p 1, 1, .v 2, .f32, .ge⟩
    ∧ decodeTeam 0x28607E10_10200406 0 = .vFcmp ⟨⟨false, 7⟩, .p 1, 1, .v 2, .f32, .uo⟩
    ∧ decodeTeam 0x28607E10_10200407 0 = .vFcmp ⟨⟨false, 7⟩, .p 1, 1, .v 2, .f32, .ord⟩ := by
  refine ⟨?_, ?_, ?_, ?_, ?_, ?_, ?_, ?_, ?_, ?_, ?_, ?_, ?_, ?_⟩ <;> rfl

theorem test_decode_vector_float_2 :
    decodeTeam 0x28707050_10000480 0 = .vFabs ⟨⟨false, 7⟩, 5, 1, .f16⟩
    ∧ decodeTeam 0x28807050_10000480 0 = .vFneg ⟨⟨false, 7⟩, 5, 1, .f16⟩
    ∧ decodeTeam 0x28907050_10000480 0 = .vFclass ⟨⟨false, 7⟩, 5, 1, .f16⟩
    ∧ decodeTeam 0x2C037050_10000400 0 = .vFrcp ⟨⟨false, 7⟩, 3, 5, 1, .f32⟩
    ∧ decodeTeam 0x2C137050_10000400 0 = .vFrsq ⟨⟨false, 7⟩, 3, 5, 1, .f32⟩
    ∧ decodeTeam 0x2C337050_10000400 0 = .vFexp2 ⟨⟨false, 7⟩, 3, 5, 1, .f32⟩
    ∧ decodeTeam 0x2C437050_10000400 0 = .vFlog2 ⟨⟨false, 7⟩, 3, 5, 1, .f32⟩
    ∧ decodeTeam 0x2C2F7050_10000430 0 = .vFsqrt ⟨⟨false, 7⟩, 15, 5, 1, .f32, .rup⟩ := by
  refine ⟨?_, ?_, ?_, ?_, ?_, ?_, ?_, ?_⟩ <;> rfl

theorem test_decode_conversion :
    decodeTeam 0x30007060_80A00580 0 = .vCvt ⟨⟨false, 7⟩, 6, 8, .bf16, .e4m3, .mode .rne⟩
    ∧ decodeTeam 0x30007060_80884640 0 = .vCvt ⟨⟨false, 7⟩, 6, 8, .f32, .e5m2, .sr 4⟩
    ∧ decodeTeam 0x30107060_80900920 0 = .vCvti ⟨⟨false, 7⟩, 6, 8, .f16, .i4, .mode .rdn⟩
    ∧ decodeTeam 0x30207060_806004B0 0 = .vCvtf ⟨⟨false, 7⟩, 6, 8, .n32, .f16, .mode .rup⟩
    ∧ decodeTeam 0x303070A0_C14847C6 0 = .vQnt ⟨⟨false, 7⟩, 10, 12, 20, 3, .e2m1, .sr 4⟩
    ∧ decodeTeam 0x304070A0_C1400012 0 = .vDqt ⟨⟨false, 7⟩, 10, 12, 20, 1, .i8, .mode .rtz⟩
    ∧ decodeTeam 0x30507000_C0000880 0 = .vCbld ⟨⟨false, 7⟩, 12⟩
    ∧ decodeTeam 0x30607030_40A00880 0 = .vCbenc ⟨⟨false, 7⟩, 3, 4, true⟩
    ∧ decodeTeam 0x30607030_40800880 0 = .vCbenc ⟨⟨false, 7⟩, 3, 4, false⟩ := by
  refine ⟨?_, ?_, ?_, ?_, ?_, ?_, ?_, ?_, ?_⟩ <;> rfl

theorem test_decode_cross_lane_1 :
    decodeTeam 0x34007070_30900300 0 = .vShfl ⟨⟨false, 7⟩, 7, 3, .v 9, .n32⟩
    ∧ decodeTeam 0x34107070_38900000 0 = .vBcst ⟨⟨false, 7⟩, 7, 3, .s 9, .i8⟩
    ∧ decodeTeam 0x34507070_38900680 0 = .vPerm ⟨⟨false, 7⟩, 7, 3, .s 9, .e3m2⟩
    ∧ decodeTeam 0x342070BE_2E7E5000 0 = .vVote ⟨⟨false, 7⟩, 11, .any 2, 7, 5⟩
    ∧ decodeTeam 0x342070BE_2E7E5001 0 = .vVote ⟨⟨false, 7⟩, 11, .all 2, 7, 5⟩
    ∧ decodeTeam 0x342070BE_2E7E5002 0 = .vVote ⟨⟨false, 7⟩, 11, .cnt 2, 7, 5⟩
    ∧ decodeTeam 0x342070BE_2E7E5003 0 = .vVote ⟨⟨false, 7⟩, 11, .ballot 2, 7, 5⟩
    ∧ decodeTeam 0x342070B2_1E7E5004 0 = .vVote ⟨⟨false, 7⟩, 11, .uni 33, 7, 5⟩
    ∧ decodeTeam 0x342070BE_7E6E5005 0 = .vVote ⟨⟨false, 7⟩, 11, .miss, 6, 5⟩
    ∧ decodeTeam 0x34307010_20000100 0 = .vScan ⟨⟨false, 7⟩, 1, 2, .add, false, .i32⟩
    ∧ decodeTeam 0x34407010_20000380 0 = .vRed ⟨⟨false, 7⟩, 1, 2, .add, .n64⟩
    ∧ decodeTeam 0x34307010_20000109 0 = .vScan ⟨⟨false, 7⟩, 1, 2, .min, true, .i32⟩
    ∧ decodeTeam 0x34407010_20000381 0 = .vRed ⟨⟨false, 7⟩, 1, 2, .min, .n64⟩
    ∧ decodeTeam 0x34307010_20000102 0 = .vScan ⟨⟨false, 7⟩, 1, 2, .max, false, .i32⟩ := by
  refine ⟨?_, ?_, ?_, ?_, ?_, ?_, ?_, ?_, ?_, ?_, ?_, ?_, ?_, ?_⟩ <;> rfl

theorem test_decode_cross_lane_2 :
    decodeTeam 0x34407010_20000382 0 = .vRed ⟨⟨false, 7⟩, 1, 2, .max, .n64⟩
    ∧ decodeTeam 0x34307010_2000010B 0 = .vScan ⟨⟨false, 7⟩, 1, 2, .and, true, .i32⟩
    ∧ decodeTeam 0x34407010_20000383 0 = .vRed ⟨⟨false, 7⟩, 1, 2, .and, .n64⟩
    ∧ decodeTeam 0x34307010_20000104 0 = .vScan ⟨⟨false, 7⟩, 1, 2, .or, false, .i32⟩
    ∧ decodeTeam 0x34407010_20000384 0 = .vRed ⟨⟨false, 7⟩, 1, 2, .or, .n64⟩
    ∧ decodeTeam 0x34307010_2000010D 0 = .vScan ⟨⟨false, 7⟩, 1, 2, .xor, true, .i32⟩
    ∧ decodeTeam 0x34407010_20000385 0 = .vRed ⟨⟨false, 7⟩, 1, 2, .xor, .n64⟩ := by
  refine ⟨?_, ?_, ?_, ?_, ?_, ?_, ?_⟩ <;> rfl

theorem test_decode_vector_memory_1 :
    decodeTeam 0x3800708C_201FF000 0 = .vLd ⟨⟨false, 7⟩, 0, 8, 2, .v 1, 255, 0, .plain, .b8, none⟩
    ∧ decodeTeam 0x3840708C_20104230 0 = .vSt ⟨⟨false, 7⟩, 0, 8, 2, .v 1, 4, 0, .rel .clu, .b8⟩
    ∧ decodeTeam 0x388F708C_28204100 0 = .vLdb ⟨⟨false, 7⟩, 15, 8, 2, .s 2, 4, 0, .acq .lane, .b8, none⟩
    ∧ decodeTeam 0x3811708C_282FF40B 0 = .vLd ⟨⟨false, 7⟩, 1, 8, 2, .s 2, 255, 1, .plain, .b16, some 3⟩
    ∧ decodeTeam 0x3850708C_28204640 0 = .vSt ⟨⟨false, 7⟩, 0, 8, 2, .s 2, 4, 1, .rel .stk, .b16⟩
    ∧ decodeTeam 0x389F708C_2E804510 0 = .vLdb ⟨⟨false, 7⟩, 15, 8, 2, .zero, 4, 1, .acq .team, .b16, none⟩
    ∧ decodeTeam 0x3822708C_2E8FF800 0 = .vLd ⟨⟨false, 7⟩, 2, 8, 2, .zero, 255, 2, .plain, .b32, none⟩
    ∧ decodeTeam 0x3860708C_2E804A50 0 = .vSt ⟨⟨false, 7⟩, 0, 8, 2, .zero, 4, 2, .rel .dev, .b32⟩
    ∧ decodeTeam 0x38AF708C_2E904920 0 = .vLdb ⟨⟨false, 7⟩, 15, 8, 2, .lid, 4, 2, .acq .blk, .b32, none⟩
    ∧ decodeTeam 0x3833708C_2E9FFC0B 0 = .vLd ⟨⟨false, 7⟩, 3, 8, 2, .lid, 255, 3, .plain, .b64, some 3⟩
    ∧ decodeTeam 0x3870708C_2E904E60 0 = .vSt ⟨⟨false, 7⟩, 0, 8, 2, .lid, 4, 3, .rel .fab, .b64⟩
    ∧ decodeTeam 0x38BF708C_28204D30 0 = .vLdb ⟨⟨false, 7⟩, 15, 8, 2, .s 2, 4, 3, .acq .clu, .b64, none⟩
    ∧ decodeTeam 0x3C00706C_50307C00 0 = .vAtomAdd ⟨⟨false, 7⟩, 0, 6, 5, .v 3, 7, 3, .plain, .i32⟩
    ∧ decodeTeam 0x3C10706C_50307F51 0 = .vAtomMin ⟨⟨false, 7⟩, 0, 6, 5, .v 3, 7, 3, .ar .dev, .i64⟩ := by
  refine ⟨?_, ?_, ?_, ?_, ?_, ?_, ?_, ?_, ?_, ?_, ?_, ?_, ?_, ?_⟩ <;> rfl

theorem test_decode_vector_memory_2 :
    decodeTeam 0x3C20706C_50307C02 0 = .vAtomMax ⟨⟨false, 7⟩, 0, 6, 5, .v 3, 7, 3, .plain, .n32⟩
    ∧ decodeTeam 0x3C30706C_50307F53 0 = .vAtomAnd ⟨⟨false, 7⟩, 0, 6, 5, .v 3, 7, 3, .ar .dev, .n64⟩
    ∧ decodeTeam 0x3C40706C_50307C00 0 = .vAtomOr ⟨⟨false, 7⟩, 0, 6, 5, .v 3, 7, 3, .plain, .i32⟩
    ∧ decodeTeam 0x3C50706C_50307F51 0 = .vAtomXor ⟨⟨false, 7⟩, 0, 6, 5, .v 3, 7, 3, .ar .dev, .i64⟩
    ∧ decodeTeam 0x3C60706C_50307C02 0 = .vAtomXchg ⟨⟨false, 7⟩, 0, 6, 5, .v 3, 7, 3, .plain, .n32⟩
    ∧ decodeTeam 0x3C70706C_50307F53 0 = .vAtomCas ⟨⟨false, 7⟩, 0, 6, 5, .v 3, 7, 3, .ar .dev, .n64⟩
    ∧ decodeTeam 0x3C82706C_50307004 0 = .vAtomFadd ⟨⟨false, 7⟩, 2, 6, 5, .v 3, 7, 0, .plain, .f32⟩
    ∧ decodeTeam 0x40007000_00000000 0 = .fence ⟨⟨false, 7⟩, .at .lane⟩
    ∧ decodeTeam 0x40007000_00000010 0 = .fence ⟨⟨false, 7⟩, .at .team⟩
    ∧ decodeTeam 0x40007000_00000020 0 = .fence ⟨⟨false, 7⟩, .at .blk⟩
    ∧ decodeTeam 0x40007000_00000030 0 = .fence ⟨⟨false, 7⟩, .at .clu⟩
    ∧ decodeTeam 0x40007000_00000040 0 = .fence ⟨⟨false, 7⟩, .at .stk⟩
    ∧ decodeTeam 0x40007000_00000050 0 = .fence ⟨⟨false, 7⟩, .at .dev⟩
    ∧ decodeTeam 0x40007000_00000060 0 = .fence ⟨⟨false, 7⟩, .at .fab⟩ := by
  refine ⟨?_, ?_, ?_, ?_, ?_, ?_, ?_, ?_, ?_, ?_, ?_, ?_, ?_, ?_⟩ <;> rfl

theorem test_decode_vector_memory_3 :
    decodeTeam 0x4000700C_38400070 0 = .fence ⟨⟨false, 7⟩, .bank 3 (.s 4)⟩
    ∧ decodeTeam 0x4000700C_3E800080 0 = .fence ⟨⟨false, 7⟩, .arr 3 .zero⟩ := by
  refine ⟨?_, ?_⟩ <;> rfl

theorem test_decode_capability :
    decodeTeam 0x44007C9C_28485000 0 = .cNarrow ⟨⟨false, 7⟩, 9, 2, 4, 5⟩
    ∧ decodeTeam 0x44107C9C_28400000 0 = .cPerm ⟨⟨false, 7⟩, 9, 2, 4⟩
    ∧ decodeTeam 0x442078AC_10000006 0 = .cGet ⟨⟨false, 7⟩, 10, 1, 6⟩
    ∧ decodeTeam 0x443078AC_10000000 0 = .cTag ⟨⟨false, 7⟩, 10, 1⟩
    ∧ decodeTeam 0x44407CAC_10000000 0 = .cMov ⟨⟨false, 7⟩, 10, 1⟩
    ∧ decodeTeam 0x44707CA8_18200000 0 = .cMk ⟨⟨false, 7⟩, 10, 1, 2⟩
    ∧ decodeTeam 0x44527CAC_18410D50 0 = .cLd ⟨⟨false, 7⟩, 2, 10, 1, .s 4, 16, 3, .acq .dev⟩
    ∧ decodeTeam 0x44617CAC_1E8F0220 0 = .cSt ⟨⟨false, 7⟩, 1, 10, 1, .zero, 240, 0, .rel .blk⟩ := by
  refine ⟨?_, ?_, ?_, ?_, ?_, ?_, ?_, ?_⟩ <;> rfl

theorem test_decode_turnstile_and_carousel :
    decodeTeam 0x48007008_60000008 0 = .tsInit ⟨⟨false, 7⟩, 8, 6⟩
    ∧ decodeTeam 0x48107000_00000008 0 = .tsArrive ⟨⟨false, 7⟩, 8⟩
    ∧ decodeTeam 0x48207008_40000008 0 = .tsWait ⟨⟨false, 7⟩, 8, 4⟩
    ∧ decodeTeam 0x48307000_00000003 0 = .tsArrw ⟨⟨false, 7⟩, 3⟩
    ∧ decodeTeam 0x48407890_0000000F 0 = .tsQuery ⟨⟨false, 7⟩, 9, 15⟩
    ∧ decodeTeam 0x48807008_50000003 0 = .crInit ⟨⟨false, 7⟩, 3, 5⟩
    ∧ decodeTeam 0x489078C0_00000011 0 = .crWait ⟨⟨false, 7⟩, 1, true, 12⟩
    ∧ decodeTeam 0x48A07000_00000032 0 = .crPass ⟨⟨false, 7⟩, 2, true, true⟩
    ∧ decodeTeam 0x48A07000_00000000 0 = .crPass ⟨⟨false, 7⟩, 0, false, false⟩ := by
  refine ⟨?_, ?_, ?_, ?_, ?_, ?_, ?_, ?_, ?_⟩ <;> rfl

theorem test_decode_copy_queue_and_page :
    decodeTeam 0x4C007E2C_69000000 0 = .cpyPut ⟨⟨false, 7⟩, 2, 6, 16⟩
    ∧ decodeTeam 0x4C107E2C_69098000 0 = .cpyIdx ⟨⟨false, 7⟩, 2, 6, 16, 24⟩
    ∧ decodeTeam 0x5004700C_20108C01 0 = .pgReq ⟨⟨false, 7⟩, 4, 2, .v 1, 8, 3, true⟩
    ∧ decodeTeam 0x50107E4C_2E908800 0 = .pgTest ⟨⟨false, 7⟩, 0, 4, 2, .lid, 8, 2, false⟩ := by
  refine ⟨?_, ?_, ?_, ?_⟩ <;> rfl

theorem test_decode_set_1 :
    decodeTeam 0x54007C8C_68A8B000 0 = .setNew ⟨⟨false, 7⟩, 0, 8, 6, 10, 11⟩
    ∧ decodeTeam 0x5410700C_80000000 0 = .setFree ⟨⟨false, 7⟩, 0, 8⟩
    ∧ decodeTeam 0x54A0700C_80000000 0 = .setClr ⟨⟨false, 7⟩, 0, 8⟩
    ∧ decodeTeam 0x54227E3C_80200000 0 = .setIns ⟨⟨false, 7⟩, 2, 3, 8, .v 2⟩
    ∧ decodeTeam 0x54327E3C_88400000 0 = .setDel ⟨⟨false, 7⟩, 2, 3, 8, .s 4⟩
    ∧ decodeTeam 0x54427E3C_8E900000 0 = .setHas ⟨⟨false, 7⟩, 2, 3, 8, .lid⟩
    ∧ decodeTeam 0x545078CC_80000000 0 = .setCard ⟨⟨false, 7⟩, 0, 12, 8⟩
    ∧ decodeTeam 0x54607C9C_8C700000 0 = .setOr ⟨⟨false, 7⟩, 0, 9, 8, 7⟩
    ∧ decodeTeam 0x54707C9C_8C700000 0 = .setAnd ⟨⟨false, 7⟩, 0, 9, 8, 7⟩
    ∧ decodeTeam 0x54807C9C_8C700000 0 = .setAndn ⟨⟨false, 7⟩, 0, 9, 8, 7⟩
    ∧ decodeTeam 0x54907C9C_80000000 0 = .setCopy ⟨⟨false, 7⟩, 0, 9, 8⟩
    ∧ decodeTeam 0x54B0706C_98E00000 0 = .setEnum ⟨⟨false, 7⟩, 0, 6, 9, .s 14⟩
    ∧ decodeTeam 0x54C078FC_90000004 0 = .setInfo ⟨⟨false, 7⟩, 0, 15, 9, 4⟩
    ∧ decodeTeam 0x54D0700C_90000000 0 = .setPin ⟨⟨false, 7⟩, 0, 9, .off⟩ := by
  refine ⟨?_, ?_, ?_, ?_, ?_, ?_, ?_, ?_, ?_, ?_, ?_, ?_, ?_, ?_⟩ <;> rfl

theorem test_decode_set_2 :
    decodeTeam 0x54D0700C_90000001 0 = .setPin ⟨⟨false, 7⟩, 0, 9, .list⟩
    ∧ decodeTeam 0x54D0700C_90000002 0 = .setPin ⟨⟨false, 7⟩, 0, 9, .runs⟩
    ∧ decodeTeam 0x54D0700C_90000003 0 = .setPin ⟨⟨false, 7⟩, 0, 9, .bmap⟩
    ∧ decodeTeam 0x54D0700C_90000004 0 = .setPin ⟨⟨false, 7⟩, 0, 9, .hash⟩
    ∧ decodeTeam 0x54D0700C_90000005 0 = .setPin ⟨⟨false, 7⟩, 0, 9, .cur⟩ := by
  refine ⟨?_, ?_, ?_, ?_, ?_⟩ <;> rfl

theorem test_decode_array_1 :
    decodeTeam 0x5800740C_08AFF29C 0 = .aTld ⟨⟨false, 7⟩, 0, 5, 7, 64, 0, 10, 255⟩
    ∧ decodeTeam 0x5810750C_08CFE29C 0 = .aTst ⟨⟨false, 7⟩, 0, 5, 7, 80, 0, 12, 254⟩
    ∧ decodeTeam 0x58207500_08CFF2BC 0 = .aFill ⟨⟨false, 7⟩, 0, 5, 15, 80, 12, 255⟩
    ∧ decodeTeam 0x58307504_0485A29C 0 = .aLog ⟨⟨false, 7⟩, 0, 5, 7, 0, 80, 64, 72, 90⟩
    ∧ decodeTeam 0x58307504_0485A29D 0 = .aLog ⟨⟨false, 7⟩, 0, 5, 7, 1, 80, 64, 72, 90⟩
    ∧ decodeTeam 0x58307504_0485A29E 0 = .aLog ⟨⟨false, 7⟩, 0, 5, 7, 2, 80, 64, 72, 90⟩
    ∧ decodeTeam 0x58307504_0485A29F 0 = .aLog ⟨⟨false, 7⟩, 0, 5, 7, 3, 80, 64, 72, 90⟩
    ∧ decodeTeam 0x58407504_0485A29C 0 = .aAdd ⟨⟨false, 7⟩, 0, 5, 7, 0, 80, 64, 72, 90⟩
    ∧ decodeTeam 0x58507504_0485A29C 0 = .aSub ⟨⟨false, 7⟩, 0, 5, 7, 0, 80, 64, 72, 90⟩
    ∧ decodeTeam 0x58607504_0485A29C 0 = .aMul ⟨⟨false, 7⟩, 0, 5, 7, 0, 80, 64, 72, 90⟩
    ∧ decodeTeam 0x58607504_0485A29E 0 = .aMul ⟨⟨false, 7⟩, 0, 5, 7, 2, 80, 64, 72, 90⟩
    ∧ decodeTeam 0x58707504_0485A29C 0 = .aCmp ⟨⟨false, 7⟩, 0, 5, 7, 0, 80, 64, 72, 90⟩
    ∧ decodeTeam 0x58707504_0485A29D 0 = .aCmp ⟨⟨false, 7⟩, 0, 5, 7, 1, 80, 64, 72, 90⟩
    ∧ decodeTeam 0x58707504_0485A29F 0 = .aCmp ⟨⟨false, 7⟩, 0, 5, 7, 3, 80, 64, 72, 90⟩ := by
  refine ⟨?_, ?_, ?_, ?_, ?_, ?_, ?_, ?_, ?_, ?_, ?_, ?_, ?_, ?_⟩ <;> rfl

theorem test_decode_array_2 :
    decodeTeam 0x58807504_0485A29C 0 = .aSel ⟨⟨false, 7⟩, 0, 5, 7, 0, 80, 64, 72, 90⟩
    ∧ decodeTeam 0x58907504_0FDFFFFC 0 = .aShf ⟨⟨false, 7⟩, 0, 31, 31, 80, 64, 253, 255⟩
    ∧ decodeTeam 0x58A478E5_A00FF280 0 = .aPopc ⟨⟨false, 7⟩, 4, 5, 0, 14, 90, 255⟩
    ∧ decodeTeam 0x58B07000_00000280 0 = .aWait ⟨⟨false, 7⟩, 0, 5⟩ := by
  refine ⟨?_, ?_, ?_, ?_⟩ <;> rfl

theorem test_decode_bank :
    decodeTeam 0x5C00700C_28400000 0 = .bLift ⟨⟨false, 7⟩, 0, 2, .s 4⟩
    ∧ decodeTeam 0x5C107000_00000000 0 = .bLand ⟨⟨false, 7⟩, 0⟩
    ∧ decodeTeam 0x5C207008_60100000 0 = .bUcld ⟨⟨false, 7⟩, 0, 6, 1⟩
    ∧ decodeTeam 0x5C3F7008_78889000 0 = .bRun ⟨⟨false, 7⟩, 15, 7, 8, 9⟩
    ∧ decodeTeam 0x5C4F7008_D8B00000 0 = .bStep ⟨⟨false, 7⟩, 15, 13, 11⟩
    ∧ decodeTeam 0x5C507008_60000000 0 = .bWait ⟨⟨false, 7⟩, 0, 6⟩
    ∧ decodeTeam 0x5C607008_60000000 0 = .bFence ⟨⟨false, 7⟩, 0, 6⟩
    ∧ decodeTeam 0x5C707028_D0000000 0 = .bAccRd ⟨⟨false, 7⟩, 0, 2, 13⟩
    ∧ decodeTeam 0x5C707028_D0000001 0 = .bAccWr ⟨⟨false, 7⟩, 0, 2, 13⟩
    ∧ decodeTeam 0x5C8078C8_D0000000 0 = .bStat ⟨⟨false, 7⟩, 0, 12, 13⟩ := by
  refine ⟨?_, ?_, ?_, ?_, ?_, ?_, ?_, ?_, ?_, ?_⟩ <;> rfl

theorem test_decode_matrix_stream_1 :
    decodeStream 0x80007051_F00FF123 = .ok (.mTdld ⟨5, ⟨some 15, 255, 291⟩⟩)
    ∧ decodeStream 0x801070D1_F00FF123 = .ok (.mSdld ⟨5, ⟨some 15, 255, 291⟩⟩)
    ∧ decodeStream 0x80207051_F00FF123 = .ok (.mCapld ⟨5, ⟨some 15, 255, 291⟩⟩)
    ∧ decodeStream 0x80007010_00000002 = .ok (.mTdld ⟨1, ⟨none, 0, 2⟩⟩)
    ∧ decodeStream 0x80307230_00000000 = .ok (.mZero ⟨3⟩)
    ∧ decodeStream 0x80407062_10000500 = .ok (.mAcst ⟨6, 1, 10⟩)
    ∧ decodeStream 0x80507210_60000100 = .ok (.mAcld ⟨6, 1, 2⟩)
    ∧ decodeStream 0x80607003_F0000000 = .ok (.mArrive ⟨.ts 15⟩)
    ∧ decodeStream 0x80607004_20000010 = .ok (.mArrive ⟨.cr 2 true⟩)
    ∧ decodeStream 0x80707003_10000000 = .ok (.mWait ⟨.ts 1, none⟩)
    ∧ decodeStream 0x80707134_10000000 = .ok (.mWait ⟨.cr 1 false, some 3⟩)
    ∧ decodeStream 0x80807120_0017FFFC = .ok (.mLoop ⟨2, 5, 262140⟩)
    ∧ decodeStream 0x80907000_0003FFFC = .ok (.mJmp ⟨0, 262140⟩)
    ∧ decodeStream 0x80A07000_00000000 = .ok (.mEnd) := by
  refine ⟨?_, ?_, ?_, ?_, ?_, ?_, ?_, ?_, ?_, ?_, ?_, ?_, ?_, ?_⟩ <;> rfl

theorem test_decode_matrix_stream_2 :
    decodeStream 0x80B07000_00000002 = .ok (.mMirror ⟨2⟩)
    ∧ decodeStream 0x80C07190_00000000 = .ok (.mRowp ⟨9⟩)
    ∧ decodeStream 0x84007210_304FFFF0 = .ok (.mMma ⟨.i8, 1, 3, 4, none, none⟩)
    ∧ decodeStream 0x84807210_304FFFF0 = .ok (.mMma ⟨.f32, 1, 3, 4, none, none⟩)
    ∧ decodeStream 0x84907210_304FFFF0 = .ok (.mMma ⟨.f16, 1, 3, 4, none, none⟩)
    ∧ decodeStream 0x84A07210_304FFFF0 = .ok (.mMma ⟨.bf16, 1, 3, 4, none, none⟩)
    ∧ decodeStream 0x85207210_304FFFF0 = .ok (.mMma ⟨.i4, 1, 3, 4, none, none⟩)
    ∧ decodeStream 0x84B07210_00108090 = .ok (.mMma ⟨.e4m3, 1, 0, 1, some 0, some 1⟩)
    ∧ decodeStream 0x84C07210_00108090 = .ok (.mMma ⟨.e5m2, 1, 0, 1, some 0, some 1⟩)
    ∧ decodeStream 0x84D07210_00108090 = .ok (.mMma ⟨.e3m2, 1, 0, 1, some 0, some 1⟩)
    ∧ decodeStream 0x84E07210_00108090 = .ok (.mMma ⟨.e2m3, 1, 0, 1, some 0, some 1⟩)
    ∧ decodeStream 0x84F07210_00108090 = .ok (.mMma ⟨.e2m1, 1, 0, 1, some 0, some 1⟩)
    ∧ decodeStream 0x85007210_00108090 = .ok (.mMma ⟨.o4, 1, 0, 1, some 0, some 1⟩)
    ∧ decodeStream 0x85107210_00108090 = .ok (.mMma ⟨.c4, 1, 0, 1, some 0, some 1⟩) := by
  refine ⟨?_, ?_, ?_, ?_, ?_, ?_, ?_, ?_, ?_, ?_, ?_, ?_, ?_, ?_⟩ <;> rfl

/-! ### Ill-formed terms, one for each limit of WellFormed.lean -/

theorem test_ill_formed : ∀ i ∈ ([.sAdd ⟨⟨true, 7⟩, 1, .s 2, .s 3⟩,
    .sLd ⟨un, 0, 1, 2, .zero, 0, 0, .rel .blk, .n64⟩,
    .vSt ⟨un, 0, 1, 2, .zero, 0, 0, .acq .blk, .b64⟩,
    .vLd ⟨un, 0, 1, 2, .zero, 0, 0, .plain, .b64, some 7⟩,
    .longImmediatePrefix ⟨un, .vint .unpk 1 (.v 2) .i4, 0⟩,
    .longImmediatePrefix ⟨un, .scalar (.cmp true .uo) 1 (.s 2), 0⟩,
    .sigChk ⟨un, 0x100000000⟩,
    .vCmp ⟨un, .p 1, .v 2, .v 3, .i32, .ord⟩,
    .vPack ⟨un, 1, .v 2, .v 3, .n64⟩,
    .vCvt ⟨un, 1, 2, .i8, .f32, .mode .rne⟩,
    .vQnt ⟨un, 1, 2, 3, 0, .i64, .mode .rne⟩,
    .vShfl ⟨un, 1, 2, .v 3, .c4⟩,
    .vScan ⟨un, 1, 2, .and, false, .f32⟩,
    .vAtomAdd ⟨un, 0, 1, 2, .zero, 3, 0, .plain, .f32⟩,
    .vAtomFadd ⟨un, 0, 1, 2, .zero, 3, 0, .plain, .i32⟩,
    .fence ⟨un, .at .bank⟩,
    .cGet ⟨un, 1, 2, 7⟩,
    .cpyPut ⟨un, 1, 2, 57⟩,
    .cpyIdx ⟨un, 1, 2, 8, 61⟩,
    .pgTest ⟨un, 0, 7, 2, .zero, 0, 0, false⟩,
    .aCmp ⟨un, 0, 1, 7, 2, 1, 2, 3, 0xFF⟩,
    .aSel ⟨un, 0, 1, 7, 0, 1, 2, 3, 0xFF⟩,
    .mWait ⟨.ts 1, some 3⟩,
    .mMirror ⟨3⟩] : List Instr), i.wf = false := by
  decide +kernel

/-! ### One step each, on values from the spec's examples or worked out from its rules -/

/-- A team of 32 lanes with registers. -/
def tmX0 (sr : AMap Word) (vr : AMap Word) : Team := { tm0 with s := sr, v := vr }
/-- Lane 0 of `v3` and the flags after an instruction on the lane values of R179's example (section 08, packed lanes). -/
def packed (i : Instr) : Option (Word × Nat) :=
  (after (exec i (st (tmX0 [] [(1024, 0x7F800105FE030A64), (2048, 0x0180FF05FE7F0A64)])))).map fun tm => (tm.vreg 3 0, tm.fpflags)
theorem test_adds_i8_saturates : (packed (.vAdds ⟨un, 3, .v 1, .v 2, .i8⟩)).map Prod.fst = some 0x7F80000AFC7F147F := by decide +kernel
theorem test_add_i8_wraps : packed (.vAdd ⟨un, 3, .v 1, .v 2, .i8⟩) = some (0x8000000AFC8214C8, 0) := by decide +kernel
/-- A scalar result (R161): `s1` = 2^63, `s2` = -1. -/
def scalar (i : Instr) : Option Word := (after (exec i (st (tmX0 [(1, 0x8000000000000000), (2, 0xFFFFFFFFFFFFFFFF)] [])))).map fun tm => tm.sreg 3
theorem test_add_wraps : scalar (.sAdd ⟨un, 3, .s 1, .s 2⟩) = some 0x7FFFFFFFFFFFFFFF := by decide +kernel
theorem test_sub_order : scalar (.sSub ⟨un, 3, .s 1, .s 2⟩) = some 0x8000000000000001 := by decide +kernel
theorem test_mulh_signed : scalar (.sMulh ⟨un, 3, .s 1, .s 2, true⟩) = some 0 := by decide +kernel
theorem test_mulh_unsigned : scalar (.sMulh ⟨un, 3, .s 1, .s 2, false⟩) = some 0x7FFFFFFFFFFFFFFF := by decide +kernel
theorem test_andn_negates_b : scalar (.sAndn ⟨un, 3, .s 2, .s 1⟩) = some 0x7FFFFFFFFFFFFFFF := by decide +kernel
theorem test_sra_signed : scalar (.sSraImm ⟨un, 3, .s 1, 63⟩) = some 0xFFFFFFFFFFFFFFFF := by decide +kernel
theorem test_cmp_signed : scalar (.sCmp ⟨un, 3, .s 1, .s 2, true, .lt⟩) = some 1 := by decide +kernel
theorem test_cmp_unsigned : scalar (.sCmp ⟨un, 3, .s 2, .s 1, false, .lt⟩) = some 0 := by decide +kernel
theorem test_clz_zero : scalar (.sClz ⟨un, 3, .spec .zero⟩) = some 64 := by decide +kernel
theorem test_guard_off : scalar (.sAdd ⟨⟨true, 6⟩, 3, .s 1, .s 2⟩) = scalar (.sAdd ⟨un, 3, .s 1, .s 2⟩) := by decide +kernel
theorem test_guard_on : scalar (.sAdd ⟨⟨false, 6⟩, 3, .s 1, .s 2⟩) = some 0 := by decide +kernel
/-- The handler example of section 20: a fragment whose lowest active lane is 32 issues a word at 0x140 with `TRAPVEC` 0x200. -/
def tmTrap (w : Word) : State :=
  let t : Team := { newTeam 0x140 0 0 64 16 false 0 [] [] with trapvec := 0x200 }
  stB (blkOf { t with frags := t.frags.map fun f => { f with mask := fullMask 64 ^^^ fullMask 32 } }) w
def trapOf (i : Instr) (w : Word) : Option (Word × Word × Word × List Nat) :=
  (after (exec i (tmTrap w))).map fun tm => (tm.trapcause, tm.trappc, tm.trapword, tm.frags.map Frag.pc)
theorem test_illegal_word : trapOf (.illegalWordIssue ⟨4, false⟩) 0x0400F83818200000 = some (0x0000002000000402, 0x148, 0x0400F83818200000, [0x200]) := by
  decide +kernel
theorem test_trap_code : (trapOf (.trap ⟨un, 0x2A⟩) 0x180070000000002A).map Prod.fst = some 0x00000020002A0001 := by decide +kernel
/-- One lane out of bounds (section 21). -/
def tmO : Team :=
  { newTeam 0 0 0 32 16 false 0 [] [] with
    trapvec := 0x200, c := [(2, (mkCap 0x1234560000 256 1 0 0, true))], v := (upto 0 32).map fun l => (1024 + l, BitVec.ofNat 64 (l + 1)) }
theorem test_bounds : (after (exec (.vLd ⟨un, 4, 8, 2, .v 1, 0, 3, .plain, .b64, some 3⟩) (stB (blkOf tmO) 0x3834708C20100C0B))).map (fun tm =>
    (tm.trapcause, tm.faultstat, tm.trappc, tm.trapword)) = some (0x00000000001F0613, 0x8800001234560100, 0x0008, 0x3834708C20100C0B) := by
  decide +kernel
/-- The split of section 02: 128 lanes at 0x100, `brv` to 0x140 with reconvergence 0x180 on `p1`, true in lanes 0 to 31 and 64 to 70. -/
def tmSplit : Team := { newTeam 0x100 0 0 128 16 false 0 [] [] with p := [(1, 0xFFFFFFFF + 0x7F * 2 ^ 64)] }
theorem test_split : (after (exec (.brv ⟨un, 1, 16, 8⟩) (stB { blkOf tmSplit with parts := [(0, { Part.init with csnNext := 1 })] } 0))).map (fun tm =>
    tm.frags.map fun f => [f.csn, f.pc, f.mask.toNat, f.rpc, b01 f.linkv, f.link])
    = some [[0, 0x140, 0x7F00000000FFFFFFFF, 0x180, 0, 0], [1, 0x108, 0xFFFFFFFFFFFFFF80FFFFFFFF00000000, 0x180, 1, 0]] := by
  decide +kernel
/-- The two paths of section 08: lane 40 of 64 has exited, lane l of `v3` holds l, F holds lanes 0 to 31, and G has not yet written `v3`. -/
def tmV : Team :=
  let t := newTeam 0x100 0 0 64 16 false 0 [] []
  { t with
    frags := (t.frags.map fun f => { f with mask := fullMask 32 }) ++ t.frags.map fun f => { f with csn := 1, mask := 0xFFFFFEFF00000000, entry := 1 }
    exited := 2 ^ 40, v := ((upto 0 64).filter fun l => l != 40).map (fun l => (3072 + l, BitVec.ofNat 64 l)) ++ [(9216, 33), (9217, 40), (9218, 64)] }
theorem test_shuffle_two_paths : (after (exec (.vShfl ⟨un, 7, 3, .v 9, .n64⟩) (st tmV))).map (fun tm => (tm.vreg 7 0, tm.vreg 7 1, tm.vreg 7 2)) = some (33, 0, 0) := by
  decide +kernel
theorem test_vote_miss : (after (exec (.vVote ⟨un, 11, .miss, 7, 5⟩) (st { tmV with p := [(5, fullMask 64)] }))).map (fun tm =>
    (tm.vreg 11 1, tm.vreg 11 0, tm.vreg 11 2, tm.preg 5 % 2 ^ 32)) = some (0xFFFFFEFF, 0, 0, 0) := by
  decide +kernel
/-- The address of section 04. -/
theorem test_address_map : (channelOf 0xA31C4D7890, bits 0xA31C4D7890 20 16, bits 0xA31C4D7890 15 5, bits 0xA31C4D7890 5 5, homeSlice 0xA31C4D7890)
    = (32 * 10 + 30, 12740, 26, 4, 84) := by
  decide +kernel
/-- The order of section 03: 2^24 + 1 - 2^24 in FP32 is +0. -/
theorem test_mma_order : sumF 0 [decodeF (fmtOf .bf16) 0x4580, decodeF (fmtOf .bf16) 0x3F80, decodeF (fmtOf .bf16) 0xC580]
    [decodeF (fmtOf .bf16) 0x4580, decodeF (fmtOf .bf16) 0x3F80, decodeF (fmtOf .bf16) 0x4580] = 0 := by
  decide +kernel
/-- A tie of R70: 2^24 + 1 in `.f32` rounds to the even neighbour, and up under `rup`. -/
def fadd (m : RMode) : Option Word :=
  (after (exec (.vFadd ⟨un, 3, 1, .v 2, .f32, m⟩) (st (tmX0 [] [(1024, 0x4B800000), (2048, 0x3F800000)])))).map fun tm => tm.vreg 3 0 % 2 ^ 32
theorem test_fadd_even : fadd .rne = some 0x4B800000 := by decide +kernel
theorem test_fadd_up : fadd .rup = some 0x4B800001 := by decide +kernel
/-- From reset, a word placed where the machine fetches is fetched and runs: `s.li s9, -1` (R161, R135). -/
theorem test_first_step : (match step (State.reset.withFetchWord 64 0x092078900FFFFFFF) with
    | .next s => s.cores.any fun x => x.2.block.any fun b => b.teams.any fun y => y.2.sreg 9 == 0xFFFFFFFFFFFFFFFF
    | _ => false) = true := by
  decide +kernel

/-! ### Witnesses: steps, words, memory -/

/-- A word in the L1 of the core of a team that is not lifted. -/
theorem wordAt_core {s : State} {k : Nat} {tm : Team} {asid va : Nat} {w : Word} {e : TlbEntry} {xs : List Byte}
    (h1 : tlbHit s (s.teamTlb k tm) asid (va % 2 ^ 57) = some e) (h2 : tm.lifted = false)
    (h3 : s.l1Bytes k (e.pa (va % 2 ^ 57)) 8 = some xs) (h4 : w = s.launchWord k (e.pa (va % 2 ^ 57)) xs) : s.wordAt k tm asid va w :=
  ⟨e, h1, by rw [if_neg (by simp [h2])]; exact ⟨xs, h3, h4⟩⟩
/-- A word in memory for a lifted team. -/
theorem wordAt_lifted {s : State} {k : Nat} {tm : Team} {asid va : Nat} {w : Word} {e : TlbEntry}
    (h1 : tlbHit s (s.teamTlb k tm) asid (va % 2 ^ 57) = some e) (h2 : tm.lifted = true) (h3 : s.rowOwned (e.pa (va % 2 ^ 57)) = false)
    (h6 : s.mayFill (e.pa (va % 2 ^ 57)) 8 = true) (h4 : s.poisonedAt (.pa (e.pa (va % 2 ^ 57))) 8 = false)
    (h5 : w = s.launchWord k (e.pa (va % 2 ^ 57)) (s.mem.bytes (e.pa (va % 2 ^ 57)) 8)) : s.wordAt k tm asid va w :=
  ⟨e, h1, by rw [if_pos h2]; exact ⟨h3, h6, h4, h5⟩⟩
/-- The translation that `place1` leaves. -/
def e0 : TlbEntry := { asid := 0, gen := 0, level := 0, page := 1, frame := 0x10000, w := false, d := false }
/-- `s.li s9, 0x1_2345_6789` placed. -/
def pl2 : State := State.reset.place1 128 (0x0000000123456789FC00789E80100000)
theorem witness_StepsRunDecoded_fragment :
    (pl2.agenda = [.fragment 0 0 0] ∧ pl2.block 0 = some (seedBlock 0x10000 false) ∧ pl2.team 0 0 = some tm0 ∧ tm0.frag 0 = some fr0
      ∧ fragBlocked (seedBlock 0x10000 false) tm0 0 fr0 = false ∧ wordLen 0xFC00789E80100000 = 16)
    ∧ pl2.wordAt 0 tm0 0 fr0.pc 0xFC00789E80100000 ∧ pl2.wordAt 0 tm0 0 (fr0.pc + 8) 0x123456789 :=
  ⟨by decide +kernel,
    wordAt_core (e := e0) (xs := bytesOf 8 0xFC00789E80100000) (by decide +kernel) (by decide +kernel) (by decide +kernel)
      (by decide +kernel),
    wordAt_core (e := e0) (xs := bytesOf 8 0x123456789) (by decide +kernel) (by decide +kernel) (by decide +kernel) (by decide +kernel)⟩
/-- A lifted team at an `exit` in memory. -/
def tmUp : Team := { tm0 with lift := .up 0 0 0 }
def plUp : State :=
  { State.reset with mem := State.reset.mem.setBytes 0x10000 (bytesOf 8 0x1080700000000000)
                     cores := [(0, { Core.init with block := some (blkOf tmUp) })]
                     stackCores := [(0, { StackCore.init with tlb := [e0] })], agenda := [.fragment 0 0 0] }
theorem witness_StepsRunDecoded_lifted :
    (plUp.agenda = [.fragment 0 0 0] ∧ plUp.block 0 = some (blkOf tmUp) ∧ plUp.team 0 0 = some tmUp ∧ tmUp.frag 0 = some fr0
      ∧ fragBlocked (blkOf tmUp) tmUp 0 fr0 = false ∧ wordLen 0x1080700000000000 ≠ 16)
    ∧ plUp.wordAt 0 tmUp 0 fr0.pc 0x1080700000000000 :=
  ⟨by decide +kernel, wordAt_lifted (e := e0) (by decide +kernel) (by decide +kernel) (by decide +kernel) (by decide +kernel)
    (by decide +kernel) (by decide +kernel)⟩
/-- A matrix word placed: `m.end`. -/
def plM : State := State.reset.place1 64 0x80A0700000000000
theorem witness_StepsRunDecoded_sequencer :
    (plM.agenda = [.sequencer 0] ∧ plM.block 0 = some (seedBlock 0x10000 false) ∧ seqBlocked (newSeq 0x10000) = false)
    ∧ plM.streamWordAt 0 0 (newSeq 0x10000).mpc 0x80A0700000000000 :=
  ⟨by decide +kernel, e0, bytesOf 8 0x80A0700000000000, by decide +kernel, by decide +kernel, by decide +kernel⟩
/-- A halted team's turn. -/
def plH : State := { st { tm0 with halted := true } with agenda := [.fragment 0 0 0] }
theorem witness_StepsRunDecoded_others :
    plH.agenda = [.fragment 0 0 0] ∧ plH.block 0 = some (blkOf { tm0 with halted := true }) ∧ plH.team 0 0 = some { tm0 with halted := true }
      ∧ ({ tm0 with halted := true } : Team).frag 0 = some fr0 ∧ fragBlocked (blkOf { tm0 with halted := true }) { tm0 with halted := true } 0 fr0 = true
      ∧ ({ State.reset with agenda := [.tick] } : State).agenda = [.tick] := by decide +kernel
theorem witness_EncodedWordsDecode : (Instr.sAdd ⟨un, 3, .s 1, .s 2⟩).wf = true ∧ encode (.sAdd ⟨un, 3, .s 1, .s 2⟩) ≠ [] := by decide +kernel
theorem witness_DecodedWordsEncode :
    (∀ r, decodeTeam 0xFC00789E80100000 0x123456789 ≠ .illegalWordIssue r) ∧ (∀ r, decodeTeam 0x1080700000000000 0 ≠ .illegalWordIssue r)
      ∧ decodeStream 0x80A0700000000000 = .ok .mEnd :=
  ⟨fun r => by have e : decodeTeam 0xFC00789E80100000 0x123456789 = .longImmediatePrefix ⟨un, .scalar .add 9 (.spec .zero), 0x123456789⟩ := rfl
               rw [e]; simp,
    fun r => by have e : decodeTeam 0x1080700000000000 0 = .exit ⟨un⟩ := rfl
                rw [e]; simp, rfl⟩
theorem witness_StepsKeepMemoryCanonical : State.reset.mem.wf = true ∧ step State.reset = .next State.reset.tick := ⟨by decide +kernel, rfl⟩

/-! ### Witnesses: scalar, control, predicate and vector words -/

/-- The team's one fragment of all 32 lanes: what holds of every statement about an instruction that it issues. -/
theorem witness_issuer : (st tm0).issuer = some (ctx tm0) ∧ (ctx tm0).calm = true ∧ (ctx tm0).alone = true ∧ (ctx tm0).vectorTeam = true
    ∧ (ctx tm0).splits = true ∧ (ctx tm0).acts un = true ∧ (ctx tm0).tm.lift = .core := ⟨rfl, by decide +kernel⟩

/-- Every scalar instruction stands in the table (with R161 and R168). -/
theorem witness_ScalarResults :
    ∀ i ∈ ([.sAdd ⟨⟨false, 7⟩, 3, .s 1, .s 62⟩, .sSub ⟨⟨true, 2⟩, 4, .s 1, .spec .zero⟩, .sMul ⟨⟨false, 7⟩, 5, .s 1, .spec .lid⟩,
      .sMulh ⟨⟨false, 7⟩, 9, .s 20, .s 63, true⟩, .sAnd ⟨⟨true, 2⟩, 6, .s 1, .spec .tid⟩, .sOr ⟨⟨false, 7⟩, 7, .s 1, .spec .bid⟩,
      .sXor ⟨⟨true, 2⟩, 8, .s 1, .spec .lcnt⟩, .sAndn ⟨⟨false, 7⟩, 9, .s 1, .spec .clock⟩, .sShl ⟨⟨true, 2⟩, 10, .s 1, .s 62⟩,
      .sShr ⟨⟨false, 7⟩, 11, .s 1, .spec .zero⟩, .sSra ⟨⟨true, 2⟩, 12, .s 1, .spec .lid⟩, .sMin ⟨⟨false, 7⟩, 9, .s 22, .s 63, true⟩,
      .sMax ⟨⟨false, 7⟩, 9, .s 24, .s 63, true⟩, .sClz ⟨⟨false, 7⟩, 9, .s 63⟩, .sPopc ⟨⟨false, 7⟩, 9, .s 63⟩,
      .sCmp ⟨⟨false, 7⟩, 5, .s 1, .s 2, true, .lt⟩, .sSel ⟨⟨false, 7⟩, 5, .s 1, .s 2, .s 3⟩, .sMov ⟨⟨false, 7⟩, 9, .s 63⟩,
      .sAddImm ⟨⟨false, 7⟩, 3, .s 40, 5⟩, .sSubImm ⟨⟨false, 7⟩, 4, .s 40, 268435451⟩, .sMulImm ⟨⟨false, 7⟩, 5, .s 40, 134217727⟩,
      .sAndImm ⟨⟨false, 7⟩, 6, .s 40, 134217728⟩, .sOrImm ⟨⟨false, 7⟩, 7, .s 40, 5⟩, .sXorImm ⟨⟨false, 7⟩, 8, .s 40, 268435451⟩,
      .sAndnImm ⟨⟨false, 7⟩, 9, .s 40, 134217727⟩, .sShlImm ⟨⟨false, 7⟩, 10, .s 40, 134217728⟩, .sShrImm ⟨⟨false, 7⟩, 11, .s 40, 5⟩,
      .sSraImm ⟨⟨false, 7⟩, 12, .s 40, 268435451⟩, .sLi ⟨⟨false, 7⟩, 9, 268435451⟩, .pAct ⟨⟨false, 7⟩, 4, 5⟩,
      .longImmediatePrefix ⟨⟨false, 7⟩, .scalar .add 9 (.spec .zero), 4886718345⟩,
      .longImmediatePrefix ⟨⟨false, 7⟩, .scalar .sub 9 (.s 4), 4539628425446424576⟩] : List Instr), (scalarResult (ctx tm0) (st tm0) i).isSome = true := by
  decide +kernel

/-- `ret` and `jmp` have a target in `s62` and `s61`; `waitcnt` meets its thresholds at 0 and at 62 outstanding. -/
def tmRet : Team := { tm0 with s := [(61, 0x20000), (62, 0x1FFFFFFFFFFFFF8)] }

/-- Every control instruction that may act at once stands in the table. -/
theorem witness_ControlTransfers :
    ∀ i ∈ ([.br ⟨⟨true, 2⟩, 262142⟩, .brc ⟨⟨false, 7⟩, 5, 3⟩, .call ⟨⟨false, 7⟩, 62, 30⟩, .loop ⟨⟨false, 7⟩, 6, 262141⟩,
      .ret ⟨⟨false, 7⟩, 62⟩, .jmp ⟨⟨false, 7⟩, 61⟩, .nop ⟨⟨false, 3⟩⟩, .yield ⟨⟨false, 3⟩⟩, .safept ⟨⟨false, 3⟩⟩,
      .waitcnt ⟨⟨false, 7⟩, 63, 0, 62, 61⟩] : List Instr), (controlResult (ctx tmRet) i).isSome = true := by
  decide +kernel

/-- Every predicate instruction but `p.act` stands in the table. -/
theorem witness_PredicateResults :
    ∀ i ∈ ([.pAnd ⟨⟨false, 7⟩, 1, 2, 3⟩, .pOr ⟨⟨false, 7⟩, 1, 2, 3⟩, .pXor ⟨⟨false, 7⟩, 1, 2, 3⟩, .pAndn ⟨⟨false, 7⟩, 1, 2, 3⟩,
      .pNot ⟨⟨false, 7⟩, 1, 7⟩, .pMov ⟨⟨false, 7⟩, 1, 7⟩, .pAny ⟨⟨false, 7⟩, 8, 3⟩, .pAll ⟨⟨false, 7⟩, 8, 3⟩, .pCnt ⟨⟨false, 7⟩, 8, 3⟩,
      .pFirst ⟨⟨false, 7⟩, 8, 3⟩, .pFromv ⟨⟨false, 7⟩, 1, 100⟩, .pTov ⟨⟨false, 7⟩, 100, 1⟩] : List Instr), (predicateResult (ctx tm0) i).isSome = true ∧ (ctx tm0).holds i = true := by
  decide +kernel

/-- Every vector integer arithmetic instruction stands in the table. -/
theorem witness_VectorResults_elements :
    ∀ i ∈ ([.vAdd ⟨⟨false, 7⟩, 3, .v 127, .v 2, .i8⟩, .vSub ⟨⟨false, 7⟩, 3, .zero, .s 63, .i16⟩,
      .vMul ⟨⟨false, 7⟩, 3, .v 127, .spec .lid, .i32⟩, .vMulh ⟨⟨false, 7⟩, 3, .zero, .v 2, .i64⟩,
      .vMad ⟨⟨false, 7⟩, 3, .v 1, .v 2, .s 6, .i16⟩, .vAdds ⟨⟨false, 7⟩, 3, .v 127, .s 63, .n8⟩,
      .vSubs ⟨⟨false, 7⟩, 3, .zero, .spec .lid, .n16⟩, .vAnd ⟨⟨false, 7⟩, 3, .v 127, .v 2, .n32⟩,
      .vOr ⟨⟨false, 7⟩, 3, .zero, .s 63, .n64⟩, .vXor ⟨⟨false, 7⟩, 3, .v 127, .spec .lid, .i8⟩,
      .vAndn ⟨⟨false, 7⟩, 3, .zero, .v 2, .i16⟩, .vShl ⟨⟨false, 7⟩, 3, .v 127, .s 63, .i32⟩,
      .vShr ⟨⟨false, 7⟩, 3, .zero, .spec .lid, .i64⟩, .vSra ⟨⟨false, 7⟩, 3, .v 127, .v 2, .n8⟩,
      .vMin ⟨⟨false, 7⟩, 3, .zero, .s 63, .n16⟩, .vMax ⟨⟨false, 7⟩, 3, .v 127, .spec .lid, .n32⟩, .vAbs ⟨⟨false, 7⟩, 3, .v 1, .i32⟩,
      .vClz ⟨⟨false, 7⟩, 3, .v 1, .i32⟩, .vPopc ⟨⟨false, 7⟩, 3, .v 1, .i32⟩, .vMov ⟨⟨false, 7⟩, 3, .s 5, .i64⟩,
      .vAddImm ⟨⟨false, 7⟩, 2, 64, .w4, 3⟩, .vSubImm ⟨⟨false, 7⟩, 2, 64, .w8, 33554429⟩,
      .vMulImm ⟨⟨false, 7⟩, 2, 64, .w16, 3⟩, .vAndImm ⟨⟨false, 7⟩, 2, 64, .w32, 33554429⟩,
      .vOrImm ⟨⟨false, 7⟩, 2, 64, .w64, 3⟩, .vXorImm ⟨⟨false, 7⟩, 2, 64, .w4, 33554429⟩,
      .vAndnImm ⟨⟨false, 7⟩, 2, 64, .w8, 3⟩, .vShlImm ⟨⟨false, 7⟩, 2, 64, .w16, 33554429⟩,
      .vShrImm ⟨⟨false, 7⟩, 2, 64, .w32, 3⟩, .vSraImm ⟨⟨false, 7⟩, 2, 64, .w64, 33554429⟩, .vLi ⟨⟨false, 7⟩, 4, .w64, 63⟩] : List Instr), (elementResult (ctx tm0) (st tm0) i).isSome = true ∧ (ctx tm0).holds i = true := by
  decide +kernel

/-- So do the forms that select, move, compute in floats, or carry LIMM. -/
theorem witness_VectorResults_lanes :
    ∀ i ∈ ([.vSel ⟨⟨false, 7⟩, 3, .v 1, .v 2, .p 4, .n32⟩, .vPack ⟨⟨false, 7⟩, 3, .v 1, .v 2, .n16⟩, .vUnpk ⟨⟨false, 7⟩, 3, .v 1, .v 2, .n32⟩,
      .vExt ⟨⟨false, 7⟩, 3, .zero, .v 2, .n64⟩, .vIns ⟨⟨false, 7⟩, 3, .v 1, .v 2, .v 4, .i16⟩,
      .vFadd ⟨⟨false, 7⟩, 5, 1, .v 2, .f32, .rtz⟩, .vFsub ⟨⟨false, 7⟩, 5, 1, .v 2, .f16, .rdn⟩,
      .vFmul ⟨⟨false, 7⟩, 5, 1, .v 2, .bf16, .rup⟩, .vFma ⟨⟨false, 7⟩, 5, 1, .v 2, .v 4, .bf16, .rtz⟩,
      .vFmin ⟨⟨false, 7⟩, 5, 1, .s 2, .f16⟩, .vFmax ⟨⟨false, 7⟩, 5, 1, .s 2, .f16⟩, .vFabs ⟨⟨false, 7⟩, 5, 1, .f16⟩,
      .vFneg ⟨⟨false, 7⟩, 5, 1, .f16⟩, .vFclass ⟨⟨false, 7⟩, 5, 1, .f16⟩, .vShfl ⟨⟨false, 7⟩, 7, 3, .v 9, .n32⟩,
      .vBcst ⟨⟨false, 7⟩, 7, 3, .s 9, .i8⟩, .vPerm ⟨⟨false, 7⟩, 7, 3, .s 9, .e3m2⟩,
      .longImmediatePrefix ⟨⟨false, 7⟩, .vint .add 7 (.v 0) .i16, 4539628425446424576⟩,
      .longImmediatePrefix ⟨⟨false, 7⟩, .vint (.sel (.p 4)) 7 (.v 1) .i32, 4539628425446424576⟩,
      .longImmediatePrefix ⟨⟨false, 7⟩, .vint (.ins (.s 4)) 7 (.v 1) .i32, 4539628425446424576⟩,
      .longImmediatePrefix ⟨⟨false, 7⟩, .vfloat (.fadd .rdn) 2 3 .f32, 4539628425446424576⟩,
      .longImmediatePrefix ⟨⟨false, 7⟩, .vfloat (.fma (.v 4) .rup) 2 3 .f16, 4539628425446424576⟩] : List Instr), (laneResult (ctx tm0) (st tm0) i).isSome = true ∧ (ctx tm0).holds i = true := by
  decide +kernel

/-- After `v.adds.i8` a next state stands, with the team in it. -/
theorem witness_VectorResults_read :
    (elementResult (ctx tm0) (st tm0) (.vAdds ⟨un, 3, .v 1, .v 2, .i8⟩)).isSome = true
      ∧ (after (exec (.vAdds ⟨un, 3, .v 1, .v 2, .i8⟩) (st tm0))).isSome = true := by decide +kernel

/-- The compares, with a vector and with a predicate destination, and carried. -/
theorem witness_CompareResults :
    ∀ i ∈ ([.vCmp ⟨⟨false, 7⟩, .p 2, .v 1, .s 8, .i64, .eq⟩, .vCmp ⟨⟨false, 7⟩, .v 9, .v 1, .s 8, .i64, .ne⟩,
      .vFcmp ⟨⟨false, 7⟩, .p 1, 1, .v 2, .f32, .eq⟩,
      .longImmediatePrefix ⟨⟨false, 7⟩, .vcmp (.p 3) (.v 1) .i32 .gt, 4539628425446424576⟩,
      .longImmediatePrefix ⟨⟨false, 7⟩, .vfcmp (.p 1) 3 .f32 .ord, 4539628425446424576⟩] : List Instr), (compareResult (ctx tm0) (st tm0) i).isSome = true ∧ (ctx tm0).holds i = true := by
  decide +kernel

/-- Scans and reductions stand in the table; every mode of `v.vote` is covered by `witness_issuer`. -/
theorem witness_VoteAndScanResults :
    ∀ i ∈ ([.vScan ⟨⟨false, 7⟩, 1, 2, .add, false, .i32⟩, .vScan ⟨⟨false, 7⟩, 1, 2, .min, true, .i32⟩, .vRed ⟨⟨false, 7⟩, 1, 2, .add, .n64⟩] : List Instr), (scanResult i).isSome = true ∧ (ctx tm0).holds i = true := by
  decide +kernel

/-! ### Witnesses: conversions, divergence, system words, traps -/

/-- The groups of a conversion lie in the team's allotment (R186). -/
def fits (tm : Team) (i : Instr) : Bool :=
  match convertResult (ctx tm) i with
  | some (_, d, a, sc, _) => decide (d.1.toNat + d.2 ≤ 8 * tm.G) && decide (a.1.toNat + a.2 ≤ 8 * tm.G) && sc.all fun r => decide (r.toNat < 8 * tm.G)
  | none => false
/-- Every conversion, one with its groups at the end of the allotment, and one of a team of one granule. -/
theorem witness_ConversionResults :
    (∀ i ∈ ([.vCvti ⟨⟨false, 7⟩, 6, 8, .f16, .i4, .mode .rdn⟩, .vCvtf ⟨⟨false, 7⟩, 6, 8, .n32, .f16, .mode .rup⟩,
      .vDqt ⟨⟨false, 7⟩, 10, 12, 20, 1, .i8, .mode .rtz⟩, .vCbenc ⟨⟨false, 7⟩, 3, 4, true⟩,
      .vCvt ⟨⟨false, 7⟩, 6, 8, .bf16, .e4m3, .mode .rne⟩, .vCvt ⟨⟨false, 7⟩, 6, 8, .f32, .e5m2, .sr 4⟩,
      .vQnt ⟨⟨false, 7⟩, 10, 12, 20, 3, .e2m1, .sr 4⟩, .vCvt ⟨⟨false, 7⟩, 127, 126, .bf16, .e4m3, .mode .rup⟩,
      .vCvt ⟨⟨false, 7⟩, 112, 126, .o4, .f32, .mode .rne⟩] : List Instr), fits tm0 i = true)
      ∧ fits { tm0 with G := 1 } (.vCvt ⟨un, 7, 6, .bf16, .e4m3, .mode .rne⟩) = true := by
  decide +kernel

theorem witness_SpecialFunctionIssue : ∀ i ∈ ([.vFrcp ⟨⟨false, 7⟩, 3, 5, 1, .f32⟩, .vFrsq ⟨⟨false, 7⟩, 3, 5, 1, .f32⟩, .vFsqrt ⟨⟨false, 7⟩, 15, 5, 1, .f32, .rup⟩,
      .vFexp2 ⟨⟨false, 7⟩, 3, 5, 1, .f32⟩, .vFlog2 ⟨⟨false, 7⟩, 3, 5, 1, .f32⟩] : List Instr), (specialResult i).isSome = true ∧ (ctx tm0).holds i = true := by
  decide +kernel

/-- `p2` holds in lanes 0 to 3. -/
def tmP : Team := { tm0 with p := [(2, 0xF)] }
/-- The lanes that a branch or a break takes and leaves, and where it goes (R39, R43), as `DivergenceResults` names them. -/
def taken (tm : Team) (g : Guard) (p : PReg) : Mask × Mask :=
  ((ctx tm).lanes g &&& tm.preg p.toNat, (ctx tm).f.mask &&& ~~~((ctx tm).lanes g &&& tm.preg p.toNat))
/-- The issuer conditions of `DivergenceResults`, and each of its cases: all lanes taken (`p7`), none (`p3`), some with both paths at the
reconvergence address, some with different paths; a break of all, of none, to the next instruction, and of some; an exit of some and of all. -/
theorem witness_DivergenceResults :
    ((st tmP).issuer = some (ctx tmP) ∧ (ctx tmP).calm = true ∧ (ctx tmP).splits = true ∧ (ctx tmP).alone = true)
    ∧ (taken tmP un 7).2 = 0 ∧ ((taken tmP un 3).1 = 0 ∧ (taken tmP un 3).2 ≠ 0) ∧ ((taken tmP un 2).1 ≠ 0 ∧ (taken tmP un 2).2 ≠ 0)
    ∧ ((ctx tmP).branchTo 1 = (ctx tmP).f.pc + 8 ∧ (ctx tmP).branchTo 9 ≠ (ctx tmP).f.pc + 8)
    ∧ (ctx tmP).lanes ⟨false, 2⟩ = 0xF ∧ (ctx tmP).f.mask &&& ~~~(ctx tmP).lanes ⟨false, 2⟩ ≠ 0
    ∧ (ctx tmP).f.mask &&& ~~~(ctx tmP).lanes un = 0 := ⟨⟨rfl, by decide +kernel⟩, by decide +kernel⟩

/-- Registers for the system and capability words: `s10` to `s12` are the greatest values of PRIO, `FPFLAGS` and `TRAPVEC`, `c2` a buffer
capability of 0x1000 bytes of which `s4` and `s5` name the upper half, `s6` all permissions. -/
def tmR : Team :=
  { tm0 with s := [(4, 0x800), (5, 0x800), (6, 63), (10, 3), (11, 63), (12, 0x1FFFFFFFFFFFFF8)]
             c := [(2, (mkCap 0x20000 0x1000 63 0 0, true))] }
theorem witness_RegisterResults :
    ((st tmR).issuer = some (ctx tmR) ∧ (ctx tmR).calm = true ∧ (ctx tmR).tm.lift = .core)
    ∧ (∀ i ∈ ([.cGet ⟨⟨false, 7⟩, 10, 1, 6⟩, .cTag ⟨⟨false, 7⟩, 10, 1⟩, .cMov ⟨⟨false, 7⟩, 10, 1⟩, .cMk ⟨⟨false, 7⟩, 10, 1, 2⟩,
      .brk ⟨⟨false, 7⟩, 4660⟩, .csrr ⟨⟨false, 7⟩, 7, .teamstat⟩, .csrr ⟨⟨false, 7⟩, 7, .allot⟩, .csrr ⟨⟨false, 7⟩, 7, .prio⟩,
      .csrr ⟨⟨false, 7⟩, 7, .fpflags⟩, .csrr ⟨⟨false, 7⟩, 7, .stbcnt⟩, .csrr ⟨⟨false, 7⟩, 7, .sigacc⟩, .csrr ⟨⟨false, 7⟩, 7, .trapvec⟩,
      .csrr ⟨⟨false, 7⟩, 7, .trapcause⟩, .csrr ⟨⟨false, 7⟩, 7, .trappc⟩, .csrr ⟨⟨false, 7⟩, 7, .trapword⟩,
      .csrr ⟨⟨false, 7⟩, 7, .faultstat⟩, .csrr ⟨⟨false, 7⟩, 7, .bbase⟩, .csrr ⟨⟨false, 7⟩, 7, .rowprog⟩, .csrw ⟨⟨false, 7⟩, 7, .prio⟩,
      .csrw ⟨⟨false, 7⟩, 7, .fpflags⟩, .csrw ⟨⟨false, 7⟩, 7, .trapvec⟩, .csrw ⟨⟨false, 7⟩, 10, .prio⟩,
      .csrw ⟨⟨false, 7⟩, 11, .fpflags⟩, .csrw ⟨⟨false, 7⟩, 12, .trapvec⟩, .cNarrow ⟨⟨false, 7⟩, 9, 2, 4, 5⟩,
      .cPerm ⟨⟨false, 7⟩, 9, 2, 6⟩, .shrink ⟨⟨false, 7⟩, 15⟩, .sigChk ⟨⟨false, 7⟩, 0xFFFFFFFF⟩] : List Instr), (registerResult (ctx tmR) (st tmR) i).isSome = true)
    ∧ (registerResult (ctx { tmR with G := 8 }) (st { tmR with G := 8 }) (.allot ⟨un, 8, 8⟩)).isSome = true := by
  refine ⟨⟨rfl, ?_⟩, ?_, ?_⟩ <;> decide +kernel

/-- An interface that allows debugging, with three of its partitions stopped on another core. -/
def stDbg : State :=
  { st tm0 with ifaces := [(0, { Iface.init with victl := 2 })]
                cores := (st tm0).cores ++ [(1, { Core.init with block := some { blkOf tm0 with parts :=
                  [(1, { Part.init with stopped := some 0 }), (2, { Part.init with stopped := some 1 }), (3, { Part.init with stopped := some 2 })] } })] }
theorem witness_SignatureAndBreak :
    ((ctx tm0).acts un = true ∧ (ctx tm0).tm.frags.length = 1 ∧ (ctx tm0).tm.sigacc ≠ 0x1234ABCD)
    ∧ stDbg.issuer = some (ctx tm0) ∧ (stDbg.iface 0).victl.toNat.testBit 1 = true ∧ stDbg.stoppedOf 0 = 3
    ∧ paOk (stDbg.iface 0).saveArea = true ∧ paOk ((stDbg.iface 0).saveArea + 2 ^ 23 - 1) = true :=
  ⟨by decide +kernel, rfl, by decide +kernel⟩
/-- A team of eight granules; `s1` to `s3` ask `rolesw` for eight, for one and for sixteen, `s4` names the next instruction's address. -/
def tmG : Team := { tm0 with G := 8, s := [(1, 14), (2, 0x301), (3, 0x1E), (4, 0x1FFFFFFFFFFFFF8)] }
/-- Its fragment parked in `grow 8`, last in what its partition's pool holds. -/
def fG : Frag := { fr0 with hold := .grow }
def tmG1 : Team := { tmG with frags := [fG] }
def blkG : Block := { blkOf tmG1 with parts := [(0, { Part.init with csnNext := 1, grants := [(0, 0, 8)] })] }
theorem witness_ResourceForms :
    ((st tmG).issuer = some (ctx tmG) ∧ (ctx tmG).calm = true ∧ (ctx tmG).alone = true ∧ (ctx tmG).acts un = true ∧ (ctx tmG).tm.lift = .core)
    ∧ ((8 : BitVec 28).toInt = 8 ∧ (ctx tmG).tm.G + 8 + (ctx tmG).b.pendingGrants 0 = 16)
    ∧ ((stB blkG 0).block 0 = some blkG ∧ (blkG.part 0).grants = [(0, 0, 8)] ∧ AMap.find? blkG.teams 0 = some tmG1 ∧ tmG1.frags = [fG] ∧ tmG1.halted = false
        ∧ fG.csn = 0 ∧ fG.hold = .grow ∧ fG.linkv = false ∧ fG.mask ≠ 0 ∧ fG.hollow = false ∧ 64 * tmG1.L * 8 ≤ blkG.pool 0)
    ∧ (targetOk (tmG.sreg 4) = true ∧ ∀ r ∈ [1, 2, 3], let w := (tmG.sreg r).toNat
        w = bits w 0 5 + bits w 8 2 * 2 ^ 8)
    ∧ (bits (tmG.sreg 1).toNat 1 4 + 1 = 8 ∧ bits (tmG.sreg 2).toNat 1 4 + 1 = 1 ∧ bits (tmG.sreg 3).toNat 1 4 + 1 = 16) := by
  refine ⟨⟨rfl, ?_⟩, ?_⟩ <;> decide +kernel

/-- Registers that every instruction of `trapCause` finds at fault: `s7` the least values that no control register takes, `s8` an address that is
not aligned, `s9` one beyond 57 bits, `s13` a value of 17 bits, `c3` a set handle, `c2` a buffer of 0x1000 bytes. -/
def tmT : Team :=
  { tm0 with s := [(4, 0x801), (5, 0x800), (6, 64), (7, 4), (8, 0x10004), (9, 0x200000000000000), (13, 0x10000), (14, 0x20), (15, 0x80)]
             c := [(2, (mkCap 0x20000 0x1000 63 0 0, true)), (3, (mkCap 0x20000 0x1000 3 3 0, true))] }
/-- Its block, not privileged, with turnstile 3 abandoned and no carousel. -/
def blkT : Block := { blkOf tmT with priv := false, ts := [(3, { exp := 1, arr := 0, ph := false, abandoned := true })] }
theorem witness_TrapsTaken :
    ((stB blkT 0).issuer = some (ctxB blkT tmT fr0 0) ∧ (ctxB blkT tmT fr0 0).calm = true ∧ (ctxB blkT tmT fr0 0).tm.lift = .core
      ∧ (ctxB blkT tmT fr0 0).acts un = true)
    ∧ ∀ i ∈ ([.trap ⟨⟨false, 7⟩, 0⟩, .eret ⟨⟨false, 7⟩⟩, .ret ⟨⟨false, 7⟩, 8⟩, .jmp ⟨⟨false, 7⟩, 9⟩, .csrw ⟨⟨false, 7⟩, 7, .prio⟩,
      .csrw ⟨⟨false, 7⟩, 6, .fpflags⟩, .csrw ⟨⟨false, 7⟩, 7, .trapvec⟩, .csrw ⟨⟨false, 7⟩, 9, .trapvec⟩,
      .csrw ⟨⟨false, 7⟩, 0, .teamstat⟩, .csrw ⟨⟨false, 7⟩, 9, .sigacc⟩, .allot ⟨⟨false, 7⟩, 8, 1⟩, .grow ⟨⟨false, 7⟩, 0⟩, .grow ⟨⟨false, 7⟩, 1⟩, .shrink ⟨⟨false, 7⟩, 16⟩,
      .shrink ⟨⟨false, 7⟩, 0⟩, .rolesw ⟨⟨false, 7⟩, 1, 0, 8⟩, .rolesw ⟨⟨false, 7⟩, 1, 14, 0⟩, .cNarrow ⟨⟨false, 7⟩, 9, 3, 0, 0⟩,
      .cNarrow ⟨⟨false, 7⟩, 9, 2, 4, 5⟩, .cPerm ⟨⟨false, 7⟩, 9, 2, 6⟩, .cMk ⟨⟨false, 7⟩, 9, 0, 0⟩, .tsInit ⟨⟨false, 7⟩, 3, 13⟩,
      .tsWait ⟨⟨false, 7⟩, 3, 0⟩, .tsArrw ⟨⟨false, 7⟩, 3⟩, .crInit ⟨⟨false, 7⟩, 0, 15⟩, .crInit ⟨⟨false, 7⟩, 0, 0⟩,
      .crWait ⟨⟨false, 7⟩, 0, true, 1⟩, .crPass ⟨⟨false, 7⟩, 0, true, false⟩] : List Instr),
        (trapCause (ctxB blkT tmT fr0 0) i).isSome = true := by
  refine ⟨⟨rfl, ?_⟩, ?_⟩ <;> decide +kernel

/-- A handler stands at 0x8000; a team in its handler; the greatest fields of a cause word. -/
theorem witness_TrapEntry :
    ((st { tm0 with trapvec := 0x8000 }).block 0 = some (blkOf { tm0 with trapvec := 0x8000 })
      ∧ (st { tm0 with trapvec := 0x8000 }).team 0 0 = some { tm0 with trapvec := 0x8000 }
      ∧ ({ tm0 with trapvec := 0x8000 } : Team).frag 0 = some fr0)
    ∧ wordLen 0 = 8 ∧ fr0.pc < 2 ^ 57 ∧ wordLen 0xFC00789E_80100000 = 16
    ∧ (255 < 256 ∧ 15 < 16 ∧ 65535 < 65536 ∧ 1023 < 1024) := by decide +kernel
theorem witness_TrapHalts :
    ((st tm0).block 0 = some (blkOf tm0) ∧ (st tm0).team 0 0 = some tm0 ∧ tm0.frag 0 = some fr0 ∧ tm0.halted = false ∧ tm0.trapvec = 0)
    ∧ ({ tm0 with trapvec := 0x8000, handler := true } : Team).frag 0 = some fr0 := by decide +kernel
theorem witness_TrapEntry_return :
    (st { tm0 with handler := true }).issuer = some (ctx { tm0 with handler := true }) ∧ (ctx { tm0 with handler := true }).calm = true
      ∧ (ctx { tm0 with handler := true }).alone = true ∧ (ctx { tm0 with handler := true }).acts un = true := ⟨rfl, by decide +kernel⟩
/-- A copy team meets the vector forms, a vector team the appends, a team of one granule `v8`. -/
theorem witness_ReservedRoleAndAllotTraps :
    (let c := ctx { tm0 with copy := true }
     let s := st { tm0 with copy := true }
     s.issuer = some c ∧ c.calm = true ∧ c.tm.lift = .core ∧ (elementResult c s (.vAdd ⟨un, 3, .v 1, .v 2, .i8⟩)).isSome = true
      ∧ (laneResult c s (.vFabs ⟨un, 3, 1, .f32⟩)).isSome = true ∧ (compareResult c s (.vCmp ⟨un, .p 1, .v 1, .v 2, .i8, .eq⟩)).isSome = true
      ∧ (convertResult c (.vCvt ⟨un, 3, 1, .bf16, .f32, .mode .rne⟩)).isSome = true ∧ (specialResult (.vFrcp ⟨un, 0, 3, 1, .f32⟩)).isSome = true
      ∧ (scanResult (.vScan ⟨un, 3, 1, .add, false, .i8⟩)).isSome = true)
    ∧ (let c := ctx { tm0 with G := 1 }
       let s := st { tm0 with G := 1 }
       s.issuer = some c ∧ c.calm = true ∧ c.vectorTeam = true ∧ c.holds (.vAdd ⟨un, 7, .v 0, .v 7, .i8⟩) = true
        ∧ (vectorNames (.vAdd ⟨un, 3, .v 8, .v 127, .i8⟩)).find? (fun x => decide (8 * c.tm.G ≤ x.2)) = some (6, 8)
        ∧ (vectorNames (.vCvt ⟨un, 7, 1, .bf16, .f32, .mode .rne⟩)).find? (fun x => decide (8 * c.tm.G ≤ x.2)) = some (5, 8)
        ∧ (vectorNames (.vAtomAdd ⟨un, 0, 6, 2, .lid, 127, 3, .plain, .i64⟩)).find? (fun x => decide (8 * c.tm.G ≤ x.2)) = some (8, 127))
    ∧ (let c := ctx { tm0 with G := 1, lift := .up 3 0 0 }
       let s := st { tm0 with G := 1, lift := .up 3 0 0 }
       s.issuer = some c ∧ c.calm = true ∧ c.tm.copy = false
        ∧ (vectorNames (.bAccRd ⟨un, 0, 8, 13⟩)).find? (fun x => decide (8 * c.tm.G ≤ x.2)) = some (5, 8)) :=
  ⟨⟨rfl, by decide +kernel⟩, ⟨rfl, by decide +kernel⟩, ⟨rfl, by decide +kernel⟩⟩

/-! ### Witnesses: memory forms -/

/-- `c0` names the scratchpad, `c2` the page of 64 KiB at 0x10000, `c3` subarray 1 of the scratchpad, `c4` a queue header; `s4` = 8. -/
def tmM : Team :=
  { tm0 with s := [(4, 8)]
             c := [(0, (mkCap 0 0x10000 63 1 0, true)), (2, (mkCap 0x10000 0x10000 63 0 0, true)), (3, (mkCap 0x8000 0x8000 63 1 0, true)),
                   (4, (mkCap 0x10000 64 63 4 0, true))]
             v := [(3 * 1024 + 31, 0xFFF8), (4 * 1024 + 31, 0xFFF7)] }
/-- Its core holds the translation of the page, writable and dirty. -/
def stM : State :=
  { State.reset with cores := [(0, { Core.init with block := some (blkOf tmM), tlb := [{ e0 with w := true, d := true }] })]
                     acting := .frag 0 0 0 0 }
/-- The lanes of an access are allowed and located. -/
def located (x : Access) (wr : Bool) : Bool :=
  (x.cause tmM).isNone && match (ctx tmM).locate stM x wr with
    | .ok _ => true
    | .wait _ => false
/-- A load, a store or an atomic of `stM` meets the premises of its statement. -/
def memOk (i : Instr) : Bool :=
  let c := ctx tmM
  match loadForm c i, storeForm c i, atomForm i with
  | some (g, _, _, x, _, _, _, none, _), _, _ => located (x (c.lanes g)) false
  | some (g, _, _, x, _, _, _, some _, _), _, _ =>
    (Access.cause tmM (x (c.lanes g))).isNone && match c.locateRp (tmM.creg (x (c.lanes g)).cap).1 (x (c.lanes g)).addrs stM [] with
      | .ok ls _ => ls.all fun a => match a.loc with
        | .sp _ o => (blkOf tmM).present o (x (c.lanes g)).n
        | .pa _ => true
      | _ => false
  | _, some (g, _, x, _, _), _ => located (x (c.lanes g)) true
  | _, _, some (o, _) =>
    located (laneAccess c o.cap (permRD + permWR + permAT) (match o.ty with
      | .i64 | .n64 => 8
      | _ => 4) (c.srcVI o.idx) 0 o.scale (lanesOf c.tm.L (c.lanes o.g))) true
  | _, _, _ => false
theorem witness_memory_issuer : stM.issuer = some (ctx tmM) ∧ (ctx tmM).calm = true ∧ (ctx tmM).vectorTeam = true
    ∧ (ctx tmM).acts un = true ∧ (ctx tmM).drained stM = true ∧ (ctx tmM).tm.lift = .core := ⟨rfl, by decide +kernel⟩
/-- Every load: from the scratchpad, from the last doubleword of the page in lane 31, with an acquire, with a residency predicate. -/
theorem witness_LoadsIssue : ∀ i ∈ ([.sLd ⟨un, 2, 9, 0, .s 4, 8, 3, .acq .dev, .i16⟩, .sLd ⟨un, 0, 9, 2, .zero, 0, 0, .plain, .n64⟩,
      .cLd ⟨un, 0, 9, 2, .zero, 0, 0, .plain⟩, .vLd ⟨un, 4, 8, 0, .lid, 0, 3, .plain, .b64, none⟩,
      .vLd ⟨un, 15, 8, 2, .v 3, 0, 0, .acq .clu, .b64, none⟩, .vLd ⟨un, 4, 8, 2, .lid, 0, 2, .plain, .b32, some 3⟩,
      .vLd ⟨un, 4, 8, 0, .lid, 0, 0, .plain, .b8, some 6⟩, .vLdb ⟨un, 0, 8, 2, .s 4, 0, 1, .plain, .b16, none⟩,
      .vLdb ⟨un, 0, 8, 0, .zero, 0, 1, .plain, .b16, some 0⟩] : List Instr), memOk i = true ∧ (ctx tmM).holds i = true := by
  decide +kernel

/-- Every store and every atomic. -/
theorem witness_StoresAndAtomicsIssue : ∀ i ∈ ([.sSt ⟨un, 0, 9, 0, .s 4, 8, 3, .rel .dev, .b64⟩, .cSt ⟨un, 0, 0, 2, .zero, 16, 0, .plain⟩,
      .vSt ⟨un, 0, 8, 2, .v 3, 0, 0, .rel .blk, .b64⟩, .vSt ⟨un, 0, 8, 0, .lid, 0, 0, .plain, .b8⟩,
      .vAtomAdd ⟨un, 0, 6, 2, .lid, 7, 3, .ar .dev, .i64⟩, .vAtomMin ⟨un, 0, 6, 2, .lid, 7, 3, .ar .dev, .i32⟩,
      .vAtomMax ⟨un, 0, 6, 2, .lid, 7, 3, .ar .dev, .n32⟩, .vAtomAnd ⟨un, 0, 6, 2, .lid, 7, 3, .ar .dev, .n64⟩,
      .vAtomOr ⟨un, 0, 6, 2, .lid, 7, 3, .ar .dev, .i64⟩, .vAtomXor ⟨un, 0, 6, 2, .lid, 7, 3, .ar .dev, .n64⟩,
      .vAtomXchg ⟨un, 0, 6, 2, .lid, 7, 3, .ar .dev, .n32⟩, .vAtomCas ⟨un, 0, 6, 2, .lid, 7, 3, .ar .dev, .n64⟩,
      .vAtomFadd ⟨un, 0, 6, 0, .lid, 7, 2, .plain, .f32⟩] : List Instr),
    memOk i = true ∧ (ctx tmM).holds i = true := by
  decide +kernel

/-- The first cause of an access through a capability of tmM's, with other capabilities beside them: `c10` untagged, `c11` a set handle, `c12` without
permissions, `c2` at its last doubleword and one byte beyond, and not aligned. -/
def tmC : Team :=
  { tmM with c := tmM.c ++ [(10, (mkCap 0x10000 0x10000 63 0 0, false)), (11, (mkCap 0x10000 0x10000 63 3 0, true)), (12, (mkCap 0x10000 0x10000 0 0 0, true))] }
def acc (cap : Nat) (a : Int) : Access := { cap, perm := permRD, n := 8, align := 8, addrs := [(0, a)] }
theorem witness_AccessTraps :
    ((st tmC).issuer = some (ctx tmC) ∧ (ctx tmC).calm = true ∧ (ctx tmC).vectorTeam = true)
    ∧ (∀ i ∈ ([.sLd ⟨un, 0, 9, 10, .zero, 0, 0, .plain, .n64⟩, .cLd ⟨un, 0, 9, 11, .zero, 0, 0, .plain⟩, .vLd ⟨un, 0, 9, 12, .lid, 0, 3, .plain, .b64, none⟩,
          .vLd ⟨un, 0, 9, 2, .v 4, 0, 0, .plain, .b64, some 3⟩, .vLdb ⟨un, 0, 9, 2, .zero, 248, 0, .plain, .b64, none⟩] : List Instr),
        (match loadForm (ctx tmC) i with
          | some (g, _, _, x, _) => (Access.cause tmC (x ((ctx tmC).lanes g))).isSome
          | none => false) = true)
    ∧ (∀ i ∈ ([.sSt ⟨un, 0, 9, 10, .zero, 0, 0, .plain, .b64⟩, .cSt ⟨un, 0, 9, 2, .zero, 8, 0, .plain⟩, .vSt ⟨un, 0, 9, 2, .lid, 1, 3, .plain, .b64⟩] : List Instr),
        (match storeForm (ctx tmC) i with
          | some (g, _, x, _) => (Access.cause tmC (x ((ctx tmC).lanes g))).isSome
          | none => false) = true)
    ∧ ((tmC.creg 10).2 = false ∧ (tmC.creg 11).2 = true ∧ (acc 11 0).kinds.contains (capKind (tmC.creg 11).1) = false
        ∧ (acc 12 0).kinds.contains (capKind (tmC.creg 12).1) = true ∧ permOk (capPerm (tmC.creg 12).1) permRD = false
        ∧ permOk (capPerm (tmC.creg 2).1) permRD = true ∧ capBase (tmC.creg 2).1 = 0x10000 ∧ capLen (tmC.creg 2).1 = 0x10000
        ∧ (Access.cause tmC (acc 2 0x1FFF8)) = none ∧ (Access.cause tmC (acc 2 0x1FFF9)).map (fun r => r.1) = some 0x13
        ∧ (Access.cause tmC (acc 2 0xFFFF)).map (fun r => r.1) = some 0x13 ∧ (Access.cause tmC (acc 2 0x1FFF4)).map (fun r => r.1) = some 0x14) := by
  refine ⟨⟨rfl, ?_⟩, ?_⟩ <;> decide +kernel
/-- Fences at every scope: with and without a lane, at bank scope through `c2`, at array scope through `c3`. -/
theorem witness_FenceCompletes :
    (ctx tmM).lanes ⟨false, 3⟩ = 0 ∧ (ctx tmM).lanes un ≠ 0
    ∧ (Access.cause tmM { onceAccess (ctx tmM) 2 0 1 (.s 4) 0 0 with kinds := [0, 2] } = none ∧ stM.hit 0 tmM 0 0x10008 false = some 0x10008)
    ∧ (Access.cause tmM { onceAccess (ctx tmM) 3 0 1 .zero 0 0 with kinds := [1], align := 32768 } = none ∧ arrClear (blkOf tmM) 1 = true) := by
  decide +kernel

/-! ### Witnesses: turnstiles, queues, pages, sets, arrays, banks -/

/-- Turnstile 8 expects one arrival, turnstile 9 two, 10 has flipped; carousel 0 has two stages on 0 to 3 with stage 0 full and empty. -/
def blkS (tm : Team) : Block :=
  { blkOf tm with
    ts := [(0, { exp := 1, arr := 0, ph := true, abandoned := false }), (1, { exp := 1, arr := 0, ph := false, abandoned := false }),
           (8, { exp := 1, arr := 0, ph := false, abandoned := false }), (9, { exp := 2, arr := 0, ph := false, abandoned := false }),
           (10, { exp := 1, arr := 0, ph := true, abandoned := false })]
    cr := [(0, { first := 0, n := 2 })] }
/-- `s5` sets up a carousel of eight stages on all turnstiles, `s6` one of two; `s7` the greatest count of `ts.init`. -/
def tmS : Team := { tm0 with s := [(5, 0x100000170), (6, 0x1000110), (7, 0xFFFF)] }
theorem witness_SyncForms :
    ((stB (blkS tmS) 0).issuer = some (ctxB (blkS tmS) tmS fr0 0) ∧ (ctxB (blkS tmS) tmS fr0 0).calm = true
      ∧ (ctxB (blkS tmS) tmS fr0 0).tm.lift = .core ∧ (ctxB (blkS tmS) tmS fr0 0).drained (stB (blkS tmS) 0) = true
      ∧ (ctxB (blkS tmS) tmS fr0 0).acts un = true)
    ∧ (∀ i ∈ ([.tsInit ⟨un, 8, 7⟩, .tsArrive ⟨un, 8⟩, .tsWait ⟨un, 10, 0⟩, .tsArrw ⟨un, 8⟩, .tsQuery ⟨un, 9, 15⟩, .crInit ⟨un, 3, 6⟩,
          .crWait ⟨un, 0, true, 12⟩, .crWait ⟨un, 0, false, 12⟩, .crPass ⟨un, 0, true, true⟩, .crPass ⟨un, 0, false, false⟩] : List Instr),
        (syncResult (ctxB (blkS tmS) tmS fr0 0) (stB (blkS tmS) 0) i).isSome = true)
    ∧ (((blkS tmS).turnstile 8).arr + 1 = ((blkS tmS).turnstile 8).exp ∧ ((blkS tmS).turnstile 9).arr + 1 ≠ ((blkS tmS).turnstile 9).exp
        ∧ ((blkS tmS).turnstile 11).exp = 0 ∧ ((blkS tmS).turnstile 8).ph = (tmS.sreg 0).getLsbD 0 ∧ ((blkS tmS).turnstile 9).exp ≠ 0) := by
  refine ⟨⟨rfl, ?_⟩, ?_⟩ <;> decide +kernel
/-- A copy team with a packet in `s16` to `s23` (KIND 3) and eight indices in `s24` to `s27`; its queue's header at 0x10000, through `c4`. -/
def tmQ : Team := { tmM with copy := true, s := [(16, 3), (24, 0x00FFFFFF00000001)] }
def stQ (tm : Team) (mem : Memory) : State :=
  { State.reset with cores := [(0, { Core.init with block := some (blkOf tm), tlb := [{ e0 with w := true, d := true }] })]
                     acting := .frag 0 0 0 0, mem := mem }
/-- A claim not yet answered, one answered that there is no slot, one answered with a slot. -/
def claim (x : Option (Option (Nat × Nat × Bool))) : Claim :=
  { csn := 0, d := 2, q := 0x10000, pa := 0x10000, seq := 0, answer := x, pc := 0x10000, word := 0, lane := 0, hnd := false }
def frP : Frag := { fr0 with hold := .poll 0 }
def tmCl (x : Option (Option (Nat × Nat × Bool))) : Team := { tmQ with claim := some (claim x), frags := [frP] }
theorem witness_AppendForms :
    ((stQ tmQ Memory.init).issuer = some (ctx tmQ) ∧ (ctx tmQ).calm = true ∧ (ctx tmQ).copyTeam = true ∧ (ctx tmQ).acts un = true
      ∧ (packetOf tmQ (.cpyPut ⟨un, 2, 4, 56⟩)).isSome = true ∧ (packetOf tmQ (.cpyIdx ⟨un, 2, 4, 16, 24⟩)).isSome = true ∧ tmQ.claim = none
      ∧ Access.cause tmQ (queueAccess (ctx tmQ) 4) = none ∧ tmQ.cpycnt ≠ 65535
      ∧ (stQ tmQ Memory.init).hit 0 tmQ 0 0x10000 true = some 0x10000 ∧ Access.cause { tmQ with cpycnt := 65535 } (queueAccess (ctx tmQ) 4) = none)
    ∧ ((stQ (tmCl none) Memory.init).team 0 0 = some (tmCl none) ∧ (stQ (tmCl none) Memory.init).poisonedAt (.pa 0x10000) 32 = false
        ∧ (stQ (tmCl none) Memory.init).dw 0x10000 = 0)
    ∧ ((stQ (tmCl (some none)) Memory.init).issuer = some (ctxB (blkOf (tmCl (some none))) (tmCl (some none)) frP 0)
        ∧ (ctx (tmCl (some none))).copyTeam = true ∧ frP.hold = .poll 0 ∧ fragBlocked (blkOf (tmCl (some none))) (tmCl (some none)) 0 frP = false
        ∧ (tmCl (some none)).vpoison = [] ∧ (tmCl (some none)).pend = [])
    ∧ ((tmCl (some (some (5, 0x10040, false)))).claim.map Claim.answer = some (some (some (5, 0x10040, false)))
        ∧ (stQ (tmCl (some (some (5, 0x10040, false)))) Memory.init).hit 0 (tmCl (some (some (5, 0x10040, false)))) 0 0x10040 true = some 0x10040) := by
  refine ⟨⟨rfl, ?_⟩, ?_, ⟨rfl, ?_⟩, ?_⟩ <;> decide +kernel
theorem witness_PageForms :
    Access.cause tmM (pageAccess (ctx tmM) 2 .lid 0 3 ((ctx tmM).lanes un)) = none
      ∧ Access.cause tmM (pageAccess (ctx tmM) 0 (.v 3) 0 0 ((ctx tmM).lanes ⟨false, 3⟩)) = none
      ∧ (ctx tmM).holds (.pgReq ⟨un, 0, 2, .lid, 0, 3, true⟩) = true ∧ (ctx tmM).holds (.pgTest ⟨un, 0, 3, 0, .v 3, 0, 0, false⟩) = true := by decide +kernel
/-- `c8` and `c9` are handles of two sets homed in slices 3 and 127; `c6` a buffer for a new one; `s10`, `s11` a universe of 64 elements here,
`s12`, `s13` the greatest universe at slice 127. -/
def tmE : Team :=
  { tm0 with c := [(6, (mkCap 0x40000 0x1000 63 0 0, true)), (8, (mkCap 0x10000 0x1000 3 3 3, true)), (9, (mkCap 0x20000 0x1000 3 3 127, true))]
             s := [(10, 0), (11, 0x8000000040), (12, 64), (13, 0x7FFFFFFFC0)] }
/-- A set instruction meets the premises of `SetSends`. -/
def setOk (i : Instr) : Bool :=
  match setForm (ctx tmE) i with
  | some (_, _, _, checks, _) => checks.all fun a => (a.cause tmE).isNone
  | none => false
theorem witness_SetSends :
    ((st tmE).issuer = some (ctx tmE) ∧ (ctx tmE).calm = true ∧ (ctx tmE).vectorTeam = true ∧ (ctx tmE).acts un = true)
    ∧ ∀ i ∈ ([.setNew ⟨un, 0, 10, 6, 10, 11⟩, .setNew ⟨un, 0, 10, 6, 12, 13⟩, .setFree ⟨un, 0, 8⟩, .setIns ⟨un, 2, 3, 8, .v 2⟩,
      .setDel ⟨un, 0, 7, 8, .s 4⟩, .setHas ⟨un, 0, 1, 9, .lid⟩, .setCard ⟨un, 0, 12, 8⟩, .setOr ⟨un, 0, 9, 8, 8⟩,
      .setAnd ⟨un, 0, 9, 8, 9⟩, .setAndn ⟨un, 0, 9, 9, 8⟩, .setCopy ⟨un, 0, 9, 8⟩, .setClr ⟨un, 0, 8⟩, .setEnum ⟨un, 0, 6, 9, .zero⟩,
      .setInfo ⟨un, 0, 15, 9, 7⟩, .setPin ⟨un, 0, 9, .cur⟩] : List Instr), setOk i = true ∧ (ctx tmE).holds i = true := by
  refine ⟨⟨rfl, ?_⟩, ?_⟩ <;> decide +kernel

/-- The premises of `ArrayForms` for an operation: its rows end below 256, SUBCAP is allowed, its lines are present, its subarray has room. -/
def arrOk (i : Instr) : Bool :=
  match arrayForm (ctx tmM) i with
  | some (_, _, sub, _, prow, perm, rows, _, _) =>
    let use := rows ++ (if prow = 0xFF#8 then [] else [(8, prow.toNat, 1)])
    let n := bits (capBase (tmM.creg sub.toNat).1) 15 6
    (use.all fun x => decide (x.2.1 + x.2.2 ≤ 256)) && ((subarrayAccess (ctx tmM) sub (if prow = 0xFF#8 then perm else perm ||| permRD)).cause tmM).isNone
      && (use.all fun x => (blkOf tmM).present (32768 * n + 128 * x.2.1) (128 * x.2.2)) && decide ((blkOf tmM).queued n < Config.subQueue)
  | none => false
/-- Subarray 1 has an operation of team 0 in its queue. -/
def opA : ArrOp :=
  { seq := 0, team := 0, sub := 1, sub2 := 1, w := 1, prow := 255, kind := .popc 0, started := false, writes := [], poison := [], count := 0
    bad := none }
theorem witness_ArrayForms :
    (∀ i ∈ ([.aFill ⟨un, 0, 3, 31, 224, 12, 255⟩, .aLog ⟨un, 0, 3, 7, 3, 80, 64, 248, 255⟩, .aAdd ⟨un, 0, 3, 7, 0, 80, 64, 72, 90⟩,
      .aSub ⟨un, 0, 3, 7, 0, 80, 64, 72, 90⟩, .aMul ⟨un, 0, 3, 15, 2, 224, 0, 16, 254⟩, .aCmp ⟨un, 0, 3, 7, 3, 255, 64, 72, 255⟩,
      .aSel ⟨un, 0, 3, 7, 0, 80, 64, 72, 90⟩, .aShf ⟨un, 0, 3, 7, 80, 64, 0x80, 255⟩, .aPopc ⟨un, 4, 3, 0, 14, 255, 255⟩] : List Instr),
        arrOk i = true)
    ∧ (((arrayForm (ctx tmM) (.aMul ⟨un, 0, 3, 15, 0, 225, 0, 16, 255⟩)).map fun r => (r.2.2.2.2.2.2.1.find? fun x => decide (256 < x.2.1 + x.2.2)).map fun x => x.1)
        = some (some 5) ∧ (ctx tmM).acts ⟨false, 3⟩ = false)
    ∧ (Access.cause tmM (subarrayAccess (ctx tmM) 3 permWR) = none ∧ Access.cause tmM
        { cap := 0, kinds := [1], perm := permRD, n := 128 * 32, align := 128, once := true, addrs := [(0, 0)] } = none
        ∧ (blkOf tmM).present 0 (128 * 32) = true ∧ (0 : Nat) / 32768 = (0 + 128 * 32 - 1) / 32768 ∧ (blkOf tmM).queued 0 < Config.subQueue)
    ∧ (Access.cause tmM (subarrayAccess (ctx tmM) 3 0) = none ∧ (blkOf tmM).arrOps = [] ∧ opA ∈ { blkOf tmM with subs := [(1, [opA])] }.arrOps
        ∧ opA.uses 1 = true ∧ opA.seq < 1) := by
  decide +kernel

/-- A team on stack core 0 of stack 3, whose window has 32 rows: `s6` names channel 5, `s7` a run of units 0 to 3 with 32 words, `s8` its rows,
`s11` 65535 steps, `s13` the units with accumulator 7, `s14` micro-words from 224 on. -/
def tmB : Team :=
  { tm0 with lift := .up 3 0 0, bbase := 0x300202000
             s := [(6, 5), (7, 0x8200001E5), (8, 0x1F0000), (11, 65535), (12, 0x1E5), (13, 0xE0000001E5), (14, 0x1C000005)] }
theorem witness_BankForms :
    ((st tmB).issuer = some (ctx tmB) ∧ (ctx tmB).calm = true ∧ (ctx tmB).tm.copy = false ∧ (ctx tmB).acts un = true)
    ∧ (∀ i ∈ ([.bUcld ⟨un, 0, 14, 1⟩, .bUcld ⟨⟨false, 3⟩, 0, 7, 1⟩, .bRun ⟨un, 15, 7, 8, 9⟩, .bStep ⟨un, 15, 12, 11⟩, .bAccRd ⟨un, 0, 2, 13⟩,
      .bAccWr ⟨un, 0, 2, 13⟩, .bStat ⟨un, 0, 12, 12⟩, .bFence ⟨un, 0, 6⟩] : List Instr), (bankForm (ctx tmB) i).isSome = true ∧ (ctx tmB).holds i = true)
    ∧ ((tmB.sreg 6).toNat < 32 ∧ fragBlocked (blkOf { tmB with frags := [frP] }) { tmB with frags := [frP] } 0 frP = false
        ∧ (stB (blkOf { tmB with frags := [frP] }) 0).issuer = some (ctxB (blkOf { tmB with frags := [frP] }) { tmB with frags := [frP] } frP 0)) := by
  refine ⟨⟨rfl, ?_⟩, ?_, ?_, ?_, rfl⟩ <;> decide +kernel

/-- A team of 128 granule-lanes at `b.lift [c2]`, on a core that holds the page of 0x10000 at physical 0x3200000000 (stack 3), and stack 3 has a
window of 32 rows for address space 0 of an interface that may use it. -/
def tmL : Team := { tmM with lift := .core }
def stL (tm : Team) : State :=
  { State.reset with
    cores := [(0, { Core.init with block := some (blkOf tm), tlb := [{ e0 with frame := 0x3200000000 }] })]
    acting := .frag 0 0 0 0
    ifaces := [(0, { Iface.init with victl := 0xFFFF0001 })]
    spaces := [(0, { Space.init with windows := [(3, (0x2000, 32))] })] }
/-- The same team in the queue of stack 3, its `b.lift` outstanding. -/
def tmLq : Team :=
  { tmL with lift := .queued 3 1, frags := [frP], bankcnt := 1
             pend := [{ seq := 0, csn := 0, heirs := [0], cls := .bank, window := none, dests := [], wrote := [], kind := .lift, pc := 0x10000, word := 0, lane := 0
                        hnd := false }] }
theorem witness_LiftAndLand :
    ((stL tmL).issuer = some (ctx tmL) ∧ (ctx tmL).calm = true ∧ (ctx tmL).vectorTeam = true ∧ (ctx tmL).alone = true ∧ (ctx tmL).f.spilled = false
      ∧ (ctx tmL).acts un = true ∧ (ctx tmL).drained (stL tmL) = true ∧ 64 * tmL.L * tmL.G ≤ 65536
      ∧ Access.cause tmL { onceAccess (ctx tmL) 2 permEN 1 .zero 0 0 with kinds := [0, 2] } = none
      ∧ (stL tmL).hit 0 tmL 0 0x10000 false = some 0x3200000000 ∧ isHost 0x3200000000 = false ∧ bits 0x3200000000 36 4 = 3
      ∧ nrowOf ((stL tmL).windowOf 0 0 3) ≠ 0 ∧ (stL tmL).stackGone 3 = false)
    ∧ ((stL tmLq).issuer = some (ctxB (blkOf tmLq) tmLq frP 0) ∧ fragBlocked (blkOf tmLq) tmLq 0 frP = false ∧ tmLq.vpoison = []
      ∧ (ctxB (blkOf tmLq) tmLq frP 0).alone = true ∧ (ctxB (blkOf tmLq) tmLq frP 0).drained (stL tmLq) = true
      ∧ tmLq.pend.all (fun p => p.kind == .lift) = true ∧ (stL tmLq).freeStackCore 3 = some 0 ∧ (stL tmLq).liftFirst 3 1 = true
      ∧ (stL tmLq).hit 0 tmLq 0 0x10000 false = some 0x3200000000)
    ∧ ((ctx tmB).calm = true ∧ (ctx tmB).alone = true ∧ (ctx tmB).drained (st tmB) = true)
    ∧ ((st { tm0 with lift := .rising 3 0 }).team 0 0 = some { tm0 with lift := .rising 3 0 }
      ∧ (st { tm0 with lift := .landing 3 0 }).team 0 0 = some { tm0 with lift := .landing 3 0 }) := by
  refine ⟨⟨rfl, ?_⟩, ⟨rfl, ?_⟩, ?_⟩ <;> decide +kernel

/-! ### Witnesses: the matrix stream, events of a team -/

/-- A tile of 128 rows and 32 columns at 0x1000 of the scratchpad, side bytes at 0x20000. -/
def tile0 : Tile := { dw := [0x1000, 512, 0x200080, 0x20000, 2, 0, 0, 0], cap := mkCap 0 0x100000 63 1 0, tag := true }
/-- A sequencer with tiles in `d0`, `d1` and `d6`, scale records in `q0` and `q1`, and `ms14`, `ms15` for the last record of the requested area and
the first beyond it. -/
def seq0 : Seq :=
  { newSeq 0x10000 with
    d := [(0, tile0), (1, tile0), (6, tile0)], q := [(0, [0x8000, 1, 0, 0, 0, 0, 0, 0]), (1, [0x8000, 1, 0, 0, 0, 0, 0, 0])]
    ms := [(14, 28640), (15, 28641)] }
/-- Its block, with turnstiles and a carousel as in `blkS` and turnstile 3 abandoned. -/
def blkM (q : Seq) : Block :=
  { blkS tm0 with seq := some q, ts := (blkS tm0).ts ++ [(3, { exp := 1, arr := 0, ph := false, abandoned := true })] }
def stSeq (q : Seq) : State :=
  { State.reset with cores := [(0, { Core.init with block := some (blkM q) })], acting := .seq 0 0 }
/-- Every stream word: the last record of the area, both hand-offs on both kinds, both ends of a loop, every type of operand with and without
scales. -/
theorem witness_StreamResults :
    (stSeq seq0).acting = .seq 0 0 ∧ (stSeq seq0).block 0 = some (blkM seq0) ∧ (stSeq seq0).seq 0 = some seq0 ∧ seqBlocked seq0 = false
    ∧ ∀ i ∈ ([.mZero ⟨3⟩, .mAcst ⟨6, 1, 10⟩, .mAcld ⟨6, 1, 2⟩, .mEnd, .mMirror ⟨2⟩, .mTdld ⟨5, ⟨some 14, 1, 4095⟩⟩, .mSdld ⟨5, ⟨none, 0, 0⟩⟩,
      .mCapld ⟨0, ⟨some 14, 1, 4095⟩⟩, .mArrive ⟨.ts 15⟩, .mArrive ⟨.cr 0 true⟩, .mWait ⟨.ts 10, none⟩, .mWait ⟨.cr 0 false, some 3⟩,
      .mWait ⟨.cr 0 true, none⟩, .mLoop ⟨2, 1, 0x3FFFC⟩, .mLoop ⟨2, 2, 0x3FFFC⟩, .mJmp ⟨0, 0x3FFFC⟩,
      .mMma ⟨.e4m3, 1, 0, 1, some 0, some 1⟩, .mMma ⟨.e5m2, 1, 0, 1, some 0, some 1⟩, .mMma ⟨.e3m2, 1, 0, 1, some 0, some 1⟩,
      .mMma ⟨.e2m3, 1, 0, 1, some 0, some 1⟩, .mMma ⟨.e2m1, 1, 0, 1, some 0, some 1⟩, .mMma ⟨.o4, 1, 0, 1, some 0, some 1⟩,
      .mMma ⟨.c4, 1, 0, 1, some 0, some 1⟩, .mMma ⟨.i8, 1, 0, 1, none, none⟩, .mMma ⟨.f32, 1, 0, 1, none, none⟩,
      .mMma ⟨.f16, 1, 0, 1, none, none⟩, .mMma ⟨.bf16, 1, 0, 1, none, none⟩, .mMma ⟨.i4, 1, 0, 1, none, none⟩] : List Instr), (streamResult 0 (blkM seq0) seq0 (stSeq seq0) i).isSome = true := by
  decide +kernel

/-- Every fault of a word: the first record beyond the area, a transfer of no type, a carousel not set up, an abandoned turnstile, a loop of 0
passes, the high bits of a jump, the reserved mirror mode, an `m.mma` through an empty descriptor, a reserved word. -/
theorem witness_StreamFaults : ∀ i ∈ ([.mTdld ⟨5, ⟨some 15, 1, 4095⟩⟩, .mSdld ⟨5, ⟨some 15, 1, 4095⟩⟩, .mCapld ⟨5, ⟨some 15, 1, 4095⟩⟩, .mAcst ⟨6, 1, 0⟩,
      .mAcld ⟨2, 1, 2⟩, .mArrive ⟨.cr 3 true⟩, .mWait ⟨.cr 3 true, none⟩, .mWait ⟨.ts 3, none⟩, .mLoop ⟨2, 0, 0⟩, .mJmp ⟨1, 0⟩,
      .mMirror ⟨3⟩, .mMma ⟨.i8, 1, 7, 1, none, none⟩, .illegalWordIssue ⟨2, false⟩] : List Instr), (streamCause (blkM seq0) seq0 i).isSome = true := by
  decide +kernel

/-- Stores of eight bytes to memory (a release at device scope) and to the scratchpad, and an atomic. -/
def reqP : StReq := { seq := 5, team := 0, csn := 0, loc := .pa 0x10000, bytes := bytesOf 8 7, tag := false, atom := none, rel := some .dev }
def reqS : StReq := { reqP with loc := .sp 0 0x1FFF8, rel := none }
def opC : AtomOp := { func := 7, ty := .i64, data := 2 ^ 64 - 1, cmp := 0, dest := 6, lane := 31, addr := 0x10000, id := 7 }
def reqA : StReq := { reqP with atom := some opC, rel := none, bytes := bytesOf 8 0 }
/-- Core 0 with a team and a write path. -/
def stW (tm : Team) (path : List StReq) : State :=
  { State.reset with cores := [(0, { Core.init with block := some (blkOf tm), path })] }
theorem witness_StoresPerform :
    (∀ r ∈ [reqP, reqS, reqA], let tm := { tm0 with stb := [r] }
      (stW tm []).block 0 = some (blkOf tm) ∧ (stW tm []).team 0 0 = some tm ∧ tm.loadBefore r = false
        ∧ (r.rel = some .dev → (stW tm []).released 0 0 5 .dev r.loc = true) ∧ (stW tm []).owned r.seq r.loc = false
        ∧ (stW tm []).spHeld r.loc 8 5 = false)
    ∧ ((stW tm0 [reqP]).pathHeld 0 0 reqP = false ∧ (stW tm0 [reqP]).owned reqP.seq reqP.loc = false) := by
  decide +kernel
/-- Outstanding instructions of each kind, oldest of their class. -/
def pend (cls : Cls) (dests : List RegRef) (kind : PendKind) : Pend :=
  { seq := 7, csn := 0, heirs := [0], cls, window := none, dests, wrote := [], kind, pc := 0x10000, word := 0, lane := 0, hnd := false }
def tmA : Team := { tm0 with memcnt := 1, pend := [pend .mem [.v 6] (.atom 1 false false [])] }
theorem witness_AtomicsPerform :
    ((stW tmA [reqA]).pathHeld 0 0 reqA = false ∧ (stW tmA [reqA]).owned reqA.seq reqA.loc = false ∧ (stW tmA [reqA]).spHeld reqA.loc 8 5 = false
      ∧ (stW tmA [reqA]).poisonedAt reqA.loc 8 = false ∧ (stW tmA [reqA]).team 0 0 = some tmA ∧ tmA.pendOf 7 = tmA.pend.head?)
    ∧ (opC.data < 2 ^ 64 ∧ (2 ^ 64 - 1 : Nat) < 2 ^ 64) := by decide +kernel
/-- What lanes of the scratchpad read. -/
def spLanes : List LaneAcc := [{ lane := 0, loc := .sp 0 0, addr := 0, absent := false }, { lane := 31, loc := .sp 0 0x1FFF8, addr := 0x1FFF8, absent := false }]
def tmP5 : Team := { tm0 with memcnt := 1, pend := [pend .mem [.v 127] (.load spLanes 8 false (.v 127) [] none none false none)] }
theorem witness_ResultsReturn :
    (∀ p ∈ [pend .mem [.v 127] (.load [] 8 false (.v 127) [] none none false (some [(0, 1, false)])), pend .mem [.v 6] (.atom 0 false false [(31, 5)]),
        pend .page [.p 3] (.pgtest 3 [(31, true)]), pend .spf [.v 5] (.spf 5 [(31, 5)] [(31, 16)])],
      ({ tm0 with pend := [p] } : Team).pend[0]? = some p ∧ ({ tm0 with pend := [p] } : Team).firstOf p = true)
    ∧ (∀ acq ∈ [none, some .dev], (match ((stW tmP5 []).acquireRead 0 tmP5 acq).readLanes 0 0 tmP5
        (pend .mem [.v 127] (.load spLanes 8 false (.v 127) [] acq none false none)) acq false false 8 false spLanes [] 0 with
      | .got _ _ _ => true
      | _ => false) = true)
    ∧ ((stW tm0 []).l1Get 0 0x1001F = none ∧ (stW tm0 []).owned 7 (.pa 0x1001F) = false ∧ (stW tm0 []).poisonedAt (.pa 0x10000) 32 = false
        ∧ 0x1001F % 32 + 1 ≤ 32) := by
  decide +kernel
/-- Tables that map every address below 2^34 to itself, writable, and none above: a root at 0x100000 and a table of huge pages at 0x108000. -/
def memT : Memory := (Memory.init.setBytes 0x100000 (bytesOf 8 0x108001)).setBytes 0x108000 (bytesOf 8 7)
def walkAt (va : Nat) (wr : Bool) : Walk :=
  { asid := 0, va, wr, gen := 0, iseq := 0, team := 0, csn := 0, fetch := false, word := 0, cap := 2, aux := 0 }
def stWalk : State :=
  { State.reset with mem := memT, spaces := [(0, { Space.init with root := 0x100001 })]
                     cores := [(0, { Core.init with block := some (blkOf tm0), tlb := [e0], walks := [walkAt 0x3FFFF0000 true, walkAt 0x400000000 false] })] }
/-- A partition with a spilled fragment and an entry free. -/
def frX : Frag := { fr0 with spilled := true, csn := 1 }
def tmX : Team := { tm0 with frags := [frX] }
theorem witness_FetchAndWalks :
    (tlbHit stWalk (stWalk.core 0).tlb 0 0x1FFFF = some e0 ∧ stWalk.l1Get 0 0x1FFFF = none ∧ stWalk.owned stWalk.seqNo (.pa 0x1FFFF) = false
      ∧ stWalk.poisonedAt (.pa (0x1FFFF / 32 * 32)) 32 = false)
    ∧ ((blkOf tmX).reloadable 0 = some (0, frX) ∧ (blkOf tmX).freeEntry 0 = some 0 ∧ AMap.find? (blkOf tmX).teams 0 = some tmX ∧ tmX.frag 1 = some frX)
    ∧ (stWalk.walk 0 0x3FFFF0000 = .leaf 2 0 true false [0x100000, 0x108000] ∧ stWalk.walk 0 0x400000000 = .absent
        ∧ (stWalk.core 0).walks[1]? = some (walkAt 0x400000000 false) ∧ tm0.park = [] ∧ tm0.lift = .core ∧ tm0.halted = false)
    ∧ ({ stWalk with cores := [(0, { Core.init with block := some (blkM { seq0 with xfers :=
        [{ store := true, acc := 0, reg := 0, tile := { tile0 with cap := mkCap 0 0x100000 63 0 0 }, ty := 8, row := 0, seq := 0, posted := [] }] }) })] } :
          State).presented 0 0 0 true = true := by
  decide +kernel

/-! ### Witnesses: records, launches, blocks -/

/-- A launch of one block of one team of 32 lanes and one granule at 0x10000, with its V bit. -/
def pktL : List Word := [7, 0x10000, 0, 1, 0, 0, 0, 0x8000000000000000]
/-- Interface 0: served, debugging, all stack groups; rings of 16 entries, a save area of one slot. -/
def if0 : Iface :=
  { Iface.init with victl := 0xFFFF0003, frbase := 0x200004, prbase := 0x210004, savebase := 0x400000, saveslots := 1 }
/-- Queue slot 0: header at 0x80000, four slots at 0x90000, PH 1. -/
def q0 : QueueSlot :=
  { QueueSlot.init with registered := true, hdr := 0x80000, hdrPa := 0x80000, slotbase := 0x90000, logslots := 2, ph := true, quantum := 1, d := 1 }
/-- The device serves interface 0; `p` stands in slot 0 of the queue q. -/
def stV (q : QueueSlot) (p : List Word) : State :=
  { State.reset with
    power := .booted, image := { imageNone with interfaces := 1, tracing := 1, tbits := [12] }
    mem := memT.setBytes 0x90000 (p.flatMap fun w => bytesOf 8 w.toNat)
    spaces := [(0, { Space.init with root := 0x100001 })], ifaces := [(0, if0)], slots := [(0, q)] }
/-- What stands at the read index of slot 0. -/
def peeked (s : State) : Option (List Word × State) :=
  match s.peek 0 with
  | .packet p s1 => some (p, s1)
  | _ => none
/-- A fault entry, a page request, a summary of a re-synchronisation, a trace record and a tagged instruction. -/
def fe0 : FaultEntry := { dws := [0x102, 0, 0, 0, 0, 0, 0], stamp := 3, source := 0, core := none, app := none, part := none, held := false }
def tr0 : TraceRec := { vi := 0, source := 0, stamp := 3, kind := 6, payload := [0, 0, 0, 0] }
def tg0 : Tagged := { core := 0, vi := 0, pc := 0x10000, team := 0, word := 0, mask := 1, trapped := true, result := false, seqs := [2], level := 4 }
def stRec : State :=
  { stV q0 [] with
    ifaces := [(0, { if0 with faults := [fe0, { fe0 with stamp := 4 }], pages := [(0x10002, 0)], resync := some (some (List.replicate 128 0), 0x500000) })]
    trace := [tr0]
    cores := [(511, { Core.init with samplers := [(3, { windows := 0, issued := 0, tag := some tg0 })] })]
    stackCores := [(63, { StackCore.init with sampler := { windows := 0, issued := 0, tag := some tg0 } })] }
theorem witness_RingAndTraceRecords :
    ((stRec.iface 0).faults[0]? = some fe0 ∧ ringRoom (stRec.iface 0).frbase 0 0 stRec.linkUp = true ∧ paOk (ringAt (stRec.iface 0).frbase 64 0) = true
      ∧ stRec.lineBusy (ringAt (stRec.iface 0).frbase 64 0) = false ∧ isHost (ringAt (stRec.iface 0).frbase 64 0) = false)
    ∧ ((stRec.iface 0).pages = [(0x10002, 0)] ∧ ringRoom (stRec.iface 0).prbase 0 0 stRec.linkUp = true
      ∧ paOk (ringAt (stRec.iface 0).prbase 16 0) = true ∧ stRec.lineBusy (ringAt (stRec.iface 0).prbase 16 0) = false)
    ∧ ((stRec.iface 0).resync = some (some (0 :: List.replicate 127 0), 0x500000) ∧ paOk 0x500000 = true ∧ ∀ l, l < 4 → stRec.lineBusy (0x500000 + 256 * l) = false)
    ∧ (stRec.trace[0]? = some tr0 ∧ paOk (stRec.traceBase 0) = true ∧ paOk (stRec.traceBase 0 + 2 ^ traceBits stRec.image 0 - 1) = true
      ∧ stRec.owned stRec.seqNo (.pa (stRec.traceBase 0)) = false ∧ stRec.owned stRec.seqNo (.pa (stRec.traceBase 0 + 256)) = false)
    ∧ ((AMap.get Sampler.init (stRec.core 511).samplers 3).tag = some tg0 ∧ (stRec.stackCore 63).sampler.tag = some tg0
      ∧ bit stRec.image.tracing.toNat 0 = true ∧ bit stRec.image.tracing.toNat 1 = false) := by
  decide +kernel
theorem fe0_first : ∀ i f, (stRec.iface 0).faults[i]? = some f → fe0.before f 0 i := by
  intro i f h
  have e : (stRec.iface 0).faults = [fe0, { fe0 with stamp := 4 }] := by decide +kernel
  rw [e] at h
  match i with
  | 0 => simp at h; subst h; right; exact ⟨rfl, Nat.le_refl 0⟩
  | 1 => simp at h; subst h; left; decide
  | n + 2 => simp at h
/-- A launch in progress of the packet p. -/
def l0 (p : List Word) (next live : Nat) : Launch :=
  { id := 0, pkt := p, claim := 0, ready := true, wait := none, next, live, lastAt := none, fail := none }
/-- It waits for a word, and for a turnstile of block 5. -/
def pktW : List Word := [7, 0x10000, 0, 1, 0, 0x20001, 1, 0]
def pktA : List Word := [7, 0x10000, 0, 1, 0, 0x400000001, 1, 0]
def pktT : List Word := [7, 0x10000, 0, 1, 0, 5 * 8 + 8 * 4096 + 2, 0, 0]
def stL5 (p : List Word) : State :=
  { stV { q0 with launches := [l0 p 0 0] } [] with cores := [(0, { Core.init with block := some { blkS tm0 with name := 5 } })] }
theorem witness_LaunchesDispatch_read :
    ((peeked (stV q0 pktL)).map Prod.fst = some pktL ∧ pkKind pktL = 7 ∧ launchFieldOk pktL = true ∧ launchOk pktL = true
      ∧ ((peeked (stV q0 pktL)).map fun x => x.2.groups 0 pktL) = some 0xFFFF ∧ ((peeked (stV q0 pktL)).map fun x => x.2.couldFit 0 pktL) = some true)
    ∧ ((peeked (stV q0 [0x207, 0x10000, 0, 1, 0, 0, 0, 0x8000000000000000])).isSome = true
      ∧ launchFieldOk [0x207, 0x10000, 0, 1, 0, 0, 0, 0x8000000000000000] = false) := by
  decide +kernel
theorem witness_LaunchesDispatch_wait :
    (((stL5 pktL).slot 0).headLaunch = some (l0 pktL 0 0) ∧ lpWkind pktL = 0)
    ∧ (((stL5 pktW).slot 0).headLaunch = some (l0 pktW 0 0) ∧ lpWkind pktW = 1 ∧ ((stL5 pktW).engineXlat 0 0 (lpWaddr pktW) false).1 = .ok 0x20000
      ∧ (stL5 pktW).rowOwned 0x20000 = false)
    ∧ (lpWkind pktA = 1 ∧ ((stL5 pktA).engineXlat 0 0 (lpWaddr pktA) false).1 = .absent)
    ∧ (lpWkind pktT = 2 ∧ (stL5 pktT).named 0 (lpWcore pktT) = some (.on 0) ∧ (((stL5 pktT).namedBlock (.on 0)).map fun b => (b.turnstile (lpWts pktT)).ph) = some false) := by
  decide +kernel
/-- A queue with a launch to dispatch; and the same held by the Ringmaster. -/
def qD : QueueSlot := { q0 with launches := [l0 pktL 0 0] }
theorem witness_LaunchesDispatch_decision :
    let s : State := { stV qD [] with rmWant := true }
    (s.rmHeld = none ∧ s.rmAt ≠ some s.clock ∧ s.rmWant = true ∧ (0, qD) ∈ s.slots ∧ qD.registered = true ∧ s.slot 0 = qD
      ∧ qD.ready = some (l0 pktL 0 0) ∧ s.eligible (0, qD) = true ∧ s.fits 0 pktL = some [[0]])
    ∧ ({ s with ifaces := [(0, { if0 with victl := 3 })] } : State).fits 0 pktL = none
    ∧ ({ s with rmHeld := some 0 } : State).rmHeld = some 0 := by
  decide +kernel
/-- A block that may retire; a launch that is due, with each completion; a failed one. -/
def tmF : Team := { tm0 with finished := true, frags := [] }
def blkR (fused : Bool) : Block := { blkOf tmF with slot := 0, packet := pktL, fused, seq := none, gang := 7, since := 0 }
def pktC : List Word := [7, 0x10000, 0, 1, 0, 0, 0, 0x20001]
def pktE : List Word := [7, 0x10000, 0, 1, 0, 0, 0, 5 * 8 + 8 * 4096 + 2]
theorem witness_BlocksLeave_ends :
    (∀ f, (stB (blkR f) 0).mayRetire 0 (blkR f) = true)
    ∧ ((l0 pktL 1 0).due = true ∧ lpDkind pktL = 0)
    ∧ ((l0 pktC 1 0).due = true ∧ lpDkind pktC = 1 ∧ ((stL5 pktC).engineXlat 0 0 (lpDaddr pktC % 2 ^ 57) true).1 = .ok 0x20000 ∧ isHost 0x20000 = false
      ∧ (stL5 pktC).rowOwned 0x20000 = false ∧ (stL5 pktC).matrixOwned (.pa 0x20000) = false ∧ (stL5 pktC).poisonedAt (.pa 0x20000) 8 = false)
    ∧ (lpDkind pktE = 2 ∧ (stL5 pktE).named 0 (bits (pdw pktE 7) 3 9) = some (.on 0))
    ∧ ({ l0 pktL 0 0 with fail := some (11, 0) } : Launch).due = true := by
  decide +kernel
/-- A block at a safe point with a pre-emption requested, and two of a fused gang on cores 0 and 1; the saved block and gang. -/
def blkP (index : Nat) (fused : Bool) : Block :=
  { blkOf { tm0 with frags := [{ fr0 with safe := true }] } with request := some 0, packet := pktL, fused, seq := none, gang := 7, index, name := index }
def pktF : List Word := [0x10107, 0x10000, 0, 2, 0, 0, 0, 0]
def blkF (index : Nat) : Block := { blkP index true with packet := pktF }
def stP : State := { stV q0 [] with cores := [(0, { Core.init with block := some (blkP 0 false) })] }
def stPF : State :=
  { stV q0 [] with ifaces := [(0, { if0 with saveslots := 2 })]
                   cores := [(0, { Core.init with block := some (blkF 0), fusedGang := some 7 }), (1, { Core.init with block := some (blkF 1), fusedGang := some 7 })] }
def sv (index slot : Nat) (b : Block) : Saved := { vi := 0, slotIx := slot, block := { b with request := none }, core := index, path := [] }
def stSv : State := { stV q0 [] with saved := [sv 0 0 (blkP 0 false)] }
def stSvF : State := { stV q0 [] with saved := [sv 0 0 (blkF 0), sv 1 1 (blkF 1)] }
theorem witness_BlocksLeave_moves :
    ((stB (blkOf tm0) 0).freeSaves 0 = [] ∧ ({ stP with cores := [(0, { Core.init with block := some (blkOf tm0) })] } : State).freeSaves 0 = [0] ∧ (blkOf tm0).request = none)
    ∧ (stP.together 0 (blkP 0 false) = [0] ∧ (blkP 0 false).atSafePoint = true ∧ (stP.freeSaves 0).length = 1 ∧ paOk (stP.saveSlot 0 0) = true
      ∧ paOk (stP.saveSlot 0 0 + 2 ^ 22 - 1) = true)
    ∧ (stPF.together 0 (blkF 0) = [0, 1] ∧ (blkF 1).atSafePoint = true ∧ (stPF.freeSaves 0).length = 2)
    ∧ ((stSv.saved.filter fun y => y.vi == 0)[0]? = some (sv 0 0 (blkP 0 false))
      ∧ (placeIn (stSv.coreFree (some 7)) (stSv.groups 0 pktL) 1 1).map List.length = some 1)
    ∧ ((placeIn (stSvF.coreFree (some 7)) (stSvF.groups 0 pktF) 4 (lpClusters pktF)).isSome = true ∧ lpCpb pktF ≤ 4
      ∧ ((stSvF.saved.filter fun y => y.block.gang == 7).map fun y => y.block.index % lpGang pktF).Nodup)
    ∧ ((blkP 0 false).overdue = false ∧ 2 ^ 28 ≤ ((2 ^ 28 : Nat) + 2 ^ 64 - 0) % 2 ^ 64) := by
  decide +kernel

/-! ### Witnesses: copy engines, the fabric, sets, macro operations -/

/-- A started packet. -/
def sd (p : List Word) : Started :=
  { pkt := p, claim := 0, expanded := false, moves := [], got := [], clips := 0, issueNo := 3, effect := false, poisoned := none, acked := false
    since := 0, wait := none }
/-- Slot 0 has started the packet x; core 0 carries the name 5. -/
def stJ (x : Started) : State :=
  { stV { q0 with started := some x } [] with cores := [(0, { Core.init with block := some { blkS tm0 with name := 5 } })], seqNo := 9 }
/-- An agent with an order number reaches va at its own address, and can write there; an engine that owns nothing does. -/
def reachAt (s : State) (no va : Nat) : Bool :=
  match s.engineXlat 0 0 va true with
  | (.ok pa, s1) => pa == va && !isHost pa && !s1.agentWaits no no (.pa pa) && s1.mayFill pa 8 && !s1.poisonedAt (.pa pa) 8
  | _ => false
def reach (s : State) (va : Nat) : Bool := reachAt s s.seqNo va
/-- The packets: a linear copy; a swizzled strided copy into scratchpad 5; a gather and a scatter with inline indices and with indices in memory;
a reduce of each OP; a drain; a signal; a copy to a peer; the three memory packets; and one with each completion. -/
def pk1 : List Word := [1, 0x20000, 0x300FF, 257, 0, 0, 0, 0x8000000000000000]
def pk2 : List Word := [0x40A0000102, 0x20000, 0, 0x200000100, 256, 256, 0, 0]
def pk3 : List Word := [0xC03, 0x20000, 0x30000, 0x4000000002, 0x1FFFFFF, 0, 0, 0]
def pk3m : List Word := [3, 0x20000, 0x30000, 0x4000000002, 0x40000, 2, 0, 0]
def pk4 : List Word := [0xC04, 0x20000, 0x30000, 0x4000000002, 0x1FFFFFF, 0, 0, 0]
def pk4m : List Word := [4, 0x20000, 0x30000, 0x4000000002, 0x40000, 2, 0, 0]
def pk5 (op : Nat) : List Word := [5 + BitVec.ofNat 64 (op * 2 ^ 40), 0x20000, 0x30000, 64, 0, 0, 0, 0]
def pk6 : List Word := [6, 0x20000, 0x30000, 64, 0, 0, 0, 0]
def pk8 : List Word := [8, 0, 0x30000, 7, 1, 0, 0, 0]
def pkD : List Word := [0x800000000001, 0x20000, 0x30000, 64, 0, 0, 0, 0]
def pkSp : List Word := [0xA0000101, 0x20000, 0, 64, 0, 0, 0, 0]
def pkC : List Word := [0x4001, 0x20000, 0x30000, 64, 0, 0, 0, 0x40000]
def pkT : List Word := [0x10058001, 0x20000, 0x30000, 64, 0, 0, 0, 0]
theorem witness_PacketsStart :
    (((stV q0 pk1).slot 0).launches = [] ∧ ((peeked (stV q0 pk1)).map Prod.fst) = some pk1 ∧ pkKind pk1 ≠ 7
      ∧ ((peeked (stV q0 pk1)).map fun x => isHost ((x.2.slot 0).hdrPa + 8)) = some false)
    ∧ (let q : QueueSlot := { q0 with head := some pk1 };
      (∀ early, ((stV q []).heads 0 early).head? = some (0, q)) ∧ (stV q []).slot 0 = q ∧ packetCheck q.priv 0 pk1 = none ∧ (stV q []).scratchFault 0 pk1 = none)
    ∧ (packetCheck false 0 (9 :: pk1.drop 1) = some 1 ∧ packetCheck false 0 [1, 0, 0, 0, 0, 0, 0, 0] = some 2
      ∧ packetCheck false 0 [5, 0, 0, 6, 0, 0, 0, 0] = some 3 ∧ packetCheck false 0 [0x12, 0, 0, 0, 0, 0, 0, 0] = some 4) := by
  decide +kernel
/-- A line that an engine has read. -/
def line0 (l : Nat) : LineData := { line := l, bytes := [(0, 1, false), (255, 2, true)] }
def landing (p : List Word) (l : Nat) : Started := { sd p with expanded := true, got := [line0 l] }
/-- An inbound packet. -/
def inb (p : List Word) (moves : List Move) : Inbound :=
  { sender := 3, vi := 0, asid := 0, engine := 0, pkt := p, bytes := List.replicate 64 1, poison := [], issueNo := 5, moves, effect := false, wait := none
    answered := none }
def stIn (x : Inbound) : State := { stV q0 [] with inbound := [x] }
def mv (dst n : Nat) : Move := { src := some 0, dst, n, swz := 0 }
theorem witness_CopiesMove_rows :
    ((∀ x ∈ [(pk1, 1), (pk2, 2), (pk3, 3), (pk3m, 3), (pk4, 4), (pk4m, 4), (pk5 0, 5), (pk6, 6)], ((stJ (sd x.1)).slot 0).started = some (sd x.1)
        ∧ pkKind x.1 = x.2 ∧ (sd x.1).expanded = false ∧ (sd x.1).wait = none)
      ∧ (pkInl pk3 = true ∧ pkInl pk4 = true ∧ (upto 0 (pkCount pk3)).map (pkIndex pk3) = [0xFFFFFF, 1])
      ∧ pkInl pk3m = false ∧ (match (stJ (sd pk3m)).readVa 0 0 (pkIdx pk3m) (4 * pkCount pk3m) 3 with | .ok xs _ => xs.all (fun x => !x.2) | _ => false) = true) := by
  decide +kernel
theorem witness_CopiesMove_lands :
    (((stJ (landing pkD 0x300)).slot 0).started = some (landing pkD 0x300) ∧ pkDrem pkD = true ∧ (landing pkD 0x300).moves = [])
    ∧ (pkDrem pk1 = false ∧ pkDsp pk1 = false ∧ reachAt { stJ (landing pk1 0x300) with freeIx := 1 } 3 (256 * 0x300) = true ∧ 256 * 0x300 % 256 = 0)
    ∧ (let s : State := stJ (landing pkSp 0);
      pkDrem pkSp = false ∧ pkDsp pkSp = true ∧ s.named 0 (pkSpcore pkSp) = some (.on 0) ∧ ((s.block 0).map fun b => decide (0xFF < b.area)) = some true
        ∧ ({ s with freeIx := 1 } : State).landBefore 0 (pkSpcore pkSp) 0 3 = false ∧ s.subWaits 0 0 256 s.seqNo = false
        ∧ ({ s with freeIx := 1 } : State).agentWaits 3 3 (.sp 0 0) = false)
    ∧ (let x : Started := { sd pk1 with expanded := true, moves := [mv 0x300FF 257] };
      x.moves ≠ [] ∧ x.got = [] ∧ (match ({ stJ x with freeIx := 1 } : State).readNext 0 ((stJ x).slot 0) x with | (.ok _ none _, 0x300, _) => true | _ => false) = true)
    ∧ (let x := { sd pk6 with expanded := true, moves := [{ mv 0x300C0 100 with src := some 0x20040 }] };
      (match ({ stJ x with freeIx := 1 } : State).readNext 0 ((stJ x).slot 0) x with | (.ok _ none _, _, _) => true | _ => false) = true)
    ∧ (let x := inb pk1 [mv 0x300FF 257];
      (stIn x).inbound[0]? = some x ∧ x.moves = mv 0x300FF 257 :: [] ∧ pkKind x.pkt ∈ [1, 2] ∧ (stIn x).appendTo x = none ∧ x.issueNo = 5 ∧ reachAt (stIn x) 5 (256 * 0x300) = true) := by
  decide +kernel
theorem witness_CopiesMove_combines :
    (∀ op, op < 3 → let x : Started := { sd (pk5 op) with expanded := true, got := [{ line := 0x30000, bytes := [(0, 1, false), (1, 0x3F, false)] }] };
      ((stJ x).slot 0).started = some x ∧ pkKind x.pkt = 5 ∧ x.moves = [] ∧ pkDrem x.pkt = false ∧ pkOp x.pkt = op ∧ reach { stJ x with freeIx := 1 } 0x30000 = true)
    ∧ (let p : List Word := 0x800000000005 :: (pk5 0).drop 1;
      pkDrem p = true ∧ pkKind p = 5)
    ∧ ∀ op, op < 3 → let x := inb (pk5 op) [mv 0x30000 64];
      (stIn x).inbound[0]? = some x ∧ pkKind x.pkt = 5 ∧ pkOp x.pkt = op ∧ x.poison = [] ∧ reach (stIn x) 0x30000 = true := by
  decide +kernel
theorem witness_PacketsEnd :
    (pkKind pk8 = 8 ∧ pkDrem pk8 = false ∧ reach (stJ (sd pk8)) (pkDst pk8 % 2 ^ 57) = true ∧ ((stJ (sd pk8)).slot 0).started = some (sd pk8)
      ∧ pkDrem (0x800000000008 :: pk8.drop 1) = true)
    ∧ (let x := inb pk8 [];
      (stIn x).inbound[0]? = some x ∧ x.effect = false ∧ reach (stIn x) 0x30000 = true)
    ∧ (let d := fun (p : List Word) => { sd p with expanded := true, acked := true, clips := 2 };
      ((∀ p ∈ [pk1, pkC, pkT, [0x12, 5, 0, 0, 0, 0, 0, 0]], (d p).performed = true ∧ (d p).poisoned = none ∧ ((stJ (d p)).slot 0).started = some (d p))
        ∧ pkWord pk1 = none ∧ pkTurn pk1 = none ∧ pkPriv [0x12, 5, 0, 0, 0, 0, 0, 0] = true ∧ pkTurn [0x12, 5, 0, 0, 0, 0, 0, 0] = none)
      ∧ (pkWord pkT = none ∧ pkTurn pkT = some (5, 8) ∧ (stJ (d pkT)).named 0 5 = some (.on 0) ∧ ((stJ (d pkT)).block 0).isSome = true)
      ∧ (pkPriv pkC = false ∧ pkWord pkC = some 0x40000 ∧ pkTurn pkC = none ∧ reach (stJ (d pkC)) 0x40000 = true))
    ∧ (let x : Inbound := { inb pk8 [] with effect := true };
      x.moves = [] ∧ x.wait = none ∧ (stIn x).inbound[0]? = some x) := by
  decide +kernel
theorem witness_TranslationPackets :
    (let x := sd [0x10, 0x10000, 2, 0, 0, 0, 0, 0];
      ((stJ x).slot 0).started = some x ∧ x.expanded = false ∧ pkKind x.pkt = 0x10)
    ∧ pkKind [0x12, 5, 0, 0, 0, 0, 0, 0] = 0x12
    ∧ (let x := sd [0x11, 0x10000, 2, 0, 0, 0, 0, 0];
      pkKind x.pkt = 0x11 ∧ ((stJ x).block 0).map Block.asid = some (pkAsid x.pkt))
    ∧ (let x := { sd [0x10, 0x10000, 2, 0, 0, 0, 0, 0] with expanded := true };
      x.acked = false ∧ x.wait = none ∧ pkPriv x.pkt = true ∧ (stJ x).accessesDone (pkAsid x.pkt) x.issueNo = true ∧ pkWord x.pkt = none)
    ∧ (let x := { sd [0x12, 5, 0, 0x40000, 0, 0, 0, 0] with expanded := true };
      (stJ x).accessesDone (pkAsid x.pkt) x.issueNo = true ∧ pkWord x.pkt = some 0x40000 ∧ reach (stJ x) 0x40000 = true) := by
  decide +kernel
/-- The header of a queue of four slots at 0x90000 in memory. -/
def stApp : State :=
  let x := inb [1, 0, 0x80000, 64, 0, 0, 0, 0] [mv 0x80000 64];
  { stIn x with mem := memT.setBytes 0x80010 (bytesOf 8 0x102 ++ bytesOf 8 0x90000) }
theorem witness_PeersArriveAndAnswer :
    ((stV q0 []).power = .booted ∧ (stV q0 []).ports.length < 12 ∧ bit ((stV q0 []).iface 0).victl.toNat 0 = true ∧ bit ((stV q0 []).space 0).root.toNat 0 = true
      ∧ bit ((stV q0 []).iface 1).victl.toNat 0 = false)
    ∧ (∃ x, stApp.inbound[0]? = some x ∧ stApp.appendTo x = some (0, q0) ∧ x.wait = none ∧ x.bytes.length = 64 ∧ (stApp.dw 0x80000 + 2 ^ 64 - stApp.dw 0x80008) % 2 ^ 64 < 2 ^ bits (stApp.dw 0x80010) 0 5
      ∧ bits (stApp.dw 0x80018) 6 51 * 64 = 0x90000 ∧ reach (stApp.setDw 0x80000 1) 0x90000 = true)
    ∧ (let x : Inbound := { inb pk1 [] with wait := some 5 };
      (stIn x).inbound[0]? = some x ∧ x.wait.isSome = true)
    ∧ (let x := landing pkD 0x300;
      ((stJ x).slot 0).started = some x ∧ pkDrem x.pkt = true ∧ pkPriv x.pkt = false ∧ 2 ^ 30 ≤ ((2 ^ 30 : Nat) + 2 ^ 64 - x.since) % 2 ^ 64
        ∧ x.got = line0 0x300 :: [] ∧ x.wait = none ∧ pkKind x.pkt ∈ [1, 2]) := by
  refine ⟨by decide +kernel, ⟨_, rfl, by decide +kernel⟩, by decide +kernel⟩
/-- A set of three members, and a bitmap one; an operation on it in its home's queue. -/
def set0 : SetObj :=
  { lo := 0, u := 256, rep := 1, pin := false, live := true, members := [1, 2, 200], lastAlg := 0, lastOp := 0, cv := [], btouch := 0, hcyc := 0
    area := 4096, broken := false, inStore := true, asid := 0, hdrVa := 0x20000 }
def setOp (r : SetReq) : SetOp :=
  { seq := 4, core := 0, team := 0, vi := 0, asid := 0, home := 0, va := 0x20000, cap := 4, srcs := [], reads := [], posted := [], req := r, func := 0 }
/-- An algebra step with both its sources read. -/
def algOp (f : Nat) : SetOp :=
  { setOp (.alg f) with
    func := f, srcs := [{ va := 0x30000, home := 1, cap := 5 }, { va := 0x40000, home := 2, cap := 6 }]
    reads := [{ ix := 0, fail := none, members := [1, 5, 9], rep := 1, lo := 0, u := 256 }, { ix := 1, fail := none, members := [5, 7], rep := 0, lo := 0, u := 256 }] }
/-- A team that waits for a result. -/
def tmAns (k : PendKind) (ds : List RegRef) : Team :=
  { tm0 with pend := [{ seq := 4, csn := 0, cls := .set, window := some 16, dests := ds, wrote := [], kind := k, heirs := [0], pc := 0x10000, word := 0, lane := 0, hnd := false }] }
/-- The team of core 0 waits for the operation that heads the queue of home 0. -/
def stSetOp (op : SetOp) (dst : Option RegRef) (sets : AMap SetObj) : State :=
  { stV q0 [] with clusters := [(0, { Cluster.init with sets, setq := [op] })]
                   cores := [(0, { Core.init with block := some (blkOf (tmAns (.set true dst none) [])) })] }
def stSet (r : SetReq) (sets : AMap SetObj) : State := stSetOp (setOp r) none sets
def homeOf (op : SetOp) (wr : Bool) : Bool :=
  let s := stSetOp op none [(0x20000, set0)]
  (s.cluster 0).setq[0]? == some op && op.home == 0 && op.unread.isEmpty && !s.setBlocked op op.touches
    && ((s.team 0 0).bind fun tm => tm.pendOf op.seq).map Pend.kind == some (.set true none none)
    && match s.engineXlat 0 0 0x20000 wr with
      | (.ok pa, s1) => pa == 0x20000 && s1.setAt 0 pa == some set0
      | _ => false
def atHome (r : SetReq) (wr : Bool) : Bool := homeOf (setOp r) wr
theorem witness_SetsStep_more :
    (∀ f ∈ [6, 7, 8, 9], homeOf (algOp f) true = true)
    ∧ (∀ mem ∈ [[1, 5, 9], [1, 5, 7, 9], [5], [1, 9]], repBytes (bestRep mem.length (runsOf mem) 256) mem.length (runsOf mem) 256 ≤ set0.area
      ∧ isFar (repBytes (bestRep mem.length (runsOf mem) 256) mem.length (runsOf mem) 256) = false)
    ∧ (∀ m ∈ [PinMode.off, .list, .runs, .bmap, .hash, .cur], atHome (.pin m) true = true ∧ set0.u ≤ 2 ^ 28
      ∧ repBytes (pinRep m set0) set0.members.length (runsOf set0.members) set0.u ≤ set0.area
      ∧ isFar (repBytes (pinRep m set0) set0.members.length (runsOf set0.members) set0.u) = false)
    ∧ (let op := setOp (.new 0 256 4096 (mkCap 0x20000 4160 63 3 0) true);
      ((stSetOp op (some (.c 4)) []).cluster 0).setq[0]? = some op ∧ op.unread = [] ∧ (stSetOp op (some (.c 4)) []).setBlocked op op.touches = false) := by
  decide +kernel
theorem witness_SetsStep :
    (set0.near ∧ set0.live = true ∧ (∀ r ∈ [SetReq.ins [(0, 3), (31, 255)], .del [(0, 1)], .clr, .has [(0, 1)], .enum 0 [0], .free], atHome r true = true)
      ∧ (∀ r ∈ [SetReq.card, .info 5], atHome r false = true)
      ∧ (let mem := [1, 2, 3, 200, 255];
        let rep := checkRep set0.pin set0.rep mem.length (runsOf mem) set0.u;
        max (repBytes set0.rep mem.length (runsOf mem) set0.u) (repBytes rep mem.length (runsOf mem) set0.u) ≤ set0.area
          ∧ isFar (repBytes rep mem.length (runsOf mem) set0.u) = false)
      ∧ repBytes (bestRep 0 0 256) 0 0 256 ≤ set0.area ∧ isFar (repBytes (bestRep 0 0 256) 0 0 256) = false)
    ∧ ((stSet (.has [(0, 1)]) []).setAt 0 0x20000 = none ∧ (stSet (.has [(0, 1)]) []).setBlocked (setOp (.has [(0, 1)])) (setOp (.has [(0, 1)])).touches = false)
    ∧ (∀ k ∈ [PendKind.set true (some (.p 1)) (some (.preds [(0, true)])), .set true (some (.v 1)) (some (.vals [(0, 7)])), .set true (some (.s 6)) (some (.one 7)),
        .set false (some (.c 4)) (some (.cap 0 false)), .set false none (some .accepted)],
        ((tmAns k []).pend.find? fun p => match p.kind with | .set _ _ (some _) => true | _ => false).map Pend.kind = some k)
    ∧ ((stSet .card [(0x20000, set0)]).setAt 0 0x20000 = some set0 ∧ isFar set0.bytes = false
      ∧ (match (stSet .card [(0x20000, set0)]).homeRange 0 0 true 0x20040 set0.bytes with | (.ok _, _) => true | _ => false) = true) := by
  refine ⟨⟨⟨by decide, by decide, by decide⟩, by decide +kernel⟩, by decide +kernel⟩
/-- A macro operation that waits, and one that has started. -/
def aop (started : Bool) : ArrOp :=
  { seq := 4, team := 0, sub := 0, sub2 := 0, w := 8, prow := 0, kind := .bin 0 0 1 2 3, started, writes := [(64, 5), (65, 6)], poison := [], count := 9, bad := none }
def blkA (started : Bool) : Block :=
  { blkOf (tmAns (.arr (some 6) 0 false none) [.s 6]) with subs := [(0, [aop started])] }
/-- A scratchpad with all that an operation has written. -/
def wrote (p : Scratch) (op : ArrOp) : Scratch := { p with bytes := (p.compute op).bytes.foldr (fun x m => AMap.put m x.1 x.2) p.bytes }
theorem find?_puts (m : AMap Byte) (l : List (Nat × Byte)) (x : Nat) :
    AMap.find? (l.foldr (fun x m => AMap.put m x.1 x.2) m) x = (((l.find? fun y => y.1 == x).map Prod.snd).orElse fun _ => AMap.find? m x) := by
  induction l with
  | nil => rfl
  | cons y l ih =>
    by_cases h : y.1 = x
    · subst h; simp
    · rw [List.foldr_cons, AMap.find?_put_ne _ _ h, ih]; simp [h]
/-- Every operation of every kind meets the premise of the third part, for every scratchpad. -/
theorem witness_ArraysRun_columns (p : Scratch) (op : ArrOp) (x : Nat) :
    (wrote p op).byte x = (((p.compute op).bytes.find? fun y => y.1 == x).map Prod.snd).getD (p.byte x) := by
  simp only [Scratch.byte, wrote, find?_puts]
  cases (p.compute op).bytes.find? fun y => y.1 == x <;> rfl
theorem witness_ArraysRun :
    ((AMap.get [] (blkA false).subs 0).find? (fun o => !o.started) = some (aop false) ∧ (blkA false).canStart 0 (aop false) = true
      ∧ ((AMap.get [] (blkA false).subs 0).map ArrOp.seq).Nodup)
    ∧ ((AMap.get [] (blkA true).subs 0).find? (fun o => o.started) = some (aop true)
      ∧ ((tmAns (.arr (some 6) 0 false none) []).pendOf 4).map Pend.kind = some (.arr (some 6) 0 false none) ∧ ((aop true).writes.map Prod.fst).Nodup
      ∧ (aop true).bad = none) := by
  decide +kernel

/-! ### Witnesses: the matrix engine, bank units, errors, tests -/

/-- An `m.mma` of one column that stands at a row; the row that its operands give. -/
def row0 : MRow := { data := List.replicate 128 1, side := List.replicate 16 0, scales := [127, 127, 127, 127], bad := none, badScale := none }
def mma0 (ty : MType) (row : Nat) : Mma :=
  { ty, acc := 1, a := 0, b := 1, ta := tile0, tb := tile0, qa := none, qb := none, mir := 0, seq := 2, mpc := 0, rows := row, stopped := false
    bv := some [row0], av := [(row, row0)], missing := [] }
/-- A transfer of either direction and type at a row. -/
def xfer (store : Bool) (ty row : Nat) : Transfer :=
  { store, acc := 1, reg := 6, tile := { tile0 with dw := [0x1000, 128, 0x200080, 0, 0, 0, 0, 0] }, ty, row, seq := 2, posted := [] }
def load0 (cap : Bool) (code : Nat) : RecLoad := { cap, code, off := 0x8000, seq := 2 }
theorem witness_MatrixEngine_engine :
    ((stSeq seq0).block 0 = some (blkM seq0) ∧ (blkM seq0).seq = some seq0)
    ∧ (let q : Seq := { seq0 with accepted := some (mma0 .i8 0) };
      (blkM q).seq = some q ∧ q.running = none ∧ q.stop = false)
    ∧ (∀ ty ∈ [MType.i8, .f32, .e4m3], ∀ r ∈ [0, 127], let m := mma0 ty r;
      m.stopped = false ∧ seq0.stop = false ∧ m.pageHeld m.rows = false ∧ m.bv = some [row0] ∧ AMap.find? m.av m.rows = some row0 ∧ row0.bad = none ∧ row0.badScale = none
        ∧ seq0.accPoison = [] ∧ m.ta.rows = 128)
    ∧ ({ mma0 .i8 3 with missing := [] } : Mma).stopped = false
    ∧ ({ mma0 .i8 3 with stopped := true } : Mma).pageHeld 3 = false := by
  decide +kernel
theorem witness_MatrixEngine_moves :
    (∀ store ∈ [true, false], ∀ ty ∈ [0x0A, 0x08], ∀ r ∈ [0, 127], let x := xfer store ty r;
      let off := (x.tile.addr + x.row * x.tile.pitch) % Config.spBytes;
      let n := x.tile.cols * if x.ty = 0x0A then 2 else 4;
      x.posted = [] ∧ capKind x.tile.cap = 1 ∧ seq0.accPoison = [] ∧ x.tile.cols ≤ 128 ∧ x.tile.rows = 128 ∧ (blkM seq0).present off n = true
        ∧ (stSeq seq0).xferTakes 0 (blkM seq0) x = true ∧ (stSeq seq0).subWaits 0 off n x.seq = false
        ∧ (stSeq seq0).agentWaitsOver x.seq x.seq (.sp 0 off) n = false ∧ (stSeq seq0).poisonedAt (.sp 0 off) n = false)
    ∧ (∀ l ∈ [load0 true 3, load0 false 7, load0 false 8, load0 false 15], let n := if l.cap then 16 else 64;
      (blkM seq0).present l.off n = true ∧ (stSeq seq0).subWaits 0 l.off n l.seq = false ∧ (stSeq seq0).poisonedAt (.sp 0 l.off) n = false)
    ∧ ({ seq0 with arrives := [(8, 2)] } : Seq).mayArrive 2 = true := by
  decide +kernel
/-- A bank command of team 0 on units 2 and 3 of channel 33; a channel; a state with both. -/
def bcmd (r : BankReq) : BankCmd := { seq := 4, core := 0, team := 0, vi := 0, ch := 33, units := 12, word := 0, sb := 0, rowBase := 64, req := r }
def runReq (step : Bool) : BankReq := .run 2 3 step false 5 4 0 0
def runOf (c : BankCmd) : Run :=
  { cmd := c, row := 5, active := false, rowEnd := false, last := false, ended := false, atPoint := false, suspended := false, free := true, wrote := false }
def stBk (tm : Team) (c : Channel) : State :=
  { State.reset with cores := [(0, { Core.init with block := some (blkOf tm) })], channels := [(33, c)] }
def tmBk (r : BankReq) (k : PendKind) : Team := { tmAns k [] with cmds := [bcmd r] }
theorem witness_BankCommands :
    (∀ r ∈ [BankReq.ucld [(0, 8), (1, 0)], runReq false, .accRd 0 [0, 7], .accWr 7 [(0, 1), (7, 2)], .stat, .fence, .step 9],
      let s := stBk (tmBk r (.bank 33 (some (.s 6)) none)) Channel.init;
      (s.team 0 0).map Team.cmds = some [bcmd r] ∧ (s.channel 33).starting = false
        ∧ ((tmBk r (.bank 33 (some (.s 6)) none)).pendOf 4).map Pend.kind = some (.bank 33 (some (.s 6)) none))
    ∧ (∀ b ∈ [true, false], let c : Channel := { Channel.init with runs := [runOf (bcmd (runReq b))] };
      c.starting = false ∧ c.stepRun 0 0 2 = some (bcmd (runReq b)) ∧ (bcmd (runReq b)).run?.map RunArgs.step = some b)
    ∧ ({ Channel.init with runs := [{ runOf (bcmd (runReq true)) with active := true, wrote := true }] } : Channel).writtenRows ≠ []
    ∧ (∀ k ∈ [PendKind.bank 33 (some (.v 1)) (some [(0, 7), (7, 8)]), .bank 33 (some (.s 6)) (some [(0, 7)]), .bank 33 none (some [])],
        (readyBank (tmAns k []).pend).map Pend.kind = some k) := by
  decide +kernel
/-- A micro-program: word 2 adds `.f32` lanes, word 3 goes to the next row, word 4 ends the row with a write. -/
def prog : AMap Word := [(2, 0x120000000000), (3, 4), (4, 0x4000C)]
def chB (q : BankCmd) : Channel := { Channel.init with activeBank := prog, shadow := prog, queue := [q], units := [(3, { BankUnit.init with lc := 1 })] }
theorem witness_RunsExecute_starts :
    ((stBk tm0 { Channel.init with shadow := prog }).channel 33).activeBank ≠ ((stBk tm0 { Channel.init with shadow := prog }).channel 33).shadow
    ∧ (∀ r ∈ [runReq false, runReq true, .accRd 7 [0, 7], .accWr 0 [(0, 1), (7, 2)]], let c := chB (bcmd r);
      c.queue[0]? = some (bcmd r) ∧ c.heads 0 (bcmd r) = true ∧ c.claims (bcmd r).units = false)
    ∧ ((bcmd (runReq true)).run?.isSome = true ∧ prog = (chB (bcmd .stat)).activeBank ∧ runFault prog 2 = none)
    ∧ ((stBk (tmAns (.bank 33 (some (.v 1)) none) []) (chB (bcmd (.accRd 7 [0, 7])))).bankResult 0 0 4 = some none)
    ∧ [((0 : Nat), (1 : Word)), (7, 2)].map Prod.fst = [0, 7]
    ∧ ({ runOf (bcmd (runReq false)) with ended := true } : Run).ended = true := by
  decide +kernel
theorem accs_unmarked : ∀ n, ((chB (bcmd (.accRd 7 [0, 7]))).unit n).pba = [] := by
  intro n
  by_cases h : n = 3
  · subst h; rfl
  · have e : (chB (bcmd (.accRd 7 [0, 7]))).unit n = BankUnit.init := by
      simp [Channel.unit, chB, AMap.get, AMap.find?, Ne.symm h]
    rw [e]; rfl
/-- The team waits for a bank instruction; a state in which an `m.acst` has begun to store to the row of a run, on a
huge page that starts with stack 1. -/
def pendB : Pend := (tmAns (.bank 33 none none) []).pend.headD
  { seq := 0, csn := 0, heirs := [0], cls := .bank, window := none, dests := [], wrote := [], kind := .land, pc := 0, word := 0, lane := 0, hnd := false }
def stOwner (r : Run) : State :=
  let t := { tile0 with dw := [rowAt r, 128, 0x200080, 0, 0, 0, 0, 0], cap := mkCap 0 (2 ^ 40) 63 0 0 }
  { stBk tm0 { Channel.init with activeBank := prog, runs := [r] } with
    mem := (Memory.init.setBytes 0x100000 (bytesOf 8 0x108001)).setBytes 0x108000 (bytesOf 8 (2 ^ 36 + 7))
    spaces := [(0, { Space.init with root := 0x100001 })]
    cores := [(0, { Core.init with block := some (blkM { seq0 with xfers := [{ store := true, acc := 1, reg := 6, tile := t, ty := 8, row := 1, seq := 2
                                                                               posted := [] }] }) })] }
where rowAt (r : Run) : Word := BitVec.ofNat 64 ((r.lines 33).headD 0 * 256 - 2 ^ 36)
theorem witness_RunsExecute_rows :
    let r := runOf (bcmd (runReq false));
    let c := fun (x : Run) => ({ Channel.init with activeBank := prog, runs := [x], units := [(2, { BankUnit.init with upc := 4 })] } : Channel);
    ((c r).runs[0]? = some r ∧ ((c r).runs.map fun x => x.cmd.seq).Nodup ∧ r.cmd.run?.isSome = true ∧ (c r).window = false
      ∧ (stBk tm0 (c r)).rowTaken 33 r = false ∧ (stBk tm0 (c r)).clusters = []
      ∧ (stOwner r).rowTaken 33 r = true)
    ∧ (let x : Run := { r with active := true, free := false };
      let d : Channel := { c x with steps := [{ seq := 6, core := 0, team := 0, run := 4, left := 1 }] };
      x.rowEnd = false ∧ (∀ y ∈ (c x).steps, y.run ≠ x.cmd.seq) ∧ (∃ y ∈ d.steps, y.run = x.cmd.seq)
        ∧ (d.steps.find? fun y => y.run == x.cmd.seq).map StepCmd.left = some 1 ∧ (d.steps.map StepCmd.seq).Nodup
        ∧ (stBk { tmAns (.bank 33 none none) [] with pend := [{ pendB with seq := 6 }] } d).bankResult 0 0 6 = some none)
    ∧ (let x : Run := { r with active := true };
      x.rowEnd = false ∧ x.free = true ∧ (unitsOf x.cmd.units).head? = some 2 ∧ (AMap.get 0 (c x).activeBank ((c x).unit 2).upc).toNat = 0x4000C)
    ∧ (∀ l ∈ [true, false], let x : Run := { r with active := true, rowEnd := true, last := l };
      x.active = true ∧ x.rowEnd = true ∧ x.last = l) := by
  decide +kernel
theorem witness_RunsExecute_words :
    (∀ d, d < 4 → uDt (d * 2 ^ 41 + 2 ^ 44) = d ∧ uAop (d * 2 ^ 41 + 2 ^ 44) = 1 ∧ 0 < dtLanes d)
    ∧ (∀ a ∈ [0, 1, 2, 3, 4, 6, 8, 9, 10, 12], uAop (a * 2 ^ 44 + 2 ^ 42 + 2 ^ 27) = a ∧ dtFloat (uDt (a * 2 ^ 44 + 2 ^ 42 + 2 ^ 27)) = false) := by
  decide +kernel
/-- A run at its point; a suspended run with an ordinary access that waits; a channel whose window has served 31 or 32 accesses. -/
def stPt (r : Run) (w : Bool) (n : Nat) : State :=
  stBk tm0 { Channel.init with runs := [r], window := w, served := n, order := [(0, 0, 33), (512, 1, 34)], due := 1 }
theorem witness_RunsGiveWay :
    let r := runOf (bcmd (runReq false));
    (((stPt { r with atPoint := true } false 0).channel 33).runs[0]? = some { r with atPoint := true } ∧ ((stPt { r with atPoint := true } false 0).channel 33).order.isEmpty = false)
    ∧ (∀ x ∈ ((stPt { r with suspended := true } false 0).channel 33).runs, x.suspended = true)
    ∧ (((stPt r true 32).channel 33).window = true ∧ 32 ≤ ((stPt r true 32).channel 33).served)
    ∧ (((stPt r false 0).channel 33).runs ≠ [] ∧ ((stPt r false 0).channel 33).window = false)
    ∧ (let c := (stPt r true 31).channel 33;
      c.order = (0, 0, 33) :: [(512, 1, 34)] ∧ c.window = true ∧ c.due ≠ 0 ∧ c.served + c.fill ≤ 32) := by
  decide +kernel
/-- A halt request, and the team and state that hold it. -/
def hreq (x : Option Bool) : HaltReq := { code := 0x18, aux := 5, pc := 0x10000, word := 7, lane := 31, fault := none, hnd := false, reached := x }
def tmH (x : Option Bool) : Team := { tm0 with haltReqs := [hreq x] }
theorem witness_ErrorsAndHalts :
    ((stB (blkOf tm0) 0).block 0 = some (blkOf tm0) ∧ (stB (blkOf tm0) 0).team 0 0 = some tm0)
    ∧ ((stSet .card [(0x20000, set0)]).setAt 0 0x20000 = some set0 ∧ set0.inStore = true)
    ∧ (0x20000 / 32 ∈ ({ State.reset with mem := { Memory.init with poison := [0x1000] } } : State).mem.poison)
    ∧ (State.reset.stackCore 63).outOfService = false
    ∧ (∀ x ∈ [none, some false], (tmH x).haltReqs = hreq x :: [] ∧ (hreq x).reached = x ∧ (tmH x).halted = false)
    ∧ (({ tm0 with wd := Config.wdMax + 1 } : Team).halted = false ∧ Config.wdMax < ({ tm0 with wd := Config.wdMax + 1 } : Team).wd) := by
  decide +kernel
/-- A test of cluster 127 at a clock; the cluster empty, or with a block whose team has finished. -/
def test0 : Test := { due := 2 ^ 26 * 127, requested := none, run := none, interfaces := [0, 63] }
def stTest (x : Option Test) (clock : Nat) (cores : AMap Core) : State :=
  { stV q0 [] with clusters := [(127, { Cluster.init with test := x })], clock, cores, image := { imageNone with ti := 2 ^ 36 } }
theorem witness_TestsRun :
    ((stTest none (2 ^ 40) []).power = .booted ∧ 127 < Config.clusters ∧ ((stTest none (2 ^ 40) []).cluster 127).test = none
      ∧ (stTest none (2 ^ 40) []).passed ((((stTest none (2 ^ 40) []).cluster 127).nextTest + 1) * (stTest none (2 ^ 40) []).image.ti + 2 ^ 26 * 127) 0 = true)
    ∧ (let s := stTest (some test0) 0 [(511, { Core.init with block := some (blkOf tmF) })];
      (s.cluster 127).test = some test0 ∧ test0.requested = none ∧ ((clusterCores 127).all fun k => (s.block k).all Block.testable) = true ∧ (s.block 511).isSome = true)
    ∧ (let x : Test := { test0 with requested := some 5 };
      x.requested.isSome = true ∧ x.run = none ∧ ∀ k ∈ clusterCores 127, (stTest (some x) 0 []).block k = none)
    ∧ ((stTest (some { test0 with run := some 0 }) (2 ^ 22) []).passed 0 (2 ^ 22) = true ∧ test0.interfaces.Nodup)
    ∧ (stTest (some test0) (2 ^ 34) []).passed test0.due Config.testSkipClocks = true := by
  decide +kernel

/-! ### Witnesses: the host -/

/-- The device with interface 0 as given, and block 0 of its space 1 resident or not. -/
def stHost (i : Iface) (q : QueueSlot) (used : Bool) : State :=
  { stV q [] with ifaces := [(0, i)]
                  cores := if used then [(0, { Core.init with block := some { blkOf tm0 with asid := 1 } })] else [] }
/-- Interface 0 with QSEL 0 and ASSEL 1, a `QHDR` of a header at 0x80000 in space 0, and a write that waits. -/
def ifH (h : List HeldWrite) : Iface := { if0 with assel := 1, qhdr := [(0, 0x80000)], held := h }
def hw (off : Nat) (busy : Bool) : HeldWrite := { off, val := 2, sel := 1, busy }
theorem witness_HostWrites :
    ((stHost { ifH [] with resync := some (some [0], 0x500000) } q0 false).hostReach 0 = true
      ∧ ((stHost { ifH [] with resync := some (some [0], 0x500000) } q0 false).iface 0).resync.isSome = true)
    ∧ (∀ used, let s := stHost (ifH [hw 0x020 false]) q0 used;
      s.hostReach 0 = true ∧ (s.iface 0).resync = none ∧ (∀ h ∈ (s.iface 0).held, h.busy = false) ∧ s.spaceInUse 0 (s.iface 0).assel = used
        ∧ s.waitsFor 0 0x020 0 = false ∧ s.waitsFor 0 0x030 (s.iface 0).assel = false ∧ s.waitsFor 0 0x048 (s.iface 0).qsel = false)
    ∧ (stHost (ifH []) q0 false).waitsFor 0 0x020 1 = false ∧ q0.registered = true ∧ ((stHost (ifH []) QueueSlot.init false).slot 0).registered = false := by
  decide +kernel
/-- What the header at a virtual address is found to be. -/
def leafed (s : State) (va : Nat) : Bool :=
  match s.walk 0 va with
  | .leaf lv fr w _ path => fr + va % 2 ^ pageBits lv == va && decide (s.setAD 0 path w = s)
  | _ => false
/-- The tables with A and D set, and a header at 0x80000 whose last doublewords are as given. -/
def memH (d2 : Nat) : Memory :=
  (((Memory.init.setBytes 0x100000 (bytesOf 8 0x108009)).setBytes 0x108000 (bytesOf 8 0x1F)).setBytes 0x80010 (bytesOf 8 d2)).setBytes 0x80018 (bytesOf 8 0x90000)
theorem witness_QueuesRegister :
    (∀ d2 ∈ [0x102, 0x102 + 2 ^ 63], let s : State := { stHost (ifH []) QueueSlot.init false with mem := memH d2 };
      s.hostReach 0 = true ∧ (s.iface 0).resync = none ∧ (s.iface 0).held = [] ∧ (s.slot 0).registered = false ∧ (s.slot 0).closing = false
        ∧ s.waitsFor 0 0x058 0 = false ∧ leafed s 0x80000 = true ∧ isHost 0x80000 = false ∧ s.poisonedAt (.pa 0x80000) 32 = false
        ∧ headerOk (s.dw 0x80010) (s.dw 0x80018) = decide (d2 = 0x102))
    ∧ (q0.registered = true ∧ q0.closing = false ∧ q0.quiet = true ∧ ({ q0 with head := some pk1 } : QueueSlot).quiet = true
      ∧ ({ q0 with started := some (sd pk1) } : QueueSlot).quiet = false)
    ∧ (∀ off ∈ [0x020, 0x048, 0x058], let s := stHost (ifH [hw off false]) { QueueSlot.init with closing := true } false;
      (s.iface 0).held[0]? = some (hw off false) ∧ s.spaceInUse 0 1 = false ∧ (s.slot 1).registered = false ∧ (s.slot 1).quiet = true)
    ∧ ((stHost (ifH [hw 0x078 true]) q0 false).iface 0).held[0]? = some (hw 0x078 true) := by
  decide +kernel
theorem witness_ApertureAndPower :
    (let s : State := { stHost { ifH [] with apsel := 16 } q0 false with mem := memH 0x102 };
      s.hostReach 0 = true ∧ bit (s.iface 0).apsel.toNat 4 = true ∧ (∀ w ∈ [MWidth.b8, .b16, .b32, .b64], 0x80010 % mwN w = 0) ∧ leafed s 0x80010 = true
        ∧ s.lineBusy 0x80010 = false ∧ isHost 0x80010 = false ∧ s.poisonedAt (.pa 0x80010) 8 = false)
    ∧ (State.reset.power ≠ .booted ∧ State.reset.linkUp = true ∧ ({ State.reset with linkUp := false } : State).linkUp = false)
    ∧ AMap.wf Iface.init (stHost { ifH [] with lost := 3 } q0 false).ifaces = true := by
  decide +kernel

/-! ### Witnesses: the clauses of the statements beside their plain cases -/

/-- Team 4 waits alone in the queue of the partition of team 0. -/
def tm4 : Team := { newTeam 0x10000 7 1 32 1 false 0 [] [] with frags := [{ fr0 with csn := 7, entry := 1, hold := .grow }] }
def blkSh : Block := { blkOf tm0 with teams := [(0, tm0), (4, tm4)], parts := [(0, { Part.init with csnNext := 8, grants := [(4, 7, 1)] })] }
theorem witness_ShrinkServes :
    (stB blkSh 0).issuer = some (ctxB blkSh tm0 fr0 0) ∧ (ctxB blkSh tm0 fr0 0).calm = true ∧ tm0.lift = .core ∧ (ctxB blkSh tm0 fr0 0).acts un = true
      ∧ (15 : BitVec 28).toInt = 15 ∧ (15 : BitVec 28).toNat < tm0.G ∧ (blkSh.part 0).grants = [(4, 7, 1)] ∧ AMap.find? blkSh.teams 4 = some tm4
      ∧ tm4.frags.map (fun f => (f.csn, f.hold, f.linkv, f.hollow)) = [(7, .grow, false, false)] ∧ tm4.frags.all (fun f => f.mask != 0) = true
      ∧ 64 * tm4.L * 1 ≤ ({ blkSh with teams := AMap.put blkSh.teams 0 (tm0.shrinkTo (tm0.G - 15)) } : Block).pool 0 := ⟨rfl, by decide +kernel⟩
/-- A team in its handler: one fragment issues, another parked at the trap entry; with a halt that it holds, and without. -/
def tmHd (r : List HaltReq) : Team :=
  { tm0 with handler := true, trappc := 0x20000, haltReqs := r, frags := [{ fr0 with mask := 0xFFFF }, { fr0 with csn := 1, entry := 1, mask := 0xFFFF0000, trapHeld := true }] }
theorem witness_TrapEntry_issuer (r : List HaltReq) : (st (tmHd r)).issuer = some (ctx (tmHd r)) := rfl
theorem witness_TrapEntry_returns : ∀ r ∈ [[], [hreq (some true)]],
    (ctx (tmHd r)).calm = true ∧ (ctx (tmHd r)).acts un = true ∧ (tmHd r).handler = true
      ∧ (tmHd r).haltReqs.find? (fun r => r.reached == some true) = r.head? := by
  decide +kernel
/-- An atomic through an untagged capability, and one beyond its capability. -/
theorem witness_AccessTraps_atomics : ∀ i ∈ ([.vAtomAdd ⟨un, 0, 6, 10, .lid, 7, 3, .plain, .i64⟩, .vAtomFadd ⟨un, 0, 6, 12, .lid, 7, 2, .plain, .f32⟩] : List Instr),
    (match atomForm i with
      | some (o, _) => (Access.cause tmC (atomAccess (ctx tmC) o ((ctx tmC).lanes o.g))).isSome
      | none => false) = true := by
  decide +kernel
/-- The core of `stM` without the translation; with and without tables that hold it. -/
def stMw (root : Word) : State :=
  { stM with cores := [(0, { Core.init with block := some (blkOf tmM) })], mem := memT, spaces := [(0, { Space.init with root })] }
theorem witness_FenceCompletes_walks :
    (stMw 0x100001).hit 0 tmM 0 0x10008 false = none ∧ (stMw 0x100001).walk 0 0x10008 = .leaf 2 0 true false [0x100000, 0x108000]
      ∧ (stMw 0).hit 0 tmM 0 0x10008 false = none ∧ (match (stMw 0).walk 0 0x10008 with | .leaf _ _ _ _ _ => false | _ => true) = true := by
  decide +kernel
/-- A full partition whose fragments all wait at their reconvergence address, and a spilled fragment that could go on. -/
def frW (n : Nat) : Frag := { fr0 with csn := n, entry := n, rpcv := true, rpc := fr0.pc }
def tmFull : Team := { tm0 with frags := (List.range 64).map frW ++ [{ fr0 with csn := 64, spilled := true }] }
theorem witness_FetchAndWalks_swaps :
    (blkOf tmFull).reloadable 0 = some (0, { fr0 with csn := 64, spilled := true }) ∧ (blkOf tmFull).freeEntry 0 = none
      ∧ (((blkOf tmFull).resident 0).all fun y => y.2.waiting && !y.2.safe && decide (y.2.csn < 63 ∨ y.2 = frW 63)) = true
      ∧ tmFull.frag 64 = some { fr0 with csn := 64, spilled := true } ∧ tmFull.frag 63 = some (frW 63) ∧ tmFull.leafless 63 = true
      ∧ (st tmFull).subWaits 0 ((blkOf tmFull).spillOff 0 (frW 63)) 64 (st tmFull).seqNo = false := by
  decide +kernel
/-- A capability store, to the scratchpad and to memory; a store to host memory while the link is down. -/
def reqT (l : Loc) : StReq := { reqP with loc := l, bytes := bytesOf 16 7, tag := true, rel := none }
theorem witness_StoresPerform_more :
    (let tm := { tm0 with stb := [reqT (.sp 0 0x1FFF0)] };
      (stW tm []).block 0 = some (blkOf tm) ∧ tm.loadBefore (reqT (.sp 0 0x1FFF0)) = false ∧ (stW tm []).owned 5 (.sp 0 0x1FFF0) = false
        ∧ (stW tm []).spHeld (.sp 0 0x1FFF0) 16 5 = false ∧ (reqT (.sp 0 0x1FFF0)).bytes ≠ [])
    ∧ ((stW tm0 [reqT (.pa 0x10000)]).pathHeld 0 0 (reqT (.pa 0x10000)) = false ∧ (stW tm0 [reqT (.pa 0x10000)]).owned 5 (.pa 0x10000) = false)
    ∧ (let s : State := { stW tm0 [reqT (.pa (2 ^ 47))] with linkUp := false };
      s.pathHeld 0 0 (reqT (.pa (2 ^ 47))) = false ∧ s.owned 5 (.pa (2 ^ 47)) = false ∧ isHost (2 ^ 47) = true) := by
  decide +kernel
/-- An acquiring atomic, and one that meets poison. -/
def tmAq : Team := { tm0 with memcnt := 1, pend := [pend .mem [.v 6] (.atom 1 true false [])] }
theorem witness_AtomicsPerform_more :
    (∀ bad ∈ [[], [0x10000 / 32]], let s : State := { stW tmAq [reqA] with mem := { Memory.init with poison := bad } };
      s.pathHeld 0 0 reqA = false ∧ s.owned reqA.seq reqA.loc = false ∧ s.spHeld reqA.loc 8 5 = false ∧ s.mayFill 0x10000 8 = true
        ∧ s.poisonedAt reqA.loc 8 = !bad.isEmpty ∧ s.team 0 0 = some tmAq ∧ (tmAq.pendOf 7).map Pend.kind = some (.atom 1 true false [])
        ∧ tmAq.halted = false)
    ∧ ((0x7FC00000 : Nat) < 2 ^ 32 ∧ isNan (decodeF (fmtOf .f32) 0x7F800001) = true ∧ isNan (decodeF (fmtOf .f32) 0x3F800000) = false) := by
  decide +kernel
/-- A load that meets poison in the scratchpad; an atomic that has met it. -/
theorem witness_ResultsReturn_poison :
    (let s : State := stB { blkOf tmP5 with sp := { Scratch.init with poison := [0x1FFF8 / 8] } } 0;
      (match s.readLanes 0 0 tmP5 (pend .mem [.v 127] (.load spLanes 8 false (.v 127) [] none none false none)) none false false 8 false spLanes [] 0 with
        | .bad _ => true
        | _ => false) = true ∧ s.team 0 0 = some tmP5 ∧ tmP5.halted = false)
    ∧ (let p := pend .mem [.v 6] (.atom 0 false true []);
      ({ tm0 with pend := [p] } : Team).firstOf p = true ∧ p.dests = .v 6 :: [])
    ∧ (let p := pend .mem [.v 6] (.load [] 8 false (.v 6) [] (some .dev) none false (some [(0, 1, false)]));
      ({ tm0 with pend := [p] } : Team).firstOf p = true) := by
  decide +kernel
theorem witness_PlainLoadsRead :
    (let s := stW tm0 [];
      s.pathOf 0 = [] ∧ s.l1Get 0 0x10018 = none ∧ s.owned 7 (.pa 0x10018) = false ∧ s.mayFill (0x10018 / 32 * 32) 32 = true
        ∧ s.poisonedAt (.pa (0x10018 / 32 * 32)) 32 = false ∧ tm0.stb = [] ∧ tm0.lifted = false ∧ 0x10018 % 32 + 8 ≤ 32)
    ∧ (let s := stW tm0 [{ reqP with team := 1 }];
      s.mayFill 0x10000 8 = true ∧ s.poisonedAt (.pa 0x10000) 8 = false ∧ ∀ r ∈ (s.core 0).path, r.team ≠ 0)
    ∧ ((stW tm0 []).owned 7 (.sp 0 0x1FFF8) = false ∧ (stW tm0 []).spHeld (.sp 0 0x1FFF8) 8 5 = false ∧ (stW tm0 []).poisonedAt (.sp 0 0x1FFF8) 8 = false) := by
  decide +kernel
/-- Walks: of a page without W, of malformed tables, of the stream's absent page, for a lifted team; one whose space has another generation. -/
def memW (e : Nat) : Memory := (Memory.init.setBytes 0x100000 (bytesOf 8 0x108001)).setBytes 0x108000 (bytesOf 8 e)
def stWk (e : Nat) (tm : Team) (w : Walk) : State :=
  { State.reset with mem := memW e, spaces := [(0, { Space.init with root := 0x100001 })]
                     cores := [(0, { Core.init with block := some (blkM seq0 |> fun b => { b with teams := [(0, tm)] }), walks := [w] })] }
theorem witness_FetchAndWalks_walks :
    (let s := stWk 3 tm0 (walkAt 0x20000 true);
      s.mayWalk 0 0x20000 = true ∧ (s.core 0).walks[0]? = some (walkAt 0x20000 true) ∧ s.team 0 0 = some tm0
        ∧ (match s.walk 0 0x20000 with | .leaf _ _ false _ _ => true | _ => false) = true)
    ∧ (let s := stWk 0xFF tm0 (walkAt 0x20000 true);
      s.mayWalk 0 0x20000 = true ∧ (match s.walk 0 0x20000 with | .bad false => true | _ => false) = true ∧ tm0.frag 0 = some fr0)
    ∧ (let s := stWk 7 tm0 { walkAt 0x400000000 false with team := 64 };
      s.mayWalk 0 0x400000000 = true ∧ (match s.walk 0 0x400000000 with | .absent => true | _ => false) = true
        ∧ ((s.block 0).map Block.seq) = some (some seq0))
    ∧ (let s := stWk 7 tmUp (walkAt 0x20000 true);
      s.team 0 0 = some tmUp ∧ tmUp.lift = .up 0 0 0 ∧ tmUp.halted = false ∧ (match s.walk 0 0x20000 with | .leaf _ _ true _ _ => true | _ => false) = true)
    ∧ (let w : Walk := { walkAt 0x20000 true with gen := 1 };
      ((stWk 7 tm0 w).space w.asid).gen ≠ w.gen ∧ (match (stWk 7 tm0 w).walk 0 0x20000 with | .leaf _ _ _ _ _ => true | _ => false) = true) := by
  decide +kernel
theorem witness_FetchAndWalks_ahead :
    tlbHit stWalk (stWalk.cluster 0).wtlb 0 0 = none ∧ stWalk.mayWalk 0 0 = true ∧ stWalk.mayFill (0x1FFFF / 32 * 32) 32 = true
      ∧ (match stWalk.walk 0 0 with | .leaf _ _ _ _ _ => true | _ => false) = true := by
  decide +kernel
/-- A lifted team that has exited, and one that has halted, with nothing outstanding; a landing one with its `b.land`. -/
def pendL : Pend := { (pend .bank [] .land) with seq := 0 }
theorem witness_LiftAndLand_leaves :
    (∀ tm ∈ [{ tmUp with frags := [] }, { tmUp with halted := true }], (st tm).team 0 0 = some tm ∧ tm.lift = .up 0 0 0 ∧ (tm.frags = [] ∨ tm.halted = true)
      ∧ tm.cmds = [] ∧ tm.pend = [] ∧ (st tm).stbcnt 0 0 = 0)
    ∧ (let tm := { tm0 with lift := .landing 3 0, pend := [pendL], bankcnt := 1 };
      (st tm).team 0 0 = some tm ∧ tm.pend.filter (fun p => p.kind == .lift || p.kind == .land) = [pendL] ∧ pendL.cls = .bank) := by
  decide +kernel
/-- A launch whose slot's page is absent; a claim that its header lets take place. -/
theorem witness_Queues_more :
    (match (stV { q0 with slotbase := 0x400000000 } []).peek 0 with | .miss va _ => va == 0x400000000 | _ => false) = true
    ∧ (let s := stQ (tmCl none) Memory.init;
      s.agentWaits s.seqNo s.seqNo (.pa 0x10000) = false ∧ s.mayFill 0x10000 32 = true ∧ (s.slotAt 0x10000).isNone = true)
    ∧ (tmCl (some none)).rpoison = []
    ∧ (let s : State := { stQ (tmCl none) Memory.init with slots := [(0, { q0 with hdrPa := 0x10000 })] };
      (s.slotAt 0x10000).map QueueSlot.logslots = some 2)
    ∧ (stApp.slotAt 0x80000 = some q0 ∧ q0.slotbase % 64 = 0) := by
  decide +kernel
/-- Transactions that mismatch for the fourth time: a store on its way, and a line for a peer. -/
theorem witness_PeersArriveAndAnswer_mismatch :
    ((stW tm0 [reqP]).core 0).path[0]? = some reqP ∧ reqP.atom = none ∧ reqP.loc = .pa 0x10000 ∧ (stW tm0 [reqP]).block 0 = some (blkOf tm0)
      ∧ ((landing pkD 0x300).wait = none ∧ pkDrem pkD = true ∧ pkKind pkD ∈ [1, 2])
      ∧ State.reset.stampOffset.toNat ≤ (5 : Word).toNat ∧ ({ State.reset with stampOffset := 6 } : State).stampOffset.toNat > (5 : Word).toNat := by
  decide +kernel
/-- An operation whose header lies on an absent page; bodies that may leave the set store and come back. -/
def opHas (va : Nat) : SetOp := { setOp (.has [(0, 1)]) with va }
theorem witness_SetsStep_waits :
    (let s := stSetOp (opHas 0x400000000) none [];
      (s.cluster 0).setq[0]? = some (opHas 0x400000000) ∧ (opHas 0x400000000).posted = [] ∧ (opHas 0x400000000).unread = []
        ∧ s.setBlocked (opHas 0x400000000) (opHas 0x400000000).touches = false ∧ (opHas 0x400000000).req.isQuery = true
        ∧ ([true, false].all fun wr => match s.engineXlat 0 0 0x400000000 wr with | (.absent, _) => true | _ => false) = true)
    ∧ (let s := stSetOp (setOp .card) none [(0x20000, set0)];
      s.storeFits 0 (some 0x20000) set0.bytes = true ∧ s.storeFits 0 (some 0x20000) 4096 = true
        ∧ (match s.engineXlat 0 0 0x20000 true with | (_, s1) => !s1.agentWaits s1.seqNo s1.seqNo (.pa 0x20000)) = true) := by
  decide +kernel
theorem witness_BodiesMove : ∀ out ∈ [true, false],
    let o : SetObj := { set0 with inStore := out }
    let s0 := stSetOp (setOp .card) none [(0x20000, o)]
    let s : State := { s0 with clusters := [(0, { s0.cluster 0 with storeNeed := 2 ^ 19 })] }
    s.setAt 0 0x20000 = some o ∧ isFar o.bytes = false ∧ (s.cluster 0).storeNeed ≠ 0 ∧ (out = true → s.storeFits 0 none (s.cluster 0).storeNeed = false)
      ∧ s.storeFits 0 (some 0x20000) o.bytes = true
      ∧ (match s.homeRange 0 o.asid o.inStore (o.hdrVa + 64) o.bytes with
        | (.ok xs, s1) => !s1.piecesOwned xs && xs.all fun x => s1.mayFill x.1 x.2
        | _ => false) = true := by
  decide +kernel
theorem witness_ArraysRun_clear : ((stB (blkA false) 0).core 0).clearFor 0 (aop false) = true := by decide +kernel
/-- A turn of stack core 0, on which the fragment of a lifted team exits. -/
def plSc : State := { plUp with agenda := [] }
theorem witness_BankCommands_issue :
    ((plSc.stackCore 0).outOfService = false ∧ stackOrder plSc 0 = (0, 0, 0) :: [] ∧ plSc.block 0 = some (blkOf tmUp) ∧ plSc.team 0 0 = some tmUp
      ∧ tmUp.frag 0 = some fr0 ∧ fragBlocked (blkOf tmUp) tmUp 0 fr0 = false ∧ wordLen 0x1080700000000000 ≠ 16
      ∧ decodeTeam 0x1080700000000000 0 = .exit ⟨un⟩)
    ∧ plSc.wordAt 0 tmUp 0 fr0.pc 0x1080700000000000
    ∧ ∀ t, exec (.exit ⟨un⟩) { plSc with acting := .frag 0 0 0 0x1080700000000000 } = .next t → { t with acting := plSc.acting } ≠ plSc := by
  refine ⟨by decide +kernel, wordAt_lifted (e := e0) (by decide +kernel) (by decide +kernel) (by decide +kernel) (by decide +kernel)
    (by decide +kernel) (by decide +kernel), fun t h e => ?_⟩
  have gone : (match exec (.exit ⟨un⟩) { plSc with acting := .frag 0 0 0 0x1080700000000000 } with
    | .next t => decide ((t.team 0 0).map Team.exited = some 0)
    | _ => false) = false := by decide +kernel
  rw [h] at gone
  have same : t.cores = plSc.cores := show ({ t with acting := plSc.acting } : State).cores = _ by rw [e]
  simp only [State.team, State.block, State.core, same] at gone
  exact absurd gone (by decide +kernel)
/-- A program whose one word has a reserved operation. -/
def progBad : AMap Word := [(2, 15 * 2 ^ 44 + 0xC)]
theorem witness_RunsExecute_fails :
    (runFault progBad 2).isSome = true ∧ (let c := { chB (bcmd (runReq false)) with activeBank := progBad, shadow := progBad };
      c.queue[0]? = some (bcmd (runReq false)) ∧ c.heads 0 (bcmd (runReq false)) = true ∧ c.claims (bcmd (runReq false)).units = false
        ∧ c.activeBank = c.shadow) := by
  decide +kernel
theorem witness_RunsExecute_lanes :
    (∀ a ∈ [5, 7, 11, 13], ∀ d, d < 4 → uAop (a * 2 ^ 44 + d * 2 ^ 41) = a ∧ uDt (a * 2 ^ 44 + d * 2 ^ 41) = d ∧ uAux (a * 2 ^ 44 + d * 2 ^ 41) < 3)
    ∧ (∀ d, d < 4 → ∀ x, x < 4 → ∃ w ∈ [14 * 2 ^ 44 + d * 2 ^ 41 + x * 2 ^ 30], uAop w = 14 ∧ uDt w = d ∧ uAux w = x
      ∧ uPart w * min (dtLanes d) (dtLanes x) < max (dtLanes d) (dtLanes x)) := by
  decide +kernel
/-- Errors: a near set that is broken, a poisoned word of a scratchpad, the accumulators of a block. -/
theorem witness_ErrorsAndHalts_more :
    ((stSet .card [(0x20000, { set0 with broken := true })]).setAt 0 0x20000 = some { set0 with broken := true } ∧ isFar set0.bytes = false)
    ∧ 0x1FFF8 / 8 ∈ ({ blkOf tm0 with sp := { Scratch.init with poison := [0x1FFF8 / 8] } } : Block).sp.poison
    ∧ (stSeq seq0).block 0 = some (blkM seq0) ∧ (blkM seq0).seq = some seq0 := by
  decide +kernel
/-- A test that is due where a block of the interface stands at a safe point, and where one does not; one that has failed two cores. -/
def stTs (safe : Bool) : State :=
  stTest (some { test0 with requested := some 5 }) 0 [(511, { Core.init with block := some { blkOf { tm0 with frags := [{ fr0 with safe }] } with seq := none, vi := 0 } })]
theorem witness_TestsRun_saves :
    ((stTs true).testBlocks 127 = [511] ∧ ((stTs true).block 511).map Block.atSafePoint = some true
      ∧ ((stTs true).freeSaves 0).length = 1 ∧ paOk ((stTs true).saveSlot 0 0) = true ∧ paOk ((stTs true).saveSlot 0 0 + 2 ^ 22 - 1) = true)
    ∧ ((stTs false).testBlocks 127 = [511] ∧ ((stTs false).block 511).map Block.atSafePoint = some false) := by
  decide +kernel
/-- Writes that wait for RSBUSY, before and after it ends; a waiting registration, a waiting window, an unregistration past a launch that waits on
its word. -/
theorem witness_HostWrites_busy :
    (∃ h ∈ ((stHost (ifH [hw 0x078 true]) q0 false).iface 0).held, h.busy = true)
    ∧ (let s := stHost (ifH [hw 0x078 true]) q0 false;
      (s.iface 0).held[0]? = some (hw 0x078 true) ∧ (s.iface 0).resync = none ∧ s.hostReach 0 = true ∧ 0x078 % 8 = 0
        ∧ dropNth (s.iface 0).held 0 = [])
    ∧ (let h : HeldWrite := { off := 0x030, val := 0x300200000, sel := 1, busy := false };
      (((stHost (ifH [h]) q0 false).iface 0).held[0]? = some h) ∧ (stHost (ifH [h]) q0 false).spaceInUse 0 1 = false)
    ∧ (let h : HeldWrite := { off := 0x058, val := 1, sel := 0, busy := false };
      let s : State := { stHost (ifH [h]) QueueSlot.init false with mem := memH 0x102 };
      (s.iface 0).held[0]? = some h ∧ bits h.val.toNat 0 2 = 1 ∧ (s.slot 0).registered = false ∧ leafed s 0x80000 = true)
    ∧ (let h : HeldWrite := { off := 0x058, val := 6, sel := 0, busy := false };
      let l : Launch := { l0 pktW 0 0 with ready := false };
      let s := stHost (ifH [h]) { q0 with launches := [l], closing := true } false;
      (s.iface 0).held[0]? = some h ∧ bits h.val.toNat 0 2 = 2 ∧ (s.slot 0).started = none
        ∧ (s.slot 0).launches.all (fun l => l.next == 0 && lpWkind l.pkt == 1 && !l.ready && l.fail.isNone) = true) := by
  decide +kernel
theorem witness_ApertureAndPower_more :
    (let s : State := { stHost { ifH [] with apsel := 16 } q0 false with mem := memH 0x102 };
      s.mayWalk 0 0x80010 = true ∧ s.mayFill 0x80010 8 = true ∧ s.mayWalk 0 0x400000000 = true
        ∧ (match s.walk 0 0x400000000 with | .leaf _ _ _ _ _ => false | _ => true) = true)
    ∧ ({ State.reset with linkUp := false } : State).linkUp = false := by
  decide +kernel
/-- A tagged instruction that has its result, at the end of its flight. -/
theorem witness_TraceRecords_result :
    (let x : Tagged := { tg0 with trapped := false, result := true };
      x.trapped = false ∧ (∀ n ∈ x.seqs, (∀ tm ∈ (stRec.team 0 0).toList, tm.worksOn n = false) ∧ (∀ r ∈ (stRec.core 0).path, r.seq ≠ n)
        ∧ stRec.saved = []) ∧ x.level < 16) := by decide +kernel
theorem witness_LaunchesDispatch_order : ∀ y ∈ ({ stV qD [] with rmWant := true } : State).slots, y.1 < 2048 ∧ y.2.prio < 4 ∧ qD.actionHeld = false := by
  decide +kernel
theorem witness_Values :
    (2 ^ ((fmtOf .f32).bias + 1) ≤ 1 * 2 ^ ((fmtOf .f32).bias + 1) ∧ 480 ≤ 15 * 2 ^ 5)
    ∧ (∀ t ∈ [FType.f32, .f16, .bf16], let F := fmtOf t.el
      (0 < 2 ^ F.w ∧ F.infCode < F.nanCode % 2 ^ (F.w - 1) ∧ 2 ^ (F.w - 1) + F.infCode < 2 ^ F.w ∧ F.emin ≤ (0 : Int) ∧ (0 : Int) ≤ F.bias)
        ∧ isNan (decodeF F 1) = false)
    ∧ (15 : Nat) < 2 ^ 4 ∧ (4 : Nat) ∈ [4, 8, 16, 32, 64] := by
  decide +kernel

/-! ### Witnesses: the premises that the forms beside the plain cases bring -/

/-- A stream whose wait was abandoned under a stop request. -/
def seqAb : Seq := { seq0 with hold := .abandoned 10 none, stop := true }
theorem witness_StepsRunDecoded_abandoned :
    (stSeq seqAb).block 0 = some (blkM seqAb) ∧ (blkM seqAb).seq = some seqAb ∧ seqAb.hold = .abandoned 10 none ∧ seqAb.faulted = false
      ∧ (∀ t car, seq0.hold ≠ .abandoned t car) ∧ seqBlocked seq0 = false :=
  ⟨rfl, rfl, rfl, rfl, fun _ _ h => (by cases h), by decide⟩
theorem witness_CompareResults_picks :
    (∀ i ∈ ([.vSel ⟨un, 3, .v 1, .v 2, .p 4, .i8⟩, .vFmin ⟨un, 3, 1, .v 2, .f16⟩, .vFmax ⟨un, 3, 1, .v 2, .bf16⟩, .vFclass ⟨un, 3, 1, .f32⟩] : List Instr),
      picks i = true ∧ (laneResult (ctx tm0) (st tm0) i).isSome = true ∧ (ctx tm0).holds i = true)
    ∧ (isNan (decodeF (fmtOf .f16) 0x7E00) || isNan (decodeF (fmtOf .f16) 0x3C00)) = true
    ∧ (isNan (decodeF (fmtOf .f16) 0xFC00) || isNan (decodeF (fmtOf .f16) 0x3C00)) = false ∧ (0x7F800001 : Nat) < 2 ^ (fmtOf .f32).w := by
  decide +kernel
/-- A copy team's scalar and capability accesses, and one through an untagged capability. -/
def tmMc : Team := { tmC with copy := true }
def stMc : State := { stM with cores := [(0, { Core.init with block := some (blkOf tmMc), tlb := [{ e0 with w := true, d := true }] })] }
theorem witness_copy_accesses :
    (stMc.issuer = some (ctx tmMc) ∧ (ctx tmMc).calm = true ∧ (ctx tmMc).acts un = true)
    ∧ (∀ i ∈ ([.sLd ⟨un, 2, 9, 0, .s 4, 8, 3, .acq .dev, .i16⟩, .cLd ⟨un, 0, 9, 2, .zero, 0, 0, .plain⟩, .sLd ⟨un, 0, 9, 10, .zero, 0, 0, .plain, .n64⟩] : List Instr),
        (ctx tmMc).mayAccess i = true ∧ (ctx tmMc).holds i = true ∧ (match loadForm (ctx tmMc) i with
          | some (g, _, _, x, _, _, _, none, _) => (match Access.cause tmMc (x ((ctx tmMc).lanes g)) with
            | none => (match (ctx tmMc).locate stMc (x ((ctx tmMc).lanes g)) false with | .ok _ => true | .wait _ => false)
            | some (code, _) => code == 0x10)
          | _ => false) = true)
    ∧ (∀ i ∈ ([.sSt ⟨un, 0, 9, 0, .s 4, 8, 3, .rel .dev, .b64⟩, .cSt ⟨un, 0, 0, 2, .zero, 16, 0, .plain⟩, .sSt ⟨un, 0, 9, 10, .zero, 0, 0, .plain, .b64⟩] : List Instr),
        (ctx tmMc).mayAccess i = true ∧ (ctx tmMc).holds i = true ∧ (match storeForm (ctx tmMc) i with
          | some (g, _, x, _, _) => (match Access.cause tmMc (x ((ctx tmMc).lanes g)) with
            | none => (match (ctx tmMc).locate stMc (x ((ctx tmMc).lanes g)) true with | .ok _ => true | .wait _ => false)
            | some (code, _) => code == 0x10)
          | _ => false) = true)
    ∧ (∀ i ∈ ([.sLd ⟨un, 0, 9, 2, .zero, 0, 0, .plain, .n64⟩, .cSt ⟨un, 0, 0, 2, .zero, 16, 0, .plain⟩, .vLd ⟨un, 4, 8, 2, .lid, 0, 2, .plain, .b32, some 3⟩] : List Instr),
        (ctx tmM).mayAccess i = true) := by
  refine ⟨⟨rfl, ?_⟩, ?_⟩ <;> decide +kernel
theorem witness_FenceCompletes_mayWalk : (stMw 0x100001).mayWalk 0 0x10008 = true ∧ (stMw 0).mayWalk 0 0x10008 = true := by decide +kernel
/-- Reads: acquires of a team on its core, of a lifted one, a poisoned load that is not the oldest of its class, poisoned tables. -/
theorem witness_ResultsReturn_acquires :
    (stW tm0 []).block 0 = some (blkOf tm0) ∧ tm0.lifted = false
    ∧ (let s := stW tmUp [{ reqP with team := 1, loc := .pa 0x20000 }];
      tmUp.lifted = true ∧ s.owned 7 (.pa 0x10000) = false ∧ s.mayFill 0x10000 8 = true ∧ s.poisonedAt (.pa 0x10000) 8 = false
        ∧ ∀ x ∈ s.pathOf 0, x.2.loc.meets x.2.bytes.length (.pa 0x10000) 8 = false)
    ∧ (let p := pend .mem [.v 127] (.load spLanes 8 false (.v 127) [] none none false none);
      let tm := { tm0 with memcnt := 2, pend := [{ p with seq := 6, kind := .load [] 8 false (.v 126) [] none none false (some []) }, p] };
      let s : State := stB { blkOf tm with sp := { Scratch.init with poison := [0x1FFF8 / 8] } } 0;
      s.team 0 0 = some tm ∧ tm.halted = false ∧ tm.firstOf p = false
        ∧ (match s.readLanes 0 0 tm p none false false 8 false spLanes [] 0 with | .bad _ => true | _ => false) = true)
    ∧ (let s : State := { stWk 7 tm0 (walkAt 0x20000 true) with mem := { memW 7 with poison := [0x108000 / 32] } };
      (match s.walk 0 0x20000 with | .bad true => true | _ => false) = true ∧ s.mayWalk 0 0x20000 = true)
    ∧ (let f : Frag := { fr0 with acq := some (1, [(0, 0x10000, 7)]), storeAt := 0, mask := 1 };
      f.mask ≠ 0 ∧ f.storeAt ≤ 1 ∧ acqAt [(0, 0x10000, 7)] 0 = some (0x10000, 7)) := by
  decide +kernel
theorem witness_Resync_waits :
    (∀ h ∈ [[], [{ off := 0x058, val := 1, sel := 0, busy := false }]], let s := stHost { ifH h with resync := some (none, 0x500000) } q0 false;
      (s.iface 0).resync = some (none, 0x500000) ∧ (s.iface 0).registering = !h.isEmpty) := by
  decide +kernel
/-- Decisions: a queue without credit, one that is not Ready with credit, none that may dispatch; a launch that the Ringmaster holds on. -/
theorem witness_LaunchesDispatch_credits :
    (let s : State := { stV { qD with d := 0 } [] with rmWant := true };
      s.rmHeld = none ∧ s.rmAt ≠ some s.clock ∧ s.credited.slots = [(0, { qD with d := 1 })] ∧ s.credited.eligible (0, { qD with d := 1 }) = true
        ∧ s.credited.slot 0 = { qD with d := 1 } ∧ s.fits 0 pktL = some [[0]])
    ∧ (let s : State := { stV { q0 with d := 5 } [] with rmWant := true };
      (s.rmWant || s.anyFree) = true ∧ ∀ y ∈ s.credited.slots, y.2.registered = true ∧ s.credited.eligible y = false ∧ y.2.ready = none ∧ 0 < y.2.d)
    ∧ (let s : State := { stV qD [] with rmHeld := some 0 };
      s.rmHeld = some 0 ∧ s.rmAt ≠ some s.clock ∧ (s.slot 0).nextLaunch = some (l0 pktL 0 0) ∧ s.fits 0 pktL = some [[0]])
    ∧ ((stL5 pktW).engineXlat 0 0 (lpWaddr pktW) false).2.mayFill 0x20000 8 = true
    ∧ (let s := ((stL5 pktW).engineXlat 0 0 (lpWaddr pktW) false).2; s.agentWaits s.seqNo s.seqNo (.pa 0x20000) = false ∧ s.poisonedAt (.pa 0x20000) 8 = false) := by
  decide +kernel
theorem witness_BlocksLeave_order :
    (l0 pktL 1 0).endAt ≠ some (stL5 pktL).clock ∧ ∀ x ∈ (stL5 pktL).slots, ∀ y ∈ x.2.launches, y.due = true → y.endAt = (l0 pktL 1 0).endAt → (l0 pktL 1 0).id ≤ y.id := by
  decide +kernel
/-- A completion with a word and then a turnstile (CKIND 3). -/
def pkCT : List Word := [0x1005C001, 0x20000, 0x30000, 64, 0, 0, 0, 0x40000]
theorem witness_PacketsEnd_both :
    let x := { sd pkCT with expanded := true, acked := true, clips := 2 }
    x.performed = true ∧ x.poisoned = none ∧ pkPriv pkCT = false ∧ pkWord pkCT = some 0x40000 ∧ pkTurn pkCT = some (5, 8) ∧ ((stJ x).slot 0).started = some x
      ∧ reach (stJ x) 0x40000 = true ∧ (stJ x).named 0 5 = some (.on 0) ∧ ((stJ x).block 0).isSome = true := by
  decide +kernel
theorem witness_RemoteAppend :
    stApp.agentWaits stApp.seqNo stApp.seqNo (.pa q0.hdrPa) = false ∧ stApp.mayFill q0.hdrPa 32 = true
      ∧ reachAt ((stApp.l2Fill q0.hdrPa 32).setDw q0.hdrPa 1) 5 0x90000 = true ∧ isHost q0.hdrPa = false := by
  decide +kernel
/-- Lines of the core's own slice and of another. -/
theorem witness_CrcRetry_slices :
    sliceOf 0x10000 (clusterOf 0) = clusterOf 0 ∧ sliceOf 0x10100 (clusterOf 0) ≠ clusterOf 0 ∧ sliceOf (2 ^ 47) (clusterOf 0) = clusterOf 0
      ∧ (stW tm0 [{ reqP with loc := .pa 0x10100 }]).block 0 = some (blkOf tm0) := by
  decide +kernel
theorem witness_ArraysRun_owned :
    ∀ x ∈ (aop false).spans, (stB (blkA false) 0).agentWaitsOver 4 4 (.sp 0 x.1) x.2 = false := by
  decide +kernel
theorem witness_MatrixEngine_owned :
    (∀ store ∈ [true, false], ∀ ty ∈ [0x0A, 0x08], ∀ r ∈ [0, 127], let x := xfer store ty r;
      let off := (x.tile.addr + x.row * x.tile.pitch) % Config.spBytes;
      let n := x.tile.cols * if x.ty = 0x0A then 2 else 4;
      (∀ l ∈ linesOf off n, (stSeq seq0).landBefore (blkM seq0).vi (blkM seq0).name l x.seq = false) ∧ (stSeq seq0).xferSubWaits 0 (blkM seq0) x off n = false)
    ∧ (∀ l ∈ [load0 true 3, load0 false 7, load0 false 8, load0 false 15],
        (stSeq seq0).spReadable 0 (blkM seq0) l.off (if l.cap then 16 else 64) l.seq = true)
    ∧ (∀ h ∈ [true, false], ({ mma0 .i8 3 with handed := h } : Mma).stopped = false) := by
  decide +kernel
/-- A run whose row no access asks for, and one of whose row a served access is over; orders with a load and with a write-back. -/
theorem witness_RunsExecute_wants :
    let r := runOf (bcmd (runReq false))
    (let s := stBk tm0 { Channel.init with activeBank := prog, runs := [r], access := [(0, (r.lines 33).headD 0 * 8)] };
      ((s.channel 33).runs.map fun x => x.cmd.seq).Nodup ∧ s.rowTaken 33 r = false ∧ ∀ x ∈ (s.channel 33).access, s.wants x.1 x.2 = false)
    ∧ (∀ dirty ∈ [true, false], let s0 := stBk tm0 { Channel.init with runs := [r], window := true, served := 3, order := [(wbAgent 0, 1, 34)], due := 1 };
      let s : State := if dirty then { s0 with clusters := [(homeSlice (32 * 34), { Cluster.init with l2 := [(32 * 34 / 256, { held := 4, dirty := 2 ^ 64 })] })] } else s0;
      let c := s.channel 33;
      c.order = (wbAgent 0, 1, 34) :: [] ∧ c.window = true ∧ c.due ≠ 0 ∧ c.served + c.fill ≤ 32 ∧ s.l2Dirty (32 * 34) = dirty)
    ∧ 512 < wbAgent 0 := by
  decide +kernel
theorem witness_HostWrites_traced :
    (∀ tr ∈ [true, false], let s0 := stHost (ifH []) q0 false
      let s : State := { s0 with image := { s0.image with tracing := if tr then 1 else 0 } };
      s.hostReach 0 = true ∧ (s.iface 0).resync = none ∧ (s.iface 0).held = []
        ∧ (bit s.image.tracing.toNat 0 && paOk 0x1800000 && paOk 0x1800FFF) = tr
        ∧ ({ (s.iface 0) with savebase := 0x1000000 } : Iface).saveArea = 0x1000000 ∧ traceBits s.image 0 = 12)
    ∧ (∀ h ∈ [[], [hw 0x058 false]], let s := stHost { ifH h with held := h.map fun x => { x with val := 1, sel := 0 } } QueueSlot.init false;
      s.hostReach 0 = true ∧ (s.iface 0).resync = none ∧ (∀ h ∈ (s.iface 0).held, h.busy = false) ∧ (s.slot 0).registered = false
        ∧ s.waitsFor 0 0x048 0 = false ∧ s.waitsFor 0 0x058 0 = !h.isEmpty ∧ (s.iface 0).registering = !h.isEmpty) := by
  decide +kernel
theorem witness_QueuesRegister_order :
    (let s : State := { stHost (ifH []) QueueSlot.init false with mem := memH 0x102 };
      s.waitsFor 0 0x058 0 = false ∧ s.waitsFor 0 0x048 0 = false ∧ s.mayWalk 0 0x80000 = true ∧ s.mayFill 0x80000 32 = true ∧ s.linkUp = true
        ∧ AMap.get 0 (s.iface 0).qhdr 0 = 0x80000)
    ∧ ((stHost (ifH []) q0 false).slot 0).registered = true
    ∧ (let hs : List HeldWrite := [{ off := 0x048, val := 0x80000, sel := 1, busy := false }, { off := 0x058, val := 1, sel := 0, busy := false }];
      (∀ j g, j < 1 → hs[j]? = some g → g.busy = false ∧ g.sel ≠ 0) ∧ hs[1]? = some { off := 0x058, val := 1, sel := 0, busy := false }) := by
  refine ⟨by decide +kernel, by decide +kernel, fun j g hj h => ?_, rfl⟩
  obtain rfl : j = 0 := by omega
  obtain rfl : _ = g := Option.some.inj h
  exact ⟨rfl, by decide⟩

end Sys2Proof.Tests
end

section
namespace Sys2Proof.Machine

/-! ### Lists -/

theorem upto_eq_range' (lo n : Nat) : upto lo n = List.range' lo n := by
  induction n generalizing lo with
  | zero => rfl
  | succ n ih => rw [upto, ih, List.range'_succ]

theorem mem_upto_iff {lo n x : Nat} : x ∈ upto lo n ↔ lo ≤ x ∧ x < lo + n := by
  rw [upto_eq_range', List.mem_range'_1]

theorem nodup_upto (lo n : Nat) : (upto lo n).Nodup := by
  rw [upto_eq_range']; exact List.nodup_range' 

theorem nth_eq_getElem {α : Type} (d : α) (l : List α) (i : Nat) (h : i < l.length) : nth d l i = l[i] := by
  induction l generalizing i with
  | nil => exact absurd h (by simp)
  | cons x xs ih => cases i with
    | zero => rfl
    | succ i => exact ih i (by simpa using h)

/-- What every step of a fold keeps, the fold keeps. -/
theorem foldl_keeps {σ α γ : Type} (g : σ → γ) (f : σ → α → σ) (hf : ∀ s a, g (f s a) = g s) (l : List α) (s : σ) :
    g (l.foldl f s) = g s := by
  induction l generalizing s with
  | nil => rfl
  | cons a l ih => rw [List.foldl_cons, ih, hf]

/-- A fold whose steps each bring about a fact about their own key, which steps for other keys keep, brings about the facts of all its keys. -/
theorem foldl_each {σ α κ : Type} (f : σ → α → σ) (key : α → κ) (I : σ → Prop) (Q : α → σ → Prop) (hI : ∀ s a, I s → I (f s a))
    (hQ : ∀ s a, I s → Q a (f s a)) (hkeep : ∀ s a b, key a ≠ key b → Q a s → Q a (f s b)) (l : List α) (hl : (l.map key).Nodup)
    (s : σ) (hs : I s) : ∀ a ∈ l, Q a (l.foldl f s) := by
  have keeps : ∀ (a : α) (l : List α) (s : σ), key a ∉ l.map key → Q a s → Q a (l.foldl f s) := by
    intro a l
    induction l with
    | nil => intro s _ h; exact h
    | cons b l ih =>
      intro s hn h
      rw [List.map_cons, List.mem_cons, not_or] at hn
      exact ih _ hn.2 (hkeep s a b hn.1 h)
  induction l generalizing s with
  | nil => intro a ha; exact absurd ha (by simp)
  | cons b l ih =>
    rw [List.map_cons, List.nodup_cons] at hl
    intro a ha
    rcases List.mem_cons.mp ha with rfl | ha
    · exact keeps a l _ hl.1 (hQ s a hs)
    · exact ih hl.2 _ (hI s b hs) a ha

/-! ### Insertion by a key (R30) -/

theorem mem_insertBy {α : Type} (key : α → Nat) (x y : α) (l : List α) : y ∈ insertBy key x l ↔ y = x ∨ y ∈ l := by
  induction l with
  | nil => simp [insertBy]
  | cons z l ih =>
    unfold insertBy
    split
    · simp
    · simp [ih, or_left_comm]

theorem sorted_insertBy {α : Type} (key : α → Nat) (x : α) (l : List α) (h : l.Pairwise fun a b => key a ≤ key b) :
    (insertBy key x l).Pairwise fun a b => key a ≤ key b := by
  induction l with
  | nil => exact List.pairwise_singleton _ _
  | cons z l ih =>
    obtain ⟨hz, hl⟩ := List.pairwise_cons.mp h
    unfold insertBy
    split
    · next hlt =>
      refine List.pairwise_cons.mpr ⟨fun a ha => ?_, h⟩
      rcases List.mem_cons.mp ha with rfl | ha
      · omega
      · have := hz a ha; omega
    · next hge =>
      refine List.pairwise_cons.mpr ⟨fun a ha => ?_, ih hl⟩
      rcases (mem_insertBy key x a l).mp ha with rfl | ha
      · omega
      · exact hz a ha

theorem mem_sortBy {α : Type} (key : α → Nat) (y : α) (xs l : List α) :
    y ∈ xs.foldl (fun l x => insertBy key x l) l ↔ y ∈ xs ∨ y ∈ l := by
  induction xs generalizing l with
  | nil => simp
  | cons x xs ih => rw [List.foldl_cons, ih, mem_insertBy, List.mem_cons]; tauto

theorem sorted_sortBy {α : Type} (key : α → Nat) (xs l : List α) (h : l.Pairwise fun a b => key a ≤ key b) :
    (xs.foldl (fun l x => insertBy key x l) l).Pairwise fun a b => key a ≤ key b := by
  induction xs generalizing l with
  | nil => exact h
  | cons x xs ih => exact ih _ (sorted_insertBy key x l h)

/-! ### Placement (R24) -/

/-- The cores of a place: as many clusters as asked for, each with as many cores, and no core twice. -/
theorem placeIn_some {ok : Nat → Bool} {groups need ncl : Nat} {spot : List (List Nat)} (h : placeIn ok groups need ncl = some spot) :
    spot.length = ncl ∧ (∀ ks ∈ spot, ks.length = need ∧ ks.Nodup) ∧ spot.Pairwise List.Disjoint := by
  obtain ⟨sg, -, h⟩ := List.exists_of_findSome?_eq_some h
  dsimp only at h
  split at h
  · cases h
  set pick : Nat → Option (List Nat) := fun cl =>
    if need ≤ ((upto (4 * cl) 4).filter ok).length then some (((upto (4 * cl) 4).filter ok).take need) else none with hpick
  have picked : ∀ cl ks, pick cl = some ks →
      ks.length = need ∧ ks.Nodup ∧ ∀ k ∈ ks, 4 * cl ≤ k ∧ k < 4 * cl + 4 := by
    intro cl ks hk
    simp only [hpick] at hk
    split at hk
    · next hn =>
      obtain rfl := Option.some.inj hk
      exact ⟨by simpa using hn, ((nodup_upto _ _).filter _).sublist (List.take_sublist _ _),
        fun k hk => mem_upto_iff.mp (List.mem_filter.mp (List.mem_of_mem_take hk)).1⟩
    · cases hk
  have disjoint : ((upto (8 * sg) 8).filterMap pick).Pairwise List.Disjoint := by
    rw [List.pairwise_filterMap]
    refine (nodup_upto (8 * sg) 8).imp fun hne ks hks js hjs k hk hj => hne ?_
    have := (picked _ _ hks).2.2 k hk
    have := (picked _ _ hjs).2.2 k hj
    omega
  split at h
  · next hn =>
    obtain rfl := Option.some.inj h
    refine ⟨by simpa using hn, fun ks hks => ?_, disjoint.sublist (List.take_sublist _ _)⟩
    obtain ⟨cl, -, hcl⟩ := List.mem_filterMap.mp (List.mem_of_mem_take hks)
    exact ⟨(picked cl ks hcl).1, (picked cl ks hcl).2.1⟩
  · cases h

/-- The cores on which a gang is dispatched: at most one for each of its blocks, and none twice. -/
theorem nodup_gangCores {spot : List (List Nat)} (c : Nat) (hks : ∀ ks ∈ spot, ks.Nodup) (hd : spot.Pairwise List.Disjoint) :
    (spot.flatMap fun ks => ks.take c).Nodup := by
  refine List.nodup_flatMap.mpr ⟨fun ks h => (hks ks h).sublist (List.take_sublist _ _), hd.imp fun hdis k h h' => ?_⟩
  exact hdis (List.mem_of_mem_take h) (List.mem_of_mem_take h')
theorem length_gangCores_le (spot : List (List Nat)) (c : Nat) : (spot.flatMap fun ks => ks.take c).length ≤ c * spot.length := by
  induction spot with
  | nil => simp
  | cons ks spot ih =>
    simp only [List.flatMap_cons, List.length_append, List.length_take, List.length_cons, Nat.mul_add, Nat.mul_one]
    omega

end Sys2Proof.Machine
end

section
namespace Sys2Proof.Machine

/-! ### Accesses of engines to memory (R103, R113, R133, R308): the units that they leave alone -/

/-- A state without memory, what the slices and the channels hold of it, what launches fetch of it, the interfaces, and the model's own numbers. -/
def State.bare (s : State) : State :=
  { s with mem := Memory.init, clusters := [], channels := [], codeOld := [], codeNew := [], ifaces := [], freeIx := 0, seqNo := 0 }
/-- An interface without its count of lost writes (R382). -/
def Iface.unlost (i : Iface) : Iface := { i with lost := 0 }
/-- From s to t only memory has changed, with what slices, channels and launches hold of it, and counts of lost writes. -/
structure MemoryStep (s t : State) : Prop where
  bare : t.bare = s.bare
  unlost : ∀ j, (t.iface j).unlost = (s.iface j).unlost

theorem MemoryStep.refl (s : State) : MemoryStep s s := ⟨rfl, fun _ => rfl⟩
theorem MemoryStep.trans {s t u : State} (h : MemoryStep s t) (h' : MemoryStep t u) : MemoryStep s u :=
  ⟨h'.bare.trans h.bare, fun j => (h'.unlost j).trans (h.unlost j)⟩
theorem MemoryStep.foldl {α : Type} {f : State → α → State} (hf : ∀ s a, MemoryStep s (f s a)) (l : List α) (s : State) :
    MemoryStep s (l.foldl f s) :=
  ⟨foldl_keeps State.bare f (fun s a => (hf s a).bare) l s,
    fun j => foldl_keeps (fun s => (s.iface j).unlost) f (fun s a => (hf s a).unlost j) l s⟩

section
variable {s t : State} (h : MemoryStep s t)
include h
theorem MemoryStep.cores : t.cores = s.cores := (congrArg State.cores h.bare :)
theorem MemoryStep.slots : t.slots = s.slots := (congrArg State.slots h.bare :)
theorem MemoryStep.saved : t.saved = s.saved := (congrArg State.saved h.bare :)
theorem MemoryStep.clock : t.clock = s.clock := (congrArg State.clock h.bare :)
theorem MemoryStep.linkUp : t.linkUp = s.linkUp := (congrArg State.linkUp h.bare :)
theorem MemoryStep.rmHeld : t.rmHeld = s.rmHeld := (congrArg State.rmHeld h.bare :)
theorem MemoryStep.rmLast : t.rmLast = s.rmLast := (congrArg State.rmLast h.bare :)
theorem MemoryStep.image : t.image = s.image := (congrArg State.image h.bare :)
theorem MemoryStep.core (k : Nat) : t.core k = s.core k := by unfold State.core; rw [h.cores]
theorem MemoryStep.block (k : Nat) : t.block k = s.block k := by unfold State.block; rw [h.core]
theorem MemoryStep.slot (k : Nat) : t.slot k = s.slot k := by unfold State.slot; rw [h.slots]
theorem MemoryStep.faults (j : Nat) : (t.iface j).faults = (s.iface j).faults := (congrArg Iface.faults (h.unlost j) :)
theorem MemoryStep.victl (j : Nat) : (t.iface j).victl = (s.iface j).victl := (congrArg Iface.victl (h.unlost j) :)
theorem MemoryStep.savebase (j : Nat) : (t.iface j).savebase = (s.iface j).savebase := (congrArg Iface.savebase (h.unlost j) :)
theorem MemoryStep.saveslots (j : Nat) : (t.iface j).saveslots = (s.iface j).saveslots :=
  (congrArg Iface.saveslots (h.unlost j) :)
end

/-- Another memory, other slices, channels or numbers. -/
theorem MemoryStep.of_ifaces {s t : State} (h : t.bare = s.bare) (hi : t.ifaces = s.ifaces) : MemoryStep s t :=
  ⟨h, fun j => by unfold State.iface; rw [hi]⟩
theorem memoryStep_withL2 {s t : State} (h : ∃ cl ix ch sq, t = s.withL2 cl ix ch sq) : MemoryStep s t := by
  obtain ⟨_, _, _, _, rfl⟩ := h
  exact .of_ifaces rfl rfl
theorem memoryStep_lost (s : State) (vi : Nat) : MemoryStep s (s.modIface vi fun i => { i with lost := i.lost + 1 }) := by
  refine ⟨rfl, fun j => ?_⟩
  by_cases h : vi = j
  · subst h; rw [State.modIface_iface_self]; rfl
  · rw [State.modIface_iface_ne _ _ h]
theorem memoryStep_l2Fill (s : State) (pa n : Nat) : MemoryStep s (s.l2Fill pa n) := memoryStep_withL2 (State.l2Fill_eq s pa n)
theorem memoryStep_publish (s : State) (launch : Nat) (seen : List Nat) (word : Nat) : MemoryStep s (s.publish launch seen word) :=
  .of_ifaces rfl rfl

/-! ### Writes -/

theorem memoryStep_forgetCode (s : State) (pa n : Nat) : MemoryStep s (s.forgetCode pa n) := by
  unfold State.forgetCode
  split
  · exact .refl s
  · exact .of_ifaces rfl rfl
theorem memoryStep_writePa (s : State) (a : Nat) (xs : List Byte) : MemoryStep s (s.writeLoc (.pa a) xs) := by
  dsimp only [State.writeLoc]
  split
  · exact .refl s
  · exact ((memoryStep_withL2 (State.l2Write_eq s a _)).trans (memoryStep_forgetCode _ _ _)).trans (.of_ifaces rfl rfl)
theorem memoryStep_writeFor (s : State) (vi a : Nat) (xs : List Byte) : MemoryStep s (s.writeFor vi (.pa a) xs) := by
  unfold State.writeFor
  split
  · exact memoryStep_lost s vi
  · exact memoryStep_writePa s a xs
theorem memoryStep_poisonAt (s : State) (a n : Nat) : MemoryStep s (s.poisonAt (.pa a) n) := .of_ifaces rfl rfl

/-! ### Translation (R85, R89) -/

theorem memoryStep_modChannel (s : State) (ch : Nat) (f : Channel → Channel) : MemoryStep s (s.modChannel ch f) := .of_ifaces rfl rfl
theorem memoryStep_askAll (s : State) (agent : Nat) (us : List Nat) : MemoryStep s (s.askAll agent us) := by
  unfold State.askAll
  dsimp only
  split
  · exact .refl s
  · exact MemoryStep.trans (t := { s with seqNo := s.seqNo + 1 }) (.of_ifaces rfl rfl)
      (.foldl (fun s _ => memoryStep_modChannel s _ _) _ _)
/-- The A and D bits of one entry of a walk. -/
def State.orEntry (s : State) (asid a m : Nat) : State :=
  if s.dw a ||| m = s.dw a then s
  else if s.drops (.pa a) then s.modIface (ifaceOf asid) fun i => { i with lost := i.lost + 1 }
  else { s.l2Write a 8 with mem := s.mem.setBytes a (bytesOf 8 (s.dw a ||| m)) }
theorem State.setAD_eq (s : State) (asid : Nat) (path : List Nat) (d : Bool) :
    s.setAD asid path d = match path.getLast? with
      | some a => if d then (path.foldl (fun s a => s.orEntry asid a 8) s).orEntry asid a 16 else path.foldl (fun s a => s.orEntry asid a 8) s
      | none => path.foldl (fun s a => s.orEntry asid a 8) s := rfl
theorem memoryStep_orEntry (s : State) (asid a m : Nat) : MemoryStep s (s.orEntry asid a m) := by
  unfold State.orEntry
  split
  · exact .refl s
  · split
    · exact memoryStep_lost s _
    · exact (memoryStep_withL2 (State.l2Write_eq s a 8)).trans (.of_ifaces rfl rfl)
theorem memoryStep_setAD (s : State) (asid : Nat) (path : List Nat) (d : Bool) : MemoryStep s (s.setAD asid path d) := by
  have bits : MemoryStep s (path.foldl (fun s a => s.orEntry asid a 8) s) := .foldl (fun s a => memoryStep_orEntry s asid a 8) _ _
  rw [State.setAD_eq]
  split
  · split
    · exact bits.trans (memoryStep_orEntry _ _ _ _)
    · exact bits
  · exact bits
theorem memoryStep_fillWalk (s : State) (asid va : Nat) : MemoryStep s (s.fillWalk asid va) := .foldl (fun _ _ => memoryStep_l2Fill _ _ _) _ _
theorem memoryStep_engineWalk (s : State) (cl asid va : Nat) (wr : Bool) : MemoryStep s (s.engineWalk cl asid va wr).2 := by
  unfold State.engineWalk
  split
  · exact .foldl (fun _ _ => memoryStep_askAll _ _ _) _ _
  · split
    · next l fr w d path _ =>
      have read := (memoryStep_fillWalk s asid va).trans (memoryStep_setAD (s.fillWalk asid va) asid path (wr && w))
      dsimp only
      split
      · exact read
      · exact read.trans (.of_ifaces rfl rfl)
    · exact memoryStep_fillWalk s asid va
    · exact memoryStep_fillWalk s asid va
theorem memoryStep_engineXlat (s : State) (cl asid va : Nat) (wr : Bool) : MemoryStep s (s.engineXlat cl asid va wr).2 := by
  unfold State.engineXlat
  split
  · split
    · exact .refl s
    · exact memoryStep_engineWalk s cl asid va wr
  · exact memoryStep_engineWalk s cl asid va wr
theorem memoryStep_of_engineXlat {s s1 : State} {cl asid va : Nat} {wr : Bool} {x : Xlat} (h : s.engineXlat cl asid va wr = (x, s1)) :
    MemoryStep s s1 := by
  have := memoryStep_engineXlat s cl asid va wr
  rwa [h] at this

end Sys2Proof.Machine
end

section
namespace Sys2Proof.Machine

/-! ### The ring and a decision (R30, R31) -/

theorem mem_ring {s : State} {x : Nat × QueueSlot} : x ∈ s.ring ↔ x ∈ s.slots ∧ x.2.registered = true := by
  unfold State.ring
  rw [mem_sortBy, List.mem_filter]
  simp
theorem sorted_ring (s : State) : s.ring.Pairwise fun x y => x.2.prio * 2048 + x.1 ≤ y.2.prio * 2048 + y.1 :=
  sorted_sortBy _ _ _ .nil

/-- A place of the ring stands after that of the queue which dispatched last. -/
def State.afterLast (s : State) (x : Nat × QueueSlot) : Bool :=
  match s.rmLast with
  | none => true
  | some k => decide (k < x.2.prio * 2048 + x.1)
/-- The queues in the order in which a decision looks at them (R31). -/
def State.scanOrder (s : State) : List (Nat × QueueSlot) := s.ring.filter s.afterLast ++ s.ring.filter fun x => !s.afterLast x
/-- The launch that a decision dispatches from a queue, if it may (R31). -/
def State.offer (s : State) (x : Nat × QueueSlot) : Option (Nat × Launch) :=
  match x.2.ready with
  | some l => if 0 < x.2.d && !s.spaced l then some (x.1, l) else none
  | none => none
/-- No queue dispatches: those that are not Ready lose their credit (R31). -/
def State.creditsTaken (s : State) : State :=
  { s with slots := s.slots.map fun x => (x.1, if x.2.registered && x.2.ready.isNone && decide (0 < x.2.d) then { x.2 with d := 0 } else x.2) }

theorem mem_scanOrder {s : State} {x : Nat × QueueSlot} : x ∈ s.scanOrder ↔ x ∈ s.slots ∧ x.2.registered = true := by
  unfold State.scanOrder
  rw [List.mem_append, List.mem_filter, List.mem_filter, ← and_or_left, mem_ring]
  cases s.afterLast x <;> simp

theorem offer_eq_none {s : State} {x : Nat × QueueSlot} (h : s.eligible x = false) : s.offer x = none := by
  unfold State.eligible at h
  unfold State.offer
  cases hr : x.2.ready with
  | none => rfl
  | some l =>
    rw [hr] at h
    dsimp only at h ⊢
    rw [h]
    rfl
theorem offer_eq_some {s : State} {x : Nat × QueueSlot} {l : Launch} (hl : x.2.ready = some l) (h : s.eligible x = true) :
    s.offer x = some (x.1, l) := by
  simp only [State.eligible, hl] at h
  simp [State.offer, hl, h]

theorem turnOf_after {s : State} {x : Nat × QueueSlot} (h : s.afterLast x = true) : s.turnOf x = x.2.prio * 2048 + x.1 := by
  unfold State.afterLast at h
  unfold State.turnOf
  cases hk : s.rmLast with
  | none => rfl
  | some k =>
    rw [hk] at h
    exact if_pos (of_decide_eq_true h)
theorem turnOf_before {s : State} {x : Nat × QueueSlot} (h : (!s.afterLast x) = true) :
    s.turnOf x = x.2.prio * 2048 + x.1 + 2 ^ 64 := by
  unfold State.afterLast at h
  unfold State.turnOf
  cases hk : s.rmLast with
  | none => rw [hk] at h; cases h
  | some k =>
    rw [hk] at h
    exact if_neg fun hlt => by simp [hlt] at h
/-- The order of a decision is that of the turns (R31). -/
theorem sorted_scanOrder {s : State} (hs : ∀ y ∈ s.slots, y.2.registered = true → y.1 < 2048 ∧ y.2.prio < 4) :
    s.scanOrder.Pairwise fun x y => s.turnOf x ≤ s.turnOf y := by
  refine List.pairwise_append.mpr ⟨?_, ?_, ?_⟩
  · refine ((sorted_ring s).filter _).imp_of_mem fun {x y} hx hy h => ?_
    rw [turnOf_after (List.mem_filter.mp hx).2, turnOf_after (List.mem_filter.mp hy).2]
    exact h
  · refine ((sorted_ring s).filter _).imp_of_mem fun {x y} hx hy h => ?_
    rw [turnOf_before (List.mem_filter.mp hx).2, turnOf_before (List.mem_filter.mp hy).2]
    exact Nat.add_le_add_right h _
  · intro x hx y hy
    obtain ⟨hx, hxa⟩ := List.mem_filter.mp hx
    obtain ⟨hslot, hprio⟩ := hs x (mem_ring.mp hx).1 (mem_ring.mp hx).2
    rw [turnOf_after hxa, turnOf_before (List.mem_filter.mp hy).2]
    calc x.2.prio * 2048 + x.1 ≤ 8192 := by omega
      _ ≤ 2 ^ 64 := by norm_num
      _ ≤ y.2.prio * 2048 + y.1 + 2 ^ 64 := Nat.le_add_left _ _

/-- A decision takes the eligible queue whose turn comes first. -/
theorem findSome_offer {s : State} {x : Nat × QueueSlot} {l : Launch} (hx : x ∈ s.slots) (hreg : x.2.registered = true)
    (hl : x.2.ready = some l) (he : s.eligible x = true) (hs : ∀ y ∈ s.slots, y.2.registered = true → y.1 < 2048 ∧ y.2.prio < 4)
    (hfirst : ∀ y ∈ s.slots, y.2.registered = true → s.eligible y = true → y = x ∨ s.turnOf x < s.turnOf y) :
    s.scanOrder.findSome? s.offer = some (x.1, l) := by
  obtain ⟨before, after, horder, hnot⟩ := List.eq_append_cons_of_mem (mem_scanOrder.mpr ⟨hx, hreg⟩)
  have none_before : ∀ y ∈ before, s.offer y = none := by
    intro y hy
    have hle : s.turnOf y ≤ s.turnOf x := by
      have := sorted_scanOrder hs
      rw [horder] at this
      exact (List.pairwise_append.mp this).2.2 y hy x (by simp)
    have hmem := mem_scanOrder.mp (horder ▸ List.mem_append_left _ hy)
    refine offer_eq_none (Bool.eq_false_iff.mpr fun hye => ?_)
    rcases hfirst y hmem.1 hmem.2 hye with rfl | hlt
    · exact hnot hy
    · omega
  exact List.findSome?_eq_some_iff.mpr ⟨before, x, after, horder, offer_eq_some hl he, none_before⟩
theorem findSome_offer_none {s : State} (h : ∀ y ∈ s.slots, y.2.registered = true → s.eligible y = false) :
    s.scanOrder.findSome? s.offer = none :=
  List.findSome?_eq_none_iff.mpr fun y hy => offer_eq_none (h y (mem_scanOrder.mp hy).1 (mem_scanOrder.mp hy).2)

/-- Some Ready queue of the ring has credit. -/
theorem any_ring_credit (s : State) : ((s.ring.filter fun x => x.2.ready.isSome).any fun x => decide (0 < x.2.d))
    = s.slots.any fun x => x.2.registered && x.2.ready.isSome && decide (0 < x.2.d) := by
  rw [Bool.eq_iff_iff, List.any_eq_true, List.any_eq_true]
  constructor
  · rintro ⟨x, hx, hd⟩
    obtain ⟨hring, hready⟩ := List.mem_filter.mp hx
    exact ⟨x, (mem_ring.mp hring).1, by simp [(mem_ring.mp hring).2, hready, hd]⟩
  · rintro ⟨x, hx, h⟩
    simp only [Bool.and_eq_true] at h
    obtain ⟨⟨hreg, hready⟩, hd⟩ := h
    exact ⟨x, List.mem_filter.mpr ⟨mem_ring.mpr ⟨hx, hreg⟩, hready⟩, hd⟩
theorem replenish_eq (s : State) : s.replenish = { s with slots := s.slots.map fun x => (x.1, if x.2.registered then
      let quantum := x.2.quantumHeld.getD x.2.quantum
      { x.2 with quantum, quantumHeld := none, d := if x.2.ready.isSome then x.2.d + quantum else x.2.d }
    else x.2) } := by
  unfold State.replenish
  congr 1
  refine List.map_congr_left fun x _ => ?_
  cases x.2.registered <;> cases x.2.ready <;> rfl
/-- One decision (R31): the first queue in order whose launch may be dispatched, once the Ready queues have their quanta. -/
theorem decide_eq (s : State) : s.decide_ = match s.credited.scanOrder.findSome? s.credited.offer with
    | some (slot, l) => match s.credited.fits (slot / 32) l.pkt with
      | some spot => s.credited.dispatch slot l spot
      | none => { s.credited with rmHeld := some slot }
    | none => s.credited.creditsTaken := by
  have hcred : s.credited = if (s.ring.filter fun x => x.2.ready.isSome).any fun x => decide (0 < x.2.d) then s else s.replenish := by
    unfold State.credited
    rw [any_ring_credit, replenish_eq]
  rw [hcred]
  rfl

section
variable (s : State)
theorem credited_keeps : s.credited = { s with slots := s.credited.slots } := by
  unfold State.credited; split <;> rfl
theorem credited_clock : s.credited.clock = s.clock := by rw [credited_keeps]
theorem credited_rmHeld : s.credited.rmHeld = s.rmHeld := by rw [credited_keeps]
theorem credited_fits (vi : Nat) (p : List Word) : s.credited.fits vi p = s.fits vi p := by rw [credited_keeps]; rfl
end

end Sys2Proof.Machine
end

section
namespace Sys2Proof

/-! ### Sparse maps: an entry changed where it stands -/

theorem AMap.length_erase {β : Type} (m : AMap β) (k : Nat) (h : (m.map Prod.fst).Nodup) {v : β} (hv : AMap.find? m k = some v) :
    (AMap.erase m k).length + 1 = m.length := by
  have absent : ∀ m : AMap β, k ∉ m.map Prod.fst → AMap.erase m k = m := by
    intro m
    induction m with
    | nil => intro _; rfl
    | cons x m ih =>
      intro hn
      rw [List.map_cons, List.mem_cons, not_or] at hn
      obtain ⟨j, w⟩ := x
      rw [AMap.erase, if_neg (Ne.symm hn.1), ih hn.2]
  induction m with
  | nil => cases hv
  | cons x m ih =>
    obtain ⟨j, w⟩ := x
    rw [List.map_cons, List.nodup_cons] at h
    by_cases hj : j = k
    · subst hj
      rw [AMap.erase, if_pos rfl, absent m h.1, List.length_cons]
    · rw [AMap.find?, if_neg hj] at hv
      rw [AMap.erase, if_neg hj, List.length_cons, List.length_cons, ih h.2 hv]

theorem AMap.length_place {β : Type} (m : AMap β) (k : Nat) (v : β) : (AMap.place m k v).length = m.length + 1 := by
  induction m with
  | nil => rfl
  | cons x m ih =>
    obtain ⟨j, w⟩ := x
    unfold AMap.place
    split
    · rfl
    · rw [List.length_cons, ih, List.length_cons]

theorem AMap.length_modify {β : Type} (m : AMap β) (k : Nat) (f : β → β) (h : (m.map Prod.fst).Nodup) :
    (AMap.modify m k f).length = m.length := by
  unfold AMap.modify
  split
  · next v hv => rw [AMap.put, AMap.length_place, AMap.length_erase m k h hv]
  · rfl

theorem AMap.mem_of_find? {β : Type} {m : AMap β} {k : Nat} {v : β} (h : AMap.find? m k = some v) : (k, v) ∈ m := by
  induction m with
  | nil => cases h
  | cons x m ih =>
    obtain ⟨j, w⟩ := x
    by_cases hj : j = k
    · rw [AMap.find?, if_pos hj] at h
      obtain rfl := Option.some.inj h
      exact hj ▸ List.mem_cons_self
    · rw [AMap.find?, if_neg hj] at h
      exact List.mem_cons_of_mem _ (ih h)

theorem AMap.mem_erase {β : Type} {m : AMap β} {k : Nat} {x : Nat × β} (h : x ∈ AMap.erase m k) : x ∈ m ∧ x.1 ≠ k := by
  induction m with
  | nil => cases h
  | cons y m ih =>
    obtain ⟨j, w⟩ := y
    unfold AMap.erase at h
    split at h
    · exact ⟨List.mem_cons_of_mem _ (ih h).1, (ih h).2⟩
    · next hj =>
      rcases List.mem_cons.mp h with rfl | h
      · exact ⟨List.mem_cons_self, hj⟩
      · exact ⟨List.mem_cons_of_mem _ (ih h).1, (ih h).2⟩

theorem AMap.mem_place {β : Type} {m : AMap β} {k : Nat} {v : β} {x : Nat × β} (h : x ∈ AMap.place m k v) : x = (k, v) ∨ x ∈ m := by
  induction m with
  | nil => exact .inl (List.mem_singleton.mp h)
  | cons y m ih =>
    obtain ⟨j, w⟩ := y
    unfold AMap.place at h
    split at h
    · exact List.mem_cons.mp h
    · rcases List.mem_cons.mp h with rfl | h
      · exact .inr List.mem_cons_self
      · exact (ih h).imp_right (List.mem_cons_of_mem _)

/-- What holds of every entry holds of every entry after a change of one that keeps it. -/
theorem AMap.forall_modify {β : Type} {P : Nat × β → Prop} {m : AMap β} {k : Nat} {f : β → β} (hf : ∀ v, P (k, v) → P (k, f v))
    (h : ∀ x ∈ m, P x) : ∀ x ∈ AMap.modify m k f, P x := by
  unfold AMap.modify
  split
  · next v hv =>
    intro x hx
    rcases AMap.mem_place hx with rfl | hx
    · exact hf v (h _ (AMap.mem_of_find? hv))
    · exact h x (AMap.mem_erase hx).1
  · exact h

end Sys2Proof

namespace Sys2Proof.Machine

/-! ### Trace records (R360): they change the trace only -/

section
variable (s : State) (vi source kind : Nat) (p : List Nat)
theorem traceRec_eq : s.traceRec vi source kind p = { s with trace := (s.traceRec vi source kind p).trace } := by
  unfold State.traceRec; split <;> rfl
@[simp] theorem traceRec_core (k : Nat) : (s.traceRec vi source kind p).core k = s.core k := by rw [traceRec_eq]; rfl
@[simp] theorem traceRec_block (k : Nat) : (s.traceRec vi source kind p).block k = s.block k := by rw [traceRec_eq]; rfl
@[simp] theorem traceRec_slot (k : Nat) : (s.traceRec vi source kind p).slot k = s.slot k := by rw [traceRec_eq]; rfl
@[simp] theorem traceRec_iface (k : Nat) : (s.traceRec vi source kind p).iface k = s.iface k := by rw [traceRec_eq]; rfl
@[simp] theorem traceRec_clock : (s.traceRec vi source kind p).clock = s.clock := by rw [traceRec_eq]
@[simp] theorem traceRec_mem : (s.traceRec vi source kind p).mem = s.mem := by rw [traceRec_eq]
@[simp] theorem traceRec_saved : (s.traceRec vi source kind p).saved = s.saved := by rw [traceRec_eq]
@[simp] theorem traceRec_cores : (s.traceRec vi source kind p).cores = s.cores := by rw [traceRec_eq]
end

/-! ### Named blocks (R20) -/

theorem memoryStep_saveTurnstiles (s : State) (x : Saved) (old : Block) : MemoryStep s (s.saveTurnstiles x old) := by
  refine .foldl (fun s n => ?_) _ _
  split
  · exact .refl s
  · exact memoryStep_writeFor s _ _ _
theorem modNamed_none {s : State} {i : Nat} (f : Block → Block) (h : s.saved[i]? = none) : s.modNamed (.kept i) f = s := by
  simp only [State.modNamed, h]
theorem modNamed_some {s : State} {i : Nat} {x : Saved} (f : Block → Block) (h : s.saved[i]? = some x) : s.modNamed (.kept i) f
    = ({ s with saved := setNth s.saved i { x with block := f x.block } } : State).saveTurnstiles { x with block := f x.block } x.block := by
  simp only [State.modNamed, h]
/-- A named block changes on its core or where it is saved, with its save slot's turnstiles. -/
theorem memoryStep_modNamed (s : State) (n : Named) (f : Block → Block) :
    MemoryStep { s with cores := (s.modNamed n f).cores, saved := (s.modNamed n f).saved } (s.modNamed n f) := by
  cases n with
  | on k => exact .of_ifaces rfl rfl
  | kept i =>
    cases hx : s.saved[i]? with
    | none => rw [modNamed_none f hx]; exact .refl s
    | some x =>
      rw [modNamed_some f hx]
      have h := memoryStep_saveTurnstiles { s with saved := setNth s.saved i { x with block := f x.block } }
        { x with block := f x.block } x.block
      rw [h.cores, h.saved]
      exact h
theorem modNamed_block (s : State) (n : Named) (f : Block → Block) (k : Nat) :
    (s.modNamed n f).block k = s.block k ∨ (s.modNamed n f).block k = (s.block k).map f := by
  cases n with
  | on j =>
    by_cases h : j = k
    · subst h; exact .inr (State.modBlock_block_self _ _ _)
    · exact .inl (State.modBlock_block_ne _ _ h)
  | kept i =>
    left
    cases hx : s.saved[i]? with
    | none => rw [modNamed_none f hx]
    | some x => rw [modNamed_some f hx]; exact (memoryStep_saveTurnstiles _ _ _).block k

/-! ### What the Ringmaster keeps while a gang is dispatched -/

/-- The queues, the Ringmaster's last queue and its hold, and the clock. -/
def State.board (s : State) : AMap QueueSlot × Option Nat × Option Nat × Nat := (s.slots, s.rmLast, s.rmHeld, s.clock)
theorem MemoryStep.board {s t : State} (h : MemoryStep s t) : t.board = s.board := (congrArg State.board h.bare :)
theorem board_modNamed (s : State) (n : Named) (f : Block → Block) : (s.modNamed n f).board = s.board :=
  (memoryStep_modNamed s n f).board
theorem board_modCore (s : State) (k : Nat) (f : Core → Core) : (s.modCore k f).board = s.board := rfl
theorem board_reserve (s : State) (gang : Nat) (spot : List (List Nat)) : (s.reserve gang spot).board = s.board := by
  refine foldl_keeps State.board _ (fun s ks => ?_) spot s
  exact foldl_keeps State.board _ (fun s k => board_modCore s k _) _ s

/-- A team of which one appended packet has completed (R52, R351). -/
def Team.appEnds (drem : Bool) (tm : Team) : Team := { tm with cpycnt := tm.cpycnt - 1, remote := tm.remote - b01 drem }
theorem appDone_eq (s : State) (asid hdr w : Nat) : s.appDone asid hdr w = match s.apps.find? fun a => a.asid == asid && a.hdr == hdr && a.w == w with
    | none => s
    | some a =>
      let s : State := { s with apps := s.apps.filter fun x => !(x.asid == asid && x.hdr == hdr && x.w == w) }
      match s.named a.vi a.name with
      | none => s
      | some n => s.modNamed n fun b => b.modTeam a.team (Team.appEnds a.drem) := rfl
theorem board_appDone (s : State) (asid hdr w : Nat) : (s.appDone asid hdr w).board = s.board := by
  rw [appDone_eq]
  split
  · rfl
  · dsimp only
    split
    · rfl
    · exact board_modNamed _ _ _
theorem appDone_block (s : State) (asid hdr w k : Nat) : (s.appDone asid hdr w).block k = s.block k
    ∨ ∃ n drem, (s.appDone asid hdr w).block k = (s.block k).map fun b => b.modTeam n (Team.appEnds drem) := by
  rw [appDone_eq]
  split
  · exact .inl rfl
  · next a _ =>
    dsimp only
    split
    · exact .inl rfl
    · exact (modNamed_block _ _ _ k).imp_right fun h => ⟨a.team, a.drem, h⟩

/-! ### Dispatch (R16 to R18, R23) -/

/-- A team of block `index` of a launch as it starts on core k (R16 to R18). -/
def TeamStarts (l : Launch) (index k : Nat) (x : Nat × Team) : Prop :=
  x.2.copy = decide (x.1 < lpCopies l.pkt) ∧ x.2.L = lpL l.pkt ∧ x.2.G = lpG l.pkt
    ∧ x.2.sreg 0 = BitVec.ofNat 64 index ∧ x.2.sreg 2 = BitVec.ofNat 64 k ∧ x.2.sreg 3 = BitVec.ofNat 64 (lpBlocks l.pkt)
    ∧ x.2.creg 0 = (mkCap 0 (256 * lpSplines l.pkt) 63 1 0, true) ∧ x.2.creg 1 = (mkCap (lpArgs l.pkt) 256 (permRD + permLC) 0 0, true)
    ∧ ∃ f, x.2.frags = [f] ∧ f.mask = fullMask (lpL l.pkt)
      ∧ f.pc = if x.1 < lpCopies l.pkt then (lpCopyEntry l.pkt).toNat else lpEntry l.pkt
/-- Block `index` of a launch as it starts on core k. -/
def BlockStarts (asid : Nat) (l : Launch) (index k : Nat) (b : Block) : Prop :=
  b.index = index ∧ b.name = k ∧ b.launch = l.id ∧ b.packet = l.pkt ∧ b.asid = asid ∧ b.teams.length = lpTeams l.pkt
    ∧ ∀ x ∈ b.teams, TeamStarts l index k x

theorem length_upto (lo n : Nat) : (upto lo n).length = n := by rw [upto_eq_range', List.length_range']
/-- The four scalar registers of a team that starts (R18). -/
def startRegs (a b c d : Word) : AMap Word := AMap.set 0 (AMap.set 0 (AMap.set 0 (AMap.set 0 [] 0 a) 1 b) 2 c) 3 d
theorem startRegs_get (a b c d : Word) : AMap.get 0 (startRegs a b c d) 0 = a ∧ AMap.get 0 (startRegs a b c d) 2 = c
    ∧ AMap.get 0 (startRegs a b c d) 3 = d := by
  refine ⟨?_, ?_, AMap.get_set_self _ _ _ _⟩
  · rw [startRegs, AMap.get_set_ne _ _ _ (by decide), AMap.get_set_ne _ _ _ (by decide), AMap.get_set_ne _ _ _ (by decide), AMap.get_set_self]
  · rw [startRegs, AMap.get_set_ne _ _ _ (by decide), AMap.get_set_self]
theorem blockStarts_newBlock (s : State) (slot : Nat) (q : QueueSlot) (l : Launch) (gang index j k : Nat) :
    BlockStarts q.asid l index k (newBlock s slot q l gang index j k) := by
  refine ⟨rfl, rfl, rfl, rfl, rfl, ?_, fun x hx => ?_⟩
  · exact (List.length_map _).trans (length_upto _ _)
  · obtain ⟨n, -, rfl⟩ := List.mem_map.mp hx
    obtain ⟨h0, h2, h3⟩ := startRegs_get (BitVec.ofNat 64 index) (BitVec.ofNat 64 (j % lpCpb l.pkt + j / lpCpb l.pkt * 8)) (BitVec.ofNat 64 k)
      (BitVec.ofNat 64 (lpBlocks l.pkt))
    refine ⟨rfl, rfl, rfl, h0, h2, h3, rfl, rfl, _, rfl, rfl, ?_⟩
    by_cases h : n < lpCopies l.pkt <;> simp [h]
theorem nodup_newBlock (s : State) (slot : Nat) (q : QueueSlot) (l : Launch) (gang index j k : Nat) :
    ((newBlock s slot q l gang index j k).teams.map Prod.fst).Nodup := by
  have : (newBlock s slot q l gang index j k).teams.map Prod.fst = upto 0 (lpTeams l.pkt) := by
    show List.map Prod.fst (List.map _ _) = _
    rw [List.map_map]
    exact List.map_id _
  rw [this]
  exact nodup_upto _ _
theorem BlockStarts.appEnds {asid index k : Nat} {l : Launch} {b : Block} (h : BlockStarts asid l index k b)
    (hn : (b.teams.map Prod.fst).Nodup) (n : Nat) (drem : Bool) : BlockStarts asid l index k (b.modTeam n (Team.appEnds drem)) := by
  obtain ⟨hi, hk, hl, hp, ha, hlen, hteams⟩ := h
  exact ⟨hi, hk, hl, hp, ha, (AMap.length_modify _ _ _ hn).trans hlen, AMap.forall_modify (fun _ h => h) hteams⟩

/-- One block of a gang is dispatched: the pair of its core and of its place in the gang. -/
def State.startBlock (slot : Nat) (q : QueueSlot) (l : Launch) (gang : Nat) (s : State) (x : Nat × Nat) : State :=
  (({ s with freeIx := s.freeIx + 1 } : State).putBlock x.1 (newBlock s slot q l gang (l.next + x.2) x.2 x.1)).traceRec (slot / 32) ringmaster 1
    [l.next + x.2 + x.1 * 2 ^ 32 + slot % 32 * 2 ^ 41]
theorem putBlock_core (s : State) (k : Nat) (b : Block) (j : Nat) : (s.putBlock k b).core j
    = (s.modCore k fun c => { c with block := some b, l1 := [], walks := [] }).core j := rfl
theorem putBlock_block_self (s : State) (k : Nat) (b : Block) : (s.putBlock k b).block k = some b := by
  rw [State.block, putBlock_core, State.modCore_core_self]
theorem putBlock_core_ne (s : State) {k j : Nat} (b : Block) (h : k ≠ j) : (s.putBlock k b).core j = s.core j := by
  rw [putBlock_core, State.modCore_core_ne _ _ h]
theorem putBlock_block_ne (s : State) {k j : Nat} (b : Block) (h : k ≠ j) : (s.putBlock k b).block j = s.block j := by
  rw [State.block, putBlock_core_ne _ _ h, State.block]
@[simp] theorem modLaunch_slot (s : State) (slot id : Nat) (f : Launch → Launch) :
    (s.modLaunch slot id f).slot slot = { s.slot slot with launches := launchesWith (s.slot slot).launches id f } :=
  State.modSlot_slot_self s slot _
theorem board_startBlock (slot : Nat) (q : QueueSlot) (l : Launch) (gang : Nat) (s : State) (x : Nat × Nat) :
    (s.startBlock slot q l gang x).board = s.board := by
  unfold State.startBlock; rw [traceRec_eq]; rfl

/-- The blocks of a gang start one after another; then its launch and the Ringmaster count them, and with a launch's last block the append
of its packet is done (R19, R23, R218). -/
theorem dispatch_eq (s : State) (slot : Nat) (l : Launch) (spot : List (List Nat)) : ∃ s0 : State, s0.board = s.board ∧
    s.dispatch slot l spot =
      let s1 := ((spot.flatMap fun ks => ks.take (lpCpb l.pkt)).zip (upto 0 (lpGang l.pkt))).foldl
        (State.startBlock slot (s.slot slot) l s.seqNo) s0
      let s2 : State := { s1.modLaunch slot l.id fun l' =>
          { l' with next := l'.next + lpGang l.pkt, live := l'.live + lpGang l.pkt, lastAt := some s1.clock } with
        rmLast := some ((s.slot slot).prio * 2048 + slot) }
      if l.next + lpGang l.pkt = lpBlocks l.pkt then s2.appDone (s.slot slot).asid (s.slot slot).hdr l.claim else s2 := by
  have reserved : (if lpFuse l.pkt then s.nextSeq.2.reserve s.seqNo spot else s.nextSeq.2).board = s.board := by
    split
    · exact board_reserve _ _ _
    · rfl
  refine ⟨_, ?_, rfl⟩
  by_cases hfirst : l.next = 0
  · rw [if_pos hfirst]; exact reserved
  · rw [if_neg hfirst]; exact reserved

/-- The blocks of a gang as they stand on their cores once all have started (R16 to R18). -/
theorem startBlock_all (slot : Nat) (q : QueueSlot) (l : Launch) (gang : Nat) (xs : List (Nat × Nat)) (hxs : (xs.map Prod.fst).Nodup)
    (s : State) : ∀ x ∈ xs, ∃ b, (xs.foldl (State.startBlock slot q l gang) s).block x.1 = some b
      ∧ BlockStarts q.asid l (l.next + x.2) x.1 b ∧ (b.teams.map Prod.fst).Nodup := by
  refine foldl_each (State.startBlock slot q l gang) Prod.fst (fun _ => True)
    (fun x s => ∃ b, s.block x.1 = some b ∧ BlockStarts q.asid l (l.next + x.2) x.1 b ∧ (b.teams.map Prod.fst).Nodup)
    (fun _ _ _ => trivial) (fun s x _ => ?_) (fun s x y hne => ?_) xs hxs s trivial
  · refine ⟨newBlock s slot q l gang (l.next + x.2) x.2 x.1, ?_, blockStarts_newBlock _ _ _ _ _ _ _ _, nodup_newBlock _ _ _ _ _ _ _ _⟩
    unfold State.startBlock
    rw [traceRec_block, putBlock_block_self]
  · rintro ⟨b, hb, hstarts⟩
    refine ⟨b, ?_, hstarts⟩
    unfold State.startBlock
    rw [traceRec_block, putBlock_block_ne _ _ (Ne.symm hne)]
    exact hb

/-- A gang that fits is dispatched on the cores of its place. -/
theorem dispatched_dispatch (s : State) (slot : Nat) (l : Launch) (spot : List (List Nat)) (hfits : s.fits (slot / 32) l.pkt = some spot) :
    Dispatched s (s.dispatch slot l spot) slot l spot ∧ (s.dispatch slot l spot).rmHeld = s.rmHeld
      ∧ (s.dispatch slot l spot).clock = s.clock := by
  obtain ⟨hlen, hcl, hdis⟩ := placeIn_some hfits
  obtain ⟨s0, hboard0, heq⟩ := dispatch_eq s slot l spot
  set cores := spot.flatMap fun ks => ks.take (lpCpb l.pkt) with hcores
  set s1 := (cores.zip (upto 0 (lpGang l.pkt))).foldl (State.startBlock slot (s.slot slot) l s.seqNo) s0 with hs1
  have hnodup : cores.Nodup := nodup_gangCores _ (fun ks h => (hcl ks h).2) hdis
  have hcount : cores.length ≤ lpGang l.pkt := by
    have := length_gangCores_le spot (lpCpb l.pkt)
    rwa [hlen] at this
  have hboard1 : s1.board = s.board := (foldl_keeps State.board _ (board_startBlock slot _ l _) _ s0).trans hboard0
  simp only [State.board, Prod.mk.injEq] at hboard1
  obtain ⟨hslots, -, hheld, hclock⟩ := hboard1
  have hblocks : ∀ j k, cores[j]? = some k → ∃ b, s1.block k = some b ∧ BlockStarts (s.slot slot).asid l (l.next + j) k b
      ∧ (b.teams.map Prod.fst).Nodup := by
    intro j k hk
    have hj : j < cores.length := (List.getElem?_eq_some_iff.mp hk).1
    refine startBlock_all slot (s.slot slot) l s.seqNo (cores.zip (upto 0 (lpGang l.pkt))) ?_ s0 (k, j) ?_
    · rw [List.map_fst_zip (by rw [length_upto]; exact hcount)]
      exact hnodup
    · refine List.mem_of_getElem? (i := j) (List.getElem?_zip_eq_some.mpr ⟨hk, ?_⟩)
      rw [upto_eq_range', List.getElem?_range' (by omega)]
      simp
  dsimp only at heq
  set s2 : State := { s1.modLaunch slot l.id fun l' =>
      { l' with next := l'.next + lpGang l.pkt, live := l'.live + lpGang l.pkt, lastAt := some s1.clock } with
    rmLast := some ((s.slot slot).prio * 2048 + slot) } with hs2
  have hend : (s.dispatch slot l spot).board = s2.board ∧ ∀ k b, s2.block k = some b → (b.teams.map Prod.fst).Nodup →
      ∀ j, BlockStarts (s.slot slot).asid l j k b → ∃ b', (s.dispatch slot l spot).block k = some b' ∧ BlockStarts (s.slot slot).asid l j k b' := by
    rw [heq]
    split
    · refine ⟨board_appDone _ _ _ _, fun k b hb hn j h => ?_⟩
      rcases appDone_block s2 (s.slot slot).asid (s.slot slot).hdr l.claim k with hsame | ⟨n, drem, hmod⟩
      · exact ⟨b, hsame.trans hb, h⟩
      · exact ⟨_, by rw [hmod, hb]; rfl, h.appEnds hn n drem⟩
    · exact ⟨rfl, fun k b hb _ j h => ⟨b, hb, h⟩⟩
  obtain ⟨hboard, hkeep⟩ := hend
  simp only [State.board, Prod.mk.injEq] at hboard
  obtain ⟨hslots', hlast', hheld', hclock'⟩ := hboard
  refine ⟨⟨?_, hlast', fun j k hk => ?_⟩, hheld'.trans hheld, hclock'.trans hclock⟩
  · have hslot : (s.dispatch slot l spot).slot slot = s2.slot slot := by unfold State.slot; rw [hslots']
    have hslot1 : s1.slot slot = s.slot slot := by unfold State.slot; rw [hslots]
    rw [hslot, ← hclock, ← hslot1]
    exact congrArg QueueSlot.launches (modLaunch_slot s1 slot l.id _)
  · obtain ⟨b, hb, hstarts, hn⟩ := hblocks j k hk
    exact hkeep k b hb hn _ hstarts

end Sys2Proof.Machine
end

section
namespace Sys2Proof.Machine

/-! ### Fault-ring entries (R375, R378) -/

theorem Posted.of_faults {s s' t t' : State} {vi kind code : Nat} (h : Posted s t vi kind code)
    (hs : (s'.iface vi).faults = (s.iface vi).faults) (ht : (t'.iface vi).faults = (t.iface vi).faults) : Posted s' t' vi kind code := by
  obtain ⟨l, e, hl, hlen, hdw⟩ := h
  exact ⟨l, e, ht.trans hl, hlen.trans (congrArg List.length hs.symm), hdw⟩
/-- The low half-word of an entry holds its kind and its code. -/
theorem bits_entry (kind code source team : Nat) (hk : kind < 256) (hc : code < 256) :
    bits (BitVec.ofNat 64 (kind + code * 2 ^ 8 + source * 2 ^ 16 + team * 2 ^ 32)).toNat 0 16 = kind + code * 256 := by
  simp only [bits, BitVec.toNat_ofNat]
  omega
/-- With no room in the ring the entries of an interface are held, each with its words as they are (R380). -/
theorem holdFaults_faults (s : State) (vi : Nat) : ∃ mark : FaultEntry → FaultEntry, (∀ e, (mark e).dws = e.dws)
    ∧ ((s.holdFaults vi).iface vi).faults = (s.iface vi).faults.map mark := by
  unfold State.holdFaults
  rw [State.modIface_iface_self]
  split
  · exact ⟨id, fun _ => rfl, (List.map_id _).symm⟩
  · exact ⟨fun e => { e with held := true }, fun _ => rfl, rfl⟩
/-- An entry as it is posted (R378). -/
def newEntry (s : State) (kind code source team : Nat) (dws : List Nat) (core : Option Nat) (app : Option (Nat × Nat × Nat))
    (part : Option Nat) : FaultEntry :=
  { dws := ((kind + code * 2 ^ 8 + source * 2 ^ 16 + team * 2 ^ 32) :: dws).map (BitVec.ofNat 64), stamp := s.stamp, source, core, app, part
    held := false }
theorem posted_postFault (s : State) (vi kind code source team : Nat) (dws : List Nat) (core : Option Nat) (app : Option (Nat × Nat × Nat))
    (part : Option Nat) (hk : kind < 256) (hc : code < 256) :
    Posted s (s.postFault vi kind code source team dws core app part) vi kind code := by
  set e := newEntry s kind code source team dws core app part with he
  obtain ⟨mark, hmark, hfaults⟩ := holdFaults_faults (s.modIface vi fun i => { i with faults := i.faults ++ [e] }) vi
  refine ⟨(s.iface vi).faults.map mark, mark e, ?_, List.length_map _, ?_⟩
  · refine hfaults.trans ?_
    rw [State.modIface_iface_self, List.map_append, List.map_singleton]
  · rw [hmark]
    exact congrArg some (bits_entry kind code source team hk hc)

theorem failArrival_keeps (s : State) (vi : Nat) (turn : Option (Nat × Nat)) :
    (s.failArrival vi turn).slots = s.slots ∧ ∀ j, ((s.failArrival vi turn).iface j).faults = (s.iface j).faults := by
  unfold State.failArrival
  split
  · exact ⟨rfl, fun _ => rfl⟩
  · split
    · exact ⟨rfl, fun _ => rfl⟩
    · exact ⟨(memoryStep_modNamed _ _ _).slots, (memoryStep_modNamed _ _ _).faults⟩
/-- A packet or a launch that fails posts a kind-3 entry of its code and stops its queue (R375). -/
theorem failEntry_stops (s : State) (slot claim kind code addr word : Nat) (turn : Option (Nat × Nat)) (part unknown : Bool) (ddev : Nat)
    (hc : code < 256) : let t := s.failEntry slot claim kind code addr word turn part unknown ddev
    t.slot slot = { s.slot slot with stopped := true } ∧ Posted s t (slot / 32) 3 code := by
  intro t
  obtain ⟨hslots, hfaults⟩ : (if code = 0x0D then s else s.failArrival (slot / 32) turn).slots = s.slots
      ∧ ∀ j, ((if code = 0x0D then s else s.failArrival (slot / 32) turn).iface j).faults = (s.iface j).faults := by
    split
    · exact ⟨rfl, fun _ => rfl⟩
    · exact failArrival_keeps s _ _
  constructor
  · refine (State.modSlot_slot_self _ _ _).trans ?_
    rw [State.slot, State.slot, ← hslots]
    rfl
  · exact (posted_postFault _ (slot / 32) 3 code _ _ _ _ _ _ (by decide) hc).of_faults (hfaults _).symm rfl

/-! ### Reading a launch packet (R21, R26, R374 to R376) -/

theorem tracePacket_eq (s : State) (slot claim : Nat) (done : Bool) (clips : Nat) : s.tracePacket slot claim done clips =
    s.traceRec (slot / 32) (sourceOf 2 (s.slot slot).engine) 7 [claim, slot % 32 + b01 done * 2 ^ 5 + clips % 2 ^ 32 * 2 ^ 6] := rfl

/-- The state once the engine has taken a packet of a queue and the trace has recorded it (R210, R360). -/
def State.takenRead (s : State) (slot claim : Nat) : State := (s.taken slot).tracePacket slot claim false 0
section
variable (s : State) (slot claim : Nat)
theorem takenRead_slot : (s.takenRead slot claim).slot slot = { s.slot slot with ridx := ((s.slot slot).ridx + 1) % 2 ^ 64 } := by
  rw [State.takenRead, tracePacket_eq, traceRec_slot, State.taken, State.modSlot_slot_self, (memoryStep_writeFor s _ _ _).slot]
theorem takenRead_faults (j : Nat) : ((s.takenRead slot claim).iface j).faults = (s.iface j).faults := by
  rw [State.takenRead, tracePacket_eq, traceRec_iface, State.taken]
  exact (memoryStep_writeFor s _ _ _).faults j
theorem takenRead_groups (vi : Nat) (p : List Word) : (s.takenRead slot claim).groups vi p = s.groups vi p := by
  rw [State.groups, State.takenRead, tracePacket_eq, traceRec_iface, State.taken]
  exact congrArg (fun v => Nat.land _ (bits (BitVec.toNat v) 16 16)) ((memoryStep_writeFor s _ _ _).victl vi)
theorem takenRead_couldFit (vi : Nat) (p : List Word) : (s.takenRead slot claim).couldFit vi p = s.couldFit vi p := by
  have hcore : ∀ k, (s.takenRead slot claim).core k = s.core k := fun k => by
    rw [State.takenRead, tracePacket_eq, traceRec_core, State.taken]
    exact (memoryStep_writeFor s _ _ _).core k
  simp only [State.couldFit, takenRead_groups, hcore]
end

/-- A launch as its packet is read: nothing of it dispatched (R26). -/
def readLaunch (s : State) (claim : Nat) (p : List Word) : Launch :=
  { id := s.launchNo, pkt := p, claim, ready := lpWkind p == 0, wait := none, next := 0, live := 0, lastAt := none, fail := none }

section
variable {s s1 : State} {slot : Nat} {p : List Word} (hidle : ((s.slot slot).launches.all fun l => !l.undone && l.fail.isNone) = true)
include hidle
/-- Every launch of the queue has been dispatched whole and none has failed: the next may be read. -/
theorem launches_idle : ((s.slot slot).launches.any fun l => l.undone || l.fail.isSome) = false := by
  rw [List.any_eq_false]
  intro l hl
  have := List.all_eq_true.mp hidle l hl
  simp only [Bool.and_eq_true, Bool.not_eq_true', Option.isNone_iff_eq_none] at this
  simp [this.1, this.2]
theorem launchPacketRead_accepts (hpeek : s.peek slot = .packet p s1) (hkind : pkKind p = 7) (hfield : launchFieldOk p = true)
    (hok : launchOk p = true) (hgroups : s1.groups (slot / 32) p ≠ 0) (hfit : s1.couldFit (slot / 32) p = true) :
    ∃ t l, exec (.launchPacketRead slot) s = .next t ∧ l.pkt = p ∧ l.claim = (s.slot slot).ridx ∧ l.next = 0 ∧ l.live = 0
      ∧ l.ready = (lpWkind p == 0) ∧ l.fail = none
      ∧ t.slot slot = { s1.slot slot with
          ridx := ((s1.slot slot).ridx + 1) % 2 ^ 64, launches := (s1.slot slot).launches ++ [l] } := by
  set s2 := s1.takenRead slot (s.slot slot).ridx with hs2
  have htaken : exec (.launchPacketRead slot) s = .next
      { s2.modSlot slot fun q => { q with launches := q.launches ++ [readLaunch s2 (s.slot slot).ridx p] } with
        launchNo := s2.launchNo + 1, rmWant := s2.rmWant || lpWkind p == 0 } := by
    have hg : s2.groups (slot / 32) p ≠ 0 := by rwa [hs2, takenRead_groups]
    have hf : s2.couldFit (slot / 32) p = true := by rwa [hs2, takenRead_couldFit]
    show execLaunchPacketRead slot s = _
    unfold execLaunchPacketRead
    simp only [launches_idle hidle, hpeek, hkind, hfield, hok, Bool.false_eq_true, if_false, bne_self_eq_false, Bool.not_true,
      Bool.false_or]
    exact if_neg (show ¬((s2.groups (slot / 32) p == 0 || !s2.couldFit (slot / 32) p) = true) by simp [hg, hf])
  refine ⟨_, readLaunch s2 (s.slot slot).ridx p, htaken, rfl, rfl, rfl, rfl, rfl, rfl, ?_⟩
  exact (State.modSlot_slot_self s2 slot fun q => { q with launches := q.launches ++ [readLaunch s2 (s.slot slot).ridx p] }).trans
    (by rw [hs2, takenRead_slot])
theorem launchPacketRead_refuses (hpeek : s.peek slot = .packet p s1) (hkind : pkKind p = 7) (hfield : launchFieldOk p = false) :
    ∃ t, exec (.launchPacketRead slot) s = .next t ∧ (t.slot slot).stopped = true ∧ Posted s1 t (slot / 32) 3 0x01 := by
  set s2 := s1.takenRead slot (s.slot slot).ridx with hs2
  have hfail : exec (.launchPacketRead slot) s = .next (s2.failEntry slot (s.slot slot).ridx 7 0x01 0 (if lpDkind p = 1 then lpDaddr p else 0)
      (lpTurn p) false false 0) := by
    show execLaunchPacketRead slot s = _
    unfold execLaunchPacketRead
    simp only [launches_idle hidle, hpeek, hkind, hfield, Bool.false_eq_true, if_false, bne_self_eq_false, Bool.not_false, if_true]
    rfl
  obtain ⟨hslot, hposted⟩ := failEntry_stops s2 slot (s.slot slot).ridx 7 0x01 0 (if lpDkind p = 1 then lpDaddr p else 0) (lpTurn p) false false 0
    (by decide)
  exact ⟨_, hfail, by rw [hslot], hposted.of_faults (takenRead_faults s1 slot _ _).symm rfl⟩
theorem launchPacketRead_waits {va : Nat} (hpeek : s.peek slot = .miss va s1) : exec (.launchPacketRead slot) s
    = .next ((s1.postPage (slot / 32) 2 false va (s1.slot slot).asid (s1.slot slot).engine 0).modSlot slot fun q =>
        { q with wait := some (va / 65536) }) := by
  show execLaunchPacketRead slot s = _
  unfold execLaunchPacketRead
  simp only [launches_idle hidle, hpeek, Bool.false_eq_true, if_false]
  rfl
end

/-! ### Wait conditions (R20, R27) -/

section
variable {s s1 : State} {slot : Nat} {l : Launch}
/-- A condition that has been evaluated stands in the launch; the first time that it holds, the launch has seen what its word orders before it. -/
theorem waitConditionEval_gives {r : Bool} (hhead : (s.slot slot).headLaunch = some l) (hwait : l.wait = none)
    (hcond : s.condition slot (s.slot slot) l.pkt = .inl (some r, s1)) (hslots : s1.slot slot = s.slot slot) :
    ∃ t seen, exec (.waitConditionEval slot) s = .next t ∧ (t.slot slot).launches = launchesWith (s.slot slot).launches l.id fun m =>
      { m with ready := r, seen := if r && m.next == 0 then seen else m.seen } := by
  refine ⟨{ s1.modLaunch slot l.id fun m =>
      { m with ready := r, seen := if r && m.next == 0 then s1.seenBy (s.slot slot) l.pkt else m.seen } with
    rmWant := s1.rmWant || (r && !l.ready) }, s1.seenBy (s.slot slot) l.pkt, ?_, ?_⟩
  · show execWaitConditionEval slot s = _
    unfold execWaitConditionEval
    simp only [hhead, hwait, hcond]
    rfl
  · refine (congrArg QueueSlot.launches (modLaunch_slot s1 slot l.id _)).trans ?_
    rw [hslots]
/-- At an absent page a record is posted, and every launch of the head's id waits for the page of its own word. -/
theorem waitConditionEval_absent (hhead : (s.slot slot).headLaunch = some l) (hwait : l.wait = none)
    (hcond : s.condition slot (s.slot slot) l.pkt = .inl (none, s1)) (hslots : s1.slot slot = s.slot slot) :
    ∃ t, exec (.waitConditionEval slot) s = .next t ∧ (t.iface (slot / 32)).pages.length = (s1.iface (slot / 32)).pages.length + 1
      ∧ (t.slot slot).launches = launchesWith (s.slot slot).launches l.id fun m =>
          { m with ready := false, wait := some (lpWaddr m.pkt / 65536) } := by
  set s2 := s1.postPage (slot / 32) 2 false (lpWaddr l.pkt) (s.slot slot).asid (s.slot slot).engine 0 with hs2
  refine ⟨s2.modLaunch slot l.id fun m => { m with ready := false, wait := some (lpWaddr m.pkt / 65536) }, ?_, ?_, ?_⟩
  · show execWaitConditionEval slot s = _
    unfold execWaitConditionEval
    simp only [hhead, hwait, hcond, Option.isSome_none, Bool.false_eq_true, if_false, hs2]
  · have hpages : (s2.iface (slot / 32)).pages = (s1.iface (slot / 32)).pages ++ _ :=
      congrArg Iface.pages (State.modIface_iface_self s1 (slot / 32) _)
    exact (congrArg List.length hpages).trans (List.length_append ..)
  · refine (congrArg QueueSlot.launches (modLaunch_slot s2 slot l.id _)).trans ?_
    rw [show s2.slot slot = s.slot slot from hslots]

theorem condition_none (hkind : lpWkind l.pkt = 0) : s.condition slot (s.slot slot) l.pkt = .inl (some true, s) := by
  simp only [State.condition, hkind]
theorem condition_word {pa : Nat} (hkind : lpWkind l.pkt = 1)
    (hx : s.engineXlat (s.slot slot).engine (s.slot slot).asid (lpWaddr l.pkt) false = (.ok pa, s1)) (hfill : s1.mayFill pa 8 = true)
    (hwaits : s1.agentWaits s1.seqNo s1.seqNo (.pa pa) = false) (hpoison : s1.poisonedAt (.pa pa) 8 = false) :
    s.condition slot (s.slot slot) l.pkt = .inl (some (decide (lpWval l.pkt ≤ bits (s1.dw pa) 0 32)), s1.l2Fill pa 8) := by
  simp only [State.condition, hkind, hx, hfill, hwaits, hpoison, Bool.not_true, Bool.false_eq_true, if_false, Bool.or_false]
theorem condition_absent (hkind : lpWkind l.pkt = 1)
    (hx : s.engineXlat (s.slot slot).engine (s.slot slot).asid (lpWaddr l.pkt) false = (.absent, s1)) :
    s.condition slot (s.slot slot) l.pkt = .inl (none, s1) := by
  simp only [State.condition, hkind, hx]
theorem condition_turnstile {n : Named} {b : Block} (hkind : lpWkind l.pkt = 2) (hn : s.named (slot / 32) (lpWcore l.pkt) = some n)
    (hb : s.namedBlock n = some b) :
    s.condition slot (s.slot slot) l.pkt = .inl (some ((b.turnstile (lpWts l.pkt)).ph == lpWph l.pkt), s) := by
  simp only [State.condition, hkind, hn, Option.bind_some, hb, Option.any_some]
end

/-! ### Decisions and holds (R30, R31) -/

theorem Dispatched.of_eq {s t u : State} {slot : Nat} {l : Launch} {spot : List (List Nat)} (h : Dispatched s t slot l spot)
    (hslots : u.slots = t.slots) (hlast : u.rmLast = t.rmLast) (hcores : u.cores = t.cores) : Dispatched s u slot l spot := by
  obtain ⟨hl, hr, hb⟩ := h
  refine ⟨?_, hlast.trans hr, fun j k hk => ?_⟩
  · rw [State.slot, hslots]; exact hl
  · rw [State.block, State.core, hcores]; exact hb j k hk

section
variable {s : State} (hheld : s.rmHeld = none) (hat : s.rmAt ≠ some s.clock) (hwant : (s.rmWant || s.anyFree) = true)
include hheld hat hwant
theorem ringmasterDecision_eq : exec .ringmasterDecision s = .next { s.decide_ with rmWant := false, rmAt := some s.decide_.clock } := by
  show execRingmasterDecision s = _
  unfold execRingmasterDecision
  rw [if_neg]
  simp [hheld, hat, hwant]
theorem ringmasterDecision_dispatches {slot : Nat} {l : Launch} {spot : List (List Nat)}
    (hpick : s.credited.scanOrder.findSome? s.credited.offer = some (slot, l)) (hfits : s.fits (slot / 32) l.pkt = some spot) :
    ∃ t, exec .ringmasterDecision s = .next t ∧ Dispatched s.credited t slot l spot ∧ t.rmHeld = none ∧ t.rmAt = some s.clock := by
  rw [← credited_fits] at hfits
  have hdecide : s.decide_ = s.credited.dispatch slot l spot := by simp only [decide_eq, hpick, hfits]
  obtain ⟨hdisp, hkept, hclock⟩ := dispatched_dispatch s.credited slot l spot hfits
  refine ⟨_, ringmasterDecision_eq hheld hat hwant, ?_, ?_, ?_⟩
  · rw [hdecide]; exact hdisp.of_eq rfl rfl rfl
  · rw [hdecide]; exact hkept.trans ((credited_rmHeld s).trans hheld)
  · rw [hdecide]; exact congrArg some (hclock.trans (credited_clock s))
theorem ringmasterDecision_holds {slot : Nat} {l : Launch} (hpick : s.credited.scanOrder.findSome? s.credited.offer = some (slot, l))
    (hfits : s.fits (slot / 32) l.pkt = none) :
    exec .ringmasterDecision s = .next { s.credited with rmHeld := some slot, rmWant := false, rmAt := some s.clock } := by
  rw [← credited_fits] at hfits
  rw [ringmasterDecision_eq hheld hat hwant, ← credited_clock s]
  simp only [decide_eq, hpick, hfits]
theorem ringmasterDecision_takes (hpick : s.credited.scanOrder.findSome? s.credited.offer = none) :
    exec .ringmasterDecision s = .next { s.credited.creditsTaken with rmWant := false, rmAt := some s.clock } := by
  rw [ringmasterDecision_eq hheld hat hwant, ← credited_clock s]
  simp only [decide_eq, hpick]
  rfl
end
theorem creditsTaken_eq (s : State) : s.creditsTaken = { s with slots := s.slots.map fun x =>
    (x.1, if x.2.registered = true ∧ x.2.ready = none ∧ 0 < x.2.d then { x.2 with d := 0 } else x.2) } := by
  unfold State.creditsTaken
  congr 1
  refine List.map_congr_left fun x _ => ?_
  simp only [Bool.and_eq_true, Option.isNone_iff_eq_none, decide_eq_true_eq, and_assoc]

theorem ringmasterHoldStep_dispatches {s : State} {slot : Nat} {l : Launch} {spot : List (List Nat)} (hheld : s.rmHeld = some slot)
    (hat : s.rmAt ≠ some s.clock) (hnext : (s.slot slot).nextLaunch = some l) (hfits : s.fits (slot / 32) l.pkt = some spot) :
    ∃ t, exec .ringmasterHoldStep s = .next t ∧ Dispatched s t slot l spot ∧ t.rmHeld = none ∧ t.rmAt = some s.clock := by
  obtain ⟨hdisp, -, hclock⟩ := dispatched_dispatch s slot l spot hfits
  refine ⟨{ s.dispatch slot l spot with rmHeld := none, rmAt := some (s.dispatch slot l spot).clock }, ?_, hdisp.of_eq rfl rfl rfl, rfl,
    congrArg some hclock⟩
  show execRingmasterHoldStep s = _
  unfold execRingmasterHoldStep
  simp only [hheld, beq_eq_false_iff_ne.mpr hat, hnext, hfits, Bool.false_eq_true, if_false]

/-! ### O41 -/

/-- A launch of number 0 that waits on a word, at the word's DW5 (R21). -/
def waitingLaunch (dw5 : Word) : Launch :=
  { id := 0, pkt := [7, 0x10000, 0, 1, 0, dw5, 1, 0], claim := 0, ready := false, wait := none, next := 0, live := 0, lastAt := none, fail := none }
/-- A queue of which two launches carry one number and wait on words of different pages, in a space that maps no page. -/
def twoOfOneNumber : State :=
  { State.reset with
    spaces := [(0, { Space.init with root := 1 })]
    slots := [(0, { QueueSlot.init with launches := [waitingLaunch 0x10001, waitingLaunch 0x20001] })] }

end Sys2Proof.Machine

open Sys2Proof Sys2Proof.Machine

/-- Refutes O41, in its clause on the absent page of a wait word. The clause gives every launch of the head's number the page of the head's word;
`WAIT_CONDITION_EVAL` gives each the page of its own (`waitConditionEval_absent`). In `twoOfOneNumber`, which no hypothesis excludes, the second
launch comes to wait for page 2 where the clause says page 1. The theorems above on `LAUNCH_PACKET_READ`, `RINGMASTER_DECISION` and
`RINGMASTER_HOLD_STEP`, and on the other wait conditions, are the statement's other clauses. -/
theorem not_launchesDispatch : ¬ Obligations.LaunchesDispatch := by
  unfold Obligations.LaunchesDispatch
  rintro ⟨⟨-, -, hwait⟩, -⟩
  obtain ⟨-, -, habsent, -⟩ := hwait twoOfOneNumber 0 (waitingLaunch 0x10001) (by decide +kernel) rfl
  obtain ⟨s1, hx⟩ : ∃ s1, twoOfOneNumber.engineXlat 0 0 (lpWaddr (waitingLaunch 0x10001).pkt) false = (.absent, s1) :=
    ⟨_, Prod.ext (by decide +kernel) rfl⟩
  obtain ⟨t, ht, -, hclause⟩ := habsent s1 (by decide) hx
  obtain ⟨t', ht', -, hmodel⟩ := waitConditionEval_absent (by decide +kernel) rfl
    (condition_absent (s := twoOfOneNumber) (slot := 0) (l := waitingLaunch 0x10001) (by decide) hx) ((memoryStep_of_engineXlat hx).slot 0)
  obtain rfl : t = t' := Host.Outcome.next.inj (ht.symm.trans ht')
  exact absurd (hclause.symm.trans hmodel) (by decide +kernel)
end

section
namespace Sys2Proof

theorem AMap.erase_eq_filter {β : Type} (m : AMap β) (k : Nat) : AMap.erase m k = List.filter (fun x => x.1 != k) m := by
  induction m with
  | nil => rfl
  | cons x m ih =>
    obtain ⟨j, w⟩ := x
    by_cases h : j = k <;> simp [AMap.erase, h, ih]
/-- The entries that a test accepts, once a key has a value that it does not accept. -/
theorem AMap.filter_set {β : Type} [DecidableEq β] (d : β) (m : AMap β) (k : Nat) (v : β) {q : Nat × β → Bool} (hq : q (k, v) = false) :
    List.filter q (AMap.set d m k v) = List.filter (fun x => q x && x.1 != k) m := by
  rw [← List.filter_filter, ← AMap.erase_eq_filter]
  unfold AMap.set AMap.put
  split
  · rfl
  · exact AMap.filter_place _ _ _ hq

end Sys2Proof

namespace Sys2Proof.Machine

/-! ### Retirement (R19, R25, R32) -/

/-- A block off its core, out of its launch and its appends at an end, before its queue is charged. -/
def State.retire (s : State) (core : Nat) (b : Block) : State :=
  let s := s.modCore core fun c => { c with block := none, walks := [] }
  let s := { s with apps := s.apps.filter fun a => !(a.vi == b.vi && a.name == b.name) }
  let s := s.modLaunch b.slot b.launch fun l => { l with live := l.live - 1, endAt := some s.clock }
  s.traceRec b.vi ringmaster 2 [b.index + core * 2 ^ 32 + b.slot % 32 * 2 ^ 41]
/-- A queue is charged n clocks (R32). -/
def State.charge (s : State) (slot n : Nat) : State := s.modSlot slot fun q => { q with d := q.d - n }
theorem blockRetire_eq {s : State} {core : Nat} {b : Block} (hb : s.block core = some b) (hmay : s.mayRetire core b = true)
    (hat : s.rmAt ≠ some s.clock) : exec (.blockRetire core) s =
      if !b.fused then .next ((s.retire core b).charge b.slot (s.heldBy b))
      else if !((s.retire core b).gangCores b.gang).isEmpty || (s.retire core b).gangSaved b.gang then .next (s.retire core b)
      else .next (((s.retire core b).unreserve b.gang).charge b.slot (4 * lpClusters b.packet * s.heldBy b)) := by
  show execBlockRetire core s = _
  unfold execBlockRetire
  simp only [hb, hmay, beq_eq_false_iff_ne.mpr hat, Bool.not_true, Bool.or_false, Bool.false_eq_true, if_false]
  rfl

/-- A core once it is reserved for a gang no more (R25). -/
def Core.unreserved (gang : Nat) (c : Core) : Core := if c.fusedGang = some gang then { c with fusedGang := none, l1 := [] } else c
theorem unreserved_block (gang : Nat) (c : Core) : (c.unreserved gang).block = c.block := by
  unfold Core.unreserved; split <;> rfl

section
variable (s : State) (core : Nat) (b : Block)
theorem retire_block (k : Nat) : (s.retire core b).block k = if k = core then none else s.block k := by
  have hcore : (s.retire core b).block k = (s.modCore core fun c => { c with block := none, walks := [] }).block k := by
    rw [State.retire, traceRec_block]; rfl
  rw [hcore]
  split
  · next h => subst h; rw [State.block, State.modCore_core_self]
  · next h => rw [State.block, State.modCore_core_ne _ _ (Ne.symm h), State.block]
theorem retire_mem : (s.retire core b).mem = s.mem := by rw [State.retire, traceRec_mem]; rfl
theorem retire_slot : (s.retire core b).slot b.slot = { s.slot b.slot with
    launches := launchesWith (s.slot b.slot).launches b.launch fun l => { l with live := l.live - 1, endAt := some s.clock } } := by
  rw [State.retire, traceRec_slot, modLaunch_slot]; rfl
theorem retire_gangSaved (gang : Nat) : (s.retire core b).gangSaved gang = s.gangSaved gang := by
  unfold State.gangSaved; rw [State.retire, traceRec_saved]; rfl
/-- After a retirement the gang has no core left when the block's core was its only one. -/
theorem retire_gangCores (gang : Nat) : ((s.retire core b).gangCores gang).isEmpty
    = s.cores.all fun x => x.1 == core || !(x.2.block.any fun o => o.gang == gang) := by
  have hcores : (s.retire core b).cores = AMap.set Core.init s.cores core { s.core core with block := none, walks := [] } := by
    rw [State.retire, traceRec_cores]; rfl
  have hgang := AMap.filter_set Core.init s.cores core { s.core core with block := none, walks := [] }
    (q := fun (x : Nat × Core) => x.2.block.any fun o => o.gang == gang) rfl
  rw [← hcores] at hgang
  unfold State.gangCores
  rw [List.isEmpty_map, hgang, Bool.eq_iff_iff, List.isEmpty_iff, List.filter_eq_nil_iff, List.all_eq_true]
  refine forall₂_congr fun x _ => ?_
  by_cases h : x.1 = core <;> simp [h]
theorem unreserve_block (gang k : Nat) : (s.unreserve gang).block k = s.block k := by
  have hcore : (s.unreserve gang).core k = ((AMap.find? s.cores k).map (Core.unreserved gang)).getD Core.init :=
    congrArg (Option.getD · Core.init) (AMap.find?_map s.cores (fun _ => Core.unreserved gang) k)
  rw [State.block, State.block, hcore, State.core, AMap.get]
  cases AMap.find? s.cores k with
  | none => rfl
  | some c => exact unreserved_block gang c
end

/-- What a retirement leaves: the core free, the others as they were, and the queue charged. -/
theorem blockRetire_leaves {s : State} {core : Nat} {b : Block} (hb : s.block core = some b) (hmay : s.mayRetire core b = true)
    (hat : s.rmAt ≠ some s.clock) :
    let q := s.slot b.slot
    let alone := (s.cores.all fun x => x.1 == core || !(x.2.block.any fun o => o.gang == b.gang)) && !s.gangSaved b.gang
    let charge := if b.fused then (if alone then 4 * lpClusters b.packet * s.heldBy b else 0) else s.heldBy b
    ∃ t, exec (.blockRetire core) s = .next t ∧ t.block core = none ∧ (∀ k, k ≠ core → t.block k = s.block k) ∧ t.mem = s.mem
      ∧ t.slot b.slot = { q with launches := launchesWith q.launches b.launch (fun l => { l with live := l.live - 1, endAt := some s.clock })
                                 d := q.d - charge } := by
  have hself : (s.retire core b).block core = none := by rw [retire_block, if_pos rfl]
  have hother : ∀ k, k ≠ core → (s.retire core b).block k = s.block k := fun k hk => by rw [retire_block, if_neg hk]
  have hcharge : ∀ (u : State) n, u.slot b.slot = (s.retire core b).slot b.slot → (u.charge b.slot n).slot b.slot =
      { s.slot b.slot with
        launches := launchesWith (s.slot b.slot).launches b.launch fun l => { l with live := l.live - 1, endAt := some s.clock }
        d := (s.slot b.slot).d - n } := fun u n hu => by rw [State.charge, State.modSlot_slot_self, hu, retire_slot]
  have hexec := blockRetire_eq hb hmay hat
  rw [retire_gangCores, retire_gangSaved] at hexec
  intro q alone charge
  cases hf : b.fused with
  | false =>
    refine ⟨_, hexec.trans (if_pos (by rw [hf]; rfl)), hself, hother, retire_mem s core b, ?_⟩
    rw [hcharge _ _ rfl]
    simp only [charge, hf, Bool.false_eq_true, if_false]
    rfl
  | true =>
    rw [if_neg (by rw [hf]; decide)] at hexec
    cases ha : alone with
    | false =>
      refine ⟨_, hexec.trans (if_pos (by rw [← Bool.not_eq_false', Bool.not_or, Bool.not_not]; exact ha)), hself, hother,
        retire_mem s core b, ?_⟩
      rw [retire_slot]
      simp only [charge, hf, ha, Bool.false_eq_true, if_false, if_true, Nat.cast_zero, Int.sub_zero]
      rfl
    | true =>
      refine ⟨_, hexec.trans (if_neg (by rw [Bool.not_eq_true, ← Bool.not_eq_true', Bool.not_or, Bool.not_not]; exact ha)), ?_,
        fun k hk => ?_, retire_mem s core b, ?_⟩
      · exact (unreserve_block _ _ _).trans hself
      · exact (unreserve_block _ _ _).trans (hother k hk)
      · rw [hcharge ((s.retire core b).unreserve b.gang) _ rfl]
        simp only [charge, hf, ha, if_true]
        rfl

/-! ### Completion of launches (R28, R33, R375) -/

/-- A launch that has ended without failing, and the trace record of its packet. -/
def State.finishLaunch (s : State) (slot : Nat) (l : Launch) : State := (s.endLaunch slot l.id).tracePacket slot l.claim true 0
section
variable (s : State) (slot : Nat) (l : Launch)
theorem endLaunch_slot : (s.endLaunch slot l.id).slot slot
    = { s.slot slot with launches := (s.slot slot).launches.filter fun m => m.id != l.id } :=
  State.modSlot_slot_self s slot fun q => { q with launches := q.launches.filter fun m => m.id != l.id }
theorem finishLaunch_launches : ((s.finishLaunch slot l).slot slot).launches = (s.slot slot).launches.filter fun m => m.id != l.id := by
  rw [State.finishLaunch, tracePacket_eq, traceRec_slot, endLaunch_slot]
theorem finishLaunch_mem : (s.finishLaunch slot l).mem = s.mem := by rw [State.finishLaunch, tracePacket_eq, traceRec_mem]; rfl
theorem finishLaunch_block (k : Nat) : (s.finishLaunch slot l).block k = s.block k := by
  rw [State.finishLaunch, tracePacket_eq, traceRec_block]; rfl
end
theorem memoryStep_wordRaised (s : State) (q : QueueSlot) (l : Launch) : MemoryStep s (s.wordRaised q l) := by
  unfold State.wordRaised
  split
  · exact memoryStep_publish s _ _ _
  · exact .refl s
theorem mem_wordRaised (s : State) (q : QueueSlot) (l : Launch) : (s.wordRaised q l).mem = s.mem := by
  unfold State.wordRaised
  split <;> rfl

theorem bits_lt (x lo n : Nat) : bits x lo n < 2 ^ n := Nat.mod_lt _ (Nat.two_pow_pos n)
theorem took_write (m : Memory) (a : Nat) (xs : List Byte) : Took m (m.write a xs) a xs := fun x =>
  ⟨fun h => Memory.write_inside m a x xs h.1 h.2, fun h => Memory.write_outside m a x xs h⟩
/-- A completion word after a launch: its low half rises by 1 (R28). -/
theorem wordAfter_zero (x : Nat) : wordAfter 0 x % 2 ^ 64 = (bits x 0 32 + 1) % 2 ^ 32 + bits x 32 32 * 2 ^ 32 := by
  have := bits_lt x 32 32
  unfold wordAfter
  omega
/-- An agent that has reached an address does not find the link down (R382). -/
theorem linked_of_open {s : State} {no pa : Nat} (h : s.openAt no pa) : (isHost pa && !s.linkUp) = false := by
  cases hh : isHost pa with
  | false => rfl
  | true => rw [h.1 hh]; rfl
theorem mem_setDw {s : State} {pa : Nat} (x : Nat) (h : (isHost pa && !s.linkUp) = false) :
    (s.setDw pa x).mem = s.mem.write pa (bytesOf 8 x) := by
  rw [State.setDw, State.mem_writeLoc]
  exact if_neg (by rw [show s.drops (.pa pa) = _ from h]; exact Bool.false_ne_true)
/-- One step of an engine on a word that it reaches (R217, R218, R371). -/
theorem wordStep_ok {s s1 : State} {engine asid va pa : Nat} {f : Nat → Nat} {onlyP : Bool}
    (hx : s.engineXlat engine asid (va % 2 ^ 57) true = (.ok pa, s1)) (hopen : s1.openAt s1.seqNo pa) (hfill : s1.mayFill pa 8 = true)
    (hpoison : s1.poisonedAt (.pa pa) 8 = false) :
    s.wordStep engine asid va f true onlyP = .ok ((s1.l2Fill pa 8).setDw pa (f (s1.dw pa) % 2 ^ 64)) := by
  unfold State.wordStep
  simp only [hx, linked_of_open hopen, hopen.2, hfill, hpoison, Bool.not_true, Bool.and_false, Bool.or_false, Bool.false_eq_true, if_false,
    if_true]

section
variable {s : State} {slot i : Nat} {l : Launch} (hdue : l.due = true)
  (hfirst : ∀ j m, j < i → (s.slot slot).launches[j]? = some m → m.due = false) (hfree : (s.slot slot).actionHeld = false)
  (hlate : l.endAt ≠ some s.clock) (horder : ∀ x ∈ s.slots, ∀ y ∈ x.2.launches, y.due = true → y.endAt = l.endAt → l.id ≤ y.id)
  (hl : (s.slot slot).launches[i]? = some l)
include hdue hfirst hfree hlate horder
/-- Nothing holds back the completion of the first launch that is due. -/
theorem completes_now : (!l.due || (s.slot slot).actionHeld || ((s.slot slot).launches.take i).any Launch.due || l.endAt == some s.clock
    || s.completesBefore l) = false := by
  have htake : ((s.slot slot).launches.take i).any Launch.due = false := by
    rw [List.any_eq_false]
    intro m hm
    obtain ⟨j, hj, hget⟩ := List.mem_take_iff_getElem.mp hm
    rw [hfirst j m (by omega) (List.getElem?_eq_some_iff.mpr ⟨by omega, hget⟩)]
    exact Bool.false_ne_true
  have hbefore : s.completesBefore l = false := by
    unfold State.completesBefore
    rw [List.any_eq_false]
    intro x hx hany
    obtain ⟨y, hy, h⟩ := List.any_eq_true.mp hany
    simp only [Bool.and_eq_true, decide_eq_true_eq, beq_iff_eq] at h
    have := horder x hx y hy h.1.1 h.2
    omega
  rw [hdue, hfree, htake, hbefore, beq_eq_false_iff_ne.mpr hlate]
  rfl
include hl
theorem launchComplete_plain (hfail : l.fail = none) (hkind : lpDkind l.pkt = 0) :
    exec (.launchComplete slot i) s = .next (s.finishLaunch slot l) := by
  have hturn : lpTurn l.pkt = none := by simp only [lpTurn, hkind]; rfl
  show execLaunchComplete slot i s = _
  unfold execLaunchComplete
  simp only [hl, completes_now hdue hfirst hfree hlate horder, hfail, hkind, hturn, Bool.false_eq_true, if_false]
  rfl
theorem launchComplete_word {s1 : State} (hfail : l.fail = none) (hkind : lpDkind l.pkt = 1)
    (hword : s.wordStep (s.slot slot).engine (s.slot slot).asid (lpDaddr l.pkt) (wordAfter 0) true true = .ok s1) :
    exec (.launchComplete slot i) s = .next ((s1.wordRaised (s.slot slot) l).finishLaunch slot l) := by
  show execLaunchComplete slot i s = _
  unfold execLaunchComplete
  simp only [hl, completes_now hdue hfirst hfree hlate horder, hfail, hkind, hword, Bool.false_eq_true, if_false, if_true]
  rfl
theorem launchComplete_turnstile {k : Nat} (hfail : l.fail = none) (hkind : lpDkind l.pkt = 2)
    (hnamed : s.named (slot / 32) (bits (pdw l.pkt 7) 3 9) = some (.on k)) :
    exec (.launchComplete slot i) s = .next ((s.modBlock k fun b => b.arrive (bits (pdw l.pkt 7) 12 4)).finishLaunch slot l) := by
  have hturn : lpTurn l.pkt = some (bits (pdw l.pkt 7) 3 9, bits (pdw l.pkt 7) 12 4) := by simp only [lpTurn, hkind]; rfl
  show execLaunchComplete slot i s = _
  unfold execLaunchComplete
  simp only [hl, completes_now hdue hfirst hfree hlate horder, hfail, hkind, hturn, State.arriveNamed, hnamed, Option.map_some,
    Bool.false_eq_true, if_false]
  rfl
theorem launchComplete_fails {code addr : Nat} (hfail : l.fail = some (code, addr)) :
    exec (.launchComplete slot i) s = .next (s.launchFails slot l code addr) := by
  show execLaunchComplete slot i s = _
  unfold execLaunchComplete
  simp only [hl, completes_now hdue hfirst hfree hlate horder, hfail, Bool.false_eq_true, if_false]
end
/-- What the completion word of a launch leaves (R28): its bytes alone, and no queue. -/
theorem wordRaised_took {s s1 : State} {slot pa : Nat} {l : Launch}
    (hx : s.engineXlat (s.slot slot).engine (s.slot slot).asid (lpDaddr l.pkt % 2 ^ 57) true = (.ok pa, s1)) (hopen : s1.openAt s1.seqNo pa) :
    let u := ((s1.l2Fill pa 8).setDw pa (wordAfter 0 (s1.dw pa) % 2 ^ 64)).wordRaised (s.slot slot) l
    u.slot slot = s.slot slot ∧ Took s1.mem u.mem pa (bytesOf 8 ((bits (s1.dw pa) 0 32 + 1) % 2 ^ 32 + bits (s1.dw pa) 32 32 * 2 ^ 32)) := by
  have hfill := memoryStep_l2Fill s1 pa 8
  constructor
  · exact ((((memoryStep_of_engineXlat hx).trans hfill).trans (memoryStep_writePa _ _ _)).trans (memoryStep_wordRaised _ _ _)).slot slot
  · rw [mem_wordRaised, mem_setDw _ (by rw [hfill.linkUp]; exact linked_of_open hopen), State.mem_l2Fill, wordAfter_zero]
    exact took_write _ _ _

end Sys2Proof.Machine
end

section
namespace Sys2Proof.Machine

/-! ### A launch that fails (R28, R375) -/

theorem launchFails_stops (s : State) (slot : Nat) (l : Launch) {code : Nat} (addr : Nat) (hc : code < 256) :
    let t := s.launchFails slot l code addr
    (t.slot slot).launches = (s.slot slot).launches.filter (fun m => m.id != l.id) ∧ (t.slot slot).stopped = true
      ∧ Posted s t (slot / 32) 3 code := by
  obtain ⟨hslot, hposted⟩ := failEntry_stops (s.endLaunch slot l.id) slot l.claim 7 code addr (if lpDkind l.pkt = 1 then lpDaddr l.pkt else 0)
    (lpTurn l.pkt) (decide (0 < l.next)) false 0 hc
  refine ⟨?_, ?_, hposted.of_faults rfl rfl⟩
  · exact (congrArg QueueSlot.launches hslot).trans (congrArg QueueSlot.launches (endLaunch_slot s slot l))
  · exact congrArg QueueSlot.stopped hslot

/-! ### Requests to stop (R59, R61, R354) -/

/-- A change of some blocks, one after another, that a second time adds nothing. -/
theorem foldl_modBlock_block {f : Block → Block} (hf : ∀ b, f (f b) = f b) (ks : List Nat) (s : State) (j : Nat) :
    (ks.foldl (fun s k => s.modBlock k f) s).block j = if ks.contains j then (s.block j).map f else s.block j := by
  induction ks generalizing s with
  | nil => rfl
  | cons k ks ih =>
    rw [List.foldl_cons, ih, List.contains_cons]
    by_cases hk : k = j
    · subst hk
      rw [State.modBlock_block_self, beq_self_eq_true, Bool.true_or, if_pos rfl, Option.map_map, show f ∘ f = f from funext hf, ite_self]
    · rw [State.modBlock_block_ne _ _ hk, beq_false_of_ne (Ne.symm hk), Bool.false_or]

/-- A block that is asked to stop at a clock (R59, R241). -/
def Block.asked (clock : Nat) (b : Block) : Block :=
  { b with request := some clock, seq := b.seq.map fun q => { q with stop := true } }
theorem asked_asked (clock : Nat) (b : Block) : (b.asked clock).asked clock = b.asked clock := by
  simp only [Block.asked, Option.map_map]
  rfl
/-- The clock of a request is the same for every block of a fused gang. -/
theorem foldl_asked {s : State} {clock : Nat} (hs : s.clock = clock) (ks : List Nat) :
    ks.foldl (fun s k => s.modBlock k (Block.asked s.clock)) s = ks.foldl (fun s k => s.modBlock k (Block.asked clock)) s := by
  induction ks generalizing s with
  | nil => rfl
  | cons k ks ih => rw [List.foldl_cons, List.foldl_cons, ih (show (s.modBlock k _).clock = clock from hs), hs]
theorem foldl_asked_mem (clock : Nat) (ks : List Nat) (s : State) :
    (ks.foldl (fun s k => s.modBlock k (Block.asked clock)) s).mem = s.mem :=
  foldl_keeps State.mem (fun s k => s.modBlock k (Block.asked clock)) (fun _ _ => rfl) ks s
theorem preemptRequest_asks {s : State} {core : Nat} {b : Block} (hb : s.block core = some b) (hreq : b.request = none)
    (hfree : s.freeSaves b.vi ≠ []) : exec (.preemptRequest core) s
      = .next ((s.together core b).foldl (fun s' k => s'.modBlock k (Block.asked s.clock)) s) := by
  rw [← foldl_asked rfl]
  show execPreemptRequest core s = _
  unfold execPreemptRequest
  simp only [hb, hreq, List.isEmpty_eq_false_iff.mpr hfree, Option.isSome_none, Bool.or_false, Bool.false_eq_true, if_false]
  rfl
theorem preemptOverdue_marks {s : State} {core c : Nat} {b : Block} (hb : s.block core = some b) (hreq : b.request = some c)
    (hnew : b.overdue = false) (hlate : 2 ^ 28 ≤ (s.clock + 2 ^ 64 - c) % 2 ^ 64) :
    ∃ t, exec (.preemptOverdue core) s = .next t ∧ t.block core = some { b with overdue := true } ∧ t.mem = s.mem := by
  have hexec : exec (.preemptOverdue core) s = .next
      ((s.modBlock core fun b => { b with overdue := true }).traceRec b.vi ringmaster 11 [b.index + 2 * 2 ^ 32]) := by
    have hlt : ¬ (s.clock + 2 ^ 64 - c) % 2 ^ 64 < Config.overdueClocks := Nat.not_lt.mpr hlate
    show execPreemptOverdue core s = _
    unfold execPreemptOverdue
    simp only [hb, hreq, hnew, decide_eq_false hlt, Bool.or_false, Bool.false_eq_true, if_false]
  refine ⟨_, hexec, ?_, ?_⟩
  · rw [traceRec_block, State.modBlock_block_self, hb]; rfl
  · rw [traceRec_mem]; rfl

/-! ### Saving blocks (R60, R61, R329) -/

/-- The bytes of a scratchpad that go to a save slot, with their poison (R60). -/
def State.saveArea (b : Block) (s : State) (at_ off n : Nat) : State :=
  (b.sp.poison.filter fun u => decide (off ≤ 8 * u ∧ 8 * u < off + n)).foldl (fun s u => s.poisonAt (.pa (at_ + (8 * u - off))) 8)
    (s.writeFor b.vi (.pa at_) (b.sp.read off n))
theorem memoryStep_saveArea (b : Block) (s : State) (at_ off n : Nat) : MemoryStep s (s.saveArea b at_ off n) :=
  (memoryStep_writeFor s _ _ _).trans (.foldl (fun _ _ => memoryStep_poisonAt _ _ _) _ _)
/-- A save slot takes the record, the two areas of the scratchpad, and the rest: memory alone changes. -/
theorem memoryStep_writeSave (s : State) (base k : Nat) (b : Block) (held : Nat) : MemoryStep s (s.writeSave base k b held) := by
  set s1 : State := if isHost base && !s.linkUp then s.modIface b.vi fun i => { i with lost := i.lost + 1 }
    else { s with mem := s.mem.putRec base (saveRec s k b held) } with hs1
  have record : MemoryStep s s1 := by
    rw [hs1]
    split
    · exact memoryStep_lost s _
    · exact .of_ifaces rfl rfl
  obtain ⟨at1, at2, off2, at3, bytes, n, heq⟩ : ∃ at1 at2 off2 at3 bytes n, s.writeSave base k b held =
      { ((s1.saveArea b at1 0 b.area).saveArea b at2 off2 b.reserved).writeFor b.vi (.pa at3) bytes with freeIx := n } :=
    ⟨_, _, _, _, _, _, rfl⟩
  rw [heq]
  exact (((record.trans (memoryStep_saveArea _ _ _ _ _)).trans (memoryStep_saveArea _ _ _ _ _)).trans (memoryStep_writeFor _ _ _ _)).trans
    (.of_ifaces rfl rfl)

/-- A block as it stands in its save slot (R60, R329). -/
def Block.kept (b : Block) (held : Nat) : Block := { b with heldClocks := held, request := none, testReq := false, overdue := false }
/-- A block has left its core and is saved, with the stores of its core that are not acknowledged (R60). -/
def LeftCore (s t : State) (vi : Nat) (x : Nat × Block) : Prop :=
  t.block x.1 = none ∧ ∃ y ∈ t.saved, y.core = x.1 ∧ y.vi = vi ∧ y.path = (s.core x.1).path ∧ y.block = x.2.kept (s.heldBy x.2)
/-- What save slot i of its interface keeps of a block (R60, R329). -/
def State.savedAs (s : State) (i : Nat) (x : Nat × Block) : Saved :=
  { vi := x.2.vi, slotIx := i, block := x.2.kept (s.heldBy x.2), core := x.1, path := (s.core x.1).path }
/-- A block is saved in save slot i of its interface. -/
def State.saveInto (s : State) (i : Nat) (x : Nat × Block) : State :=
  ((s.writeSave (s.saveSlot x.2.vi i) x.1 x.2 (s.heldBy x.2)).traceRec x.2.vi ringmaster 11 [x.2.index]).takeOff x.1 i x.2
/-- A save slot lies in memory from its first byte to its last. -/
def State.slotOk (s : State) (vi i : Nat) : Bool := paOk (s.saveSlot vi i) && paOk (s.saveSlot vi i + 2 ^ 22 - 1)
/-- One step of the saving of some blocks: the next goes into the lowest free slot (R329). -/
def saveOne (r : Option Res) (x : Nat × Block) : Option Res :=
  match r with
  | some (.next s) => match s.freeSaves x.2.vi with
    | [] => none
    | i :: _ =>
      if !s.slotOk x.2.vi i then some (.fault .noSuchAddress)
      else some (.next (s.saveInto i x))
  | r => r
theorem saveAll_eq (s : State) (cores : List Nat) : s.saveAll cores =
    let bs := cores.filterMap fun k => (s.block k).map fun b => (k, b)
    if bs.all fun x => x.2.atSafePoint then bs.foldl saveOne (some (.next s)) else none := rfl
/-- The save slots of an interface, free or not, are where they were. -/
def SlotsKept (s t : State) : Prop := ∀ j, (t.iface j).saveslots = (s.iface j).saveslots ∧ ∀ i, t.saveSlot j i = s.saveSlot j i

theorem SlotsKept.slotOk {s t : State} (h : SlotsKept s t) (j i : Nat) : t.slotOk j i = s.slotOk j i := by
  unfold State.slotOk
  rw [(h j).2 i]
theorem takeOff_core (s : State) (k slotIx : Nat) (b : Block) (j : Nat) : (s.takeOff k slotIx b).core j
    = (s.modCore k fun c => { c with block := none, path := [], walks := [] }).core j := rfl

section
variable (s : State) (i : Nat) (x : Nat × Block)
/-- Before the block leaves its core only memory and the trace have changed. -/
theorem saveInto_eq : ∃ u, MemoryStep s u ∧ ∃ tr, s.saveInto i x = ({ u with trace := tr } : State).takeOff x.1 i x.2 :=
  ⟨_, memoryStep_writeSave s (s.saveSlot x.2.vi i) x.1 x.2 (s.heldBy x.2), _,
    congrArg (State.takeOff · x.1 i x.2) (traceRec_eq _ _ _ _ _)⟩
theorem saveInto_clock : (s.saveInto i x).clock = s.clock := by
  obtain ⟨u, hu, tr, heq⟩ := saveInto_eq s i x
  rw [heq]; exact hu.clock
theorem saveInto_block : (s.saveInto i x).block x.1 = none := by
  obtain ⟨u, hu, tr, heq⟩ := saveInto_eq s i x
  rw [heq, State.block, takeOff_core, State.modCore_core_self]
theorem saveInto_core_ne {k : Nat} (hk : k ≠ x.1) : (s.saveInto i x).core k = s.core k := by
  obtain ⟨u, hu, tr, heq⟩ := saveInto_eq s i x
  rw [heq, takeOff_core, State.modCore_core_ne _ _ hk.symm]
  exact hu.core k
theorem saveInto_saved : (s.saveInto i x).saved = s.saved ++ [s.savedAs i x] := by
  obtain ⟨u, hu, tr, heq⟩ := saveInto_eq s i x
  rw [heq, State.savedAs, ← hu.saved, ← hu.core x.1, State.heldBy, ← hu.clock]
  rfl
theorem slotsKept_saveInto : SlotsKept s (s.saveInto i x) := by
  obtain ⟨u, hu, tr, heq⟩ := saveInto_eq s i x
  rw [heq]
  intro j
  refine ⟨hu.saveslots j, fun i => ?_⟩
  unfold State.saveSlot Iface.saveArea
  rw [← hu.savebase j, ← hu.image]
  rfl
theorem saveInto_heldBy (b : Block) : (s.saveInto i x).heldBy b = s.heldBy b := by unfold State.heldBy; rw [saveInto_clock]
theorem leftCore_saveInto : LeftCore s (s.saveInto i x) x.2.vi x :=
  ⟨saveInto_block s i x, s.savedAs i x, by rw [saveInto_saved]; exact List.mem_append_right _ (List.mem_singleton_self _), rfl, rfl, rfl, rfl⟩
/-- The slot of a block that is saved is free no more, and the others are as they were. -/
theorem saveInto_freeSaves {is : List Nat} (hfree : s.freeSaves x.2.vi = i :: is) : (s.saveInto i x).freeSaves x.2.vi = is := by
  have hnodup : (i :: is).Nodup := hfree ▸ (nodup_upto _ _).filter _
  have hkeep : ∀ j ∈ is, (j != i) = true := fun j hj => bne_iff_ne.mpr fun h => (List.nodup_cons.mp hnodup).1 (h ▸ hj)
  have hfilter : (s.saveInto i x).freeSaves x.2.vi = (s.freeSaves x.2.vi).filter fun j => j != i := by
    unfold State.freeSaves
    rw [(slotsKept_saveInto s i x x.2.vi).1, saveInto_saved, List.filter_filter]
    refine List.filter_congr fun j _ => ?_
    rw [List.any_append, Bool.not_or, Bool.and_comm]
    simp [State.savedAs, bne, Bool.beq_comm]
  rw [hfilter, hfree, List.filter_cons_of_neg (by simp), List.filter_eq_self.mpr hkeep]
end

theorem block_of_core {s t : State} {k : Nat} (h : t.core k = s.core k) : t.block k = s.block k := by rw [State.block, h, State.block]
theorem saveOne_next {s : State} {i : Nat} {is : List Nat} {x : Nat × Block} (hfree : s.freeSaves x.2.vi = i :: is)
    (hok : s.slotOk x.2.vi i = true) : saveOne (some (.next s)) x = some (.next (s.saveInto i x)) := by
  simp only [saveOne, hfree, hok, Bool.not_true, Bool.false_eq_true, if_false]
/-- Blocks at a safe point, no more than there are free slots, all leave their cores (R60, R329). -/
theorem saveOne_all {vi : Nat} (bs : List (Nat × Block)) (s : State) (hkeys : (bs.map Prod.fst).Nodup) (hvi : ∀ x ∈ bs, x.2.vi = vi)
    (hroom : bs.length ≤ (s.freeSaves vi).length)
    (hok : ∀ i, i < (s.iface vi).saveslots → s.slotOk vi i = true) :
    ∃ t, bs.foldl saveOne (some (.next s)) = some (.next t) ∧ (∀ k, k ∉ bs.map Prod.fst → t.core k = s.core k)
      ∧ (∀ y ∈ s.saved, y ∈ t.saved) ∧ ∀ x ∈ bs, LeftCore s t vi x := by
  induction bs generalizing s with
  | nil => exact ⟨s, rfl, fun _ _ => rfl, fun _ h => h, fun _ h => absurd h List.not_mem_nil⟩
  | cons x bs ih =>
    obtain rfl := hvi x List.mem_cons_self
    rw [List.map_cons, List.nodup_cons] at hkeys
    obtain ⟨i, is, hfree⟩ : ∃ i is, s.freeSaves x.2.vi = i :: is :=
      List.exists_cons_of_length_pos (Nat.lt_of_lt_of_le (Nat.succ_pos _) hroom)
    have hi : i < (s.iface x.2.vi).saveslots := by
      have : i ∈ s.freeSaves x.2.vi := hfree ▸ List.mem_cons_self
      have := mem_upto_iff.mp (List.mem_filter.mp this).1
      omega
    have hone : saveOne (some (.next s)) x = some (.next (s.saveInto i x)) := saveOne_next hfree (hok i hi)
    have hslots := slotsKept_saveInto s i x
    obtain ⟨t, ht, hcores, hsaved, hleft⟩ := ih (s.saveInto i x) hkeys.2 (fun y hy => hvi y (List.mem_cons_of_mem _ hy))
      (by rw [saveInto_freeSaves s i x hfree]; rw [hfree] at hroom; exact Nat.le_of_succ_le_succ hroom)
      (fun j hj => (hslots.slotOk _ j).trans (hok j ((hslots _).1 ▸ hj)))
    refine ⟨t, by rw [List.foldl_cons, hone, ht], fun k hk => ?_, fun y hy => ?_, fun y hy => ?_⟩
    · rw [List.map_cons, List.mem_cons, not_or] at hk
      rw [hcores k hk.2, saveInto_core_ne s i x hk.1]
    · exact hsaved y (by rw [saveInto_saved]; exact List.mem_append_left _ hy)
    · rcases List.mem_cons.mp hy with rfl | hy
      · obtain ⟨hnone, z, hz, hkept⟩ := leftCore_saveInto s i y
        exact ⟨(block_of_core (hcores _ hkeys.1)).trans hnone, z, hsaved z hz, hkept⟩
      · obtain ⟨hnone, z, hz, hcore, hzvi, hpath, hblock⟩ := hleft y hy
        have hne : y.1 ≠ x.1 := fun h => hkeys.1 (h ▸ List.mem_map_of_mem hy)
        rw [saveInto_core_ne s i x hne] at hpath
        rw [saveInto_heldBy] at hblock
        exact ⟨hnone, z, hz, hcore, hzvi, hpath, hblock⟩

/-- The cores of some blocks, each of which stands on its own. -/
theorem blocksOf_keys {s : State} {ks : List Nat} (h : ∀ k ∈ ks, ∃ o, s.block k = some o) :
    (ks.filterMap fun k => (s.block k).map fun b => (k, b)).map Prod.fst = ks := by
  induction ks with
  | nil => rfl
  | cons k ks ih =>
    obtain ⟨o, ho⟩ := h k List.mem_cons_self
    rw [List.filterMap_cons_some (b := (k, o)) (by rw [ho]; rfl), List.map_cons, ih fun j hj => h j (List.mem_cons_of_mem _ hj)]
theorem mem_blocksOf {s : State} {ks : List Nat} {x : Nat × Block} (h : x ∈ ks.filterMap fun k => (s.block k).map fun b => (k, b)) :
    x.1 ∈ ks ∧ s.block x.1 = some x.2 := by
  obtain ⟨k, hk, hx⟩ := List.mem_filterMap.mp h
  obtain ⟨b, hb, rfl⟩ := Option.map_eq_some_iff.mp hx
  exact ⟨hk, hb⟩

theorem blockSave_saves {s : State} {core : Nat} {b : Block} (hb : s.block core = some b) (hreq : b.request.isSome = true)
    (hks : (s.together core b).Nodup) (hsafe : ∀ k ∈ s.together core b, ∃ o, s.block k = some o ∧ o.vi = b.vi ∧ o.atSafePoint = true)
    (hroom : (s.together core b).length ≤ (s.freeSaves b.vi).length)
    (hok : ∀ i, i < (s.iface b.vi).saveslots → paOk (s.saveSlot b.vi i) = true ∧ paOk (s.saveSlot b.vi i + 2 ^ 22 - 1) = true) :
    ∃ t, exec (.blockSave core) s = .next t ∧ ∀ k ∈ s.together core b, ∀ o, s.block k = some o → LeftCore s t b.vi (k, o) := by
  set bs := (s.together core b).filterMap fun k => (s.block k).map fun b => (k, b) with hbs
  have hkeys : bs.map Prod.fst = s.together core b := blocksOf_keys fun k hk => (hsafe k hk).imp fun _ h => h.1
  have hall : ∀ x ∈ bs, x.2.vi = b.vi ∧ x.2.atSafePoint = true := by
    intro x hx
    obtain ⟨hk, hx⟩ := mem_blocksOf hx
    obtain ⟨o, ho, h⟩ := hsafe _ hk
    obtain rfl := Option.some.inj (ho.symm.trans hx)
    exact h
  obtain ⟨t, ht, -, -, hleft⟩ := saveOne_all bs s (hkeys ▸ hks) (fun x hx => (hall x hx).1)
    (by rwa [← List.length_map Prod.fst, hkeys]) fun i hi => Bool.and_eq_true_iff.mpr (hok i hi)
  have hsave : s.saveAll (s.together core b) = some (.next t) := by
    rw [saveAll_eq]
    exact (if_pos (List.all_eq_true.mpr fun x hx => (hall x hx).2)).trans ht
  have hexec : exec (.blockSave core) s = .next (if b.fused then t.unreserve b.gang else t) := by
    show execBlockSave core s = _
    unfold execBlockSave
    simp only [hb, hsave, freeGang, Option.isNone_eq_false_iff.mpr hreq, Bool.false_eq_true, if_false]
  refine ⟨_, hexec, fun k hk o ho => ?_⟩
  obtain ⟨hnone, hkept⟩ := hleft (k, o) (List.mem_filterMap.mpr ⟨k, hk, by rw [ho]; rfl⟩)
  split
  · exact ⟨(unreserve_block _ _ _).trans hnone, hkept⟩
  · exact ⟨hnone, hkept⟩

end Sys2Proof.Machine
end

section
namespace Sys2Proof.Machine

/-! ### Resuming blocks (R60, R61) -/

/-- A saved block goes on, on core k, from a clock: every presence bit reads 1, its fragments are out of `safept`, and its stores drain there
(R60, R61). -/
def GoesOn (t : State) (clock : Nat) (y : Saved) (k : Nat) : Prop :=
  ∃ b : Block, t.block k = some b ∧ b.index = y.block.index ∧ b.name = y.block.name ∧ b.sp = { y.block.sp with absent := [] }
    ∧ b.since = clock ∧ b.ts = y.block.ts ∧ b.cr = y.block.cr ∧ b.teams = y.block.teams.map (fun (z : Nat × Team) => (z.1, z.2.resumed k))
    ∧ (t.core k).path = y.path.map (StReq.moveTo k)
/-- The entries that stay saved when one goes on (R329). -/
def othersSaved (x : Saved) (l : List Saved) : List Saved := l.filter fun y => !(y.vi == x.vi && y.slotIx == x.slotIx)
/-- A state in which a saved block's save slot is free again (R329). -/
def State.unsaved (s : State) (x : Saved) : State := { s with saved := othersSaved x s.saved }
theorem unsaved_clock (s : State) (x : Saved) : (s.unsaved x).clock = s.clock := rfl
theorem unsaved_saved (s : State) (x : Saved) : (s.unsaved x).saved = othersSaved x s.saved := rfl
theorem unsaved_core (s : State) (x : Saved) (k : Nat) : (s.unsaved x).core k = s.core k := rfl
/-- A block stands on a core again with its stores that are not acknowledged. -/
def State.putBack (s : State) (x : Saved) (k : Nat) : State :=
  (s.putBlock k (x.block.resumeOn k s.clock)).modCore k fun c => { c with path := x.path.map (StReq.moveTo k) }
theorem putBack_clock (s : State) (x : Saved) (k : Nat) : (s.putBack x k).clock = s.clock := rfl
theorem putBack_saved (s : State) (x : Saved) (k : Nat) : (s.putBack x k).saved = s.saved := rfl
theorem putBack_core_self (s : State) (x : Saved) (k : Nat) : (s.putBack x k).core k
    = { s.core k with block := some (x.block.resumeOn k s.clock), l1 := [], walks := [], path := x.path.map (StReq.moveTo k) } := by
  rw [State.putBack, State.modCore_core_self, putBlock_core, State.modCore_core_self]
theorem putBack_core_ne (s : State) (x : Saved) {k j : Nat} (h : k ≠ j) : (s.putBack x k).core j = s.core j := by
  rw [State.putBack, State.modCore_core_ne _ _ h, putBlock_core_ne _ _ h]

section
variable (s : State) (x : Saved) (k : Nat)
/-- Before a block stands on its core only its save slot in memory, and the list of what is saved, have changed. -/
theorem resumeAt_eq : ∃ u, MemoryStep s u ∧
    s.resumeAt x k = ((u.unsaved x).putBack x k).traceRec x.vi ringmaster 11 [x.block.index + 2 ^ 32] :=
  ⟨_, memoryStep_writeFor s x.vi (s.saveSlot x.vi x.slotIx + 8) (bytesOf 8 0), rfl⟩
theorem resumeAt_saved : (s.resumeAt x k).saved = othersSaved x s.saved := by
  obtain ⟨u, hu, heq⟩ := resumeAt_eq s x k
  rw [heq, traceRec_saved, putBack_saved, unsaved_saved, hu.saved]
theorem resumeAt_clock : (s.resumeAt x k).clock = s.clock := by
  obtain ⟨u, hu, heq⟩ := resumeAt_eq s x k
  rw [heq, traceRec_clock, putBack_clock, unsaved_clock, hu.clock]
theorem resumeAt_core_self : (s.resumeAt x k).block k = some (x.block.resumeOn k s.clock)
    ∧ ((s.resumeAt x k).core k).path = x.path.map (StReq.moveTo k) := by
  obtain ⟨u, hu, heq⟩ := resumeAt_eq s x k
  rw [State.block, heq, traceRec_core, putBack_core_self, unsaved_clock, hu.clock]
  exact ⟨rfl, rfl⟩
theorem resumeAt_core_ne {j : Nat} (hj : k ≠ j) : (s.resumeAt x k).core j = s.core j := by
  obtain ⟨u, hu, heq⟩ := resumeAt_eq s x k
  rw [heq, traceRec_core, putBack_core_ne _ _ hj, unsaved_core, hu.core]
theorem goesOn_resumeAt : GoesOn (s.resumeAt x k) s.clock x k :=
  ⟨x.block.resumeOn k s.clock, (resumeAt_core_self s x k).1, rfl, rfl, rfl, rfl, rfl, rfl, rfl, (resumeAt_core_self s x k).2⟩
end
theorem GoesOn.of_core {s t : State} {clock k : Nat} {y : Saved} (h : t.core k = s.core k) (hs : GoesOn s clock y k) : GoesOn t clock y k := by
  unfold GoesOn
  rwa [block_of_core h, h]

theorem reserve_clock (s : State) (gang : Nat) (spot : List (List Nat)) : (s.reserve gang spot).clock = s.clock :=
  (congrArg (fun b => b.2.2.2) (board_reserve s gang spot) :)
theorem reserve_saved (s : State) (gang : Nat) (spot : List (List Nat)) : (s.reserve gang spot).saved = s.saved := by
  refine foldl_keeps State.saved _ (fun s ks => ?_) spot s
  exact foldl_keeps State.saved (fun s k => s.modCore k fun c => { c with fusedGang := some gang, l1 := [] }) (fun s k => rfl) _ s

/-- The core of the j-th block of a fused gang in its place (R23, R61). -/
def coreOf (spot : List (List Nat)) (c j : Nat) : Nat := nth 0 (nth [] spot (j / c)) (j % c)
/-- Two blocks of a gang do not come to one core. -/
theorem coreOf_inj {spot : List (List Nat)} {c : Nat} (hc : 0 < c) (hc4 : c ≤ 4) (hks : ∀ ks ∈ spot, ks.length = 4 ∧ ks.Nodup)
    (hd : spot.Pairwise List.Disjoint) {i j : Nat} (hi : i < c * spot.length) (hj : j < c * spot.length)
    (h : coreOf spot c i = coreOf spot c j) : i = j := by
  have hdiv : ∀ n, n < c * spot.length → n / c < spot.length := fun n hn => Nat.div_lt_of_lt_mul hn
  have hmod : ∀ n (hn : n < c * spot.length), n % c < (spot[n / c]'(hdiv n hn)).length := fun n hn => by
    rw [(hks _ (List.getElem_mem (hdiv n hn))).1]
    exact Nat.lt_of_lt_of_le (Nat.mod_lt _ hc) hc4
  have hcore : ∀ n (hn : n < c * spot.length), coreOf spot c n = (spot[n / c]'(hdiv n hn))[n % c]'(hmod n hn) := fun n hn => by
    unfold coreOf
    rw [nth_eq_getElem [] spot _ (hdiv n hn), nth_eq_getElem 0 _ _ (hmod n hn)]
  rw [hcore i hi, hcore j hj] at h
  have hcluster : i / c = j / c := by
    by_contra hne
    have hapart : List.Disjoint (spot[i / c]'(hdiv i hi)) (spot[j / c]'(hdiv j hj)) := by
      rcases Nat.lt_or_gt_of_ne hne with hlt | hgt
      · exact List.pairwise_iff_getElem.mp hd _ _ (hdiv i hi) (hdiv j hj) hlt
      · exact (List.pairwise_iff_getElem.mp hd _ _ (hdiv j hj) (hdiv i hi) hgt).symm
    exact hapart (List.getElem_mem (hmod i hi)) (h ▸ List.getElem_mem (hmod j hj))
  have hplace : i % c = j % c := by
    simp only [hcluster] at h
    exact (hks _ (List.getElem_mem (hdiv j hj))).2.getElem_inj_iff.mp h
  rw [← Nat.div_add_mod i c, hcluster, hplace, Nat.div_add_mod]

/-- The core on which a saved block of a fused gang goes on. -/
def placeOf (spot : List (List Nat)) (p : List Word) (y : Saved) : Nat := coreOf spot (lpCpb p) (y.block.index % lpGang p)
/-- A block of a fused gang goes on, on the core of its place (R61). -/
def State.resumeIn (spot : List (List Nat)) (p : List Word) (s : State) (y : Saved) : State := s.resumeAt y (placeOf spot p y)
theorem resumeIn_clock (spot : List (List Nat)) (p : List Word) (s : State) (y : Saved) : (s.resumeIn spot p y).clock = s.clock :=
  resumeAt_clock s y (placeOf spot p y)
theorem resumeIn_core_ne {spot : List (List Nat)} {p : List Word} (s : State) (y : Saved) {j : Nat} (h : placeOf spot p y ≠ j) :
    (s.resumeIn spot p y).core j = s.core j := resumeAt_core_ne s y (placeOf spot p y) h
theorem goesOn_resumeIn {spot : List (List Nat)} {p : List Word} (s : State) (y : Saved) :
    GoesOn (s.resumeIn spot p y) s.clock y (placeOf spot p y) := goesOn_resumeAt s y (placeOf spot p y)

section
variable {s : State} {vi i : Nat} {x : Saved} (hx : (s.saved.filter fun y => y.vi == vi)[i]? = some x)
include hx
theorem blockResume_alone {k : Nat} {ks : List Nat} {rest : List (List Nat)} (hf : x.block.fused = false)
    (hplace : placeIn (s.coreFree (some x.block.gang)) (s.groups vi x.block.packet) 1 1 = some ((k :: ks) :: rest)) :
    exec (.blockResume vi i) s = .next (s.resumeAt x k) := by
  show execBlockResume vi i s = _
  unfold execBlockResume
  simp only [hx, hf, hplace, Bool.not_false, if_true]
/-- Each block of a saved gang goes on, on the core of its place (R61). -/
theorem blockResume_gang {spot : List (List Nat)} (hf : x.block.fused = true)
    (hplace : placeIn (s.coreFree (some x.block.gang)) (s.groups vi x.block.packet) 4 (lpClusters x.block.packet) = some spot) :
    exec (.blockResume vi i) s = .next ((s.saved.filter fun y => y.block.gang == x.block.gang).foldl (State.resumeIn spot x.block.packet)
      (s.reserve x.block.gang spot)) := by
  show execBlockResume vi i s = _
  unfold execBlockResume
  simp only [hx, hf, hplace, reserve_saved, Bool.not_true, Bool.false_eq_true, if_false]
  rfl
end
theorem lpCpb_pos (p : List Word) : 0 < lpCpb p := Nat.two_pow_pos _
theorem lpGang_pos (p : List Word) : 0 < lpGang p :=
  Nat.mul_pos (lpCpb_pos p) (Nat.lt_of_lt_of_le Nat.one_pos (Nat.le_max_left _ _))

/-- A gang's blocks, no two of one place, all go on where its fold puts them. -/
theorem resumeAt_all {spot : List (List Nat)} {p : List Word} {ok : Nat → Bool} {groups : Nat} (hc4 : lpCpb p ≤ 4)
    (hplace : placeIn ok groups 4 (lpClusters p) = some spot) (ys : List Saved)
    (hys : (ys.map fun y => y.block.index % lpGang p).Nodup) {s : State} {clock : Nat} (hs : s.clock = clock) :
    ∀ y ∈ ys, GoesOn (ys.foldl (State.resumeIn spot p) s) clock y (placeOf spot p y) := by
  obtain ⟨hlen, hks, hd⟩ := placeIn_some hplace
  have hlt : ∀ y : Saved, y.block.index % lpGang p < lpCpb p * spot.length := fun y => by
    rw [hlen]; exact Nat.mod_lt _ (lpGang_pos p)
  refine foldl_each (State.resumeIn spot p) (fun y => y.block.index % lpGang p) (fun s => s.clock = clock)
    (fun y t => GoesOn t clock y (placeOf spot p y)) (fun s y h => by rw [resumeIn_clock, h])
    (fun s y h => by rw [← h]; exact goesOn_resumeIn s y) (fun s y z hne h => ?_) ys hys s hs
  refine h.of_core (resumeIn_core_ne s z fun heq => hne ?_)
  exact (coreOf_inj (lpCpb_pos p) hc4 hks hd (hlt z) (hlt y) heq).symm

end Sys2Proof.Machine

open Sys2Proof Sys2Proof.Machine

/-- Settles O42: each clause is the equation of its instruction on the states that its hypotheses describe, and what the state then holds.
The blocks of a fused gang are saved and resumed by induction along the fold over them. -/
theorem blocksLeave : Obligations.BlocksLeave := by
  unfold Obligations.BlocksLeave
  refine ⟨⟨fun s core b hb hmay hat => blockRetire_leaves hb hmay hat, ?_⟩, ?_, ?_, ?_,
    fun s core c b hb hreq hnew hlate => preemptOverdue_marks hb hreq hnew hlate⟩
  · intro s slot i l hl hdue hfirst hfree hlate horder
    refine ⟨fun hfail hkind => ?_, fun pa s1 hfail hkind hxlat hopen hfill hpoison => ?_, fun k b hfail hkind hnamed hb => ?_,
      fun code addr hfail hcode => ?_⟩
    · exact ⟨_, ⟨launchComplete_plain hdue hfirst hfree hlate horder hl hfail hkind, finishLaunch_launches s slot l⟩, finishLaunch_mem s slot l⟩
    · obtain ⟨hslot, htook⟩ := wordRaised_took (l := l) hxlat hopen
      refine ⟨_, ⟨launchComplete_word hdue hfirst hfree hlate horder hl hfail hkind (wordStep_ok hxlat hopen hfill hpoison), ?_⟩, ?_⟩
      · rw [finishLaunch_launches, hslot]
      · rw [finishLaunch_mem]; exact htook
    · refine ⟨_, ⟨launchComplete_turnstile hdue hfirst hfree hlate horder hl hfail hkind hnamed, finishLaunch_launches _ slot l⟩, ?_⟩
      rw [finishLaunch_block, State.modBlock_block_self, hb]
      rfl
    · obtain ⟨hlaunches, hstopped, hposted⟩ := launchFails_stops s slot l addr hcode
      exact ⟨_, ⟨launchComplete_fails hdue hfirst hfree hlate horder hl hfail, hlaunches⟩, hstopped, hposted⟩
  · intro s core b hb hreq hfree
    exact ⟨_, preemptRequest_asks hb hreq hfree, foldl_asked_mem s.clock _ s, foldl_modBlock_block (asked_asked s.clock) _ s⟩
  · intro s core b hb hreq ks hks hsafe hroom hok
    obtain ⟨t, ht, hleft⟩ := blockSave_saves hb hreq hks hsafe hroom hok
    refine ⟨t, ht, fun k hk => ?_⟩
    obtain ⟨o, ho, -⟩ := hsafe k hk
    obtain ⟨hnone, y, hy, hcore, hvi, hpath, hblock⟩ := hleft k hk o ho
    exact ⟨hnone, y, hy, hcore, hvi, hpath, by rw [ho, hblock]; rfl⟩
  · intro s vi i x hx back
    refine ⟨fun k ks rest hf hplace => ?_, fun spot hf hc4 hplace hindices => ?_⟩
    · exact ⟨_, blockResume_alone hx hf hplace, goesOn_resumeAt s x k, resumeAt_saved s x k⟩
    · refine ⟨_, blockResume_gang hx hf hplace, fun y hy hgang => ⟨placeOf spot x.block.packet y, ?_⟩⟩
      exact resumeAt_all hc4 hplace _ hindices (reserve_clock s x.block.gang spot) y (List.mem_filter.mpr ⟨hy, beq_iff_eq.mpr hgang⟩)
end

section
namespace Sys2Proof.Machine

/-! ### Turns: what a fetch reads and what a turn runs (R48, R88, R133, R224) -/

theorem fetchDw_of_wordAt {s : State} {k asid va : Nat} {tm : Team} {w : Word} (h : s.wordAt k tm asid va w) :
    s.fetchDw k (s.teamTlb k tm) tm.lifted asid va = .word w := by
  obtain ⟨e, he, hw⟩ := h
  unfold State.fetchDw
  simp only [he]
  by_cases hl : tm.lifted = true
  · rw [if_pos hl] at hw
    obtain ⟨hrow, hfill, hpoison, rfl⟩ := hw
    simp only [hl, if_true, hrow, hfill, hpoison, Bool.not_true, Bool.or_self, Bool.false_eq_true, if_false]
    rfl
  · rw [if_neg hl] at hw
    obtain ⟨xs, hxs, rfl⟩ := hw
    simp only [hl, Bool.false_eq_true, if_false, hxs]
    rfl

theorem fetchTeam_of_wordAt {s : State} {k asid va : Nat} {tm : Team} {w w2 : Word} (h : s.wordAt k tm asid va w)
    (h2 : wordLen w = 16 → s.wordAt k tm asid (va + 8) w2) : s.fetchTeam k (s.teamTlb k tm) tm.lifted asid va
      = .instr w (decodeTeam w (if wordLen w = 16 then w2 else 0)) := by
  unfold State.fetchTeam
  simp only [fetchDw_of_wordAt h]
  by_cases hw : wordLen w = 16
  · simp only [if_pos hw, fetchDw_of_wordAt (h2 hw)]
  · simp only [if_neg hw]

theorem fragmentTurn_runs {s : State} {k t csn : Nat} {b : Block} {tm : Team} {f : Frag} {w w2 : Word} (hb : s.block k = some b)
    (ht : s.team k t = some tm) (hf : tm.frag csn = some f) (hfree : fragBlocked b tm t f = false) (h : s.wordAt k tm b.asid f.pc w)
    (h2 : wordLen w = 16 → s.wordAt k tm b.asid (f.pc + 8) w2) :
    fragmentTurn s k t csn = exec (decodeTeam w (if wordLen w = 16 then w2 else 0)) { s with acting := .frag k t csn w } := by
  unfold fragmentTurn
  simp only [hb, ht, hf, hfree, fetchTeam_of_wordAt h h2, Bool.false_eq_true, if_false]

theorem fragmentTurn_blocked {s : State} {k t csn : Nat} {b : Block} {tm : Team} {f : Frag} (hb : s.block k = some b)
    (ht : s.team k t = some tm) (hf : tm.frag csn = some f) (hheld : fragBlocked b tm t f = true) : fragmentTurn s k t csn = .next s := by
  unfold fragmentTurn
  simp only [hb, ht, hf, hheld, if_true]

/-- What a stream word runs: the instruction that it decodes to, or the issue of a reserved word (R224, R390). -/
def streamInstr (w : Word) : Instr := match decodeStream w with
  | .ok i => i
  | .error r => .illegalWordIssue r

theorem fetchStream_of_streamWordAt {s : State} {k asid va : Nat} {w : Word} (h : s.streamWordAt k asid va w) :
    s.fetchStream k asid va = .instr w (streamInstr w) := by
  obtain ⟨e, xs, he, hxs, rfl⟩ := h
  have hword : s.fetchDw k (s.core k).tlb false asid va = .word (s.launchWord k (e.pa (va % 2 ^ 57)) xs) := by
    unfold State.fetchDw
    simp only [he, hxs, Bool.false_eq_true, if_false]
    rfl
  unfold State.fetchStream
  simp only [hword]
  rfl

theorem sequencerTurn_runs {s : State} {k : Nat} {b : Block} {q : Seq} {w : Word} (hb : s.block k = some b) (hq : b.seq = some q)
    (hhold : ∀ t car, q.hold ≠ .abandoned t car) (hfree : seqBlocked q = false) (h : s.streamWordAt k b.asid q.mpc w) :
    sequencerTurn s k = exec (streamInstr w) { s with acting := .seq k w } := by
  unfold sequencerTurn
  simp only [hb, hq]
  split
  case isTrue hlost =>
    cases hh : q.hold with
    | abandoned t car => exact absurd hh (hhold t car)
    | _ => simp at hlost
  case isFalse => simp only [hfree, fetchStream_of_streamWordAt h, Bool.false_eq_true, if_false]

theorem sequencerTurn_lost {s : State} {k t : Nat} {car : Option Nat} {b : Block} {q : Seq} (hb : s.block k = some b) (hq : b.seq = some q)
    (hhold : q.hold = .abandoned t car) (hfault : q.faulted = false) :
    sequencerTurn s k = .next (State.streamFault { s with acting := .none } k 0x18 0 0xFF) := by
  unfold sequencerTurn
  simp only [hb, hq, hhold, hfault, Bool.not_false, Bool.and_true, if_true]

/-- A step takes the next turn of the agenda. -/
theorem step_agenda {s : State} {t : Turn} {rest : List Turn} (h : s.agenda = t :: rest) : step s = runTurn { s with agenda := rest } t := by
  unfold step nextTurn
  simp only [h]

theorem tick_clock (s : State) : s.tick.clock = if s.power = .off then s.clock else (s.clock + 1) % 2 ^ 64 := by
  unfold State.tick; split <;> rfl
theorem tick_mem (s : State) : s.tick.mem = s.mem := by unfold State.tick; split <;> rfl
theorem tick_agenda (s : State) : s.tick.agenda = s.agenda := by unfold State.tick; split <;> rfl

end Sys2Proof.Machine

open Sys2Proof Sys2Proof.Machine

/-- Settles O1: a step is the turn at the head of the agenda; the fetch of a turn that nothing holds reads the word of the hypothesis. -/
theorem stepsRunDecoded : Obligations.StepsRunDecoded := by
  unfold Obligations.StepsRunDecoded
  refine ⟨?_, ?_, fun s rest => ⟨?_, ?_, ?_⟩⟩
  · intro s rest k t csn b tm f w w2 ha hb ht hf hfree h h2
    rw [step_agenda ha]
    exact fragmentTurn_runs (s := { s with agenda := rest }) hb ht hf hfree h h2
  · intro s rest k b q ha hb hq
    rw [step_agenda ha]
    refine ⟨fun hhold hfree w h => ?_, fun t car hhold hfault => ?_⟩
    · exact sequencerTurn_runs (s := { s with agenda := rest }) hb hq hhold hfree h
    · exact sequencerTurn_lost (s := { s with agenda := rest }) hb hq hhold hfault
  · intro i ha
    rw [step_agenda ha]
    rfl
  · intro ha
    exact ⟨_, step_agenda ha, tick_agenda _, tick_mem _, tick_clock _⟩
  · intro k t csn b tm f ha hb ht hf hheld
    rw [step_agenda ha]
    exact fragmentTurn_blocked (s := { s with agenda := rest }) hb ht hf hheld
end

section
namespace Sys2Proof.Machine

/-! ### Control forms of a fragment alone (R163, R164) -/

/-- Where a body sends its fragment without changing the state. -/
def Act.keeps (a : Act) (c : Ctx) (s : State) (pc : Nat) : Prop := a = .goto s pc ∨ (a = .done s ∧ pc = c.f.pc + c.len)

theorem Act.finish_keeps {a : Act} {c : Ctx} {i : Issue} {s s0 : State} {pc : Nat} (h : a.keeps c s pc) :
    c.finish i s0 a = .next (c.goOn i pc s) := by
  obtain rfl | ⟨rfl, rfl⟩ := h <;> rfl
theorem Act.keeps_ite {P : Prop} [Decidable P] {c : Ctx} {s : State} {pc : Nat} :
    (if P then Act.goto s pc else Act.done s).keeps c s (if P then pc else c.f.pc + c.len) := by
  split
  · exact .inl rfl
  · exact .inr ⟨rfl, rfl⟩

/-- A control form that acts once, and `yield`: its body, or nothing when its guard does not hold. -/
theorem ctrl_issue_yields {s : State} {c : Ctx} (h : s.issuer = some c) (hc : c.calm = true) (g : Guard) (reads writes : List RegRef)
    (body : Ctx → State → Act) (y : Bool) :
    s.issue { ctrlIssue g reads writes body with yields := y }
      = if c.acts g then c.finish { ctrlIssue g reads writes body with yields := y } s (body c s)
        else c.finish { ctrlIssue g reads writes body with yields := false } s (.done s) := by
  have hr : roleFault c { ctrlIssue g reads writes body with yields := y } = false := roleFault_any rfl rfl rfl rfl rfl
  by_cases hg : c.acts g = true
  · rw [if_pos hg, once_acts h hc hr rfl hg]; rfl
  · rw [if_neg hg, once_idle h hc hr rfl rfl (Bool.not_eq_true _ ▸ hg)]

/-- One that leaves its team as it was. -/
theorem ctrl_goes_same {s : State} {c : Ctx} {g : Guard} {reads writes : List RegRef} {body : Ctx → State → Act} {pc : Nat} {y : Bool}
    (h : s.issuer = some c) (hc : c.calm = true) (hl : c.alone = true) (hbody : (body c s).keeps c s pc) :
    Goes s c (s.issue { ctrlIssue g reads writes body with yields := y }) (if c.acts g then c.tm else c.tm)
      (if c.acts g then pc else c.f.pc + c.len) := by
  rw [ctrl_issue_yields h hc, ite_self]
  split
  · rw [Act.finish_keeps hbody]; exact goes_same h hc hl rfl rfl
  · exact goes_same h hc hl rfl rfl

/-- One that writes a scalar register. -/
theorem ctrl_goes_setS {s : State} {c : Ctx} {g : Guard} {reads writes : List RegRef} {body : Ctx → State → Act} {pc : Nat} {d : SReg}
    {x : Word} (h : s.issuer = some c) (hc : c.calm = true) (hl : c.alone = true)
    (hbody : (body c s).keeps c (s.modTeam c.k c.t fun tm => tm.setS d.toNat x) pc) :
    Goes s c (s.issue (ctrlIssue g reads writes body)) (if c.acts g then c.tm.setS d.toNat x else c.tm)
      (if c.acts g then pc else c.f.pc + c.len) := by
  rw [ctrl_issue h hc]
  split
  · rw [Act.finish_keeps hbody]
    exact goes_modTeam (f := fun tm => tm.setS d.toNat x) h hc hl rfl rfl rfl (noLift_of_pend (by simp [calm_spec hc])) rfl
  · exact goes_same h hc hl rfl rfl

end Sys2Proof.Machine

open Sys2Proof Sys2Proof.Machine

/-- Settles O8: each body goes to the address of its row of `controlResult`, and writes at most its scalar register. -/
theorem controlTransfers : Obligations.ControlTransfers := by
  unfold Obligations.ControlTransfers
  intro s c i g r pc h hc hl hres
  cases i with
  | br o =>
    cases hres
    exact ctrl_goes_same h hc hl (.inl rfl)
  | brc o =>
    cases hres
    exact ctrl_goes_same h hc hl Act.keeps_ite
  | call o =>
    cases hres
    exact ctrl_goes_setS h hc hl (.inl rfl)
  | loop o =>
    cases hres
    exact ctrl_goes_setS h hc hl Act.keeps_ite
  | ret o =>
    simp only [controlResult, Option.ite_none_right_eq_some] at hres
    obtain ⟨hok, hres⟩ := hres
    cases hres
    exact ctrl_goes_same h hc hl (.inl (if_pos hok))
  | jmp o =>
    simp only [controlResult, Option.ite_none_right_eq_some] at hres
    obtain ⟨hok, hres⟩ := hres
    cases hres
    exact ctrl_goes_same h hc hl (.inl (if_pos hok))
  | nop o =>
    cases hres
    exact ctrl_goes_same h hc hl (.inr ⟨rfl, rfl⟩)
  | yield o =>
    cases hres
    exact ctrl_goes_same h hc hl (.inr ⟨rfl, rfl⟩)
  | safept o =>
    simp only [controlResult, Option.ite_none_right_eq_some] at hres
    obtain ⟨hok, hres⟩ := hres
    cases hres
    exact ctrl_goes_same h hc hl (.inr ⟨if_pos (by rw [hok, Bool.true_or]), rfl⟩)
  | waitcnt o =>
    simp only [controlResult, Option.ite_none_right_eq_some] at hres
    obtain ⟨hok, hres⟩ := hres
    cases hres
    exact ctrl_goes_same h hc hl (.inr ⟨if_pos hok, rfl⟩)
  | _ => cases hres
end

section
namespace Sys2Proof.Machine

/-! ### What an instruction that becomes outstanding leaves (R52) -/

theorem Quiet.nextSeq (s : State) : Quiet s s.nextSeq.2 := ⟨rfl, fun _ => rfl, fun _ => rfl, fun _ _ => rfl⟩

/-- The outstanding instruction of a class with order number `seq`. -/
def Ctx.newPend (c : Ctx) (seq : Nat) (cls : Cls) (la : Nat) (dests : List RegRef) (kind : PendKind) : Pend :=
  { seq, csn := c.csn, heirs := [c.csn], cls, dests, wrote := [], kind, pc := c.f.pc, word := c.word, lane := lowLane c.f.mask
    hnd := c.tm.handler
    window := if dests.isEmpty then none
      else if la = 15 && (match cls with | .spf => false | .page => false | _ => true) then none else some (la + 1) }
/-- The team once it is outstanding and counted. -/
def Team.withPend (tm : Team) (p : Pend) : Team := { tm.addCount p.cls with pend := (tm.addCount p.cls).pend ++ [p] }

theorem Ctx.pend_eq (c : Ctx) (cls : Cls) (la : Nat) (dests : List RegRef) (kind : PendKind) (s : State) :
    c.pend cls la dests kind s = s.nextSeq.2.modTeam c.k c.t fun tm => tm.withPend (c.newPend s.seqNo cls la dests kind) := by
  cases cls <;> rfl
theorem Ctx.team_pend (c : Ctx) (cls : Cls) (la : Nat) (dests : List RegRef) (kind : PendKind) (s : State) :
    (c.pend cls la dests kind s).team c.k c.t = (s.team c.k c.t).map fun tm => tm.withPend (c.newPend s.seqNo cls la dests kind) := by
  rw [Ctx.pend_eq, State.modTeam_team_self]; rfl
theorem Ctx.frame_pend (c : Ctx) (cls : Cls) (la : Nat) (dests : List RegRef) (kind : PendKind) (s : State) :
    Frame s (c.pend cls la dests kind s) c.k c.t := by
  rw [Ctx.pend_eq]; exact ((Quiet.nextSeq s).frame _ _).trans (frame_modTeam _ _ _ _)
theorem Team.frags_withPend (tm : Team) (p : Pend) : (tm.withPend p).frags = tm.frags := by
  unfold Team.withPend; cases p.cls <;> rfl
theorem Team.sigacc_withPend (tm : Team) (p : Pend) : (tm.withPend p).sigacc = tm.sigacc := by
  unfold Team.withPend; cases p.cls <;> rfl
theorem Team.lift_withPend (tm : Team) (p : Pend) : (tm.withPend p).lift = tm.lift := by
  unfold Team.withPend; cases p.cls <;> rfl

theorem noLift_of_core {tm : Team} (h : tm.lift = .core) : tm.noLift := .inl (by simp [Team.lifted, h])
theorem vectorTeam_spec {c : Ctx} (h : c.vectorTeam = true) : c.tm.copy = false ∧ c.tm.lift = .core := by
  simpa only [Ctx.vectorTeam, Bool.and_eq_true, Bool.not_eq_true', beq_iff_eq] using h
/-- A vector team may issue the vector forms (R55). -/
theorem roleFault_vector {c : Ctx} {i : Issue} (h : c.vectorTeam = true) (h2 : i.copyOnly = false) (h4 : i.liftedOnly = false)
    (h5 : i.privOnly = false) : roleFault c i = false := by
  obtain ⟨hcopy, hcore⟩ := vectorTeam_spec h
  exact roleFault_core hcore (fun _ => hcopy) (fun e => absurd (h2.symm.trans e) Bool.false_ne_true) h4
    (fun e => absurd (h5.symm.trans e) Bool.false_ne_true)
theorem holds_spec {c : Ctx} {i : Instr} (h : c.holds i = true) : ∀ x ∈ vectorNames i, x.2 < 8 * c.tm.G := by
  simpa only [Ctx.holds, List.all_eq_true, decide_eq_true_eq] using h

/-- A result that no counter counts has a window whatever its LA (R51). -/
theorem Ctx.newPend_spf (c : Ctx) (seq la : Nat) (r : RegRef) (kind : PendKind) :
    c.newPend seq .spf la [r] kind = { seq, csn := c.csn, heirs := [c.csn], cls := .spf, window := some (la + 1), dests := [r], wrote := []
                                       kind, pc := c.f.pc, word := c.word, lane := lowLane c.f.mask, hnd := c.tm.handler } := by
  simp only [Ctx.newPend, Bool.and_false, Bool.false_eq_true, if_false, List.isEmpty_cons]

/-- A special function becomes outstanding with the values of the lanes in which its guard holds. -/
theorem spf_issue {s : State} {c : Ctx} (h : s.issuer = some c) (hc : c.calm = true) (hv : c.vectorTeam = true) (g : Guard)
    (la : BitVec 4) (d a : VReg) (ty : FType) (rm : RMode) (fn : Nat) (hregs : ∀ x ∈ [(5, d.toNat), (6, a.toNat)], x.2 < 8 * c.tm.G) :
    let F := fmtOf ty.el
    let rs := (lanesOf c.tm.L (c.lanes g)).map fun l => (l, laneOfEls F.w fun e => spf fn ty rm (subEl F.w e (c.tm.vreg a.toNat l)))
    Leaves s c (s.issue (spfIssue g la d a ty rm fn)) { c.tm with pend := c.tm.pend ++
      [{ seq := s.seqNo, csn := c.csn, heirs := [c.csn], cls := .spf, window := some (la.toNat + 1), dests := [.v d.toNat], wrote := []
         kind := .spf d.toNat (rs.map fun x => (x.1, x.2.1)) (rs.map fun x => (x.1, x.2.2)), pc := c.f.pc, word := c.word
         lane := lowLane c.f.mask, hnd := c.tm.handler }] } := by
  intro F rs
  have hcore := (vectorTeam_spec hv).2
  have hpend := c.team_pend .spf la.toNat [.v d.toNat] (.spf d.toNat (rs.map fun x => (x.1, x.2.1)) (rs.map fun x => (x.1, x.2.2))) s
  rw [(issuer_spec h).2.2.1, Ctx.newPend_spf] at hpend
  exact leaves_of (i := spfIssue g la d a ty rm fn) h (lanes_issue h hc (roleFault_vector hv rfl rfl rfl) rfl hregs) hpend rfl rfl rfl
    (noLift_of_core hcore) (Ctx.frame_pend _ _ _ _ _ _)

end Sys2Proof.Machine

open Sys2Proof Sys2Proof.Machine

/-- Settles O14: each special function is `spfIssue` of its own function number. -/
theorem specialFunctionIssue : Obligations.SpecialFunctionIssue := by
  unfold Obligations.SpecialFunctionIssue
  intro s c i g la d a ty rm fn h hc hv hregs hres
  have hnames := holds_spec hregs
  cases i with
  | vFrcp o | vFrsq o | vFsqrt o | vFexp2 o | vFlog2 o =>
    cases hres
    exact spf_issue h hc hv _ _ _ _ _ _ _ hnames
  | _ => cases hres
end

section
namespace Sys2Proof.Machine

/-! ### The grant queues, which the book-keeping of an issue leaves (R54) -/

/-- The grant queue of partition p of core k. -/
def State.grantsAt (s : State) (k p : Nat) : Option (List (Nat × Nat × Nat)) := (s.block k).map fun b => (b.part p).grants

theorem State.grantsAt_of_block {s t : State} {k : Nat} (h : t.block k = s.block k) (p : Nat) : t.grantsAt k p = s.grantsAt k p := by
  unfold State.grantsAt; rw [h]
theorem State.grantsAt_modBlock (s : State) (k : Nat) {f : Block → Block} (p : Nat) (hf : ∀ b, ((f b).part p).grants = (b.part p).grants)
    (j : Nat) : (s.modBlock k f).grantsAt j p = s.grantsAt j p := by
  unfold State.grantsAt
  by_cases h : k = j
  · subst h; rw [State.modBlock_block_self, Option.map_map]
    congr 1; funext b; exact hf b
  · rw [State.modBlock_block_ne _ _ h]
theorem State.grantsAt_modTeam (s : State) (k t : Nat) (f : Team → Team) (j p : Nat) : (s.modTeam k t f).grantsAt j p = s.grantsAt j p :=
  State.grantsAt_modBlock s k p (by intro b; rfl) j
theorem State.grantsAt_modSampler (s : State) (c : Ctx) (f : Nat → Sampler → Sampler) (j p : Nat) :
    (s.modSampler c f).grantsAt j p = s.grantsAt j p := by
  unfold State.modSampler
  split
  · exact State.grantsAt_of_block rfl p
  · exact State.grantsAt_of_block (State.block_modCore_keep _ _ (by intro x; rfl) j) p
theorem Block.grants_modPart (b : Block) (q : Nat) {f : Part → Part} (hf : ∀ x, (f x).grants = x.grants) (p : Nat) :
    ((b.modPart q f).part p).grants = (b.part p).grants := by
  unfold Block.modPart Block.part
  by_cases h : q = p
  · subst h; rw [AMap.get_set_self, hf]
  · rw [AMap.get_set_ne _ _ _ h]
theorem State.grantsAt_noteLast (s : State) (c : Ctx) (j p : Nat) : (s.noteLast c).grantsAt j p = s.grantsAt j p := by
  unfold State.noteLast
  split
  · exact State.grantsAt_of_block rfl p
  · exact State.grantsAt_modBlock s c.k p (fun b => Block.grants_modPart b _ (by intro x; rfl) p) j
theorem State.grantsAt_noteIssue (s : State) (c : Ctx) (i : Issue) (j p : Nat) : (s.noteIssue c i).grantsAt j p = s.grantsAt j p := by
  rw [State.noteIssue, State.grantsAt_noteLast, State.tagIssue, State.grantsAt_modSampler, State.grantsAt_modTeam]
theorem State.grantsAt_settle (s : State) (k t j p : Nat) : (s.settle k t).grantsAt j p = s.grantsAt j p :=
  State.grantsAt_modBlock s k p (by intro b; rfl) j
theorem Ctx.grantsAt_noted (c : Ctx) (i : Issue) (s : State) (j p : Nat) : (c.noted i s).grantsAt j p = s.grantsAt j p := by
  unfold Ctx.noted Ctx.unyield
  rw [State.grantsAt_modBlock _ _ _ (by intro b; rfl), State.grantsAt_modTeam]
  split
  · exact State.grantsAt_noteIssue s c i j p
  · rfl
theorem Ctx.grantsAt_goOn (c : Ctx) (i : Issue) (pc : Nat) (s : State) (j p : Nat) : (c.goOn i pc s).grantsAt j p = s.grantsAt j p := by
  rw [Ctx.goOn, State.advance, State.grantsAt_settle, State.modFrag, State.grantsAt_modTeam, Ctx.grantsAt_noted]

/-- With no request waiting, freed bytes serve nobody. -/
theorem State.serveGrants_empty {s : State} {k p : Nat} (h : s.grantsAt k p = some []) : s.serveGrants k p = s := by
  obtain ⟨b, hb, hg⟩ := Option.map_eq_some_iff.1 h
  unfold State.serveGrants
  rw [hb, Option.elim_some, hg]
  rfl

/-! ### Forms that act once -/

/-- A form that acts once: the team that its body leaves when its guard holds, else the team as it was. -/
theorem once_leaves {s s1 : State} {c : Ctx} {i : Issue} {tm : Team} (h : s.issuer = some c) (hc : c.calm = true)
    (hr : roleFault c i = false) (hp : i.perLane = false) (hv : i.vregs = []) (hrec : i.noRecord = false)
    (hbody : c.finish i s (i.body c (c.lanes i.g) s) = .next (c.goOn i (c.f.pc + c.len) s1)) (ht : s1.team c.k c.t = some tm)
    (hf : tm.frags = c.tm.frags) (hg : tm.sigacc = c.tm.sigacc) (hn : tm.noLift) (fr : Frame s s1 c.k c.t) :
    Leaves s c (s.issue i) (if c.acts i.g then tm else c.tm) := by
  by_cases ha : c.acts i.g = true
  · rw [if_pos ha]
    exact leaves_of h ((once_acts h hc hr hv ha).trans hbody) ht hf hg hrec hn fr
  · rw [if_neg ha]
    exact leaves_same h hc (once_idle h hc hr hp hv (Bool.not_eq_true _ ▸ ha)) hrec
/-- Its body changes its team by f. -/
theorem once_leaves_team {s : State} {c : Ctx} {i : Issue} {f : Team → Team} (h : s.issuer = some c) (hc : c.calm = true)
    (hr : roleFault c i = false) (hp : i.perLane = false) (hv : i.vregs = []) (hrec : i.noRecord = false)
    (hbody : i.body c (c.lanes i.g) s = .done (s.modTeam c.k c.t f)) (hf : (f c.tm).frags = c.tm.frags)
    (hg : (f c.tm).sigacc = c.tm.sigacc) (hn : (f c.tm).noLift) :
    Leaves s c (s.issue i) (if c.acts i.g then f c.tm else c.tm) :=
  once_leaves h hc hr hp hv hrec (by rw [hbody]; rfl) (by rw [State.modTeam_team_self, (issuer_spec h).2.2.1]; rfl) hf hg hn
    (frame_modTeam _ _ _ _)
/-- Its body changes nothing. -/
theorem once_leaves_same {s : State} {c : Ctx} {i : Issue} (h : s.issuer = some c) (hc : c.calm = true)
    (hr : roleFault c i = false) (hp : i.perLane = false) (hv : i.vregs = []) (hrec : i.noRecord = false)
    (hbody : i.body c (c.lanes i.g) s = .done s) : Leaves s c (s.issue i) (if c.acts i.g then c.tm else c.tm) :=
  once_leaves h hc hr hp hv hrec (by rw [hbody]; rfl) (issuer_spec h).2.2.1 rfl rfl (noLift_of_pend (calm_spec hc).2.2.1)
    (Frame.refl _ _ _)

theorem bit_eq_testBit (x i : Nat) : bit x i = x.testBit i := by
  rw [bit, Nat.testBit_eq_decide_div_mod_eq]
  exact (Bool.beq_eq_decide_eq _ _)
/-- A team on its core may issue what is neither a vector form, nor a queue form, nor a bank form, nor privileged (R55, R341). -/
theorem roleFault_plain {c : Ctx} {i : Issue} (hl : c.tm.lift = .core) (h1 : i.vectorOnly = false) (h2 : i.copyOnly = false)
    (h3 : i.liftedOnly = false) (h5 : i.privOnly = false) : roleFault c i = false :=
  roleFault_core hl (by simp [h1]) (by simp [h2]) h3 (by simp [h5])
theorem bits_toNat_eq_extractLsb' {w : Nat} (x : BitVec w) (lo n : Nat) : bits x.toNat lo n = (x.extractLsb' lo n).toNat := by
  rw [bits, BitVec.extractLsb'_toNat, Nat.shiftRight_eq_div_pow]
theorem countOk_of {n : BitVec 28} (h1 : 1 ≤ n.toInt) (h15 : n.toInt ≤ 15) : countOk n = true := by simp [countOk, h1, h15]

/-! ### Control registers, capabilities and allotment -/

section
variable {s : State} {c : Ctx} (h : s.issuer = some c) (hc : c.calm = true) (hl : c.tm.lift = .core)
include h hc hl

theorem core_leaves_team {i : Issue} {f : Team → Team} (hr : roleFault c i = false) (hp : i.perLane = false) (hv : i.vregs = []) (hrec : i.noRecord = false)
    (hbody : i.body c (c.lanes i.g) s = .done (s.modTeam c.k c.t f)) (hf : (f c.tm).frags = c.tm.frags)
    (hg : (f c.tm).sigacc = c.tm.sigacc) (hlift : (f c.tm).lift = c.tm.lift) :
    Leaves s c (s.issue i) (if c.acts i.g then f c.tm else c.tm) :=
  once_leaves_team h hc hr hp hv hrec hbody hf hg (noLift_of_core (hlift.trans hl))

theorem csrw_leaves (o : CsrOp) {tm : Team} (hw : csrWrite o.csr (c.tm.sreg o.r.toNat) c.tm = .inl tm) (hf : tm.frags = c.tm.frags)
    (hg : tm.sigacc = c.tm.sigacc) (hlift : tm.lift = c.tm.lift) : Leaves s c (exec (.csrw o) s) (if c.acts o.g then tm else c.tm) :=
  core_leaves_team (i := issueCsrw o) (f := fun _ => tm) h hc hl (roleFault_plain hl rfl rfl rfl rfl) rfl rfl rfl
    (by simp only [issueCsrw, hw]) hf hg hlift

theorem cNarrow_leaves (o : CNarrow) {x : Cap} {tag : Bool} (hx : c.tm.creg o.a.toNat = (x, tag))
    (hkind : [0, 1, 2, 5].contains (capKind x) = true)
    (hlen : (c.tm.sreg o.b.toNat).toNat + (c.tm.sreg o.c.toNat).toNat ≤ capLen x) :
    Leaves s c (exec (.cNarrow o) s) (if c.acts o.g then c.tm.setC o.d.toNat (mkCap (capBase x + (c.tm.sreg o.b.toNat).toNat)
      (c.tm.sreg o.c.toNat).toNat (capPerm x) (capKind x) (capKspec x), tag) else c.tm) := by
  refine core_leaves_team (i := issueCNarrow o) (f := fun tm => tm.setC o.d.toNat _) h hc hl (roleFault_plain hl rfl rfl rfl rfl)
    rfl rfl rfl ?_ (Team.setC_frags _ _ _) (Team.setC_sigacc _ _ _) (Team.setC_lift _ _ _)
  simp only [issueCNarrow, capIssue, hx, hkind, Bool.not_true, Bool.false_eq_true, if_false, if_neg (Nat.not_lt.2 hlen), Ctx.setCap]

theorem cGet_leaves (o : CGet) :
    Leaves s c (exec (.cGet o) s) (if c.acts o.g then
      c.tm.setS o.d.toNat (BitVec.ofNat 64 (capField o.f.toNat (c.tm.creg o.a.toNat).1)) else c.tm) :=
  core_leaves_team (i := issueCGet o) (f := fun tm => tm.setS o.d.toNat _) h hc hl (roleFault_plain hl rfl rfl rfl rfl)
    rfl rfl rfl rfl (Team.setS_frags _ _ _) (Team.setS_sigacc _ _ _) (Team.setS_lift _ _ _)

theorem cPerm_leaves (o : CPerm) {x : Cap} {tag : Bool} (hx : c.tm.creg o.a.toNat = (x, tag)) (hm : (c.tm.sreg o.b.toNat).toNat < 64) :
    Leaves s c (exec (.cPerm o) s) (if c.acts o.g then c.tm.setC o.d.toNat (mkCap (capBase x) (capLen x)
      (capPerm x &&& (c.tm.sreg o.b.toNat).toNat) (capKind x) (capKspec x), tag) else c.tm) := by
  refine core_leaves_team (i := issueCPerm o) (f := fun tm => tm.setC o.d.toNat _) h hc hl (roleFault_plain hl rfl rfl rfl rfl)
    rfl rfl rfl ?_ (Team.setC_frags _ _ _) (Team.setC_sigacc _ _ _) (Team.setC_lift _ _ _)
  simp only [issueCPerm, capIssue, hx, if_neg (Nat.not_le.2 hm), Ctx.setCap]

theorem shrink_leaves (o : GrowN) (hok : countOk o.n = true) (hn : o.n.toNat < c.tm.G) (hgr : (c.b.part (c.t % 4)).grants = []) :
    Leaves s c (exec (.shrink o) s) (if c.acts o.g then c.tm.shrinkTo (c.tm.G - o.n.toNat) else c.tm) := by
  refine once_leaves (i := issueShrink o) (s1 := s.modTeam c.k c.t fun tm => tm.shrinkTo (tm.G - o.n.toNat)) h hc
    (roleFault_plain hl rfl rfl rfl rfl) rfl rfl rfl ?_
    (by rw [State.modTeam_team_self, (issuer_spec h).2.2.1]; rfl) rfl rfl (noLift_of_core hl) (frame_modTeam _ _ _ _)
  have hqueue : s.grantsAt c.k (c.t % 4) = some [] := by
    rw [State.grantsAt, (issuer_spec h).2.1, Option.map_some, hgr]
  have hacts : (!countOk o.n || decide (c.tm.G ≤ o.n.toNat)) = false := by simp [hok]; omega
  simp only [issueShrink, hacts, Bool.false_eq_true, if_false, Ctx.finish]
  rw [State.serveGrants_empty]
  rw [Ctx.grantsAt_goOn, State.grantsAt_modTeam, hqueue]

theorem allot_leaves (o : AllotN) (hok : countOk o.n = true) (hn : c.tm.G + o.n.toNat ≤ 16) :
    Leaves s c (exec (.allot o) s) (if c.acts o.g then
      if (c.b.part (c.t % 4)).grants = [] ∧ 64 * c.tm.L * o.n.toNat ≤ c.b.pool (c.t % 4) then
        { c.tm with G := c.tm.G + o.n.toNat }.setS o.d.toNat 1
      else c.tm.setS o.d.toNat 0 else c.tm) := by
  have hr : roleFault c (issueAllot o) = false :=
    roleFault_plain hl rfl rfl rfl rfl
  have hacts : (!countOk o.n || decide (16 < c.tm.G + o.n.toNat)) = false := by simp [hok]; omega
  by_cases hfree : (c.b.part (c.t % 4)).grants = [] ∧ 64 * c.tm.L * o.n.toNat ≤ c.b.pool (c.t % 4)
  · rw [if_pos hfree]
    refine once_leaves (i := issueAllot o)
      (s1 := c.setSc o.d 1 (s.modTeam c.k c.t fun tm => { tm with G := tm.G + o.n.toNat })) h hc hr rfl rfl rfl ?_ ?_ rfl rfl
      (noLift_of_core hl) ((frame_modTeam _ _ _ _).trans (frame_modTeam _ _ _ _))
    · simp only [issueAllot, hacts, hfree, Bool.false_eq_true, if_false, List.isEmpty_nil, decide_true, Bool.and_self, if_true, Ctx.finish]
    · rw [Ctx.setSc, State.modTeam_team_self, State.modTeam_team_self, (issuer_spec h).2.2.1]; rfl
  · rw [if_neg hfree]
    refine once_leaves_team (i := issueAllot o) (f := fun tm => tm.setS o.d.toNat 0) h hc hr rfl rfl rfl ?_ rfl rfl (noLift_of_core hl)
    have hwaits : ((c.b.part (c.t % 4)).grants.isEmpty && decide (64 * c.tm.L * o.n.toNat ≤ c.b.pool (c.t % 4))) = false := by
      simpa [Bool.and_eq_false_iff, not_and_or, Nat.not_le] using hfree
    simp only [issueAllot, hacts, hwaits, Bool.false_eq_true, if_false, Ctx.setSc]

theorem brk_leaves (o : Code16) (hoff : ¬((s.iface c.b.vi).victl.toNat.testBit 1 = true ∧ s.stoppedOf c.b.vi < 4)) :
    Leaves s c (exec (.brk o) s) (if c.acts o.g then c.tm else c.tm) := by
  refine once_leaves_same (i := issueBrk o) h hc (roleFault_plain hl rfl rfl rfl rfl)
    rfl rfl rfl ?_
  exact if_neg (by rw [bit_eq_testBit, Bool.and_eq_true, decide_eq_true_eq]; exact hoff)

theorem sigChk_leaves (o : SigChk) (hsame : ¬(c.tm.frags.length = 1 ∧ c.tm.sigacc ≠ o.limm.toNat % 2 ^ 32)) :
    Leaves s c (exec (.sigChk o) s) (if c.acts o.g then c.tm else c.tm) := by
  refine once_leaves_same (i := issueSigChk o) h hc
    (roleFault_plain hl rfl rfl rfl rfl) rfl rfl rfl ?_
  have hgo : (c.tm.frags.length = 1 && c.tm.sigacc != o.limm.toNat % 2 ^ 32) = false := by simpa using hsame
  simp only [issueSigChk, hgo, Bool.false_eq_true, if_false]

end

end Sys2Proof.Machine

open Sys2Proof Sys2Proof.Machine

/-- Settles O16: the body of each form gives the team of its row of `registerResult`. -/
theorem registerResults : Obligations.RegisterResults := by
  unfold Obligations.RegisterResults
  intro s c i g r h hc hl hres
  cases i with
  | csrr o =>
    cases hres
    exact core_leaves_team (i := issueCsrr o) (f := fun tm => tm.setS o.r.toNat (c.csr s o.csr)) h hc hl (roleFault_plain hl rfl rfl rfl rfl)
      rfl rfl rfl rfl rfl rfl rfl
  | csrw o =>
    obtain ⟨g', reg, csr⟩ := o
    cases csr with
    | prio | fpflags =>
      simp only [registerResult, Option.ite_none_right_eq_some] at hres
      obtain ⟨hok, hres⟩ := hres
      cases hres
      exact csrw_leaves h hc hl _ (if_pos hok) rfl rfl rfl
    | trapvec =>
      simp only [registerResult, Option.ite_none_right_eq_some] at hres
      obtain ⟨hok, hres⟩ := hres
      cases hres
      exact csrw_leaves h hc hl _ (if_pos (by simpa [targetOk] using hok)) rfl rfl rfl
    | _ => cases hres
  | cNarrow o =>
    rcases hx : c.tm.creg o.a.toNat with ⟨x, tag⟩
    simp only [registerResult, hx, Option.ite_none_right_eq_some] at hres
    obtain ⟨⟨hkind, hlen⟩, hres⟩ := hres
    cases hres
    exact cNarrow_leaves h hc hl o hx hkind hlen
  | cPerm o =>
    rcases hx : c.tm.creg o.a.toNat with ⟨x, tag⟩
    simp only [registerResult, hx, Option.ite_none_right_eq_some] at hres
    obtain ⟨hm, hres⟩ := hres
    cases hres
    exact cPerm_leaves h hc hl o hx hm
  | cGet o =>
    simp only [registerResult, ← bits_toNat_eq_extractLsb'] at hres
    cases hres
    exact cGet_leaves h hc hl o
  | cTag o =>
    cases hres
    exact core_leaves_team (i := issueCTag o) (f := fun tm => tm.setS o.d.toNat _) h hc hl (roleFault_plain hl rfl rfl rfl rfl)
      rfl rfl rfl rfl rfl rfl rfl
  | cMov o =>
    cases hres
    exact core_leaves_team (i := issueCMov o) (f := fun tm => tm.setC o.d.toNat _) h hc hl (roleFault_plain hl rfl rfl rfl rfl)
      rfl rfl rfl rfl rfl rfl rfl
  | cMk o =>
    simp only [registerResult, Option.ite_none_right_eq_some] at hres
    obtain ⟨hpriv, hres⟩ := hres
    cases hres
    exact core_leaves_team (i := issueCMk o) (f := fun tm => tm.setC o.d.toNat _) h hc hl
      (roleFault_core hl (fun e => nomatch e) (fun e => nomatch e) rfl fun _ => hpriv)
      rfl rfl rfl rfl rfl rfl rfl
  | shrink o =>
    simp only [registerResult, Option.ite_none_right_eq_some] at hres
    obtain ⟨⟨h1, h15, hn, hgr⟩, hres⟩ := hres
    cases hres
    exact shrink_leaves h hc hl o (countOk_of h1 h15) hn hgr
  | allot o =>
    simp only [registerResult, Option.ite_none_right_eq_some] at hres
    obtain ⟨⟨h1, h15, hn⟩, hres⟩ := hres
    cases hres
    exact allot_leaves h hc hl o (countOk_of h1 h15) hn
  | brk o =>
    simp only [registerResult, Option.ite_none_left_eq_some] at hres
    obtain ⟨hoff, hres⟩ := hres
    cases hres
    exact brk_leaves h hc hl o hoff
  | sigChk o =>
    simp only [registerResult, Option.ite_none_left_eq_some] at hres
    obtain ⟨hsame, hres⟩ := hres
    cases hres
    exact sigChk_leaves h hc hl o hsame
  | _ => cases hres
end

section
namespace Sys2Proof.Machine

/-! ### The traps of a word, a role and an allotment (R335, R338, R341) -/

/-- The trap of an issue that its role or its team's allotment forbids (R341). -/
def formFault (c : Ctx) (i : Issue) : Option Act :=
  if roleFault c i then some (.trap 0x03 0 0 none)
  else (allotFault c.tm i).map fun x => .trap 0x04 x.1 (bits x.2 0 8) none

/-- A calm fragment takes it before it looks at its guard. -/
theorem issue_calm_fault {s : State} {c : Ctx} {i : Issue} {a : Act} (h : s.issuer = some c) (hc : c.calm = true)
    (ht : formFault c i = some a) : s.issue i = c.finish i s a := by
  obtain ⟨ha, hb, hteam, hf, hl⟩ := issuer_spec h
  obtain ⟨h1, h2, h3, -, h5⟩ := calm_spec hc
  have hcnt : (match i.counts with | some q => decide (63 ≤ c.tm.counter q) | none => false) = false := by
    cases i.counts with
    | none => rfl
    | some q => have := h5 q; exact decide_eq_false (by omega)
  obtain ⟨k, t, csn, word, len, b, tm, f⟩ := c
  simp only at ha hb hteam hf hl h1 h2 h3 hcnt
  subst hl
  unfold State.issue
  simp only [ha, hb, hteam, hf, h1, h2, interlocked_calm _ _ _ h3, acquirePending_calm _ _ h3, Bool.and_false, Bool.or_self,
    Bool.false_or, beq_self_eq_true, Bool.false_eq_true, if_false, Bool.true_and]
  refine (if_neg fun e => absurd (hcnt.symm.trans e) Bool.false_ne_true).trans ?_
  unfold formFault at ht
  split at ht
  · next hr => cases ht; rw [if_pos hr]
  · next hr =>
    obtain ⟨x, hx, rfl⟩ := Option.map_eq_some_iff.1 ht
    simp only at hx
    rw [if_neg hr, hx]

theorem finish_trap {c : Ctx} {i : Issue} (hc : c.calm = true) (s0 : State) (code field aux : Nat) (fs : Option Word) :
    c.finish i s0 (.trap code field aux fs) = .next (c.trapEntry s0 code field aux fs) := by
  simp only [Ctx.finish, Ctx.trapping, Ctx.trapEntry, (calm_spec hc).2.1, beq_self_eq_true, if_true]

/-- A calm fragment that may not issue i in its role traps with ROLE. -/
theorem issue_calm_role {s : State} {c : Ctx} {i : Issue} (h : s.issuer = some c) (hc : c.calm = true) (hr : roleFault c i = true) :
    s.issue i = .next (c.trapEntry s 0x03 0 0 none) :=
  (issue_calm_fault h hc (if_pos hr)).trans (finish_trap hc s _ _ _ _)
/-- One that names a register that its team does not hold traps with ALLOT. -/
theorem issue_calm_allot {s : State} {c : Ctx} {i : Issue} {field r : Nat} (h : s.issuer = some c) (hc : c.calm = true)
    (hr : roleFault c i = false) (hv : allotFault c.tm i = some (field, r)) :
    s.issue i = .next (c.trapEntry s 0x04 field (bits r 0 8) none) :=
  (issue_calm_fault h hc (by simp [formFault, hr, hv])).trans (finish_trap hc s _ _ _ _)

/-- A reserved word traps whatever its guard, with ILLEGAL or ROLE. -/
theorem illegal_issue {s : State} {c : Ctx} (h : s.issuer = some c) (hc : c.calm = true) (r : Reject) :
    exec (.illegalWordIssue r) s
      = .next (if r.role then c.trapEntry s 0x03 0 0 none else c.trapEntry s 0x02 r.field.toNat 0 none) := by
  have hexec : exec (.illegalWordIssue r) s = s.issue (issueIllegal r) := by
    change execIllegalWordIssue r s = _
    unfold execIllegalWordIssue
    rw [(issuer_spec h).1]
  have hrole : roleFault c (issueIllegal r) = false := roleFault_any rfl rfl rfl rfl rfl
  rw [hexec, lanes_issue h hc hrole rfl (by simp [issueIllegal])]
  simp only [issueIllegal]
  split
  · exact finish_trap hc s _ _ _ _
  · exact finish_trap hc s _ _ _ _

/-! ### The vector registers that an instruction names (R55, R186, R341) -/

theorem named_group (field : Nat) (r : VReg) (q : Nat) : named field r q = groupRegs field r.toNat q := rfl
theorem namedA_eq (x : VASrc) : namedA x = vOfVA 6 x := by cases x <;> rfl
theorem namedS_eq (field : Nat) (x : VSrc) : namedS field x = vOfVS field x := by cases x <;> rfl
theorem namedX_eq (x : VIdx) : namedX x = vOfVI 7 x := by cases x <;> rfl
theorem namedSel_eq (x : SelSrc) : namedSel x = vOfSel x := by
  cases x with
  | src x => exact namedS_eq 8 x
  | p r => rfl

/-- The forms that name vector registers and that a team of either role may issue. -/
def anyRole : Instr → Bool
  | .pFromv _ | .pTov _ | .pgReq _ | .pgTest _ => true
  | _ => false

/-- x is what the issue of instruction i does: it checks the registers that i names, and needs a vector team unless either role may issue i. -/
structure NamesIssue (i : Instr) (x : Issue) : Prop where
  exec : ∀ s, exec i s = s.issue x
  vregs : x.vregs = vectorNames i
  role : x.vectorOnly = !anyRole i
  copy : x.copyOnly = false
  lifted : x.liftedOnly = false
  priv : x.privOnly = false

theorem elWidth_pos (t : ElType) : 0 < elWidth t := by cases t <;> decide

/-- The groups of a conversion (R186, R187). -/
theorem names_cvt (o : VCvt) :
    (cvtIssue o).vregs = named 5 o.d (if elWidth o.st < elWidth o.dt then elWidth o.dt / elWidth o.st else 1)
      ++ named 6 o.a (if o.st = .o4 then 2 else if elWidth o.dt < elWidth o.st then elWidth o.st / elWidth o.dt else 1) := by
  have hs := elWidth_pos o.st
  have hd := elWidth_pos o.dt
  simp only [cvtIssue, convIssue, named_group, List.append_nil, beq_iff_eq]
  rcases Nat.lt_trichotomy (elWidth o.st) (elWidth o.dt) with hlt | heq | hgt
  · rw [Nat.max_eq_right hlt.le, Nat.min_eq_left hlt.le, if_pos rfl, if_pos hlt, if_neg (Nat.not_lt.2 hlt.le), if_neg hlt.ne]
  · rw [heq, Nat.max_self, Nat.min_self, if_pos rfl, if_neg (Nat.lt_irrefl _), Nat.div_self hd]
  · rw [Nat.max_eq_left hgt.le, Nat.min_eq_right hgt.le, if_neg hgt.ne, if_neg (Nat.not_lt.2 hgt.le), if_pos hgt, if_pos rfl]

theorem namesIssue_cvt {i : Instr} {o : VCvt} (hexec : ∀ s, exec i s = s.issue (cvtIssue o))
    (hnames : vectorNames i = named 5 o.d (if elWidth o.st < elWidth o.dt then elWidth o.dt / elWidth o.st else 1)
      ++ named 6 o.a (if o.st = .o4 then 2 else if elWidth o.dt < elWidth o.st then elWidth o.st / elWidth o.dt else 1))
    (hrole : anyRole i = false) : NamesIssue i (cvtIssue o) :=
  ⟨hexec, (names_cvt o).trans hnames.symm, by rw [hrole]; rfl, rfl, rfl, rfl⟩

/-- The two-word forms (R137). -/
theorem namesIssue_prefix (o : Prefixed) (hv : ∀ f d a, o.carried ≠ .scalar f d a) :
    NamesIssue (.longImmediatePrefix o) (issueLongImmediatePrefix o) := by
  obtain ⟨g, carried, limm⟩ := o
  cases carried with
  | scalar f d a => exact absurd rfl (hv f d a)
  | vint f d a ty =>
    refine ⟨fun _ => rfl, ?_, rfl, rfl, rfl, rfl⟩
    simp only [vectorNames, namedA_eq, namedS_eq, namedSel_eq]
    cases f <;> rfl
  | vcmp d a ty cond =>
    cases d <;> exact ⟨fun _ => rfl, by simp only [vectorNames, namedA_eq]; rfl, rfl, rfl, rfl, rfl⟩
  | vfloat f d a ty =>
    cases f <;> exact ⟨fun _ => rfl, by simp only [vectorNames, namedS_eq]; rfl, rfl, rfl, rfl, rfl⟩
  | vfcmp d a ty cond => cases d <;> exact ⟨fun _ => rfl, rfl, rfl, rfl, rfl, rfl⟩

/-- The forms of a lifted team that name vector registers. -/
def unitForm : Instr → Bool
  | .bUcld _ | .bAccRd _ | .bAccWr _ => true
  | _ => false

/-- Every vector form but those of a lifted team: its issue. -/
theorem vectorForm_issue {i : Instr} (hv : vectorNames i ≠ [] ∨ (∃ o, i = .vCmp o) ∨ (∃ o, i = .vFcmp o)
      ∨ ∃ o : Prefixed, i = .longImmediatePrefix o ∧ ∀ f d a, o.carried ≠ .scalar f d a)
    (hu : unitForm i = false) : ∃ x, NamesIssue i x := by
  cases i with
  | pFromv o | pTov o | vLi o | vFabs o | vFneg o | vFclass o | vFrcp o | vFrsq o | vFsqrt o | vFexp2 o | vFlog2 o | vCbld o | vBcst o
  | vScan o | vRed o | vLdb o | setEnum o | vQnt o | vDqt o
  | vAddImm o | vSubImm o | vMulImm o | vAndImm o | vOrImm o | vXorImm o | vAndnImm o | vShlImm o | vShrImm o | vSraImm o =>
    exact ⟨_, fun _ => rfl, rfl, rfl, rfl, rfl, rfl⟩
  | vAdd o | vSub o | vMul o | vMulh o | vAnd o | vOr o | vXor o | vAndn o | vShl o | vShr o | vSra o | vMin o | vMax o | vAdds o | vSubs o
  | vPack o | vUnpk o | vExt o | vMad o | vIns o | vAbs o | vClz o | vPopc o | vMov o | vFadd o | vFsub o | vFmul o | vFma o | vFmin o
  | vFmax o | vShfl o | vPerm o | vLd o | vSt o | vAtomAdd o | vAtomMin o | vAtomMax o | vAtomAnd o | vAtomOr o | vAtomXor o | vAtomXchg o
  | vAtomCas o | vAtomFadd o | pgReq o | pgTest o | setIns o | setDel o | setHas o | vSel o =>
    exact ⟨_, fun _ => rfl, by simp only [vectorNames, namedA_eq, namedS_eq, namedX_eq, namedSel_eq]; rfl, rfl, rfl, rfl, rfl⟩
  | vCmp o =>
    obtain ⟨g, d, a, b, ty, cond⟩ := o
    cases d <;> exact ⟨_, fun _ => rfl, by simp only [vectorNames, namedA_eq, namedS_eq]; rfl, rfl, rfl, rfl, rfl⟩
  | vFcmp o =>
    obtain ⟨g, d, a, b, ty, cond⟩ := o
    cases d <;> exact ⟨_, fun _ => rfl, by simp only [vectorNames, namedS_eq]; rfl, rfl, rfl, rfl, rfl⟩
  | vCvt o | vCvti o | vCvtf o => exact ⟨_, namesIssue_cvt (fun _ => rfl) rfl rfl⟩
  | vCbenc o =>
    obtain ⟨g, d, a, bf⟩ := o
    refine ⟨_, fun _ => rfl, ?_, rfl, rfl, rfl, rfl⟩
    cases bf <;> simp [issueVCbenc, convIssue, vectorNames, named_group]
  | vVote o =>
    obtain ⟨g, d, mode, m, r⟩ := o
    cases mode <;> exact ⟨_, fun _ => rfl, rfl, rfl, rfl, rfl, rfl⟩
  | longImmediatePrefix o =>
    refine ⟨_, namesIssue_prefix o fun f d a hs => ?_⟩
    obtain hn | ⟨_, he⟩ | ⟨_, he⟩ | ⟨o', he, hne⟩ := hv
    · exact hn (by simp only [vectorNames, hs])
    · cases he
    · cases he
    · cases he; exact hne f d a hs
  | bUcld o | bAccRd o | bAccWr o => cases hu
  | _ =>
    obtain hn | ⟨_, he⟩ | ⟨_, he⟩ | ⟨_, he, -⟩ := hv
    · exact absurd rfl hn
    · cases he
    · cases he
    · cases he

/-- A form of the tables of vector instructions needs a vector team. -/
theorem vectorForm_role {c : Ctx} {s : State} {i : Instr} (hform : (elementResult c s i).isSome ∨ (laneResult c s i).isSome
      ∨ (compareResult c s i).isSome ∨ (convertResult c i).isSome ∨ (specialResult i).isSome ∨ (scanResult i).isSome ∨ (∃ o, i = .vVote o)
      ∨ (∃ o, i = .vCbld o) ∨ (∃ o, i = .vLd o) ∨ (∃ o, i = .vLdb o) ∨ ∃ o, i = .vSt o) :
    anyRole i = false ∧ ∃ x, NamesIssue i x := by
  obtain he | he | he | he | he | he | ⟨o, rfl⟩ | ⟨o, rfl⟩ | ⟨o, rfl⟩ | ⟨o, rfl⟩ | ⟨o, rfl⟩ := hform
  case inl =>
    cases i with
    | vAdd o | vSub o | vMul o | vMulh o | vMad o | vAdds o | vSubs o | vAnd o | vOr o | vXor o | vAndn o | vShl o | vShr o | vSra o
    | vMin o | vMax o | vAbs o | vClz o | vPopc o | vMov o | vAddImm o | vSubImm o | vMulImm o | vAndImm o | vOrImm o | vXorImm o
    | vAndnImm o | vShlImm o | vShrImm o | vSraImm o | vLi o => exact ⟨rfl, vectorForm_issue (.inl (List.cons_ne_nil _ _)) rfl⟩
    | _ => cases he
  case inr.inl =>
    cases i with
    | vSel o | vPack o | vUnpk o | vExt o | vIns o | vFadd o | vFsub o | vFmul o | vFma o | vFmin o | vFmax o | vFabs o | vFneg o
    | vFclass o | vShfl o | vBcst o | vPerm o => exact ⟨rfl, vectorForm_issue (.inl (List.cons_ne_nil _ _)) rfl⟩
    | longImmediatePrefix o =>
      refine ⟨rfl, _, namesIssue_prefix o fun f d a hs => ?_⟩
      simp only [laneResult, hs] at he
      cases he
    | _ => cases he
  case inr.inr.inl =>
    cases i with
    | vCmp o => exact ⟨rfl, vectorForm_issue (.inr (.inl ⟨o, rfl⟩)) rfl⟩
    | vFcmp o => exact ⟨rfl, vectorForm_issue (.inr (.inr (.inl ⟨o, rfl⟩))) rfl⟩
    | longImmediatePrefix o =>
      refine ⟨rfl, _, namesIssue_prefix o fun f d a hs => ?_⟩
      simp only [compareResult, hs] at he
      cases he
    | _ => cases he
  case inr.inr.inr.inl =>
    cases i with
    | vCvt o | vCvti o | vCvtf o => exact ⟨rfl, _, namesIssue_cvt (fun _ => rfl) rfl rfl⟩
    | vDqt o => exact ⟨rfl, _, fun _ => rfl, rfl, rfl, rfl, rfl, rfl⟩
    | vQnt o | vCbenc o => exact ⟨rfl, vectorForm_issue (.inl (List.cons_ne_nil _ _)) rfl⟩
    | _ => cases he
  case inr.inr.inr.inr.inl =>
    cases i with
    | vFrcp o | vFrsq o | vFsqrt o | vFexp2 o | vFlog2 o => exact ⟨rfl, vectorForm_issue (.inl (List.cons_ne_nil _ _)) rfl⟩
    | _ => cases he
  case inr.inr.inr.inr.inr.inl =>
    cases i with
    | vScan o | vRed o => exact ⟨rfl, vectorForm_issue (.inl (List.cons_ne_nil _ _)) rfl⟩
    | _ => cases he
  all_goals exact ⟨rfl, vectorForm_issue (.inl (List.cons_ne_nil _ _)) rfl⟩

/-- Every register of the list has a number of 8 bits, as AUX takes it. -/
def Narrow (l : List (Nat × Nat)) : Prop := ∀ x ∈ l, x.2 < 256

theorem narrow_nil : Narrow [] := fun _ hx => nomatch hx
theorem narrow_append {l m : List (Nat × Nat)} : Narrow (l ++ m) ↔ Narrow l ∧ Narrow m := List.forall_mem_append
theorem narrow_named (field : Nat) (r : VReg) {q : Nat} (hq : q ≤ 128) : Narrow (named field r q) := by
  intro x hx
  obtain ⟨i, hi, rfl⟩ := List.mem_map.1 hx
  have := mem_upto_iff.1 hi
  have := r.isLt
  simp only; omega
theorem narrow_one (field : Nat) (r : VReg) : Narrow (named field r) := narrow_named field r (by decide)
theorem narrow_namedA (x : VASrc) : Narrow (namedA x) := by
  cases x with
  | v r => exact narrow_one 6 r
  | zero => exact narrow_nil
theorem narrow_namedS (field : Nat) (x : VSrc) : Narrow (namedS field x) := by
  cases x with
  | v r => exact narrow_one field r
  | s r | spec r => exact narrow_nil
theorem narrow_namedX (x : VIdx) : Narrow (namedX x) := by
  cases x with
  | v r => exact narrow_one 7 r
  | s r => exact narrow_nil
  | zero | lid => exact narrow_nil
theorem narrow_namedSel (x : SelSrc) : Narrow (namedSel x) := by
  cases x with
  | src x => exact narrow_namedS 8 x
  | p r => exact narrow_nil
theorem narrow_namedD (x : VDest) : Narrow (namedD x) := by
  cases x with
  | v r => exact narrow_one 5 r
  | p r => exact narrow_nil

theorem elWidth_le (t : ElType) : elWidth t ≤ 64 := by cases t <;> decide
theorem div_elWidth_le (a b : ElType) : elWidth a / elWidth b ≤ 128 :=
  (Nat.div_le_self _ _).trans ((elWidth_le a).trans (by decide))
theorem narrow_cvt (o : VCvt) : Narrow (vectorNames (.vCvt o)) := by
  refine narrow_append.2 ⟨narrow_named _ _ ?_, narrow_named _ _ ?_⟩
  · split
    · exact div_elWidth_le _ _
    · decide
  · split
    · decide
    · split
      · exact div_elWidth_le _ _
      · decide
theorem narrow_scaled (field : Nat) (r : VReg) (t : ElType) : Narrow (named field r (16 / elWidth t)) :=
  narrow_named _ _ ((Nat.div_le_self _ _).trans (by decide))

theorem narrow_prefix (o : Prefixed) : Narrow (vectorNames (.longImmediatePrefix o)) := by
  obtain ⟨g, carried, limm⟩ := o
  cases carried with
  | scalar f d a => exact narrow_nil
  | vint f d a ty =>
    refine narrow_append.2 ⟨narrow_append.2 ⟨narrow_one _ _, narrow_namedA _⟩, ?_⟩
    cases f with
    | mad x | ins x => exact narrow_namedS 8 x
    | sel x => exact narrow_namedSel x
    | _ => exact narrow_nil
  | vcmp d a ty cond => exact narrow_append.2 ⟨narrow_namedD _, narrow_namedA _⟩
  | vfloat f d a ty =>
    refine narrow_append.2 ⟨narrow_append.2 ⟨narrow_one _ _, narrow_one _ _⟩, ?_⟩
    cases f with
    | fma x m => exact narrow_namedS 8 x
    | _ => exact narrow_nil
  | vfcmp d a ty cond => exact narrow_append.2 ⟨narrow_namedD _, narrow_one _ _⟩

theorem narrow_vectorNames (i : Instr) : Narrow (vectorNames i) := by
  cases i with
  | vCvt o | vCvti o | vCvtf o => exact narrow_cvt o
  | vCbenc o => exact narrow_append.2 ⟨narrow_one _ _, narrow_named _ _ (by split <;> decide)⟩
  | vVote o =>
    refine narrow_append.2 ⟨narrow_one _ _, ?_⟩
    cases o.mode with
    | uni a => exact narrow_one 6 a
    | _ => exact narrow_nil
  | longImmediatePrefix o => exact narrow_prefix o
  | _ =>
    simp only [vectorNames, narrow_append, narrow_one, narrow_namedA, narrow_namedS, narrow_namedX, narrow_namedSel, narrow_namedD,
      narrow_scaled, narrow_nil, and_self]

/-! ### The traps of the forms -/

section
variable {s : State} {c : Ctx} {i : Instr} {x : Issue} (h : s.issuer = some c) (hc : c.calm = true)
include h hc

/-- A form that names a register beyond its team's allotment, and that its team may issue. -/
theorem names_allot {field r : Nat} (hx : ∀ s, exec i s = s.issue x) (hv : x.vregs = vectorNames i) (hr : roleFault c x = false)
    (hfind : (vectorNames i).find? (fun x => decide (8 * c.tm.G ≤ x.2)) = some (field, r)) :
    exec i s = .next (c.trapEntry s 0x04 field r none) := by
  have hbits : bits r 0 8 = r := by
    rw [bits, Nat.pow_zero, Nat.div_one]
    exact Nat.mod_eq_of_lt (narrow_vectorNames i _ (List.mem_of_find?_eq_some hfind))
  rw [hx, issue_calm_allot h hc hr (by rw [allotFault, hv, hfind]), hbits]

/-- A form for vector teams alone, in a copy team. -/
theorem names_role (hx : NamesIssue i x) (ha : anyRole i = false) (hcopy : c.tm.copy = true) :
    exec i s = .next (c.trapEntry s 0x03 0 0 none) := by
  rw [hx.exec]
  exact issue_calm_role h hc (by simp [roleFault, hx.role, ha, hcopy])

/-- A form that needs a lifted team, in a team on its core. -/
theorem lifted_role {x : Issue} (hl : c.tm.lift = .core) (hx : x.liftedOnly = true) : s.issue x = .next (c.trapEntry s 0x03 0 0 none) :=
  issue_calm_role h hc (by simp [roleFault, hx, notLifted_of hl])

end

end Sys2Proof.Machine

open Sys2Proof Sys2Proof.Machine

/-- Settles O31: role, then allotment, are looked at before the guard; each form's issue checks the registers that it names. -/
theorem reservedRoleAndAllotTraps : Obligations.ReservedRoleAndAllotTraps := by
  unfold Obligations.ReservedRoleAndAllotTraps
  refine ⟨fun s c r h hc => illegal_issue h hc r, fun s c h hc hl => ⟨?_, ?_, ?_, ?_⟩, fun s c i h hc hcopy => ⟨?_, ?_⟩⟩
  · intro i hcopy hform
    obtain ⟨hany, x, hx⟩ := vectorForm_role hform
    exact names_role h hc hx hany hcopy
  · exact fun o hcopy => issue_calm_role (i := issueCpyPut o) h hc (by simp [roleFault, issueCpyPut, hcopy])
  · exact fun o hcopy => issue_calm_role (i := issueCpyIdx o) h hc (by simp [roleFault, issueCpyIdx, hcopy])
  · intro i field r hfind hrole h1 h2 h3
    have hunit : unitForm i = false := by
      cases i with
      | bUcld o => exact absurd rfl (h1 o)
      | bAccRd o => exact absurd rfl (h2 o)
      | bAccWr o => exact absurd rfl (h3 o)
      | _ => rfl
    obtain ⟨x, hx⟩ := vectorForm_issue (.inl (by intro e; rw [e] at hfind; cases hfind)) hunit
    refine names_allot h hc hx.exec hx.vregs (roleFault_core hl ?_ (by simp [hx.copy]) hx.lifted (by simp [hx.priv])) hfind
    obtain hcopy | ⟨o, rfl⟩ | ⟨o, rfl⟩ | ⟨o, rfl⟩ | ⟨o, rfl⟩ := hrole
    · exact fun _ => hcopy
    all_goals exact fun e => absurd (hx.role.symm.trans e) Bool.false_ne_true
  · intro hl hform
    obtain ⟨o, rfl⟩ | ⟨o, rfl⟩ | ⟨o, rfl⟩ | ⟨o, rfl⟩ | ⟨o, rfl⟩ | ⟨o, rfl⟩ | ⟨o, rfl⟩ | ⟨o, rfl⟩ | ⟨o, rfl⟩ := hform
    · exact lifted_role (x := issueBLand o) h hc hl rfl
    · exact lifted_role (x := issueBUcld o) h hc hl rfl
    · exact lifted_role (x := issueBRun o) h hc hl rfl
    · exact lifted_role (x := issueBStep o) h hc hl rfl
    · exact lifted_role (x := issueBWait o) h hc hl rfl
    · exact lifted_role (x := issueBFence o) h hc hl rfl
    · exact lifted_role (x := issueBAccRd o) h hc hl rfl
    · exact lifted_role (x := issueBAccWr o) h hc hl rfl
    · exact lifted_role (x := issueBStat o) h hc hl rfl
  · intro st n order field r hup hform hfind
    have hlifted : c.tm.lifted = true := by simp [Team.lifted, hup]
    obtain ⟨o, rfl⟩ | ⟨o, rfl⟩ | ⟨o, rfl⟩ := hform
    · exact names_allot (x := issueBUcld o) h hc (fun _ => rfl) rfl (by simp [roleFault, issueBUcld, hcopy, hlifted]) hfind
    · exact names_allot (x := issueBAccRd o) h hc (fun _ => rfl) rfl (by simp [roleFault, issueBAccRd, hcopy, hlifted]) hfind
    · exact names_allot (x := issueBAccWr o) h hc (fun _ => rfl) rfl (by simp [roleFault, issueBAccWr, hcopy, hlifted]) hfind
end

section
namespace Sys2Proof.Machine

/-! ### Outstanding instructions and checked accesses (R51, R363) -/

theorem Ctx.newPend_entry (c : Ctx) (seq : Nat) (cls : Cls) (la : BitVec 4) (dests : List RegRef) (kind : PendKind) :
    c.newPend seq cls la.toNat dests kind = c.entry seq cls la dests kind := by
  have hla : (la == 15#4) = decide (la.toNat = 15) := by
    rw [Bool.eq_iff_iff, beq_iff_eq, decide_eq_true_iff, ← BitVec.toNat_inj]; rfl
  unfold Ctx.newPend Ctx.entry
  rw [hla]
  cases dests with
  | nil => rfl
  | cons d ds => cases cls <;> simp
theorem Ctx.pend_entry (c : Ctx) (cls : Cls) (la : BitVec 4) (dests : List RegRef) (kind : PendKind) (s : State) :
    c.pend cls la.toNat dests kind s = (s.modTeam c.k c.t fun tm => tm.withPend (c.entry s.seqNo cls la dests kind)).nextSeq.2 := by
  rw [Ctx.pend_eq, Ctx.newPend_entry]; rfl

/-- An access that is allowed goes on to its body. -/
theorem checked_ok {tm : Team} {xs : List Access} {ok : Act} (h : ∀ a ∈ xs, a.cause tm = none) : checked tm xs ok = ok := by
  have hnone : xs.filterMap (Access.cause tm) = [] := List.filterMap_eq_nil_iff.2 h
  unfold checked firstCause
  rw [hnone]; rfl
theorem checked_one {tm : Team} {x : Access} {ok : Act} (h : x.cause tm = none) : checked tm [x] ok = ok :=
  checked_ok (by simpa using h)

/-- The order numbers are the model's own book-keeping. -/
theorem becomes_nextSeq {c : Ctx} {out : Res} {s1 : State} (h : Becomes c out s1.nextSeq.2) : Becomes c out s1 := by
  obtain ⟨t, ho, hq, hm⟩ := h
  exact ⟨t, ho, (Quiet.nextSeq s1).trans hq, hm⟩
theorem becomes_same {s : State} {c : Ctx} {i : Issue} {out : Res} (h : s.issuer = some c) (hc : c.calm = true)
    (hi : out = .next (c.goOn i (c.f.pc + c.len) s)) (hr : i.noRecord = false) : Becomes c out s :=
  becomes_of h hi (issuer_spec h).2.2.1 rfl rfl hr (noLift_of_pend (calm_spec hc).2.2.1)

/-- An issue whose body becomes the state s1 when it acts, and changes nothing when its guard does not hold. -/
theorem becomes_issue {s s1 : State} {c : Ctx} {i : Issue} {tm : Team} (h : s.issuer = some c) (hc : c.calm = true)
    (hr : roleFault c i = false) (hv : ∀ x ∈ i.vregs, x.2 < 8 * c.tm.G) (hrec : i.noRecord = false)
    (hbody : i.body c (c.lanes i.g) s = .done s1) (ht : s1.team c.k c.t = some tm) (hf : tm.frags = c.tm.frags)
    (hg : tm.sigacc = c.tm.sigacc) (hn : tm.noLift) : Becomes c (s.issue i) (if i.perLane || c.acts i.g then s1 else s) := by
  rw [issue_calm h hc hr hv]
  split
  · exact becomes_of h (by rw [hbody]; rfl) ht hf hg hrec hn
  · exact becomes_same (i := { i with yields := false }) h hc rfl hrec

/-! ### Set instructions (R249, R262, R265 to R271) -/

/-- The state in which a set operation stands last at the home of its set. -/
def Ctx.sentSet (c : Ctx) (s : State) (la : BitVec 4) (x : SetSrc) (srcs : List SetSrc) (func : Nat) (req : SetReq)
    (dst : Option RegRef) : State :=
  (s.modTeam c.k c.t fun tm => { tm with
    setcnt := tm.setcnt + 1
    pend := tm.pend ++ [c.entry s.seqNo .set la dst.toList (.set true dst none)] }).modCluster x.home fun q =>
      { q with setq := q.setq ++ [{ seq := s.seqNo, core := c.k, team := c.t, vi := c.b.vi, asid := c.b.asid, home := x.home,
                                    va := x.va, cap := x.cap, srcs, reads := [], posted := [], req, func }] }

theorem Ctx.sendSet_eq (c : Ctx) (s : State) (la : BitVec 4) (x : SetSrc) (srcs : List SetSrc) (func : Nat) (req : SetReq)
    (dst : Option RegRef) : c.sendSet la.toNat func x.cap x.home x.va srcs req dst s = (c.sentSet s la x srcs func req dst).nextSeq.2 := by
  unfold Ctx.sendSet
  cases dst <;> simp only [Ctx.pend_entry] <;> rfl

/-- The body of a set instruction that is allowed. -/
theorem set_issue {s : State} {c : Ctx} {i : Issue} {la : BitVec 4} {checks : List Access} {x : SetSrc} {srcs : List SetSrc} {func : Nat}
    {req : SetReq} {dst : Option RegRef} (h : s.issuer = some c) (hc : c.calm = true) (hv : c.vectorTeam = true)
    (hregs : ∀ x ∈ i.vregs, x.2 < 8 * c.tm.G) (h2 : i.copyOnly = false) (h4 : i.liftedOnly = false) (h5 : i.privOnly = false)
    (hrec : i.noRecord = false) (hchecks : ∀ a ∈ checks, a.cause c.tm = none)
    (hbody : i.body c (c.lanes i.g) s = checked c.tm checks (.done (c.sendSet la.toNat func x.cap x.home x.va srcs req dst s))) :
    Becomes c (s.issue i) (if i.perLane || c.acts i.g then c.sentSet s la x srcs func req dst else s) := by
  have hsent : i.body c (c.lanes i.g) s = .done (c.sentSet s la x srcs func req dst).nextSeq.2 := by
    rw [hbody, checked_ok hchecks, Ctx.sendSet_eq]
  have hteam : (c.sentSet s la x srcs func req dst).nextSeq.2.team c.k c.t
      = some (c.tm.withPend (c.entry s.seqNo .set la dst.toList (.set true dst none))) := by
    change (s.modTeam c.k c.t _).team c.k c.t = _
    rw [State.modTeam_team_self, (issuer_spec h).2.2.1]; rfl
  have hb := becomes_issue h hc (roleFault_vector hv h2 h4 h5) hregs hrec hsent hteam (Team.frags_withPend _ _)
    (Team.sigacc_withPend _ _) (noLift_of_core ((Team.lift_withPend _ _).trans (vectorTeam_spec hv).2))
  split
  · rw [if_pos ‹_›] at hb; exact becomes_nextSeq hb
  · rwa [if_neg ‹_›] at hb

theorem elements_eq (c : Ctx) (x : VIdx) (E : Mask) : c.elements x (lanesOf c.tm.L E) = laneElements c x E := by
  unfold Ctx.elements laneElements
  refine List.map_congr_left fun l _ => ?_
  rw [bits, Nat.pow_zero, Nat.div_one]

theorem newFault_none {b y : Nat} (h : b < 2 ^ 32 ∧ bits b 0 32 % 64 = 0 ∧ bits b 0 32 + bits y 0 32 ≤ 2 ^ 32 ∧ y < 2 ^ 40
    ∧ bits y 0 32 % 64 = 0 ∧ 64 ≤ bits y 0 32 ∧ bits y 0 32 ≤ 0xFFFFFFC0) : newFault b y = none := by
  obtain ⟨hb, hlo, hend, hy, hu, hmin, hmax⟩ := h
  unfold newFault
  simp only
  rw [if_neg (by omega), if_neg (by omega)]

theorem setNew_issue {s : State} {c : Ctx} {la : BitVec 4} {checks : List Access} {x : SetSrc} {srcs : List SetSrc} {func : Nat}
    {req : SetReq} {dst : Option RegRef} {lanes : Bool} {g : Guard} (h : s.issuer = some c) (hc : c.calm = true)
    (hv : c.vectorTeam = true) (o : SetNew) (hform : setForm c (.setNew o) = some (lanes, g, la, checks, x, srcs, func, req, dst))
    (hchecks : ∀ a ∈ checks, a.cause c.tm = none) :
    Becomes c (exec (.setNew o) s) (if lanes || c.acts g then c.sentSet s la x srcs func req dst else s) := by
  rcases hcap : c.tm.creg o.a.toNat with ⟨cap, tag⟩
  simp only [setForm, hcap, Option.ite_none_right_eq_some] at hform
  obtain ⟨hok, hform⟩ := hform
  cases hform
  refine set_issue (i := issueSetNew o) h hc hv (by simp [issueSetNew]) rfl rfl rfl rfl hchecks ?_
  simp only [issueSetNew, hcap, newFault_none hok, bit_eq_testBit]
  rfl

end Sys2Proof.Machine

open Sys2Proof Sys2Proof.Machine

/-- Settles O29: each body sends what its row of `setForm` says. -/
theorem setSends : Obligations.SetSends := by
  unfold Obligations.SetSends
  intro s c i lanes g la checks x srcs func req dst h hc hv hregs hform hchecks
  have hnames := holds_spec hregs
  cases i with
  | setNew o => exact setNew_issue h hc hv o hform hchecks
  | setFree o | setCard o | setOr o | setAnd o | setAndn o | setCopy o | setClr o | setInfo o | setPin o =>
    cases hform
    exact set_issue h hc hv hnames rfl rfl rfl rfl hchecks rfl
  | setIns o | setDel o | setHas o =>
    cases hform
    have hx : ∀ y ∈ namedX o.x, y.2 < 8 * c.tm.G := hnames
    rw [namedX_eq] at hx
    refine set_issue h hc hv hx rfl rfl rfl rfl hchecks ?_
    rw [← elements_eq]; rfl
  | setEnum o =>
    cases hform
    exact set_issue (i := issueSetEnum o) h hc hv hnames rfl rfl rfl rfl hchecks rfl
  | _ => cases hform
end

section
namespace Sys2Proof.Machine

/-! ### The L1 under an acquire, and translation at issue: the blocks that they leave (R88, R91, R101, R110) -/

theorem dropL1_block (s : State) (k j : Nat) : (s.dropL1 k).block j = s.block j := by
  have drop : ∀ (s : State) i, (s.modCore i fun c => { c with l1 := [] }).block j = s.block j := fun s i =>
    State.block_modCore_keep s i (by intro c; rfl) j
  unfold State.dropL1
  split
  · split
    · exact foldl_keeps (fun s : State => s.block j) _ drop _ s
    · exact drop s k
  · exact drop s k
theorem dropL1_seqNo (s : State) (k : Nat) : (s.dropL1 k).seqNo = s.seqNo := by
  unfold State.dropL1
  split
  · split
    · exact foldl_keeps (fun s : State => s.seqNo) _ (by intro s i; rfl) _ s
    · rfl
  · rfl
theorem afterAcquire_team (c : Ctx) (o : MOrd) (s : State) : (c.afterAcquire o s).team c.k c.t = s.team c.k c.t := by
  unfold Ctx.afterAcquire
  split
  · exact State.team_of_block (dropL1_block s c.k c.k) c.t
  · rfl
theorem afterAcquire_seqNo (c : Ctx) (o : MOrd) (s : State) : (c.afterAcquire o s).seqNo = s.seqNo := by
  unfold Ctx.afterAcquire
  split
  · exact dropL1_seqNo s c.k
  · rfl

theorem fillTeamTlb_block {tm : Team} (hl : tm.lifted = false) (s : State) (k : Nat) (e : TlbEntry) (j : Nat) :
    (s.fillTeamTlb k tm e).block j = s.block j := by
  unfold State.fillTeamTlb
  split
  · next e => rw [hl] at e; cases e
  · exact State.block_modCore_keep s k (by intro c; rfl) j
/-- A translation at issue that ends leaves the blocks. -/
theorem walkNow_block {c : Ctx} (hl : c.tm.lifted = false) {s t : State} {va : Nat} {out : WalkNow} (h : c.walkNow s va = out)
    (ho : (∃ pa, out = .pa pa t) ∨ out = .absent t) (j : Nat) : t.block j = s.block j := by
  have hfill := memoryStep_fillWalk s c.b.asid va
  unfold Ctx.walkNow at h
  split at h
  · subst h
    obtain ⟨pa, e⟩ | e := ho
    · cases e; rfl
    · cases e
  · split at h
    · subst h; obtain ⟨pa, e⟩ | e := ho <;> cases e
    · split at h
      · subst h; obtain ⟨pa, e⟩ | e := ho <;> cases e
      · subst h
        obtain ⟨pa, e⟩ | e := ho
        · cases e
        · cases e; exact hfill.block j
      · next path _ =>
        subst h
        obtain ⟨pa, e⟩ | e := ho
        · cases e
          rw [fillTeamTlb_block hl]
          exact (hfill.trans (memoryStep_setAD _ _ path false)).block j
        · cases e
/-- A load with a residency predicate leaves the blocks as it locates its lanes. -/
theorem locateRp_block {c : Ctx} (hl : c.tm.lifted = false) (cap : Cap) {ps : List (Nat × Int)} {s s1 : State} {acc lanes : List LaneAcc}
    (h : c.locateRp cap ps s acc = .ok lanes s1) (j : Nat) : s1.block j = s.block j := by
  induction ps generalizing s acc with
  | nil => cases h; rfl
  | cons p ps ih =>
    unfold Ctx.locateRp at h
    split at h
    · exact ih h
    · split at h
      · next e => exact (ih h).trans (walkNow_block hl e (.inl ⟨_, rfl⟩) j)
      · next e => exact (ih h).trans (walkNow_block hl e (.inr rfl) j)
      · cases h
      · cases h

/-! ### Loads (R162, R196, R202) -/

/-- A team on its core reaches every address. -/
theorem inReach_core {c : Ctx} (hl : c.tm.lifted = false) (s : State) (lanes : List LaneAcc) : c.inReach s lanes = .ok lanes := by
  have hreach : ∀ l, c.reaches l = true := by
    intro l
    unfold Ctx.reaches
    rw [hl]
    split
    · next e => cases e
    · rfl
  unfold Ctx.inReach
  rw [if_pos (List.all_eq_true.2 fun a _ => by rw [hreach, Bool.or_true])]

theorem startLoad_eq {c : Ctx} (hl : c.tm.lifted = false) (la : BitVec 4) (ord : MOrd) (dests : List RegRef) (kind : PendKind) (s : State) :
    c.startLoad la ord dests kind s
      = ((c.afterAcquire ord s).modTeam c.k c.t fun tm => tm.withPend (c.entry s.seqNo .mem la dests kind)).nextSeq.2 := by
  have hacq : (if (acqScope ord).isSome && !c.tm.lifted then s.dropL1 c.k else s) = c.afterAcquire ord s := by
    rw [hl, Bool.not_false, Bool.and_true]; rfl
  unfold Ctx.startLoad
  rw [hacq, Ctx.pend_entry, afterAcquire_seqNo]

/-- A load without a residency predicate whose lanes are all located. -/
theorem load_ok {c : Ctx} (hl : c.tm.lifted = false) {s : State} {la : BitVec 4} {ord : MOrd} {x : Access} {sx : Bool} {dst : RegRef}
    {bc : List Nat} {lc : Bool} {lanes : List LaneAcc} (hcause : x.cause c.tm = none) (hloc : c.locate s x false = .ok lanes) :
    c.load s la ord x sx dst bc none lc = .done ((c.afterAcquire ord s).modTeam c.k c.t fun tm => tm.withPend
      (c.entry s.seqNo .mem la [dst] (.load (c.markHome s x.n lanes) x.n sx dst bc (acqScope ord) none lc none))).nextSeq.2 := by
  unfold Ctx.load
  rw [checked_one hcause]
  simp only [hloc, startLoad_eq hl]
  rfl
/-- One with a residency predicate, once its lanes are translated and those in the scratchpad present. -/
theorem load_rp_ok {c : Ctx} (hl : c.tm.lifted = false) {s s1 : State} {la : BitVec 4} {ord : MOrd} {x : Access} {sx : Bool} {dst : RegRef}
    {bc : List Nat} {p : PReg} {lc : Bool} {lanes : List LaneAcc} (hcause : x.cause c.tm = none)
    (hloc : c.locateRp (c.tm.creg x.cap).1 x.addrs s [] = .ok lanes s1)
    (hsp : ∀ a ∈ lanes, ∀ k o, a.loc = .sp k o → c.b.present o x.n = true) :
    c.load s la ord x sx dst bc (some p) lc = .done ((c.afterAcquire ord s1).modTeam c.k c.t fun tm => tm.withPend
      (c.entry s1.seqNo .mem la [dst, .p p.toNat]
        (.load (c.markHome s1 x.n lanes) x.n sx dst bc (acqScope ord) (some p.toNat) lc none))).nextSeq.2 := by
  have hall : (lanes.all fun a => match a.loc with | .sp _ o => c.b.present o x.n | .pa _ => true) = true := by
    rw [List.all_eq_true]
    intro a ha
    cases e : a.loc with
    | pa pa => rfl
    | sp k o => exact hsp a ha k o e
  unfold Ctx.load
  rw [checked_one hcause]
  simp only [hloc, inReach_core hl, startLoad_eq hl]
  exact if_pos hall

theorem mayAccess_core {c : Ctx} {i : Instr} (h : c.mayAccess i = true) : c.tm.lift = .core := by
  simp only [Ctx.mayAccess, Ctx.vectorTeam, Ctx.copyTeam, Bool.or_eq_true, Bool.and_eq_true, beq_iff_eq] at h
  obtain ⟨-, hl⟩ | ⟨⟨-, hl⟩, -⟩ := h
  · exact hl
  · exact hl

section
variable {s : State} {c : Ctx} {i : Issue} (h : s.issuer = some c) (hc : c.calm = true) (hl : c.tm.lift = .core)
include h hc hl

/-- An access whose body leaves its team with an outstanding read. -/
theorem access_becomes {s1 : State} {p : Pend} (hr : roleFault c i = false) (hv : ∀ x ∈ i.vregs, x.2 < 8 * c.tm.G)
    (hrec : i.noRecord = false) (hacts : i.perLane = true ∨ c.acts i.g = true)
    (hbody : i.body c (c.lanes i.g) s = .done (s1.modTeam c.k c.t fun tm => tm.withPend p).nextSeq.2)
    (ht : s1.team c.k c.t = some c.tm) : Becomes c (s.issue i) (s1.modTeam c.k c.t fun tm => tm.withPend p) := by
  have hteam : (s1.modTeam c.k c.t fun tm => tm.withPend p).nextSeq.2.team c.k c.t = some (c.tm.withPend p) := by
    change (s1.modTeam c.k c.t _).team c.k c.t = _
    rw [State.modTeam_team_self, ht]; rfl
  have hb := becomes_issue h hc hr hv hrec hbody hteam (Team.frags_withPend _ _) (Team.sigacc_withPend _ _)
    (noLift_of_core ((Team.lift_withPend _ _).trans hl))
  rw [if_pos (by simpa using hacts)] at hb
  exact becomes_nextSeq hb

/-- The issue of a load without a residency predicate. -/
theorem load_issue {la : BitVec 4} {ord : MOrd} {x : Access} {sx : Bool} {dst : RegRef} {bc : List Nat} {lc : Bool} {lanes : List LaneAcc}
    (hr : roleFault c i = false) (hv : ∀ x ∈ i.vregs, x.2 < 8 * c.tm.G) (hrec : i.noRecord = false)
    (hacts : i.perLane = true ∨ c.acts i.g = true) (hbody : i.body c (c.lanes i.g) s = c.load s la ord x sx dst bc none lc)
    (hcause : x.cause c.tm = none) (hloc : c.locate s x false = .ok lanes) :
    Becomes c (s.issue i) ((c.afterAcquire ord s).modTeam c.k c.t fun tm => tm.withPend
      (c.entry s.seqNo .mem la [dst] (.load (c.markHome s x.n lanes) x.n sx dst bc (acqScope ord) none lc none))) :=
  access_becomes h hc hl hr hv hrec hacts (hbody.trans (load_ok (notLifted_of hl) hcause hloc))
    ((afterAcquire_team c ord s).trans (issuer_spec h).2.2.1)

/-- The issue of a load with a residency predicate. -/
theorem load_rp_issue {s1 : State} {la : BitVec 4} {ord : MOrd} {x : Access} {sx : Bool} {dst : RegRef} {bc : List Nat} {p : PReg}
    {lc : Bool} {lanes : List LaneAcc}
    (hr : roleFault c i = false) (hv : ∀ x ∈ i.vregs, x.2 < 8 * c.tm.G) (hrec : i.noRecord = false)
    (hacts : i.perLane = true ∨ c.acts i.g = true) (hbody : i.body c (c.lanes i.g) s = c.load s la ord x sx dst bc (some p) lc)
    (hcause : x.cause c.tm = none) (hloc : c.locateRp (c.tm.creg x.cap).1 x.addrs s [] = .ok lanes s1)
    (hsp : ∀ a ∈ lanes, ∀ k o, a.loc = .sp k o → c.b.present o x.n = true) :
    Becomes c (s.issue i) ((c.afterAcquire ord s1).modTeam c.k c.t fun tm => tm.withPend
      (c.entry s1.seqNo .mem la [dst, .p p.toNat]
        (.load (c.markHome s1 x.n lanes) x.n sx dst bc (acqScope ord) (some p.toNat) lc none))) := by
  have hblock := locateRp_block (notLifted_of hl) _ hloc c.k
  refine access_becomes h hc hl hr hv hrec hacts (hbody.trans (load_rp_ok (notLifted_of hl) hcause hloc hsp)) ?_
  rw [afterAcquire_team, State.team_of_block hblock, (issuer_spec h).2.2.1]

end

/-- A scalar or capability form acts only when its guard holds in the lowest active lane. -/
theorem runs_once {c : Ctx} {g : Guard} {i : Instr} (h : c.runs g i) (h1 : ∀ o, i ≠ .vLd o) (h2 : ∀ o, i ≠ .vLdb o) (h3 : ∀ o, i ≠ .vSt o)
    (h4 : atomForm i = none) : c.acts g = true := by
  obtain ha | ⟨o, e⟩ | ⟨o, e⟩ | ⟨o, e⟩ | e := h
  · exact ha
  · exact absurd e (h1 o)
  · exact absurd e (h2 o)
  · exact absurd e (h3 o)
  · rw [h4] at e; cases e

/-- The widths of `s.ld` (R162). -/
theorem sLd_body (c : Ctx) (s : State) (o : SLd) (E : Mask) {g : Guard} {la : BitVec 4} {ord : MOrd} {x : Mask → Access} {dst : RegRef}
    {bc : Mask → List Nat} {sx lc : Bool} {rp : Option PReg} (h : loadForm c (.sLd o) = some (g, la, ord, x, dst, bc, sx, rp, lc)) :
    (issueSLd o).g = g ∧ (issueSLd o).body c E s = c.load s la ord (x E) sx dst (bc E) rp lc := by
  obtain ⟨g, la, d, cap, idx, disp, scale, ord, w⟩ := o
  cases w <;> cases h <;> exact ⟨rfl, rfl⟩

end Sys2Proof.Machine

open Sys2Proof Sys2Proof.Machine

/-- Settles O22: the body of each form is `Ctx.load` of its row of `loadForm`. -/
theorem loadsIssue : Obligations.LoadsIssue := by
  unfold Obligations.LoadsIssue
  refine ⟨?_, ?_⟩
  · intro s c i g la ord x dst bc sx lc lanes h hc hmay hregs hform hruns hcause hloc
    have hl := mayAccess_core hmay
    have hnames := holds_spec hregs
    cases i with
    | sLd o =>
      obtain ⟨rfl, hbody⟩ := sLd_body c s o (c.lanes g) hform
      have hacts := runs_once hruns (by simp) (by simp) (by simp) rfl
      exact load_issue (i := issueSLd o) h hc hl (roleFault_plain hl rfl rfl rfl rfl) hnames rfl (.inr hacts) hbody hcause hloc
    | cLd o =>
      cases hform
      have hacts := runs_once hruns (by simp) (by simp) (by simp) rfl
      exact load_issue (i := issueCLd o) h hc hl (roleFault_plain hl rfl rfl rfl rfl) hnames rfl (.inr hacts) rfl hcause hloc
    | vLd o =>
      have hv : c.vectorTeam = true := by simpa [Ctx.mayAccess] using hmay
      have hx : ∀ y ∈ named 5 o.d ++ namedX o.idx, y.2 < 8 * c.tm.G := hnames
      rw [namedX_eq] at hx
      obtain ⟨g, la, d, cap, idx, disp, scale, ord, w, rp⟩ := o
      cases hform
      exact load_issue (i := issueVLd _) h hc hl (roleFault_vector hv rfl rfl rfl) hx rfl (.inl rfl) rfl hcause hloc
    | vLdb o =>
      have hv : c.vectorTeam = true := by simpa [Ctx.mayAccess] using hmay
      obtain ⟨g, la, d, cap, idx, disp, scale, ord, w, rp⟩ := o
      cases hform
      exact load_issue (i := issueVLdb _) h hc hl (roleFault_vector hv rfl rfl rfl) hnames rfl (.inl rfl) rfl hcause hloc
    | _ => cases hform
  · intro s s1 c i g la ord x dst bc sx lc p lanes h hc hmay hregs hform hcause hloc hsp
    have hl := mayAccess_core hmay
    have hnames := holds_spec hregs
    cases i with
    | vLd o =>
      have hv : c.vectorTeam = true := by simpa [Ctx.mayAccess] using hmay
      have hx : ∀ y ∈ named 5 o.d ++ namedX o.idx, y.2 < 8 * c.tm.G := hnames
      rw [namedX_eq] at hx
      obtain ⟨g, la, d, cap, idx, disp, scale, ord, w, rp⟩ := o
      cases hform
      exact load_rp_issue (i := issueVLd _) h hc hl (roleFault_vector hv rfl rfl rfl) hx rfl (.inl rfl) rfl hcause hloc hsp
    | vLdb o =>
      have hv : c.vectorTeam = true := by simpa [Ctx.mayAccess] using hmay
      obtain ⟨g, la, d, cap, idx, disp, scale, ord, w, rp⟩ := o
      cases hform
      exact load_rp_issue (i := issueVLdb _) h hc hl (roleFault_vector hv rfl rfl rfl) hnames rfl (.inl rfl) rfl hcause hloc hsp
    | _ => cases hform
end

section
namespace Sys2Proof.Machine

/-! ### Stores and atomics enter the store buffer (R49, R109, R197 to R199) -/

/-- Two changes of one team are one. -/
theorem quiet_modTeam_twice (s : State) (k t : Nat) (f g : Team → Team) :
    Quiet (s.modTeam k t fun tm => g (f tm)) ((s.modTeam k t f).modTeam k t g) := by
  have two := (frame_modTeam s k t f).trans (frame_modTeam (s.modTeam k t f) k t g)
  have one := frame_modTeam s k t fun tm => g (f tm)
  refine ⟨two.rest.trans one.rest.symm, fun j => (two.cores j).trans (one.cores j).symm, fun j => (two.blocks j).trans (one.blocks j).symm,
    fun j m => ?_⟩
  by_cases e : (j, m) = (k, t)
  · cases e
    simp only [State.stillAt, State.modTeam_team_self, Option.map_map]
    rfl
  · exact (two.others j m e).trans (one.others j m e).symm

/-- What a fragment is for the rewritings of R40 to R44, which a store leaves as it notes that the fragment no longer spins. -/
theorem moved_unspin {s s1 : State} {c : Ctx} {i : Issue} {tm : Team} {pc : Nat} (h : s.issuer = some c) (ht : s1.team c.k c.t = some tm)
    (hf : tm.frags = c.tm.frags) (hg : tm.sigacc = c.tm.sigacc) (hr : i.noRecord = false) : Moved c (c.goOn i pc (c.unspin s1)) pc := by
  intro ha hb
  obtain ⟨h1, h2, h3, h4, h5, h6⟩ := alone_parts h hb ha
  have hteam : (c.unspin s1).team c.k c.t = some (tm.modFrag c.csn fun f => { f with spin := false, storeAt := s1.seqNo }) := by
    rw [Ctx.unspin, State.modFrag, State.modTeam_team_self, ht]; rfl
  have hfrags : (tm.modFrag c.csn fun f => { f with spin := false, storeAt := s1.seqNo }).frags
      = [{ c.f with spin := false, storeAt := s1.seqNo }] := by
    rw [Team.modFrag, hf, h1, List.map_singleton, if_pos h2]
  obtain ⟨tm', e1, e2, e3⟩ := goOn_alone (pc := pc) hteam hfrags h2 h3 h4 h5 h1 h6 hr
  refine ⟨?_, ?_⟩
  · simp only [State.pcAt, State.fragAt, e1, Option.bind_some, Team.frag, e2, List.find?_cons, h2, beq_self_eq_true, Option.map_some]
  · rw [e1, Option.map_some, e3]
    exact congrArg some (congrArg (crcBytes 8 (issueRecord c.word c.f.mask)) hg)

/-- A body that has put lanes into the store buffer. -/
theorem becomes_unspin {s s1 : State} {c : Ctx} {i : Issue} {tm : Team} {out : Res} (h : s.issuer = some c)
    (hi : out = .next (c.goOn i (c.f.pc + c.len) (c.unspin s1))) (ht : s1.team c.k c.t = some tm) (hf : tm.frags = c.tm.frags)
    (hg : tm.sigacc = c.tm.sigacc) (hr : i.noRecord = false) (hn : tm.noLift) : Becomes c out s1 := by
  have hq : Quiet s1 (c.unspin s1) := quiet_modFrag s1 c.k c.t c.csn _
  have hlift : ∀ tm', (c.unspin s1).team c.k c.t = some tm' → tm'.noLift := by
    intro tm' e
    rw [Ctx.unspin, State.modFrag, State.modTeam_team_self, ht] at e
    cases e; exact hn
  exact ⟨_, hi, hq.trans (quiet_goOn c i _ _ hlift), moved_unspin h ht hf hg hr⟩

/-- The team once stores or atomics stand last in its buffer. -/
def Team.withStores (tm : Team) (reqs : List StReq) : Team := { tm with stb := tm.stb ++ reqs }
/-- The lanes of an atomic as they enter the store buffer (R198, R199). -/
def Ctx.atomReqs (c : Ctx) (o : VAtom) (func seq : Nat) (lanes : List LaneAcc) : List StReq :=
  lanes.map fun a =>
    { seq, team := c.t, csn := c.csn, loc := a.loc, bytes := List.replicate (atN o.ty) 0, tag := false
      atom := some { func, ty := o.ty, data := (c.tm.vreg o.data.toNat a.lane).toNat % 2 ^ (8 * atN o.ty)
                     cmp := (c.tm.vreg o.d.toNat a.lane).toNat % 2 ^ (8 * atN o.ty), dest := o.d.toNat, lane := a.lane
                     addr := a.addr, id := seq }
      rel := relScope o.ord }

/-- A body that has put lanes into the store buffer of a state in which its team stands as tm. -/
theorem becomes_stores {s s1 : State} {c : Ctx} {i : Issue} {tm : Team} {reqs : List StReq} {out : Res} (h : s.issuer = some c)
    (hi : out = .next (c.goOn i (c.f.pc + c.len) (c.unspin (s1.modTeam c.k c.t fun tm => tm.withStores reqs))))
    (ht : s1.team c.k c.t = some tm) (hf : tm.frags = c.tm.frags) (hg : tm.sigacc = c.tm.sigacc) (hl : tm.lift = .core)
    (hr : i.noRecord = false) : Becomes c out (s1.modTeam c.k c.t fun tm => tm.withStores reqs) :=
  becomes_unspin (tm := tm.withStores reqs) h hi (by rw [State.modTeam_team_self, ht]; rfl) hf hg hr (noLift_of_core hl)

theorem State.nextSeq_team (s : State) (k t : Nat) : s.nextSeq.2.team k t = s.team k t := rfl
/-- One whose old values are outstanding too. -/
theorem becomes_pend_stores {s s1 : State} {c : Ctx} {i : Issue} {p : Pend} {reqs : List StReq} {out : Res} (h : s.issuer = some c)
    (hi : out = .next (c.goOn i (c.f.pc + c.len) (c.unspin ((s1.modTeam c.k c.t fun tm => tm.withPend p).nextSeq.2.modTeam c.k c.t fun tm =>
      tm.withStores reqs)))) (ht : s1.team c.k c.t = some c.tm) (hl : c.tm.lift = .core) (hr : i.noRecord = false) :
    Becomes c out (s1.modTeam c.k c.t fun tm => (tm.withPend p).withStores reqs) := by
  have hteam : (s1.modTeam c.k c.t fun tm => tm.withPend p).nextSeq.2.team c.k c.t = some (c.tm.withPend p) := by
    rw [State.nextSeq_team, State.modTeam_team_self, ht]; rfl
  have hb := becomes_stores h hi hteam (Team.frags_withPend _ _) (Team.sigacc_withPend _ _) ((Team.lift_withPend _ _).trans hl) hr
  obtain ⟨t, ho, hq, hm⟩ := becomes_nextSeq
    (s1 := (s1.modTeam c.k c.t fun tm => tm.withPend p).modTeam c.k c.t fun tm => tm.withStores reqs) hb
  exact ⟨t, ho, (quiet_modTeam_twice _ _ _ _ _).trans hq, hm⟩

section
variable {s : State} {c : Ctx} {i : Issue} (h : s.issuer = some c) (hc : c.calm = true) (hl : c.tm.lift = .core)
include h hc hl

/-- The issue of a store whose lanes are all located. -/
theorem store_issue {ord : MOrd} {x : Access} {data : Nat → Nat} {tag : Bool} {lanes : List LaneAcc}
    (hr : roleFault c i = false) (hv : ∀ x ∈ i.vregs, x.2 < 8 * c.tm.G) (hrec : i.noRecord = false)
    (hacts : i.perLane = true ∨ c.acts i.g = true) (hbody : i.body c (c.lanes i.g) s = c.store s ord x data tag)
    (hcause : x.cause c.tm = none) (hloc : c.locate s x true = .ok lanes) :
    Becomes c (s.issue i) (s.modTeam c.k c.t fun tm => tm.withStores (lanes.map fun a =>
      { seq := s.seqNo, team := c.t, csn := c.csn, loc := a.loc, bytes := bytesOf x.n (data a.lane), tag, atom := none
        rel := relScope ord })) := by
  rw [issue_calm h hc hr hv, if_pos (by simpa using hacts), hbody, Ctx.store, checked_one hcause]
  simp only [hloc]
  exact becomes_nextSeq (becomes_stores (s1 := s.nextSeq.2) h rfl (issuer_spec h).2.2.1 rfl rfl hl hrec)

omit h hc hl in
/-- The body of an atomic whose lanes are all located. -/
theorem atom_ok {o : VAtom} {func : Nat} {lanes : List LaneAcc} (hcause : (atomAccess c o (c.lanes o.g)).cause c.tm = none)
    (hloc : c.locate s (atomAccess c o (c.lanes o.g)) true = .ok lanes) :
    (atomIssue o func).body c (c.lanes o.g) s = .done (c.unspin (((c.afterAcquire o.ord s).modTeam c.k c.t fun tm =>
      tm.withPend (c.entry s.seqNo .mem o.la [.v o.d.toNat] (.atom lanes.length (acqScope o.ord).isSome false []))).nextSeq.2.modTeam
        c.k c.t fun tm => tm.withStores (c.atomReqs o func s.seqNo lanes))) := by
  have hbits : ∀ x n : Nat, bits x 0 n = x % 2 ^ n := fun x n => by rw [bits, Nat.pow_zero, Nat.div_one]
  have hzero : (upto 0 (atN o.ty)).map (fun _ => (0 : Byte)) = List.replicate (atN o.ty) 0 := by
    rw [List.map_const', length_upto]
  change checked c.tm [atomAccess c o (c.lanes o.g)] _ = _
  rw [checked_one hcause]
  split
  · next e => cases hloc.symm.trans e
  · next e =>
    cases hloc.symm.trans e
    simp only [hbits, hzero, Ctx.pend_entry]
    rw [← afterAcquire_seqNo c o.ord s]
    rfl

/-- The issue of an atomic whose lanes are all located. -/
theorem atom_issue {o : VAtom} {func : Nat} {lanes : List LaneAcc} (hr : roleFault c (atomIssue o func) = false)
    (hv : ∀ x ∈ (atomIssue o func).vregs, x.2 < 8 * c.tm.G) (hcause : (atomAccess c o (c.lanes o.g)).cause c.tm = none)
    (hloc : c.locate s (atomAccess c o (c.lanes o.g)) true = .ok lanes) :
    Becomes c (s.issue (atomIssue o func)) ((c.afterAcquire o.ord s).modTeam c.k c.t fun tm =>
      (tm.withPend (c.entry s.seqNo .mem o.la [.v o.d.toNat] (.atom lanes.length (acqScope o.ord).isSome false []))).withStores
        (c.atomReqs o func s.seqNo lanes)) := by
  exact becomes_pend_stores h
    ((lanes_issue h hc hr rfl hv).trans (congrArg (c.finish (atomIssue o func) s) (atom_ok hcause hloc)))
    ((afterAcquire_team c o.ord s).trans (issuer_spec h).2.2.1) hl rfl

end

theorem atomForm_spec {i : Instr} {o : VAtom} {func : Nat} (h : atomForm i = some (o, func)) :
    (∀ s, exec i s = s.issue (atomIssue o func)) ∧ vectorNames i = named 5 o.d ++ namedX o.idx ++ named 8 o.data := by
  cases i with
  | vAtomAdd o' | vAtomMin o' | vAtomMax o' | vAtomAnd o' | vAtomOr o' | vAtomXor o' | vAtomXchg o' | vAtomCas o' | vAtomFadd o' =>
    cases h; exact ⟨fun _ => rfl, rfl⟩
  | _ => cases h

end Sys2Proof.Machine

open Sys2Proof Sys2Proof.Machine

/-- Settles O23: the body of each store is `Ctx.store` of its row of `storeForm`, and every atomic is `atomIssue` of its function. -/
theorem storesAndAtomicsIssue : Obligations.StoresAndAtomicsIssue := by
  unfold Obligations.StoresAndAtomicsIssue
  refine ⟨?_, ?_⟩
  · intro s c i g ord x data tag lanes h hc hmay hregs hform hruns hcause hloc
    have hl := mayAccess_core hmay
    have hnames := holds_spec hregs
    cases i with
    | sSt o =>
      cases hform
      have hacts := runs_once hruns (by simp) (by simp) (by simp) rfl
      exact store_issue (i := issueSSt o) (x := onceAccess c o.cap permWR (mwN o.w) o.idx o.disp o.scale)
        (data := fun _ => (c.tm.sreg o.d.toNat).toNat) h hc hl (roleFault_plain hl rfl rfl rfl rfl) hnames rfl (.inr hacts) rfl hcause hloc
    | cSt o =>
      cases hform
      have hacts := runs_once hruns (by simp) (by simp) (by simp) rfl
      exact store_issue (i := issueCSt o) (x := onceAccess c o.cap permWR 16 o.idx o.disp o.scale)
        (data := fun _ => (c.tm.creg o.d.toNat).1.toNat) h hc hl (roleFault_plain hl rfl rfl rfl rfl) hnames rfl (.inr hacts) rfl hcause hloc
    | vSt o =>
      have hv : c.vectorTeam = true := by simpa [Ctx.mayAccess] using hmay
      have hx : ∀ y ∈ named 5 o.d ++ namedX o.idx, y.2 < 8 * c.tm.G := hnames
      rw [namedX_eq] at hx
      cases hform
      exact store_issue (i := issueVSt o)
        (x := laneAccess c o.cap permWR (mwN o.w) (c.srcVI o.idx) o.disp o.scale (lanesOf c.tm.L (c.lanes o.g)))
        (data := fun l => (c.tm.vreg o.d.toNat l).toNat) h hc hl (roleFault_vector hv rfl rfl rfl) hx rfl (.inl rfl) rfl hcause hloc
    | _ => cases hform
  · intro s c i o func lanes h hc hv hregs hform n x hcause hloc
    have hl := (vectorTeam_spec hv).2
    obtain ⟨hexec, hnames⟩ := atomForm_spec hform
    have hregs := holds_spec hregs
    rw [hnames, namedX_eq] at hregs
    rw [hexec]
    exact atom_issue h hc hl (roleFault_vector hv rfl rfl rfl) hregs hcause hloc
end

section
namespace Sys2Proof.Machine

/-! ### What a team keeps of its registers (R54, R174) -/

theorem AMap.find?_filter {β : Type} (m : AMap β) (q : Nat → Bool) (k : Nat) :
    AMap.find? (List.filter (fun x => q x.1) m : AMap β) k = if q k then AMap.find? m k else none := by
  induction m with
  | nil => simp
  | cons x m ih =>
    obtain ⟨j, v⟩ := x
    by_cases hj : j = k
    · subst hj
      cases hq : q j with
      | false => rw [List.filter_cons_of_neg (by simp [hq]), ih, hq, if_neg (by simp), if_neg (by simp)]
      | true => rw [List.filter_cons_of_pos (by simp [hq]), if_pos rfl, AMap.find?, AMap.find?, if_pos rfl, if_pos rfl]
    · have skip : AMap.find? ((j, v) :: m) k = AMap.find? m k := by rw [AMap.find?, if_neg hj]
      rw [skip, ← ih]
      cases hq : q j with
      | false => rw [List.filter_cons_of_neg (by simp [hq])]
      | true => rw [List.filter_cons_of_pos (by simp [hq]), AMap.find?, if_neg hj]

theorem shrinkTo_vreg (tm : Team) (G r : Nat) {l : Nat} (hl : l < 1024) :
    (tm.shrinkTo G).vreg r l = if r < 8 * G then tm.vreg r l else 0 := by
  have hkeep : decide (r * 1024 + l < 8 * G * 1024) = decide (r < 8 * G) := by
    rw [decide_eq_decide]; omega
  unfold Team.vreg Team.shrinkTo AMap.get
  simp only
  rw [AMap.find?_filter tm.v (fun i => decide (i < 8 * G * 1024)), hkeep]
  by_cases hr : r < 8 * G
  · rw [decide_eq_true hr, if_pos rfl, if_pos hr]
  · rw [decide_eq_false hr, if_neg Bool.false_ne_true, if_neg hr]; rfl

/-! ### The bytes of a pool (R54, R165) -/

/-- The bytes that the teams of partition p hold. -/
def poolLoad (m : AMap Team) (p : Nat) : Nat := (List.map (fun x => x.2.poolBytes) (List.filter (fun x => x.1 % 4 == p) m)).sum
theorem Block.pool_eq (b : Block) (p : Nat) : b.pool p = Config.poolBytes - poolLoad b.teams p := by
  unfold Block.pool poolLoad
  rw [List.sum_eq_foldl, List.foldl_map]

theorem poolLoad_cons (j : Nat) (v : Team) (m : AMap Team) (p : Nat) :
    poolLoad ((j, v) :: m) p = (if j % 4 = p then v.poolBytes else 0) + poolLoad m p := by
  unfold poolLoad
  by_cases h : j % 4 = p
  · rw [List.filter_cons_of_pos (by simpa using h), if_pos h, List.map_cons, List.sum_cons]
  · rw [List.filter_cons_of_neg (by simpa using h), if_neg h, Nat.zero_add]
theorem poolLoad_place (m : AMap Team) (k : Nat) (v : Team) (p : Nat) :
    poolLoad (AMap.place m k v) p = (if k % 4 = p then v.poolBytes else 0) + poolLoad m p := by
  induction m with
  | nil => exact poolLoad_cons k v [] p
  | cons x m ih =>
    obtain ⟨j, w⟩ := x
    unfold AMap.place
    split
    · exact poolLoad_cons k v _ p
    · rw [poolLoad_cons, ih, poolLoad_cons]; omega
theorem poolLoad_put (m : AMap Team) (k : Nat) (v : Team) (p : Nat) :
    poolLoad (AMap.put m k v) p = (if k % 4 = p then v.poolBytes else 0) + poolLoad (AMap.erase m k) p := poolLoad_place _ k v p
theorem poolLoad_erase {m : AMap Team} {k : Nat} {v : Team} (h : AMap.find? m k = some v) (p : Nat) :
    (if k % 4 = p then v.poolBytes else 0) + poolLoad (AMap.erase m k) p ≤ poolLoad m p := by
  have rest : ∀ (l : AMap Team), poolLoad (AMap.erase l k) p ≤ poolLoad l p := by
    intro l
    induction l with
    | nil => exact Nat.le_refl _
    | cons x l ih =>
      obtain ⟨j, w⟩ := x
      unfold AMap.erase
      split
      · rw [poolLoad_cons]; omega
      · rw [poolLoad_cons, poolLoad_cons]; omega
  induction m with
  | nil => cases h
  | cons x m ih =>
    obtain ⟨j, w⟩ := x
    rw [poolLoad_cons]
    unfold AMap.find? at h
    unfold AMap.erase
    split at h
    · next e =>
      cases h; subst e
      rw [if_pos rfl]
      exact Nat.add_le_add_left (rest m) _
    · next e =>
      rw [if_neg e, poolLoad_cons]
      have := ih h
      omega
/-- A change of one team that leaves it no more bytes. -/
theorem poolLoad_modify_le {m : AMap Team} {k : Nat} {f : Team → Team}
    (hf : ∀ v, AMap.find? m k = some v → (f v).poolBytes ≤ v.poolBytes) (p : Nat) : poolLoad (AMap.modify m k f) p ≤ poolLoad m p := by
  unfold AMap.modify
  split
  · next v hv =>
    rw [poolLoad_put]
    refine Nat.le_trans (Nat.add_le_add_right ?_ _) (poolLoad_erase hv p)
    split
    · exact hf v hv
    · exact Nat.le_refl _
  · exact Nat.le_refl _
theorem poolLoad_map {m : AMap Team} {f : Nat → Team → Team} (hf : ∀ n tm, (f n tm).poolBytes = tm.poolBytes) (p : Nat) :
    poolLoad (m.map fun x => (x.1, f x.1 x.2)) p = poolLoad m p := by
  induction m with
  | nil => rfl
  | cons x m ih =>
    obtain ⟨j, v⟩ := x
    rw [List.map_cons, poolLoad_cons, ih, poolLoad_cons, hf]

/-- The bytes that the teams of partition p of core k hold. -/
def State.loadAt (s : State) (k p : Nat) : Nat := (s.block k).elim 0 fun b => poolLoad b.teams p

theorem State.loadAt_of_block {s t : State} {k : Nat} (h : t.block k = s.block k) (p : Nat) : t.loadAt k p = s.loadAt k p := by
  unfold State.loadAt; rw [h]
theorem State.loadAt_modBlock_le (s : State) (k : Nat) {f : Block → Block} (p : Nat)
    (hf : ∀ b, s.block k = some b → poolLoad (f b).teams p ≤ poolLoad b.teams p) (j : Nat) :
    (s.modBlock k f).loadAt j p ≤ s.loadAt j p := by
  unfold State.loadAt
  by_cases h : k = j
  · subst h
    rw [State.modBlock_block_self]
    cases hb : s.block k with
    | none => exact Nat.le_refl _
    | some b => exact hf b hb
  · rw [State.modBlock_block_ne _ _ h]
theorem State.loadAt_modTeam_le (s : State) (k t : Nat) {f : Team → Team}
    (hf : ∀ tm, s.team k t = some tm → (f tm).poolBytes ≤ tm.poolBytes) (j p : Nat) : (s.modTeam k t f).loadAt j p ≤ s.loadAt j p :=
  State.loadAt_modBlock_le s k p (fun b hb => poolLoad_modify_le (fun v hv => hf v (by rw [State.team, hb]; exact hv)) p) j

/-! ### The bytes of a team under the book-keeping of an issue -/

/-- The bytes that a team holds follow from its registers, its counters and whether it has finished. -/
theorem Team.poolBytes_of {tm tm' : Team} (h : tm'.still = tm.still) (hf : tm.finished = true → tm'.finished = true) :
    tm'.poolBytes ≤ tm.poolBytes := by
  have hmem : tm'.memcnt = tm.memcnt := (congrArg Team.memcnt h :)
  have hset : tm'.setcnt = tm.setcnt := (congrArg Team.setcnt h :)
  have harr : tm'.arrcnt = tm.arrcnt := (congrArg Team.arrcnt h :)
  have hbank : tm'.bankcnt = tm.bankcnt := (congrArg Team.bankcnt h :)
  have hL : tm'.L = tm.L := (congrArg Team.L h :)
  have hG : tm'.G = tm.G := (congrArg Team.G h :)
  unfold Team.poolBytes
  rw [hmem, hset, harr, hbank, hL, hG]
  cases hfin : tm.finished with
  | false =>
    rw [Bool.false_and, if_neg Bool.false_ne_true]
    split
    · exact Nat.zero_le _
    · exact Nat.le_refl _
  | true => rw [hf hfin]
theorem Team.finished_settleStep {tm : Team} {x : Team × Bool} (h : tm.settleStep = some x) : x.1.finished = tm.finished := by
  unfold Team.settleStep at h
  split at h
  · cases h; rfl
  · split at h
    · cases h; rfl
    · split at h
      · cases h; rfl
      · obtain ⟨p, -, hp⟩ := List.exists_of_findSome?_eq_some h
        simp only at hp
        repeat' split at hp
        all_goals cases hp
        all_goals rfl
theorem Team.finished_settle (n : Nat) (tm : Team) : (Team.settle n tm).finished = tm.finished := by
  induction n generalizing tm with
  | zero => rfl
  | succ n ih =>
    unfold Team.settle
    cases h : tm.settleStep with
    | none => rfl
    | some x =>
      obtain ⟨tm', fused⟩ := x
      have hstep := Team.finished_settleStep h
      simp only
      rw [ih]
      split
      · split
        · exact hstep
        · exact hstep
      · exact hstep
theorem Team.finished_noteIssue (c : Ctx) (y : Bool) {tm : Team} (h : tm.noLift) : (Team.noteIssue c y tm).finished = tm.finished := by
  have hwatch : (Team.noteWatch c y tm).finished = tm.finished := by unfold Team.noteWatch; split <;> rfl
  have hnoLift : (Team.noteWatch c y tm).noLift := by
    unfold Team.noLift Team.lifted at h ⊢
    rw [Team.pend_noteWatch, Team.lifted_noteWatch]; exact h
  rw [Team.noteIssue, Team.noteLift_of _ hnoLift]
  exact hwatch
theorem Team.finished_noteEnd (c : Ctx) (i : Issue) (tm : Team) : (Team.noteRecord c i (Team.noteWrites c i tm)).finished = tm.finished := by
  have hwrites : (Team.noteWrites c i tm).finished = tm.finished := by unfold Team.noteWrites; dsimp only; split <;> rfl
  unfold Team.noteRecord
  rw [apply_ite Team.finished]
  exact (ite_self _).trans hwrites

end Sys2Proof.Machine
end

section
namespace Sys2Proof.Machine

/-! ### A partition under an instruction that goes on -/

theorem Ctx.loadAt_goOn_le (c : Ctx) (i : Issue) (pc : Nat) {s : State} (h : ∀ tm, s.team c.k c.t = some tm → tm.noLift) (j p : Nat) :
    (c.goOn i pc s).loadAt j p ≤ s.loadAt j p := by
  have issue : (s.noteIssue c i).loadAt j p ≤ s.loadAt j p := by
    have last : ∀ u : State, (u.noteLast c).loadAt j p ≤ u.loadAt j p := by
      intro u
      unfold State.noteLast
      split
      · exact (State.loadAt_of_block rfl p).le
      · exact State.loadAt_modBlock_le u c.k p (by intro b _; exact Nat.le_refl _) j
    have tag : ∀ u : State, (u.tagIssue c (!i.writes.isEmpty) false).loadAt j p = u.loadAt j p := by
      intro u
      unfold State.tagIssue State.modSampler
      split
      · exact State.loadAt_of_block rfl p
      · exact State.loadAt_of_block (State.block_modCore_keep _ _ (by intro x; rfl) j) p
    refine (last _).trans ((tag _).le.trans (State.loadAt_modTeam_le s c.k c.t (fun tm ht => ?_) j p))
    exact Team.poolBytes_of (Team.still_noteIssue c _ tm (h tm ht)) fun e => (Team.finished_noteIssue c _ (h tm ht)).trans e
  have noted : (c.noted i s).loadAt j p ≤ s.loadAt j p := by
    unfold Ctx.noted Ctx.unyield
    refine (State.loadAt_modBlock_le _ c.k p (fun b _ => ?_) j).trans ((State.loadAt_modTeam_le _ c.k c.t (fun tm _ => ?_) j p).trans ?_)
    · refine (poolLoad_map (f := fun n tm => if n % 4 = c.t % 4 then tm.unyield (i.yields && n == c.t) c.csn else tm) ?_ p).le
      intro n tm
      split <;> rfl
    · exact Team.poolBytes_of ((Team.still_noteRecord c i _).trans (Team.still_noteWrites c i tm))
        fun e => (Team.finished_noteEnd c i tm).trans e
    · split
      · exact issue
      · exact Nat.le_refl _
  refine Nat.le_trans ?_ noted
  refine Nat.le_trans (State.loadAt_modBlock_le _ c.k p ?_ j) (State.loadAt_modTeam_le (c.noted i s) c.k c.t (by intro tm _; exact Nat.le_refl _) j p)
  intro b _
  refine poolLoad_modify_le (m := b.teams) (fun tm _ => ?_) p
  refine Team.poolBytes_of (Team.still_settle (2 * tm.frags.length + 2) tm) fun e => ?_
  simp only [Team.finished_settle, e, Bool.true_or]

/-- Another team of the partition that has not just yielded; other partitions stay. -/
theorem Ctx.team_goOn_ne (c : Ctx) (i : Issue) (pc : Nat) (s : State) {m : Nat} (hm : m ≠ c.t) :
    (c.goOn i pc s).team c.k m = (s.team c.k m).map fun tm => if m % 4 = c.t % 4 then tm.unyield false c.csn else tm := by
  have hne : ∀ u : State, ∀ f, (u.modTeam c.k c.t f).team c.k m = u.team c.k m := fun u f =>
    State.modTeam_team_ne _ _ (by simpa using fun e => hm e.symm)
  have hyield : ∀ u : State, (c.unyield i.yields u).team c.k m
      = (u.team c.k m).map fun tm => if m % 4 = c.t % 4 then tm.unyield false c.csn else tm := by
    intro u
    unfold Ctx.unyield State.team
    rw [State.modBlock_block_self]
    cases u.block c.k with
    | none => rfl
    | some b =>
      simp only [Option.map_some, Option.bind_some]
      rw [AMap.find?_map b.teams fun n (tm : Team) => if n % 4 = c.t % 4 then tm.unyield (i.yields && n == c.t) c.csn else tm]
      rw [beq_eq_false_iff_ne.2 hm, Bool.and_false]
  have hissue : (s.noteIssue c i).team c.k m = s.team c.k m := by
    rw [State.noteIssue, State.team_noteLast, State.team_tagIssue, hne]
  unfold Ctx.goOn State.advance State.modFrag Ctx.noted
  rw [State.team_settle, hne, hne, hyield, hne, apply_ite (fun u => State.team u c.k m), hissue, ite_self]

/-- No rewriting applies to a fragment alone. -/
theorem team_settle_alone {s : State} {k t : Nat} {tm : Team} {f : Frag} (ht : s.team k t = some tm) (hf : tm.frags = [f])
    (hm : f.mask ≠ 0) (hl : f.linkv = false) (hh : f.hollow = false) : (s.settle k t).team k t = some tm := by
  have hfin : (tm.finished || (tm.frags.isEmpty && tm.lift == .core)) = tm.finished := by
    rw [hf, List.isEmpty_cons, Bool.false_and, Bool.or_false]
  rw [State.team_settle, State.modTeam_team_self, ht, Option.map_some]
  dsimp only
  rw [Team.settle_alone hf hm hl hh, hfin]
theorem team_settle_ne (s : State) {k t j m : Nat} (h : (j, m) ≠ (k, t)) : (s.settle k t).team j m = s.team j m := by
  rw [State.team_settle, State.modTeam_team_ne _ _ (Ne.symm h)]

/-! ### A grant (R54, R174) -/

/-- The team to which n granules are granted while its one fragment waits in `grow`. -/
def Team.grown (tm : Team) (csn n : Nat) : Team :=
  { tm with G := tm.G + n }.modFrag csn fun f => { f with pc := f.pc + 8, hold := .none }
/-- The block once the head of its queue has been granted. -/
def Block.granted (b : Block) (p t csn n : Nat) (rest : List (Nat × Nat × Nat)) (tm : Team) : Block :=
  { b.modPart p (fun q => { q with grants := rest }) with teams := AMap.put b.teams t (tm.grown csn n) }

theorem Block.grantOne_grow {b : Block} {p t csn n : Nat} {rest : List (Nat × Nat × Nat)} {tm : Team} {f : Frag}
    (hg : (b.part p).grants = (t, csn, n) :: rest) (ht : AMap.find? b.teams t = some tm) (hh : tm.halted = false) (hf : tm.frags = [f])
    (hcsn : f.csn = csn) (hhold : f.hold = .grow) (hpool : 64 * tm.L * n ≤ b.pool p) :
    b.grantOne p = some (b.granted p t csn n rest tm, t, csn) := by
  have hfrag : tm.frag csn = some f := by simp [Team.frag, hf, hcsn]
  have hfrag' : ({ tm with G := tm.G + n } : Team).frag csn = some f := hfrag
  unfold Block.grantOne
  simp only [hg, ht]
  rw [if_pos (by rw [hh, decide_eq_true hpool]; rfl)]
  simp only [hfrag', hhold]
  rfl

/-- The state once it has been granted: the fragment goes on after its `grow`, and no other team changes. -/
theorem granted_state {s : State} {k p t csn n : Nat} {rest : List (Nat × Nat × Nat)} {b : Block} {tm : Team} {f : Frag}
    (hb : s.block k = some b) (hf : tm.frags = [f]) (hcsn : f.csn = csn) (hm : f.mask ≠ 0) (hl : f.linkv = false) (hh : f.hollow = false) :
    let u := (s.modBlock k fun _ => b.granted p t csn n rest tm).settle k t
    u.team k t = some (tm.grown csn n) ∧ u.grantsAt k p = some rest ∧ ∀ j m, (j, m) ≠ (k, t) → u.team j m = s.team j m := by
  intro u
  have hblock : (s.modBlock k fun _ => b.granted p t csn n rest tm).block k = some (b.granted p t csn n rest tm) := by
    rw [State.modBlock_block_self, hb]; rfl
  have hfrags : (tm.grown csn n).frags = [{ f with pc := f.pc + 8, hold := .none }] := by
    simp only [Team.grown, Team.modFrag, hf, List.map_cons, List.map_nil, hcsn, if_true]
  refine ⟨?_, ?_, fun j m hne => ?_⟩
  · have hteam : (s.modBlock k fun _ => b.granted p t csn n rest tm).team k t = some (tm.grown csn n) := by
      rw [State.team, hblock]; exact AMap.find?_put_self _ _ _
    exact team_settle_alone hteam hfrags hm hl hh
  · rw [State.grantsAt_settle, State.grantsAt, hblock, Option.map_some]
    refine congrArg some ?_
    change (AMap.get Part.init (AMap.set Part.init b.parts p _) p).grants = rest
    rw [AMap.get_set_self]
  · rw [team_settle_ne _ hne]
    by_cases hk : j = k
    · subst hk
      have hmt : t ≠ m := fun e => hne (by rw [e])
      rw [State.team, hblock, State.team, hb]
      exact AMap.find?_put_ne _ _ hmt
    · rw [State.team, State.modBlock_block_ne _ _ (Ne.symm hk)]; rfl

end Sys2Proof.Machine
end

section
namespace Sys2Proof.Machine

/-! ### An instruction that ends where it stands, or holds its fragment (R8 Park) -/

theorem quiet_noted (c : Ctx) (i : Issue) {s : State} (h : ∀ tm, s.team c.k c.t = some tm → tm.noLift) : Quiet s (c.noted i s) := by
  unfold Ctx.noted
  refine Quiet.trans (Quiet.trans (t := if c.f.hold == .none then s.noteIssue c i else s) ?_
    (quiet_modTeam _ _ _ fun tm _ => by rw [Team.still_noteRecord, Team.still_noteWrites])) (quiet_unyield _ _ _)
  split
  · exact quiet_noteIssue s c i h
  · exact Quiet.refl s
/-- The book-keeping leaves a team's fragments but for the mark of `yield` (R50). -/
theorem noted_team {s : State} {c : Ctx} (i : Issue) {tm : Team} (ht : s.team c.k c.t = some tm) :
    ∃ tm', (c.noted i s).team c.k c.t = some tm'
      ∧ tm'.frags = tm.frags.map fun f => { f with yielded := i.yields && f.csn == c.csn } := by
  have end_ : ∀ u : Team, (Team.noteRecord c i (Team.noteWrites c i u)).frags = u.frags := by
    intro u
    unfold Team.noteRecord
    rw [apply_ite Team.frags]
    exact (ite_self _).trans (Team.noteWrites_keeps c i u).1
  unfold Ctx.noted
  rw [State.team_unyield, State.modTeam_team_self]
  split
  · rw [State.team_noteIssue, ht]
    refine ⟨_, rfl, ?_⟩
    simp only [Team.unyield, end_, (Team.noteIssue_keeps c _ tm).1]
  · rw [ht]
    refine ⟨_, rfl, ?_⟩
    simp only [Team.unyield, end_]

theorem Team.frag_modFrag {tm : Team} {n : Nat} {g : Frag → Frag} (hg : ∀ f, (g f).csn = f.csn) :
    (tm.modFrag n g).frag n = (tm.frag n).map g := by
  unfold Team.modFrag Team.frag
  induction tm.frags with
  | nil => rfl
  | cons f fs ih =>
    rw [List.map_cons, List.find?_cons, List.find?_cons]
    by_cases e : f.csn = n
    · rw [if_pos e, hg, beq_iff_eq.2 e]; rfl
    · rw [if_neg e, beq_eq_false_iff_ne.2 e]
      exact ih
/-- Its fragment holds as it is told. -/
theorem parks_hand {s1 : State} {c : Ctx} {i : Issue} {tm : Team} {f : Frag} {hd : Hold} {out : Res}
    (hi : out = .next ((c.noted i s1).modFrag c.k c.t c.csn fun f => { f with hold := hd })) (ht : s1.team c.k c.t = some tm)
    (hf : tm.frag c.csn = some f) (hn : tm.noLift) : Parks s1 c out hd := by
  obtain ⟨tm', ht', hfrags⟩ := noted_team i ht
  have hfrag : tm'.frag c.csn = some { f with yielded := i.yields && f.csn == c.csn } := by
    unfold Team.frag at hf ⊢
    rw [hfrags, List.find?_map]
    exact congrArg (Option.map _) hf
  have hq : Quiet s1 (c.noted i s1) := quiet_noted c i fun tm'' e => by rw [ht] at e; cases e; exact hn
  refine ⟨_, hi, hq.trans (quiet_modFrag _ _ _ _ _), ?_⟩
  rw [State.modFrag, State.fragAt_modTeam, ht', Option.bind_some, Team.frag_modFrag (by intro g; rfl), hfrag]
  rfl
theorem Parks.of_quiet {s s1 : State} {c : Ctx} {out : Res} {hd : Hold} (h : Parks s1 c out hd) (hq : Quiet s s1) : Parks s c out hd := by
  obtain ⟨t, ho, hq', hh⟩ := h
  exact ⟨t, ho, hq.trans hq', hh⟩

/-! ### Requests for granules (R54, R56) -/

/-- The state once a request stands last in a partition's queue. -/
def State.withGrant (s : State) (k p : Nat) (g : Nat × Nat × Nat) : State :=
  s.modBlock k fun b => b.modPart p fun q => { q with grants := q.grants ++ [g] }
theorem quiet_withGrant (s : State) (k p : Nat) (g : Nat × Nat × Nat) : Quiet s (s.withGrant k p g) :=
  ⟨State.rest_modCore _ _ _, State.core_rest_modBlock _ _ _,
    State.block_rest_modBlock _ _ (by intro b; rfl),
    fun j m => by unfold State.stillAt State.withGrant; rw [State.team_modBlock_teams _ _ (by intro b; rfl)]⟩
theorem team_withGrant (s : State) (k p : Nat) (g : Nat × Nat × Nat) (j m : Nat) : (s.withGrant k p g).team j m = s.team j m :=
  State.team_modBlock_teams s k (by intro b; rfl) j m
theorem grantsAt_withGrant {s : State} {k : Nat} {b : Block} (hb : s.block k = some b) (p : Nat) (g : Nat × Nat × Nat) :
    (s.withGrant k p g).grantsAt k p = some ((b.part p).grants ++ [g]) := by
  unfold State.withGrant State.grantsAt
  rw [State.modBlock_block_self, hb, Option.map_some, Option.map_some, Block.modPart, Block.part, AMap.get_set_self]

/-- A calm fragment that asks for granules holds until they are granted. -/
theorem parks_withGrant {s : State} {c : Ctx} {i : Issue} {g : Nat × Nat × Nat} {hd : Hold} {out : Res} (h : s.issuer = some c)
    (hl : c.tm.lift = .core)
    (hi : out = .next ((c.noted i (s.withGrant c.k (c.t % 4) g)).modFrag c.k c.t c.csn fun f => { f with hold := hd })) :
    Parks s c out hd ∧ ∃ t, out = .next t
      ∧ (t.block c.k).map (fun b => (b.part (c.t % 4)).grants) = some ((c.b.part (c.t % 4)).grants ++ [g]) := by
  obtain ⟨-, hb, ht, hf, -⟩ := issuer_spec h
  refine ⟨(parks_hand hi ((team_withGrant _ _ _ _ _ _).trans ht) hf (noLift_of_core hl)).of_quiet (quiet_withGrant _ _ _ _), _, hi, ?_⟩
  change State.grantsAt _ c.k (c.t % 4) = _
  rw [State.modFrag, State.grantsAt_modTeam, Ctx.grantsAt_noted, grantsAt_withGrant hb]

/-- `grow` (R54, R174). -/
theorem grow_parks {s : State} {c : Ctx} (h : s.issuer = some c) (hc : c.calm = true) (hl : c.tm.lift = .core) (o : GrowN)
    (ha : c.acts o.g = true) (hok : countOk o.n = true) (hmax : c.tm.G + o.n.toNat + c.b.pendingGrants c.t ≤ 16) :
    Parks s c (exec (.grow o) s) .grow
      ∧ ∃ t, exec (.grow o) s = .next t ∧ (t.block c.k).map (fun b => (b.part (c.t % 4)).grants)
        = some ((c.b.part (c.t % 4)).grants ++ [(c.t, c.csn, o.n.toNat)]) := by
  refine parks_withGrant (i := issueGrow o) h hl ((once_acts (i := issueGrow o) h hc (roleFault_plain hl rfl rfl rfl rfl) rfl ha).trans ?_)
  have hgo : (!countOk o.n || decide (16 < c.tm.G + o.n.toNat + c.b.pendingGrants c.t)) = false := by simp [hok]; omega
  simp only [issueGrow, hgo, Bool.false_eq_true, if_false, Ctx.finish]
  rfl

/-- `GROW_GRANT` of the oldest request (R54, R174). -/
theorem growGrant_grants {s : State} {core p t csn n : Nat} {rest : List (Nat × Nat × Nat)} {b : Block} {tm : Team} {f : Frag}
    (hp : p < 4) (hb : s.block core = some b) (hg : (b.part p).grants = (t, csn, n) :: rest) (ht : AMap.find? b.teams t = some tm)
    (hh : tm.halted = false) (hf : tm.frags = [f]) (hcsn : f.csn = csn) (hhold : f.hold = .grow) (hl : f.linkv = false)
    (hm : f.mask ≠ 0) (hhol : f.hollow = false) (hpool : 64 * tm.L * n ≤ b.pool p) :
    ∃ u tm', exec (.growGrant core p) s = .next u ∧ u.team core t = some tm' ∧ tm'.still = { tm.still with G := tm.G + n }
      ∧ tm'.frags = [{ f with pc := f.pc + 8, hold := .none }]
      ∧ (u.block core).map (fun b => (b.part p).grants) = some rest
      ∧ ∀ k m, (k, m) ≠ (core, t) → u.team k m = s.team k m := by
  have hexec : exec (.growGrant core p) s = .next ((s.modBlock core fun _ => b.granted p t csn n rest tm).settle core t) := by
    change execGrowGrant core p s = _
    unfold execGrowGrant
    rw [Nat.mod_eq_of_lt hp]
    simp only [hb, Block.grantOne_grow hg ht hh hf hcsn hhold hpool]
  obtain ⟨hteam, hgrants, hothers⟩ := granted_state (p := p) (n := n) (rest := rest) (t := t) hb hf hcsn hm hl hhol
  refine ⟨_, _, hexec, hteam, rfl, ?_, hgrants, hothers⟩
  simp only [Team.grown, Team.modFrag, hf, List.map_cons, List.map_nil, hcsn, if_true]

/-- `shrink` whose bytes a waiting request takes (R174). -/
theorem shrink_grants {s : State} {c : Ctx} (h : s.issuer = some c) (hc : c.calm = true) (hl : c.tm.lift = .core) (o : GrowN)
    {t csn n : Nat} {tm : Team} {f : Frag} (ha : c.acts o.g = true) (hok : countOk o.n = true) (hn : o.n.toNat < c.tm.G)
    (hg : (c.b.part (c.t % 4)).grants = [(t, csn, n)]) (hne : t ≠ c.t) (hpart : t % 4 = c.t % 4) (ht : AMap.find? c.b.teams t = some tm)
    (hh : tm.halted = false) (hf : tm.frags = [f]) (hcsn : f.csn = csn) (hhold : f.hold = .grow) (hlink : f.linkv = false)
    (hm : f.mask ≠ 0) (hhol : f.hollow = false)
    (hpool : 64 * tm.L * n ≤ ({ c.b with teams := AMap.put c.b.teams c.t (c.tm.shrinkTo (c.tm.G - o.n.toNat)) } : Block).pool (c.t % 4)) :
    ∃ u tm', exec (.shrink o) s = .next u ∧ u.stillAt c.k c.t = some (c.tm.shrinkTo (c.tm.G - o.n.toNat)).still
      ∧ u.team c.k t = some tm' ∧ tm'.still = { tm.still with G := tm.G + n }
      ∧ tm'.frags = [{ f with pc := f.pc + 8, hold := .none, yielded := false }]
      ∧ (u.block c.k).map (fun b => (b.part (c.t % 4)).grants) = some [] := by
  obtain ⟨-, hb, hteam, -, -⟩ := issuer_spec h
  have hshrunk : (s.modTeam c.k c.t fun tm => tm.shrinkTo (tm.G - o.n.toNat)).team c.k c.t = some (c.tm.shrinkTo (c.tm.G - o.n.toNat)) := by
    rw [State.modTeam_team_self, hteam]; rfl
  have hlift : ∀ tm', (s.modTeam c.k c.t fun tm => tm.shrinkTo (tm.G - o.n.toNat)).team c.k c.t = some tm' → tm'.noLift := by
    intro tm' e
    rw [hshrunk] at e; cases e
    exact noLift_of_core hl
  have hgone : (!countOk o.n || decide (c.tm.G ≤ o.n.toNat)) = false := by simp [hok]; omega
  have hexec : exec (.shrink o) s = .next ((c.goOn (issueShrink o) (c.f.pc + c.len)
      (s.modTeam c.k c.t fun tm => tm.shrinkTo (tm.G - o.n.toNat))).serveGrants c.k (c.t % 4)) := by
    refine (once_acts (i := issueShrink o) h hc (roleFault_plain hl rfl rfl rfl rfl) rfl ha).trans ?_
    simp only [issueShrink, hgone, Bool.false_eq_true, if_false, Ctx.finish]
  have hstill := (quiet_goOn c (issueShrink o) (c.f.pc + c.len) _ hlift).teams c.k c.t
  have hother : (c.goOn (issueShrink o) (c.f.pc + c.len) (s.modTeam c.k c.t fun tm => tm.shrinkTo (tm.G - o.n.toNat))).team c.k t
      = some (tm.unyield false c.csn) := by
    rw [Ctx.team_goOn_ne _ _ _ _ hne, State.modTeam_team_ne _ _ (by simpa using hne.symm), State.team, hb, Option.bind_some, ht,
      Option.map_some, if_pos hpart]
  have hqueue : (c.goOn (issueShrink o) (c.f.pc + c.len) (s.modTeam c.k c.t fun tm => tm.shrinkTo (tm.G - o.n.toNat))).grantsAt c.k (c.t % 4)
      = some [(t, csn, n)] := by
    rw [Ctx.grantsAt_goOn, State.grantsAt_modTeam, State.grantsAt, hb, Option.map_some, hg]
  have hload : (c.goOn (issueShrink o) (c.f.pc + c.len) (s.modTeam c.k c.t fun tm => tm.shrinkTo (tm.G - o.n.toNat))).loadAt c.k (c.t % 4)
      ≤ poolLoad (AMap.put c.b.teams c.t (c.tm.shrinkTo (c.tm.G - o.n.toNat))) (c.t % 4) := by
    refine (Ctx.loadAt_goOn_le c _ _ hlift c.k (c.t % 4)).trans (Nat.le_of_eq ?_)
    have hfind : AMap.find? c.b.teams c.t = some c.tm := by rw [State.team, hb] at hteam; exact hteam
    rw [State.loadAt, State.modTeam, State.modBlock_block_self, hb, Option.map_some, Option.elim_some, Block.modTeam, AMap.modify, hfind]
  rw [hexec]
  generalize c.goOn (issueShrink o) (c.f.pc + c.len) (s.modTeam c.k c.t fun tm => tm.shrinkTo (tm.G - o.n.toNat)) = v at *
  obtain ⟨b', hb', hq'⟩ := Option.map_eq_some_iff.1 hqueue
  have hfind : AMap.find? b'.teams t = some (tm.unyield false c.csn) := by rw [State.team, hb'] at hother; exact hother
  have hpool' : 64 * (tm.unyield false c.csn).L * n ≤ b'.pool (c.t % 4) := by
    rw [State.loadAt, hb', Option.elim_some] at hload
    rw [Block.pool_eq] at hpool ⊢
    exact hpool.trans (Nat.sub_le_sub_left hload _)
  have hfrags : (tm.unyield false c.csn).frags = [{ f with yielded := false }] := by
    simp only [Team.unyield, hf, List.map_cons, List.map_nil, Bool.false_and]
  have hserve : v.serveGrants c.k (c.t % 4) = (v.modBlock c.k fun _ => b'.granted (c.t % 4) t csn n [] (tm.unyield false c.csn)).settle c.k t := by
    unfold State.serveGrants
    rw [hb', Option.elim_some, hq']
    change State.grantAll v c.k (c.t % 4) 1 = _
    unfold State.grantAll
    rw [hb', Option.bind_some, Block.grantOne_grow hq' hfind hh hfrags hcsn hhold hpool']
    rfl
  obtain ⟨hteam', hgrants, hothers⟩ := granted_state (p := c.t % 4) (n := n) (rest := []) (t := t) hb' hfrags hcsn hm hlink hhol
  refine ⟨_, _, congrArg Host.Outcome.next hserve, ?_, hteam', rfl, ?_, hgrants⟩
  · rw [State.stillAt, hothers c.k c.t (by simpa using hne.symm), ← State.stillAt, hstill, State.stillAt, hshrunk]; rfl
  · simp only [Team.grown, Team.modFrag, hfrags, List.map_cons, List.map_nil, hcsn, if_true]

end Sys2Proof.Machine
end

section
namespace Sys2Proof.Machine

/-! ### `rolesw` (R56, R175) -/

/-- The word of the role, allotment and priority that a team has, which `rolesw` gives to sD (R56). -/
def Team.roleWord (tm : Team) : Word := BitVec.ofNat 64 (b01 tm.copy + (tm.G - 1) * 2 + tm.prio * 2 ^ 8)

/-- The team that has taken a role with G' granules (R56). -/
def Team.switched (tm : Team) (csn G' d : Nat) (old : Word) (copy : Bool) (prio pc : Nat) : Team :=
  (if G' < tm.G then tm.shrinkTo G' else tm).takeRole csn d old copy prio pc

theorem Team.still_takeRole (tm : Team) (csn d : Nat) (old : Word) (copy : Bool) (prio pc : Nat) :
    (tm.takeRole csn d old copy prio pc).still = ({ tm with copy := copy, prio := prio }.setS d old).still := by
  simp only [Team.takeRole, Team.setS, Team.heal, Team.modFrag, Team.still]
theorem Team.frags_switched {tm : Team} {f : Frag} {csn G' d prio pc : Nat} {old : Word} {copy : Bool} (hf : tm.frags = [f]) (hcsn : f.csn = csn) :
    (tm.switched csn G' d old copy prio pc).frags = [{ f with pc := pc, hold := .none }] := by
  have hkept : (if G' < tm.G then tm.shrinkTo G' else tm).frags = [f] := by
    rw [apply_ite Team.frags]
    exact (ite_self _).trans hf
  rw [Team.switched, Team.takeRole, Team.setS_frags, Team.modFrag]
  simp only [hkept, List.map_cons, List.map_nil, hcsn, if_true]
theorem Team.lift_switched {tm : Team} {csn G' d prio pc : Nat} {old : Word} {copy : Bool} : (tm.switched csn G' d old copy prio pc).lift = tm.lift := by
  rw [Team.switched, Team.takeRole, Team.setS_lift]
  change (if G' < tm.G then tm.shrinkTo G' else tm).lift = tm.lift
  split <;> rfl

/-- An instruction that answers with a state ends in it, its fragment alone where its team's change has put it. -/
theorem raw_goes {s : State} {c : Ctx} {i : Issue} {F : Team → Team} {f : Frag} (h : s.issuer = some c)
    (hF : (F c.tm).frags = [f]) (hcsn : f.csn = c.csn) (hm : f.mask ≠ 0) (hl : f.linkv = false) (hh : f.hollow = false)
    (hn : (F c.tm).noLift) :
    ∃ t, c.finish i s (.raw (s.modTeam c.k c.t F)) = .next t ∧ t.stillAt c.k c.t = some (F c.tm).still ∧ Frame s t c.k c.t
      ∧ t.pcAt c.k c.t c.csn = some f.pc := by
  have hteam : (s.modTeam c.k c.t F).team c.k c.t = some (F c.tm) := by
    rw [State.modTeam_team_self, (issuer_spec h).2.2.1]; rfl
  have hq : Quiet (s.modTeam c.k c.t F) ((c.noted i (s.modTeam c.k c.t F)).settle c.k c.t) :=
    (quiet_noted c i fun tm e => by rw [hteam] at e; cases e; exact hn).trans (quiet_settle _ _ _)
  refine ⟨_, rfl, ?_, (frame_modTeam s c.k c.t F).trans (hq.frame _ _), ?_⟩
  · rw [hq.teams, State.stillAt, hteam]; rfl
  · obtain ⟨tm', ht', hfrags⟩ := noted_team i hteam
    rw [hF] at hfrags
    rw [State.pcAt, State.fragAt, team_settle_alone ht' hfrags hm hl hh, Option.bind_some, Team.frag, hfrags, List.map_cons,
      List.map_nil, List.find?_cons_of_pos (by simpa using hcsn)]
    rfl

section
variable {s : State} {c : Ctx} (h : s.issuer = some c) (hc : c.calm = true) (ha : c.alone = true) (hl : c.tm.lift = .core)
  (o : RoleSw) (hacts : c.acts o.g = true) (hm : c.tm.memcnt = 0) (hs : c.tm.setcnt = 0) (har : c.tm.arrcnt = 0) (hb : c.tm.bankcnt = 0)
  (hpc : targetOk (c.tm.sreg o.b.toNat) = true)
  (hw : (c.tm.sreg o.a.toNat).toNat = bits (c.tm.sreg o.a.toNat).toNat 0 5 + bits (c.tm.sreg o.a.toNat).toNat 8 2 * 2 ^ 8)
include h hc ha hl hacts hm hs har hb hpc hw

/-- `rolesw` once no check of it has failed. -/
theorem rolesw_acts :
    exec (.rolesw o) s = c.finish (issueRolesw o) s
      (if c.tm.G < bits (c.tm.sreg o.a.toNat).toNat 1 4 + 1 then
        .hand (.role o.d.toNat c.tm.roleWord (bit (c.tm.sreg o.a.toNat).toNat 0) (bits (c.tm.sreg o.a.toNat).toNat 8 2) (c.tm.sreg o.b.toNat).toNat)
          (s.withGrant c.k (c.t % 4) (c.t, c.csn, bits (c.tm.sreg o.a.toNat).toNat 1 4 + 1 - c.tm.G))
      else .raw ((s.modTeam c.k c.t fun tm => tm.switched c.csn (bits (c.tm.sreg o.a.toNat).toNat 1 4 + 1) o.d.toNat c.tm.roleWord
        (bit (c.tm.sreg o.a.toNat).toNat 0) (bits (c.tm.sreg o.a.toNat).toNat 8 2) (c.tm.sreg o.b.toNat).toNat).serveGrants c.k (c.t % 4))) := by
  obtain ⟨hfrags, -⟩ := alone_parts h (calm_spec hc).1 ha
  refine (once_acts (i := issueRolesw o) h hc (roleFault_plain hl rfl rfl rfl rfl) rfl hacts).trans (congrArg (c.finish _ s) ?_)
  refine (if_neg (by simp [hpc])).trans ((if_neg (not_not_intro hw)).trans ((if_neg (by simp [hfrags])).trans
    ((if_neg (not_not_intro ⟨hm, hs, har, hb⟩)).trans rfl)))

/-- With no more granules than it has, the team takes its role at once. -/
theorem rolesw_now (hg : (c.b.part (c.t % 4)).grants = []) (hG : bits (c.tm.sreg o.a.toNat).toNat 1 4 + 1 ≤ c.tm.G) :
    ∃ t, exec (.rolesw o) s = .next t
      ∧ t.stillAt c.k c.t = some (c.tm.switched c.csn (bits (c.tm.sreg o.a.toNat).toNat 1 4 + 1) o.d.toNat c.tm.roleWord
          (bit (c.tm.sreg o.a.toNat).toNat 0) (bits (c.tm.sreg o.a.toNat).toNat 8 2) (c.tm.sreg o.b.toNat).toNat).still
      ∧ Frame s t c.k c.t ∧ t.pcAt c.k c.t c.csn = some (c.tm.sreg o.b.toNat).toNat := by
  obtain ⟨hfrags, hcsn, hmask, hlink, hhollow, -⟩ := alone_parts h (calm_spec hc).1 ha
  have hqueue : ∀ F, (s.modTeam c.k c.t F).grantsAt c.k (c.t % 4) = some [] := by
    intro F
    rw [State.grantsAt_modTeam, State.grantsAt, (issuer_spec h).2.1, Option.map_some, hg]
  rw [rolesw_acts h hc ha hl o hacts hm hs har hb hpc hw, if_neg (Nat.not_lt.2 hG), State.serveGrants_empty (hqueue _)]
  generalize bits (c.tm.sreg o.a.toNat).toNat 1 4 + 1 = G', bit (c.tm.sreg o.a.toNat).toNat 0 = copy,
    bits (c.tm.sreg o.a.toNat).toNat 8 2 = prio, (c.tm.sreg o.b.toNat).toNat = pc
  exact raw_goes (F := fun tm => tm.switched c.csn G' o.d.toNat c.tm.roleWord copy prio pc) h (Team.frags_switched hfrags hcsn) hcsn hmask
    hlink hhollow (noLift_of_core (Team.lift_switched.trans hl))

/-- With more, its fragment holds until they are granted. -/
theorem rolesw_later (hG : c.tm.G < bits (c.tm.sreg o.a.toNat).toNat 1 4 + 1) :
    Parks s c (exec (.rolesw o) s) (.role o.d.toNat c.tm.roleWord (bit (c.tm.sreg o.a.toNat).toNat 0)
        (bits (c.tm.sreg o.a.toNat).toNat 8 2) (c.tm.sreg o.b.toNat).toNat)
      ∧ ∃ t, exec (.rolesw o) s = .next t ∧ (t.block c.k).map (fun b => (b.part (c.t % 4)).grants)
        = some ((c.b.part (c.t % 4)).grants ++ [(c.t, c.csn, bits (c.tm.sreg o.a.toNat).toNat 1 4 + 1 - c.tm.G)]) := by
  rw [rolesw_acts h hc ha hl o hacts hm hs har hb hpc hw, if_pos hG]
  exact parks_withGrant (i := issueRolesw o) h hl rfl
end

end Sys2Proof.Machine
end

open Sys2Proof Sys2Proof.Machine

/-- Settles O18: what `shrinkTo` leaves; the grant of the head of a queue, alone and behind a `shrink`; a fragment that holds once its request
stands in the queue; `rolesw` with and without a request. -/
theorem resourceForms : Obligations.ResourceForms := by
  unfold Obligations.ResourceForms
  refine ⟨?_, ?_, ?_, ?_, ?_⟩
  · intro tm G r l hl
    exact ⟨rfl, shrinkTo_vreg tm G r hl, rfl, rfl, rfl⟩
  · intro s c o t csn n tm f h hc hl ha h1 h15 hn hg hne hpart ht hh hf hcsn hhold hlink hm hhol hpool
    exact shrink_grants h hc hl o ha (countOk_of h1 h15) hn hg hne hpart ht hh hf hcsn hhold hlink hm hhol hpool
  · intro s c o h hc hl ha h1 h15 hmax
    exact grow_parks h hc hl o ha (countOk_of h1 h15) hmax
  · intro s core p t csn n rest b tm f hp _ hb hg ht hh hf hcsn hhold hl hm hhol hpool
    exact growGrant_grants hp hb hg ht hh hf hcsn hhold hl hm hhol hpool
  · intro s c o h hc ha hl hacts hm hs har hb hg w pc G' old hpc hw
    refine ⟨fun hG => ?_, fun hG => ?_⟩
    · obtain ⟨t, ht, hstill, hframe, hat⟩ := rolesw_now h hc ha hl o hacts hm hs har hb hpc hw hg hG
      refine ⟨t, ht, ?_, hframe, hat⟩
      rw [hstill, Team.switched, Team.still_takeRole, bit_eq_testBit]
      rfl
    · have hlater := rolesw_later h hc ha hl o hacts hm hs har hb hpc hw hG
      rw [bit_eq_testBit] at hlater
      exact hlater

section
namespace Sys2Proof.Machine
open Sys2Proof.Tests

/-! ### A `brv` whose two paths stand at the reconvergence address already (R39, R41, R172) -/

/-- `brv p2, +1, +1`: the target and the reconvergence address are the next instruction. -/
def brvToNext : BrV := ⟨un, 2, 1, 1⟩

/-- It feeds two records to `SIGACC` (R172), that of its issue and that of the fusion which leaves one fragment again. -/
theorem brvToNext_feeds_fusion : (after (exec (.brv brvToNext) (st tmP))).map Team.sigacc
    = some (crcBytes 8 (2 * 2 ^ 48 + summary (ctx tmP).f.mask) (ctx tmP).signed) := by decide +kernel
theorem brvToNext_records_differ : crcBytes 8 (2 * 2 ^ 48 + summary (ctx tmP).f.mask) (ctx tmP).signed ≠ (ctx tmP).signed := by
  decide +kernel

/-- `Goes` asks for the record of the issue alone. -/
theorem Goes.sigacc_after {s : State} {c : Ctx} {out : Res} {tm : Team} {pc : Nat} (h : Goes s c out tm pc) (hk : c.k = 0) (ht : c.t = 0)
    (ha : c.alone = true) (hb : fragBlocked c.b c.tm c.t c.f = false) : (after out).map Team.sigacc = some c.signed := by
  obtain ⟨t, rfl, -, -, hmoved, -⟩ := h
  obtain ⟨-, hsig⟩ := hmoved ha hb
  rw [hk, ht] at hsig
  exact hsig

end Sys2Proof.Machine
end

open Sys2Proof Sys2Proof.Machine Sys2Proof.Tests

/-- Refutes O15: when both paths of `brv` stand at the reconvergence address, they fuse at once, and the fusion that leaves one fragment
feeds a record of its own to `SIGACC` (R172) behind that of the issue; the third case of `brv`, through `Goes`, asks for the issue's
record alone. In the counterexample a team of 32 lanes alone branches with lanes 0 to 3 to its next instruction. -/
theorem not_divergenceResults : ¬ Obligations.DivergenceResults := by
  unfold Obligations.DivergenceResults
  intro h
  obtain ⟨hbrv, -⟩ := h
  obtain ⟨⟨hissuer, hcalm, hsplits, halone⟩, -⟩ := witness_DivergenceResults
  obtain ⟨-, -, hboth, -⟩ := hbrv (st tmP) (ctx tmP) brvToNext hissuer hcalm hsplits
  have hgoes := hboth (by decide +kernel) (by decide +kernel) (by decide +kernel) (by decide +kernel)
  have hsig := hgoes.sigacc_after rfl rfl halone (calm_spec hcalm).1
  rw [brvToNext_feeds_fusion] at hsig
  exact brvToNext_records_differ (Option.some.inj hsig)

section
namespace Sys2Proof.Machine

/-! ### A stack core's turn (R50, R296) -/

/-- The first fragment of a stack core's order that makes progress issues. -/
theorem stackTurn_first {s : State} {sc k t csn : Nat} {rest : List (Nat × Nat × Nat)} (hs : (s.stackCore sc).outOfService = false)
    (ho : stackOrder s sc = (k, t, csn) :: rest) (hp : progress s (fragmentTurn s k t csn) = true) :
    stackTurn s sc = fragmentTurn s k t csn := by
  unfold stackTurn
  rw [hs, ho, if_neg Bool.false_ne_true]
  unfold stackIssue
  exact if_pos hp
theorem progress_of_changes {s : State} {r : Res} (h : ∀ t, r = .next t → { t with acting := s.acting } ≠ s) : progress s r = true := by
  unfold progress
  split
  · exact Bool.not_eq_true' _ ▸ decide_eq_false (h _ rfl)
  · rfl

/-! ### Bank commands at their controller (R420) -/

theorem Team.pendOf_modPend (tm : Team) (seq : Nat) {f : Pend → Pend} (hf : ∀ p, (f p).seq = p.seq) :
    (tm.modPend seq f).pendOf seq = (tm.pendOf seq).map f := by
  unfold Team.modPend Team.pendOf
  induction tm.pend with
  | nil => rfl
  | cons p ps ih =>
    rw [List.map_cons, List.find?_cons, List.find?_cons]
    by_cases e : p.seq = seq
    · rw [if_pos e, hf, beq_iff_eq.2 e]; rfl
    · rw [if_neg e, beq_eq_false_iff_ne.2 e]
      exact ih

/-- A completion stands with its outstanding instruction. -/
def Pend.withBank (res : List (Nat × Word)) (p : Pend) : Pend :=
  match p.kind with
  | .bank ch dst _ => { p with kind := .bank ch dst (some res) }
  | _ => p
theorem Pend.seq_withBank (res : List (Nat × Word)) (p : Pend) : (p.withBank res).seq = p.seq := by
  unfold Pend.withBank; split <;> rfl
theorem State.bankDone_eq (s : State) (core team seq : Nat) (res : List (Nat × Word)) :
    s.bankDone core team seq res = s.modTeam core team fun tm => tm.modPend seq (Pend.withBank res) := rfl

/-- Once a command is done its result stands with it; the commands still to arrive stay. -/
theorem bankDone_spec {s : State} {core team seq ch : Nat} {tm : Team} {p : Pend} {dst : Option RegRef} {old : Option (List (Nat × Word))}
    (res : List (Nat × Word)) (ht : s.team core team = some tm) (hp : tm.pendOf seq = some p) (hk : p.kind = .bank ch dst old) :
    (s.bankDone core team seq res).bankResult core team seq = some (some res)
      ∧ ((s.bankDone core team seq res).team core team).map Team.cmds = some tm.cmds := by
  have hteam : (s.bankDone core team seq res).team core team = some (tm.modPend seq (Pend.withBank res)) := by
    rw [State.bankDone_eq, State.modTeam_team_self, ht]; rfl
  refine ⟨?_, by rw [hteam]; rfl⟩
  unfold State.bankResult
  rw [hteam, Option.bind_some, Team.pendOf_modPend _ _ (Pend.seq_withBank res), hp, Option.map_some, Option.bind_some, Pend.withBank, hk]
theorem bankDone_channel (s : State) (core team seq : Nat) (res : List (Nat × Word)) (ch : Nat) :
    (s.bankDone core team seq res).channel ch = s.channel ch := by
  rw [State.bankDone_eq, State.channel, State.modTeam_channels]; rfl

/-- The state once a team's oldest command has left it for its controller. -/
def State.handedOver (s : State) (core team : Nat) (rest : List BankCmd) : State := s.modTeam core team fun tm => { tm with cmds := rest }
theorem State.handedOver_channel (s : State) (core team : Nat) (rest : List BankCmd) (ch : Nat) :
    (s.handedOver core team rest).channel ch = s.channel ch := by
  rw [State.handedOver, State.channel, State.modTeam_channels]; rfl
theorem State.team_modChannel (s : State) (ch : Nat) (f : Channel → Channel) (k t : Nat) : (s.modChannel ch f).team k t = s.team k t := rfl

section
variable {s : State} {core team : Nat} {tm : Team} {q : BankCmd} {rest : List BankCmd} (ht : s.team core team = some tm)
  (hcmds : tm.cmds = q :: rest) (hstart : (s.channel q.ch).starting = false)
include ht

theorem State.handedOver_team : (s.handedOver core team rest).team core team = some { tm with cmds := rest } := by
  rw [State.handedOver, State.modTeam_team_self, ht]; rfl

/-- A command that its controller answers at once. -/
theorem answered {out : Res} {p : Pend} {dst : Option RegRef} {res : List (Nat × Word)} {f : Channel → Channel}
    (hp : tm.pendOf q.seq = some p) (hk : p.kind = .bank q.ch dst none)
    (ho : out = .next (((s.handedOver core team rest).modChannel q.ch f).bankDone core team q.seq res)) :
    ∃ t, (out = .next t ∧ (t.team core team).map Team.cmds = some rest) ∧ t.channel q.ch = f (s.channel q.ch)
      ∧ t.bankResult core team q.seq = some (some res) := by
  have hteam : ((s.handedOver core team rest).modChannel q.ch f).team core team = some { tm with cmds := rest } :=
    State.handedOver_team ht
  obtain ⟨hres, hleft⟩ := bankDone_spec res hteam hp hk
  refine ⟨_, ⟨ho, hleft⟩, ?_, hres⟩
  rw [bankDone_channel, State.modChannel_channel_self, State.handedOver_channel]
/-- One that stays at its controller. -/
theorem stands {out : Res} {f : Channel → Channel} (ho : out = .next ((s.handedOver core team rest).modChannel q.ch f)) :
    ∃ t, (out = .next t ∧ (t.team core team).map Team.cmds = some rest) ∧ t.channel q.ch = f (s.channel q.ch) := by
  refine ⟨_, ⟨ho, ?_⟩, ?_⟩
  · rw [State.team_modChannel, State.handedOver_team ht]; rfl
  · rw [State.modChannel_channel_self, State.handedOver_channel]
/-- One that its controller answers from what it holds. -/
theorem answered_asIs {out : Res} {p : Pend} {dst : Option RegRef} {res : List (Nat × Word)}
    (hp : tm.pendOf q.seq = some p) (hk : p.kind = .bank q.ch dst none)
    (ho : out = .next ((s.handedOver core team rest).bankDone core team q.seq res)) :
    ∃ t, (out = .next t ∧ (t.team core team).map Team.cmds = some rest) ∧ t.channel q.ch = s.channel q.ch
      ∧ t.bankResult core team q.seq = some (some res) := by
  obtain ⟨hres, hleft⟩ := bankDone_spec res (State.handedOver_team (rest := rest) ht) hp hk
  refine ⟨_, ⟨ho, hleft⟩, ?_, hres⟩
  rw [bankDone_channel, State.handedOver_channel]

include hcmds hstart

/-- What the controller does with each command (R300, R315, R316, R318). -/
theorem arrive_eq : exec (.bankCommandArrive core team) s =
    let s1 := s.handedOver core team rest
    match q.req with
    | .ucld xs => .next ((s1.modChannel q.ch fun c => { c with shadow := xs.foldl (fun m x => AMap.set 0 m x.1 x.2) c.shadow }).bankDone core team q.seq [])
    | .step n => match (s1.channel q.ch).stepRun core team ((lowest 16 0 q.units).getD 0) with
      | none => .next (s1.bankDone core team q.seq [])
      | some r =>
        if (r.run?.map RunArgs.step).getD false then
          .next (s1.modChannel q.ch fun c => { c with steps := c.steps ++ [{ seq := q.seq, core, team, run := r.seq, left := n }] })
        else .next (s1.bankDone core team q.seq [])
    | .stat => .next (s1.bankDone core team q.seq [(0, (s1.channel q.ch).statWord core team ((lowest 16 0 q.units).getD 0))])
    | .fence =>
      if (s1.channel q.ch).writtenRows.isEmpty then .next (s1.bankDone core team q.seq [])
      else .next (s1.modChannel q.ch fun c => { c with fences := c.fences ++ [{ seq := q.seq, core, team, rows := (s1.channel q.ch).writtenRows }] })
    | _ => .next (s1.modChannel q.ch fun c => { c with queue := c.queue ++ [q] }) := by
  change execBankCommandArrive core team s = _
  unfold execBankCommandArrive
  simp only [ht, hcmds, hstart, Bool.false_eq_true, if_false]
  rfl
end

end Sys2Proof.Machine
end

open Sys2Proof Sys2Proof.Machine

/-- Settles O51: the turn that `STACK_CORE_ISSUE` puts on the agenda is the next, and its first fragment issues; a command that has left its
team is answered at its controller or stands there, by its kind. -/
theorem bankCommands : Obligations.BankCommands := by
  unfold Obligations.BankCommands
  refine ⟨fun s stack n => rfl, ?_, ?_, ?_⟩
  · intro s stack n core team csn rest b tm f w w2 sc i hserve horder hb ht hf hfree hw hw2 hchanges
    have hturn : fragmentTurn s core team csn = exec i { s with acting := .frag core team csn w } :=
      fragmentTurn_runs hb ht hf hfree hw hw2
    refine ⟨_, rfl, ?_⟩
    calc step { s with agenda := .stackCore sc :: s.agenda }
        = stackTurn s sc := step_agenda (s := { s with agenda := .stackCore sc :: s.agenda }) (t := .stackCore sc) rfl
      _ = fragmentTurn s core team csn := stackTurn_first hserve horder (by rw [hturn]; exact progress_of_changes hchanges)
      _ = _ := hturn
  · intro s core team tm q rest ht hcmds hstart ⟨p, dst, hp, hk⟩ c gone unit
    have harrive := arrive_eq ht hcmds hstart
    refine ⟨?_, ?_, ?_, ?_, ?_⟩
    · intro xs hq
      rw [hq] at harrive
      obtain ⟨t, hgone, hch, hres⟩ := answered ht hp hk harrive
      exact ⟨t, hgone, hres, hch⟩
    · rintro (hrun | ⟨a, ls, hq⟩ | ⟨a, vs, hq⟩)
      · unfold BankCmd.run? at hrun
        split at hrun
        · next hq =>
          rw [hq] at harrive
          exact stands ht harrive
        · cases hrun
      · rw [hq] at harrive
        exact stands ht harrive
      · rw [hq] at harrive
        exact stands ht harrive
    · intro n r a hq hr ha
      have hr' : ((s.handedOver core team rest).channel q.ch).stepRun core team ((lowest 16 0 q.units).getD 0) = some r := by
        rw [State.handedOver_channel]; exact hr
      rw [hq] at harrive
      simp only [hr', ha, Option.map_some, Option.getD_some] at harrive
      split
      · next hstep =>
        rw [if_pos hstep] at harrive
        exact stands ht harrive
      · next hstep =>
        rw [if_neg hstep] at harrive
        exact answered_asIs ht hp hk harrive
    · intro hq
      rw [hq] at harrive
      simp only [State.handedOver_channel] at harrive
      exact answered_asIs ht hp hk harrive
    · intro hq
      rw [hq] at harrive
      simp only [State.handedOver_channel, List.isEmpty_iff] at harrive
      split
      · next hrows =>
        rw [if_pos hrows] at harrive
        exact answered_asIs ht hp hk harrive
      · next hrows =>
        rw [if_neg hrows] at harrive
        exact stands ht harrive
  · intro s core team ch tm p dst res ht hready hk
    change execBankCommandComplete core team s = _
    unfold execBankCommandComplete
    simp only [ht, hready, hk] <;> rfl

section
namespace Sys2Proof.Machine

/-! ### Lane results in a vector register (R51, R54, R165) -/

theorem Team.vreg_setV_self (tm : Team) (r l : Nat) (x : Word) : (tm.setV r l x).vreg r l = x := AMap.get_set_self _ _ _ _
theorem Team.vreg_setV_ne (tm : Team) {r l q m : Nat} (x : Word) (h : r * 1024 + l ≠ q * 1024 + m) : (tm.setV r l x).vreg q m = tm.vreg q m :=
  AMap.get_set_ne _ _ _ h
/-- Every listed lane takes its value, when no lane is listed twice. -/
theorem Team.vreg_setVs_mem (tm : Team) (r : Nat) {xs : List (Nat × Word)} (hd : (xs.map Prod.fst).Nodup) {x : Nat × Word} (hx : x ∈ xs) :
    (tm.setVs r xs).vreg r x.1 = x.2 :=
  foldl_each (fun (t : Team) (x : Nat × Word) => t.setV r x.1 x.2) Prod.fst (fun _ => True) (fun x t => t.vreg r x.1 = x.2) (fun _ _ _ => trivial)
    (fun t x _ => t.vreg_setV_self r x.1 x.2)
    (fun t x y hne h => (t.vreg_setV_ne y.2 (by omega)).trans h) xs hd tm trivial x hx
/-- Every other lane stays. -/
theorem Team.vreg_setVs_ne (tm : Team) (r : Nat) {xs : List (Nat × Word)} {q l : Nat} (h : ∀ x ∈ xs, r * 1024 + x.1 ≠ q * 1024 + l) :
    (tm.setVs r xs).vreg q l = tm.vreg q l := by
  unfold Team.setVs
  induction xs generalizing tm with
  | nil => rfl
  | cons x xs ih =>
    rw [List.foldl_cons, ih _ fun y hy => h y (List.mem_cons_of_mem _ hy)]
    exact tm.vreg_setV_ne x.2 (h x List.mem_cons_self)
theorem Team.vreg_landOver (tm : Team) (p : Pend) (d : RegRef) (m : Mask) (q l : Nat) : (tm.landOver p d m).vreg q l = tm.vreg q l := rfl

/-- The lanes of a result that land: those that have not exited and that no later instruction of the window has written. -/
def landing (tm : Team) (p : Pend) (r : Nat) (xs : List (Nat × Word)) : List (Nat × Word) :=
  xs.filter fun x => !laneIn tm.exited x.1 && !p.covered (.v r) x.1
theorem mem_landing {tm : Team} {p : Pend} {r : Nat} {xs : List (Nat × Word)} {x : Nat × Word} :
    x ∈ landing tm p r xs ↔ x ∈ xs ∧ laneIn tm.exited x.1 = false ∧ p.covered (.v r) x.1 = false := by
  simp [landing]
theorem covered_false_iff {p : Pend} {d : RegRef} {l : Nat} :
    p.covered d l = false ↔ ∀ w ∈ p.wrote, w.1 = d → laneIn w.2 l = false := by
  simp [Pend.covered]
theorem vreg_landV (tm : Team) (p : Pend) (r : Nat) (xs : List (Nat × Word)) (q l : Nat) :
    (tm.landV p r xs).vreg q l = if 8 * tm.G ≤ r then tm.vreg q l else (tm.setVs r (landing tm p r xs)).vreg q l := by
  unfold Team.landV
  split
  · rfl
  · exact Team.vreg_landOver _ _ _ _ _ _

theorem vreg_landV_lands {tm : Team} {p : Pend} {r : Nat} {xs : List (Nat × Word)} (hd : (xs.map Prod.fst).Pairwise (· < ·))
    {x : Nat × Word} (hx : x ∈ xs) (hr : r < 8 * tm.G) (he : laneIn tm.exited x.1 = false)
    (hw : ∀ w ∈ p.wrote, w.1 = .v r → laneIn w.2 x.1 = false) : (tm.landV p r xs).vreg r x.1 = x.2 := by
  rw [vreg_landV, if_neg (Nat.not_le.2 hr)]
  have hnodup : ((landing tm p r xs).map Prod.fst).Nodup :=
    (hd.imp fun h => Nat.ne_of_lt h).sublist (List.filter_sublist.map _)
  exact Team.vreg_setVs_mem tm r hnodup (mem_landing.2 ⟨hx, he, covered_false_iff.2 hw⟩)

theorem vreg_landV_stays {tm : Team} {p : Pend} {r : Nat} {xs : List (Nat × Word)} (hlanes : ∀ x ∈ xs, x.1 < 1024) {q l : Nat} (hl : l < 1024)
    (h : q ≠ r ∨ (∀ x ∈ xs, x.1 ≠ l) ∨ 8 * tm.G ≤ r ∨ laneIn tm.exited l = true ∨ ∃ w ∈ p.wrote, w.1 = .v r ∧ laneIn w.2 l = true) :
    (tm.landV p r xs).vreg q l = tm.vreg q l := by
  rw [vreg_landV]
  split
  · rfl
  · next hr =>
    refine Team.vreg_setVs_ne tm r fun x hx heq => ?_
    obtain ⟨hmem, hexit, hcov⟩ := mem_landing.1 hx
    have hx := hlanes x hmem
    have hreg : r = q := by omega
    have hlane : x.1 = l := by omega
    rcases h with h | h | h | h | ⟨w, hw, hwr, hwl⟩
    · exact h hreg.symm
    · exact h x hmem hlane
    · exact hr h
    · rw [hlane, h] at hexit; cases hexit
    · have := covered_false_iff.1 hcov w hw hwr
      rw [hlane, hwl] at this; cases this

/-! ### The classification of an acquire (R49) -/

theorem mem_lanesOf {L l : Nat} {m : Mask} : l ∈ lanesOf L m ↔ l < L ∧ laneIn m l = true := by
  simp [lanesOf, mem_upto_iff]

theorem acquired_spins (f : Frag) (seq : Nat) (now : List (Nat × Nat × Nat)) :
    (f.acquired seq now).spin = true ↔ f.mask ≠ 0 ∧ ∃ m was, f.acq = some (m, was) ∧ f.storeAt ≤ m
      ∧ ∀ l, l < 1024 → laneIn f.mask l = true → ∃ x, acqAt now l = some x ∧ acqAt was l = some x := by
  have same : ∀ l (was : List (Nat × Nat × Nat)),
      ((acqAt now l).isSome = true ∧ (acqAt now l == acqAt was l) = true) ↔ ∃ x, acqAt now l = some x ∧ acqAt was l = some x := by
    intro l was
    rw [Option.isSome_iff_exists, beq_iff_eq]
    exact ⟨fun ⟨⟨x, hx⟩, he⟩ => ⟨x, hx, he ▸ hx⟩, fun ⟨x, hn, hw⟩ => ⟨⟨x, hn⟩, hn.trans hw.symm⟩⟩
  simp only [Frag.acquired, Bool.and_eq_true, bne_iff_ne, Option.any_eq_true, decide_eq_true_eq, List.all_eq_true, mem_lanesOf]
  refine and_congr_right fun _ => ⟨?_, ?_⟩
  · rintro ⟨⟨m, was⟩, ha, hle, hall⟩
    exact ⟨m, was, ha, hle, fun l hl hin => (same l was).1 (hall l ⟨hl, hin⟩)⟩
  · rintro ⟨m, was, ha, hle, hall⟩
    exact ⟨(m, was), ha, hle, fun l hl => (same l was).2 (hall l hl.1 hl.2)⟩

/-! ### What an acquire invalidates (R101, R110) -/

theorem gang_of_block {s : State} {k : Nat} {b : Block} (h : s.block k = some b) : s.gang k = if b.fused then upto (k / 4 * 4) 4 else [k] := by
  unfold State.gang; rw [h]
theorem mem_gang_self (s : State) (k : Nat) : k ∈ s.gang k := by
  unfold State.gang
  split
  · split
    · rw [mem_upto_iff]; omega
    · exact List.mem_singleton_self k
  · exact List.mem_singleton_self k

theorem dropL1_l1 {s : State} {k : Nat} {b : Block} (h : s.block k = some b) {j : Nat} (hj : j ∈ s.gang k) : ((s.dropL1 k).core j).l1 = [] := by
  unfold State.dropL1
  rw [gang_of_block h] at hj
  simp only [h]
  split
  · next hf =>
    rw [if_pos hf] at hj
    refine foldl_each (fun (s : State) i => s.modCore i fun c => { c with l1 := [] }) id (fun _ => True) (fun j s => (s.core j).l1 = [])
      (fun _ _ _ => trivial) (fun s i _ => ?_) (fun s j i hne hold => ?_) _ (by rw [List.map_id]; exact nodup_upto _ _) s trivial j hj
    · rw [State.modCore_core_self]
    · have hne : i ≠ j := Ne.symm hne
      rw [State.modCore_core_ne _ _ hne]; exact hold
  · next hf =>
    rw [if_neg hf, List.mem_singleton] at hj
    subst hj
    rw [State.modCore_core_self]

theorem acquireRead_l1 {s : State} {k : Nat} {b : Block} {tm : Team} (sc : Scope) (h : s.block k = some b) (hl : tm.lifted = false) {j : Nat}
    (hj : j ∈ s.gang k) : ((s.acquireRead k tm (some sc)).core j).l1 = [] := by
  unfold State.acquireRead
  simp only [hl, Bool.false_eq_true, if_false]
  split
  · exact dropL1_l1 h hj
  · exact dropL1_l1 h hj
theorem acquireRead_hostl2 {s : State} {k : Nat} {tm : Team} {sc : Scope} (hw : scopeWide sc = true) (hl : tm.lifted = false) :
    ((s.acquireRead k tm (some sc)).cluster (clusterOf k)).hostl2 = [] := by
  unfold State.acquireRead
  simp only [hl, hw, Bool.false_eq_true, if_false, if_true, State.modCluster_cluster_self]

end Sys2Proof.Machine
end

section
namespace Sys2Proof.Machine

/-! ### Bytes and sectors -/

theorem bytesOf_leNat (bs : List Byte) : bytesOf bs.length (leNat bs) = bs := by
  induction bs with
  | nil => rfl
  | cons b bs ih =>
    rw [List.length_cons, bytesOf, leNat, Nat.add_mul_div_left _ _ (by decide), Nat.div_eq_of_lt b.isLt, Nat.zero_add, ih]
    refine congrArg (· :: bs) (BitVec.eq_of_toNat_eq ?_)
    rw [BitVec.toNat_ofNat, Nat.add_mul_mod_self_left, Nat.mod_eq_of_lt b.isLt]
theorem length_bytes (m : Memory) (a n : Nat) : (m.bytes a n).length = n := by rw [Memory.bytes, List.length_map, length_upto]
theorem nth_bytes (m : Memory) (a : Nat) {n i : Nat} (h : i < n) : nth 0 (m.bytes a n) i = m.byte (a + i) := by
  rw [nth_eq_getElem _ _ _ (by rw [length_bytes]; exact h)]
  simp [Memory.bytes, upto_eq_range']
/-- The bytes of a sector, from the number that a cache holds of it. -/
theorem nth_sector (m : Memory) (a : Nat) : nth 0 (bytesOf 32 (leNat (m.bytes (a / 32 * 32) 32))) (a % 32) = m.byte a := by
  have h := bytesOf_leNat (m.bytes (a / 32 * 32) 32)
  rw [length_bytes] at h
  rw [h, nth_bytes _ _ (Nat.mod_lt _ (by decide)), Nat.div_add_mod']
theorem sectorsOf_within {pa n : Nat} (h0 : 0 < n) (h : pa % 32 + n ≤ 32) : sectorsOf pa n = [pa / 32] := by
  have : (pa + n + 31) / 32 - pa / 32 = 1 := by omega
  rw [sectorsOf, this]; rfl

/-! ### The L1 (R101, R102) -/

theorem l1Core_sector (s : State) (k : Nat) {a pa : Nat} (h : a / 32 = pa / 32) : s.l1Core k a = s.l1Core k pa := by
  have hbits : bits a 8 2 = bits pa 8 2 := by
    unfold bits
    omega
  unfold State.l1Core
  rw [hbits]
theorem l1Core_of_block {s t : State} {k : Nat} (h : t.block k = s.block k) (pa : Nat) : t.l1Core k pa = s.l1Core k pa := by
  unfold State.l1Core; rw [h]
/-- Putting a sector into the L1 leaves all of every core but its L1. -/
theorem l1Put_core (s : State) (k pa x j : Nat) : ({ (s.l1Put k pa x).core j with l1 := [] } : Core) = { s.core j with l1 := [] } := by
  have hmod : ∀ (u : State) (i : Nat) (f : Core → Core) (_ : ∀ c, ({ f c with l1 := [] } : Core) = { c with l1 := [] }),
      ({ (u.modCore i f).core j with l1 := [] } : Core) = { u.core j with l1 := [] } := by
    intro u i f hf
    by_cases h : i = j
    · subst h; rw [State.modCore_core_self]; exact hf _
    · rw [State.modCore_core_ne _ _ h]
  unfold State.l1Put
  refine (hmod _ _ _ (by intro c; rfl)).trans ?_
  split
  · exact hmod s (s.l1Core k pa) (fun c => { c with
      l1 := c.l1.filter fun y => y.1 / 8 != nth 0 c.l1Held (Config.freeNat s.freeIx % c.l1Held.length) }) (by intro c; rfl)
  · rfl
theorem l1Put_block (s : State) (k pa x j : Nat) : (s.l1Put k pa x).block j = s.block j := (congrArg Core.block (l1Put_core s k pa x j) :)
theorem l1Put_path (s : State) (k pa x j : Nat) : ((s.l1Put k pa x).core j).path = (s.core j).path :=
  (congrArg Core.path (l1Put_core s k pa x j) :)
theorem l1Put_mem (s : State) (k pa x : Nat) : (s.l1Put k pa x).mem = s.mem := by
  unfold State.l1Put
  rw [State.modCore_mem]
  split
  · rw [State.modCore_mem]
  · rfl
theorem l1Get_l1Put (s : State) (k x : Nat) {a pa : Nat} (h : a / 32 = pa / 32) : (s.l1Put k pa x).l1Get k a = some x := by
  unfold State.l1Get
  rw [l1Core_of_block (l1Put_block s k pa x k), l1Core_sector s k h, h]
  unfold State.l1Put
  rw [State.modCore_core_self]
  exact AMap.find?_put_self _ _ _

theorem l1Fill_block (s : State) (k pa j : Nat) : (s.l1Fill k pa).block j = s.block j :=
  (l1Put_block _ _ _ _ _).trans ((memoryStep_l2Fill s _ 32).block j)
theorem l1Fill_path (s : State) (k pa j : Nat) : ((s.l1Fill k pa).core j).path = (s.core j).path := by
  unfold State.l1Fill
  rw [l1Put_path, (memoryStep_l2Fill s _ 32).core]
theorem l1Fill_mem (s : State) (k pa : Nat) : (s.l1Fill k pa).mem = s.mem := (l1Put_mem _ _ _ _).trans (State.mem_l2Fill _ _ _)
theorem l1Get_l1Fill (s : State) (k : Nat) {a pa : Nat} (h : a / 32 = pa / 32) : (s.l1Fill k pa).l1Get k a
    = some (leNat (s.throughPath k (.pa (pa / 32 * 32)) (s.mem.bytes (pa / 32 * 32) 32))) := l1Get_l1Put _ _ _ h
/-- An access inside one sector of the L1. -/
theorem l1Bytes_within {s : State} {k pa n x : Nat} (h0 : 0 < n) (h : pa % 32 + n ≤ 32) (hx : ∀ a, a / 32 = pa / 32 → s.l1Get k a = some x) :
    s.l1Bytes k pa n = some ((upto pa n).map fun a => nth 0 (bytesOf 32 x) (a % 32)) := by
  unfold State.l1Bytes
  rw [sectorsOf_within h0 h, List.all_cons, List.all_nil, hx _ (by omega), Option.isSome_some, Bool.and_self, if_pos rfl]
  refine congrArg some (List.map_congr_left fun a ha => ?_)
  rw [mem_upto_iff] at ha
  rw [hx a (by omega), Option.getD_some]

/-! ### The write path (R108, R109, R111) -/

theorem pathOf_of_path {s t : State} {k : Nat} (hb : t.block k = s.block k) (hp : ∀ j, (t.core j).path = (s.core j).path) : t.pathOf k = s.pathOf k := by
  have hgang : t.gang k = s.gang k := by unfold State.gang; rw [hb]
  unfold State.pathOf
  simp only [hgang, hp]
theorem path_empty_of_pathOf {s : State} {k j : Nat} (h : s.pathOf k = []) (hj : j ∈ s.gang k) : (s.core j).path = [] := by
  refine List.eq_nil_iff_forall_not_mem.2 fun r hr => ?_
  have hmem : (j, r) ∈ s.pathOf k := by
    unfold State.pathOf
    exact (mem_sortBy _ _ _ _).2 (Or.inl (List.mem_flatMap.2 ⟨j, hj, List.mem_map_of_mem hr⟩))
  rw [h] at hmem
  cases hmem
theorem readBy_empty {s : State} {k : Nat} (h : s.pathOf k = []) (t seq : Nat) (l : Loc) (n : Nat) : s.readBy k t seq l n = s := by
  have hpaths := fun j hj => path_empty_of_pathOf (j := j) h hj
  unfold State.readBy
  dsimp only
  generalize s.gang k = js at hpaths
  induction js with
  | nil => rfl
  | cons j js ih =>
    have hj := hpaths j List.mem_cons_self
    simp only [List.foldl_cons, hj, List.any_nil, Bool.false_eq_true, if_false]
    exact ih fun i hi => hpaths i (List.mem_cons_of_mem _ hi)
theorem priorTo_empty {s : State} {k t : Nat} {tm : Team} (hp : s.pathOf k = []) (hs : tm.stb = []) (seq : Nat) (l : Loc) (n : Nat) :
    s.priorTo k t tm seq l n = [] := by
  unfold State.priorTo
  rw [path_empty_of_pathOf hp (mem_gang_self s k), hs]; rfl

/-! ### What a lane reads (R101, R104, R109, R110) -/

theorem readLane_plain {s : State} {k t : Nat} {tm : Team} {seq n pa : Nat} {a : LaneAcc} (hloc : a.loc = .pa pa) (hhome : a.home = false)
    (hhost : isHost pa = false) (hl1 : s.l1Get k pa = none) (hown : s.owned seq a.loc = false) (hfill : s.mayFill (pa / 32 * 32) 32 = true)
    (hpoison : s.poisonedAt (.pa (pa / 32 * 32)) 32 = false) (hp : s.pathOf k = []) (hs : tm.stb = []) (hlift : tm.lifted = false)
    (h0 : 0 < n) (hn : pa % 32 + n ≤ 32) : ∃ level s1, s.readLane k t tm seq none false false n a = .got (s.mem.bytes pa n) false level s1 := by
  have hpath : (s.l1Fill k pa).pathOf k = [] := by
    rw [pathOf_of_path (l1Fill_block s k pa k) (l1Fill_path s k pa), hp]
  have hbytes : (s.l1Fill k pa).l1Bytes k pa n = some (s.mem.bytes pa n) := by
    rw [l1Bytes_within h0 hn fun a ha => l1Get_l1Fill s k ha, State.throughPath, hp]
    refine congrArg some (List.map_congr_left fun a ha => ?_)
    rw [mem_upto_iff] at ha
    have hsec : pa / 32 = a / 32 := by omega
    rw [hsec]
    exact nth_sector s.mem a
  have hsector : s.fillSector k pa = (s.homeReach k (pa / 32 * 32) 32, s.l1Fill k pa) := by
    unfold State.fillSector
    rw [hhost, if_neg Bool.false_ne_true]
  rw [hloc] at hown
  refine ⟨s.homeReach k (pa / 32 * 32) 32, s.l1Fill k pa, ?_⟩
  unfold State.readLane
  simp only [hloc, hhome, hlift, hp, hs, priorTo_empty hp hs, hown, hl1, hfill, hpoison, hsector, readBy_empty hpath, hbytes, strictScope, State.spHeld,
    List.map_nil, List.filter_nil, List.any_nil, Bool.or_self, Bool.false_eq_true, if_false, Bool.not_true, Bool.not_false, Bool.and_self, Bool.and_true,
    Bool.and_false, Bool.false_and, Option.isSome_none, Option.isNone_none, if_true, Option.getD_some]
  rfl

theorem readLane_scratch {s : State} {k t : Nat} {tm : Team} {seq n o : Nat} {a : LaneAcc} {b : Block} (hloc : a.loc = .sp k o)
    (hb : s.block k = some b) (hown : s.owned seq a.loc = false) (hheld : s.spHeld a.loc n seq = false) (hpoison : s.poisonedAt a.loc n = false)
    (hs : tm.stb = []) (hp : s.pathOf k = []) : s.readLane k t tm seq none false false n a = .got (b.sp.read o n) false 1 s := by
  rw [hloc] at hown hheld hpoison
  unfold State.readLane
  simp only [hloc, hp, priorTo_empty hp hs, hown, hheld, hpoison, List.map_nil, List.filter_nil, List.any_nil, Bool.or_self, Bool.false_eq_true, if_false,
    Bool.false_and, strictScope, State.readLoc, hb]
  rfl

theorem strictScope_wide {sc : Scope} (h : sc ∈ [Scope.clu, .stk, .dev, .fab]) : strictScope (some sc) = true ∧ scopeWide sc = true := by
  cases sc <;> simp_all [strictScope, scopeWide]
theorem priorTo_unmet {s : State} {k t : Nat} {tm : Team} {seq n : Nat} {l : Loc}
    (h : ∀ r, (r ∈ tm.stb ∨ r ∈ (s.core k).path ∧ r.team = t) → r.seq < seq → r.loc.meets r.bytes.length l n = false) :
    s.priorTo k t tm seq l n = [] := by
  refine List.filter_eq_nil_iff.2 fun r hr => ?_
  rw [List.mem_append, List.mem_filter, beq_iff_eq] at hr
  by_cases hseq : r.seq < seq
  · simp [h r hr.symm hseq]
  · simp [hseq]

theorem readLane_acquire {s : State} {k t : Nat} {tm : Team} {seq n pa : Nat} {sc : Scope} {a : LaneAcc} (hloc : a.loc = .pa pa)
    (hsc : strictScope (some sc) = true) (hown : s.owned seq a.loc = false) (hfill : s.mayFill pa n = true) (hpoison : s.poisonedAt a.loc n = false)
    (hpath : tm.lifted = true → ∀ x ∈ s.pathOf k, x.2.loc.meets x.2.bytes.length a.loc n = false)
    (hprior : ∀ r, (r ∈ tm.stb ∨ r ∈ (s.core k).path ∧ r.team = t) → r.seq < seq → r.loc.meets r.bytes.length a.loc n = false) :
    ∃ level s1, s.readLane k t tm seq (some sc) false false n a = .got (s.mem.bytes pa n) false level s1 := by
  rw [hloc] at hown hpoison hpath hprior
  have hnone := priorTo_unmet hprior
  have hfree : (((s.pathOf k).map fun x => x.2).filter fun r => r.loc.meets r.bytes.length (.pa pa) n).any (holdsLoad tm false seq (.pa pa)) = false := by
    cases hl : tm.lifted with
    | false => simp [holdsLoad, hl]
    | true =>
      rw [List.filter_eq_nil_iff.2]
      · rfl
      · intro r hr
        obtain ⟨x, hx, rfl⟩ := List.mem_map.1 hr
        simp [hpath hl x hx]
  refine ⟨s.homeReach k pa n, s.l2Fill pa n, ?_⟩
  unfold State.readLane
  simp only [hloc, hsc, hnone, hown, hfree, hfill, hpoison, State.spHeld, State.readLoc, List.any_nil, List.isEmpty_nil, Bool.not_true, Bool.false_and,
    Bool.or_self, Bool.false_eq_true, if_false, Bool.and_false, Bool.not_false, Bool.or_false, if_true]
  rfl

end Sys2Proof.Machine
end

section
namespace Sys2Proof.Machine

/-! ### The end of an outstanding load (R52, R371) -/

/-- A destination that is a capability register: the granule's tag counts. -/
def RegRef.isCap : RegRef → Bool
  | .c _ => true
  | _ => false

theorem Team.pendOf_dropPend (tm : Team) (seq : Nat) : (tm.dropPend seq).pendOf seq = none := by
  simp [Team.pendOf, Team.dropPend]
theorem Team.pend_subCount (tm : Team) (q : Cls) : (tm.subCount q).pend = tm.pend := by cases q <;> rfl
theorem Team.pendOf_endPend (tm : Team) (p : Pend) : (tm.endPend p).pendOf p.seq = none := by
  unfold Team.endPend Team.pendOf
  rw [Team.pend_subCount]
  exact tm.pendOf_dropPend p.seq
/-- A team without what is outstanding and without the halts that are asked of it. -/
def Team.quieted (tm : Team) : Team := { tm with pend := [], haltReqs := [] }
theorem Team.quieted_subCount (tm : Team) (q : Cls) : (tm.subCount q).quieted = tm.quieted.subCount q := by cases q <;> rfl
theorem Team.haltReqs_subCount (tm : Team) (q : Cls) : (tm.subCount q).haltReqs = tm.haltReqs := by cases q <;> rfl
theorem Team.quieted_endPend (tm : Team) (p : Pend) : (tm.endPend p).quieted = tm.quieted.subCount p.cls :=
  (tm.dropPend p.seq).quieted_subCount p.cls

/-- A load of no lane writes nothing. -/
theorem landLoad_none (tm : Team) (p : Pend) (dst : RegRef) :
    (tm.landLoad p dst [] none []).quieted = tm.quieted ∧ (tm.landLoad p dst [] none []).haltReqs = tm.haltReqs := by
  unfold Team.landLoad
  cases dst with
  | v r =>
    change (tm.landV p r []).quieted = _ ∧ (tm.landV p r []).haltReqs = _
    unfold Team.landV
    split <;> exact ⟨rfl, rfl⟩
  | _ => exact ⟨rfl, rfl⟩

section
variable {s : State} {core team : Nat} {tm : Team} {p : Pend} {lanes : List LaneAcc} {n : Nat} {sx lc : Bool} {dst : RegRef} {bc : List Nat}
  {acq : Option Scope} {rp : Option Nat} {vs : List (Nat × Nat × Bool)}

/-- The oldest of its class is written and ends. -/
theorem loadEnd_first (hfirst : tm.firstOf p = true) :
    s.loadEnd core team tm p false lanes n sx dst bc acq rp lc vs
      = match acq with
        | none => s.modTeam core team fun tm => (tm.landLoad p dst bc rp vs).endPend p
        | some _ => (s.modTeam core team fun tm => (tm.landLoad p dst bc rp vs).endPend p).modFrag core team p.csn fun f =>
            f.acquired p.seq (acquireVals dst bc ((vs.zip lanes).map fun x => (x.1.1, x.2.addr, x.1.2.1))) := by
  unfold State.loadEnd
  rw [hfirst]
  cases acq <;> rfl
/-- One that is not keeps what it has read. -/
theorem loadEnd_later (hfirst : tm.firstOf p = false) :
    s.loadEnd core team tm p false lanes n sx dst bc acq rp lc vs
      = s.modTeam core team fun tm => tm.modPend p.seq fun p => { p with kind := .load lanes n sx dst bc acq rp lc (some vs) } := by
  unfold State.loadEnd
  rw [hfirst]
  rfl
end

/-- A team that has been asked to halt. -/
def Team.asked (tm : Team) (h : HaltReq) : Team := { tm with haltReqs := tm.haltReqs ++ [tm.raised h] }
theorem requestHalt_team {s : State} {core team : Nat} {tm : Team} {h : HaltReq} (ht : s.team core team = some tm) (hh : tm.halted = false) :
    (s.requestHalt core team h).team core team = some (tm.asked h) := by
  rw [State.requestHalt, State.modTeam_team_self, ht, Option.map_some]
  exact congrArg some (if_neg (by simp [hh]))

section
variable {s : State} {core team i : Nat} {tm : Team} {p : Pend} (ht : s.team core team = some tm)
include ht

/-- A load that has met poison has asked to halt its team and ends in its order. -/
theorem loadEnd_poison {h : HaltReq} (dst : RegRef) (n : Nat) (sx lc : Bool) (hh : tm.halted = false) (hp : ∃ q, tm.pendOf p.seq = some q) :
    ∃ t tm', (s.requestHalt core team h).loadEnd core team tm p false [] n sx dst [] none none lc [] = t ∧ t.team core team = some tm'
      ∧ tm'.haltReqs = tm.haltReqs ++ [tm.raised h] ∧ t.mem = s.mem
      ∧ tm'.quieted = (if tm.firstOf p then tm.subCount p.cls else tm).quieted
      ∧ (tm.firstOf p = true → tm'.pendOf p.seq = none)
      ∧ (tm.firstOf p = false → (tm'.pendOf p.seq).map Pend.kind = some (.load [] n sx dst [] none none lc (some []))) := by
  have hteam : ∀ F : Team → Team, ((s.requestHalt core team h).modTeam core team F).team core team = some (F (tm.asked h)) := by
    intro F
    rw [State.modTeam_team_self, requestHalt_team ht hh]; rfl
  have hmem : ∀ F : Team → Team, ((s.requestHalt core team h).modTeam core team F).mem = s.mem := by
    intro F
    rw [State.modTeam_mem, State.requestHalt, State.modTeam_mem]
  cases hfirst : tm.firstOf p with
  | true =>
    obtain ⟨hland, hreqs⟩ := landLoad_none (tm.asked h) p dst
    refine ⟨_, _, loadEnd_first hfirst, hteam _, ?_, hmem _, ?_, fun _ => Team.pendOf_endPend _ _, fun e => by cases e⟩
    · rw [Team.endPend, Team.haltReqs_subCount]
      exact hreqs
    · rw [Team.quieted_endPend, hland, if_pos rfl, Team.quieted_subCount]; rfl
  | false =>
    obtain ⟨q, hq⟩ := hp
    refine ⟨_, _, loadEnd_later hfirst, hteam _, rfl, hmem _, rfl, (fun e => by cases e), fun _ => ?_⟩
    rw [Team.pendOf_modPend _ _ (by intro x; rfl)]
    change ((tm.pendOf p.seq).map _).map Pend.kind = _
    rw [hq]
    rfl

variable (hp : tm.pend[i]? = some p)
include hp

theorem loadResultReturn_load {lanes : List LaneAcc} {n : Nat} {sx lc : Bool} {dst : RegRef} {bc : List Nat} {acq : Option Scope} {rp : Option Nat}
    {vals : Option (List (Nat × Nat × Bool))} (hk : p.kind = .load lanes n sx dst bc acq rp lc vals) :
    exec (.loadResultReturn core team i) s = .next (s.loadStep core team tm p false) := by
  change execLoadResultReturn core team i s = _
  unfold execLoadResultReturn
  simp only [ht, hp, hk]

theorem loadResultReturn_atom {acq bad : Bool} {vals : List (Nat × Word)} {d : Nat} {ds : List RegRef} (hk : p.kind = .atom 0 acq bad vals)
    (hd : p.dests = .v d :: ds) (hfirst : tm.firstOf p = true) : exec (.loadResultReturn core team i) s
      = .next (s.modTeam core team fun tm => (if bad then tm else tm.landV p d vals).endPend p) := by
  change execLoadResultReturn core team i s = _
  unfold execLoadResultReturn
  cases bad <;> simp only [ht, hp, hk, hd, hfirst, if_true, Bool.false_eq_true, if_false]

theorem loadResultReturn_pgtest {d : Nat} {vals : List (Nat × Bool)} (hk : p.kind = .pgtest d vals) :
    exec (.loadResultReturn core team i) s = .next (s.modTeam core team fun tm => (tm.landP p d vals).dropPend p.seq) := by
  change execLoadResultReturn core team i s = _
  unfold execLoadResultReturn
  simp only [ht, hp, hk]

theorem specialFunctionComplete_spf {d : Nat} {vals : List (Nat × Word)} {fl : List (Nat × Nat)} (hk : p.kind = .spf d vals fl) :
    exec (.specialFunctionComplete core team i) s
      = .next (s.modTeam core team fun tm => ((tm.landV p d vals).orFlags (tm.spfFlags d fl)).dropPend p.seq) := by
  change execSpecialFunctionComplete core team i s = _
  unfold execSpecialFunctionComplete
  simp only [ht, hp, hk]

theorem subarrayAccessServe_load {lanes : List LaneAcc} {n : Nat} {sx lc : Bool} {dst : RegRef} {bc : List Nat} {acq : Option Scope} {rp : Option Nat}
    (hk : p.kind = .load lanes n sx dst bc acq rp lc none) (hsp : ∀ a ∈ lanes, ∃ k o, a.loc = .sp k o) :
    exec (.subarrayAccessServe core team i) s = .next (s.loadStep core team tm p true) := by
  change execSubarrayAccessServe core team i s = _
  unfold execSubarrayAccessServe
  simp only [ht, hp, hk]
  refine if_pos (List.all_eq_true.2 fun a ha => ?_)
  obtain ⟨k, o, hloc⟩ := hsp a ha
  rw [hloc]
end

section
variable {s s1 : State} {core team : Nat} {tm : Team} {p : Pend} {lanes : List LaneAcc} {n : Nat} {sx lc : Bool} {dst : RegRef} {bc : List Nat}
  {acq : Option Scope} {rp : Option Nat} {vs : List (Nat × Nat × Bool)}

/-- The read of a load that has read. -/
theorem loadStep_read (onlyRead : Bool) (hk : p.kind = .load lanes n sx dst bc acq rp lc (some vs)) :
    s.loadStep core team tm p onlyRead = s.loadEnd core team tm p onlyRead lanes n sx dst bc acq rp lc vs := by
  unfold State.loadStep; rw [hk]
/-- Of one that can read now. -/
theorem loadStep_reads (onlyRead : Bool) {level : Nat} (hk : p.kind = .load lanes n sx dst bc acq rp lc none)
    (hr : (s.acquireRead core tm acq).readLanes core team tm p acq lc dst.isCap n sx lanes [] 0 = .got vs level s1) :
    s.loadStep core team tm p onlyRead = (s1.noteLevel core team p.seq level).loadEnd core team tm p onlyRead lanes n sx dst bc acq rp lc vs := by
  unfold State.loadStep
  simp only [hk]
  change (match (s.acquireRead core tm acq).readLanes core team tm p acq lc dst.isCap n sx lanes [] 0 with
    | .wait => _ | .bad a => _ | .got vs level s => _) = _
  rw [hr]
/-- A place in a scratchpad. -/
def Loc.inScratch : Loc → Bool
  | .sp _ _ => true
  | .pa _ => false
/-- Of one that meets poison. -/
theorem loadStep_poison (onlyRead : Bool) {a : LaneAcc} (hk : p.kind = .load lanes n sx dst bc acq rp lc none)
    (hr : (s.acquireRead core tm acq).readLanes core team tm p acq lc dst.isCap n sx lanes [] 0 = .bad a) :
    ∃ sp, s.loadStep core team tm p onlyRead
      = (s.requestHalt core team (p.poison a.lane a.addr sp)).loadEnd core team tm p onlyRead [] n sx dst [] none none lc [] := by
  refine ⟨a.loc.inScratch, ?_⟩
  unfold State.loadStep
  simp only [hk]
  change (match (s.acquireRead core tm acq).readLanes core team tm p acq lc dst.isCap n sx lanes [] 0 with
    | .wait => _ | .bad a => _ | .got vs level s => _) = _
  rw [hr]
  rfl

end

end Sys2Proof.Machine
end

open Sys2Proof Sys2Proof.Machine

/-- Settles O38: what each event does with the outstanding instruction that it names; the lanes of a result that land; the classification of
an acquire; what an acquire invalidates; what one lane reads. -/
theorem resultsReturn : Obligations.ResultsReturn := by
  unfold Obligations.ResultsReturn
  refine ⟨?_, ?_, ?_, ?_, ?_⟩
  · intro s core team i tm p ht hp
    refine ⟨?_, ?_, ?_, ?_, ?_, ?_⟩
    · intro lanes n sx dst bc acq rp lc vs s1 vals hk hfirst hread ends
      have hstep : s.loadStep core team tm p false = s1.loadEnd core team tm p false lanes n sx dst bc acq rp lc vs := by
        rcases hread with ⟨rfl, rfl⟩ | ⟨rfl, level, s2, hr, rfl⟩
        · exact loadStep_read false hk
        · exact loadStep_reads false hk hr
      exact (loadResultReturn_load ht hp hk).trans (congrArg Host.Outcome.next (hstep.trans (loadEnd_first hfirst)))
    · intro lanes n sx dst bc acq rp lc a hk hh hr
      obtain ⟨sp, hstep⟩ := loadStep_poison false hk hr
      have hmem := List.mem_of_getElem? hp
      have hpend : ∃ q, tm.pendOf p.seq = some q :=
        Option.isSome_iff_exists.1 (List.find?_isSome.2 ⟨p, hmem, beq_self_eq_true p.seq⟩)
      obtain ⟨t, tm', hend, hteam, hreqs, hmem, hquiet, hgone, hkeeps⟩ := loadEnd_poison (h := p.poison a.lane a.addr sp) ht dst n sx lc hh hpend
      refine ⟨t, tm', _, ?_, hteam, rfl, rfl, hreqs, hmem, hquiet, hgone, hkeeps⟩
      rw [loadResultReturn_load ht hp hk, hstep, hend]
    · intro acq bad vals d ds hk hd hfirst
      exact loadResultReturn_atom ht hp hk hd hfirst
    · intro d vals hk
      exact loadResultReturn_pgtest ht hp hk
    · intro d vals fl hk
      exact specialFunctionComplete_spf ht hp hk
    · intro lanes n sx dst bc acq rp lc vs level s1 hk hsp hr
      rw [subarrayAccessServe_load ht hp hk hsp, loadStep_reads true hk hr]
      rfl
  · intro tm p r xs hd hlanes
    exact ⟨fun x hx hr he hw => vreg_landV_lands hd hx hr he hw, fun q l hl h => vreg_landV_stays hlanes hl h⟩
  · intro f seq now
    exact ⟨rfl, acquired_spins f seq now⟩
  · intro s k b tm sc hb hl
    exact ⟨fun j hj => acquireRead_l1 sc hb hl hj, fun hsc => acquireRead_hostl2 (strictScope_wide hsc).2 hl⟩
  · intro s k t tm seq n a
    refine ⟨?_, ?_, ?_⟩
    · intro pa hloc hhome hhost hl1 hown hfill hpoison hp hs hlift h0 hn
      exact readLane_plain hloc hhome hhost hl1 hown hfill hpoison hp hs hlift h0 hn
    · intro pa sc hloc hsc hown hfill hpoison hpath hprior
      exact readLane_acquire hloc (strictScope_wide hsc).1 hown hfill hpoison hpath hprior
    · intro o b hloc hb hown hheld hpoison hs hp
      exact readLane_scratch hloc hb hown hheld hpoison hs hp

section
namespace Sys2Proof.Machine

/-! ### A walk reads the tables (R84, R85, R103) -/

theorem MemoryStep.spaces {s t : State} (h : MemoryStep s t) : t.spaces = s.spaces := (congrArg State.spaces h.bare :)
theorem MemoryStep.space {s t : State} (h : MemoryStep s t) (k : Nat) : t.space k = s.space k := by unfold State.space; rw [h.spaces]
theorem MemoryStep.team {s t : State} (h : MemoryStep s t) (k n : Nat) : t.team k n = s.team k n := State.team_of_block (h.block k) n

theorem fillWalk_mem (s : State) (asid va : Nat) : (s.fillWalk asid va).mem = s.mem :=
  foldl_keeps State.mem (fun s a => s.l2Fill a 8) (fun s a => State.mem_l2Fill s a 8) _ s

/-- What a walk finds follows from memory, the link and the spaces. -/
theorem walkFrom_of {s t : State} (hm : t.mem = s.mem) (hl : t.linkUp = s.linkUp) (va level : Nat) :
    ∀ (table : Nat) (path : List Nat), walkFrom t va level table path = walkFrom s va level table path := by
  have hdw : ∀ a, t.dw a = s.dw a := by intro a; unfold State.dw; rw [hm]
  have hpoison : ∀ a, t.poisonedAt (.pa a) 8 = s.poisonedAt (.pa a) 8 := by
    intro a
    unfold State.poisonedAt
    dsimp only
    rw [hm, hl]
  induction level with
  | zero =>
    intro table path
    rw [walkFrom, walkFrom, hdw, hpoison]
  | succ l ih =>
    intro table path
    rw [walkFrom, walkFrom, hdw, hpoison]
    simp only [ih]
theorem walk_of {s t : State} (hm : t.mem = s.mem) (hl : t.linkUp = s.linkUp) (hs : t.spaces = s.spaces) (asid va : Nat) :
    t.walk asid va = s.walk asid va := by
  unfold State.walk State.space
  rw [hs]
  simp only [walkFrom_of hm hl]

/-- The state once a walk of a core has read its tables and left the core. -/
def State.walked (s : State) (core i : Nat) (w : Walk) : State :=
  (s.modCore core fun c => { c with walks := dropNth c.walks i }).fillWalk w.asid w.va

theorem walked_mem (s : State) (core i : Nat) (w : Walk) : (s.walked core i w).mem = s.mem := by
  rw [State.walked, fillWalk_mem, State.modCore_mem]
theorem walked_spaces (s : State) (core i : Nat) (w : Walk) : (s.walked core i w).spaces = s.spaces := by
  rw [State.walked, (memoryStep_fillWalk _ _ _).spaces, State.modCore_spaces]
theorem walked_linkUp (s : State) (core i : Nat) (w : Walk) : (s.walked core i w).linkUp = s.linkUp := by
  rw [State.walked, (memoryStep_fillWalk _ _ _).linkUp, State.modCore_linkUp]
theorem walked_space (s : State) (core i : Nat) (w : Walk) (asid : Nat) : (s.walked core i w).space asid = s.space asid := by
  unfold State.space; rw [walked_spaces]
theorem walked_walk (s : State) (core i : Nat) (w : Walk) (asid va : Nat) : (s.walked core i w).walk asid va = s.walk asid va :=
  walk_of (walked_mem s core i w) (walked_linkUp s core i w) (walked_spaces s core i w) asid va
theorem walked_team (s : State) (core i : Nat) (w : Walk) (k n : Nat) : (s.walked core i w).team k n = s.team k n := by
  rw [State.walked, (memoryStep_fillWalk _ _ _).team]
  exact State.team_of_block (State.block_modCore_keep _ _ (by intro c; rfl) k) n

/-! ### How a walk ends (R85, R88, R92, R366 to R368) -/

/-- A walk that found its space changed keeps the bits that it sets (R88). -/
def walkDropped (w : Walk) (s0 : State) : WalkOut → Res
  | .leaf _ _ wOk _ path => .next (s0.setAD w.asid path (w.wr && wOk))
  | _ => .next s0
/-- The state of a walk that ends on an absent page: its team parks, or the stream's page is requested (R92, R236). -/
def walkAbsent (core : Nat) (b : Block) (w : Walk) (s0 : State) : State :=
  if w.team = 64 then (s0.enginePages core b false [w.va]).modSeq core fun q => { q with fetchWait := some (w.va / 65536) }
  else s0.parkTeam core b w
/-- What a walk does with what it found. -/
def walkServed (core : Nat) (b : Block) (w : Walk) (s0 : State) : WalkOut → Res
  | .absent => .next (walkAbsent core b w s0)
  | .bad poison =>
    let code := if poison then 0x19 else 0x15
    if w.team = 64 then .next (s0.streamFault core code w.va 0xFF)
    else match (s0.team core w.team).bind fun tm => (tm.frag w.csn).map fun f => (tm, f) with
      | none => .next s0
      | some (tm, f) =>
        if w.fetch then .next (s0.fetchHalt core w.team f w.va code)
        else .next (s0.haltNow core w.team
          { code, aux := w.aux, pc := f.pc + wordLen w.word, word := w.word, lane := lowLane f.mask
            fault := some (faultWord w.va false w.cap), hnd := tm.handler })
  | .leaf l fr wOk d path =>
    if w.wr && !wOk then .next (State.parkTeam (s0.setAD w.asid path false) core b w)
    else
      let s := s0.setAD w.asid path w.wr
      let e := leafEntry s w.asid w.va l fr wOk (d || w.wr)
      match s.team core w.team with
      | some tm => .next (s.fillTeamTlb core tm e)
      | none => .next (s.modCore core fun x => { x with tlb := tlbFillWays x.tlb e })

section
variable {s : State} {core i : Nat} {b : Block} {w : Walk} (hb : s.block core = some b) (hw : (s.core core).walks[i]? = some w)
  (hmay : s.mayWalk w.asid w.va = true)
include hb hw hmay

theorem pageWalk_eq : exec (.pageWalk core i) s =
    if (s.space w.asid).gen ≠ w.gen ∨ (s.space w.asid).iseq ≠ w.iseq then walkDropped w (s.walked core i w) (s.walk w.asid w.va)
    else walkServed core b w (s.walked core i w) (s.walk w.asid w.va) := by
  rw [← walked_space s core i w, ← walked_walk s core i w]
  change execPageWalk core i s = _
  unfold execPageWalk
  simp only [hb, hw, hmay, Bool.not_true, Bool.false_eq_true, if_false]
  rfl
theorem pageWalk_dropped (h : ¬((s.space w.asid).gen = w.gen ∧ (s.space w.asid).iseq = w.iseq)) :
    exec (.pageWalk core i) s = walkDropped w (s.walked core i w) (s.walk w.asid w.va) :=
  (pageWalk_eq hb hw hmay).trans (if_pos (by tauto))
theorem pageWalk_served (h : (s.space w.asid).gen = w.gen ∧ (s.space w.asid).iseq = w.iseq) :
    exec (.pageWalk core i) s = walkServed core b w (s.walked core i w) (s.walk w.asid w.va) :=
  (pageWalk_eq hb hw hmay).trans (if_neg (by tauto))
end

theorem fillTeamTlb_core {s : State} {k : Nat} {tm : Team} (e : TlbEntry) (h : tm.lift = .core) :
    s.fillTeamTlb k tm e = s.modCore k fun x => { x with tlb := tlbFillWays x.tlb e } := by
  unfold State.fillTeamTlb Team.stackCoreOf
  rw [h]
theorem fillTeamTlb_up {s : State} {k st n order : Nat} {tm : Team} (e : TlbEntry) (h : tm.lift = .up st n order) :
    s.fillTeamTlb k tm e = s.modStackCore (4 * st + n) fun x => { x with tlb := tlbFill 64 x.tlb e } := by
  unfold State.fillTeamTlb Team.stackCoreOf Team.lifted
  rw [h]

/-- Two changes that agree on the team at hand. -/
theorem State.modTeam_congr {s : State} {k t : Nat} {tm : Team} {f g : Team → Team} (ht : s.team k t = some tm) (h : f tm = g tm) :
    s.modTeam k t f = s.modTeam k t g := by
  have hblock : (s.core k).block.map (fun b => b.modTeam t f) = (s.core k).block.map fun b => b.modTeam t g := by
    unfold State.team State.block at ht
    cases hb : (s.core k).block with
    | none => rfl
    | some b =>
      rw [hb, Option.bind_some] at ht
      simp only [Option.map_some, Block.modTeam, AMap.modify, ht, h]
  exact congrArg (fun x => s.setCore k { s.core k with block := x }) hblock

/-- A walk that serves its access fills with the leaf of its space's generation (R88). -/
theorem walkServed_leaf {s0 : State} {core : Nat} {b : Block} {w : Walk} {tm : Team} {l fr : Nat} {wOk d : Bool} {path : List Nat}
    (ht : s0.team core w.team = some tm) (hgen : (s0.space w.asid).gen = w.gen) (hok : w.wr = false ∨ wOk = true) :
    walkServed core b w s0 (.leaf l fr wOk d path) = .next ((s0.setAD w.asid path w.wr).fillTeamTlb core tm
      { asid := w.asid, gen := w.gen, level := l, page := w.va / 2 ^ pageBits l, frame := fr, w := wOk, d := d || w.wr }) := by
  have hstep := memoryStep_setAD s0 w.asid path w.wr
  have hleaf : leafEntry (s0.setAD w.asid path w.wr) w.asid w.va l fr wOk (d || w.wr)
      = { asid := w.asid, gen := w.gen, level := l, page := w.va / 2 ^ pageBits l, frame := fr, w := wOk, d := d || w.wr } := by
    rw [leafEntry, hstep.space, hgen]
  have hwrites : (w.wr && !wOk) = false := by rcases hok with h | h <;> simp [h]
  unfold walkServed
  simp only [hwrites, Bool.false_eq_true, if_false, hstep.team, ht, hleaf]

theorem parkTeam_first {s0 : State} {core : Nat} {b : Block} {w : Walk} {tm : Team} (ht : s0.team core w.team = some tm) (hh : tm.halted = false)
    (hp : tm.park = []) : s0.parkTeam core b w = (s0.postPage b.vi 1 w.wr w.va w.asid core w.team).modTeam core w.team fun tm =>
      { tm with park := [{ va := w.va, wr := w.wr }] } := by
  unfold State.parkTeam
  simp only [ht, hh, hp, List.any_nil, Bool.or_self, Bool.false_eq_true, if_false]
  refine State.modTeam_congr (tm := tm) ht ?_
  rw [hp]; rfl

/-! ### A halt at once (R347, R366, R371) -/

/-- What a halt reports, and whether the team has halted. -/
def Team.report (tm : Team) : Bool × Word × Word := (tm.halted, tm.trapcause, tm.faultstat)
theorem Team.report_subCount (tm : Team) (q : Cls) : (tm.subCount q).report = tm.report := by cases q <;> rfl
theorem Team.report_endMove (tm : Team) : tm.endMove.report = tm.report :=
  foldl_keeps Team.report (fun (tm : Team) (p : Pend) => tm.subCount p.cls) (fun tm p => tm.report_subCount p.cls) _ _
theorem Team.report_unqueue (tm : Team) : tm.unqueue.report = tm.report := by
  unfold Team.unqueue
  split
  · exact tm.report_endMove
  · exact tm.report_endMove
  · rfl

/-- The report of a team. -/
def State.reportAt (s : State) (k t : Nat) : Option (Bool × Word × Word) := (s.team k t).map Team.report
theorem reportAt_modTeam {s : State} {k t : Nat} {f : Team → Team} (hf : ∀ tm, (f tm).report = tm.report) :
    (s.modTeam k t f).reportAt k t = s.reportAt k t := by
  unfold State.reportAt
  rw [State.modTeam_team_self, Option.map_map]
  exact congrFun (congrArg Option.map (funext hf)) _
theorem reportAt_dropBankWork (s : State) (k t : Nat) : (s.dropBankWork k t).reportAt k t = s.reportAt k t := by
  unfold State.dropBankWork
  refine (reportAt_modTeam fun tm => ?_).trans rfl
  exact foldl_keeps Team.report (fun (tm : Team) (p : Pend) => tm.subCount p.cls) (fun tm p => tm.report_subCount p.cls) _ _
/-- What a fragment waits for, once turnstile n is abandoned (R372). -/
def Hold.abandon (n : Nat) : Hold → Hold
  | .ts t c => if t = n then .abandoned t c else .ts t c
  | h => h
theorem reportAt_abandonAll (s : State) (k t : Nat) : (s.modBlock k fun b => (b.dropGrants t).abandonAll).reportAt k t = s.reportAt k t := by
  have one : ∀ (b : Block) (n : Nat), (AMap.find? (b.abandonOne n).teams t).map Team.report = (AMap.find? b.teams t).map Team.report := by
    intro b n
    have hmap := AMap.find?_map b.teams (fun _ (tm : Team) => ({ tm with frags := tm.frags.map fun f => { f with hold := f.hold.abandon n } } : Team)) t
    refine (congrArg (Option.map Team.report) (Eq.trans ?_ hmap)).trans ?_
    · rfl
    · rw [Option.map_map]; rfl
  unfold State.reportAt State.team
  rw [State.modBlock_block_self]
  cases s.block k with
  | none => rfl
  | some b =>
    rw [Option.map_some, Option.bind_some, Option.bind_some, Block.abandonAll]
    generalize upto 0 16 = ns
    exact foldl_keeps (fun b : Block => (AMap.find? b.teams t).map Team.report) Block.abandonOne one ns (b.dropGrants t)
theorem reportAt_postFault (s : State) (vi kind code source team : Nat) (dws : List Nat) (core : Option Nat) (app : Option (Nat × Nat × Nat))
    (part : Option Nat) (k t : Nat) : (s.postFault vi kind code source team dws core app part).reportAt k t = s.reportAt k t := rfl
theorem reportAt_traceRec (s : State) (vi source kind : Nat) (payload : List Nat) (k t : Nat) :
    (s.traceRec vi source kind payload).reportAt k t = s.reportAt k t := by
  unfold State.traceRec; split <;> rfl

theorem reportAt_haltTeam {s : State} {k t : Nat} {tm : Team} (ht : s.team k t = some tm) (hh : tm.halted = false) :
    (s.haltTeam k t).reportAt k t = some (true, tm.trapcause, tm.faultstat) := by
  obtain ⟨b, hb, -⟩ := Option.bind_eq_some_iff.1 ht
  unfold State.haltTeam
  simp only [hb, ht, hh, Bool.false_eq_true, if_false]
  rw [reportAt_traceRec, reportAt_postFault, reportAt_abandonAll]
  have hdrop : ∀ u : State, (if tm.lifted then u.dropBankWork k t else u).reportAt k t = u.reportAt k t := by
    intro u
    split
    · exact reportAt_dropBankWork u k t
    · rfl
  rw [hdrop, State.reportAt, State.modTeam_team_self, ht]
  have hreport := tm.report_unqueue
  simp only [Team.report, Prod.mk.injEq] at hreport
  obtain ⟨-, hcause, hstat⟩ := hreport
  simp only [Option.map_some, Team.report, hcause, hstat]
theorem haltTeam_mem (s : State) (k t : Nat) : (s.haltTeam k t).mem = s.mem := by
  have trace : ∀ (u : State) (vi source kind : Nat) (payload : List Nat), (u.traceRec vi source kind payload).mem = u.mem := by
    intro u vi source kind payload
    unfold State.traceRec; split <;> rfl
  have post : ∀ (u : State) (vi kind code source team : Nat) (dws : List Nat), (u.postFault vi kind code source team dws (some k) none none).mem = u.mem := by
    intro u vi kind code source team dws; rfl
  have drop : ∀ u : State, (u.dropBankWork k t).mem = u.mem := by
    intro u
    unfold State.dropBankWork
    rw [State.modTeam_mem]
  unfold State.haltTeam
  split
  · split
    · rfl
    · rw [trace, post, State.modBlock_mem]
      split
      · rw [drop, State.modTeam_mem]
      · rw [State.modTeam_mem]
  · rfl

/-- A team that halts at once reports the cause. -/
theorem haltNow_reports {s : State} {k t : Nat} {tm : Team} {r : HaltReq} {x : Word} (ht : s.team k t = some tm) (hh : tm.halted = false)
    (hx : r.fault = some x) : ∃ tm', (s.haltNow k t r).team k t = some tm' ∧ tm'.halted = true
      ∧ tm'.trapcause = causeWord r.code 0 r.aux r.lane tm.handler (r.stack || tm.lifted) ∧ tm'.faultstat = x ∧ (s.haltNow k t r).mem = s.mem := by
  have hteam : ∀ F : Team → Team, (s.modTeam k t F).team k t = some (F tm) := by
    intro F
    rw [State.modTeam_team_self, ht]; rfl
  have hreport := fun F : Team → Team => fun hF : (F tm).halted = false => reportAt_haltTeam (hteam F) hF
  unfold State.haltNow State.landHalt
  simp only [ht]
  obtain ⟨tm', hfind, hrep⟩ := Option.map_eq_some_iff.1 (hreport (fun tm' =>
    { tm' with trapcause := causeWord (tm.raised r).code 0 (tm.raised r).aux (tm.raised r).lane tm.handler (tm.raised r).stack
               trappc := BitVec.ofNat 64 (tm.raised r).pc, trapword := (tm.raised r).word
               faultstat := (tm.raised r).fault.getD tm'.faultstat }) hh)
  simp only [Team.report, Prod.mk.injEq] at hrep
  obtain ⟨hhalt, hcause, hstat⟩ := hrep
  refine ⟨tm', hfind, hhalt, hcause, hstat.trans ?_, ?_⟩
  · change r.fault.getD tm.faultstat = x
    rw [hx]; rfl
  · rw [haltTeam_mem, State.modTeam_mem]

/-- The halt of a team whose walk has read malformed or poisoned tables (R366, R371). -/
def walkHalt (w : Walk) (tm : Team) (f : Frag) (poison : Bool) : HaltReq :=
  { code := if poison then 0x19 else 0x15, aux := w.aux, pc := f.pc + wordLen w.word, word := w.word, lane := lowLane f.mask
    fault := some (faultWord w.va false w.cap), hnd := tm.handler }
theorem walkServed_bad {s0 : State} {core : Nat} {b : Block} {w : Walk} {tm : Team} {f : Frag} (poison : Bool) (ht : s0.team core w.team = some tm)
    (h64 : w.team ≠ 64) (hfetch : w.fetch = false) (hf : tm.frag w.csn = some f) :
    walkServed core b w s0 (.bad poison) = .next (s0.haltNow core w.team (walkHalt w tm f poison)) := by
  unfold walkServed
  simp only [h64, if_false, ht, Option.bind_some, hf, Option.map_some, hfetch, Bool.false_eq_true]
  rfl

/-! ### Walks ahead of use (R89) -/

theorem walkAhead_fills {s : State} {cl va asid l fr : Nat} {wr w d : Bool} {path : List Nat} (hp : s.presented cl asid (va % 2 ^ 57 / 65536) wr = true)
    (hmiss : tlbHit s (s.cluster cl).wtlb asid (va % 2 ^ 57) = none) (hmay : s.mayWalk asid (va % 2 ^ 57) = true)
    (hwalk : s.walk asid (va % 2 ^ 57) = .leaf l fr w d path) : ∃ t, exec (.walkAheadPrefetch cl va asid wr) s = .next t
      ∧ (t.cluster cl).wtlb.head? = some { asid, gen := (s.space asid).gen, level := l, page := va % 2 ^ 57 / 2 ^ pageBits l, frame := fr, w, d } := by
  have hexec : exec (.walkAheadPrefetch cl va asid wr) s = .next (s.engineWalk cl asid (va % 2 ^ 57) false).2 := by
    change execWalkAheadPrefetch cl va asid wr s = _
    unfold execWalkAheadPrefetch State.engineXlat
    rw [if_pos hp, hmiss]
  refine ⟨_, hexec, ?_⟩
  unfold State.engineWalk
  simp only [hmay, hwalk, Bool.not_true, Bool.false_eq_true, if_false, Bool.false_and, Bool.or_false, State.modCluster_cluster_self]
  have hspace := ((memoryStep_fillWalk s asid (va % 2 ^ 57)).trans (memoryStep_setAD _ asid path false)).space asid
  rw [tlbFill, List.take_succ_cons, List.head?_cons, leafEntry, hspace]

end Sys2Proof.Machine
end

section
namespace Sys2Proof.Machine

/-! ### The fragments of a block under spills and reloads (R45, R47) -/

/-- A fragment of a team of a block. -/
def Block.fragOf (b : Block) (t csn : Nat) : Option Frag := (AMap.find? b.teams t).bind fun tm => tm.frag csn
theorem fragAt_of_block {s : State} {k : Nat} {b : Block} (hb : s.block k = some b) (t csn : Nat) : s.fragAt k t csn = b.fragOf t csn := by
  unfold State.fragAt State.team
  rw [hb]; rfl

theorem Team.frag_modFrag_ne {tm : Team} {n m : Nat} {g : Frag → Frag} (hg : ∀ f, (g f).csn = f.csn) (h : n ≠ m) :
    (tm.modFrag n g).frag m = tm.frag m := by
  unfold Team.modFrag Team.frag
  induction tm.frags with
  | nil => rfl
  | cons f fs ih =>
    rw [List.map_cons, List.find?_cons, List.find?_cons]
    by_cases e : f.csn = n
    · have hne : f.csn ≠ m := by rw [e]; exact h
      rw [if_pos e, hg, beq_eq_false_iff_ne.2 hne]
      exact ih
    · rw [if_neg e, ih]

theorem Block.fragOf_modFrag_self (b : Block) (t n : Nat) {g : Frag → Frag} (hg : ∀ f, (g f).csn = f.csn) :
    (b.modTeam t fun tm => tm.modFrag n g).fragOf t n = (b.fragOf t n).map g := by
  unfold Block.fragOf Block.modTeam
  rw [AMap.find?_modify_self]
  cases AMap.find? b.teams t with
  | none => rfl
  | some tm => exact Team.frag_modFrag hg
theorem Block.fragOf_modFrag_ne (b : Block) {t n t' m : Nat} {g : Frag → Frag} (hg : ∀ f, (g f).csn = f.csn) (h : (t, n) ≠ (t', m)) :
    (b.modTeam t fun tm => tm.modFrag n g).fragOf t' m = b.fragOf t' m := by
  unfold Block.fragOf Block.modTeam
  by_cases ht : t = t'
  · subst ht
    rw [AMap.find?_modify_self]
    cases AMap.find? b.teams t with
    | none => rfl
    | some tm => exact Team.frag_modFrag_ne hg fun e => h (by rw [e])
  · rw [AMap.find?_modify_ne _ _ ht]

theorem Block.fragOf_reloadInto_self {b : Block} {t csn e : Nat} {f : Frag} (h : b.fragOf t csn = some f) :
    (b.reloadInto t csn e).fragOf t csn = some { f with spilled := false, entry := e } := by
  refine (Block.fragOf_modFrag_self b t csn (by intro f; rfl)).trans ?_
  rw [h]; rfl
theorem Block.fragOf_reloadInto_ne (b : Block) {t csn e t' m : Nat} (h : (t, csn) ≠ (t', m)) :
    (b.reloadInto t csn e).fragOf t' m = b.fragOf t' m := Block.fragOf_modFrag_ne b (by intro f; rfl) h
theorem Block.fragOf_spillFrag_self (b : Block) (t csn : Nat) :
    ((b.spillFrag t csn).fragOf t csn).map Frag.spilled = (b.fragOf t csn).map fun _ => true := by
  have h := Block.fragOf_modFrag_self (b.modPart (t % 4) fun q => { q with spillNext := (b.part (t % 4)).spillNext + 1 }) t csn
    (g := fun f => { f with spilled := true, spillSeq := (b.part (t % 4)).spillNext }) (by intro f; rfl)
  refine (congrArg (Option.map Frag.spilled) h).trans ?_
  rw [Option.map_map]; rfl
theorem Block.fragOf_spillFrag_ne (b : Block) {t csn t' m : Nat} (h : (t, csn) ≠ (t', m)) : (b.spillFrag t csn).fragOf t' m = b.fragOf t' m :=
  Block.fragOf_modFrag_ne (b.modPart (t % 4) fun q => { q with spillNext := (b.part (t % 4)).spillNext + 1 }) (by intro f; rfl) h

theorem resident_spilled {b : Block} {p : Nat} {y : Nat × Frag} (h : y ∈ b.resident p) : y.2.spilled = false := by
  obtain ⟨x, -, hx⟩ := List.mem_flatMap.1 h
  split at hx
  · obtain ⟨f, hf, rfl⟩ := List.mem_map.1 hx
    simpa using (List.mem_filter.1 hf).2
  · cases hx

/-! ### The youngest fragment (R47) -/

/-- The younger of two fragments, the first of them when neither is. -/
def younger (a : Option (Nat × Frag)) (y : Nat × Frag) : Option (Nat × Frag) :=
  match a with
  | none => some y
  | some z => if z.2.csn < y.2.csn then some y else some z

theorem foldl_younger {x : Nat × Frag} {l : List (Nat × Frag)} (hl : ∀ y ∈ l, y = x ∨ y.2.csn < x.2.csn) (a : Option (Nat × Frag))
    (ha : ∀ z ∈ a, z = x ∨ z.2.csn < x.2.csn) (hx : x ∈ l ∨ a = some x) : l.foldl younger a = some x := by
  induction l generalizing a with
  | nil => exact hx.resolve_left (by simp)
  | cons y l ih =>
    have hy := hl y List.mem_cons_self
    have hnext : (∀ z ∈ younger a y, z = x ∨ z.2.csn < x.2.csn) ∧ (a = some x ∨ y = x → younger a y = some x) := by
      unfold younger
      cases a with
      | none =>
        refine ⟨fun z hz => ?_, fun h => ?_⟩
        · obtain rfl := Option.some.inj hz
          exact hy
        · rw [h.resolve_left (by simp)]
      | some z =>
        have hz := ha z rfl
        dsimp only
        split
        · next hlt =>
          refine ⟨fun z' hz' => Option.some.inj hz' ▸ hy, fun h => ?_⟩
          rcases hy with rfl | hy
          · rfl
          · rcases h with h | rfl
            · obtain rfl := Option.some.inj h
              omega
            · rfl
        · next hge =>
          refine ⟨fun z' hz' => Option.some.inj hz' ▸ hz, fun h => ?_⟩
          rcases hz with rfl | hz
          · rfl
          · rcases h with h | rfl
            · exact h
            · omega
    refine ih (fun y hy => hl y (List.mem_cons_of_mem _ hy)) _ hnext.1 ?_
    rcases hx with hx | hx
    · rcases List.mem_cons.1 hx with rfl | hx
      · exact Or.inr (hnext.2 (Or.inr rfl))
      · exact Or.inl hx
    · exact Or.inr (hnext.2 (Or.inl hx))

/-! ### `FRAGMENT_RELOAD` (R47) -/

section
variable {s : State} {core part t : Nat} {f : Frag} {b : Block} (hb : s.block core = some b) (hr : b.reloadable (part % 4) = some (t, f))
include hb hr

theorem fragmentReload_free {e : Nat} (he : b.freeEntry (part % 4) = some e) : exec (.fragmentReload core part) s
    = .next ((s.modBlock core fun b => b.reloadInto t f.csn e).settle core t) := by
  change execFragmentReload core part s = _
  unfold execFragmentReload
  simp only [hb, hr, he]

theorem fragmentReload_spills {y : Nat × Frag} (he : b.freeEntry (part % 4) = none)
    (hall : ∀ y ∈ b.resident (part % 4), y.2.waiting = true ∨ y.2.safe = true ∨ y.2.hollow = true)
    (hyoung : ((b.resident (part % 4)).filter fun y => !y.2.safe && ((AMap.find? b.teams y.1).elim false fun tm => tm.leafless y.2.csn)).foldl younger none
      = some y) (hwait : s.subWaits core (b.spillOff y.1 y.2) 64 s.seqNo = false) : exec (.fragmentReload core part) s
    = .next ((s.modBlock core fun b => (b.spillFrag y.1 y.2.csn).reloadInto t f.csn y.2.entry).settle core t) := by
  have hparked : ((b.resident (part % 4)).all fun y => y.2.waiting || y.2.safe || y.2.hollow) = true := by
    rw [List.all_eq_true]
    intro y hy
    simpa [or_assoc] using hall y hy
  change execFragmentReload core part s = _
  unfold execFragmentReload
  simp only [hb, hr, he, hparked, if_true]
  change (match ((b.resident (part % 4)).filter fun y => !y.2.safe
      && ((AMap.find? b.teams y.1).elim false fun tm => tm.leafless y.2.csn)).foldl younger none with
    | none => _ | some y => _) = _
  rw [hyoung]
  simp only [hwait, Bool.false_eq_true, if_false]

variable {tm : Team} (ht : AMap.find? b.teams t = some tm) (hf : tm.frag f.csn = some f)
include ht hf

theorem reload_free {e : Nat} (he : b.freeEntry (part % 4) = some e) :
    ∃ u : State, exec (.fragmentReload core part) s = .next (u.settle core t) ∧ u.fragAt core t f.csn = some { f with spilled := false, entry := e }
      ∧ u.rest = s.rest ∧ ∀ j m, (j, m) ≠ (core, t) → u.team j m = s.team j m := by
  have hfrag : b.fragOf t f.csn = some f := by unfold Block.fragOf; rw [ht]; exact hf
  refine ⟨_, fragmentReload_free hb hr he, ?_, State.rest_modCore _ _ _, fun j m hne => ?_⟩
  · rw [fragAt_of_block (b := b.reloadInto t f.csn e) (by rw [State.modBlock_block_self, hb]; rfl)]
    exact Block.fragOf_reloadInto_self hfrag
  · by_cases hj : core = j
    · subst hj
      rw [State.team, State.modBlock_block_self, hb, State.team, hb]
      exact AMap.find?_modify_ne _ _ fun h => hne (by rw [h])
    · rw [State.team, State.modBlock_block_ne _ _ hj]; rfl

theorem reload_spills {t' : Nat} {g : Frag} {tm' : Team} (he : b.freeEntry (part % 4) = none)
    (hall : ∀ y ∈ b.resident (part % 4), y.2.waiting = true ∨ y.2.safe = true ∨ y.2.hollow = true) (hs : f.spilled = true)
    (ht' : AMap.find? b.teams t' = some tm') (hg : tm'.frag g.csn = some g) (hres : (t', g) ∈ b.resident (part % 4))
    (hmay : g.safe = false ∧ ∃ x, AMap.find? b.teams t' = some x ∧ x.leafless g.csn = true)
    (hmost : ∀ y ∈ b.resident (part % 4), (y.2.safe = false ∧ ∃ x, AMap.find? b.teams y.1 = some x ∧ x.leafless y.2.csn = true) →
      y = (t', g) ∨ y.2.csn < g.csn)
    (hwait : s.subWaits core (b.spillOff t' g) 64 s.seqNo = false) :
    ∃ u : State, exec (.fragmentReload core part) s = .next (u.settle core t)
      ∧ u.fragAt core t f.csn = some { f with spilled := false, entry := g.entry }
      ∧ (u.fragAt core t' g.csn).map Frag.spilled = some true ∧ u.rest = s.rest := by
  have hfrag : b.fragOf t f.csn = some f := by unfold Block.fragOf; rw [ht]; exact hf
  have hfrag' : b.fragOf t' g.csn = some g := by unfold Block.fragOf; rw [ht']; exact hg
  have hne : (t', g.csn) ≠ (t, f.csn) := by
    intro h
    obtain ⟨rfl, hcsn⟩ := Prod.mk.inj h
    rw [hcsn, hfrag] at hfrag'
    obtain rfl := Option.some.inj hfrag'
    have hin : f.spilled = false := resident_spilled hres
    rw [hs] at hin; cases hin
  have may : ∀ y : Nat × Frag, (!y.2.safe && ((AMap.find? b.teams y.1).elim false fun tm => tm.leafless y.2.csn)) = true ↔
      y.2.safe = false ∧ ∃ x, AMap.find? b.teams y.1 = some x ∧ x.leafless y.2.csn = true := by
    intro y
    cases AMap.find? b.teams y.1 <;> simp
  have hyoung := foldl_younger (x := (t', g))
    (l := (b.resident (part % 4)).filter fun y => !y.2.safe && ((AMap.find? b.teams y.1).elim false fun tm => tm.leafless y.2.csn))
    (fun y hy => hmost y (List.mem_filter.1 hy).1 ((may y).1 (List.mem_filter.1 hy).2)) none (by simp)
    (Or.inl (List.mem_filter.2 ⟨hres, (may (t', g)).2 hmay⟩))
  have hblock : (s.modBlock core fun b => (b.spillFrag t' g.csn).reloadInto t f.csn g.entry).block core
      = some ((b.spillFrag t' g.csn).reloadInto t f.csn g.entry) := by
    rw [State.modBlock_block_self, hb]; rfl
  refine ⟨_, fragmentReload_spills hb hr he hall hyoung hwait, ?_, ?_, State.rest_modCore _ _ _⟩
  · rw [fragAt_of_block hblock]
    exact Block.fragOf_reloadInto_self ((b.fragOf_spillFrag_ne hne).trans hfrag)
  · rw [fragAt_of_block hblock, Block.fragOf_reloadInto_ne _ (Ne.symm hne), Block.fragOf_spillFrag_self, hfrag']
    rfl
end

/-! ### `INSTRUCTION_FETCH` (R109, R419) -/

theorem instructionFetch_fills {s : State} {core va : Nat} {b : Block} {e : TlbEntry} (hb : s.block core = some b)
    (he : tlbHit s (s.core core).tlb b.asid (va % 2 ^ 57) = some e) (hl1 : s.l1Get core (e.pa (va % 2 ^ 57)) = none)
    (hown : s.owned s.seqNo (.pa (e.pa (va % 2 ^ 57))) = false) (hfill : s.mayFill (e.pa (va % 2 ^ 57) / 32 * 32) 32 = true)
    (hpoison : s.poisonedAt (.pa (e.pa (va % 2 ^ 57) / 32 * 32)) 32 = false) :
    exec (.instructionFetch core va) s = .next (s.l1Fill core (e.pa (va % 2 ^ 57))) := by
  change execInstructionFetch core va s = _
  unfold execInstructionFetch
  simp only [hb, Option.elim_some, he, hl1, hown, hfill, hpoison, Option.isSome_none, Bool.or_self, Bool.not_true, Bool.false_eq_true, if_false]

end Sys2Proof.Machine
end

open Sys2Proof Sys2Proof.Machine

/-- Settles O39: the sector that a fetch fills; the entry that a reload takes, free or of the youngest fragment; what a walk does with what it
found, once its tables have been read; the entry of a walk ahead of use. -/
theorem fetchAndWalks : Obligations.FetchAndWalks := by
  unfold Obligations.FetchAndWalks
  refine ⟨⟨?_, ?_, ?_⟩, ?_, ?_⟩
  · intro s core va b e hb he pa base hl1 hown hfill hpoison
    exact ⟨_, instructionFetch_fills hb he hl1 hown hfill hpoison, l1Get_l1Fill s core rfl, l1Fill_block s core pa, l1Fill_mem s core pa⟩
  · intro s core part e t f b tm hb hr he ht hf
    exact reload_free hb hr ht hf he
  · intro s core part t t' f g b tm tm' hb p may hr he hall ht hf hs ht' hg hres hmay hmost hwait
    exact reload_spills hb hr ht hf he hall hs ht' hg hres hmay hmost hwait
  · intro s core i b w hb hw hmay s0 keeps entry parks
    refine ⟨?_, ?_, ?_⟩
    · intro l fr wOk d path hwalk hkeeps
      rw [pageWalk_dropped hb hw hmay hkeeps, hwalk]
      rfl
    · intro q hkeeps hwalk h64 _
      rw [pageWalk_served hb hw hmay hkeeps, hwalk]
      exact congrArg Host.Outcome.next (if_pos h64)
    · intro tm hkeeps ht hh
      have hserved := pageWalk_served hb hw hmay hkeeps
      have hteam : (s.walked core i w).team core w.team = some tm := (walked_team s core i w core w.team).trans ht
      have hgen : ((s.walked core i w).space w.asid).gen = w.gen := by rw [walked_space]; exact hkeeps.1
      refine ⟨?_, ?_, ?_, ?_⟩
      · intro l fr wOk d path hwalk hok
        rw [hserved, hwalk, walkServed_leaf hteam hgen hok]
        exact ⟨fun hl => congrArg Host.Outcome.next (fillTeamTlb_core _ hl), fun st n order hl => congrArg Host.Outcome.next (fillTeamTlb_up _ hl)⟩
      · intro l fr d path hwalk hwr hp
        have hpark := parkTeam_first (b := b) (((memoryStep_setAD (s.walked core i w) w.asid path false).team core w.team).trans hteam) hh hp
        rw [hserved, hwalk, walkServed, hwr]
        rw [hwr] at hpark
        exact congrArg Host.Outcome.next hpark
      · intro hwalk h64 hp
        rw [hserved, hwalk, walkServed, walkAbsent, if_neg h64, parkTeam_first hteam hh hp]
        rfl
      · intro f poison hwalk h64 hfetch hf
        rw [hserved, hwalk, walkServed_bad poison hteam h64 hfetch hf]
        obtain ⟨tm', hfind, hhalt, hcause, hstat, hmem⟩ := haltNow_reports (r := walkHalt w tm f poison) hteam hh rfl
        refine ⟨_, tm', rfl, hfind, hhalt, hcause.trans ?_, hstat, hmem.trans (walked_mem s core i w)⟩
        rw [walkHalt, Bool.false_or]
  · intro s cl va asid l fr wr w d path hp hmiss hmay hwalk
    exact walkAhead_fills hp hmiss hmay hwalk
